-- ==== Sys2Proof/Word.lean ====
section
/-!
DEFINITION. Words, identities of agents and the small operand types shared by the syntax and the machine (spec/00, R2 to R6, R16, R17).
-/

namespace Sys2Proof

abbrev Byte := BitVec 8
abbrev Half := BitVec 16
abbrev Word32 := BitVec 32
abbrev Word := BitVec 64
abbrev Vec := BitVec 512
/-- A Norson register field, five bits (R85, R217). -/
abbrev Reg := BitVec 5
/-- A Livik register index, four bits (R32). -/
abbrev LIdx := BitVec 4

/-- A core: a compute core by its 14-bit identity (R16), or a kernel core by its kernel index (R17). -/
structure CoreId where
  kernel : Bool
  idx : Nat
  deriving DecidableEq, Repr

/-- A thread set 0 to 3 of a core (R83). -/
structure TsId where
  core : CoreId
  ts : Nat
  deriving DecidableEq, Repr

/-- The second operand of an ALU-K instruction: the literal or the window operand (R93, R218). -/
inductive KOp where
  | lit (v : BitVec 32)
  | win (k : BitVec 3) (w : BitVec 17)
  deriving DecidableEq, Repr

/-- A Livik register of any class: scalar, context or token string (R32). -/
inductive LReg where
  | a (i : LIdx)
  | c (i : LIdx)
  | t (i : LIdx)
  deriving DecidableEq, Repr

/-- The class of a register: 0 a, 1 c, 2 t. -/
def LReg.cls : LReg → Nat
  | .a _ => 0 | .c _ => 1 | .t _ => 2

/-- Where the front end takes a packet from (R64, R109, R114, R243). -/
inductive PacketSrc where
  | host (q : Nat)
  | child (id : Nat)
  | invoke (slot : Nat)
  | stepLaunch (id : Nat)
  deriving DecidableEq, Repr

/-- What a soft error damages (R176, cause SOFT). -/
inductive SoftTarget where
  | sreg (t : TsId) (n : Nat)
  | vreg (t : TsId) (n : Nat)
  | preg (t : TsId) (n : Nat)
  | queue (t : TsId) (n : Nat)
  | scratch (bus : Nat)
  deriving DecidableEq, Repr

/-- One move of the residency planner (R52, R53, R74, R77, R247). -/
inductive PlanOp where
  | reserve (slot : Nat) (frame : Nat)
  | fold (pti : Nat) (hslot : Nat)
  | shelve (pti : Nat) (block : Nat)
  | unfold (pti : Nat) (frame : Nat)
  | detach (cid : Nat)
  deriving DecidableEq, Repr

/-- An access of a Tlarriud peer (R208). -/
inductive PeerAccess where
  | read (addr : Nat) (n : Nat)
  | write (addr : Nat) (data : List Byte)
  | amo (op : Nat) (w : Bool) (addr : Nat) (b cmp : Word)
  | msg (core : Nat) (w0 w1 : Word) (pay : Vec)   -- a message for a core of this device
  deriving DecidableEq, Repr

/-- A submission entry of a leased NVMe queue (R205). -/
structure NvmeCmd where
  opcode : Nat
  nsid : Nat
  lba : Nat
  nlb : Nat
  deriving DecidableEq, Repr

/-- A Norson context that Edoiny has created (R189): its descriptor, whether it is granted to the host, and its windows. -/
structure CtxInput where
  ctx : Half
  ptroot : Word
  save : Word
  grant : Word
  sizes : Word
  hostGranted : Bool
  wins : List (BitVec 256)
  deriving DecidableEq, Repr

/-- The firewall set of a seam bundle (R212): address ranges, as start and length, and message sources allowed, as KSRC and SRC (R17). -/
structure FwSet where
  ranges : List (Nat × Nat)
  sources : List (Bool × Nat)
  deriving DecidableEq, Repr

/-- A named scratchpad region of the launches whose root handler is `entry` (R99, R233): local offset, length, and the address
of the data that initialises it. -/
structure Region where
  ctx : Half
  entry : Nat
  off : Nat
  len : Nat
  init : Option Word
  deriving DecidableEq, Repr

/-- The outcome of the boot ROM's steps and the items of the configuration table (R211, R212), and the units that fuses and table
leave absent (R22). `fail` is the first step, 1 to 6, that fails, or 0. Then what Edoiny sets up: the context page table (R69) and where its
page lists begin, the free frames as (first 64 KiB unit, units), the Norson contexts, the islands' limits in MHz (R20), the regions of host
memory granted at boot (R198), and the scratchpad regions of the programs that it has loaded (R233). -/
structure BootInput where
  fail : Nat
  seam : List Nat
  roles : List (Nat × Nat)
  hostX1 : Bool
  absentBundles : List Nat
  absentChannels : List Nat
  absentKernel : List Nat
  absentL2 : List Nat
  absentCopy : List Nat
  absentIslands : List Nat
  lanes : List (Nat × Nat)
  cfgDigest : List Byte
  seamDigest : List Byte
  osDigest : List Byte
  ptBase : Nat
  ptSize : Nat
  frames : List (Nat × Nat)
  ctxs : List CtxInput
  firewall : List (Nat × FwSet)
  routes : List (Nat × Nat)
  device : Nat
  listBase : Nat
  limits : List (Nat × Nat × Nat)
  hostRegions : List (Nat × Nat)
  regions : List Region
  deriving DecidableEq, Repr

/-! Association lists: the first entry of a key counts. -/

namespace Assoc

def get {κ α : Type} [DecidableEq κ] : List (κ × α) → κ → Option α
  | [], _ => none
  | (k', v) :: r, k => if k = k' then some v else get r k

def getD {κ α : Type} [DecidableEq κ] (l : List (κ × α)) (k : κ) (d : α) : α :=
  (get l k).getD d

def set {κ α : Type} [DecidableEq κ] : List (κ × α) → κ → α → List (κ × α)
  | [], k, v => [(k, v)]
  | (k', v') :: r, k, v => if k = k' then (k, v) :: r else (k', v') :: set r k v

def del {κ α : Type} [DecidableEq κ] (l : List (κ × α)) (k : κ) : List (κ × α) :=
  l.filter (fun e => decide (e.1 ≠ k))

end Assoc

end Sys2Proof
end

