-- ==== Sys2Proof/Syntax.lean ====
section
/-!
DEFINITION. The rows of spec/opcode_table.json, one constructor each: the Norson instructions (R217 to R228), the Livik
instructions (R32, R215), and the device events, which have no encoding and are taken from State.agenda or by the
scheduler (log 7). Operand names follow the table's fields.
-/

namespace Sys2Proof

inductive Instr where
  -- ALU-R (R220, R258)
  | add (d a b : Reg) (w : Bool) | sub (d a b : Reg) (w : Bool) | mul (d a b : Reg) (w : Bool)
  | mulh (d a b : Reg) | mulhu (d a b : Reg)
  | div (d a b : Reg) (w : Bool) | divu (d a b : Reg) (w : Bool) | rem (d a b : Reg) (w : Bool) | remu (d a b : Reg) (w : Bool)
  | and (d a b : Reg) (w : Bool) | or (d a b : Reg) (w : Bool) | xor (d a b : Reg) (w : Bool)
  | shl (d a b : Reg) (w : Bool) | shr (d a b : Reg) (w : Bool) | sar (d a b : Reg) (w : Bool)
  | slt (d a b : Reg) (w : Bool) | sltu (d a b : Reg) (w : Bool)
  | min (d a b : Reg) (w : Bool) | max (d a b : Reg) (w : Bool) | minu (d a b : Reg) (w : Bool) | maxu (d a b : Reg) (w : Bool)
  | clz (d a : Reg) (w : Bool) | popc (d a : Reg) (w : Bool)
  -- ALU-K (R218, R258)
  | addK (d a : Reg) (w : Bool) (k : KOp) | subK (d a : Reg) (w : Bool) (k : KOp) | mulK (d a : Reg) (w : Bool) (k : KOp)
  | mulhK (d a : Reg) (k : KOp) | mulhuK (d a : Reg) (k : KOp)
  | divK (d a : Reg) (w : Bool) (k : KOp) | divuK (d a : Reg) (w : Bool) (k : KOp)
  | remK (d a : Reg) (w : Bool) (k : KOp) | remuK (d a : Reg) (w : Bool) (k : KOp)
  | andK (d a : Reg) (w : Bool) (k : KOp) | orK (d a : Reg) (w : Bool) (k : KOp) | xorK (d a : Reg) (w : Bool) (k : KOp)
  | shlK (d a : Reg) (w : Bool) (k : KOp) | shrK (d a : Reg) (w : Bool) (k : KOp) | sarK (d a : Reg) (w : Bool) (k : KOp)
  | sltK (d a : Reg) (w : Bool) (k : KOp) | sltuK (d a : Reg) (w : Bool) (k : KOp)
  | minK (d a : Reg) (w : Bool) (k : KOp) | maxK (d a : Reg) (w : Bool) (k : KOp)
  | minuK (d a : Reg) (w : Bool) (k : KOp) | maxuK (d a : Reg) (w : Bool) (k : KOp)
  -- immediates (R221)
  | addi (d a : Reg) (i : Half) | andi (d a : Reg) (i : Half) | ori (d a : Reg) (i : Half) | xori (d a : Reg) (i : Half)
  | slti (d a : Reg) (i : Half)
  | shiShl (d a : Reg) (n : BitVec 6) | shiShr (d a : Reg) (n : BitVec 6) | shiSar (d a : Reg) (n : BitVec 6)
  | lih (d : Reg) (k : BitVec 2) (i : Half)
  -- FP scalar (R222)
  | fadd (d a b : Reg) (e : Bool) (m : BitVec 2) | fsub (d a b : Reg) (e : Bool) (m : BitVec 2)
  | fmul (d a b : Reg) (e : Bool) (m : BitVec 2) | ffma (d a b : Reg) (e : Bool) (m : BitVec 2)
  | fdiv (d a b : Reg) (e : Bool) (m : BitVec 2) | fsqrt (d a : Reg) (e : Bool) (m : BitVec 2)
  | fmin (d a b : Reg) (e : Bool) | fmax (d a b : Reg) (e : Bool)
  | fcmpEq (d a b : Reg) (e : Bool) | fcmpLt (d a b : Reg) (e : Bool) | fcmpLe (d a b : Reg) (e : Bool) | fcmpUn (d a b : Reg) (e : Bool)
  | fcvtF (d a : Reg) (e : Bool) (m : BitVec 2) | fcvtF2i (d a : Reg) (e : Bool) (m : BitVec 2)
  | fcvtF2u (d a : Reg) (e : Bool) (m : BitVec 2) | fcvtI2f (d a : Reg) (e : Bool) (m : BitVec 2) | fcvtU2f (d a : Reg) (e : Bool) (m : BitVec 2)
  -- memory (R223, R224, R108, R149)
  | ld (z : BitVec 2) (x : Bool) (h : BitVec 2) (a : Reg) (i : Half)
  | st (z : BitVec 2) (h : BitVec 2) (a : Reg) (i : Half)
  | vld (h : BitVec 2) (a : Reg) (i : Half) | vst (h : BitVec 2) (a : Reg) (i : Half)
  | pref (l : BitVec 2) (a : Reg) (i : Half)
  | vgath (a b : Reg) (p t : BitVec 3) | vscat (a b : Reg) (p t : BitVec 3)
  | brd (d a b : Reg) (n : BitVec 11) | bwr (d a b : Reg) (n : BitVec 11)
  | copy (d a : Reg)
  -- atomics (R225)
  | amoAdd (a b : Reg) (w r m : Bool) (o : BitVec 2) | amoFadd (a b : Reg) (w r m : Bool) (o : BitVec 2)
  | amoMin (a b : Reg) (w r m : Bool) (o : BitVec 2) | amoMax (a b : Reg) (w r m : Bool) (o : BitVec 2)
  | amoMinu (a b : Reg) (w r m : Bool) (o : BitVec 2) | amoMaxu (a b : Reg) (w r m : Bool) (o : BitVec 2)
  | amoAnd (a b : Reg) (w r m : Bool) (o : BitVec 2) | amoOr (a b : Reg) (w r m : Bool) (o : BitVec 2)
  | amoXor (a b : Reg) (w r m : Bool) (o : BitVec 2) | amoSwap (a b : Reg) (w r m : Bool) (o : BitVec 2)
  | amoCas (c a b : Reg) (w r m : Bool) (o : BitVec 2)
  -- branches and jumps (R226)
  | beq (a b : Reg) (o : BitVec 13) | bne (a b : Reg) (o : BitVec 13) | blt (a b : Reg) (o : BitVec 13) | bge (a b : Reg) (o : BitVec 13)
  | bltu (a b : Reg) (o : BitVec 13) | bgeu (a b : Reg) (o : BitVec 13) | bpa (p : BitVec 3) (o : BitVec 13) | bpn (p : BitVec 3) (o : BitVec 13)
  | jal (d : Reg) (o : BitVec 21) | jr (d a : Reg) (o : Half)
  -- messages, tasks, launches (R106, R115, R105, R129, R118, R114, R121)
  | send (v a b : Reg) (s : BitVec 3) | sendo (v a b : Reg) (s : BitVec 3) | spawn (v : Reg) | done
  | gset (a b : Reg) (m : Bool) | gadd (a b : Reg) (m : Bool) | gmax (a b : Reg) (m : Bool) | gget (a : Reg)
  | bara (v a : Reg) (g : Byte) (r : BitVec 3) | lnch (v a : Reg) | lend
  -- vector (R227, R228)
  | vadd (d a b : Reg) (p t : BitVec 3) | vsub (d a b : Reg) (p t : BitVec 3) | vmul (d a b : Reg) (p t : BitVec 3) | vfma (d a b : Reg) (p t : BitVec 3)
  | vmin (d a b : Reg) (p t : BitVec 3) | vmax (d a b : Reg) (p t : BitVec 3)
  | vand (d a b : Reg) (p t : BitVec 3) | vor (d a b : Reg) (p t : BitVec 3) | vxor (d a b : Reg) (p t : BitVec 3)
  | vshl (d a b : Reg) (p t : BitVec 3) | vshr (d a b : Reg) (p t : BitVec 3) | vsar (d a b : Reg) (p t : BitVec 3)
  | vsel (d a b : Reg) (p t : BitVec 3) | vcmp (c : BitVec 2) (q : BitVec 3) (a b : Reg) (p t : BitVec 3)
  | vbcast (d s : Reg) (p t : BitVec 3) | vperm (d a b : Reg) (p t : BitVec 3) | vred (d a : Reg) (o : BitVec 2) (p t : BitVec 3)
  | vcvtConvert (d a : Reg) (x p s : BitVec 3) | vcvtTomx (d a : Reg) (n : Bool) (f : BitVec 4) (s : BitVec 3)
  | vcvtFrommx (d a : Reg) (f : BitVec 4) (s : BitVec 3)
  -- press (R143, R141)
  | mma (a b : BitVec 3) (s : BitVec 3) (f g : BitVec 4) (z k j : Bool) (n : BitVec 3)
  | mring (a b : Reg) (n : BitVec 3) | mradv (a : Reg) (n : BitVec 3) | mzero (s : BitVec 2) | mst (d a b : Reg) (m : BitVec 3) (s : BitVec 2)
  -- ordering, spill, special registers (R160, R95, R87)
  | fenceAcq (s : BitVec 3) | fenceRel (s : BitVec 3) | fenceFull (s : BitVec 3)
  | spill (d a : Reg) (t : BitVec 3) | fill (d a : Reg) (t : BitVec 3) | tokw (t : BitVec 3)
  | getsr (d : Reg) (n : BitVec 12) | setsr (a : Reg) (n : BitVec 12)
  -- system (R180, R183, R210, R194)
  | nop | yield | brk (a : Reg) (c : BitVec 4) | trap (a : Reg) (c : BitVec 4) | tretRetry | tretSkip | tretKill
  | gatew (a b : Reg) | freeze (a b : Reg) | thaw (a b : Reg) | ktlb (a b : Reg) | markq (a b : Reg) (g : Bool)
  -- Livik (R215)
  | aset (a : LIdx) (i : Word32)
  | acalcAdd (a b c : LIdx) | acalcSub (a b c : LIdx) | acalcMul (a b c : LIdx) | acalcDiv (a b c : LIdx) | acalcRem (a b c : LIdx)
  | acalcAnd (a b c : LIdx) | acalcOr (a b c : LIdx) | acalcXor (a b c : LIdx) | acalcShl (a b c : LIdx) | acalcShr (a b c : LIdx)
  | acalcMin (a b c : LIdx) | acalcMax (a b c : LIdx) | acalcEq (a b c : LIdx) | acalcLt (a b c : LIdx) | acalcLtu (a b c : LIdx)
  | goto (i : Word32) | goif (a : LIdx) (i : Word32) | gosub (i : Word32) | goret | endp
  | ctxnew (a b : LIdx) | ctxfork (a b : LIdx) | ctxdrop (a : LIdx) | ctxtrim (a b : LIdx) | ctxlen (a b : LIdx)
  | ctxpinHold (a : LIdx) | ctxpinRelease (a : LIdx)
  | append (a b : LIdx) | genu (a b c d : LIdx) (i : Word32) | score (a b c : LIdx) | choose (a b c : LIdx) (app : Bool) (sep : BitVec 24)
  | tlit (a : LIdx) (i : Word32) | tcat (a b c : LIdx) | tcut (a b c d : LIdx) | tlen (a b : LIdx) | tfind (a b c d : LIdx)
  | tcmp (a b c : LIdx) | tadd (a b : LIdx) | tget (a b c : LIdx)
  | post (a b : LIdx) (c : LReg) (i : Word32) | await (a : LReg) (b : LIdx) (i : Word32) | invoke (a b : LIdx) | stamp (a : LIdx)
  -- host and service events (R197 to R203)
  | qdoor (q : Nat) (data : List Byte) | lsub (data : List Byte) (hint : Nat) | mbox (slot : Nat) (data : List Byte)
  | bindQueue | unbindQueue | unbindQueueDrained | releaseSlot | registerModelImage (hint : Nat) | extendHostMemory
  | killProgram | withdrawModelImage | kreq (slot : Nat) | fullFree (slot e : Nat) | deferredNoticePost (slot : Nat)
  | hostLoad (addr n : Nat) | hostStore (addr : Nat) (data : List Byte) | registerWrite (off : Nat) (data : List Byte)
  -- front end (R109 to R114, R388)
  | launchPacket (src : PacketSrc) (hint : Nat) | dependPacket (q : Nat) | signalPacket (src : PacketSrc) | fetchFencePacket (q : Nat)
  | fetchFenceRelease (q : Nat) | stampPacket (src : PacketSrc) | slotFire (addr : Nat) | pendingLaunchPlace (lid : Half)
  -- messages, deques, token, barriers (R103, R104, R116, R118, R120)
  | messageArrival (id : Nat) | messageHoldTimeout (id : Nat) | activationStart (t : TsId)
  | stealRequest (id : Nat) | emptyStealReply (id : Nat) | rinseTokenVisit (lid : Half) | baraArrival (id : Nat)
  -- block operations, copies, press (R108, R151, R144 to R148)
  | brdComplete (id : Nat) | bwrComplete (id : Nat) | copyEngineChunk (ctx : Half) (level : Nat)
  | pressCommandStart (b : Nat) | mmaRetire (b : Nat) | mzeroExecute (b : Nat) | mstExecute (b : Nat) | mstComplete (id : Nat)
  | accumulatorBankSwap (b : Nat)
  -- memory (R81, R90, R154 to R158)
  | loadPerformed (id : Nat) | storeTaken (id : Nat) | amoPerform (id : Nat) | spillComplete (id : Nat) | fillDeliver (id : Nat)
  | heldAccessResume (id : Nat) | heldAccessFail (id : Nat) | translationWalkComplete (b : Nat) (ctx : Half) (va : Word)
  | watchdogExpiry (t : TsId) | softError (x : SoftTarget)
  -- Pile (R126 to R134)
  | spawnArrive (id : Nat) | gainUpdateApply (id : Nat) | pileSample (lid : Half) | pileBroadcastReceive (lid : Half) (b : Nat)
  | pileOffer (t : TsId) | pileStealRequest (id : Nat) | pileStealReply (id : Nat) | footprintFetchComplete (id : Nat) | pileRetire (id : Nat)
  -- freeze and thaw (R184 to R195)
  | freezeCapturePoint (core : Nat) | freezeComplete (b : Nat) | thawComplete (b : Nat) | markedReplayArrival (id : Nat)
  -- sequencer and planner (R49 to R77, R244)
  | batchingWindowClose (img : Half) | strictStepPlace (slot : Nat) | stepLaunchComplete (id : Nat)
  | tokenMarkWrite (mark : Word) (line : Nat) (data : List Byte) (token : Word32)
  | awaitTimeout (slot : Nat) | invokeComplete (slot : Nat) | residencyPlan (op : PlanOp)
  | pageFoldComplete (pti : Nat) | pageShelveComplete (pti : Nat) | pageUnfoldComplete (pti : Nat) | nvmeReadFail (pti : Nat)
  | detachCopyComplete (cid : Nat) | pageRelease (pti : Nat) | sequencerRebuild
  -- attachments, faults, boot (R22, R196, R205 to R214)
  | ethernetFrameIngress (port : Nat) (frame : List Byte) | heldDepositIssue (port : Nat) | nvmeSubmissionCheck (lease : Nat) (cmd : NvmeCmd)
  | linkLaneFault (link : Nat) | bundleFault (b : Nat) | channelFault (c : Nat) | kernelCoreFault (k : Nat)
  | powerOnReset (boot : BootInput) | thermalThrottle (die mhz : Nat) | thermalReset
  | reservedEncoding (w : Word32) | livikIllopWord (w : Word) | serviceRequestUnknownCode
  | l2SliceFault (n : Nat) | copyEngineFault (n : Nat) | islandFault (n : Nat)
  | tlarriudPeerAccess (link : Nat) (acc : PeerAccess) | attestationReport (nonce : List Byte)
  deriving DecidableEq, Repr

end Sys2Proof
end

