-- ==== Sys2Proof/WellFormed.lean ====
section
/-!
DEFINITION. Which terms of Instr are instructions: the register rules of R85 and the field limits of R218 to R228, R32
and R215. A word whose candidate fails a check here raises ILLOP (R8, R229). Device events have no limits.
-/

namespace Sys2Proof

/-- A scalar source: s31 raises ILLOP (R85). -/
def Reg.srcS (r : Reg) : Bool := r != 31#5
/-- A scalar destination: s30 raises ILLOP (R85). -/
def Reg.dstS (r : Reg) : Bool := r != 30#5
/-- A scalar register read and written: neither s30 nor s31 (R221, R222). -/
def Reg.rmwS (r : Reg) : Bool := r != 30#5 && r != 31#5
/-- A vector source: v31 raises ILLOP (R85). -/
def Reg.srcV (r : Reg) : Bool := r != 31#5
/-- A vector destination: v30 raises ILLOP (R85). -/
def Reg.dstV (r : Reg) : Bool := r != 30#5
/-- The even register of a pair, v0 to v28 (R228). -/
def Reg.pairV (r : Reg) : Bool := r.toNat % 2 == 0 && decide (r.toNat ≤ 28)
/-- A register that lies inside the pair that starts at `p` (R228). -/
def Reg.inPair (r p : Reg) : Bool := r.toNat == p.toNat || r.toNat == p.toNat + 1

/-- A scope that an instruction may encode (R153). -/
def scopeOk (s : BitVec 3) : Bool := decide (s.toNat ≤ 5)
/-- An integer element type (R217). -/
def tyInt (t : BitVec 3) : Bool := decide (t.toNat < 4)
/-- A float element type (R217). -/
def tyFloat (t : BitVec 3) : Bool := decide (4 ≤ t.toNat)
/-- A source or destination type of VCVT forms 1 and 2: bf16, fp16 or fp32 (R228). -/
def tyMx (t : BitVec 3) : Bool := t == 4#3 || t == 5#3 || t == 6#3

/-- The special-register numbers of R88. -/
def srNumbers : List Nat :=
  [0x000, 0x001, 0x002, 0x003, 0x004, 0x005, 0x006, 0x007, 0x008, 0x009,
   0x010, 0x011, 0x012, 0x013, 0x014, 0x015, 0x016, 0x017,
   0x020, 0x021, 0x022, 0x023, 0x024, 0x025, 0x029, 0x02A, 0x02B, 0x02C, 0x02D, 0x030, 0x031]

def srOk (n : BitVec 12) : Bool := srNumbers.contains n.toNat

def wfAlu (d a b : Reg) : Bool := d.dstS && a.srcS && b.srcS
def wfAlu1 (d a : Reg) : Bool := d.dstS && a.srcS
def wfAmo (a b : Reg) : Bool := a.srcS && b.srcS
def wfV3 (d a b : Reg) : Bool := d.dstV && a.srcV && b.srcV

/-- The well-formed instructions. -/
def Instr.wf : Instr → Bool
  | .add d a b _ | .sub d a b _ | .mul d a b _ | .div d a b _ | .divu d a b _ | .rem d a b _ | .remu d a b _
  | .and d a b _ | .or d a b _ | .xor d a b _ | .shl d a b _ | .shr d a b _ | .sar d a b _ | .slt d a b _ | .sltu d a b _
  | .min d a b _ | .max d a b _ | .minu d a b _ | .maxu d a b _ | .mulh d a b | .mulhu d a b => wfAlu d a b
  | .clz d a _ | .popc d a _ => wfAlu1 d a
  | .addK d a _ _ | .subK d a _ _ | .mulK d a _ _ | .divK d a _ _ | .divuK d a _ _ | .remK d a _ _ | .remuK d a _ _
  | .andK d a _ _ | .orK d a _ _ | .xorK d a _ _ | .shlK d a _ _ | .shrK d a _ _ | .sarK d a _ _ | .sltK d a _ _
  | .sltuK d a _ _ | .minK d a _ _ | .maxK d a _ _ | .minuK d a _ _ | .maxuK d a _ _
  | .mulhK d a _ | .mulhuK d a _ => wfAlu1 d a
  | .addi d a _ | .andi d a _ | .ori d a _ | .xori d a _ | .slti d a _ => wfAlu1 d a
  | .shiShl d a _ | .shiShr d a _ | .shiSar d a _ => wfAlu1 d a
  | .lih d _ _ => d.rmwS
  | .fadd d a b _ _ | .fsub d a b _ _ | .fmul d a b _ _ | .fdiv d a b _ _ => wfAlu d a b
  | .ffma d a b _ _ => d.rmwS && a.srcS && b.srcS
  | .fmin d a b _ | .fmax d a b _ | .fcmpEq d a b _ | .fcmpLt d a b _ | .fcmpLe d a b _ | .fcmpUn d a b _ => wfAlu d a b
  | .fsqrt d a _ _ | .fcvtF d a _ _ | .fcvtF2i d a _ _ | .fcvtF2u d a _ _ | .fcvtI2f d a _ _ | .fcvtU2f d a _ _ => wfAlu1 d a
  | .ld z x h a _ => a.srcS && h != 3#2 && !(z == 3#2 && x)
  | .st _ h a _ | .vld h a _ | .vst h a _ => a.srcS && h != 3#2
  | .pref l a _ => a.srcS && decide (l.toNat < 2)
  | .vgath a b _ _ | .vscat a b _ _ => a.srcS && b.srcV
  | .brd d a b _ | .bwr d a b _ => d.srcS && a.srcS && b.srcS
  | .copy d a => d.srcV && a.srcS
  | .amoAdd a b _ _ _ _ | .amoFadd a b _ _ _ _ | .amoMin a b _ _ _ _ | .amoMax a b _ _ _ _ | .amoMinu a b _ _ _ _
  | .amoMaxu a b _ _ _ _ | .amoAnd a b _ _ _ _ | .amoOr a b _ _ _ _ | .amoXor a b _ _ _ _ | .amoSwap a b _ _ _ _ => wfAmo a b
  | .amoCas c a b _ _ _ _ => c.srcS && wfAmo a b
  | .beq a b _ | .bne a b _ | .blt a b _ | .bge a b _ | .bltu a b _ | .bgeu a b _ => a.srcS && b.srcS
  | .bpa _ _ | .bpn _ _ => true
  | .jal d _ => d.dstS
  | .jr d a _ => wfAlu1 d a
  | .send v a b s | .sendo v a b s => v.srcV && a.srcS && b.srcS && scopeOk s
  | .spawn v => v.srcV
  | .gset a b _ | .gadd a b _ | .gmax a b _ => a.srcS && b.srcS
  | .gget a => a.srcS
  | .bara v a _ r => v.srcV && a.srcS && decide (r.toNat ≤ 4)
  | .lnch v a => v.srcV && a.srcS
  | .done | .lend => true
  | .vadd d a b _ _ | .vsub d a b _ _ | .vmul d a b _ _ | .vmin d a b _ _ | .vmax d a b _ _
  | .vand d a b _ _ | .vor d a b _ _ | .vxor d a b _ _ | .vsel d a b _ _ | .vperm d a b _ _ => wfV3 d a b
  | .vfma d a b _ t => d.rmwS && a.srcV && b.srcV && tyFloat t
  | .vshl d a b _ t | .vshr d a b _ t | .vsar d a b _ t => wfV3 d a b && tyInt t
  | .vcmp c _ a b _ t => a.srcV && b.srcV && (c != 3#2 || tyInt t)
  | .vbcast d s _ _ => d.dstV && s.srcS
  | .vred d a o _ _ => d.dstS && a.srcV && o != 3#2
  | .vcvtConvert d a x _ s => d.dstV && a.srcV && x != s
  | .vcvtTomx d a n f s =>
      tyMx s && decide (f.toNat ≤ 5) && (!n || f == 1#4) && d.dstV &&
        (if s == 6#3 then a.pairV && !d.inPair a else a.srcV)
  | .vcvtFrommx d a f s =>
      tyMx s && decide (f.toNat ≤ 5) && a.srcV && (if s == 6#3 then d.pairV && !a.inPair d else d.dstV)
  | .mma a b s f g _ _ _ _ =>
      decide (s.toNat ≤ 3) && decide (f.toNat ≤ 7) && decide (g.toNat ≤ 7) &&
        (decide (f.toNat ≤ 5) == decide (g.toNat ≤ 5)) && a != b
  | .mring a b _ => a.srcS && b.srcS
  | .mradv a _ => a.srcS
  | .mzero _ => true
  | .mst d a b m _ => d.srcS && a.srcS && b.srcS && decide (m.toNat ≤ 4)
  | .fenceAcq s | .fenceRel s | .fenceFull s => scopeOk s
  | .spill d a _ | .fill d a _ => decide (d.toNat ≤ 29) && a.srcS
  | .tokw _ => true
  | .getsr d n => d.dstS && srOk n
  | .setsr a n => a.srcS && srOk n
  | .nop | .yield | .tretRetry | .tretSkip | .tretKill => true
  | .brk a _ => a.srcS
  | .trap a c => a.srcS && c != 0#4
  | .gatew a b | .freeze a b | .thaw a b | .ktlb a b | .markq a b _ => a.srcS && b.srcS
  | .genu a _ c _ _ => a != c
  | .await a b _ => a != LReg.a b
  | _ => true

end Sys2Proof
end

