-- ==== Sys2Proof/Decode.lean ====
section
/-!
DEFINITION. The decoder of both levels, total on any word, and the encoder (R32, R215 to R229). The decoder reads a
candidate from the fields, refuses a candidate that breaks a limit of Instr.wf, and refuses a word that holds a nonzero
bit in a field shown as zero: such a word is not the word that the encoding tables give the candidate (R8, R229).
-/

namespace Sys2Proof

/-- Why a word is no instruction (R8, R32, R85, R229). -/
inductive Reject where
  /-- A major opcode, function, op, kind or Livik opcode that is not assigned (R215, R219 to R228). -/
  | unassigned
  /-- A forbidden register or field use (R85, R218 to R228, R34, R270). -/
  | forbidden
  /-- A nonzero reserved field (R8). -/
  | reserved
  deriving DecidableEq, Repr

/-- Bits [lo + n − 1 : lo] of a word. -/
abbrev fld {m : Nat} (w : BitVec m) (lo n : Nat) : BitVec n := w.extractLsb' lo n
/-- One bit of a word. -/
abbrev bit {m : Nat} (w : BitVec m) (i : Nat) : Bool := w.getLsbD i

/-! ## Formats (R217, R218) -/

def fmtR (major : BitVec 6) (d a b : Reg) (fn : BitVec 11) : Word32 := major ++ d ++ a ++ b ++ fn
def fmtI (major : BitVec 6) (d a : Reg) (i : Half) : Word32 := major ++ d ++ a ++ i
def fmtB (a b : Reg) (cond : BitVec 3) (o : BitVec 13) : Word32 := 0x20#6 ++ a ++ b ++ cond ++ o
def fmtV (major : BitVec 6) (d a b : Reg) (p t : BitVec 3) (fn : BitVec 5) : Word32 := major ++ d ++ a ++ b ++ p ++ t ++ fn
def aluFn (w : Bool) (fn : BitVec 6) : BitVec 11 := BitVec.ofBool w ++ 0#4 ++ fn
def fpFn (e : Bool) (m : BitVec 2) (var : BitVec 3) (fn : BitVec 5) : BitVec 11 := BitVec.ofBool e ++ m ++ var ++ fn
def amoFn (w r m : Bool) (o : BitVec 2) (op : BitVec 5) : BitVec 11 :=
  0#1 ++ BitVec.ofBool w ++ BitVec.ofBool r ++ BitVec.ofBool m ++ o ++ op
def pressFn (mode n op : BitVec 3) : BitVec 11 := 0#2 ++ mode ++ n ++ op
def sysFn (a : Reg) (arg : BitVec 4) (op : BitVec 3) : Word32 := 0x3B#6 ++ 0#5 ++ a ++ 0#9 ++ arg ++ op
/-- The second word of an L-form (R218). -/
def kWord : KOp → Word32
  | .lit v => v
  | .win k w => k ++ w ++ 0#12
def kBit : KOp → Bool
  | .lit _ => false
  | .win _ _ => true
def fmtK (d a : Reg) (w : Bool) (fn : BitVec 6) (k : KOp) : List Word32 :=
  [0x09#6 ++ d ++ a ++ 0#4 ++ BitVec.ofBool w ++ BitVec.ofBool (kBit k) ++ 0#4 ++ fn, kWord k]

/-! ## The encoder -/

/-- The words of a Norson instruction (R217 to R228). -/
def encodeNorson : Instr → Option (List Word32)
  | .add d a b w => some [fmtR 0x01#6 d a b (aluFn w 0x00#6)]
  | .addK d a w k => some (fmtK d a w 0x00#6 k)
  | .sub d a b w => some [fmtR 0x01#6 d a b (aluFn w 0x01#6)]
  | .subK d a w k => some (fmtK d a w 0x01#6 k)
  | .mul d a b w => some [fmtR 0x01#6 d a b (aluFn w 0x02#6)]
  | .mulK d a w k => some (fmtK d a w 0x02#6 k)
  | .mulh d a b => some [fmtR 0x01#6 d a b (0#5 ++ 0x03#6)]
  | .mulhK d a k => some (fmtK d a false 0x03#6 k)
  | .mulhu d a b => some [fmtR 0x01#6 d a b (0#5 ++ 0x04#6)]
  | .mulhuK d a k => some (fmtK d a false 0x04#6 k)
  | .div d a b w => some [fmtR 0x01#6 d a b (aluFn w 0x05#6)]
  | .divK d a w k => some (fmtK d a w 0x05#6 k)
  | .divu d a b w => some [fmtR 0x01#6 d a b (aluFn w 0x06#6)]
  | .divuK d a w k => some (fmtK d a w 0x06#6 k)
  | .rem d a b w => some [fmtR 0x01#6 d a b (aluFn w 0x07#6)]
  | .remK d a w k => some (fmtK d a w 0x07#6 k)
  | .remu d a b w => some [fmtR 0x01#6 d a b (aluFn w 0x08#6)]
  | .remuK d a w k => some (fmtK d a w 0x08#6 k)
  | .and d a b w => some [fmtR 0x01#6 d a b (aluFn w 0x09#6)]
  | .andK d a w k => some (fmtK d a w 0x09#6 k)
  | .or d a b w => some [fmtR 0x01#6 d a b (aluFn w 0x0A#6)]
  | .orK d a w k => some (fmtK d a w 0x0A#6 k)
  | .xor d a b w => some [fmtR 0x01#6 d a b (aluFn w 0x0B#6)]
  | .xorK d a w k => some (fmtK d a w 0x0B#6 k)
  | .shl d a b w => some [fmtR 0x01#6 d a b (aluFn w 0x0C#6)]
  | .shlK d a w k => some (fmtK d a w 0x0C#6 k)
  | .shr d a b w => some [fmtR 0x01#6 d a b (aluFn w 0x0D#6)]
  | .shrK d a w k => some (fmtK d a w 0x0D#6 k)
  | .sar d a b w => some [fmtR 0x01#6 d a b (aluFn w 0x0E#6)]
  | .sarK d a w k => some (fmtK d a w 0x0E#6 k)
  | .slt d a b w => some [fmtR 0x01#6 d a b (aluFn w 0x0F#6)]
  | .sltK d a w k => some (fmtK d a w 0x0F#6 k)
  | .sltu d a b w => some [fmtR 0x01#6 d a b (aluFn w 0x10#6)]
  | .sltuK d a w k => some (fmtK d a w 0x10#6 k)
  | .min d a b w => some [fmtR 0x01#6 d a b (aluFn w 0x11#6)]
  | .minK d a w k => some (fmtK d a w 0x11#6 k)
  | .max d a b w => some [fmtR 0x01#6 d a b (aluFn w 0x12#6)]
  | .maxK d a w k => some (fmtK d a w 0x12#6 k)
  | .minu d a b w => some [fmtR 0x01#6 d a b (aluFn w 0x13#6)]
  | .minuK d a w k => some (fmtK d a w 0x13#6 k)
  | .maxu d a b w => some [fmtR 0x01#6 d a b (aluFn w 0x14#6)]
  | .maxuK d a w k => some (fmtK d a w 0x14#6 k)
  | .clz d a w => some [fmtR 0x01#6 d a 0#5 (aluFn w 0x15#6)]
  | .popc d a w => some [fmtR 0x01#6 d a 0#5 (aluFn w 0x16#6)]
  | .addi d a i => some [fmtI 0x02#6 d a i]
  | .andi d a i => some [fmtI 0x03#6 d a i]
  | .ori d a i => some [fmtI 0x04#6 d a i]
  | .xori d a i => some [fmtI 0x05#6 d a i]
  | .slti d a i => some [fmtI 0x07#6 d a i]
  | .shiShl d a n => some [fmtI 0x06#6 d a (0#8 ++ 0#2 ++ n)]
  | .shiShr d a n => some [fmtI 0x06#6 d a (0#8 ++ 1#2 ++ n)]
  | .shiSar d a n => some [fmtI 0x06#6 d a (0#8 ++ 2#2 ++ n)]
  | .lih d k i => some [fmtI 0x08#6 d (0#3 ++ k) i]
  | .fadd d a b e m => some [fmtR 0x0A#6 d a b (fpFn e m 0#3 0#5)]
  | .fsub d a b e m => some [fmtR 0x0A#6 d a b (fpFn e m 0#3 1#5)]
  | .fmul d a b e m => some [fmtR 0x0A#6 d a b (fpFn e m 0#3 2#5)]
  | .ffma d a b e m => some [fmtR 0x0A#6 d a b (fpFn e m 0#3 3#5)]
  | .fdiv d a b e m => some [fmtR 0x0A#6 d a b (fpFn e m 0#3 4#5)]
  | .fsqrt d a e m => some [fmtR 0x0A#6 d a 0#5 (fpFn e m 0#3 5#5)]
  | .fmin d a b e => some [fmtR 0x0A#6 d a b (fpFn e 0#2 0#3 6#5)]
  | .fmax d a b e => some [fmtR 0x0A#6 d a b (fpFn e 0#2 0#3 7#5)]
  | .fcmpEq d a b e => some [fmtR 0x0A#6 d a b (fpFn e 0#2 0#3 8#5)]
  | .fcmpLt d a b e => some [fmtR 0x0A#6 d a b (fpFn e 0#2 1#3 8#5)]
  | .fcmpLe d a b e => some [fmtR 0x0A#6 d a b (fpFn e 0#2 2#3 8#5)]
  | .fcmpUn d a b e => some [fmtR 0x0A#6 d a b (fpFn e 0#2 3#3 8#5)]
  | .fcvtF d a e m => some [fmtR 0x0A#6 d a 0#5 (fpFn e m 0#3 9#5)]
  | .fcvtF2i d a e m => some [fmtR 0x0A#6 d a 0#5 (fpFn e m 1#3 9#5)]
  | .fcvtF2u d a e m => some [fmtR 0x0A#6 d a 0#5 (fpFn e m 2#3 9#5)]
  | .fcvtI2f d a e m => some [fmtR 0x0A#6 d a 0#5 (fpFn e m 3#3 9#5)]
  | .fcvtU2f d a e m => some [fmtR 0x0A#6 d a 0#5 (fpFn e m 4#3 9#5)]
  | .ld z x h a i => some [fmtI 0x10#6 (z ++ BitVec.ofBool x ++ h) a i]
  | .st z h a i => some [fmtI 0x11#6 (z ++ 0#1 ++ h) a i]
  | .vld h a i => some [fmtI 0x12#6 (0#3 ++ h) a i]
  | .vst h a i => some [fmtI 0x13#6 (0#3 ++ h) a i]
  | .pref l a i => some [fmtI 0x16#6 (0#3 ++ l) a i]
  | .vgath a b p t => some [fmtR 0x14#6 0#5 a b (p ++ t ++ 0#5)]
  | .vscat a b p t => some [fmtR 0x15#6 0#5 a b (p ++ t ++ 0#5)]
  | .brd d a b n => some [fmtR 0x17#6 d a b n]
  | .bwr d a b n => some [fmtR 0x18#6 d a b n]
  | .copy d a => some [fmtI 0x19#6 d a 0#16]
  | .amoAdd a b w r m o => some [fmtR 0x1A#6 0#5 a b (amoFn w r m o 0#5)]
  | .amoFadd a b w r m o => some [fmtR 0x1A#6 0#5 a b (amoFn w r m o 1#5)]
  | .amoMin a b w r m o => some [fmtR 0x1A#6 0#5 a b (amoFn w r m o 2#5)]
  | .amoMax a b w r m o => some [fmtR 0x1A#6 0#5 a b (amoFn w r m o 3#5)]
  | .amoMinu a b w r m o => some [fmtR 0x1A#6 0#5 a b (amoFn w r m o 4#5)]
  | .amoMaxu a b w r m o => some [fmtR 0x1A#6 0#5 a b (amoFn w r m o 5#5)]
  | .amoAnd a b w r m o => some [fmtR 0x1A#6 0#5 a b (amoFn w r m o 6#5)]
  | .amoOr a b w r m o => some [fmtR 0x1A#6 0#5 a b (amoFn w r m o 7#5)]
  | .amoXor a b w r m o => some [fmtR 0x1A#6 0#5 a b (amoFn w r m o 8#5)]
  | .amoSwap a b w r m o => some [fmtR 0x1A#6 0#5 a b (amoFn w r m o 9#5)]
  | .amoCas c a b w r m o => some [fmtR 0x1A#6 c a b (amoFn w r m o 10#5)]
  | .beq a b o => some [fmtB a b 0#3 o]
  | .bne a b o => some [fmtB a b 1#3 o]
  | .blt a b o => some [fmtB a b 2#3 o]
  | .bge a b o => some [fmtB a b 3#3 o]
  | .bltu a b o => some [fmtB a b 4#3 o]
  | .bgeu a b o => some [fmtB a b 5#3 o]
  | .bpa p o => some [fmtB (0#2 ++ p) 0#5 6#3 o]
  | .bpn p o => some [fmtB (0#2 ++ p) 0#5 7#3 o]
  | .jal d o => some [0x21#6 ++ d ++ o]
  | .jr d a o => some [fmtI 0x22#6 d a o]
  | .send v a b s => some [fmtR 0x24#6 v a b (0#8 ++ s)]
  | .sendo v a b s => some [fmtR 0x25#6 v a b (0#8 ++ s)]
  | .spawn v => some [fmtI 0x26#6 v 0#5 0#16]
  | .done => some [fmtI 0x27#6 0#5 0#5 0#16]
  | .gset a b m => some [fmtR 0x28#6 0#5 a b (0#8 ++ BitVec.ofBool m ++ 0#2)]
  | .gadd a b m => some [fmtR 0x28#6 0#5 a b (0#8 ++ BitVec.ofBool m ++ 1#2)]
  | .gmax a b m => some [fmtR 0x28#6 0#5 a b (0#8 ++ BitVec.ofBool m ++ 2#2)]
  | .gget a => some [fmtR 0x28#6 0#5 a 0#5 3#11]
  | .bara v a g r => some [fmtI 0x29#6 v a (g ++ r ++ 0#5)]
  | .lnch v a => some [fmtI 0x2A#6 v a 0#16]
  | .lend => some [fmtI 0x2B#6 0#5 0#5 0#16]
  | .vadd d a b p t => some [fmtV 0x30#6 d a b p t 0#5]
  | .vsub d a b p t => some [fmtV 0x30#6 d a b p t 1#5]
  | .vmul d a b p t => some [fmtV 0x30#6 d a b p t 2#5]
  | .vfma d a b p t => some [fmtV 0x30#6 d a b p t 3#5]
  | .vmin d a b p t => some [fmtV 0x30#6 d a b p t 4#5]
  | .vmax d a b p t => some [fmtV 0x30#6 d a b p t 5#5]
  | .vand d a b p t => some [fmtV 0x30#6 d a b p t 6#5]
  | .vor d a b p t => some [fmtV 0x30#6 d a b p t 7#5]
  | .vxor d a b p t => some [fmtV 0x30#6 d a b p t 8#5]
  | .vshl d a b p t => some [fmtV 0x30#6 d a b p t 9#5]
  | .vshr d a b p t => some [fmtV 0x30#6 d a b p t 10#5]
  | .vsar d a b p t => some [fmtV 0x30#6 d a b p t 11#5]
  | .vsel d a b p t => some [fmtV 0x30#6 d a b p t 12#5]
  | .vperm d a b p t => some [fmtV 0x30#6 d a b p t 15#5]
  | .vcmp c q a b p t => some [fmtV 0x30#6 (c ++ q) a b p t 13#5]
  | .vbcast d s p t => some [fmtV 0x30#6 d s 0#5 p t 14#5]
  | .vred d a o p t => some [fmtV 0x30#6 d a (0#3 ++ o) p t 16#5]
  | .vcvtConvert d a x p s => some [fmtV 0x31#6 d a (0#2 ++ x) p s 0#5]
  | .vcvtTomx d a n f s => some [fmtV 0x31#6 d a (BitVec.ofBool n ++ f) 0#3 s 1#5]
  | .vcvtFrommx d a f s => some [fmtV 0x31#6 d a (0#1 ++ f) 0#3 s 2#5]
  | .mma a b s f g z k j n =>
      some [0x34#6 ++ a ++ b ++ s ++ f ++ g ++ 0#3 ++ BitVec.ofBool z ++ BitVec.ofBool k ++ BitVec.ofBool j ++ n]
  | .mring a b n => some [fmtR 0x35#6 0#5 a b (pressFn 0#3 n 0#3)]
  | .mradv a n => some [fmtR 0x35#6 0#5 a 0#5 (pressFn 0#3 n 1#3)]
  | .mzero s => some [fmtR 0x35#6 0#5 0#5 0#5 (pressFn 0#3 (0#1 ++ s) 2#3)]
  | .mst d a b m s => some [fmtR 0x35#6 d a b (pressFn m (0#1 ++ s) 3#3)]
  | .fenceAcq s => some [0x38#6 ++ s ++ 0#2 ++ 0#21]
  | .fenceRel s => some [0x38#6 ++ s ++ 1#2 ++ 0#21]
  | .fenceFull s => some [0x38#6 ++ s ++ 2#2 ++ 0#21]
  | .spill d a t => some [fmtR 0x39#6 d a 0#5 (0#6 ++ t ++ 0#2)]
  | .fill d a t => some [fmtR 0x39#6 d a 0#5 (0#6 ++ t ++ 1#2)]
  | .tokw t => some [fmtR 0x39#6 0#5 0#5 0#5 (0#6 ++ t ++ 2#2)]
  | .getsr d n => some [fmtI 0x3A#6 d 0#5 (0#4 ++ n)]
  | .setsr a n => some [fmtI 0x3A#6 0#5 a (1#1 ++ 0#3 ++ n)]
  | .nop => some [sysFn 0#5 0#4 0#3]
  | .yield => some [sysFn 0#5 0#4 1#3]
  | .tretRetry => some [sysFn 0#5 0#4 4#3]
  | .tretSkip => some [sysFn 0#5 1#4 4#3]
  | .tretKill => some [sysFn 0#5 2#4 4#3]
  | .brk a c => some [sysFn a c 2#3]
  | .trap a c => some [sysFn a c 3#3]
  | .gatew a b => some [fmtR 0x3C#6 0#5 a b 0#11]
  | .freeze a b => some [fmtR 0x3C#6 0#5 a b 1#11]
  | .thaw a b => some [fmtR 0x3C#6 0#5 a b 2#11]
  | .ktlb a b => some [fmtR 0x3C#6 0#5 a b 3#11]
  | .markq a b g => some [fmtR 0x3D#6 0#5 a b (0#10 ++ BitVec.ofBool g)]
  | _ => none

/-- A Livik register field of each class (R32). -/
def fa (i : LIdx) : BitVec 6 := 0b00#2 ++ i
def fc (i : LIdx) : BitVec 6 := 0b01#2 ++ i
def ft (i : LIdx) : BitVec 6 := 0b10#2 ++ i
def fany : LReg → BitVec 6
  | .a i => fa i
  | .c i => fc i
  | .t i => ft i
def livikWord (op : Byte) (a b c d : BitVec 6) (i : Word32) : Word := op ++ a ++ b ++ c ++ d ++ i

/-- The word of a Livik instruction (R32, R215). -/
def encodeLivik : Instr → Option Word
  | .aset a i => some (livikWord 0x01#8 (fa a) 0#6 0#6 0#6 i)
  | .acalcAdd a b c => some (livikWord 0x02#8 (fa a) (fa b) (fa c) 0#6 0#32)
  | .acalcSub a b c => some (livikWord 0x02#8 (fa a) (fa b) (fa c) 0#6 1#32)
  | .acalcMul a b c => some (livikWord 0x02#8 (fa a) (fa b) (fa c) 0#6 2#32)
  | .acalcDiv a b c => some (livikWord 0x02#8 (fa a) (fa b) (fa c) 0#6 3#32)
  | .acalcRem a b c => some (livikWord 0x02#8 (fa a) (fa b) (fa c) 0#6 4#32)
  | .acalcAnd a b c => some (livikWord 0x02#8 (fa a) (fa b) (fa c) 0#6 5#32)
  | .acalcOr a b c => some (livikWord 0x02#8 (fa a) (fa b) (fa c) 0#6 6#32)
  | .acalcXor a b c => some (livikWord 0x02#8 (fa a) (fa b) (fa c) 0#6 7#32)
  | .acalcShl a b c => some (livikWord 0x02#8 (fa a) (fa b) (fa c) 0#6 8#32)
  | .acalcShr a b c => some (livikWord 0x02#8 (fa a) (fa b) (fa c) 0#6 9#32)
  | .acalcMin a b c => some (livikWord 0x02#8 (fa a) (fa b) (fa c) 0#6 10#32)
  | .acalcMax a b c => some (livikWord 0x02#8 (fa a) (fa b) (fa c) 0#6 11#32)
  | .acalcEq a b c => some (livikWord 0x02#8 (fa a) (fa b) (fa c) 0#6 12#32)
  | .acalcLt a b c => some (livikWord 0x02#8 (fa a) (fa b) (fa c) 0#6 13#32)
  | .acalcLtu a b c => some (livikWord 0x02#8 (fa a) (fa b) (fa c) 0#6 14#32)
  | .goto i => some (livikWord 0x04#8 0#6 0#6 0#6 0#6 i)
  | .goif a i => some (livikWord 0x05#8 (fa a) 0#6 0#6 0#6 i)
  | .gosub i => some (livikWord 0x06#8 0#6 0#6 0#6 0#6 i)
  | .goret => some (livikWord 0x07#8 0#6 0#6 0#6 0#6 0#32)
  | .endp => some (livikWord 0x08#8 0#6 0#6 0#6 0#6 0#32)
  | .ctxnew a b => some (livikWord 0x10#8 (fc a) (fa b) 0#6 0#6 0#32)
  | .ctxfork a b => some (livikWord 0x11#8 (fc a) (fc b) 0#6 0#6 0#32)
  | .ctxdrop a => some (livikWord 0x12#8 (fc a) 0#6 0#6 0#6 0#32)
  | .ctxtrim a b => some (livikWord 0x13#8 (fc a) (fa b) 0#6 0#6 0#32)
  | .ctxlen a b => some (livikWord 0x14#8 (fa a) (fc b) 0#6 0#6 0#32)
  | .ctxpinHold a => some (livikWord 0x15#8 (fc a) 0#6 0#6 0#6 1#32)
  | .ctxpinRelease a => some (livikWord 0x15#8 (fc a) 0#6 0#6 0#6 0#32)
  | .append a b => some (livikWord 0x20#8 (fc a) (ft b) 0#6 0#6 0#32)
  | .genu a b c d i => some (livikWord 0x21#8 (ft a) (fc b) (ft c) (fa d) i)
  | .score a b c => some (livikWord 0x22#8 (fa a) (fc b) (ft c) 0#6 0#32)
  | .choose a b c app sep => some (livikWord 0x23#8 (fa a) (fc b) (ft c) 0#6 (BitVec.ofBool app ++ 0#7 ++ sep))
  | .tlit a i => some (livikWord 0x30#8 (ft a) 0#6 0#6 0#6 i)
  | .tcat a b c => some (livikWord 0x31#8 (ft a) (ft b) (ft c) 0#6 0#32)
  | .tcut a b c d => some (livikWord 0x32#8 (ft a) (ft b) (fa c) (fa d) 0#32)
  | .tlen a b => some (livikWord 0x33#8 (fa a) (ft b) 0#6 0#6 0#32)
  | .tfind a b c d => some (livikWord 0x34#8 (fa a) (ft b) (ft c) (fa d) 0#32)
  | .tcmp a b c => some (livikWord 0x35#8 (fa a) (ft b) (ft c) 0#6 0#32)
  | .tadd a b => some (livikWord 0x36#8 (ft a) (fa b) 0#6 0#6 0#32)
  | .tget a b c => some (livikWord 0x37#8 (fa a) (ft b) (fa c) 0#6 0#32)
  | .post a b c i => some (livikWord 0x40#8 (fa a) (fa b) (fany c) 0#6 i)
  | .await a b i => some (livikWord 0x41#8 (fany a) (fa b) 0#6 0#6 i)
  | .invoke a b => some (livikWord 0x42#8 (fa a) (fa b) 0#6 0#6 0#32)
  | .stamp a => some (livikWord 0x43#8 (fa a) 0#6 0#6 0#6 0#32)
  | _ => none

/-- The words of an instruction of either level: the Livik word as its low and high halves. -/
def encode (i : Instr) : Option (List Word32) :=
  match encodeNorson i with
  | some ws => some ws
  | none => (encodeLivik i).map (fun w => [fld w 0 32, fld w 32 32])

/-! ## The decoder -/

/-- ALU-R (R220). -/
def candAlu (fn : Nat) (d a b : Reg) (w : Bool) : Option Instr :=
  match fn with
  | 0x00 => some (.add d a b w)
  | 0x01 => some (.sub d a b w)
  | 0x02 => some (.mul d a b w)
  | 0x03 => some (.mulh d a b)
  | 0x04 => some (.mulhu d a b)
  | 0x05 => some (.div d a b w)
  | 0x06 => some (.divu d a b w)
  | 0x07 => some (.rem d a b w)
  | 0x08 => some (.remu d a b w)
  | 0x09 => some (.and d a b w)
  | 0x0A => some (.or d a b w)
  | 0x0B => some (.xor d a b w)
  | 0x0C => some (.shl d a b w)
  | 0x0D => some (.shr d a b w)
  | 0x0E => some (.sar d a b w)
  | 0x0F => some (.slt d a b w)
  | 0x10 => some (.sltu d a b w)
  | 0x11 => some (.min d a b w)
  | 0x12 => some (.max d a b w)
  | 0x13 => some (.minu d a b w)
  | 0x14 => some (.maxu d a b w)
  | 0x15 => some (.clz d a w)
  | 0x16 => some (.popc d a w)
  | _ => none

/-- ALU-K (R218). -/
def candAluK (fn : Nat) (d a : Reg) (w : Bool) (k : KOp) : Option Instr :=
  match fn with
  | 0x00 => some (.addK d a w k)
  | 0x01 => some (.subK d a w k)
  | 0x02 => some (.mulK d a w k)
  | 0x03 => some (.mulhK d a k)
  | 0x04 => some (.mulhuK d a k)
  | 0x05 => some (.divK d a w k)
  | 0x06 => some (.divuK d a w k)
  | 0x07 => some (.remK d a w k)
  | 0x08 => some (.remuK d a w k)
  | 0x09 => some (.andK d a w k)
  | 0x0A => some (.orK d a w k)
  | 0x0B => some (.xorK d a w k)
  | 0x0C => some (.shlK d a w k)
  | 0x0D => some (.shrK d a w k)
  | 0x0E => some (.sarK d a w k)
  | 0x0F => some (.sltK d a w k)
  | 0x10 => some (.sltuK d a w k)
  | 0x11 => some (.minK d a w k)
  | 0x12 => some (.maxK d a w k)
  | 0x13 => some (.minuK d a w k)
  | 0x14 => some (.maxuK d a w k)
  | _ => none

/-- FP scalar (R222). -/
def candFp (fn var : Nat) (d a b : Reg) (e : Bool) (m : BitVec 2) : Option Instr :=
  match fn, var with
  | 0, 0 => some (.fadd d a b e m)
  | 1, 0 => some (.fsub d a b e m)
  | 2, 0 => some (.fmul d a b e m)
  | 3, 0 => some (.ffma d a b e m)
  | 4, 0 => some (.fdiv d a b e m)
  | 5, 0 => some (.fsqrt d a e m)
  | 6, 0 => some (.fmin d a b e)
  | 7, 0 => some (.fmax d a b e)
  | 8, 0 => some (.fcmpEq d a b e)
  | 8, 1 => some (.fcmpLt d a b e)
  | 8, 2 => some (.fcmpLe d a b e)
  | 8, 3 => some (.fcmpUn d a b e)
  | 9, 0 => some (.fcvtF d a e m)
  | 9, 1 => some (.fcvtF2i d a e m)
  | 9, 2 => some (.fcvtF2u d a e m)
  | 9, 3 => some (.fcvtI2f d a e m)
  | 9, 4 => some (.fcvtU2f d a e m)
  | _, _ => none

/-- AMO (R225). -/
def candAmo (op : Nat) (c a b : Reg) (w r m : Bool) (o : BitVec 2) : Option Instr :=
  match op with
  | 0 => some (.amoAdd a b w r m o)
  | 1 => some (.amoFadd a b w r m o)
  | 2 => some (.amoMin a b w r m o)
  | 3 => some (.amoMax a b w r m o)
  | 4 => some (.amoMinu a b w r m o)
  | 5 => some (.amoMaxu a b w r m o)
  | 6 => some (.amoAnd a b w r m o)
  | 7 => some (.amoOr a b w r m o)
  | 8 => some (.amoXor a b w r m o)
  | 9 => some (.amoSwap a b w r m o)
  | 10 => some (.amoCas c a b w r m o)
  | _ => none

/-- VALU (R227). -/
def candV (fn : Nat) (d a b : Reg) (p t : BitVec 3) : Option Instr :=
  match fn with
  | 0 => some (.vadd d a b p t)
  | 1 => some (.vsub d a b p t)
  | 2 => some (.vmul d a b p t)
  | 3 => some (.vfma d a b p t)
  | 4 => some (.vmin d a b p t)
  | 5 => some (.vmax d a b p t)
  | 6 => some (.vand d a b p t)
  | 7 => some (.vor d a b p t)
  | 8 => some (.vxor d a b p t)
  | 9 => some (.vshl d a b p t)
  | 10 => some (.vshr d a b p t)
  | 11 => some (.vsar d a b p t)
  | 12 => some (.vsel d a b p t)
  | 15 => some (.vperm d a b p t)
  | 13 => some (.vcmp (fld d 3 2) (fld d 0 3) a b p t)
  | 14 => some (.vbcast d a p t)
  | 16 => some (.vred d a (fld b 0 2) p t)
  | _ => none

/-- The system group of major 0x3B (R180). -/
def candSys (op : Nat) (a : Reg) (c : BitVec 4) : Option Instr :=
  match op with
  | 0 => some .nop
  | 1 => some .yield
  | 2 => some (.brk a c)
  | 3 => some (.trap a c)
  | 4 => match c.toNat with
    | 0 => some .tretRetry
    | 1 => some .tretSkip
    | 2 => some .tretKill
    | _ => none
  | _ => none

/-- The instruction that the assigned fields of a word name (R219). -/
def candidate (w w2 : Word32) : Option Instr :=
  let d : Reg := fld w 21 5
  let a : Reg := fld w 16 5
  let b : Reg := fld w 11 5
  let i : Half := fld w 0 16
  let p : BitVec 3 := fld w 8 3
  let t : BitVec 3 := fld w 5 3
  match (fld w 26 6).toNat with
  | 0x01 => candAlu (fld w 0 6).toNat d a b (bit w 10)
  | 0x02 => some (.addi d a i)
  | 0x03 => some (.andi d a i)
  | 0x04 => some (.ori d a i)
  | 0x05 => some (.xori d a i)
  | 0x06 => match (fld w 6 2).toNat with
    | 0 => some (.shiShl d a (fld w 0 6))
    | 1 => some (.shiShr d a (fld w 0 6))
    | 2 => some (.shiSar d a (fld w 0 6))
    | _ => none
  | 0x07 => some (.slti d a i)
  | 0x08 => some (.lih d (fld w 16 2) i)
  | 0x09 =>
    candAluK (fld w 0 6).toNat d a (bit w 11)
      (if bit w 10 then .win (fld w2 29 3) (fld w2 12 17) else .lit w2)
  | 0x0A => candFp (fld w 0 5).toNat (fld w 5 3).toNat d a b (bit w 10) (fld w 8 2)
  | 0x10 => some (.ld (fld w 24 2) (bit w 23) (fld w 21 2) a i)
  | 0x11 => some (.st (fld w 24 2) (fld w 21 2) a i)
  | 0x12 => some (.vld (fld w 21 2) a i)
  | 0x13 => some (.vst (fld w 21 2) a i)
  | 0x14 => some (.vgath a b p t)
  | 0x15 => some (.vscat a b p t)
  | 0x16 => some (.pref (fld w 21 2) a i)
  | 0x17 => some (.brd d a b (fld w 0 11))
  | 0x18 => some (.bwr d a b (fld w 0 11))
  | 0x19 => some (.copy d a)
  | 0x1A => candAmo (fld w 0 5).toNat d a b (bit w 9) (bit w 8) (bit w 7) (fld w 5 2)
  | 0x20 => match (fld w 13 3).toNat with
    | 0 => some (.beq d a (fld w 0 13))
    | 1 => some (.bne d a (fld w 0 13))
    | 2 => some (.blt d a (fld w 0 13))
    | 3 => some (.bge d a (fld w 0 13))
    | 4 => some (.bltu d a (fld w 0 13))
    | 5 => some (.bgeu d a (fld w 0 13))
    | 6 => some (.bpa (fld w 21 3) (fld w 0 13))
    | _ => some (.bpn (fld w 21 3) (fld w 0 13))
  | 0x21 => some (.jal d (fld w 0 21))
  | 0x22 => some (.jr d a i)
  | 0x24 => some (.send d a b (fld w 0 3))
  | 0x25 => some (.sendo d a b (fld w 0 3))
  | 0x26 => some (.spawn d)
  | 0x27 => some .done
  | 0x28 => match (fld w 0 2).toNat with
    | 0 => some (.gset a b (bit w 2))
    | 1 => some (.gadd a b (bit w 2))
    | 2 => some (.gmax a b (bit w 2))
    | _ => some (.gget a)
  | 0x29 => some (.bara d a (fld w 8 8) t)
  | 0x2A => some (.lnch d a)
  | 0x2B => some .lend
  | 0x30 => candV (fld w 0 5).toNat d a b p t
  | 0x31 => match (fld w 0 5).toNat with
    | 0 => some (.vcvtConvert d a (fld w 11 3) p t)
    | 1 => some (.vcvtTomx d a (bit w 15) (fld w 11 4) t)
    | 2 => some (.vcvtFrommx d a (fld w 11 4) t)
    | _ => none
  | 0x34 => some (.mma (fld w 23 3) (fld w 20 3) (fld w 17 3) (fld w 13 4) (fld w 9 4) (bit w 5) (bit w 4) (bit w 3) (fld w 0 3))
  | 0x35 => match (fld w 0 3).toNat with
    | 0 => some (.mring a b (fld w 3 3))
    | 1 => some (.mradv a (fld w 3 3))
    | 2 => some (.mzero (fld w 3 2))
    | 3 => some (.mst d a b (fld w 6 3) (fld w 3 2))
    | _ => none
  | 0x38 => match (fld w 21 2).toNat with
    | 0 => some (.fenceAcq (fld w 23 3))
    | 1 => some (.fenceRel (fld w 23 3))
    | 2 => some (.fenceFull (fld w 23 3))
    | _ => none
  | 0x39 => match (fld w 0 2).toNat with
    | 0 => some (.spill d a (fld w 2 3))
    | 1 => some (.fill d a (fld w 2 3))
    | 2 => some (.tokw (fld w 2 3))
    | _ => none
  | 0x3A => if bit w 15 then some (.setsr a (fld w 0 12)) else some (.getsr d (fld w 0 12))
  | 0x3B => candSys (fld w 0 3).toNat a (fld w 3 4)
  | 0x3C => match (fld w 0 3).toNat with
    | 0 => some (.gatew a b)
    | 1 => some (.freeze a b)
    | 2 => some (.thaw a b)
    | 3 => some (.ktlb a b)
    | _ => none
  | 0x3D => some (.markq a b (bit w 0))
  | _ => none

/-- Whether a first word is that of an L-form, which has a second word (R218). -/
def isLForm (w : Word32) : Bool := fld w 26 6 == 0x09#6

/-- The words of the instruction that starts with `w`, the second word counting for an L-form only. -/
def codeWords (w w2 : Word32) : List Word32 := if isLForm w then [w, w2] else [w]

/-- The Norson decoder (R217 to R229). `w2` is the word after `w`. -/
def decodeNorson (w w2 : Word32) : Except Reject Instr :=
  match candidate w w2 with
  | none => .error .unassigned
  | some i =>
    if i.wf = false then .error .forbidden
    else if encodeNorson i = some (codeWords w w2) then .ok i else .error .reserved

/-- A Livik register field of any class (R32). -/
def anyField (f : BitVec 6) : Option LReg :=
  match (fld f 4 2).toNat with
  | 0 => some (.a (fld f 0 4))
  | 1 => some (.c (fld f 0 4))
  | 2 => some (.t (fld f 0 4))
  | _ => none

/-- ACALC (R216). -/
def candAcalc (op : Nat) (a b c : LIdx) : Option Instr :=
  match op with
  | 0 => some (.acalcAdd a b c)
  | 1 => some (.acalcSub a b c)
  | 2 => some (.acalcMul a b c)
  | 3 => some (.acalcDiv a b c)
  | 4 => some (.acalcRem a b c)
  | 5 => some (.acalcAnd a b c)
  | 6 => some (.acalcOr a b c)
  | 7 => some (.acalcXor a b c)
  | 8 => some (.acalcShl a b c)
  | 9 => some (.acalcShr a b c)
  | 10 => some (.acalcMin a b c)
  | 11 => some (.acalcMax a b c)
  | 12 => some (.acalcEq a b c)
  | 13 => some (.acalcLt a b c)
  | 14 => some (.acalcLtu a b c)
  | _ => none

/-- The instruction that the assigned fields of a Livik word name (R215). The classes of its fields are checked by
the comparison with its encoding. -/
def candidateLivik (w : Word) : Option Instr :=
  let a : LIdx := fld w 50 4
  let b : LIdx := fld w 44 4
  let c : LIdx := fld w 38 4
  let d : LIdx := fld w 32 4
  let i : Word32 := fld w 0 32
  match (fld w 56 8).toNat with
  | 0x01 => some (.aset a i)
  | 0x02 => candAcalc (fld w 0 4).toNat a b c
  | 0x04 => some (.goto i)
  | 0x05 => some (.goif a i)
  | 0x06 => some (.gosub i)
  | 0x07 => some .goret
  | 0x08 => some .endp
  | 0x10 => some (.ctxnew a b)
  | 0x11 => some (.ctxfork a b)
  | 0x12 => some (.ctxdrop a)
  | 0x13 => some (.ctxtrim a b)
  | 0x14 => some (.ctxlen a b)
  | 0x15 => if bit w 0 then some (.ctxpinHold a) else some (.ctxpinRelease a)
  | 0x20 => some (.append a b)
  | 0x21 => some (.genu a b c d i)
  | 0x22 => some (.score a b c)
  | 0x23 => some (.choose a b c (bit w 31) (fld w 0 24))
  | 0x30 => some (.tlit a i)
  | 0x31 => some (.tcat a b c)
  | 0x32 => some (.tcut a b c d)
  | 0x33 => some (.tlen a b)
  | 0x34 => some (.tfind a b c d)
  | 0x35 => some (.tcmp a b c)
  | 0x36 => some (.tadd a b)
  | 0x37 => some (.tget a b c)
  | 0x40 => (anyField (fld w 38 6)).map (fun r => .post a b r i)
  | 0x41 => (anyField (fld w 50 6)).map (fun r => .await r b i)
  | 0x42 => some (.invoke a b)
  | 0x43 => some (.stamp a)
  | _ => none

/-- The Livik decoder (R32, R215). -/
def decodeLivik (w : Word) : Except Reject Instr :=
  match candidateLivik w with
  | none => .error .unassigned
  | some i =>
    if i.wf = false then .error .forbidden
    else if encodeLivik i = some w then .ok i else .error .reserved

/-- The instruction of a table word (log 1): up to 32 bits a Norson word with a zero word after it; above 32 bits a
Livik word, or an L-form where the Livik decoder refuses the word. -/
def decodeTableWord (nbits w : Nat) : Option Instr :=
  if nbits ≤ 32 then (decodeNorson (BitVec.ofNat 32 w) 0#32).toOption
  else
    match decodeLivik (BitVec.ofNat 64 w) with
    | .ok i => some i
    | .error _ => (decodeNorson (BitVec.ofNat 32 w) (BitVec.ofNat 32 (w / 2 ^ 32))).toOption

end Sys2Proof
end

