-- ==== Sys2Proof/Config.lean ====
section
/-!
DEFINITION. Figures fixed for every BX9 (R11 to R21) and the free values of the model: constants without a body, for
what the manual leaves undefined. A claim that mentions one is a claim about every value.
-/

namespace Sys2Proof.Config

/-! Fixed figures. -/
def dies : Nat := 8
def bundlesPerDie : Nat := 256
def bundles : Nat := 2048
def coresPerBundle : Nat := 8
def kernelCores : Nat := 64
def channels : Nat := 768
/-- Bytes of one channel: 96 GiB over 96 channels (R19, log 6). -/
def channelBytes : Nat := 2 ^ 30
def l2Slices : Nat := 512
def copyEngines : Nat := 64
def islands : Nat := 36
def links : Nat := 16
def ports : Nat := 4
/-- NVMe root ports, four on each of the two I/O dies (R13). -/
def rootPorts : Nat := 8
def maxContexts : Nat := 262144
def maxLength : Nat := 2 ^ 20
def maxTokens : Nat := 4096
/-- Scratchpad bytes of a kernel core (R78, R98). -/
def kernelScratch : Nat := 917504
/-- The context id of Edoiny (R17, R189). -/
def edoiny : BitVec 16 := 0xFFFF#16

/-! Free values (log 3). The first argument is the counter State.fresh, which every use advances. -/

/-- An undefined byte (R99, R279, R288, R338): by the stamp of the region and the address. -/
opaque freeByte : Nat → Nat → Byte
/-- An undefined accumulator word at the start of a launch (R146). -/
opaque freeAcc : Nat → Nat → BitVec 32
/-- The choice the manual leaves to the device between two permitted values (R80, R94, R157, R210): at a moment, of a thing. -/
opaque freeBool : Nat → Nat → Bool
/-- Cycles that pass at one issue, less one (R5, R88; log 8). -/
opaque freeCycles : Nat → Nat
/-- A root payload address, modulo 64, that meets the alignment of R113, which the manual does not give (log 35). -/
opaque rootAligned : Nat → Bool
/-- A word the manual does not fix. -/
opaque freeWord : Nat → Word
/-- The ML-DSA-44 signature of an attestation report (R213). -/
opaque attestSign : List Byte → List Byte

end Sys2Proof.Config
end

