-- ==== Sys2Proof/Machine/State.lean ====
section
/-!
DEFINITION. The state of a BX9: every register, queue, table and memory the manual gives it, as plain data, with the
agents' outstanding work (R90, R190) and the list that says which agent moves next (log 7).
-/

namespace Sys2Proof.Machine

open Sys2Proof

/-- Why the machine stops. -/
inductive Fault where
  /-- Raised by step when DEVSTAT is 3: after the thermal reset of R214 nothing runs. Safe: the manual gives no move but a power-on reset. -/
  | halted
  /-- Raised by step when DEVSTAT is 2: the boot of R211 has failed and only DEVSTAT answers. Safe: as halted. -/
  | bootHold
  deriving DecidableEq, Repr

/-- Why an instruction has no meaning in the model. -/
inductive Refusal where
  /-- Raised by exec for an instruction that has no meaning yet. Safe: nothing is claimed of it. -/
  | notModelled (mnemonic : String)
  deriving DecidableEq, Repr

/-! ## Traps -/

/-- The trap causes of R176. -/
inductive Cause where
  | illop | priv | align | bound | xlate | prot | divz | qdead | wdog | gate | soft | ecc | fpx | markold | parked
  deriving DecidableEq, Repr

/-- One level's bank of trap registers TCAUSE, TEPC, TADDR, TMSG (R178). -/
structure Bank where
  cause : Word := 0
  epc : Word := 0
  addr : Word := 0
  msg : Word := 0
  deriving DecidableEq, Repr

/-- Why a thread set waits (R84, R251). -/
inductive Stall where
  | value (vector : Bool)  -- a queue register whose load is outstanding
  | slot         -- a physical queue slot
  | fill         -- a register with a pending FILL
  | token        -- TOKW, or a full token count
  | pressQ       -- a full press queue, or a ring named in it
  | held         -- a constant-window read held by R81, or a release that waits for the replay queue
  | release      -- a release that waits for outstanding operations
  | replayFull   -- a store that finds the replay queue full
  | copyQ        -- a full virtual copy queue
  | record       -- a basting record of 64 entries
  | done         -- a DONE that waits for tokens or gain updates
  | doneHeld     -- a DONE that waits for its replay queue
  | engine       -- a kernel instruction that waits for another of its kind, or for accesses under way
  deriving DecidableEq, Repr

/-- A stamp of R111: seconds, nanoseconds, sequence number. -/
structure Stamp where
  sec : Nat
  ns : Nat
  seq : Nat
  deriving DecidableEq, Repr

/-! ## Messages and activations -/

/-- A message as the receiver sees it: the header words and the payload, of which the low 48 bytes count (R100). -/
structure Msg where
  w0 : Word
  w1 : Word
  pay : Vec
  deriving DecidableEq, Repr

/-- A task record in a deque: its 32 bytes, and the source word s2 that its run receives (R115). -/
structure DqRec where
  bytes : List Byte
  s2 : Word
  deps : List Nat
  deriving DecidableEq, Repr

/-- A record of a Pile engine (R124, R127). -/
structure PileRec where
  hdr : Word
  index : Word32
  gain : Nat
  fpbase : Word
  fplen : Nat
  arg : Word32
  s2 : Word
  running : Bool
  p : Nat
  touched : Bool
  deps : List Nat
  deriving DecidableEq, Repr

/-- Where an activation came from: a basket message, a deque record or a Pile dispatch (R104). -/
inductive Origin where
  | message
  | deque (r : DqRec)
  | pile (r : PileRec) (home : Nat) (run : Nat)
  deriving DecidableEq, Repr

/-- A handler activation (R104, R105). `fetchTrap` is a footprint fetch that failed (R127). -/
structure Activation where
  origin : Origin
  msg : Msg
  lid : Option Half
  ctx : Half
  cls : Nat
  fetchTrap : Option (Cause × Word)
  deriving DecidableEq, Repr

/-- A buffered operation in the send buffer (R105). -/
inductive Buffered where
  | send (dst : CoreId) (outside : Bool) (w0 : Word) (kind : Nat) (scope : Nat) (pay : Vec) (dev : Option Nat)   -- dev: another device
  | spawn (bytes : List Byte)
  | bara (group : Nat) (red : Nat) (hdr : Word) (vec : Vec)
  | lend
  deriving DecidableEq, Repr

/-! ## Outstanding operations -/

/-- The operations of R190, with the SPILLs and FILLs of R96, unparked stores and the rows of MST (R145). -/
inductive OpKind where
  | ld | vld | vgath | pref | brd | bwr | copy | st | vst | vscat | amo | gain | gget | bara | markq | spill | fill | mst
  | ktlb | freeze | thaw   -- a kernel instruction whose status is still to come (R183, R325)
  deriving DecidableEq, Repr

/-- One piece of an access: within a naturally aligned 8 bytes (R156). `off` is its place in the access's data. -/
structure Seg where
  va : Word
  bus : Nat
  len : Nat
  off : Nat
  deriving DecidableEq, Repr

/-- An operation issued and not yet accepted, performed or taken. `n` is its token, vector register, AMO code, gain op or
group as the kind says; `q` is 0 for no load-queue entry, 1 for the scalar and 2 for the vector queue. -/
structure Op where
  id : Nat
  t : TsId
  ctx : Half
  lid : Option Half
  kind : OpKind
  segs : List Seg          -- pieces still to perform; the source of a block operation
  dst : List Seg           -- the destination of a block operation
  pages : List Nat         -- the pages that it touches, for R81
  data : List Byte         -- store data, or the bytes a load has collected
  seq : Word32
  fn : BitVec 11
  addr : Word
  operand : Word
  cmp : Word               -- the compare value of CAS; of a gather or scatter, the lanes that are on
  mark : Word
  n : Nat
  q : Nat
  width : Nat              -- bytes of the access
  signed : Bool
  held : Bool              -- waits for an NR page (R81)
  parked : Bool            -- a store in the replay queue (R81)
  dead : Option (Cause × Word)  -- its page is lost: never performed (R81)
  vec : Vec                -- wide operand: gather addresses, arrival vector
  hdr : Word               -- header word 0 of its completion
  deps : List Nat          -- stores that must be taken first (R159)
  mst : Nat                -- slot and mode of MST: slot + 4 * mode
  sent : Bool := false     -- applied at its owner, its acknowledgement on the way (R191)
  orphan : Bool := false   -- its launch or context has ended: it is still performed, and nothing answers it (R122, R237)
  replay : Bool := false   -- reissued from a basting record (R187, R193)
  past : Bool := false     -- of a run of its launch that a re-run has replaced: it counts for neither (R122, R196)
  got : List Seg := []     -- pieces that a load has read (R168)
  deriving DecidableEq, Repr

/-- A load-queue entry (R91): its value, the operation that will give it (the `which`-th value), or a failure to report at the pop (R81, R176). -/
inductive LdE (α : Type) where
  | ready (v : α)
  | wait (id : Nat) (which : Nat)
  | bad (c : Cause) (addr : Word)
  deriving DecidableEq, Repr

/-! ## Thread sets -/

/-- The registers and queues of one thread set (R85, R88). A register is valid (R86) iff it is listed. -/
structure ThreadSet where
  sreg : List (Nat × Word)
  vreg : List (Nat × Vec)
  preg : List (Nat × Word)
  slq : List (LdE Word)
  ssq : List Word
  vlq : List (LdE Vec)
  vsq : List Vec
  pc : Word
  fpcsr : Word
  trapen : Word
  wbudget : Word
  tlev : Nat
  bank1 : Bank
  bank2 : Bank
  tvec1 : Word
  tvec2 : Word
  tvecFor : Option Half   -- the launch whose trap vectors these are (R179)
  tvecs : List (Option Half × Word × Word)   -- those of other launches that share the core
  sbuf : List Buffered
  oseq : Word32
  mseq : Word32
  act : Option Activation
  stall : Option Stall
  run : Nat               -- issues in a row (R84)
  rel : List Nat          -- operations every later access waits for (R159)
  seen : List Nat         -- untaken stores of the core's other thread sets that a load has returned (R159)
  softS : List Nat        -- damaged registers and queues (R176)
  softV : List Nat
  softP : List Nat
  softQ : List Nat
  pend : Option (Cause × Word)  -- an error of a block operation, raised at the next instruction (R280)
  deriving DecidableEq, Repr

/-- A thread set before its first activation: every register 0 (log 4). -/
def ThreadSet.reset : ThreadSet :=
  { sreg := [], vreg := [], preg := [], slq := [], ssq := [], vlq := [], vsq := [], pc := 0, fpcsr := 0, trapen := 0,
    wbudget := 0, tlev := 0, bank1 := {}, bank2 := {}, tvec1 := 0, tvec2 := 0, tvecFor := none, tvecs := [], sbuf := [], oseq := 0, mseq := 0,
    act := none, stall := none, run := 0, rel := [], seen := [], softS := [], softV := [], softP := [], softQ := [], pend := none }

/-! ## Cores -/

/-- A binding of an operand ring; HEAD and TAIL stand in the scratchpad (R140). -/
structure Ring where
  base : Nat
  count : Nat
  fmt : Nat
  lid : Option Half
  deriving DecidableEq, Repr

/-- A queued press command (R144 to R147, R185). -/
structure PressCmd where
  word : Instr
  t : TsId
  cls : Nat
  lid : Half
  addr : Word
  stride : Nat
  hdr : Word
  segs : List Seg
  held : Bool
  oseq : Word32
  deps : List Nat
  deriving DecidableEq, Repr

/-- A thimble entry, 256 bits (R209). -/
abbrev Thimble := BitVec 256

/-- A duplicate window (R103): the source (KSRC, SRC, TS), true for the operation space, and its last SEQ values, newest first. -/
structure DupWindow where
  ksrc : Bool
  src : Nat
  ts : Nat
  opSpace : Bool
  seqs : List Nat
  deriving DecidableEq, Repr

/-- What belongs to a core and not to a thread set. -/
structure CoreSt where
  basket : List Msg          -- 64 on-chip slots (R103)
  membk : List Msg           -- the memory basket
  ring : List Msg            -- the overflow ring's messages for this core (R188)
  membkNext : Nat            -- messages that have entered the memory basket, which tells the next slot (log 42)
  dups : List DupWindow
  rings : List (Nat × Ring)
  pressQ : List PressCmd
  thimble : List (Nat × Thimble)
  l1 : Nat                   -- KiB of L1 (R98)
  captured : Bool            -- the capture point of a FREEZE has passed (R184)
  deriving DecidableEq, Repr

/-- A core at reset: nothing held, 32 KiB of L1 (log 5). -/
def CoreSt.reset : CoreSt :=
  { basket := [], membk := [], ring := [], membkNext := 0, dups := [], rings := [], pressQ := [], thimble := [], l1 := 32, captured := false }

/-! ## Bundles -/

/-- An accumulator bank: its launch and the slots written since it began, core * 4 + slot (R146, R148). A slot holds 1,024 pairs (s, c). -/
structure AccBank where
  lid : Half
  slots : List (Nat × List (Word32 × Word32))
  image : Option Nat := none   -- saved: the entry 0 or 1 of its bundle in the accumulator-bank directory, whose image holds it (R189)
  deriving DecidableEq, Repr

/-- A cached translation (R80): the context, the 64 KiB page number, and the leaf. -/
structure TcEntry where
  ctx : Half
  page : Nat
  phys : Nat
  rights : BitVec 4      -- RD, WR, EX, AM
  nr : Bool
  aff : Option Nat
  large : Bool
  deriving DecidableEq, Repr

/-- A gain update or SPAWN record that has reached a frozen engine (R185, R189). -/
inductive ULogEntry where
  | record (lid : Half) (r : PileRec) (group : Nat)
  | upd (o : Op)
  deriving DecidableEq, Repr

/-- A Pile engine's share of one launch. -/
structure Pile where
  recs : List PileRec
  partialSum : Word      -- the engine's partial sum, modulo 2^64 (R130)
  count : Int            -- its own count C (R119)
  stain : Bool
  bcast : Nat × Option Nat   -- the latest broadcast received: G and h (R127)
  coming : List (Nat × Option Nat)  -- broadcasts on their way, in sample order
  stealOut : Bool
  deriving DecidableEq, Repr

/-- What a bundle holds of a frozen context (R184, R185): the parts of the image that the save block does not lay out, and the
messages, updates and records that arrive meanwhile (R188; log 17). -/
structure Frozen where
  ctx : Half
  blk : Nat
  ts : List (TsId × ThreadSet)
  cores : List (CoreId × CoreSt)
  ops : List Op
  piles : List (Half × Pile)
  ulog : List ULogEntry      -- in arrival order: 65,536 in the block, the rest in the context's overflow log
  excess : List Nat          -- the overflow log's entries that hold the rest
  stamp : Stamp              -- the capture stamp (R185)
  deriving DecidableEq, Repr

/-- What belongs to a bundle. -/
structure Bundle where
  banks : List AccBank       -- the resident banks, at most 2, oldest first use first (R148)
  saved : List AccBank       -- the banks saved to their context save areas
  arb : Nat                  -- the arbiter's core (R147)
  credit : Nat               -- commands it has executed for that core in this turn
  exec : Option (Nat × PressCmd)   -- the command in execution and its core
  tc : List TcEntry
  cc : List (Nat × Half × List Byte)   -- constant-cache lines: physical line, launch, bytes (R93, R94)
  piles : List (Half × Pile)
  freezing : Option (Half × Nat × Nat)    -- the context being frozen, the save block, the FREEZE's operation
  thawing : Option (Half × Nat × Nat)     -- the context being thawed, the save block, the THAW's operation
  frozen : List Frozen
  deriving DecidableEq, Repr

def Bundle.reset : Bundle :=
  { banks := [], saved := [], arb := 0, credit := 0, exec := none, tc := [], cc := [], piles := [], freezing := none,
    thawing := none, frozen := [] }

/-! ## Launches and the front end -/

/-- Where a launch's packet came from, for its completion (R112, R64, R244). -/
inductive LaunchFrom where
  | queue (q : Nat)
  | child (die : Nat)
  | invoke (slot : Nat)
  | stepLaunch (id : Nat)
  deriving DecidableEq, Repr

inductive LaunchState where
  | waitSlot | waitBundles | running
  deriving DecidableEq, Repr

/-- A BARA arrival held by the group's combiner (R118). -/
structure Arrival where
  group : Nat
  ordinal : Nat
  epoch : Nat
  red : Nat
  hdr : Word
  vec : Vec
  seq : Word32
  ts : Nat
  mark : Word
  deriving DecidableEq, Repr

/-- A completed epoch's result, kept for replays (R193). -/
structure Epoch where
  group : Nat
  epoch : Nat
  pay : Vec
  deriving DecidableEq, Repr

/-- The rinse token of a launch: the ordinal it visits next, the round's sum and stain (R120). -/
structure Token where
  started : Bool
  at_ : Nat
  sum : Int
  stain : Bool
  deriving DecidableEq, Repr

/-- A launch: a packet taken by the front end and not ended (R110, R113). -/
structure Launch where
  lid : Half
  ctx : Half
  src : LaunchFrom
  words : List Word            -- the packet's eight words, with its level replaced
  queued : Option (Nat × Nat)  -- the dependence slots' base and whether it is virtual (1) or physical (0)
  state : LaunchState
  order : Nat                  -- its place in the order of acceptance (R104, R119)
  bundles : List Nat           -- in ordinal order
  areaLow : List Nat           -- bundles on which its device-placed area is the lower one (R388)
  lists : List (Nat × List Nat)  -- the group lists as read at acceptance
  groups : List (Nat × List Nat)
  kb : List Word
  kbOf : List (Nat × List Word) := []   -- the window bases that a THAW has restored, by ordinal (R187)
  tol : Word
  rlist : Word
  rcap : Nat
  fpa : Nat
  root : Vec                   -- the root payload as read at acceptance
  accst : Stamp
  startst : Option Stamp
  acts : Nat
  disc : Nat
  discRec : Nat
  mappl : Nat
  msupp : Nat
  markold : Nat
  traps : Nat
  skips : Nat
  counts : List (Nat × Int)    -- C by ordinal (R119)
  stains : List Nat            -- stained ordinals
  steals : List (Nat × Nat)    -- ordinals with a steal request outstanding, or the victim cursor to resume at
  stealOut : List Nat
  deques : List (Nat × Nat × List DqRec)  -- by ordinal: the far end's slot, and the records from the far end on (R115)
  token : Token
  lend : Bool                  -- LEND has taken effect (R121)
  conv : Bool                  -- a sample fell below TOL: dispatch is stopped (R134)
  epochs : List (Nat × Nat × Nat)   -- (group, ordinal) to arrivals made
  arrivals : List Arrival
  done : List Epoch
  resid : Word                 -- the latest sample of RESID (R130)
  deriving DecidableEq, Repr

/-- A launch that has ended and whose record is still to be written: a write of it waits for a page that is not resident (R81, R122). -/
structure Ending where
  l : Launch
  status : Nat
  stamp : Stamp                -- its DONE stamp
  resid : Word
  deriving DecidableEq, Repr

/-- A child packet in a die's pending-launch store (R114). -/
structure Child where
  id : Nat
  die : Nat
  t : TsId
  ctx : Half
  words : List Word
  slots : Word                 -- SLOTS of its queue descriptor
  deps : List Nat
  deriving DecidableEq, Repr

/-- What holds a launch queue (R109, R111). -/
structure QWait where
  q : Nat
  depend : Option Nat          -- the dependence slot address its DEPEND waits on
  fence : Option (List Half)   -- the launches a FETCH-FENCE waits for
  fetched : List (Nat × List Byte)  -- packets already prefetched, by HEAD count
  launched : List Half         -- launches taken from this queue and not complete
  deriving DecidableEq, Repr

/-! ## Things in flight -/

/-- A message on the network (R103). `count` tells whether its entry moves C (R119): 0 not, 1 it does. -/
structure Flight where
  id : Nat
  dst : CoreId
  src : Option TsId
  msg : Msg
  ctx : Half
  lid : Option Half
  counted : Bool
  outside : Bool          -- sent through an endpoint: joins the target launch (R119)
  deps : List Nat
  held : Bool
  since : Nat := 0        -- when it was first held
  op : Option Nat := none    -- the operation whose completion it is, outstanding until it enters
  dev : Option Nat := none   -- another device that it goes to (R106, R208)
  deriving DecidableEq, Repr

/-- A SPAWN record or gain update on its way to its home engine, or a steal of a Pile (R126, R129, R127). -/
inductive PileNet where
  | spawn (lid : Half) (home : Nat) (r : PileRec) (deps : List Nat) (group : Nat) (since : Option Nat)
  | stealReq (lid : Half) (home : Nat) (thief : Nat) (t : TsId) (own : Option Word32)
  | stealReply (lid : Half) (thief : Nat) (t : TsId) (r : Option PileRec) (home : Nat) (own : Option Word32)
  | fetch (lid : Half) (t : TsId) (r : PileRec) (home : Nat)
  | retire (lid : Half) (home : Nat) (r : PileRec) (back : Bool) (t : TsId) (run : Nat)   -- back: returned to ready
  deriving DecidableEq, Repr

/-- A steal on the steal network (R116). -/
inductive StealNet where
  | request (lid : Half) (thief : Nat) (victim : Nat)
  | reply (lid : Half) (thief : Nat)
  deriving DecidableEq, Repr

/-- Class M results an owner keeps (R193): SEQ, M bit and result, newest first, at most 256 a source and owner. `owner` is the
home slice or agent (0 and up), the Pile engine of bundle b (2^20 + b), or a combiner. -/
structure MarkWindow where
  owner : Nat
  ctx : Half
  core : Nat
  ts : Nat
  block : Nat             -- its block of the mark-window pool, counted from 0 (R189)
  marks : List (Word32 × Bool × Word)
  deriving DecidableEq, Repr

/-! ## Norson contexts -/

/-- A context descriptor (R189), Edoiny's grant of the context to the host (R199, R202), how many messages and log entries have gone to
its overflow ring and Pile overflow log, which tells the next slot, and the break reports dropped (R281). -/
structure NCtx where
  ptroot : Word
  save : Word
  grant : Word
  sizes : Word
  hostGranted : Bool
  wins : List Thimble         -- the windows granted to the context, for packets and programs (R64, R113; log 15)
  ringNext : Nat := 0
  logNext : Nat := 0
  brkDrops : Nat := 0
  deriving DecidableEq, Repr

/-- An entry of a virtual copy queue (R150). -/
structure CopyE where
  op : Nat              -- its operation
  desc : Vec
  hdr : Word
  issuer : Word
  prog : Nat
  mark : Word
  deriving DecidableEq, Repr

/-- A virtual copy queue (R150); head and tail count entries. -/
structure CopyQ where
  ctx : Half
  level : Nat
  head : Nat
  ents : List CopyE
  deriving DecidableEq, Repr

/-! ## The Livik level -/

inductive PState where
  | ready | batched | parked | awaiting | done | killed
  deriving DecidableEq, Repr

/-- A mailbox entry (R62). -/
structure MboxE where
  sender : Half
  retn : Word
  tag : Word32
  cls : Nat             -- 0 a, 1 c, 2 t
  val : Word
  str : List Word32
  deriving DecidableEq, Repr

/-- What a parked program waits for (R49, R54). -/
inductive ParkWait where
  | pages (ptis : List Nat)
  | frames (cid : Nat) (n : Nat)
  | entries (n : Nat)
  | image (va : Word)
  deriving DecidableEq, Repr

/-- An AWAIT's or INVOKE's wait (R63, R64): the registers to write, T and the timeout in nanoseconds, or the packet not yet taken,
the launch and the status word. -/
inductive AwaitOn where
  | none
  | mbox (a : LReg) (b : LIdx) (t0 : Nat) (timeout : Nat)
  | launch (a : LIdx) (packet : Option (List Word)) (lid : Option Half) (status : Option Word)
  deriving DecidableEq, Repr

/-- A sampler block (R43). -/
structure Sampler where
  seed : Word
  temp : Nat
  topk : Nat
  mode : Nat
  deriving DecidableEq, Repr

/-- The result of an agent mark that an owner remembers (R47): a word, the mailbox entry that an AWAIT took, and, of an INVOKE's launch id, the status
that the launch ended with (R320). -/
structure AgentMark where
  owner : Nat
  mark : Word
  res : Word
  entry : Option MboxE
  status : Option Word := none
  deriving DecidableEq, Repr

/-- A resident program (R24, R199): its agent state block and what the sequencer keeps of it. -/
structure Prog where
  slot : Nat
  pimg : Word
  pc : Nat
  state : PState
  level : Nat
  fault : Nat
  retstk : List Nat           -- top first
  retw : List Nat := []       -- the words of RETSTK as last written; 0 beyond (R24)
  kreq : Bool
  lost : Bool := false        -- it has lost state, and is killed at its next boundary (R48)
  retn : Word
  scratch : Word
  p0 : Word
  p1 : Word
  a : List Word
  c : List Word
  t : List (List Word32)
  codeLen : Nat
  imgLen : Nat
  deadline : Nat              -- nanoseconds, 0 for none
  sblk : Nat
  sring : Nat
  hmbx : Nat
  nctx : Half
  mbox : List MboxE
  hseq : Nat
  notices : List (Word × Word × Vec)   -- waiting notices: tag, RETN when it arose, and record
  await : AwaitOn
  park : List ParkWait
  since : Nat                 -- 1588 nanoseconds when the instruction at PC first reached PC
  long : Option Instr         -- the long instruction in progress
  samp : Option Sampler       -- its sampler block as last read (R38)
  resume : Bool               -- it was interrupted: its next step is a resumption (R38, R41)
  steps : Nat                 -- token steps committed by it
  place : Nat                 -- its place in its level's queue: places grow (R58, R60)
  qy : Nat                    -- steps committed since it last became first of its queue (R61)
  marks : List AgentMark      -- the results of its agent marks, the last four at each owner, newest first (R47)
  deriving DecidableEq, Repr

/-- A detach record (R75). -/
structure Detach where
  pti : Nat
  word : Nat
  f : Nat
  frame : Nat
  copied : Bool
  newPti : Option Nat
  deriving DecidableEq, Repr

/-- A context of the context table (R69, R293, R296). -/
structure LCtx where
  gen : Nat
  quar : Bool
  live : Bool
  len : Nat
  tail : Word32
  base : Nat                 -- where its page list stands in stack memory
  img : Half
  list : List Nat
  creator : Nat
  pin : Bool
  busy : Option Nat          -- the program whose long instruction commits to it (R31)
  detach : Option Detach
  deriving DecidableEq, Repr

/-- A context-page-table entry (R70). -/
structure PageE where
  loc : Nat
  res : Nat
  fill : Nat
  mgen : Nat
  refc : Nat
  infl : Nat
  hold : Nat
  img : Half
  used : Bool
  lastUse : Nat
  target : Nat              -- where a moving page goes: slot, block or frame
  move : Nat                -- its move: 0 fold, 1 shelve, 2 unfold from host memory, 3 unfold from NVMe (R77)
  lines : Nat               -- the set of lines of the position FILL accepted so far, bit l for line l (R37)
  retried : Bool
  deriving DecidableEq, Repr

/-- A model image (R29, R202). -/
structure Image where
  id : Half
  ctx : Half
  entry : Word
  vocab : Nat
  kvl : Nat
  repro : Bool
  pages : Nat
  params : Nat
  wtab : Word
  wbase : Word
  wlen : Word
  sbase : Word
  slen : Nat
  deriving DecidableEq, Repr

/-- A member of a step launch (R55, R243). `kin` are the members coalesced with it (R57). -/
structure Member where
  slot : Nat
  cid : Nat
  n : Nat
  pos : Nat
  tokn : Nat
  toka : Nat
  kva : Nat
  loga : Nat
  kin : List Nat
  deriving DecidableEq, Repr

/-- A step launch in flight. -/
structure StepLaunch where
  id : Nat
  img : Half
  level : Nat
  members : List Member
  words : List Word
  lo : Nat                    -- its part of the image's work area
  hi : Nat
  left : List Nat             -- programs that were READY and not placed when it was formed (R61)
  taken : Bool
  status : Option Word
  deriving DecidableEq, Repr

/-- The mangle's state for one model image (R56, R60). -/
structure Mangle where
  img : Half
  start : Nat
  defs : List (Nat × Nat)
  window : Bool             -- a batching window is open
  opened : Nat              -- the moment it opened
  place : List (Nat × Nat)  -- by level: the slot at which placing resumes
  deriving DecidableEq, Repr

/-! ## Attachments -/

/-- A steering rule (R206) as its 512 bits, and the deposits held for it. -/
structure Rule where
  bits : BitVec 512
  held : List (Nat × List Byte × Stamp × BitVec 512)   -- port sequence, frame, ingress stamp, the rule that steered it
  sent : Option Nat := none               -- its latest message on the network
  deriving DecidableEq, Repr

structure Port where
  rules : List (Nat × Rule)
  seq : Nat
  deriving DecidableEq, Repr

/-- An NVMe lease (R204), 192 bits, with the completions the port made itself and the commands it forwarded. Lease n is one of root port
n / 65,536 (R13). -/
structure Lease where
  bits : BitVec 192
  refused : List Nat
  forwarded : List NvmeCmd
  deriving DecidableEq, Repr

/-- A binding of a host queue (R203). -/
structure QBind where
  qdesc : Nat
  nctx : Half
  lcap : Nat
  unbind : Option Word      -- an unbind request waits for this TAIL (R202)
  deriving DecidableEq, Repr

/-- What goes to Edoiny's endpoints: kill reports and other reports (R181, R122, R206, R281). -/
inductive Report where
  | kill (bytes : List Byte)
  | crec (lid : Half)
  | frame (bytes : List Byte)
  | brk (bytes : List Byte)
  | pageOrder (mark : Word)        -- R37, the last row
  | lostPage (pti : Nat)
  | agentKill (slot : Nat) (code : Nat) (pc : Nat) (retn : Word)
  | attest (bytes : List Byte)
  deriving DecidableEq, Repr

/-- Which agent issues the next instruction: a thread set or a program. -/
inductive Cur where
  | none
  | ts (t : TsId)
  | prog (slot : Nat)
  deriving DecidableEq, Repr

/-- The whole machine. -/
structure State where
  -- memory
  mem : List Host.Cell             -- stack memory, canonical: rising, no zero byte (log 2)
  scratch : List Host.Cell         -- scratchpad bytes by bus address, rising; an unlisted one is undefined (R99)
  undef : List (Nat × Nat × Nat)   -- ranges made undefined: start, length, stamp, latest first
  softMem : List Nat               -- scratchpad bytes with a soft error (R176)
  eccMem : List Nat                -- stack-memory bytes with an uncorrectable error (R176)
  hostMem : List Host.Cell         -- host memory that the device reaches (R198), canonical like mem
  -- Norson
  ts : List (TsId × ThreadSet)
  cores : List (CoreId × CoreSt)
  bundles : List (Nat × Bundle)
  ops : List Op                    -- in issue order
  launches : List Launch           -- in order of acceptance
  ending : List Ending             -- ended launches whose record waits for their last writes (R122)
  children : List Child
  qwaits : List QWait
  net : List Flight                -- in order of release
  pnet : List (Nat × PileNet)
  snet : List (Nat × StealNet)
  windows : List MarkWindow
  ctxs : List (Half × NCtx)
  copyQs : List CopyQ
  copyTurn : List (Nat × Half)     -- queues by level, the one served last at the end (R151)
  turns : List (CoreId × Nat)      -- the thread set of a core that issued last (R84)
  orderNext : Nat                  -- launches accepted since reset
  -- Livik
  progs : List Prog                -- in order of their last state change
  lctx : List (Nat × LCtx)
  pages : List (Nat × PageE)
  ptBase : Nat
  ptSize : Nat
  listBase : Nat                   -- where Edoiny keeps the page lists, 256 KiB a context
  freeFrames : List Nat            -- frames the planner may reserve
  reserved : List (Nat × Nat × Nat)  -- reserved frames: program slot, frame, 64 KiB units
  hostSlots : Nat                  -- host folded-page slots, of 64 KiB
  usedHost : List Nat
  usedBlocks : List Nat
  shelf : List (Nat × List Byte)   -- shelved pages on the planner's NVMe queue pair, by first block (R77)
  images : List Image
  mangles : List Mangle
  steps : List StepLaunch
  qb : Nat                         -- QB (R60)
  window : Nat                     -- microseconds of the batching window (R56)
  rseq : Nat                       -- SEQ of the next retirement stamp (R65)
  -- device
  devstat : Nat
  bootCode : Nat
  hostseq : Nat
  qbind : List (Nat × QBind)
  services : List Nat              -- pending request blocks, oldest first
  hostRegions : List (Nat × Nat)
  fseq : Nat                       -- the front end's next stamp sequence number (R111)
  cycle : List (Nat × Nat)         -- CYCLE by island (R88)
  clock : Nat                      -- IEEE 1588 nanoseconds
  absent : List Nat                -- absent bundles (R22)
  seam : List Nat                  -- seam bundles (R18)
  roles : List (Nat × Nat)         -- role of each seam bundle (R212)
  firewall : List (Nat × FwSet)    -- firewall registers by seam bundle (R212)
  locked : Bool                    -- firewall registers locked
  fwDrops : Nat                    -- messages and accesses the firewall has dropped, for the error-handling role
  absentCh : List Nat
  absentK : List Nat
  absentL2 : List Nat
  absentCE : List Nat
  absentIsl : List Nat
  islandMHz : List (Nat × Nat)
  limits : List (Nat × Nat × Nat)  -- Edoiny's limits of an island, in MHz; 900 and 1800 unless listed (R20)
  lanes : List (Nat × Nat)         -- lanes of each link, 8 unless listed
  routes : List (Nat × Nat)        -- peer device of each link (R212)
  device : Nat                     -- this device's number among its peers (R209)
  peerHeld : List (Nat × PeerAccess)  -- what waits for a link with a working lane (R208)
  hostX1 : Bool
  digests : List (List Byte)       -- table, seam firmware, Edoiny
  ports : List (Nat × Port)
  leases : List (Nat × Lease)
  reports : List Report            -- latest first
  peerOut : List (Nat × List Byte) -- answers on the links
  hostOut : List (List Byte)       -- answers to host loads
  regions : List Region            -- the named regions that the loader placed (R99, R233)
  -- the model's own
  agenda : List Instr              -- moves still to make, first first (log 7)
  cur : Cur
  fresh : Nat                      -- the moment, for free values (log 3)
  nextId : Nat
  deriving DecidableEq, Repr

/-- The machine after reset (R7, R24, R88, R111, R197): DEVSTAT 0 until the boot ROM has run, the front end's stamps at 1,
retirement SEQ at 1, QB 16, the window 20 us (R56, R60); the rest empty (log 4, 5). -/
def State.reset : State :=
  { mem := [], scratch := [], undef := [], softMem := [], eccMem := [], hostMem := [],
    ts := [], cores := [], bundles := [], ops := [], launches := [], ending := [], children := [], qwaits := [], net := [],
    pnet := [], snet := [], windows := [], ctxs := [], copyQs := [], copyTurn := [], turns := [], orderNext := 0,
    progs := [], lctx := [], pages := [], ptBase := 0, ptSize := 0, listBase := 0, freeFrames := [], reserved := [], hostSlots := 0,
    usedHost := [], usedBlocks := [], shelf := [], images := [], mangles := [], steps := [], qb := 16, window := 20, rseq := 1,
    devstat := 0, bootCode := 0, hostseq := 0, qbind := [], services := [], hostRegions := [], fseq := 1, cycle := [],
    clock := 0, absent := [], seam := [], roles := [], firewall := [], locked := false, fwDrops := 0, absentCh := [], absentK := [], absentL2 := [],
    absentCE := [], absentIsl := [], islandMHz := [], limits := [], lanes := [], routes := [], device := 0, peerHeld := [], hostX1 := false, digests := [], ports := [],
    leases := [], reports := [], peerOut := [], hostOut := [], regions := [], agenda := [], cur := .none, fresh := 0,
    nextId := 0 }

end Sys2Proof.Machine
end

