-- ==== Sys2Proof/Machine/Mem.lean ====
section
/-!
DEFINITION. Bytes and memory: little-endian values (R3), the canonical list of cells, stack memory, scratchpads, host
memory, and the stamps of the 1588 clock (R111).
-/

namespace Sys2Proof.Machine

open Sys2Proof

/-! ## Little-endian values (R3) -/

/-- The low `n` bytes of `x`, least significant first. -/
def leBytes : Nat → Nat → List Byte
  | 0, _ => []
  | n + 1, x => BitVec.ofNat 8 x :: leBytes n (x / 256)

/-- The value of bytes, least significant first. -/
def leNat : List Byte → Nat
  | [] => 0
  | b :: r => b.toNat + 256 * leNat r

def w64 (l : List Byte) : Word := BitVec.ofNat 64 (leNat l)
def w32 (l : List Byte) : Word32 := BitVec.ofNat 32 (leNat l)
def vec512 (l : List Byte) : Vec := BitVec.ofNat 512 (leNat l)

/-- Bytes `off` to `off + n - 1` of a list, zero beyond its end. -/
def sliceB (l : List Byte) (off n : Nat) : List Byte :=
  let x := (l.drop off).take n
  x ++ List.replicate (n - x.length) 0

/-- A little-endian field of `n` bytes at offset `off`. -/
def fieldB (l : List Byte) (off n : Nat) : Nat := leNat (sliceB l off n)

/-- A 64-bit field of an operand vector. -/
def vWord (v : Vec) (off : Nat) : Word := v.extractLsb' (8 * off) 64
/-- A 32-bit field of an operand vector. -/
def vWord32 (v : Vec) (off : Nat) : Word32 := v.extractLsb' (8 * off) 32

/-- A vector from 64-bit words, word 0 lowest. -/
def vecOfWords : List Word → Vec
  | [] => 0
  | w :: r => (w.setWidth 512) ||| (vecOfWords r <<< 64)

/-- A range of bits of a word as a number. -/
def bits (w : Word) (hi lo : Nat) : Nat := (w.toNat / 2 ^ lo) % 2 ^ (hi - lo + 1)

/-- A number as a field at bit `lo` of a word. -/
def at64 (x lo : Nat) : Word := BitVec.ofNat 64 (x * 2 ^ lo)

/-! ## Cells -/

/-- The byte listed at an address. -/
def Cells.get : List Host.Cell → Nat → Option Byte
  | [], _ => none
  | (a, b) :: r, x => if x = a then some b else Cells.get r x

/-- List a byte at its place. -/
def Cells.ins : List Host.Cell → Nat → Byte → List Host.Cell
  | [], x, b => [(x, b)]
  | (a, c) :: r, x, b =>
    if x < a then (x, b) :: (a, c) :: r
    else if x = a then (x, b) :: r
    else (a, c) :: Cells.ins r x b

/-- Remove an address from the list. -/
def Cells.del (l : List Host.Cell) (x : Nat) : List Host.Cell := l.filter (fun c => decide (c.1 ≠ x))

/-- Remove a range of addresses. -/
def Cells.delRange (l : List Host.Cell) (x n : Nat) : List Host.Cell :=
  l.filter (fun c => decide (c.1 < x ∨ x + n ≤ c.1))

/-- Write a byte where an unlisted address reads 0: zero is not listed. -/
def Cells.put (l : List Host.Cell) (x : Nat) (b : Byte) : List Host.Cell :=
  if b = 0 then Cells.del l x else Cells.ins l x b

/-- Addresses rise strictly. -/
def Cells.rising : List Host.Cell → Bool
  | [] => true
  | [_] => true
  | c :: d :: r => decide (c.1 < d.1) && Cells.rising (d :: r)

/-- The canonical form of stack and host memory: rising addresses and no zero byte (log 2). -/
def Memory.wf (l : List Host.Cell) : Bool := Cells.rising l && l.all (fun c => decide (c.2 ≠ 0))

/-! ## The bus: stack memory by physical address, scratchpads from 0x7F00_0000_0000 (R17, R78) -/

def scratchBase : Nat := 0x7F0000000000
def kernelBase : Nat := 0x7F0100000000
def scratchEnd : Nat := 0x7F0104000000

/-- The bus address of byte `off` of a core's scratchpad. -/
def scratchBus (c : CoreId) (off : Nat) : Nat :=
  if c.kernel then kernelBase + c.idx * 2 ^ 20 + off else scratchBase + c.idx * 2 ^ 18 + off

/-- The stamp of the latest event that made a scratchpad byte undefined (log 3). -/
def undefStamp : List (Nat × Nat × Nat) → Nat → Nat
  | [], _ => 0
  | (a, n, k) :: r, x => if a ≤ x ∧ x < a + n then k else undefStamp r x

/-- Cells of consecutive bytes; zero is not listed. -/
def cellsOf : Nat → List Byte → List Host.Cell
  | _, [] => []
  | a, b :: r => if b = 0 then cellsOf (a + 1) r else (a, b) :: cellsOf (a + 1) r

/-- Replace a range of the canonical list at once. -/
def Cells.splice (l : List Host.Cell) (a : Nat) (d : List Byte) : List Host.Cell :=
  l.filter (fun c => decide (c.1 < a)) ++ cellsOf a d ++ l.filter (fun c => decide (a + d.length ≤ c.1))

/-- Cells of consecutive scratchpad bytes; a byte that is the free value which its unlisted address reads as is not listed (log 3). -/
def listedFrom (u : List (Nat × Nat × Nat)) : Nat → List Byte → List Host.Cell
  | _, [] => []
  | a, b :: r => if b = Config.freeByte (undefStamp u a) a then listedFrom u (a + 1) r else (a, b) :: listedFrom u (a + 1) r

/-- Replace a range of scratchpad at once. -/
def Cells.spliceAll (u : List (Nat × Nat × Nat)) (l : List Host.Cell) (a : Nat) (d : List Byte) : List Host.Cell :=
  l.filter (fun c => decide (c.1 < a)) ++ listedFrom u a d ++ l.filter (fun c => decide (a + d.length ≤ c.1))

/-- Bytes from an address on, of rising cells none of which stands below it. -/
def Cells.read : List Host.Cell → Nat → Nat → List Byte
  | _, _, 0 => []
  | [], a, n + 1 => 0 :: Cells.read [] (a + 1) n
  | (x, b) :: r, a, n + 1 => if x = a then b :: Cells.read r (a + 1) n else 0 :: Cells.read ((x, b) :: r) (a + 1) n

/-- A memory address in no present channel: reads all ones and discards writes (R22, R197). -/
def State.noChannel (s : State) (a : Nat) : Bool :=
  decide (Config.channels * Config.channelBytes ≤ a) || s.absentCh.contains (a / Config.channelBytes)

/-- A byte of the control line of an operand ring that is bound on its core: HEAD, TAIL and the reserved bytes behind them (R140). -/
def State.ringControl (s : State) (a : Nat) : Bool :=
  decide (scratchBase ≤ a ∧ a < kernelBase) &&
  match Assoc.get s.cores { kernel := false, idx := (a - scratchBase) / 2 ^ 18 } with
  | none => false
  | some k => k.rings.any (fun r => decide (r.2.base ≤ (a - scratchBase) % 2 ^ 18 ∧ (a - scratchBase) % 2 ^ 18 < r.2.base + 64))

/-- A byte of an entry of a virtual copy queue in use (R150, R189). -/
def State.copyEntryByte (s : State) (a : Nat) : Bool :=
  s.copyQs.any (fun q => match Assoc.get s.ctxs q.ctx with
    | none => false
    | some c => let at_ := c.save.toNat + 0x30000 + 0x9000 * q.level + 64
                decide (at_ ≤ a ∧ a < at_ + 128 * 256))

/-- A byte that its owner alone writes: the context page table (R70), a page list, HEAD of a bound queue (R109), the agent state block of a
resident program, its stamp ring, and its host mailbox but for FULL (R24, R65, R200), the control line of a bound ring (R140), the entries of a
virtual copy queue (R150): what the maps of R7 call RO. -/
def State.readOnly (s : State) (a : Nat) : Bool :=
  decide (s.ptBase ≤ a ∧ a < s.ptBase + 16 * s.ptSize) ||
  s.lctx.any (fun c => c.2.live && decide (c.2.base ≤ a ∧ a < c.2.base + 4 * c.2.list.length)) ||
  s.qbind.any (fun q => decide (q.2.qdesc + 0x10 ≤ a ∧ a < q.2.qdesc + 0x18)) ||
  s.progs.any (fun p => decide (p.sblk ≤ a ∧ a < p.sblk + 0x41000) || decide (p.sring ≤ a ∧ a < p.sring + 0x2000) ||
    (decide (p.hmbx ≤ a ∧ a < p.hmbx + 0x101000) && !(decide (a < p.hmbx + 4096) && decide (0x38 ≤ (a - p.hmbx) % 64)))) ||
  s.ringControl a || s.copyEntryByte a

/-- A byte that an outstanding block read will write: undefined until its completion (R279). The control line of a bound ring, which it does not
write, stays (R7). -/
def State.inBrd (s : State) (a : Nat) : Bool :=
  s.ops.any (fun o => decide (o.kind = .brd) && o.dst.any (fun g => decide (g.bus ≤ a) && decide (a < g.bus + g.len))) && !(s.ringControl a)

/-- One byte as it stands at its point of visibility (R154). -/
def State.rdByte (s : State) (a : Nat) : Byte :=
  if scratchBase ≤ a then
    if s.inBrd a then Config.freeByte s.fresh a
    else (Cells.get s.scratch a).getD (Config.freeByte (undefStamp s.undef a) a)
  else if s.noChannel a then 0xFF#8
  else (Cells.get s.mem a).getD 0

/-- Store one byte at its point of visibility. -/
def State.wrByte (s : State) (a : Nat) (b : Byte) : State :=
  if scratchBase ≤ a then { s with scratch := Cells.ins s.scratch a b, softMem := s.softMem.filter (fun x => decide (x ≠ a)) }
  else if s.noChannel a then s
  else { s with mem := Cells.put s.mem a b, eccMem := s.eccMem.filter (fun x => decide (x ≠ a)) }

def State.rd (s : State) (a : Nat) : Nat → List Byte
  | 0 => []
  | n + 1 => s.rdByte a :: State.rd s (a + 1) n

/-- Read a block of stack memory by physical address. -/
def State.rdPhys (s : State) (a n : Nat) : List Byte :=
  if a + n ≤ Config.channels * Config.channelBytes ∧ s.absentCh.isEmpty then Cells.read (s.mem.filter (fun c => decide (a ≤ c.1))) a n else s.rd a n

def State.wr (s : State) (a : Nat) : List Byte → State
  | [] => s
  | b :: r => State.wr (s.wrByte a b) (a + 1) r

/-- Write a block of stack memory by physical address. -/
def State.wrPhys (s : State) (a : Nat) (d : List Byte) : State :=
  if a + d.length ≤ Config.channels * Config.channelBytes ∧ s.absentCh.isEmpty then
    { s with mem := Cells.splice s.mem a d, eccMem := s.eccMem.filter (fun x => decide (x < a ∨ a + d.length ≤ x)) }
  else s.wr a d

/-- Store one byte for an agent that is not its owner: a byte that its owner alone writes ignores it (R7, R70, R109). -/
def State.wrFree (s : State) (a : Nat) (b : Byte) : State := if s.readOnly a then s else s.wrByte a b

/-- Store a block for an agent that does not own it. -/
def State.wrRw (s : State) (a : Nat) : List Byte → State
  | [] => s
  | b :: r => State.wrRw (s.wrFree a b) (a + 1) r

def State.rd64 (s : State) (a : Nat) : Word := w64 (s.rd a 8)
def State.rd32 (s : State) (a : Nat) : Word32 := w32 (s.rd a 4)
def State.wr64 (s : State) (a : Nat) (x : Word) : State := s.wr a (leBytes 8 x.toNat)
def State.wr32 (s : State) (a : Nat) (x : Word32) : State := s.wr a (leBytes 4 x.toNat)

/-- A range of scratchpad becomes undefined (R99, R279, R338). -/
def State.forget (s : State) (a n : Nat) : State :=
  { s with scratch := Cells.delRange s.scratch a n, fresh := s.fresh + 1,
           undef := (a, n, s.fresh) :: s.undef.filter (fun r => !(decide (a ≤ r.1) && decide (r.1 + r.2.1 ≤ a + n))) }

/-- Bytes that no rule gives: free values of this moment, by their addresses (log 3). -/
def State.anyBytes (s : State) (a n : Nat) : List Byte := (List.range n).map (fun i => Config.freeByte s.fresh (a + i))

/-- A range of the bus becomes undefined: its bytes take free values, but for those that their owner alone writes (R7, R288). -/
def State.smear (s : State) (a n : Nat) : State := { s.wrRw a (s.anyBytes a n) with fresh := s.fresh + 1 }

/-- Bytes of a range that their owner alone writes get back what they held. -/
def State.keepOwned (s : State) (a : Nat) (old : List Byte) : State :=
  old.zipIdx.foldl (fun u e => if s.readOnly (a + e.2) then u.wrByte (a + e.2) e.1 else u) s

/-- A range of scratchpad becomes undefined, but for bytes that their owner alone writes (R7, R279). -/
def State.forgetRw (s : State) (a n : Nat) : State := (s.forget a n).keepOwned a (s.rd a n)

/-- Fill a range of stack memory with zeros (R243). -/
def State.zeroRange (s : State) (a n : Nat) : State := { s with mem := Cells.delRange s.mem a n }

/-- Fill a block of stack memory with zeros. -/
def State.clearPhys (s : State) (a n : Nat) : State :=
  if a + n ≤ Config.channels * Config.channelBytes ∧ s.absentCh.isEmpty then
    { s.zeroRange a n with eccMem := s.eccMem.filter (fun x => decide (x < a ∨ a + n ≤ x)) }
  else s.wr a (List.replicate n 0)

/-- Host memory (R198): folded pages, completion and stamp targets. -/
def State.hostWr (s : State) (a : Nat) : List Byte → State
  | [] => s
  | b :: r => State.hostWr { s with hostMem := Cells.put s.hostMem a b } (a + 1) r

def State.hostRd (s : State) (a : Nat) : Nat → List Byte
  | 0 => []
  | n + 1 => (Cells.get s.hostMem a).getD 0 :: State.hostRd s (a + 1) n

/-! ## Stamps -/

/-- The 1588 clock with no sequence number (R111). -/
def State.stamp0 (s : State) : Stamp := { sec := s.clock / 1000000000, ns := s.clock % 1000000000, seq := 0 }

/-- A stamp that the front end takes, with its sequence number (R111). -/
def State.stamp (s : State) : Stamp := { s.stamp0 with seq := s.fseq }

/-- The front end has taken a stamp (R111). -/
def State.stamped (s : State) : State := { s with fseq := (s.fseq + 1) % 2 ^ 48 }

/-- The 16 bytes of a stamp (R111). -/
def Stamp.bytes (x : Stamp) : List Byte := leBytes 6 x.sec ++ leBytes 4 x.ns ++ leBytes 6 x.seq

end Sys2Proof.Machine
end

