-- ==== Sys2Proof/Machine/Access.lean ====
section
/-!
DEFINITION. Who is where (R16 to R20), which units are present (R22), and how an address is decided: the divisions of
R78 and R389, the tables of R79, the thimbles of R209, in the order of R82.
-/

namespace Sys2Proof.Machine

open Sys2Proof

/-! ## Identities -/

def cc (i : Nat) : CoreId := { kernel := false, idx := i }
def kc (i : Nat) : CoreId := { kernel := true, idx := i }

/-- The bundle of a compute core, die * 256 + bundle (R16). -/
def bundleOf (c : CoreId) : Nat := c.idx / 8
def dieOf (c : CoreId) : Nat := if c.kernel then 8 + c.idx / 32 else c.idx / 2048
/-- The island that a core counts its cycles in (R20). -/
def islandOf (c : CoreId) : Nat :=
  if c.kernel then 32 + 2 * (c.idx / 32) else 4 * (c.idx / 2048) + (c.idx / 8 % 256) / 64
/-- The 14-bit source field of a core (R16, R17). -/
def srcField (c : CoreId) : Nat := c.idx

def State.coreAbsent (s : State) (c : CoreId) : Bool :=
  if c.kernel then decide (Config.kernelCores ≤ c.idx) || s.absentK.contains c.idx
  else decide (Config.bundles * 8 ≤ c.idx) || s.absent.contains (bundleOf c) || s.absentIsl.contains (islandOf c)

/-- A bundle that launches may draw on: present and not seam (R18, R22). -/
def State.bundleUsable (s : State) (b : Nat) : Bool :=
  !(s.coreAbsent (cc (b * 8))) && !(s.seam.contains b)

/-! ## Lookups -/

def State.tsGet (s : State) (t : TsId) : ThreadSet := Assoc.getD s.ts t ThreadSet.reset
def State.tsSet (s : State) (t : TsId) (x : ThreadSet) : State := { s with ts := Assoc.set s.ts t x }
def State.core (s : State) (c : CoreId) : CoreSt := Assoc.getD s.cores c CoreSt.reset
def State.setCore (s : State) (c : CoreId) (x : CoreSt) : State := { s with cores := Assoc.set s.cores c x }
def State.bundle (s : State) (b : Nat) : Bundle := Assoc.getD s.bundles b Bundle.reset
def State.setBundle (s : State) (b : Nat) (x : Bundle) : State := { s with bundles := Assoc.set s.bundles b x }
def State.ctx (s : State) (c : Half) : Option NCtx := Assoc.get s.ctxs c
def State.launch (s : State) (l : Half) : Option Launch := s.launches.find? (fun x => decide (x.lid = l))
def State.setLaunch (s : State) (l : Launch) : State :=
  { s with launches := s.launches.map (fun x => if x.lid = l.lid then l else x) }
/-- Change a launch, if it has not ended. -/
def State.onLaunch (s : State) (l : Option Half) (f : Launch → Launch) : State :=
  match l with
  | none => s
  | some id => { s with launches := s.launches.map (fun x => if x.lid = id then f x else x) }

/-- The four thread sets of a core. -/
def threadsOf (c : CoreId) : List TsId := [0, 1, 2, 3].map (fun n => { core := c, ts := n })

/-- Place of an element in a list. -/
def indexOf? [DecidableEq α] : List α → α → Option Nat
  | [], _ => none
  | y :: r, x => if y = x then some 0 else (indexOf? r x).map (· + 1)

/-- The number of cores of a launch: n (R113). -/
def Launch.n (l : Launch) : Nat := l.bundles.length * 8
/-- The core of an ordinal. -/
def Launch.coreAt (l : Launch) (o : Nat) : CoreId := cc ((l.bundles[o / 8]?).getD 0 * 8 + o % 8)
/-- The ordinal of a core in a launch that holds it. -/
def Launch.ordinal (l : Launch) (c : CoreId) : Option Nat :=
  if c.kernel then none else (indexOf? l.bundles (bundleOf c)).map (fun i => i * 8 + c.idx % 8)
def Launch.holds (l : Launch) (c : CoreId) : Bool := (l.ordinal c).isSome && decide (l.state = .running)

/-- The window bases of a core (R93). -/
def Launch.kbAt (l : Launch) (c : CoreId) : List Word := match (l.ordinal c).bind (Assoc.get l.kbOf) with
  | some k => k
  | none => l.kb

/-- The rinse token goes back to the beginning of a round (R120, R134). -/
def Token.again (k : Token) : Token := if k.started then { started := true, at_ := 0, sum := 0, stain := false } else k

/-- A packet's word. -/
def Launch.w (l : Launch) (i : Nat) : Word := (l.words[i]?).getD 0
def Launch.level (l : Launch) : Nat := bits (l.w 0) 7 4
def Launch.pile (l : Launch) : Bool := (l.w 0).getLsbD 8
def Launch.repl (l : Launch) : Bool := (l.w 0).getLsbD 9
def Launch.cscope (l : Launch) : Nat := bits (l.w 0) 12 10
def Launch.theta (l : Launch) : Nat := bits (l.w 0) 15 13
/-- L1 size of a SPLIT code in KiB (R98). -/
def splitKiB (code : Nat) : Nat := 32 * (code % 4 + 1)
def Launch.l1 (l : Launch) : Nat := splitKiB (bits (l.w 0) 17 16)
/-- The watchdog budget: 2^WDOG, 2^20 for 0 (R110). -/
def Launch.budget (l : Launch) : Nat := if bits (l.w 0) 22 18 = 0 then 2 ^ 20 else 2 ^ bits (l.w 0) 22 18
def Launch.wslot (l : Launch) : Nat := bits (l.w 0) 35 24
def Launch.sslot (l : Launch) : Nat := bits (l.w 0) 47 36
def Launch.crec (l : Launch) : Word := l.w 6

/-- Scratchpad size S of a core (R98). -/
def State.scratchSize (s : State) (c : CoreId) : Nat :=
  if c.kernel then Config.kernelScratch else (256 - (s.core c).l1) * 1024

/-- The frozen image of a context that holds a core, from its capture point on. -/
def State.frozenImg (s : State) (c : CoreId) (ctx : Half) : Option Frozen :=
  if c.kernel then none else (s.bundle (bundleOf c)).frozen.find? (fun f => decide (f.ctx = ctx) && (Assoc.get f.cores c).isSome)

/-- What a context has on a core: in its frozen image, or on the core. -/
def State.coreFor (s : State) (c : CoreId) (ctx : Half) : CoreSt :=
  match s.frozenImg c ctx with
  | some f => Assoc.getD f.cores c CoreSt.reset
  | none => s.core c

/-- The scratchpad size that a core has for a context, in its frozen image or live (R98, R185). -/
def State.sizeFor (s : State) (c : CoreId) (ctx : Half) : Nat := (256 - (s.coreFor c ctx).l1) * 1024

/-- Bytes of the device-placed area of a launch: the deque, or the footprint area (R388). -/
def Launch.area (l : Launch) : Nat := if l.pile then l.fpa * 4096 else 8192
/-- Where that area begins, as a scratchpad offset on bundle `b` (R99, R123, R388): at the top, or directly below that of the other launch, which is
one of its context. -/
def State.areaBase (s : State) (l : Launch) (b : Nat) : Nat :=
  let top := s.scratchSize (cc (b * 8))
  let above := (s.launches.filter (fun x => decide (x.lid ≠ l.lid) && decide (x.ctx = l.ctx) && decide (x.state = .running) && x.bundles.contains b)).foldl
    (fun a x => a + x.area) 0
  if l.areaLow.contains b then top - above - l.area else top - l.area

/-! ## Translation (R79, R80) -/

/-- A leaf: the physical address of the 64 KiB page, the rights of the whole walk (RD, WR, EX, AM), NR, the affinity core,
and whether the page is 2 MiB. -/
structure Leaf where
  phys : Nat
  rights : BitVec 4
  nr : Bool
  aff : Option Nat
  large : Bool
  deriving DecidableEq, Repr

/-- The reserved bits [15:7] and [63:55] of an entry are zero. -/
def pteOk (e : Word) : Bool := decide (bits e 15 7 = 0) && decide (bits e 63 55 = 0)
def pteFrame (e : Word) : Nat := bits e 39 16 * 65536
def pteRights (e : Word) : BitVec 4 := BitVec.ofNat 4 (bits e 5 2)
def pteAff (e : Word) : Option Nat := if e.getLsbD 54 then some (bits e 53 40) else none

/-- One level of a walk: the table entry, if it is valid and well formed. -/
def State.pte (s : State) (table idx : Nat) : Option Word :=
  let e := s.rd64 (table + 8 * idx)
  if e.getLsbD 0 && pteOk e then some e else none

/-- The walk of R79 for an address below 2^48. -/
def State.walk (s : State) (root va : Nat) : Option Leaf :=
  match s.pte root (va / 2 ^ 39 % 512) with
  | none => none
  | some e1 =>
    if e1.getLsbD 1 then none else
    match s.pte (pteFrame e1) (va / 2 ^ 30 % 512) with
    | none => none
    | some e2 =>
      if e2.getLsbD 1 then none else
      match s.pte (pteFrame e2) (va / 2 ^ 21 % 512) with
      | none => none
      | some e3 =>
        let r := pteRights e1 &&& pteRights e2 &&& pteRights e3
        if e3.getLsbD 1 then
          if bits e3 20 16 ≠ 0 then none
          else some { phys := pteFrame e3 + va / 65536 % 32 * 65536, rights := r, nr := e3.getLsbD 6, aff := pteAff e3, large := true }
        else match s.pte (pteFrame e3) (va / 65536 % 32) with
          | none => none
          | some e4 =>
            if e4.getLsbD 1 then none
            else some { phys := pteFrame e4, rights := r &&& pteRights e4, nr := e4.getLsbD 6, aff := pteAff e4, large := false }

/-- A context's translation of a page, by its tables. -/
def State.lookup (s : State) (ctx : Half) (va : Nat) : Option Leaf :=
  match s.ctx ctx with
  | none => none
  | some c => s.walk (bits c.ptroot 39 0) va

/-- A bundle's translation: a cached entry may be used stale until a KTLB covers it (R80, log 9). -/
def State.translate (s : State) (b : Nat) (ctx : Half) (va : Nat) : Option Leaf :=
  let now := s.lookup ctx va
  match (s.bundle b).tc.find? (fun e => decide (e.ctx = ctx) && decide (e.page = va / 65536)) with
  | none => now
  | some e =>
    let old : Leaf := { phys := e.phys, rights := e.rights, nr := e.nr, aff := e.aff, large := e.large }
    if now = some old then now
    else if Config.freeBool s.fresh e.page then some old else now

/-! ## Checks -/

/-- Rights, in the order of the bits of R79 and R209. -/
def rRD : BitVec 4 := 1#4
def rWR : BitVec 4 := 2#4
def rEX : BitVec 4 := 4#4
def rAM : BitVec 4 := 8#4

/-- What a page must grant: an atomic needs RD, WR and AM (R79). -/
def pageNeeds (r : BitVec 4) : BitVec 4 := if r = rAM then 11#4 else r

/-- A window entry (R209) that covers an address with the rights. -/
def winCovers (e : Thimble) (va : Nat) (r : BitVec 4) : Bool :=
  e.getLsbD 0 && !e.getLsbD 1 && decide (e.extractLsb' 2 4 &&& r = r) &&
  decide ((e.extractLsb' 64 64).toNat ≤ va) && decide (va < (e.extractLsb' 64 64).toNat + (e.extractLsb' 128 64).toNat)

/-- The thimble of a core grants an access (R209). -/
def State.thimbleOk (s : State) (c : CoreId) (va : Nat) (r : BitVec 4) : Bool :=
  (s.core c).thimble.any (fun e => decide (e.1 < 16) && winCovers e.2 va r)

/-- The device of the first thimble endpoint that grants `send` to a core number (R106, R209). A SEND names no device: the endpoint
does (log 39). -/
def State.endpoint? (s : State) (c : CoreId) (dst : Nat) : Option Nat :=
  ((s.core c).thimble.find? (fun e => decide (16 ≤ e.1) && e.2.getLsbD 0 && e.2.getLsbD 1 && e.2.getLsbD 2 &&
    decide ((e.2.extractLsb' 64 14).toNat = dst))).map (fun e => (e.2.extractLsb' 80 4).toNat)

/-- The endpoint that grants it is of this device. -/
def State.endpointOk (s : State) (c : CoreId) (dst : Nat) : Bool := decide (s.endpoint? c dst = some s.device)

/-- Where an accessible byte lies, and whether its page is not resident. `page` names its page, 2 * va page + large. -/
structure Hit where
  bus : Nat
  nr : Bool
  page : Nat
  deriving DecidableEq, Repr

/-- Who accesses: a core, the context and the launch it runs (R78, R389). `late` says that the launch has ended or that the core is frozen: the core
may have another's thimbles and scratchpad size now (log 44). -/
structure View where
  core : CoreId
  ctx : Half
  lid : Option Half
  late : Bool := false
  deriving DecidableEq, Repr

/-- The launch of a view; of one that has ended, what is kept until its record is written. -/
def State.viewLaunch (s : State) (v : View) : Option Launch :=
  match v.lid.bind s.launch with
  | some l => some l
  | none => if v.late then (s.ending.find? (fun e => decide (v.lid = some e.l.lid))).map Ending.l else none

/-- A core lies in the launch of the view. -/
def State.inLaunch (s : State) (v : View) (c : CoreId) : Bool :=
  match s.viewLaunch v with
  | none => false
  | some l => l.holds c

/-- The scratchpad size of a core for a view. -/
def State.sizeOf (s : State) (v : View) (c : CoreId) : Nat := if v.late then s.sizeFor c v.ctx else s.scratchSize c

/-- The decision for one byte (R78, R79, R209, R389), in the order BOUND, XLATE, PROT, GATE (R82, log 11). A page that is not
resident has no frame yet: it holds the access whatever its FRAME is (R79, R81). -/
def State.decideByte (s : State) (v : View) (va : Word) (r : BitVec 4) : Except Cause Hit :=
  let a := va.toNat
  if v.core.kernel then
    if kernelBase ≤ a ∧ a < scratchEnd then
      let k := (a - kernelBase) / 2 ^ 20
      if s.coreAbsent (kc k) then .error .xlate
      else if Config.kernelScratch ≤ a % 2 ^ 20 then .error .bound
      else .ok { bus := a, nr := false, page := 0 }
    else if scratchBase ≤ a ∧ a < kernelBase then
      let c := cc ((a - scratchBase) / 2 ^ 18)
      if s.coreAbsent c then .error .xlate
      else if s.scratchSize c ≤ a % 2 ^ 18 then .error .bound
      else .ok { bus := a, nr := false, page := 0 }
    else if 2 ^ 40 ≤ a ∨ s.noChannel a then .error .xlate
    else .ok { bus := a, nr := false, page := 0 }
  else if 2 ^ 48 ≤ a then .error .xlate
  else if a < 2 ^ 18 then
    if s.sizeOf v v.core ≤ a then .error .bound
    else .ok { bus := scratchBus v.core a, nr := false, page := 0 }
  else if scratchBase ≤ a ∧ a < kernelBase then
    let c := cc ((a - scratchBase) / 2 ^ 18)
    if s.coreAbsent c then .error .xlate
    else if s.sizeOf v c ≤ a % 2 ^ 18 then .error .bound
    else if c ≠ v.core ∧ !(s.inLaunch v c) then .error .xlate
    else .ok { bus := a, nr := false, page := 0 }
  else if kernelBase ≤ a ∧ a < scratchEnd then .error .xlate
  else match s.translate (bundleOf v.core) v.ctx a with
    | none => .error .xlate
    | some l =>
      if l.rights &&& pageNeeds r ≠ pageNeeds r then .error .prot
      else if !v.late && !(s.thimbleOk v.core a r) then .error .gate
      else if !l.nr && s.noChannel (l.phys + a % 65536) then .error .xlate
      else .ok { bus := l.phys + a % 65536, nr := l.nr,
                 page := 1 + if l.large then 2 * (a / 2 ^ 21) + 1 else 2 * (a / 65536) }

/-- A block of an access: 32 KiB at most, within which one decision holds. -/
structure Block where
  va : Word
  bus : Nat
  len : Nat
  off : Nat
  nr : Bool
  page : Nat
  deriving DecidableEq, Repr

/-- Decide a range block by block, in address order: the blocks, or the first failing byte (R82). -/
def State.checkFrom (s : State) (v : View) (r : BitVec 4) : Nat → Word → Nat → Nat → Except (Cause × Word) (List Block)
  | 0, _, _, _ => .ok []
  | fuel + 1, va, len, off =>
    if len = 0 then .ok []
    else
      let n := min len (32768 - va.toNat % 32768)
      match s.decideByte v va r with
      | .error c => .error (c, va)
      | .ok h =>
        match s.checkFrom v r fuel (va + BitVec.ofNat 64 n) (len - n) (off + n) with
        | .error e => .error e
        | .ok rest => .ok ({ va := va, bus := h.bus, len := n, off := off, nr := h.nr, page := h.page } :: rest)

/-- Check(a, n, right) of R251. -/
def State.check (s : State) (v : View) (va : Word) (n : Nat) (r : BitVec 4) : Except (Cause × Word) (List Block) :=
  s.checkFrom v r (n / 32768 + 2) va n 0

/-- Pieces of a block that lie within naturally aligned 8 bytes (R156). -/
def cutBlock : Nat → Word → Nat → Nat → Nat → List Seg
  | 0, _, _, _, _ => []
  | fuel + 1, va, bus, len, off =>
    if len = 0 then []
    else
      let n := min len (8 - va.toNat % 8)
      { va := va, bus := bus, len := n, off := off } :: cutBlock fuel (va + BitVec.ofNat 64 n) (bus + n) (len - n) (off + n)

/-- The pieces of a checked range. -/
def segsOf (bs : List Block) : List Seg := bs.flatMap (fun b => cutBlock (b.len / 8 + 2) b.va b.bus b.len b.off)

/-- The blocks of a checked range as whole pieces, for the engines (R108, R149). -/
def wholeSegs (bs : List Block) : List Seg := bs.map (fun b => { va := b.va, bus := b.bus, len := b.len, off := b.off })

def anyNr (bs : List Block) : Bool := bs.any Block.nr

/-- The pages of a checked range, each once. -/
def pagesOf (bs : List Block) : List Nat := ((bs.map Block.page).filter (fun p => decide (p ≠ 0))).eraseDups

/-- Two pieces share a byte. -/
def Seg.overlaps (a b : Seg) : Bool := decide (a.bus < b.bus + b.len) && decide (b.bus < a.bus + a.len)
/-- `a` covers `b`. -/
def Seg.covers (a b : Seg) : Bool := decide (a.bus ≤ b.bus) && decide (b.bus + b.len ≤ a.bus + a.len)

/-- Two pieces share a virtual address: what stands for bytes whose frame may still change (R81). -/
def Seg.overlapsVa (a b : Seg) : Bool := decide (a.va.toNat < b.va.toNat + b.len) && decide (b.va.toNat < a.va.toNat + a.len)

/-! ## Accesses without a core: the front end and the sequencer read under a context's grants (R64, R113, R230; log 15) -/

/-- One byte of paged memory under a context's windows and tables. -/
def State.grantByte (s : State) (ctx : Half) (va : Word) (r : BitVec 4) (win : Bool) : Except Cause Hit :=
  let a := va.toNat
  if ctx = Config.edoiny then
    if 2 ^ 40 ≤ a ∨ s.noChannel a then .error .xlate else .ok { bus := a, nr := false, page := 0 }
  else if 2 ^ 48 ≤ a ∨ a < 2 ^ 18 ∨ (scratchBase ≤ a ∧ a < scratchEnd) then .error .xlate
  else match s.lookup ctx a with
    | none => .error .xlate
    | some l =>
      if l.rights &&& pageNeeds r ≠ pageNeeds r then .error .prot
      else if win && !(((s.ctx ctx).map NCtx.wins).getD []).any (fun e => winCovers e a r) then .error .gate
      else if !l.nr && s.noChannel (l.phys + a % 65536) then .error .xlate
      else .ok { bus := l.phys + a % 65536, nr := l.nr, page := a / 65536 }

def State.grantFrom (s : State) (ctx : Half) (r : BitVec 4) (win : Bool) : Nat → Word → Nat → Nat → Except (Cause × Word) (List Block)
  | 0, _, _, _ => .ok []
  | fuel + 1, va, len, off =>
    if len = 0 then .ok []
    else
      let n := min len (32768 - va.toNat % 32768)
      match s.grantByte ctx va r win with
      | .error c => .error (c, va)
      | .ok h =>
        match s.grantFrom ctx r win fuel (va + BitVec.ofNat 64 n) (len - n) (off + n) with
        | .error e => .error e
        | .ok rest => .ok ({ va := va, bus := h.bus, len := n, off := off, nr := h.nr, page := h.page } :: rest)

/-- Check a range under a context's grants. -/
def State.granted (s : State) (ctx : Half) (va : Word) (n : Nat) (r : BitVec 4) (win : Bool) : Except (Cause × Word) (List Block) :=
  s.grantFrom ctx r win (n / 32768 + 2) va n 0

/-- Read the bytes of checked blocks. -/
def State.rdBlocks (s : State) (bs : List Block) : List Byte := bs.flatMap (fun b => s.rd b.bus b.len)

/-- Write bytes over checked blocks; a byte that its owner alone writes stays (R7, R70, R109). -/
def State.wrBlocks (s : State) : List Block → List Byte → State
  | [], _ => s
  | b :: r, d => State.wrBlocks (s.wrRw b.bus (d.take b.len)) r (d.drop b.len)

/-- Read `n` bytes at a virtual address of a context, if it is granted and resident. -/
def State.rdV (s : State) (ctx : Half) (va : Word) (n : Nat) (r : BitVec 4) : Option (List Byte) :=
  match s.granted ctx va n r false with
  | .ok bs => some (s.rdBlocks bs)
  | .error _ => none

/-- Write bytes at a virtual address of a context, if it has WR; otherwise nothing. -/
def State.wrV (s : State) (ctx : Half) (va : Word) (d : List Byte) : Option State :=
  match s.granted ctx va d.length rWR false with
  | .ok bs => some (s.wrBlocks bs d)
  | .error _ => none

end Sys2Proof.Machine
end

