-- ==== Sys2Proof/Machine/Float.lean ====
section
/-!
DEFINITION. Floating-point values: the formats of R136, one exact result rounded once (R251, R305), and the flags of
R306. A finite value is (-1)^neg * m * 2^e with m a natural number; every operation computes exactly and rounds at the end.
-/

namespace Sys2Proof.Machine

/-- A binary format: exponent bits and fraction bits (R136). -/
structure Fmt where
  eb : Nat
  mb : Nat
  deriving DecidableEq, Repr

def fBF16 : Fmt := ⟨8, 7⟩
def fFP16 : Fmt := ⟨5, 10⟩
def fFP32 : Fmt := ⟨8, 23⟩
def fFP64 : Fmt := ⟨11, 52⟩

def Fmt.width (f : Fmt) : Nat := f.eb + f.mb + 1
def Fmt.bias (f : Fmt) : Nat := 2 ^ (f.eb - 1) - 1
def Fmt.expMax (f : Fmt) : Nat := 2 ^ f.eb - 1
/-- Exponent of the least significant bit of a subnormal. -/
def Fmt.qmin (f : Fmt) : Int := 1 - (f.bias : Int) - (f.mb : Int)

/-- A decoded value. -/
inductive FV where
  | nan (signaling : Bool)
  | inf (neg : Bool)
  | num (neg : Bool) (m : Nat) (e : Int)
  deriving DecidableEq, Repr

/-- The flags of FPCSR [6:2] as bits 0 to 4: invalid, divide by zero, overflow, underflow, inexact (R89). -/
abbrev FFlags := BitVec 5
def flInvalid : FFlags := 1#5
def flDivz : FFlags := 2#5
def flOver : FFlags := 4#5
def flUnder : FFlags := 8#5
def flInexact : FFlags := 16#5

def Fmt.signBit (f : Fmt) : Nat := 2 ^ (f.eb + f.mb)
/-- The canonical quiet NaN (R136). -/
def Fmt.qnan (f : Fmt) : Nat := f.expMax * 2 ^ f.mb + 2 ^ (f.mb - 1)
/-- A bit pattern with a NaN in its canonical form (R136). -/
def Fmt.canon (f : Fmt) (x : Nat) : Nat :=
  if x / 2 ^ f.mb % 2 ^ f.eb = f.expMax ∧ x % 2 ^ f.mb ≠ 0 then f.qnan else x
def Fmt.inf (f : Fmt) (neg : Bool) : Nat := f.expMax * 2 ^ f.mb + if neg then f.signBit else 0
def Fmt.maxFin (f : Fmt) (neg : Bool) : Nat := (f.expMax * 2 ^ f.mb - 1) + if neg then f.signBit else 0
def Fmt.zero (f : Fmt) (neg : Bool) : Nat := if neg then f.signBit else 0

/-- Decode a bit pattern of the format. -/
def Fmt.decode (f : Fmt) (x : Nat) : FV :=
  let neg := decide (x / f.signBit % 2 = 1)
  let ex := x / 2 ^ f.mb % 2 ^ f.eb
  let fr := x % 2 ^ f.mb
  if ex = f.expMax then
    if fr = 0 then .inf neg else .nan (decide (fr < 2 ^ (f.mb - 1)))
  else if ex = 0 then .num neg fr f.qmin
  else .num neg (fr + 2 ^ f.mb) (f.qmin + ex - 1)

/-- Round m * 2^(-s), with a sticky remainder, to an integer: the integer and whether it differs. Modes of R251. -/
def shiftRound (rm : Nat) (neg : Bool) (m : Nat) (s : Int) (st : Bool) : Nat × Bool :=
  if s ≤ 0 then
    let base := m * 2 ^ s.natAbs
    let up := st && ((decide (rm = 2) && neg) || (decide (rm = 3) && !neg))
    (if up then base + 1 else base, st)
  else
    let d := 2 ^ s.natAbs
    let base := m / d
    let rem := m % d
    let half := d / 2
    let inexact := st || decide (rem ≠ 0)
    let up := match rm with
      | 0 => decide (half < rem) || (decide (rem = half) && (st || decide (base % 2 = 1)))
      | 1 => false
      | 2 => neg && inexact
      | _ => !neg && inexact
    (if up then base + 1 else base, inexact)

def bitLen (m : Nat) : Nat := if m = 0 then 0 else m.log2 + 1

/-- Round a nonzero exact value to the format: the bit pattern and its flags. -/
def Fmt.round (f : Fmt) (rm : Nat) (neg : Bool) (m : Nat) (e : Int) (st : Bool) : Nat × FFlags :=
  let p := f.mb + 1
  let q1 := e + (bitLen m : Int) - (p : Int)       -- unbounded exponent
  let q := max q1 f.qmin
  let r1 := shiftRound rm neg m (q1 - e) st
  let tiny := decide (q1 < f.qmin) && !(decide (r1.1 = 2 ^ p) && decide (q1 + 1 = f.qmin))
  let r := shiftRound rm neg m (q - e) st
  let mant := if r.1 = 2 ^ p then 2 ^ f.mb else r.1
  let qq := if r.1 = 2 ^ p then q + 1 else q
  let sign := if neg then f.signBit else 0
  if mant < 2 ^ f.mb then
    (sign + mant, if r.2 then flInexact ||| (if tiny then flUnder else 0#5) else 0#5)
  else
    let ex := (qq - f.qmin + 1).toNat
    if f.expMax ≤ ex then
      let toInf := decide (rm = 0) || (decide (rm = 2) && neg) || (decide (rm = 3) && !neg)
      (if toInf then f.inf neg else f.maxFin neg, flOver ||| flInexact)
    else
      (sign + ex * 2 ^ f.mb + (mant - 2 ^ f.mb),
       if r.2 then flInexact ||| (if tiny then flUnder else 0#5) else 0#5)

/-- Round a value of any kind; an exact zero takes the sign given. -/
def Fmt.ofFV (f : Fmt) (rm : Nat) (v : FV) : Nat × FFlags :=
  match v with
  | .nan _ => (f.qnan, 0#5)
  | .inf neg => (f.inf neg, 0#5)
  | .num neg m e => if m = 0 then (f.zero neg, 0#5) else f.round rm neg m e false

def FV.isNan : FV → Bool
  | .nan _ => true
  | _ => false
def FV.isSnan : FV → Bool
  | .nan s => s
  | _ => false
def FV.neg : FV → FV
  | .nan s => .nan s
  | .inf n => .inf (!n)
  | .num n m e => .num (!n) m e

/-- m * 2^e as an integer multiple of 2^q, for q at most e. -/
def scaled (neg : Bool) (m : Nat) (e q : Int) : Int :=
  let x : Int := ((m * 2 ^ (e - q).natAbs : Nat) : Int)
  if neg then -x else x

/-- The exact sum of two finite values; an exact zero of unlike signs is -0 only when rounding toward minus infinity. -/
def addNum (rm : Nat) (n1 : Bool) (m1 : Nat) (e1 : Int) (n2 : Bool) (m2 : Nat) (e2 : Int) : FV :=
  let q := min e1 e2
  let x := scaled n1 m1 e1 q + scaled n2 m2 e2 q
  if x = 0 then
    .num (if m1 = 0 ∧ m2 = 0 ∧ n1 = n2 then n1 else decide (rm = 2)) 0 q
  else .num (decide (x < 0)) x.natAbs q

def snanFlag (l : List FV) : FFlags := if l.any FV.isSnan then flInvalid else 0#5

/-- The exact sum with IEEE specials: the value and its invalid flag. -/
def FV.add (rm : Nat) (a b : FV) : FV × FFlags :=
  match a, b with
  | .nan _, _ => (.nan false, snanFlag [a, b])
  | _, .nan _ => (.nan false, snanFlag [a, b])
  | .inf x, .inf y => if x = y then (.inf x, 0#5) else (.nan false, flInvalid)
  | .inf x, .num _ _ _ => (.inf x, 0#5)
  | .num _ _ _, .inf y => (.inf y, 0#5)
  | .num n1 m1 e1, .num n2 m2 e2 => (addNum rm n1 m1 e1 n2 m2 e2, 0#5)

/-- The exact product. -/
def FV.mul (a b : FV) : FV × FFlags :=
  match a, b with
  | .nan _, _ => (.nan false, snanFlag [a, b])
  | _, .nan _ => (.nan false, snanFlag [a, b])
  | .inf x, .inf y => (.inf (x != y), 0#5)
  | .inf x, .num y m _ => if m = 0 then (.nan false, flInvalid) else (.inf (x != y), 0#5)
  | .num x m _, .inf y => if m = 0 then (.nan false, flInvalid) else (.inf (x != y), 0#5)
  | .num n1 m1 e1, .num n2 m2 e2 => (.num (n1 != n2) (m1 * m2) (e1 + e2), 0#5)

def Fmt.fin (f : Fmt) (rm : Nat) (r : FV × FFlags) : Nat × FFlags :=
  let x := f.ofFV rm r.1
  (x.1, x.2 ||| r.2)

def Fmt.add (f : Fmt) (rm : Nat) (x y : Nat) : Nat × FFlags := f.fin rm (FV.add rm (f.decode x) (f.decode y))
def Fmt.sub (f : Fmt) (rm : Nat) (x y : Nat) : Nat × FFlags := f.fin rm (FV.add rm (f.decode x) (f.decode y).neg)
def Fmt.mul (f : Fmt) (rm : Nat) (x y : Nat) : Nat × FFlags := f.fin rm (FV.mul (f.decode x) (f.decode y))

/-- x * y + z with one rounding; 0 * Inf is invalid even when z is NaN (R306). -/
def Fmt.fma (f : Fmt) (rm : Nat) (x y z : Nat) : Nat × FFlags :=
  let p := FV.mul (f.decode x) (f.decode y)
  let s := FV.add rm p.1 (f.decode z)
  f.fin rm (s.1, s.2 ||| p.2)

/-- A quotient with enough bits to round once. -/
def divNum (p : Nat) (n1 : Bool) (m1 : Nat) (e1 : Int) (n2 : Bool) (m2 : Nat) (e2 : Int) : Bool × Nat × Int × Bool :=
  let k := (p + 3 + bitLen m2) - bitLen m1
  let num := m1 * 2 ^ k
  (n1 != n2, num / m2, e1 - e2 - k, decide (num % m2 ≠ 0))

def Fmt.div (f : Fmt) (rm : Nat) (x y : Nat) : Nat × FFlags :=
  let a := f.decode x
  let b := f.decode y
  match a, b with
  | .nan _, _ => (f.qnan, snanFlag [a, b])
  | _, .nan _ => (f.qnan, snanFlag [a, b])
  | .inf _, .inf _ => (f.qnan, flInvalid)
  | .inf n, .num n2 _ _ => (f.inf (n != n2), 0#5)
  | .num n _ _, .inf n2 => (f.zero (n != n2), 0#5)
  | .num n1 m1 e1, .num n2 m2 e2 =>
    if m2 = 0 then
      if m1 = 0 then (f.qnan, flInvalid) else (f.inf (n1 != n2), flDivz)
    else if m1 = 0 then (f.zero (n1 != n2), 0#5)
    else
      let (n, q, e, st) := divNum (f.mb + 1) n1 m1 e1 n2 m2 e2
      f.round rm n q e st

/-- The integer square root, by bits from 2^k down. -/
def isqrtFrom (n : Nat) : Nat → Nat → Nat
  | 0, r => if (r + 1) * (r + 1) ≤ n then r + 1 else r
  | k + 1, r =>
    let t := r + 2 ^ (k + 1)
    isqrtFrom n k (if t * t ≤ n then t else r)

def isqrt (n : Nat) : Nat := isqrtFrom n (bitLen n / 2 + 1) 0

def Fmt.sqrt (f : Fmt) (rm : Nat) (x : Nat) : Nat × FFlags :=
  match f.decode x with
  | .nan s => (f.qnan, if s then flInvalid else 0#5)
  | .inf n => if n then (f.qnan, flInvalid) else (f.inf false, 0#5)
  | .num n m e =>
    if m = 0 then (f.zero n, 0#5)
    else if n then (f.qnan, flInvalid)
    else
      let k := 2 * (f.mb + 3) - bitLen m
      let k := if (e - k) % 2 = 0 then k else k + 1
      let v := m * 2 ^ k
      let r := isqrt v
      f.round rm false r ((e - k) / 2) (decide (r * r ≠ v))

/-- Less, equal or greater for two ordered values; none when one is NaN. +0 equals -0. -/
def FV.cmp (a b : FV) : Option Ordering :=
  let key : FV → Option (Int × Nat × Int) := fun v => match v with
    | .nan _ => none
    | .inf n => some (if n then -2 else 2, 0, 0)
    | .num n m e => some (if m = 0 then 0 else if n then -1 else 1, m, e)
  match key a, key b with
  | some (s1, m1, e1), some (s2, m2, e2) =>
    if s1 < s2 then some .lt
    else if s2 < s1 then some .gt
    else if s1 = 1 ∨ s1 = -1 then
      let q := min e1 e2
      let x := scaled (decide (s1 < 0)) m1 e1 q
      let y := scaled (decide (s2 < 0)) m2 e2 q
      some (if x < y then .lt else if y < x then .gt else .eq)
    else some .eq
  | _, _ => none

def FV.lt (a b : FV) : Bool := decide (FV.cmp a b = some .lt)
def FV.eq (a b : FV) : Bool := decide (FV.cmp a b = some .eq)

def FV.signOf : FV → Bool
  | .nan _ => false
  | .inf n => n
  | .num n _ _ => n

/-- FMIN and FMAX: -0 below +0; one NaN gives the other operand (R305). -/
def Fmt.minmax (f : Fmt) (isMax : Bool) (x y : Nat) : Nat × FFlags :=
  let a := f.decode x
  let b := f.decode y
  let fl := snanFlag [a, b]
  if a.isNan && b.isNan then (f.qnan, fl)
  else if a.isNan then (y, fl)
  else if b.isNan then (x, fl)
  else
    let aless := FV.lt a b || (FV.eq a b && a.signOf && !b.signOf)
    (if aless = isMax then y else x, fl)

/-- A rounded integer and whether it differs from the exact value. -/
def FV.toInt (rm : Nat) (v : FV) : Option (Int × Bool) :=
  match v with
  | .num n m e =>
    let r := shiftRound rm n m (-e) false
    some (if n then -(r.1 : Int) else r.1, r.2)
  | _ => none

/-- f2i and f2u: into [lo, hi], NaN gives 0 (R305, R306). -/
def Fmt.toIntClamp (f : Fmt) (rm : Nat) (lo hi : Int) (x : Nat) : Int × FFlags :=
  match f.decode x with
  | .nan _ => (0, flInvalid)
  | .inf n => (if n then lo else hi, flInvalid)
  | v => match v.toInt rm with
    | none => (0, flInvalid)
    | some (i, inexact) =>
      if i < lo then (lo, flInvalid) else if hi < i then (hi, flInvalid)
      else (i, if inexact then flInexact else 0#5)

def Fmt.ofInt (f : Fmt) (rm : Nat) (i : Int) : Nat × FFlags := f.ofFV rm (.num (decide (i < 0)) i.natAbs 0)

/-- Convert between formats; a signaling NaN is invalid. -/
def Fmt.convert (src dst : Fmt) (rm : Nat) (x : Nat) : Nat × FFlags :=
  let v := src.decode x
  let r := dst.ofFV rm v
  (r.1, r.2 ||| snanFlag [v])

/-! ## Error-free sums (R118, R144) -/

/-- TwoSum: the rounded sum and the exact error, +0.0 when the sum is not finite or the error is zero (R144, R274). -/
def Fmt.twoSum (f : Fmt) (x y : Nat) : Nat × Nat :=
  let t := (f.add 0 x y).1
  match f.decode t with
  | .num _ _ _ =>
    let s := FV.add 0 (f.decode x) (f.decode y)
    let d := FV.add 0 s.1 (f.decode t).neg
    match d.1 with
    | .num n m e => if m = 0 then (t, 0) else (t, (f.round 0 n m e false).1)
    | _ => (t, 0)
  | _ => (t, 0)

/-- The exact value s + c rounded once to a format (R145). -/
def roundPair (dst : Fmt) (s c : Nat) : Nat := (dst.fin 0 (FV.add 0 (fFP32.decode s) (fFP32.decode c))).1

/-! ## Correctly rounded exponential and logarithm (R35, R45; log 19)

Fixed-point numbers with P fraction bits, with a bound on their error; the precision grows until both ends of the
interval round alike. -/

/-- Powers-over-factorials sum of exp(-r) for r = x / 2^P, 0 <= r < 1: terms from i on. -/
def expTerms (P x : Nat) : Nat → Nat → Nat → Bool → Int → Int
  | 0, _, _, _, acc => acc
  | fuel + 1, i, term, neg, acc =>
    let acc := acc + (if neg then -(term : Int) else term)
    expTerms P x fuel (i + 1) (term * x / 2 ^ P / (i + 1)) (!neg) acc

/-- exp(-r) scaled by 2^P, within P ulps. -/
def expNegFrac (P x : Nat) : Nat := (expTerms P x (P / 2 + 4) 0 (2 ^ P) false 0).toNat

/-- 2 * atanh(1/3) = ln 2, scaled by 2^P, within P ulps. -/
def atanhTerms (P num den : Nat) : Nat → Nat → Nat → Nat → Nat
  | 0, _, _, acc => acc
  | fuel + 1, i, pw, acc => atanhTerms P num den fuel (i + 2) (pw * num * num / (den * den)) (acc + pw / i)

def ln2Fixed (P : Nat) : Nat := 2 * atanhTerms P 1 3 (P / 2 + 4) 1 (2 ^ P / 3) 0

/-- exp(-X) for X = m * 2^e > 0: scaled y and k with exp(-X) about y * 2^(-P-k). -/
def expNeg (P m : Nat) (e : Int) : Nat × Nat :=
  let X := if 0 ≤ e + P then m * 2 ^ (e + P).natAbs else m / 2 ^ (e + P).natAbs
  let L := ln2Fixed P
  let k := X / L
  (expNegFrac P (X - k * L), k)

/-- ExpRN of a value not above 0, in FP64. -/
def expRNFrom (m : Nat) (e : Int) : Nat → Nat → Nat
  | 0, _ => 0
  | fuel + 1, P =>
    let (y, k) := expNeg P m e
    let err := 16 * P + 16 + 2 * k
    let lo := fFP64.round 0 false (y - err) (-(P : Int) - k) true
    let hi := fFP64.round 0 false (y + err) (-(P : Int) - k) true
    if lo.1 = hi.1 ∨ fuel = 0 then lo.1 else expRNFrom m e fuel (2 * P)

def expRN (x : Nat) : Nat :=
  match fFP64.decode x with
  | .nan _ => fFP64.qnan
  | .inf n => if n then 0 else fFP64.inf false
  | .num n m e =>
    if m = 0 then 0x3FF0000000000000
    else if n then (if 800 ≤ (if 0 ≤ e then m * 2 ^ e.natAbs else m / 2 ^ e.natAbs) then 0 else expRNFrom m e 8 160)
    else fFP64.inf false

/-- ln(S / 2^P) scaled by 2^P for S >= 2^P: k ln 2 plus the atanh series of the rest in [1, 2). -/
def lnFixed (P S : Nat) : Nat :=
  let k := bitLen S - (P + 1)
  let z := S / 2 ^ k
  let num := z - 2 ^ P
  let den := z + 2 ^ P
  k * ln2Fixed P + 2 * atanhTerms P num den (P + 4) 1 (2 ^ P * num / den) 0

/-- Sum of exp(d - m) over finite logits, scaled by 2^P. -/
def sumExp (P : Nat) (m : FV) : List FV → Nat
  | [] => 0
  | d :: r =>
    (match (FV.add 0 m d.neg).1 with     -- m - d, not negative
     | .num _ mm ee =>
       if mm = 0 then 2 ^ P
       else let (y, k) := expNeg P mm ee
            y / 2 ^ k
     | _ => 0) + sumExp P m r

/-- Round x / 2^P to FP32; a result that rounds to zero is -0.0, since the exact value is negative. -/
def roundFixed32 (P : Nat) (x : Int) : Nat :=
  if x = 0 then fFP32.zero true else (fFP32.round 0 (decide (x < 0)) x.natAbs (-(P : Int)) true).1

/-- ln(w_x / sum) = (l_x - m) - ln S, rounded once to FP32; `gap` is m - l_x as (mantissa, exponent). -/
def lpFrom (ls : List FV) (m : FV) (gm : Nat) (ge : Int) : Nat → Nat → Nat
  | 0, _ => 0
  | fuel + 1, P =>
    let S := sumExp P m ls
    let err := (ls.length + 4) * (32 * P + 64)
    let g : Int := (if 0 ≤ ge + P then gm * 2 ^ (ge + P).natAbs else gm / 2 ^ (ge + P).natAbs : Nat)
    let lo : Int := -g - lnFixed P (S + err) - (64 * P + 64 : Nat)
    let hi : Int := min 0 (-g - lnFixed P (max (S - err) (2 ^ P)) + (64 * P + 64 : Nat))
    let a := roundFixed32 P lo
    let b := roundFixed32 P hi
    if a = b ∨ fuel = 0 then a else lpFrom ls m gm ge fuel (2 * P)

/-- The largest of a list of values; NaN is below every number. -/
def maxFV : List FV → FV
  | [] => .inf true
  | v :: r =>
    let m := maxFV r
    if v.isNan then m else if FV.lt m v then v else m

/-- The log-probability of R35 of token x, from FP32 logits. -/
def logProb (logits : List Nat) (x : Nat) : Nat :=
  let ls := logits.map fFP32.decode
  let m := maxFV ls
  let negInf := fFP32.inf true
  match (ls[x]?).getD (.nan false) with
  | .nan _ => negInf
  | .inf true => negInf
  | lx =>
    match m with
    | .inf false =>
      match lx with
      | .inf false =>
        let k := (ls.filter (fun v => decide (v = .inf false))).length
        if k ≤ 1 then 0
        else lpFrom (List.replicate k (.num false 0 0)) (.num false 0 0) 0 0 8 160
      | _ => negInf
    | _ =>
      let fin := ls.filter (fun v => match v with | .num _ _ _ => true | _ => false)
      if fin.length ≤ 1 then 0
      else match (FV.add 0 m lx.neg).1 with
        | .num _ gm ge => lpFrom fin m gm ge 8 160
        | _ => negInf

end Sys2Proof.Machine
end

