-- ==== Sys2Proof/Machine/Mx.lean ====
section
/-!
DEFINITION. The MX element formats, scales and blocks (R137 to R139), and the press's arithmetic on one block (R144).
-/

namespace Sys2Proof.Machine

open Sys2Proof

/-- Element width in bits by format code (R137). -/
def mxWidth (c : Nat) : Nat := match c with
  | 4 => 4 | 2 => 6 | 3 => 6 | 6 => 16 | 7 => 16 | _ => 8

/-- Fraction bits, exponent of the least subnormal, largest finite code and emax of float codes 0 to 4 (R137). -/
def mxMb (c : Nat) : Nat := match c with | 0 => 3 | 1 => 2 | 2 => 2 | 3 => 3 | _ => 1
def mxQmin (c : Nat) : Int := match c with | 0 => -9 | 1 => -16 | 2 => -4 | 3 => -3 | _ => -1
def mxLargest (c : Nat) : Nat := match c with | 0 => 0x7E | 1 => 0x7B | 2 => 0x1F | 3 => 0x1F | 4 => 0x7 | _ => 127
def mxEmax (c : Nat) : Int := match c with | 0 => 8 | 1 => 15 | 2 => 4 | 3 => 2 | 4 => 2 | _ => 0

/-- Decode an element (R137). -/
def mxDecode (c x : Nat) : FV :=
  match c with
  | 5 => if x < 128 then .num false x (-6) else .num true (256 - x) (-6)
  | 6 => fBF16.decode x
  | 7 => fFP16.decode x
  | 1 => (⟨5, 2⟩ : Fmt).decode x
  | c =>
    let w := mxWidth c
    let neg := decide (x / 2 ^ (w - 1) % 2 = 1)
    let m := x % 2 ^ (w - 1)
    if c = 0 ∧ m = 0x7F then .nan false
    else
      let ex := m / 2 ^ mxMb c
      let fr := m % 2 ^ mxMb c
      if ex = 0 then .num neg fr (mxQmin c) else .num neg (fr + 2 ^ mxMb c) (mxQmin c + ex - 1)

/-- Round m * 2^e to a float code with an unbounded exponent, then clamp: the magnitude code, whether it overflowed, whether it differs. -/
def mxRound (c : Nat) (m : Nat) (e : Int) : Nat × Bool × Bool :=
  if m = 0 then (0, false, false)
  else
    let mb := mxMb c
    let q := max (e + (bitLen m : Int) - (mb + 1 : Nat)) (mxQmin c)
    let r := shiftRound 0 false m (q - e) false
    let mant := if r.1 = 2 ^ (mb + 1) then 2 ^ mb else r.1
    let qq := if r.1 = 2 ^ (mb + 1) then q + 1 else q
    let code := if mant < 2 ^ mb then mant else (qq - mxQmin c + 1).toNat * 2 ^ mb + (mant - 2 ^ mb)
    if mxLargest c < code then (mxLargest c, true, true) else (code, false, r.2)

/-- The largest magnitude among finite values, as its Floor(Log2); none when all are zero (R139). -/
def amaxLog2 : List FV → Option Int
  | [] => none
  | v :: r =>
    let t := amaxLog2 r
    match v with
    | .num _ m e =>
      if m = 0 then t
      else
        let l : Int := e + (bitLen m : Int) - 1
        match t with
        | none => some l
        | some x => some (max x l)
    | _ => t

def clampInt (x lo hi : Int) : Int := max lo (min hi x)

/-- One element of ToMX: its code and flags (R139). -/
def toMxElem (c : Nat) (nanmode : Bool) (E : Int) (v : FV) : Nat × FFlags :=
  let sgn := 2 ^ (mxWidth c - 1)
  match v with
  | .nan _ => (0x7F, 0#5)
  | .inf n =>
    if nanmode then (0x7C + (if n then sgn else 0), 0#5)
    else if c = 5 then (if n then 256 - 127 else 127, flOver ||| flInexact)
    else (mxLargest c + (if n then sgn else 0), flOver ||| flInexact)
  | .num n m e =>
    if c = 5 then
      let r := shiftRound 0 n m (-(e - E + 6)) false
      let k := min r.1 127
      (if n ∧ k ≠ 0 then 256 - k else k,
       if 127 < r.1 then flOver ||| flInexact else if r.2 then flInexact else 0#5)
    else
      let (code, ovf, inexact) := mxRound c m (e - E)
      (code + (if n then sgn else 0), if ovf then flOver ||| flInexact else if inexact then flInexact else 0#5)

/-- ToMX (R139): the scale byte, the element codes and the flags of VCVT. -/
def toMX (c : Nat) (nanmode : Bool) (xs : List FV) : Nat × List Nat × FFlags :=
  if !nanmode && xs.any FV.isNan then (0xFF, xs.map (fun _ => 0), 0#5)
  else
    let E := match amaxLog2 xs with
      | none => -127
      | some l => clampInt (l - mxEmax c) (-127) 127
    let es := xs.map (toMxElem c nanmode E)
    ((E + 127).toNat, es.map Prod.fst, es.foldl (fun a x => a ||| x.2) 0#5)

/-- Elements packed from bit 0, `w` bits each. -/
def packBits (w : Nat) : List Nat → Nat
  | [] => 0
  | x :: r => x % 2 ^ w + 2 ^ w * packBits w r

/-- `n` elements of `w` bits. -/
def unpackBits (w : Nat) : Nat → Nat → List Nat
  | 0, _ => []
  | n + 1, x => x % 2 ^ w :: unpackBits w n (x / 2 ^ w)

/-- The exponent of an E8M0 scale; none is NaN (R138). -/
def scaleExp (b : Nat) : Option Int := if b = 0xFF then none else some ((b : Int) - 127)

/-- X * P of one element (R138). -/
def mxValue (c : Nat) (scale : Nat) (x : Nat) : FV :=
  match scaleExp scale with
  | none => .nan false
  | some k =>
    match mxDecode c x with
    | .num n m e => .num n m (e + k)
    | v => v

/-! ## The press (R144) -/

/-- The exact sum of products, with the specials and the signed zero of R144. -/
def dotAcc : List (FV × FV) → FV
  | [] => .num true 0 0
  | (a, b) :: r =>
    let p := (FV.mul a b).1
    match p, dotAcc r with
    | .num n1 m1 e1, .num n2 m2 e2 => addNum 0 n1 m1 e1 n2 m2 e2
    | x, y => (FV.add 0 x y).1

/-- blk of one block: P * Xa * Xb rounded once to FP32 (R144). -/
def pressBlock (ps : List (FV × FV)) (xa xb : Option Int) : Nat :=
  match xa, xb with
  | some ka, some kb =>
    match dotAcc ps with
    | .nan _ => fFP32.qnan
    | .inf n => fFP32.inf n
    | .num n m e => if m = 0 then fFP32.zero n else (fFP32.round 0 n m (e + ka + kb) false).1
  | _, _ => fFP32.qnan

/-- One accumulation step: (s, e) <- TwoSum32(s, blk); c <- RoundNE32(c + e) (R144). -/
def pressAcc (sc : Word32 × Word32) (blk : Nat) : Word32 × Word32 :=
  let (t, e) := fFP32.twoSum sc.1.toNat blk
  (BitVec.ofNat 32 t, BitVec.ofNat 32 (fFP32.add 0 sc.2.toNat e).1)

/-- Slot bytes by format (R140): data bytes and slot size. -/
def slotData (c : Nat) : Nat := match c with | 4 => 512 | 2 => 768 | 3 => 768 | 6 => 2048 | 7 => 2048 | _ => 1024
def slotSize (c : Nat) : Nat := if c = 6 ∨ c = 7 then 2048 else slotData c + 64

/-- Lane `l` of a slot: its 32 elements (R140). -/
def laneElems (c : Nat) (slot : List Byte) (l : Nat) : List FV :=
  let w := mxWidth c
  (unpackBits w 32 (fieldB slot (4 * w * l) (4 * w))).map (mxDecode c)

/-- The scale of lane `l`; 1.0 for bf16 and fp16 (R140, R144). -/
def laneScale (c : Nat) (slot : List Byte) (l : Nat) : Option Int :=
  if c = 6 ∨ c = 7 then some 0 else scaleExp (fieldB slot (slotData c + l) 1)

/-! ## MST rows (R145) -/

/-- Row bytes by mode. -/
def mstRowBytes (mode : Nat) : Nat := match mode with | 0 => 128 | 1 => 256 | _ => 64

/-- A row's bytes from its 32 pairs. -/
def mstRow (mode : Nat) (row : List (Word32 × Word32)) : List Byte :=
  match mode with
  | 0 => row.flatMap (fun p => leBytes 4 (roundPair fFP32 p.1.toNat p.2.toNat))
  | 1 => row.flatMap (fun p => leBytes 4 p.1.toNat ++ leBytes 4 p.2.toNat)
  | 2 => row.flatMap (fun p => leBytes 2 (roundPair fBF16 p.1.toNat p.2.toNat))
  | m =>
    let (sc, es, _) := toMX (if m = 3 then 0 else 1) false (row.map (fun p => fFP32.decode (roundPair fFP32 p.1.toNat p.2.toNat)))
    es.map (BitVec.ofNat 8) ++ [BitVec.ofNat 8 sc] ++ List.replicate 31 0

end Sys2Proof.Machine
end

