-- ==== Sys2Proof/Machine/Perform.lean ====
section
/-!
DEFINITION. How an outstanding operation is performed: its place among the older accesses of its core (R90, R155 to
R159), the value a load returns, the taking of a store, the atomic of R262, and the marks an owner keeps (R193).
-/

namespace Sys2Proof.Machine

open Sys2Proof

/-! ## Finding and ordering -/

def State.op (s : State) (id : Nat) : Option Op := s.ops.find? (fun o => decide (o.id = id))
def State.dropOp (s : State) (id : Nat) : State := { s with ops := s.ops.filter (fun o => decide (o.id ≠ id)) }
def State.setOp (s : State) (o : Op) : State := { s with ops := s.ops.map (fun x => if x.id = o.id then o else x) }
/-- The operations issued before one. -/
def State.older (s : State) (id : Nat) : List Op := s.ops.takeWhile (fun o => decide (o.id ≠ id))

def OpKind.isStore : OpKind → Bool
  | .st | .vst | .vscat => true
  | _ => false
def OpKind.writes : OpKind → Bool
  | .st | .vst | .vscat | .amo | .spill => true
  | _ => false
/-- The accesses that keep program order to one location (R90, R96), the reads of a block read among them (R279); those of a block write are
excepted (R108, R283). -/
def OpKind.ordered : OpKind → Bool
  | .ld | .vld | .vgath | .st | .vst | .vscat | .amo | .spill | .fill | .brd => true
  | _ => false
def OpKind.loads : OpKind → Bool
  | .ld | .vld | .vgath => true
  | _ => false
/-- Operations of a basting record: classes I and M, parked stores, released arrivals (R190 to R192). -/
def Op.basted (o : Op) : Bool :=
  !o.orphan && match o.kind with
  | .ld | .vld | .vgath | .pref | .brd | .bwr | .copy | .amo | .gain | .gget | .bara | .markq => true
  | .st | .vst | .vscat => o.parked
  | _ => false
/-- Operations a release waits for: stores to be taken, loads to be performed, gain updates applied (R159, R160, R96). -/
def Op.released (o : Op) : Bool :=
  !o.orphan && match o.kind with
  | .ld | .vld | .vgath | .st | .vst | .vscat | .amo | .gain | .gget | .spill | .fill | .ktlb | .freeze | .thaw => true
  | _ => false

def touches (a b : List Seg) : Bool := a.any (fun x => b.any (fun y => x.overlaps y))

/-- An older operation and pieces of its core share bytes: on the bus, or, where the older one waits for its page and has no frame yet, by
address; it does not hold back an access to another page (R81). A load stands for all of its bytes until it is whole: a replay reads them all
again (R168). -/
def Op.meets (w : Op) (t : TsId) (segs : List Seg) : Bool :=
  let mine := if w.kind.loads then w.segs ++ w.got else w.segs
  if w.parked || w.held then decide (w.t.core = t.core) && mine.any (fun x => segs.any (fun y => x.overlapsVa y))
  else touches mine segs

/-- An operation is outstanding, or stands in a frozen record, where it waits for its replay (R168, R187). -/
def State.pending (s : State) (id : Nat) : Bool :=
  (s.op id).isSome || s.bundles.any (fun b => b.2.frozen.any (fun f => f.ops.any (fun o => decide (o.id = id))))

/-- An operation's predecessors have been performed: what its release order names, every older overlapping access of its
thread set, and, for a write, every older overlapping write of its core (R90, R155). A load may instead forward (below). One that its owner has
applied stands before nothing, and one whose launch has ended only before such others: between launches no program order runs (log 44). -/
def State.clear (s : State) (o : Op) (segs : List Seg) (forward : Bool) : Bool :=
  o.deps.all (fun d => !(s.pending d)) &&
  (s.older o.id).all (fun w =>
    !(w.kind.ordered && !w.sent && (o.orphan || !w.orphan) && decide (w.t.core = o.t.core) && w.meets o.t segs &&
      ((decide (w.t = o.t) && !(forward && w.kind.isStore && !w.parked)) || (w.kind.writes && o.kind.writes))))

/-! ## Load-queue entries -/

def fillQE {α : Type} (id which : Nat) (v : LdE α) : List (LdE α) → List (LdE α)
  | [] => []
  | .wait i w :: r => if i = id ∧ w = which then v :: r else .wait i w :: fillQE id which v r
  | x :: r => x :: fillQE id which v r

/-- Give a scalar load-queue entry its value. -/
def State.fillS (s : State) (t : TsId) (id which : Nat) (v : LdE Word) : State :=
  let x := s.tsGet t
  s.tsSet t { x with slq := fillQE id which v x.slq }

/-- A kernel instruction has finished: its status enters the load queue (R183, R325). -/
def State.endWith (s : State) (id : Nat) (status : Word) : State :=
  match s.op id with
  | some o => (if o.q = 1 then s.fillS o.t id 0 (.ready status) else s).dropOp id
  | none => s

/-- Give a vector load-queue entry its value. -/
def State.fillV (s : State) (t : TsId) (id : Nat) (v : LdE Vec) : State :=
  let x := s.tsGet t
  s.tsSet t { x with vlq := fillQE id 0 v x.vlq }

/-- A failure for the entry that an operation would have filled. -/
def State.fillBad (s : State) (o : Op) (c : Cause) (a : Word) : State :=
  if o.q = 1 then s.fillS o.t o.id 0 (.bad c a) else if o.q = 2 then s.fillV o.t o.id (.bad c a) else s

/-- Replace bytes of a list from an offset. -/
def patch (d : List Byte) (off : Nat) (x : List Byte) : List Byte := d.take off ++ x ++ d.drop (off + x.length)

/-- A loaded value, extended as the load says (R326). -/
def extend (signed : Bool) (n : Nat) (x : Nat) : Word :=
  if signed ∧ n < 8 ∧ 2 ^ (8 * n - 1) ≤ x then BitVec.ofNat 64 (x + 2 ^ 64 - 2 ^ (8 * n)) else BitVec.ofNat 64 x

/-- The firewall of a seam bundle drops an access to its scratchpads outside the address ranges of its set (R18, R212). -/
def State.barred (s : State) (bus : Nat) : Bool :=
  if scratchBase ≤ bus ∧ bus < kernelBase then
    let b := (bus - scratchBase) / 2 ^ 21
    s.seam.contains b && !(match Assoc.get s.firewall b with
      | some w => w.ranges.any (fun r => decide (r.1 ≤ bus) && decide (bus < r.1 + r.2))
      | none => false)
  else false

/-- The first damaged byte of a piece: an uncorrectable error of memory (ECC) or of scratchpad (SOFT) (R176). A piece that a firewall drops is not
read (R18, R212). -/
def State.damage (s : State) (g : Seg) : Option (Cause × Nat) :=
  if s.barred g.bus then none
  else if scratchBase ≤ g.bus then
    (s.softMem.find? (fun a => decide (g.bus ≤ a) && decide (a < g.bus + g.len))).map (fun a => (.soft, a - g.bus))
  else if s.eccMem.any (fun a => decide (g.bus ≤ a) && decide (a < g.bus + g.len)) then some (.ecc, 0)
  else none

/-! ## Loads (R91, R157) -/

/-- The bytes of a store's piece that cover a load's piece. -/
def Op.forwardBytes (w : Op) (g : Seg) : Option (List Byte) :=
  match w.segs.reverse.find? (fun x => x.overlaps g) with
  | none => none
  | some x => if x.covers g then some (sliceB w.data (x.off + (g.bus - x.bus)) g.len) else none

/-- Where a load's piece takes its value: `none` waits. The value is that of the youngest untaken store that its thread set has made or
has seen (R155), of a younger one of another thread set of the core that no release still holds back and that no write of the loader after the
load stands before, in any byte of the store, when the device chooses to return it (R155, R157, R159), or memory. -/
inductive LoadFrom where
  | store (w : Op)
  | memory
  | wait

def lastOverlap (l : List Op) (g : Seg) (p : Op → Bool) : Option Op :=
  l.reverse.find? (fun w => w.kind.isStore && !w.parked && p w && w.segs.any (fun x => x.overlaps g))

def State.loadFrom (s : State) (o : Op) (g : Seg) : LoadFrom :=
  let known := fun (w : Op) => if w.t = o.t then (s.older o.id).any (fun x => decide (x.id = w.id)) else (s.tsGet o.t).seen.contains w.id
  let floor := lastOverlap s.ops g known
  let sib := if scratchBase ≤ g.bus then none
    else lastOverlap s.ops g (fun w => decide (w.t ≠ o.t) && decide (w.t.core = o.t.core) && w.deps.all (fun d => !(s.pending d)))
  let from_ := match floor with
    | some a => LoadFrom.store a
    | none => .memory
  let passed := fun (b : Op) => (s.older b.id).any (fun x => decide (x.t = o.t) && x.kind.writes && x.meets b.t b.segs &&
    !(s.older o.id).any (fun y => decide (y.id = x.id)))
  match sib with
  | some b => if !(passed b) && (match floor with | some a => decide (a.id < b.id) | none => true) && Config.freeBool s.fresh b.id then .store b else from_
  | none => from_

/-- All pieces of a load are in: its value enters the queue, and the load is no longer outstanding. -/
def State.loadDone (s : State) (o : Op) : State :=
  let s := s.dropOp o.id
  match o.kind with
  | .ld => if o.q = 1 then s.fillS o.t o.id 0 (.ready (extend o.signed o.width (leNat o.data))) else s
  | _ => if o.q = 2 then s.fillV o.t o.id (.ready (vec512 o.data)) else s

/-- Store a piece's bytes, or drop and count them at a firewall; a byte that its owner alone writes stays (R7, R70, R109). -/
def State.put (s : State) (g : Seg) (d : List Byte) : State :=
  if s.barred g.bus then { s with fwDrops := s.fwDrops + 1 } else s.wrRw g.bus d

/-- The bytes of a piece; of one that a firewall drops, which no rule gives, free values (log 43). -/
def State.take_ (s : State) (g : Seg) : List Byte :=
  if s.barred g.bus then (List.range g.len).map (fun i => Config.freeByte s.fresh (g.bus + i)) else s.rd g.bus g.len

/-- A piece becomes undefined, or stays as it is behind a firewall (R212, R279, R288). -/
def State.smearSeg (s : State) (g : Seg) : State := if s.barred g.bus then s else s.smear g.bus g.len

/-- A read that a firewall dropped is counted. -/
def State.noteBar (s : State) (g : Seg) : State := if s.barred g.bus then { s with fwDrops := s.fwDrops + 1 } else s

/-- A load has read its next piece. -/
def State.loadRead (s : State) (o : Op) (g : Seg) (rest : List Seg) (d : List Byte) : State :=
  let o := { o with segs := rest, got := g :: o.got, data := patch o.data g.off d }
  if rest.isEmpty then s.loadDone o else s.setOp o

/-- The error that the next piece of a load meets, where it can be read from memory now: its cause and address (R176). -/
def State.loadError (s : State) (o : Op) : Option (Cause × Word) :=
  match o.segs with
  | [] => none
  | g :: _ => if !(s.clear o [g] true) then none else match s.loadFrom o g with
    | .memory => (s.damage g).map (fun e => (e.1, if e.1 = .ecc then o.addr else g.va + BitVec.ofNat 64 e.2))
    | _ => none

/-- Perform the next piece of a load. -/
def State.loadPiece (s : State) (o : Op) : State :=
  match o.segs with
  | [] => s.loadDone o
  | g :: r =>
    if !(s.clear o [g] true) then s
    else match s.loadFrom o g with
      | .wait => s
      | .store w =>
        match w.forwardBytes g with
        | none => s
        | some d =>
          let s := if w.t = o.t then s else
            let x := s.tsGet o.t
            s.tsSet o.t { x with seen := w.id :: x.seen }
          s.loadRead o g r d
      | .memory =>
        match s.damage g with
        | some (c, k) =>
          let a := if c = .ecc then o.addr else g.va + BitVec.ofNat 64 k
          (s.fillBad o c a).dropOp o.id
        | none =>
          (s.noteBar g).loadRead o g r (s.take_ g)

/-! ## Stores (R154) -/

/-- Take the next piece of a store. -/
def State.storePiece (s : State) (o : Op) : State :=
  match o.segs with
  | [] => s.dropOp o.id
  | g :: r =>
    if !(s.clear o [g] false) then s
    else
      let s := s.put g (sliceB o.data g.off g.len)
      if r.isEmpty then s.dropOp o.id else s.setOp { o with segs := r }

/-- Take the pieces of a store in order, as far as they can be taken now. -/
def State.storeSegs (s : State) (o : Op) : List Seg → State
  | [] => s
  | g :: r => if s.clear o [g] false then State.storeSegs (s.storePiece { o with segs := g :: r }) o r else s

/-- Write every piece of a store at once. -/
def State.storeNow (s : State) (o : Op) : State :=
  (o.segs.foldl (fun s g => s.put g (sliceB o.data g.off g.len)) s).dropOp o.id

/-! ## Marks (R193) -/

/-- The owner of a memory location: its channel, or its scratchpad. -/
def memOwner (bus : Nat) : Nat :=
  if kernelBase ≤ bus then 65536 + (bus - kernelBase) / 2 ^ 20
  else if scratchBase ≤ bus then 4096 + (bus - scratchBase) / 2 ^ 18
  else bus / Config.channelBytes
def pileOwner (b : Nat) : Nat := 2 ^ 20 + b
def groupOwner (lid : Half) (g : Nat) : Nat := 2 ^ 24 + lid.toNat * 256 + g

/-- A laundry mark (R193). -/
def markOf (ctx : Half) (t : TsId) (seq : Word32) : Word :=
  at64 ctx.toNat 48 ||| at64 t.core.idx 34 ||| at64 t.ts 32 ||| seq.setWidth 64

/-- The window of an owner for the source of a mark: (SEQ, M bit, result), newest first. -/
def State.window? (s : State) (owner : Nat) (mark : Word) : List (Word32 × Bool × Word) :=
  match s.windows.find? (fun w => decide (w.owner = owner) && decide (w.ctx.toNat = bits mark 63 48) &&
      decide (w.core = bits mark 47 34) && decide (w.ts = bits mark 33 32)) with
  | none => []
  | some w => w.marks

/-- The first block of the mark-window pool that no source of the context at a Pile engine uses (R189). -/
def State.freeBlock (s : State) (ctx : Nat) : Nat :=
  let used := (s.windows.filter (fun w => decide (w.ctx.toNat = ctx) && decide (2 ^ 20 ≤ w.owner) && decide (w.owner < 2 ^ 24))).map MarkWindow.block
  ((List.range (used.length + 1)).find? (fun n => !used.contains n)).getD 0

/-- Keep a result: at most 256 a source and owner. A new source at a Pile engine takes a block of the pool (R189). -/
def State.remember (s : State) (owner : Nat) (mark : Word) (m : Bool) (res : Word) : State :=
  let same := fun (w : MarkWindow) => decide (w.owner = owner) && decide (w.ctx.toNat = bits mark 63 48) &&
      decide (w.core = bits mark 47 34) && decide (w.ts = bits mark 33 32)
  let seq : Word32 := mark.setWidth 32
  if s.windows.any same then
    { s with windows := s.windows.map (fun w => if same w then { w with marks := ((seq, m, res) :: w.marks).take 256 } else w) }
  else
    { s with windows := { owner := owner, ctx := BitVec.ofNat 16 (bits mark 63 48), core := bits mark 47 34,
                          ts := bits mark 33 32, block := s.freeBlock (bits mark 63 48), marks := [(seq, m, res)] } :: s.windows }

/-- The remembered result of a mark. -/
def State.remembered (s : State) (owner : Nat) (mark : Word) : Option Word :=
  ((s.window? owner mark).find? (fun m => decide (m.1 = mark.setWidth 32))).map (fun m => m.2.2)

/-- `a` is older than `b`, modulo 2^32 (R193). -/
def seqOlder (a b : Word32) : Bool := decide ((a - b).toNat ≥ 2 ^ 31)

/-- The oldest SEQ of a window, modulo 2^32: operations need not be accepted in the order of their marks (R193, R334). -/
def oldestSeq (w : List (Word32 × Bool × Word)) : Option Word32 :=
  w.foldl (fun a m => match a with
    | none => some m.1
    | some x => if seqOlder m.1 x then some m.1 else some x) none

/-- A mark older than every mark of a nonempty window (R193). -/
def State.markOld (s : State) (owner : Nat) (mark : Word) : Bool :=
  match oldestSeq (s.window? owner mark) with
  | none => false
  | some x => seqOlder (mark.setWidth 32) x

/-! ## Atomics (R262) -/

/-- Op(old, b, cmp) on n-byte values, n = 4 or 8; none writes nothing. -/
def amoOp (code n : Nat) (old b cmp : Nat) : Option Nat :=
  let m := 2 ^ (8 * n)
  let sg := fun (x : Nat) => if m / 2 ≤ x then (x : Int) - m else (x : Int)
  match code with
  | 0 => some ((old + b) % m)
  | 1 => some ((if n = 4 then fFP32 else fFP64).add 0 old b).1
  | 2 => some (if sg b < sg old then b else old)
  | 3 => some (if sg old < sg b then b else old)
  | 4 => some (min old b)
  | 5 => some (max old b)
  | 6 => some (old &&& b)
  | 7 => some (old ||| b)
  | 8 => some (old ^^^ b)
  | 9 => some b
  | _ => if old = cmp then some b else none

/-- The value an AMO pushes: zero-extended for FADD, sign-extended for another .w form (R262). -/
def amoPush (code n : Nat) (old : Nat) : Word :=
  if n = 8 then BitVec.ofNat 64 old else extend (decide (code ≠ 1)) 4 old

/-- Change the launch of an orphan, whose record is still to be written (R122). -/
def State.onEnding (s : State) (o : Op) (f : Launch → Launch) : State :=
  if o.orphan then { s with ending := s.ending.map (fun e => if o.lid = some e.l.lid then { e with l := f e.l } else e) } else s

/-- The atomic at its point of visibility: read, compute, write, remember the old value under the mark. `fn` bit 7 is M. -/
def State.amoNow (s : State) (o : Op) : State :=
  match o.segs with
  | [] => s.dropOp o.id
  | g :: _ =>
    let m := 2 ^ (8 * o.width)
    let old := leNat (s.take_ g)
    let push := amoPush o.n o.width old
    let bad := s.damage g
    let s := match amoOp o.n o.width old (o.operand.toNat % m) (o.cmp.toNat % m) with
      | none => s.noteBar g
      | some x => s.put g (leBytes o.width x)
    let s := s.remember (memOwner g.bus) o.mark (o.fn.getLsbD 7) push
    let s := if o.fn.getLsbD 7 ∧ !o.past then (s.onLaunch o.lid (fun l => { l with mappl := l.mappl + 1 })).onEnding o (fun l => { l with mappl := l.mappl + 1 }) else s
    let s := if o.q = 1 then
        (match bad with
         | some (c, k) => s.fillS o.t o.id 0 (.bad c (if c = .ecc then o.addr else g.va + BitVec.ofNat 64 k))
         | none => s.fillS o.t o.id 0 (.ready push))
      else s
    s.dropOp o.id

/-! ## SPILL and FILL (R96) -/

/-- Deliver a FILL to its register. -/
def State.fillNow (s : State) (o : Op) : State :=
  let d := o.segs.flatMap (fun g => s.rd g.bus g.len)
  let soft := o.segs.any (fun g => (s.damage g).isSome)
  let x := s.tsGet o.t
  let x := { x with vreg := Assoc.set x.vreg o.n (vec512 d),
                    softV := if soft then o.n :: x.softV else x.softV.filter (fun r => decide (r ≠ o.n)) }
  (s.tsSet o.t x).dropOp o.id

/-- The tokens of a thread set: the count of one (R96). -/
def State.tokCount (s : State) (t : TsId) (n : Nat) : Nat :=
  (s.ops.filter (fun o => decide (o.t = t) && (decide (o.kind = .spill) || decide (o.kind = .fill)) && decide (o.width = n))).length

/-! ## Block operations (R279, R283) -/

/-- Parts of destination pieces that are also source bytes end undefined (R279). -/
def overlapsOf (src dst : List Seg) : List Seg :=
  dst.flatMap (fun d => src.filterMap (fun g =>
    let lo := max d.bus g.bus
    let hi := min (d.bus + d.len) (g.bus + g.len)
    if lo < hi then some { va := d.va + BitVec.ofNat 64 (lo - d.bus), bus := lo, len := hi - lo, off := 0 } else none))

/-- The first damaged line of a block operation's source: its address and cause (R280). -/
def State.blockDamage (s : State) (o : Op) : Option (Cause × Word) :=
  o.segs.findSome? (fun g => (List.range ((g.len + 63) / 64)).findSome? (fun i =>
    (s.damage { va := g.va + BitVec.ofNat 64 (64 * i), bus := g.bus + 64 * i, len := 64, off := 0 }).map (fun d =>
      (d.1, g.va + BitVec.ofNat 64 (64 * i)))))

/-- Move the bytes of a block operation from its source pieces to its destination pieces; it is outstanding no longer, and what it has written may be
read, before a destination byte that is also a source byte is left undefined. -/
def State.blockNow (s : State) (o : Op) : State :=
  let d := o.segs.flatMap s.take_
  let s := o.segs.foldl State.noteBar s
  let s := (o.dst.foldl (fun (a : State × List Byte) g => (a.1.put g (a.2.take g.len), a.2.drop g.len)) (s, d)).1.dropOp o.id
  (overlapsOf o.segs o.dst).foldl State.smearSeg s

end Sys2Proof.Machine
end

