-- ==== Sys2Proof/Machine/Ends.lean ====
section
/-!
DEFINITION. Messages entering baskets (R103, R119), the end of a launch with its completion record (R122), and the kill of
a context (R181, R237).
-/

namespace Sys2Proof.Machine

open Sys2Proof

/-! ## Header word 1 (R100 to R102) -/

/-- Header word 1 of a message. -/
def header1 (src ts seq : Nat) (lid : Half) (scope kind : Nat) (mark ksrc : Bool) : Word :=
  at64 (src % 2 ^ 14) 0 ||| at64 ts 14 ||| at64 (seq % 2 ^ 16) 16 ||| at64 lid.toNat 32 ||| at64 scope 48 ||| at64 kind 51 |||
  at64 (if mark then 1 else 0) 55 ||| at64 (if ksrc then 1 else 0) 56

/-- Header word 0 as delivered: CLASS 12 to 15 as 11, [63:52] zero (R100). -/
def deliverW0 (w : Word) : Word :=
  let c := min (bits w 51 48) 11
  at64 (bits w 47 0) 0 ||| at64 c 48

def msgClass (w0 : Word) : Nat := min (bits w0 51 48) 11
def msgKind (w1 : Word) : Nat := bits w1 54 51
def msgMark (w1 : Word) : Bool := w1.getLsbD 55

/-! ## Counts (R119) -/

/-- C of a core, by `d`. -/
def State.countAt (s : State) (lid : Option Half) (c : CoreId) (d : Int) : State :=
  s.onLaunch lid (fun l => match l.ordinal c with
    | none => l
    | some o => { l with counts := Assoc.set l.counts o (Assoc.getD l.counts o 0 + d) })

/-- The stain bit of a core. -/
def State.stainAt (s : State) (lid : Option Half) (c : CoreId) : State :=
  s.onLaunch lid (fun l => match l.ordinal c with
    | none => l
    | some o => if l.stains.contains o then l else { l with stains := o :: l.stains })

/-! ## Baskets (R103, R188) -/

/-- The bundle of a core is freezing a context: messages enter its memory basket (R188). -/
def State.freezingOn (s : State) (c : CoreId) (ctx : Half) : Bool :=
  !c.kernel && ((s.bundle (bundleOf c)).freezing.map (fun f => decide (f.1 = ctx))).getD false

def State.setFrozen (s : State) (b : Nat) (f : Frozen) : State :=
  let k := s.bundle b
  s.setBundle b { k with frozen := k.frozen.map (fun x => if x.ctx = f.ctx then f else x) }

/-- The base of a section of a context's save area (R189). -/
def State.saveBase (s : State) (ctx : Half) : Option Nat := (s.ctx ctx).map (fun c => c.save.toNat)
/-- The base that a directory of the save area names, 0 for none. -/
def State.saveDir (s : State) (ctx : Half) (off : Nat) : Option Nat :=
  (s.saveBase ctx).bind (fun a => let d := (s.rd64 (a + off)).toNat; if d = 0 then none else some d)

def Msg.bytes (m : Msg) : List Byte := leBytes 8 m.w0.toNat ++ leBytes 8 m.w1.toNat ++ leBytes 48 m.pay.toNat

/-- A message joins the memory basket. -/
def CoreSt.toMembk (k : CoreSt) (ms : List Msg) : CoreSt := { k with membk := k.membk ++ ms, membkNext := k.membkNext + ms.length }

/-- The messages that have joined a memory basket are written to its slots in stack memory, the n-th to slot n modulo 4,096 (R103, R189; log 42). -/
def State.mirrorMembk (s : State) (c : CoreId) (ctx : Half) (old k : CoreSt) : State :=
  if c.kernel ∨ k.membkNext = old.membkNext then s
  else match s.saveDir ctx (8 * c.idx) with
    | none => s
    | some a => ((k.membk.drop (k.membk.length - (k.membkNext - old.membkNext))).zipIdx old.membkNext).foldl
        (fun s m => s.wr (a + 64 * (m.2 % 4096)) m.1.bytes) s

/-- A core's part for a context, in its frozen image or on the core, and the save area's slots that follow it. -/
def State.setCoreFor (s : State) (c : CoreId) (ctx : Half) (k : CoreSt) : State :=
  let s := s.mirrorMembk c ctx (s.coreFor c ctx) k
  match s.frozenImg c ctx with
  | some f => s.setFrozen (bundleOf c) { f with cores := Assoc.set f.cores c k }
  | none => s.setCore c k

/-- A MARK-1 message whose SEQ stands in its source's window (R103). -/
def CoreSt.dup (k : CoreSt) (m : Msg) : Bool :=
  let kind := msgKind m.w1
  msgMark m.w1 && (kind ≤ 1 || (4 ≤ kind && kind ≤ 9)) &&
  k.dups.any (fun d => decide (d.ksrc = m.w1.getLsbD 56) && decide (d.src = bits m.w1 13 0) && decide (d.ts = bits m.w1 15 14) &&
    decide (d.opSpace = decide (4 ≤ kind)) && d.seqs.contains (bits m.w1 31 16))

/-- Record an entry in its source's window: the last 256 (R103). -/
def CoreSt.noteDup (k : CoreSt) (m : Msg) : CoreSt :=
  let kind := msgKind m.w1
  if kind ≤ 1 ∨ (4 ≤ kind ∧ kind ≤ 9) then
    let same := fun (d : DupWindow) => decide (d.ksrc = m.w1.getLsbD 56) && decide (d.src = bits m.w1 13 0) &&
      decide (d.ts = bits m.w1 15 14) && decide (d.opSpace = decide (4 ≤ kind))
    let seq := bits m.w1 31 16
    if k.dups.any same then
      { k with dups := k.dups.map (fun d => if same d then { d with seqs := (seq :: d.seqs).take 256 } else d) }
    else { k with dups := { ksrc := m.w1.getLsbD 56, src := bits m.w1 13 0, ts := bits m.w1 15 14, opSpace := decide (4 ≤ kind),
                            seqs := [seq] } :: k.dups }
  else k

/-- Overflow-ring slots of a context (R189). -/
def State.ringSlots (s : State) (ctx : Half) : Nat :=
  match s.ctx ctx with
  | none => 4096
  | some c => 4096 * max 1 (bits c.sizes 15 0)

/-- The context of the launch that a message names. -/
def State.msgCtx (s : State) (m : Msg) : Option Half := (s.launch (m.w1.extractLsb' 32 16)).map Launch.ctx

/-- Messages of a context in its overflow ring: of its frozen cores, and those that thawed cores have still to take. -/
def State.ringUsed (s : State) (ctx : Half) : Nat :=
  s.bundles.foldl (fun a b => (b.2.frozen.filter (fun f => decide (f.ctx = ctx))).foldl
    (fun a f => f.cores.foldl (fun a c => a + c.2.ring.length) a) a) 0 +
  s.cores.foldl (fun a c => a + (c.2.ring.filter (fun m => decide (s.msgCtx m = some ctx))).length) 0

/-- The ring's next slot takes a message (R188, R189; log 42). -/
def State.mirrorRing (s : State) (ctx : Half) (m : Msg) : State :=
  match s.ctx ctx with
  | none => s
  | some c =>
    let s := s.wr (c.save.toNat + 0xA0000 + 64 * (c.ringNext % s.ringSlots ctx)) m.bytes
    { s with ctxs := Assoc.set s.ctxs ctx { c with ringNext := c.ringNext + 1 } }

/-- Where a message can enter: on-chip slots, memory basket, overflow ring of a frozen core, or nowhere now (R103, R188). -/
def State.place (s : State) (c : CoreId) (ctx : Half) (m : Msg) : Option CoreSt :=
  let k := s.coreFor c ctx
  if (s.frozenImg c ctx).isSome || s.freezingOn c ctx then
    if k.membk.length < 4096 ∧ k.ring.isEmpty then some (k.toMembk [m])
    else if s.ringUsed ctx < s.ringSlots ctx then some { k with ring := k.ring ++ [m] }
    else none
  else if k.basket.length < 64 ∧ k.membk.isEmpty ∧ k.ring.isEmpty then some { k with basket := k.basket ++ [m] }
  else if k.membk.length < 4096 ∧ k.ring.isEmpty then some (k.toMembk [m])
  else none

/-- Enter a message that its core can take: a duplicate is suppressed, an entry is noted and counted (R103, R119). -/
def State.enter (s : State) (c : CoreId) (ctx : Half) (lid : Option Half) (counted stain : Bool) (m : Msg) : Option State :=
  if (s.coreFor c ctx).dup m then some s
  else match s.place c ctx m with
    | none => none
    | some k =>
      let s := if (s.coreFor c ctx).ring.length < k.ring.length then s.mirrorRing ctx m else s
      let s := s.setCoreFor c ctx (k.noteDup m)
      let s := if counted then s.countAt lid c (-1) else s
      some (if stain then s.stainAt lid c else s)

/-- Put a message on the network. -/
def State.post (s : State) (f : Flight) : State :=
  { s with net := s.net ++ [{ f with id := s.nextId }], nextId := s.nextId + 1 }

/-- Deliver a completion: it enters its basket in the same step, or is held in the network until a slot frees (R103). A
completion of a launch that has ended is discarded (R237). -/
def State.deliver (s : State) (c : CoreId) (ctx : Half) (lid : Option Half) (m : Msg) : State :=
  if lid.isSome ∧ (lid.bind s.launch).isNone then s
  else match s.enter c ctx lid true true m with
    | some s' => s'
    | none => s.post { id := 0, dst := c, src := none, msg := m, ctx := ctx, lid := lid, counted := true, outside := false, deps := [], held := true, since := s.clock }

/-- The completion message of an operation (R101, R102). -/
def completion (o : Op) (kind scope : Nat) (pay : Vec) : Msg :=
  { w0 := deliverW0 o.hdr,
    w1 := header1 o.t.core.idx o.t.ts (o.seq.toNat % 65536) (o.lid.getD 0) scope kind false o.t.core.kernel,
    pay := pay }

/-- Refill free on-chip slots: from the memory basket, then the overflow ring, in arrival order (R103, R188). -/
def CoreSt.refill (k : CoreSt) : CoreSt :=
  let n := 64 - k.basket.length
  let b := k.basket ++ k.membk.take n
  let mb := k.membk.drop n
  let n2 := 64 - b.length
  let free := 4096 - mb.length
  if mb.isEmpty then ({ k with basket := b ++ k.ring.take n2, membk := [], ring := (k.ring.drop n2).drop 4096 } : CoreSt).toMembk ((k.ring.drop n2).take 4096)
  else ({ k with basket := b, membk := mb, ring := k.ring.drop free } : CoreSt).toMembk (k.ring.take free)

/-! ## Dependence slots (R112) -/

/-- Physical address of a launch's slot `n`. The slots of a bound queue lie in stack memory (R109). A virtual slot needs RD and WR for its 16 bytes,
on one page; without them it is neither published nor signalled, and nothing waits on it; the same of a bound queue's slot outside stack memory
(log 44). -/
def State.slotAddr (s : State) (l : Launch) (n : Nat) : Option Nat :=
  match l.queued with
  | none => none
  | some (base, 0) => if base + 16 * n + 16 ≤ Config.channels * Config.channelBytes then some (base + 16 * n) else none
  | some (base, _) =>
    match s.granted l.ctx (BitVec.ofNat 64 (base + 16 * n)) 16 (rRD ||| rWR) false with
    | .ok [b] => some b.bus
    | _ => none

/-- Add 1 to a slot's DONECNT. -/
def State.signalAt (s : State) (a : Option Nat) : State :=
  match a with
  | none => s
  | some a => s.wrRw a (leBytes 8 (s.rd64 a + 1).toNat)

/-- Publish NEEDED and PUB to a slot, in one write. -/
def State.publish (s : State) (a : Option Nat) (needed : Nat) : State :=
  match a with
  | none => s
  | some a => s.wrRw (a + 8) (leBytes 8 (at64 needed 0 ||| at64 1 63).toNat)

/-! ## The completion record (R122) -/

def statusWord (status : Nat) (lid : Half) : Word := at64 status 0 ||| at64 lid.toNat 16 ||| at64 1 32

/-- The 128 bytes of a completion record, STATUS first. -/
def crecBytes (status : Nat) (lid : Half) (acc : Stamp) (start done : Option Stamp) (l : Option Launch) (resid : Word) : List Byte :=
  let z : Stamp := { sec := 0, ns := 0, seq := 0 }
  leBytes 8 (statusWord status lid).toNat ++ acc.bytes ++ (start.getD z).bytes ++ (done.getD z).bytes ++
  (match l with
   | none => List.replicate 48 0
   | some l => leBytes 8 l.acts ++ leBytes 4 l.disc ++ leBytes 4 l.discRec ++ leBytes 8 resid.toNat ++
      leBytes 8 l.mappl ++ leBytes 4 l.msupp ++ leBytes 4 l.markold ++ leBytes 4 l.traps ++ leBytes 4 l.skips) ++
  List.replicate 24 0

/-- A range lies in granted host memory (R198, R202). -/
def State.inHost (s : State) (a n : Nat) : Bool := s.hostRegions.any (fun r => decide (r.1 ≤ a) && decide (a + n ≤ r.1 + r.2))

/-- Write at an address for completions and stamps: where the context's tables map it with WR, or in granted host memory, which no page
maps (R198; log 44). -/
def State.wrTarget (s : State) (ctx : Half) (va : Word) (d : List Byte) : Option State :=
  match s.wrV ctx va d with
  | some u => some u
  | none => if (s.lookup ctx va.toNat).isNone && s.inHost va.toNat d.length then some (s.hostWr va.toNat d) else none

/-- Write a record at CREC of a context, if CREC is aligned and can be written. -/
def State.writeCrec (s : State) (ctx : Half) (crec : Word) (d : List Byte) : Option State :=
  if crec.toNat % 128 ≠ 0 then none else s.wrTarget ctx crec d

/-! ## The end of a launch -/

/-- The partial sums of a launch's Pile engines: RESID exactly (R130, R134). -/
def State.exactResid (s : State) (l : Launch) : Word :=
  l.bundles.foldl (fun a b => a + (match Assoc.get (s.bundle b).piles l.lid with
    | some p => p.partialSum
    | none => (s.bundle b).frozen.foldl (fun a f => a + ((Assoc.get f.piles l.lid).map Pile.partialSum).getD 0) 0)) 0

/-- The engine's share of a launch. Before an engine's first broadcast, and again after a THAW, what it compares with is gain 0 at no engine
(DESIGN CHOICE, log 44, on R127). -/
def State.pileOf (s : State) (b : Nat) (lid : Half) : Pile :=
  Assoc.getD (s.bundle b).piles lid { recs := [], partialSum := 0, count := 0, stain := false, bcast := (0, none), coming := [], stealOut := false }
/-- The engine's share of a launch, live or in a frozen image. -/
def State.pileAny (s : State) (b : Nat) (lid : Half) : Pile :=
  match Assoc.get (s.bundle b).piles lid with
  | some p => p
  | none => ((s.bundle b).frozen.findSome? (fun f => Assoc.get f.piles lid)).getD (s.pileOf b lid)
def State.setPile (s : State) (b : Nat) (lid : Half) (p : Pile) : State :=
  let k := s.bundle b
  s.setBundle b { k with piles := Assoc.set k.piles lid p }

/-- The thread sets that run a launch, frozen ones among them. -/
def State.runners (s : State) (lid : Half) : List TsId :=
  ((s.ts ++ s.bundles.flatMap (fun b => b.2.frozen.flatMap Frozen.ts)).filter (fun e => match e.2.act with | some a => decide (a.lid = some lid) | none => false)).map Prod.fst

/-- A thread set with its activation gone: free, with empty queues and an empty send buffer (R86, R105). TLEV and the banks
stay until the next activation (R237). -/
def ThreadSet.free (x : ThreadSet) : ThreadSet :=
  { x with act := none, sbuf := [], slq := [], ssq := [], vlq := [], vsq := [], softQ := [], stall := none, run := 0 }

/-- The trap vectors of a launch: what its activations have written on this thread set, 0 at first (R179). -/
def ThreadSet.useVectors (x : ThreadSet) (lid : Option Half) : ThreadSet :=
  if x.tvecFor = lid then x
  else
    let kept := Assoc.set x.tvecs x.tvecFor (x.tvec1, x.tvec2)
    let v := Assoc.getD kept lid (0, 0)
    { x with tvecFor := lid, tvecs := kept, tvec1 := v.1, tvec2 := v.2 }

/-- A launch of this id begins: no vector is kept for it. -/
def ThreadSet.dropVectors (x : ThreadSet) (lid : Half) : ThreadSet :=
  let x := { x with tvecs := Assoc.del x.tvecs (some lid) }
  if x.tvecFor = some lid then { x with tvec1 := 0, tvec2 := 0 } else x

/-- Messages of a launch in a list. -/
def ofLaunch (lid : Half) (m : Msg) : Bool := decide (bits m.w1 47 32 = lid.toNat)

/-- Change every frozen image of a context. -/
def State.onFrozen (s : State) (ctx : Half) (g : Frozen → Frozen) : State :=
  { s with bundles := s.bundles.map (fun b => (b.1, { b.2 with frozen := b.2.frozen.map (fun f => if f.ctx = ctx then g f else f) })) }

/-- Messages of a launch in a core's basket. -/
def CoreSt.held (k : CoreSt) (lid : Half) : Nat := ((k.basket ++ k.membk ++ k.ring).filter (ofLaunch lid)).length
def CoreSt.without (k : CoreSt) (lid : Half) : CoreSt :=
  let keep := fun (ms : List Msg) => ms.filter (fun m => !(ofLaunch lid m))
  { k with basket := keep k.basket, membk := keep k.membk, ring := keep k.ring }

/-- The residue list (R135): ready records by home bundle ordinal, then decreasing gain, ties to the lower index. -/
def insertRec (r : PileRec) : List PileRec → List PileRec
  | [] => [r]
  | x :: t => if x.gain < r.gain ∨ (x.gain = r.gain ∧ r.index.toNat < x.index.toNat) then r :: x :: t else x :: insertRec r t
def sortRecs (l : List PileRec) : List PileRec := l.foldr insertRec []

def PileRec.bytes (r : PileRec) : List Byte :=
  leBytes 8 r.hdr.toNat ++ leBytes 4 r.index.toNat ++ leBytes 4 r.gain ++ leBytes 8 r.fpbase.toNat ++ leBytes 4 r.fplen ++ leBytes 4 r.arg.toNat

def State.readyRecs (s : State) (l : Launch) : List PileRec :=
  l.bundles.flatMap (fun b => sortRecs ((s.pileAny b l.lid).recs.filter (fun r => !r.running)))

/-- An RLIST that translates no longer, or has lost WR, when the launch ends gets no list, and nothing is reported (DESIGN CHOICE, log 44, on R135). -/
def State.writeResidue (s : State) (l : Launch) : State :=
  if l.rlist = 0 then s
  else
    let rs := s.readyRecs l
    let out := rs.take l.rcap
    let sum := rs.foldl (fun a r => a + r.gain) 0
    let d := leBytes 8 out.length ++ leBytes 8 rs.length ++ leBytes 8 sum ++ List.replicate 40 0 ++ out.flatMap PileRec.bytes
    (s.wrV l.ctx l.rlist d).getD s

/-! ## Copies (R149 to R151) -/

/-- Where a context's copy queue of a level stands (R150, R189). -/
def State.copyQBase (s : State) (ctx : Half) (level : Nat) : Option Nat :=
  (s.ctx ctx).map (fun c => c.save.toNat + 0x30000 + 0x9000 * level)

def State.copyQ (s : State) (ctx : Half) (level : Nat) : CopyQ :=
  (s.copyQs.find? (fun q => decide (q.ctx = ctx) && decide (q.level = level))).getD { ctx := ctx, level := level, head := 0, ents := [] }

def State.setCopyQ (s : State) (q : CopyQ) : State :=
  if s.copyQs.any (fun x => decide (x.ctx = q.ctx) && decide (x.level = q.level)) then
    { s with copyQs := s.copyQs.map (fun x => if x.ctx = q.ctx ∧ x.level = q.level then q else x) }
  else { s with copyQs := s.copyQs ++ [q] }

/-- The 128 bytes of a queue entry (R150). -/
def CopyE.bytes (c : CopyE) : List Byte :=
  leBytes 64 c.desc.toNat ++ leBytes 8 c.hdr.toNat ++ leBytes 8 c.issuer.toNat ++ leBytes 8 c.prog ++ leBytes 8 c.mark.toNat ++ List.replicate 32 0

/-- Write a queue's header, and one of its entries by its place from HEAD, to the context save area. -/
def State.syncCopyQ (s : State) (q : CopyQ) (i : Nat) : State :=
  match s.copyQBase q.ctx q.level with
  | none => s
  | some a =>
    let s := (s.wr64 a (BitVec.ofNat 64 q.head)).wr64 (a + 8) (BitVec.ofNat 64 (q.head + q.ents.length))
    match q.ents[i]? with
    | none => s
    | some c => s.wr (a + 64 + 128 * ((q.head + i) % 256)) c.bytes

/-- Write a queue's header and every entry. -/
def State.syncWhole (s : State) (q : CopyQ) : State := (List.range (max 1 q.ents.length)).foldl (fun s i => s.syncCopyQ q i) s

def dSrc (d : Vec) : Word := vWord d 0
def dDst (d : Vec) : Word := vWord d 8
def dRowLen (d : Vec) : Nat := (vWord32 d 16).toNat
def dRows (d : Vec) : Nat := (vWord32 d 20).toNat
def dSstr (d : Vec) : Word := (vWord32 d 24).signExtend 64
def dDstr (d : Vec) : Word := (vWord32 d 28).signExtend 64

/-- How a chunk of a copy ends: the bytes moved, or the cause that stopped it at a byte, with the bytes moved before it. A page that is not resident
holds the copy: nothing moves. -/
inductive ChunkEnd where
  | moved (n : Nat)
  | held
  | stopped (n : Nat) (c : Cause)
  deriving DecidableEq, Repr

/-- Bytes of a range before its first failing byte. -/
def goodBytes (va : Word) (e : Word) : Nat := (e - va).toNat

/-- The pieces of a side of a chunk: what lies in a compute core's scratchpad is judged by the firewall 8 bytes at a time (R18, R156, R212). `f` tells
where a bus address stands. -/
def copySegs (f : Nat → Nat) (bs : List Block) : List Seg :=
  (bs.flatMap (fun b => if scratchBase ≤ b.bus ∧ b.bus < kernelBase then cutBlock (b.len / 8 + 2) b.va b.bus b.len b.off
    else [{ va := b.va, bus := b.bus, len := b.len, off := b.off }])).map (fun g => { g with bus := f g.bus })

/-- Read the source of a chunk and write its destination, or what of them a firewall lets through. -/
def State.copyMove (s : State) (src dst : List Seg) : State :=
  let d := src.flatMap s.take_
  dst.foldl (fun s g => s.put g (sliceB d g.off g.len)) (src.foldl State.noteBar s)

/-- The place in a range of the first byte that lies in a damaged 64-byte line of stack memory or scratchpad that is read (R151, R176, R212). -/
def State.badLine (s : State) (src : List Seg) : Option Nat :=
  (src.filter (fun x => !(s.barred x.bus))).foldl (fun m x => (if x.bus < scratchBase then s.eccMem else s.softMem).foldl (fun m y =>
    let lo := max x.bus (y / 64 * 64)
    if lo < x.bus + x.len ∧ lo < y / 64 * 64 + 64 then
      (match m with
       | none => some (x.off + (lo - x.bus))
       | some k => some (min k (x.off + (lo - x.bus))))
    else m) m) none

/-- Row and offset of a linear position, and the length of its chunk (R151). -/
def chunkSrc (d : Vec) (pos : Nat) : Word := dSrc d + BitVec.ofNat 64 (pos / dRowLen d) * dSstr d + BitVec.ofNat 64 (pos % dRowLen d)
def chunkDst (d : Vec) (pos : Nat) : Word := dDst d + BitVec.ofNat 64 (pos / dRowLen d) * dDstr d + BitVec.ofNat 64 (pos % dRowLen d)
def chunkLen (d : Vec) (pos : Nat) : Nat := min 4096 (dRowLen d - pos % dRowLen d)

def State.copyChunk (s : State) (f : Nat → Nat) (v : View) (d : Vec) (pos : Nat) : State × ChunkEnd :=
  let n := chunkLen d pos
  let src := chunkSrc d pos
  let dst := chunkDst d pos
  let move := fun (k : Nat) => match s.check v src k rRD, s.check v dst k rWR with
    | .ok a, .ok b =>
      let g := copySegs f a
      if anyNr a || anyNr b then (s, ChunkEnd.held)
      else match s.badLine g with
        | some first => (match s.check v src first rRD, s.check v dst first rWR with
          | .ok a, .ok b => (s.copyMove (copySegs f a) (copySegs f b), ChunkEnd.stopped first .ecc)
          | _, _ => (s, ChunkEnd.stopped 0 .ecc))
        | none => (s.copyMove g (copySegs f b), ChunkEnd.moved k)
    | _, _ => (s, ChunkEnd.stopped 0 .xlate)
  let upTo := fun (k : Nat) (c : Cause) => match move k with
    | (s, .moved n) => (s, ChunkEnd.stopped n c)
    | r => r
  match s.check v src n rRD, s.check v dst n rWR with
  | .ok _, .ok _ => move n
  | .error (c, a), .ok _ => upTo (goodBytes src a) c
  | .ok _, .error (c, a) => upTo (goodBytes dst a) c
  | .error (c, a), .error (c', a') =>
    upTo (min (goodBytes src a) (goodBytes dst a')) (if goodBytes src a ≤ goodBytes dst a' then c else c')

/-- Where the rows of one side of a copy lie. -/
def State.rowSegs (s : State) (v : View) (r : BitVec 4) (len : Nat) (stride : Word) : Nat → Word → List Seg
  | 0, _ => []
  | n + 1, a => (match s.check v a len r with | .ok bs => wholeSegs bs | .error _ => []) ++ s.rowSegs v r len stride n (a + stride)

/-- Source and destination of a copy share bytes. -/
def State.copyOverlaps (s : State) (v : View) (d : Vec) : Bool :=
  touches (s.rowSegs v rRD (dRowLen d) (dSstr d) (dRows d) (dSrc d)) (s.rowSegs v rWR (dRowLen d) (dDstr d) (dRows d) (dDst d))

/-- The destination bytes of the chunk that begins at a position, `n` bytes long, become undefined, or stay behind a firewall (R212, R288). -/
def State.smearChunk (s : State) (f : Nat → Nat) (v : View) (d : Vec) (pos n : Nat) : State :=
  match s.check v (chunkDst d pos) n rWR with
  | .ok bs => (copySegs f bs).foldl State.smearSeg s
  | .error _ => s

def Op.view (o : Op) : View := { core := o.t.core, ctx := o.ctx, lid := o.lid, late := o.orphan }

/-- The queue entry of a copy. -/
def State.copyEntry (s : State) (id : Nat) : Option CopyE :=
  (s.copyQs.flatMap CopyQ.ents).find? (fun e => decide (e.op = id))

/-! ## The home engine of a task index, and a gain update there (R125, R129) -/

/-- The home engine's bundle of a task index (R125). -/
def Launch.home (l : Launch) (i : Word32) : Nat := (l.bundles[i.toNat % max 1 l.bundles.length]?).getD 0

def maxGain : Nat := 0xFFFFFFFF

/-- An engine's share of RESID (R130). -/
def PileRec.share (r : PileRec) : Nat := r.gain + r.p

/-- The owner that a class M operation or a query goes to (R193, R334). -/
def State.ownerOf (s : State) (o : Op) : Option Nat :=
  let pile := (o.lid.bind s.launch).map (fun l => pileOwner (l.home (o.addr.setWidth 32)))
  match o.kind with
  | .amo => (o.segs.head?).map (fun g => memOwner g.bus)
  | .gain | .gget => pile
  | .bara => o.lid.map (fun l => groupOwner l o.n)
  | .markq => if o.n = 1 then pile else (o.segs.head?).map (fun g => memOwner g.bus)
  | _ => none

/-- A replay under a mark that its owner remembers, or that is older than every one it remembers (R193). -/
def State.known (s : State) (o : Op) : Bool :=
  o.replay && (match s.ownerOf o with
    | none => false
    | some w => (s.remembered w o.mark).isSome || s.markOld w o.mark)

/-- Replace an engine's records; its partial sum follows their shares. -/
def Pile.put (p : Pile) (rs : List PileRec) : Pile := { p with recs := rs, partialSum := BitVec.ofNat 64 (rs.foldl (fun a r => a + r.share) 0) }

/-- Change the record of an index. -/
def Pile.onRec (p : Pile) (i : Word32) (f : PileRec → PileRec) : Pile := p.put (p.recs.map (fun r => if r.index = i then f r else r))

def Pile.find (p : Pile) (i : Word32) : Option PileRec := p.recs.find? (fun r => decide (r.index = i))

/-- Entries of a context's Pile overflow log (R189). -/
def State.logSlots (s : State) (ctx : Half) : Nat := 65536 * (match s.ctx ctx with | none => 1 | some c => max 1 (bits c.sizes 31 16))
/-- The base of the Pile overflow log, behind the overflow ring, and of the mark-window pool behind it (R189). -/
def State.logBase (s : State) (ctx : Half) : Option Nat := (s.saveBase ctx).map (fun a => a + 0xA0000 + 64 * s.ringSlots ctx)
def State.poolBase (s : State) (ctx : Half) : Option Nat := (s.logBase ctx).map (fun a => a + 32 * s.logSlots ctx)

/-- Op of R129 on a value. -/
def gainOp (op : Nat) (v : Nat) (operand : Word) : Nat :=
  match op with
  | 0 => bits operand 31 0
  | 1 => (max 0 (min ((v : Int) + operand.toInt) (maxGain : Int))).toNat
  | _ => max v (bits operand 31 0)

/-- The effect of an update at its engine and its result (R129). -/
def Pile.update (p : Pile) (op : Nat) (i : Word32) (operand : Word) : Pile × Word :=
  match p.find i with
  | none => (p, BitVec.allOnes 64)
  | some x =>
    if x.running then
      let v := gainOp op x.p operand
      (p.onRec i (fun r => { r with p := v, touched := true }), BitVec.ofNat 64 v)
    else
      let v := gainOp op x.gain operand
      (p.onRec i (fun r => { r with gain := v }), BitVec.ofNat 64 v)

/-- A source's first mark at an engine takes a block of the context's mark-window pool, if one is left (R189, R241). -/
def State.poolOk (s : State) (ctx : Half) (owner : Nat) (mark : Word) : Bool :=
  !(s.window? owner mark).isEmpty ||
  decide ((s.windows.filter (fun w => decide (w.ctx = ctx) && decide (2 ^ 20 ≤ w.owner) && decide (w.owner < 2 ^ 24))).length <
    ((s.ctx ctx).map (fun c => bits c.sizes 47 32)).getD 0)

/-- The window of a mark's source at a Pile engine is written to its block of the pool, newest first, 16 bytes a mark: SEQ and M, then the
result (R189, R241; log 42). -/
def State.mirrorWindow (s : State) (ctx : Half) (owner : Nat) (mark : Word) : State :=
  match s.poolBase ctx, s.windows.find? (fun w => decide (w.owner = owner) && decide (w.ctx.toNat = bits mark 63 48) &&
      decide (w.core = bits mark 47 34) && decide (w.ts = bits mark 33 32)) with
  | some a, some w => s.wr (a + 4096 * w.block) (w.marks.flatMap (fun m => leBytes 8 (m.1.toNat + (if m.2.1 then 2 ^ 32 else 0)) ++ leBytes 8 m.2.2.toNat))
  | _, _ => s

/-- Replace an engine's share of a launch, live or in a frozen image. -/
def State.setPileAny (s : State) (b : Nat) (lid : Half) (p : Pile) : State :=
  match Assoc.get (s.bundle b).piles lid, (s.bundle b).frozen.find? (fun f => (Assoc.get f.piles lid).isSome) with
  | none, some f => s.setFrozen b { f with piles := Assoc.set f.piles lid p }
  | _, _ => s.setPile b lid p

/-- An update that its engine has not applied when its launch ends is applied then, under its mark (R132, R237). -/
def State.gainNow (s : State) (o : Op) : State :=
  match o.lid.bind s.launch with
  | none => s
  | some l =>
    let b := l.home (o.addr.setWidth 32)
    let own := pileOwner b
    if o.sent || (s.remembered own o.mark).isSome || (o.replay && s.markOld own o.mark) || !(s.poolOk o.ctx own o.mark) then s
    else
      let (p, r) := (s.pileAny b l.lid).update o.n (o.addr.setWidth 32) o.operand
      let m := o.fn.getLsbD 2
      let s := ((s.setPileAny b l.lid p).remember own o.mark m r).mirrorWindow o.ctx own o.mark
      if m then s.onLaunch o.lid (fun l => { l with mappl := l.mappl + 1 }) else s

/-! ## Operations that outlive their launch (R81, R122, R237) -/

/-- An operation goes on without its launch, under its own name and in its own place: performed once its pages are resident and what stands before it
is, and nothing answers it. One of a frozen image is outstanding again. -/
def State.outlive (s : State) (o : Op) : State :=
  let o : Op := { o with orphan := true, q := 0 }
  if (s.op o.id).isSome then s.setOp o else { s with ops := s.ops ++ [o] }

/-- A part of an operation goes on without its launch, under a name of its own. -/
def State.outliveNew (s : State) (o : Op) : State :=
  { s with ops := s.ops ++ [{ o with id := s.nextId, orphan := true, held := true, q := 0 }], nextId := s.nextId + 1 }

/-- The write of bytes that have been read already. -/
def Op.writeLater (o : Op) (dst : List Seg) (d : List Byte) : Op := { o with kind := .mst, segs := dst, dst := [], data := d }

/-- The right that an operation's pieces need, and its destination pieces. -/
def OpKind.right : OpKind → BitVec 4
  | .st | .vst | .vscat | .mst => rWR
  | .amo => rAM
  | _ => rRD

/-- Check pieces again: their places now, and whether one still lies on a page that is not resident. A piece of scratchpad of an operation whose launch
has ended stands where it stood. -/
def State.recheck (s : State) (v : View) (r : BitVec 4) : List Seg → Except (Cause × Word) (List Seg × Bool)
  | [] => .ok ([], false)
  | g :: rest =>
    let stays := v.late && !v.core.kernel && decide (g.bus ≠ 0) && (decide (g.va.toNat < 2 ^ 18) || decide (scratchBase ≤ g.va.toNat))
    match (if stays then .ok [] else s.check v g.va g.len r) with
    | .error e => .error e
    | .ok bs => match s.recheck v r rest with
      | .error e => .error e
      | .ok (more, nr) => .ok ((match bs with | b :: _ => { g with bus := b.bus } | [] => g) :: more, nr || anyNr bs)

def State.recheckOp (s : State) (o : Op) : Except (Cause × Word) (Op × Bool) :=
  match s.recheck o.view o.kind.right o.segs, s.recheck o.view rWR o.dst with
  | .ok (a, n), .ok (b, m) => .ok ({ o with segs := a, dst := b }, n || m)
  | .error e, _ => .error e
  | _, .error e => .error e

/-- The bytes of a copy's chunk before its first failing byte. -/
def State.chunkGood (s : State) (v : View) (d : Vec) (pos : Nat) : Nat :=
  let n := chunkLen d pos
  let good := fun (va : Word) (r : BitVec 4) => match s.check v va n r with
    | .ok _ => n
    | .error (_, a) => goodBytes va a
  min (good (chunkSrc d pos) rRD) (good (chunkDst d pos) rWR)

/-- `n` bytes of a copy that cannot be moved as its launch ends: bytes that can be read now are written later, the rest moves later, and where source
and destination share bytes what is written is undefined (R288; log 44). -/
def State.orphanChunk (s : State) (f : Nat → Nat) (o : Op) (d : Vec) (smeared : Bool) (pos n : Nat) : State :=
  match s.check o.view (chunkSrc d pos) n rRD, s.check o.view (chunkDst d pos) n rWR with
  | .ok a, .ok b =>
    let src := copySegs f a
    let dst := copySegs f b
    if smeared then ({ s with fresh := s.fresh + 1 } : State).outliveNew (o.writeLater dst (s.anyBytes ((dst.head?.map Seg.bus).getD 0) n))
    else if !(anyNr a) && o.deps.isEmpty then (src.foldl State.noteBar s).outliveNew (o.writeLater dst (src.flatMap s.take_))
    else s.outliveNew { o with kind := .bwr, segs := src, dst := dst }
  | _, _ => s

/-- The rest of a copy, chunk by chunk, as its launch ends; behind operations of its thread set that are still to be performed, all of it is moved
later. -/
def State.copyRest (f : Nat → Nat) (o : Op) (d : Vec) (smeared : Bool) : Nat → State → Nat → State
  | 0, s, _ => s
  | fuel + 1, s, pos =>
    let later := fun (s : State) =>
      let n := s.chunkGood o.view d pos
      let s := s.orphanChunk f o d smeared pos n
      if n < chunkLen d pos then s else State.copyRest f o d smeared fuel s (pos + n)
    if dRowLen d * dRows d ≤ pos then s
    else if !(o.deps.isEmpty) then later s
    else match s.copyChunk f o.view d pos with
      | (s', .moved n) => State.copyRest f o d smeared fuel (if smeared then s'.smearChunk f o.view d pos n else s') (pos + n)
      | (s', .held) => later s'
      | (s', .stopped n _) => if smeared then s'.smearChunk f o.view d pos n else s'

/-- The writes that a thread set issued before a copy and that are not performed: none once the copy has begun (R151). -/
def State.copyBehind (s : State) (o : Op) (e : CopyE) : List Nat :=
  if e.prog ≠ 0 then []
  else o.deps.filter (fun d => s.pending d) ++
    ((s.older o.id).filter (fun x => decide (x.t = o.t) && decide (x.lid = o.lid) && x.kind.writes)).map Op.id

/-- An operation whose launch ends: a store, an atomic, a gain update, a block operation or a copy is performed where nothing stands before it, and what
of it an NR page or an older operation holds back is performed with no answer in its turn; a parked store, a reply and a load that is not held are
dropped (R81, R90, R122, R159, R237). `f` tells where a bus address stands. -/
def State.finishOp (s : State) (f : Nat → Nat) (o : Op) : State :=
  let at_ := fun (l : List Seg) => l.map (fun g => { g with bus := f g.bus })
  let here : Op := { o with orphan := true, q := 0, segs := at_ o.segs, dst := at_ o.dst }
  let gone := s.dropOp o.id
  let ready := !o.held && s.clear here (here.segs ++ here.dst) false
  match o.kind with
  | .st | .vst | .vscat => if o.parked then gone else if ready then s.storeNow here else s.outlive here
  | .spill => s.storeNow here
  | .mst => if o.held || o.deps.any (fun d => s.pending d) then s.outlive here else s.storeNow here
  | .amo => if o.sent || s.known o then gone else if ready then s.amoNow here else s.outlive here
  | .brd => if o.sent then gone else if !ready then s.outlive here else if (s.blockDamage here).isSome then gone else s.blockNow here
  | .bwr => if o.sent || (s.blockDamage here).isSome then gone
    else if ready then s.blockNow here
    else
      let behind := ((s.older o.id).filter (fun w => w.kind.ordered && decide (w.t = o.t) && decide (w.lid = o.lid) && w.meets o.t here.dst)).map Op.id
      (here.segs.foldl State.noteBar s).outlive { here.writeLater here.dst (here.segs.flatMap s.take_) with deps := o.deps ++ behind }
  | .gain => gone.gainNow o
  | .copy => match s.copyEntry o.id with
    | some e => State.copyRest f { o with deps := s.copyBehind o e } e.desc (s.copyOverlaps o.view e.desc) (dRows e.desc * (dRowLen e.desc / 4096 + 1)) gone e.prog
    | none => gone
  | .ld | .vld | .vgath => if o.held then s.outlive here else gone
  | _ => gone

/-- The operations that a launch or a context has issued, as it ends. -/
def State.flushOps (s : State) (p : Op → Bool) : State := (s.ops.filter (fun o => p o && !o.orphan)).foldl (fun s o => s.finishOp id o) s

/-- Where a byte of a frozen core's scratchpad stands: in the save block, once FREEZE has written it (R185). -/
def State.imageAt (s : State) (ctx : Half) (bus : Nat) : Nat :=
  if scratchBase ≤ bus ∧ bus < kernelBase then
    let c := cc ((bus - scratchBase) / 2 ^ 18)
    match s.frozenImg c ctx with
    | some f => if s.freezingOn c ctx then bus else f.blk + 0x100000 + 0x80000 * (c.idx % 8) + (bus - scratchBus c 0)
    | none => bus
  else bus

/-- A captured operation of a launch that ends or a context that is killed: what its owner has not applied yet is performed (R237), on the images where
scratchpads stand there, and under the context's tables as they are now. -/
def State.finishFrozen (s : State) (o : Op) : State :=
  if o.sent ∨ o.parked then s
  else match o.kind with
    | .amo | .gain | .brd | .bwr | .copy => match s.recheckOp { o with orphan := true } with
      | .ok (x, nr) => s.finishOp (s.imageAt o.ctx) { x with held := nr }
      | .error _ => s.finishOp (s.imageAt o.ctx) { o with orphan := true, held := true }
    | _ => s

/-- A launch's messages leave a core's basket, and the other launch's move up (R103). -/
def State.dropMsgs (s : State) (l : Launch) (c : CoreId) : State :=
  let k := s.core c
  if k.held l.lid = 0 then s
  else
    let k2 := (k.without l.lid).refill
    (s.mirrorMembk c l.ctx k k2).setCore c k2

/-- Count and discard the launch's basket messages and deque records (R121, R237). -/
def State.discardWork (s : State) (l : Launch) : State :=
  let mine := fun (c : CoreId × CoreSt) => (l.ordinal c.1).isSome
  let imgs := (s.bundles.flatMap (fun b => b.2.frozen)).filter (fun f => decide (f.ctx = l.ctx))
  let n := (s.cores.filter mine).foldl (fun a c => a + c.2.held l.lid) 0
  let n := imgs.foldl (fun a f => f.cores.foldl (fun a c => a + c.2.held l.lid) a) n
  let recs := l.deques.foldl (fun a d => a + d.2.2.length) 0
  let s := ((s.cores.filter mine).map Prod.fst).foldl (fun s c => s.dropMsgs l c) s
  let s := s.onFrozen l.ctx (fun f => { f with cores := f.cores.map (fun c => (c.1, c.2.without l.lid)),
                                               ops := f.ops.filter (fun o => decide (o.lid ≠ some l.lid)) })
  let s := (imgs.flatMap (fun f => f.ops.filter (fun o => decide (o.lid = some l.lid)))).foldl State.finishFrozen s
  s.onLaunch (some l.lid) (fun x => { x with disc := x.disc + n, discRec := x.discRec + recs, deques := [] })

/-- The owners of R47: the context table, the launch front end, the program's host mailbox and image store, and the mailbox of a slot. -/
def ownerTable : Nat := 0
def ownerFront : Nat := 1
def ownerHost : Nat := 2
def ownerImage : Nat := 3
def ownerMail (slot : Nat) : Nat := 4 + slot

/-- The packet that took a launch is done with it: its queue's fence list, its slot, an INVOKE or a step launch (R109, R112, R320, R244). -/
def State.settle (s : State) (l : Launch) (status : Word) : State :=
  let s := if l.sslot = 0 then s else s.signalAt (s.slotAddr l l.sslot)
  let s := { s with qwaits := s.qwaits.map (fun q => { q with
      launched := q.launched.filter (fun x => decide (x ≠ l.lid)),
      fence := q.fence.map (fun f => f.filter (fun x => decide (x ≠ l.lid))) }) }
  match l.src with
  | .invoke slot =>
    let told := fun (m : AgentMark) => if m.owner = ownerFront ∧ m.res = l.lid.setWidth 64 ∧ m.status = none then { m with status := some status } else m
    { s with progs := s.progs.map (fun p => if p.slot = slot then
        (let p : Prog := { p with marks := p.marks.map told }
         match p.await with
         | .launch a none (some x) none => if x = l.lid then { p with await := .launch a none (some x) (some status) } else p
         | _ => p) else p) }
  | .stepLaunch id => { s with steps := s.steps.map (fun x => if x.id = id then { x with status := some status } else x) }
  | _ => s

/-- Nothing of a launch stays in the networks, the rings, press queues, engines, banks and frozen images. -/
def State.sweep (s : State) (l : Launch) : State :=
  let lid := l.lid
  let s := s.onFrozen l.ctx (fun f => { f with
    ts := f.ts.map (fun e => match e.2.act with | some a => if a.lid = some lid then (e.1, e.2.free) else e | none => e),
    piles := Assoc.del f.piles lid })
  { s with
    net := s.net.filter (fun f => decide (f.lid ≠ some lid)),
    pnet := s.pnet.filter (fun f => match f.2 with
      | .spawn x _ _ _ _ _ | .stealReq x _ _ _ _ | .stealReply x _ _ _ _ _ | .fetch x _ _ _ | .retire x _ _ _ _ _ => decide (x ≠ lid)),
    snet := s.snet.filter (fun f => match f.2 with | .request x _ _ | .reply x _ => decide (x ≠ lid)),
    cores := s.cores.map (fun c => if (l.ordinal c.1).isSome then
      (c.1, { c.2 with rings := c.2.rings.filter (fun r => decide (r.2.lid ≠ some lid)),
                       pressQ := c.2.pressQ.filter (fun p => decide (p.lid ≠ lid)) }) else c),
    bundles := s.bundles.map (fun b => if l.bundles.contains b.1 then
      (b.1, { b.2 with piles := Assoc.del b.2.piles lid,
                       exec := b.2.exec.bind (fun c => if c.2.lid = lid then none else some c),
                       banks := b.2.banks.filter (fun k => decide (k.lid ≠ lid)),
                       saved := b.2.saved.filter (fun k => decide (k.lid ≠ lid)),
                       cc := b.2.cc.filter (fun e => decide (e.2.1 ≠ lid)) }) else b) }

/-- Entries leave the copy queues that they stand in: HEAD passes as many, and the queues' images follow (R150). -/
def State.passEntries (s : State) (gone : CopyE → Bool) : State :=
  s.copyQs.foldl (fun s q =>
    let keep := q.ents.filter (fun e => !(gone e))
    if keep.length = q.ents.length then s
    else
      let q : CopyQ := { q with head := q.head + (q.ents.length - keep.length), ents := keep }
      (s.setCopyQ q).syncWhole q) s

/-- The entries that a launch has in its context's copy queues go, but for those that are still performed. -/
def State.sweepCopies (s : State) (l : Launch) : State :=
  let mine := (s.copyQs.filter (fun q => decide (q.ctx = l.ctx))).flatMap CopyQ.ents
  s.passEntries (fun e => mine.contains e && decide (bits e.issuer 47 32 = l.lid.toNat) && (s.op e.op).isNone)

/-- Move bytes of a core's scratchpad to a higher place of it, in the save block where the context's image of it stands there. -/
def State.moveScratch (s : State) (ctx : Half) (from_ to_ n : Nat) : State :=
  let a := s.imageAt ctx from_
  let b := s.imageAt ctx to_
  if scratchBase ≤ b then { s with scratch := Cells.spliceAll s.undef s.scratch b (s.rd a n) } else s.wr b (s.rd a n)

/-- The upper of two launches of a bundle has ended: the other's device-placed area is now at the top. A deque's content moves with it; a footprint
run stays where it is pinned until its record retires, and the next ones stand in the new area (R99, R127, R388; log 44). -/
def State.raiseAreas (s : State) (l : Launch) : State :=
  let low := s.launches.filter (fun x => decide (x.lid ≠ l.lid) && decide (x.ctx = l.ctx) && decide (x.state = .running) &&
    x.bundles.any (fun b => x.areaLow.contains b && l.bundles.contains b))
  low.foldl (fun s x => (x.bundles.filter (fun b => x.areaLow.contains b && l.bundles.contains b)).foldl (fun s b =>
    let s := if x.pile then s else (List.range 8).foldl (fun s i =>
      let top := scratchBus (cc (8 * b + i)) (s.sizeFor (cc (8 * b + i)) l.ctx)
      s.moveScratch l.ctx (top - l.area - x.area) (top - x.area) x.area) s
    s.onLaunch (some x.lid) (fun y => { y with areaLow := y.areaLow.filter (fun c => decide (c ≠ b)) })) s) s

/-- The record of an ended launch is written once every write of the launch has been performed, and what waits for it goes on (R122). -/
def State.closeOne (s : State) (e : Ending) : State :=
  if s.ops.any (fun o => o.orphan && !o.kind.loads && decide (o.lid = some e.l.lid)) then s
  else
    let s : State := { s with ending := s.ending.filter (fun x => decide (x.l.lid ≠ e.l.lid)) }
    let d := crecBytes e.status e.l.lid e.l.accst e.l.startst (some e.stamp) (some e.l) e.resid
    let s : State := match s.writeCrec e.l.ctx e.l.crec d with
      | some s' => s'
      | none => { s with reports := .crec e.l.lid :: s.reports }
    s.settle e.l (statusWord e.status e.l.lid)
def State.close (s : State) : State := s.ending.foldl State.closeOne s

/-- No thread set's later accesses wait for what a launch has left behind; a message or record that was released before still does (R159, R162; log 44). -/
def State.loosen (s : State) (lid : Half) : State :=
  let ids := (s.ops.filter (fun o => o.orphan && decide (o.lid = some lid))).map Op.id
  if ids.isEmpty then s else { s with ts := s.ts.map (fun e => (e.1, { e.2 with rel := e.2.rel.filter (fun d => !(ids.contains d)) })) }

/-- End a launch with a status (R113, R122): its thread sets stop, its work in flight is gone, the residue list is written
where R135 asks for it; its bundles are free; then the record with the DONE stamp, STATUS last, behind every write of the launch. The marks of its
engines and groups go, but for a FAULTED launch, whose marks stay (R196). At a full engine a SPAWN record is no held message: DISC counts messages
(R103, R126; log 44). -/
def State.endLaunchAt (s : State) (lid : Half) (status : Nat) (stamp : Stamp) : State :=
  match s.launch lid with
  | none => s
  | some l0 =>
    let s : State := s.flushOps (fun o => decide (o.lid = some lid))
    let s : State := { s with ts := s.ts.map (fun e => match e.2.act with
        | some a => if a.lid = some lid then (e.1, e.2.free) else e
        | none => e) }
    let s := s.discardWork l0
    let l1 := (s.launch lid).getD l0
    let l : Launch := { l1 with disc := l1.disc + (s.net.filter (fun f => decide (f.lid = some lid) && f.held)).length }
    let resid := if l.pile then s.exactResid l else 0
    let s : State := if l.pile ∧ status ≤ 2 then s.writeResidue l else s
    let s : State := (((s.sweep l).sweepCopies l).raiseAreas l).loosen lid
    let gone := fun (w : MarkWindow) => decide (w.ctx = l.ctx) && ((l.pile && l.bundles.any (fun b => decide (w.owner = 2 ^ 20 + b))) ||
      decide (w.owner / 256 = 2 ^ 16 + lid.toNat))
    let s : State := { s with launches := s.launches.filter (fun x => decide (x.lid ≠ lid)),
                              windows := if status = 9 then s.windows else s.windows.filter (fun w => !(gone w)) }
    ({ s with ending := s.ending ++ [{ l := l, status := status, stamp := stamp, resid := resid }] } : State).close

/-- End a launch now. -/
def State.endLaunch (s : State) (lid : Half) (status : Nat) : State :=
  if (s.launch lid).isNone then s else (s.endLaunchAt lid status s.stamp).stamped

/-! ## The kill of a context (R181, R237) -/

/-- The causes of a kill in the order raised, with their addresses. -/
structure KillCause where
  cause : Word
  epc : Word
  addr : Word
  deriving DecidableEq, Repr

def killReport (cs : List KillCause) (msg who : Word) (stamp : Stamp) : List Byte :=
  let cs := cs ++ List.replicate (3 - cs.length) { cause := 0, epc := 0, addr := 0 }
  cs.flatMap (fun c => leBytes 8 c.cause.toNat) ++ cs.flatMap (fun c => leBytes 8 c.epc.toNat) ++
  cs.flatMap (fun c => leBytes 8 c.addr.toNat) ++ leBytes 8 msg.toNat ++ leBytes 8 who.toNat ++ stamp.bytes ++ List.replicate 24 0

/-- A held activation of a trapped thread set, as the kill discards it: its message, or its deque record (R177, R237). -/
def Launch.dropHeld (l : Launch) (x : ThreadSet) : Launch :=
  match x.act with
  | none => l
  | some a => if a.lid ≠ some l.lid then l else match a.origin with
    | .message => { l with disc := l.disc + 1 }
    | .deque _ => { l with discRec := l.discRec + 1 }
    | .pile _ _ _ => l

/-- The FREEZEs of a killed context end: no valid image is written, and the status is 1 (R307). -/
def State.stopFreezes (s : State) (ctx : Half) : State :=
  s.bundles.foldl (fun s b => match b.2.freezing with
    | none => s
    | some (c, _, id) =>
      if c ≠ ctx then s
      else
        let s := s.setBundle b.1 { s.bundle b.1 with freezing := none }
        ((List.range 8).foldl (fun s i => s.setCore (cc (8 * b.1 + i)) { s.core (cc (8 * b.1 + i)) with captured := false }) s).endWith id 1) s

/-- Kill a context: the report enters the error endpoint first, then every launch of the context ends KILLED and every
thread set of it stops. The report's stamp is the DONEST that follows (R237). `by_` is the thread set whose trap kills. -/
def State.killContext (s : State) (ctx : Half) (cs : List KillCause) (msg who : Word) (by_ : Option TsId) : State :=
  let stamp := s.stamp
  let s := { s with reports := .kill (killReport cs msg who stamp) :: s.reports }
  let held := (s.ts.filter (fun e => decide (e.2.tlev ≠ 0) || decide (by_ = some e.1))).map Prod.snd
  let mine := s.launches.filter (fun l => decide (l.ctx = ctx))
  let s := mine.foldl (fun s l => (s.onLaunch (some l.lid) (fun x => held.foldl Launch.dropHeld x)).endLaunchAt l.lid 10 stamp) s
  let s := (s.stamped).flushOps (fun o => decide (o.ctx = ctx))
  let s : State := { s with
    ops := s.ops.filter (fun o => !(o.orphan && o.kind.loads && decide (o.ctx = ctx))),
    ts := s.ts.map (fun e => match e.2.act with
      | some a => if a.ctx = ctx then (e.1, e.2.free) else e
      | none => e),
    bundles := s.bundles.map (fun b => (b.1, { b.2 with frozen := b.2.frozen.filter (fun f => decide (f.ctx ≠ ctx)) })),
    net := s.net.filter (fun f => decide (f.ctx ≠ ctx)) }
  s.stopFreezes ctx

/-- WHO of a kill report (R181). -/
def whoWord (t : TsId) (lid : Option Half) (ctx : Half) (tlev : Nat) (byTret : Bool) : Word :=
  at64 t.core.idx 0 ||| at64 t.ts 14 ||| at64 (lid.getD 0).toNat 16 ||| at64 ctx.toNat 32 ||| at64 tlev 48 ||| at64 (if byTret then 1 else 0) 50

/-- Kill the context of an operation whose page is lost, with one cause (R81, R340), also of one that its launch has left behind, where no kill of the
context ended that launch; of a replay with REPLAY set (R187). -/
def State.killFor (s : State) (o : Op) (c : Word) (a : Word) : State :=
  if o.orphan then
    let dead := s.ending.any (fun e => decide (o.lid = some e.l.lid) && decide (e.status = 10))
    let s := s.dropOp o.id
    (if dead then s
     else s.killContext o.ctx [{ cause := c ||| (if o.replay then at64 1 8 else 0), epc := 0, addr := a }] 0 (whoWord o.t o.lid o.ctx 0 false) none).close
  else (s.dropOp o.id).killContext o.ctx [{ cause := c, epc := 0, addr := a }] 0 (whoWord o.t o.lid o.ctx (s.tsGet o.t).tlev false) none

end Sys2Proof.Machine
end

