-- ==== Sys2Proof/Machine/Ops.lean ====
section
/-!
DEFINITION. The named operations of an instruction: time, registers and queues (R85, R92), checks and issue to the access
half (R90, R190), releases (R159), and TAKING A TRAP (R177 to R179), with the return beside it (R180).
-/

namespace Sys2Proof.Machine

open Sys2Proof

/-- The code of a cause (R176). -/
def Cause.code : Cause → Nat
  | .illop => 1 | .priv => 2 | .align => 3 | .bound => 4 | .xlate => 5 | .prot => 6 | .divz => 7 | .qdead => 8
  | .wdog => 9 | .gate => 10 | .soft => 11 | .ecc => 12 | .fpx => 13 | .markold => 14 | .parked => 15

/-! ## Time (R5, R88; log 8) -/

/-- The issues that a thread set has made in a row: none where its core has turned to another since (R84). -/
def State.runOf (s : State) (t : TsId) (n : Nat) : Nat := if Assoc.get s.turns t.core = some t.ts then n else 0

/-- One issue or wait of a thread set: its island's CYCLE advances, its WBUDGET runs unless it stalls under R81 (R182), it is the one that
its core has turned to last, and its issues in a row are one more (R84). -/
def State.tick (s : State) (t : TsId) (held : Bool) : State :=
  let d := 1 + Config.freeCycles (2 * s.fresh)
  let i := islandOf t.core
  let x := s.tsGet t
  let x := { x with run := s.runOf t x.run + 1 }
  let x := if held then x else { x with wbudget := BitVec.ofNat 64 (x.wbudget.toNat - d) }
  { s with ts := Assoc.set s.ts t x, cycle := Assoc.set s.cycle i (Assoc.getD s.cycle i 0 + d),
           clock := s.clock + Config.freeCycles (2 * s.fresh + 1), fresh := s.fresh + 1, turns := Assoc.set s.turns t.core t.ts }

/-! ## Taking a trap -/

/-- Bits [1:0] of a TVEC are taken as zero (R179). -/
def tvecOf (w : Word) : Word := w &&& ~~~3#64

/-- TEPC holds bits [47:0] of the address (R178). -/
def epcOf (pc : Word) : Word := at64 (bits pc 47 0) 0

/-- The trap budget of a context: 2^16, or its watchdog cap where that is lower (R179, R189). -/
def State.trapBudget (s : State) (ctx : Half) : Nat :=
  match s.ctx ctx with
  | none => 2 ^ 16
  | some c => if bits c.grant 8 4 = 0 then 2 ^ 16 else min (2 ^ 16) (2 ^ bits c.grant 8 4)

/-- What a trap does to the access half: loads keep going with their values discarded, FILLs are discarded, SPILLs completed in program order:
one that has to stand behind an older access completes after it (R90, R96, R177; log 37). -/
def State.trapAccess (s : State) (t : TsId) : State :=
  let spills := s.ops.filter (fun o => decide (o.t = t) && decide (o.kind = .spill))
  let s := spills.foldl (fun s o => if s.clear o o.segs false then s.storeNow o else s) s
  let left := s.ops.filter (fun o => !(decide (o.t = t) && decide (o.kind = .fill)))
  { s with ops := left.map (fun o => if o.t = t then { o with q := 0 } else o) }

/-- The causes that the banks hold. -/
def ThreadSet.bankCauses (x : ThreadSet) : List KillCause :=
  let b := fun (k : Bank) => ({ cause := k.cause, epc := k.epc, addr := k.addr } : KillCause)
  match x.tlev with
  | 0 => []
  | 1 => [b x.bank1]
  | _ => [b x.bank1, b x.bank2]

/-- A lost access whose value is never popped because the activation ends or traps first (R81). -/
def lostEntries {α : Type} (l : List (LdE α)) : Option Word := l.findSome? (fun e => match e with | .bad .xlate a => some a | _ => none)
def dropHead {α : Type} (c : Nat) (a : Word) : List (LdE α) → List (LdE α)
  | .bad .xlate b :: r => if c = 5 ∧ a = b then r else .bad .xlate b :: r
  | l => l

/-- Kill the context of a thread set with the banks' causes and one more (R179, R181, R237). -/
def State.killByTrap (s : State) (t : TsId) (code : Nat) (addr : Word) : State :=
  let x := s.tsGet t
  match x.act with
  | none => s
  | some a =>
    s.killContext a.ctx (x.bankCauses ++ [{ cause := at64 code 0, epc := epcOf x.pc, addr := addr }])
      (if x.tlev = 0 then 0 else x.bank1.msg) (whoWord t a.lid a.ctx x.tlev false) (some t)

/-- Take a trap: TCAUSE, TEPC, TADDR and TMSG of the next level are written, TLEV rises, PC goes to the level's TVEC and
WBUDGET to the trap budget; send buffer and queues are emptied. With no handler, or at level 2, the context is killed. -/
def State.takeTrap (s : State) (t : TsId) (code : Nat) (addr : Word) : State :=
  let x := s.tsGet t
  match x.act with
  | none => s
  | some a =>
    let s := s.onLaunch a.lid (fun l => { l with traps := l.traps + 1 })
    let tv := if x.tlev = 0 then tvecOf x.tvec1 else tvecOf x.tvec2
    match (lostEntries (dropHead code addr x.slq)).or (lostEntries (dropHead code addr x.vlq)) with
    | some lost => s.killByTrap t Cause.xlate.code lost
    | none =>
    if 2 ≤ x.tlev ∨ tv = 0 then s.killByTrap t code addr
    else
      let b : Bank := { cause := at64 code 0, epc := epcOf x.pc, addr := addr, msg := a.msg.w1 }
      let s := s.trapAccess t
      let x := s.tsGet t
      s.tsSet t { x with
        bank1 := if x.tlev = 0 then b else x.bank1
        bank2 := if x.tlev = 0 then x.bank2 else b
        tlev := x.tlev + 1
        pc := tv
        wbudget := BitVec.ofNat 64 (s.trapBudget a.ctx)
        sbuf := [], slq := [], ssq := [], vlq := [], vsq := [], softQ := [], stall := none }

/-- PARKED, raised by a release: the replay queue is discarded (R81). -/
def State.dropParked (s : State) (t : TsId) : State :=
  { s with ops := s.ops.filter (fun o => !(decide (o.t = t) && o.parked)) }

/-! ## The context of an instruction -/

/-- Why an instruction does not complete. -/
inductive Stop where
  | trap (code : Nat) (addr : Word)
  | parked (addr : Word)
  | stall (r : Stall)
  deriving DecidableEq, Repr

/-- The machine, the thread set that issues, its registers so far, its activation, and a store to try at once. -/
structure Exe where
  s : State
  t : TsId
  x : ThreadSet
  a : Activation
  after : Option Op
  deriving DecidableEq, Repr

def trap {α : Type} (c : Cause) (a : Word) : Except Stop α := .error (.trap c.code a)
def stall {α : Type} (r : Stall) : Except Stop α := .error (.stall r)

/-- The oldest entry of a load queue waits for a held access. -/
def State.headHeld {α : Type} (s : State) (q : List (LdE α)) : Bool :=
  match q with
  | .wait id _ :: _ => ((s.op id).map Op.held).getD false
  | _ => false

/-- A stall under R81: on a held or parked access, or in a release that waits for the replay queue (R182). -/
def State.stall81 (s : State) (t : TsId) (r : Stall) : Bool :=
  match r with
  | .held | .replayFull | .doneHeld => true
  | .value false => s.headHeld (s.tsGet t).slq
  | .value true => s.headHeld (s.tsGet t).vlq
  | _ => false

/-- The thread set waits: its issues in a row end, and a try that issues nothing is no turn of its core (R84). -/
def State.stallTs (s : State) (t : TsId) (r : Stall) : State :=
  let u := s.tick t (s.stall81 t r)
  let x := u.tsGet t
  { u.tsSet t { x with stall := some r, run := 0 } with turns := s.turns }

/-- An instruction has issued and completed towards its thread set. -/
def Exe.commit (e : Exe) : State :=
  let s := (e.s.tsSet e.t { e.x with stall := none }).tick e.t false
  match e.after with
  | none => s
  | some o => s.storeSegs o o.segs

/-- The end of every meaning of a Norson instruction: a next state, the trap taken, or the wait. -/
def finish (s : State) (t : TsId) (r : Except Stop Exe) : State :=
  match r with
  | .ok e => e.commit
  | .error (.trap c a) => (s.tick t false).takeTrap t c a
  | .error (.parked a) => ((s.dropParked t).tick t false).takeTrap t Cause.parked.code a
  | .error (.stall r) => s.stallTs t r

/-- Registers as they read where the damaged ones held `v`. -/
def whole {α : Type} (soft : List Nat) (v : α) (l : List (Nat × α)) : List (Nat × α) := l.map (fun r => if soft.contains r.1 then (r.1, v) else r)

/-- A load queue as it reads where what it cannot give, or every value of a damaged one, were `v`. -/
def wholeQ {α : Type} (soft : Bool) (v : α) (l : List (LdE α)) : List (LdE α) :=
  l.map (fun q => match q with
    | .bad _ _ => .ready v
    | .ready x => .ready (if soft then v else x)
    | .wait i w => .wait i w)

/-- A thread set as it would read undamaged state: `v` stands for every damaged value and for the values that a load queue cannot give (R252). -/
def ThreadSet.sound (x : ThreadSet) (v : Vec) : ThreadSet :=
  { x with
      sreg := whole x.softS (v.setWidth 64) x.sreg, vreg := whole x.softV v x.vreg, preg := whole x.softP (v.setWidth 64) x.preg,
      slq := wholeQ (x.softQ.contains 0) (v.setWidth 64) x.slq, vlq := wholeQ (x.softQ.contains 2) v x.vlq,
      softS := [], softV := [], softP := [], softQ := [] }

/-- The machine of an instruction as it would read undamaged state (R252). -/
def Exe.sound (e : Exe) (v : Vec) : Exe := { e with x := e.x.sound v }

/-- The same with nothing that it would have to wait for: every value is there, and no slot, record, token or fill is taken (R252). -/
def Exe.ample (e : Exe) (v : Vec) : Exe :=
  { e with
    s := { e.s with ops := e.s.ops.filter (fun o => o.parked || decide (o.kind = .brd)) }
    x := { e.x with
      slq := e.x.slq.map (fun q => match q with | .wait _ _ => .ready (v.setWidth 64) | q => q)
      vlq := e.x.vlq.map (fun q => match q with | .wait _ _ => .ready v | q => q) } }

/-- The trap that an instruction's own checks raise on sound data, also where they stand behind a wait. -/
def Exe.ownTrap (e : Exe) (f : Exe → Except Stop Exe) (v : Vec) : Option (Nat × Word) :=
  match f (e.sound v) with
  | .error (.trap c a) => some (c, a)
  | .error (.stall _) => match f ((e.sound v).ample v) with
    | .error (.trap c a) => some (c, a)
    | _ => none
  | _ => none

/-- Data that a check is tried with where an error has taken the true data: zeros, ones, and values that the checks of this core tell apart: two aligned
addresses, the bases of its windows, two cores of its bundle, and the cores that its endpoints name (log 11). -/
def State.samples (s : State) (t : TsId) : List Vec :=
  let th := (s.core t.core).thimble
  let ws : List Word := [0x10000, 0x20000] ++ (th.filter (fun e => decide (e.1 < 16))).map (fun e => e.2.extractLsb' 64 64) ++
    [BitVec.ofNat 64 (8 * bundleOf t.core), BitVec.ofNat 64 (8 * bundleOf t.core + 1)] ++
    (th.filter (fun e => decide (16 ≤ e.1))).map (fun e => (e.2.extractLsb' 64 14).setWidth 64)
  0 :: BitVec.allOnes 512 :: (ws.eraseDups.filter (fun w => decide (w ≠ 0))).map (fun w => vecOfWords (List.replicate 8 w))

/-- The trap that own checks raise whatever the data: every trial ends in one, and two of them in this one (log 11). -/
def agreed (l : List (Option (Nat × Word))) : Option (Nat × Word) :=
  if l.all Option.isSome then (l.filterMap id).find? (fun x => decide (2 ≤ (l.filter (fun y => decide (y = some x))).length)) else none

/-- The causes of an instruction in the order of R252: those of its own checks come before an error in data that it reads. A check counts where it
fails for all the data that the error may have taken, as far as trials tell (log 11). -/
def Exe.run (e : Exe) (f : Exe → Except Stop Exe) : Except Stop Exe :=
  match f e with
  | .error (.trap c a) => match agreed ((e.s.samples e.t).map (e.ownTrap f)) with
    | some x => .error (.trap x.1 x.2)
    | none => .error (.trap c a)
  | r => r

/-- Run a meaning for the thread set whose turn it is; with no thread set's turn, or no activation, nothing issues. -/
def issue (s : State) (f : Exe → Except Stop Exe) : Host.Outcome State Fault Refusal :=
  match s.cur with
  | .ts t =>
    match (s.tsGet t).act with
    | some a => .next (finish s t (Exe.run { s := s, t := t, x := s.tsGet t, a := a, after := none } f))
    | none => .next s
  | _ => .next s

def Exe.view (e : Exe) : View := { core := e.t.core, ctx := e.a.ctx, lid := e.a.lid }
def Exe.launch (e : Exe) : Option Launch := e.a.lid.bind e.s.launch
/-- Apply an operation of the machine to the state as this instruction has left it. -/
def Exe.onState (e : Exe) (f : State → State) : Exe :=
  let s := f (e.s.tsSet e.t e.x)
  { e with s := s, x := s.tsGet e.t }
/-- Go on at the next word, or past an L-form. -/
def Exe.next (e : Exe) : Except Stop Exe := .ok { e with x := { e.x with pc := e.x.pc + 4 } }
def Exe.next2 (e : Exe) : Except Stop Exe := .ok { e with x := { e.x with pc := e.x.pc + 8 } }

/-! ## Scalar registers and queues (R85, R86, R92) -/

/-- Queue numbers for soft errors: 0 scalar load, 1 scalar store, 2 vector load, 3 vector store (R176). -/
def Exe.softQ (e : Exe) (q : Nat) : Except Stop Unit := if e.x.softQ.contains q then trap .soft 0 else .ok ()

/-- Pop the scalar load queue. -/
def Exe.popS (e : Exe) : Except Stop (Word × Exe) :=
  match e.x.slq with
  | [] => trap .qdead 0
  | .wait _ _ :: _ => stall (.value false)
  | .bad c a :: _ => trap c a
  | .ready v :: r => do
    e.softQ 0
    .ok (v, { e with x := { e.x with slq := r } })

/-- Read a scalar source: s0 is zero, s30 pops, an invalid register is zero. -/
def Exe.srcS (e : Exe) (r : Reg) : Except Stop (Word × Exe) :=
  if r = 0#5 then .ok (0, e)
  else if r = 30#5 then e.popS
  else if r = 31#5 then trap .illop 0
  else if e.x.softS.contains r.toNat then trap .soft 0
  else .ok (Assoc.getD e.x.sreg r.toNat 0, e)

/-- The value of a scalar register that no instruction pops. -/
def ThreadSet.sval (x : ThreadSet) (r : Reg) : Word := if r = 0#5 then 0 else Assoc.getD x.sreg r.toNat 0

/-- A scalar destination can take a result: s31 needs an entry of the store queue, and a free physical slot (R92). -/
def Exe.roomS (e : Exe) (r : Reg) : Except Stop Unit :=
  if r = 30#5 then trap .illop 0
  else if r = 31#5 then
    if 8 ≤ e.x.ssq.length then trap .qdead 0
    else if 8 ≤ e.x.ssq.length + (e.s.ops.filter (fun o => decide (o.t = e.t) && decide (o.kind = .st) && !o.parked && !o.orphan)).length then stall .slot
    else .ok ()
  else .ok ()

/-- Write a scalar result: s0 discards, s31 pushes (R85). -/
def ThreadSet.putS (x : ThreadSet) (r : Reg) (v : Word) : ThreadSet :=
  if r = 0#5 then x
  else if r = 31#5 then { x with ssq := x.ssq ++ [v] }
  else { x with sreg := Assoc.set x.sreg r.toNat v, softS := x.softS.filter (fun n => decide (n ≠ r.toNat)) }
def Exe.putS (e : Exe) (r : Reg) (v : Word) : Exe := { e with x := e.x.putS r v }

/-- Reserve scalar load-queue entries for an operation. -/
def Exe.pushS (e : Exe) (id which : Nat) : Exe := { e with x := { e.x with slq := e.x.slq ++ [.wait id which] } }
/-- Push a scalar load-queue value at once. -/
def Exe.pushVal (e : Exe) (v : Word) : Exe := { e with x := { e.x with slq := e.x.slq ++ [.ready v] } }
/-- A load finds its scalar load queue at full depth (R92); `n` entries are to be pushed. -/
def Exe.roomLdq (e : Exe) (n : Nat) : Except Stop Unit := if 16 < e.x.slq.length + n then trap .qdead 0 else .ok ()

/-- Take the oldest scalar store-queue value (R91). -/
def Exe.takeSsq (e : Exe) : Except Stop (Word × Exe) :=
  match e.x.ssq with
  | [] => trap .qdead 0
  | v :: r => do
    e.softQ 1
    .ok (v, { e with x := { e.x with ssq := r } })

/-! ## Vector registers and queues -/

/-- A register with a pending FILL (R97). -/
def Exe.pendingFill (e : Exe) (r : Reg) : Bool :=
  e.s.ops.any (fun o => decide (o.t = e.t) && decide (o.kind = .fill) && decide (o.n = r.toNat))

def Exe.popV (e : Exe) : Except Stop (Vec × Exe) :=
  match e.x.vlq with
  | [] => trap .qdead 0
  | .wait _ _ :: _ => stall (.value true)
  | .bad c a :: _ => trap c a
  | .ready v :: r => do
    e.softQ 2
    .ok (v, { e with x := { e.x with vlq := r } })

/-- Read a vector source: v30 pops, a register with a pending FILL waits (R97). -/
def Exe.srcV (e : Exe) (r : Reg) : Except Stop (Vec × Exe) :=
  if r = 30#5 then e.popV
  else if r = 31#5 then trap .illop 0
  else if e.pendingFill r then stall .fill
  else if e.x.softV.contains r.toNat then trap .soft 0
  else .ok (Assoc.getD e.x.vreg r.toNat 0, e)

/-- The old value of a vector destination: 0 for v31 (R376). -/
def Exe.oldV (e : Exe) (r : Reg) : Except Stop Vec :=
  if r = 31#5 then .ok 0
  else if e.pendingFill r then stall .fill
  else if e.x.softV.contains r.toNat then trap .soft 0
  else .ok (Assoc.getD e.x.vreg r.toNat 0)

/-- A vector destination can take a result. -/
def Exe.roomV (e : Exe) (r : Reg) : Except Stop Unit :=
  if r = 30#5 then trap .illop 0
  else if r = 31#5 then
    if 4 ≤ e.x.vsq.length then trap .qdead 0
    else if 4 ≤ e.x.vsq.length + (e.s.ops.filter (fun o => decide (o.t = e.t) &&
      (decide (o.kind = .vst) || decide (o.kind = .vscat)) && !o.parked && !o.orphan)).length then stall .slot
    else .ok ()
  else if e.pendingFill r then stall .fill
  else .ok ()

def ThreadSet.putV (x : ThreadSet) (r : Reg) (v : Vec) : ThreadSet :=
  if r = 31#5 then { x with vsq := x.vsq ++ [v] }
  else { x with vreg := Assoc.set x.vreg r.toNat v, softV := x.softV.filter (fun n => decide (n ≠ r.toNat)) }
def Exe.putV (e : Exe) (r : Reg) (v : Vec) : Exe := { e with x := e.x.putV r v }

def Exe.takeVsq (e : Exe) : Except Stop (Vec × Exe) :=
  match e.x.vsq with
  | [] => trap .qdead 0
  | v :: r => do
    e.softQ 3
    .ok (v, { e with x := { e.x with vsq := r } })
def Exe.roomVldq (e : Exe) : Except Stop Unit := if 8 ≤ e.x.vlq.length then trap .qdead 0 else .ok ()

/-- A predicate: p0 is all ones (R85). -/
def Exe.srcP (e : Exe) (p : BitVec 3) : Except Stop Word :=
  if p = 0#3 then .ok (BitVec.allOnes 64)
  else if e.x.softP.contains p.toNat then trap .soft 0
  else .ok (Assoc.getD e.x.preg p.toNat 0)
def Exe.putP (e : Exe) (p : BitVec 3) (v : Word) : Exe :=
  if p = 0#3 then e
  else { e with x := { e.x with preg := Assoc.set e.x.preg p.toNat v, softP := e.x.softP.filter (fun n => decide (n ≠ p.toNat)) } }

/-! ## Checks and issue -/

/-- An endpoint of another device takes the messages for a core number (R106, R208). -/
def Exe.remote (e : Exe) (dst : Nat) : Option Nat := (e.s.endpoint? e.t.core dst).filter (fun d => decide (d ≠ e.s.device))

/-- Check(a, n, right): a trap at the first failing byte (R82, R251). -/
def Exe.check (e : Exe) (a : Word) (n : Nat) (r : BitVec 4) : Except Stop (List Block) :=
  match e.s.check e.view a n r with
  | .ok bs => .ok bs
  | .error (c, x) => trap c x

def Exe.aligned (a : Word) (n : Nat) : Except Stop Unit := if a.toNat % n ≠ 0 then trap .align a else .ok ()

/-- The basting record has room for one more entry; the 65th operation stalls (R191). -/
def Exe.roomRecord (e : Exe) : Except Stop Unit :=
  if 64 ≤ (e.s.ops.filter (fun o => decide (o.t = e.t) && o.basted)).length then stall .record else .ok ()

/-- OSEQ advances; the operation carries the value before the advance (R190, log 23). -/
def Exe.nextSeq (e : Exe) : Exe := { e with x := { e.x with oseq := e.x.oseq + 1 } }

/-- An operation of this thread set, with nothing but its names filled in. -/
def Exe.mkOp (e : Exe) (k : OpKind) : Op :=
  { id := e.s.nextId, t := e.t, ctx := e.a.ctx, lid := e.a.lid, kind := k, segs := [], dst := [], pages := [], data := [], seq := e.x.oseq,
    fn := 0, addr := 0, operand := 0, cmp := 0, mark := 0, n := 0, q := 0, width := 0, signed := false, held := false, parked := false,
    dead := none, vec := 0, hdr := 0, deps := e.x.rel.filter (fun d => e.s.pending d), mst := 0 }

/-- The issuing thread set's laundry mark for its next operation (R193). -/
def Exe.mark (e : Exe) : Word := markOf (if e.t.core.kernel then Config.edoiny else e.a.ctx) e.t e.x.oseq

/-- Hand an operation to the access half. -/
def Exe.send (e : Exe) (o : Op) : Exe := { e with s := { e.s with ops := e.s.ops ++ [o], nextId := e.s.nextId + 1 } }

/-- C of the issuing core rises by 1 (R119). -/
def Exe.count (e : Exe) : Exe := { e with s := e.s.countAt e.a.lid e.t.core 1 }

/-- The replay queue of a thread set (R81). -/
def State.replay (s : State) (t : TsId) : List Op := s.ops.filter (fun o => decide (o.t = t) && o.kind.isStore && o.parked)

/-- Issue a store: parked when a page of it is not resident or holds a parked store of this thread set, taken at once by a
scratchpad, and otherwise outstanding until it is taken (R81, R157). A full replay queue stalls. -/
def Exe.store (e : Exe) (k : OpKind) (bs : List Block) (segs : List Seg) (d : List Byte) (f : Op → Op) : Except Stop Exe :=
  let park := anyNr bs || (e.s.replay e.t).any (fun o => (pagesOf bs).any (fun p => o.pages.contains p))
  let o := f { e.mkOp k with segs := segs, data := d, pages := pagesOf bs, width := d.length }
  if park then
    if 16 ≤ (e.s.replay e.t).length then stall .replayFull
    else do
      e.roomRecord
      .ok ((e.send { o with parked := true }).nextSeq)
  else
    let e := e.send { o with seq := 0 }
    .ok (if segs.all (fun g => decide (scratchBase ≤ g.bus)) then { e with after := some { o with seq := 0 } } else e)

/-! ## Releases (R81, R96, R159) -/

/-- Wait until the replay queue is empty; PARKED when a store in it cannot be resolved (R81). The oldest unresolved store is the oldest one whose
page is unmapped or lost: one that only waits for its page counts as resolvable; of a VSCAT the address reported is its base (DESIGN CHOICE, log 44,
on R81). -/
def Exe.waitReplay (e : Exe) : Except Stop Unit :=
  match (e.s.replay e.t).find? (fun o => o.dead.isSome) with
  | some o => .error (.parked o.addr)
  | none => if (e.s.replay e.t).isEmpty then .ok () else stall .held

/-- Wait until every token count is 0 (R96). -/
def Exe.waitTokens (e : Exe) : Except Stop Unit :=
  if e.s.ops.any (fun o => decide (o.t = e.t) && (decide (o.kind = .spill) || decide (o.kind = .fill))) then stall .release else .ok ()

/-- Wait until every gain update of the activation is applied (R132). -/
def Exe.waitGains (e : Exe) : Except Stop Unit :=
  if e.s.ops.any (fun o => decide (o.t = e.t) && decide (o.kind = .gain)) then stall .release else .ok ()

/-- The operations a release by this thread set waits for: its own accesses, and the untaken stores it has seen (R159). -/
def State.cumulative (s : State) (t : TsId) : List Nat :=
  (s.ops.filter (fun o => (decide (o.t = t) && o.released) || (s.tsGet t).seen.contains o.id)).map Op.id

/-- Complete a release: every store of the cumulative set taken, every load performed. -/
def Exe.waitRelease (e : Exe) : Except Stop Unit :=
  if (e.s.cumulative e.t).isEmpty then .ok () else stall .release

/-! ## Flags (R89) -/

/-- Apply the flags of FP arithmetic: FPX when one is enabled, with no result written (R89, R306). -/
def Exe.flags (e : Exe) (fl : FFlags) : Except Stop Exe :=
  if e.x.trapen.extractLsb' 1 5 &&& fl ≠ 0#5 then trap .fpx 0
  else .ok { e with x := { e.x with fpcsr := e.x.fpcsr ||| (fl.setWidth 64 <<< 2) } }

end Sys2Proof.Machine
end

