-- ==== Sys2Proof/Machine/Operands.lean ====
section
/-!
DEFINITION. Operand forms: the second operand of an L-form with its constant-window read (R93, R94, R218, R258), scaled
addresses (R223), signed values, and the lanes of vectors (R85, R217).
-/

namespace Sys2Proof.Machine

open Sys2Proof

/-! ## Constant windows (R93, R94) -/

/-- The base of a window: 0 when unbound, and on a kernel core, which runs no launch. -/
def Exe.kb (e : Exe) (k : Nat) : Word :=
  match e.launch with
  | none => 0
  | some l => ((l.kbAt e.t.core)[k]?).getD 0

/-- Lines of the 32 KiB constant cache (R14). -/
def ccLines : Nat := 512

/-- The bytes of a line as the bundle's constant cache returns them: the cached content, which may be older than memory
but no older than the launch, or memory, when the line has been evicted and filled again (R94, log 14). A miss fills the line, and
the cache holds the 512 lines filled last. -/
def State.cacheRead (s : State) (b : Nat) (lid : Half) (bus n : Nat) : List Byte × State :=
  let line := bus / 64
  let off := bus % 64
  let k := s.bundle b
  match k.cc.find? (fun c => decide (c.1 = line) && decide (c.2.1 = lid)) with
  | some c =>
    let now := s.rd (line * 64) 64
    if c.2.2 ≠ now ∧ Config.freeBool s.fresh line = false then
      (sliceB now off n, s.setBundle b { k with cc := (line, lid, now) :: k.cc.filter (fun x => decide (x ≠ c)) })
    else (sliceB c.2.2 off n, s)
  | none =>
    let d := s.rd (line * 64) 64
    (sliceB d off n, s.setBundle b { k with cc := ((line, lid, d) :: k.cc).take ccLines })

/-- WindowRead(N, w, W): 8 bytes, or 4 bytes sign-extended. ALIGN, then XLATE, then PROT (R259). -/
def Exe.window (e : Exe) (k : BitVec 3) (w : BitVec 17) (w32 : Bool) : Except Stop (Word × Exe) :=
  let kb := e.kb k.toNat
  let va := kb + BitVec.ofNat 64 (4 * w.toNat)
  if !w32 && decide (w.toNat % 2 = 1) then trap .align va
  else if kb = 0 then trap .xlate va
  else do
    let n := if w32 then 4 else 8
    let bs ← e.check va n rRD
    match bs with
    | [] => trap .xlate va
    | b :: _ =>
      if b.page = 0 then trap .xlate va
      else if b.nr then stall .held
      else
        let (d, s) := e.s.cacheRead (bundleOf e.t.core) (e.a.lid.getD 0) b.bus n
        .ok (extend w32 n (leNat d), { e with s := s })

/-- The second operand of an ALU-K instruction (R258). -/
def Exe.kop (e : Exe) (k : KOp) (w : Bool) : Except Stop (Word × Exe) :=
  match k with
  | .lit v => .ok (v.signExtend 64, e)
  | .win n o => e.window n o w

/-! ## Addresses and signed values -/

/-- sA + SignExt(imm16) * scale (R223). -/
def offAddr (a : Word) (i : Half) (scale : Nat) : Word := a + i.signExtend 64 * BitVec.ofNat 64 scale

/-- The signed value of an n-bit number. -/
def sgn (n x : Nat) : Int := if 2 ^ (n - 1) ≤ x then (x : Int) - 2 ^ n else (x : Int)
/-- An integer modulo 2^n. -/
def modN (n : Nat) (x : Int) : Nat := (x % 2 ^ n).toNat

/-! ## Lanes -/

/-- Element width of a type code (R217). -/
def tyW (t : BitVec 3) : Nat := match t.toNat with | 0 => 8 | 1 => 16 | 2 => 32 | 3 => 64 | 4 => 16 | 5 => 16 | 6 => 32 | _ => 64
/-- The format of a float type code. -/
def tyFmt (t : BitVec 3) : Fmt := match t.toNat with | 4 => fBF16 | 5 => fFP16 | 6 => fFP32 | _ => fFP64
def lanesN (t : BitVec 3) : Nat := 512 / tyW t
/-- The lanes of a vector, lane 0 first. -/
def lanes (t : BitVec 3) (v : Vec) : List Nat := unpackBits (tyW t) (lanesN t) v.toNat
def ofLanes (w : Nat) (l : List Nat) : Vec := BitVec.ofNat 512 (packBits w l)
/-- The predicate bits of the first n lanes. -/
def onLanes (p : Word) (n : Nat) : List Bool := (List.range n).map (fun i => p.getLsbD i)

end Sys2Proof.Machine
end

