-- ==== Sys2Proof/Machine/Flags.lean ====
section
/-!
DEFINITION. Results with their flags: scalar FP (R305, R306), vector lanes (R376, R377) and conversions (R379).
-/

namespace Sys2Proof.Machine

open Sys2Proof

/-- FP64 when D is set, else FP32 (R222). -/
def fmtD (d : Bool) : Fmt := if d then fFP64 else fFP32
/-- An FP operand: bits [31:0] in FP32 (R304). -/
def fpArg (d : Bool) (x : Word) : Nat := if d then x.toNat else x.toNat % 2 ^ 32

inductive CmpOp where
  | eq | lt | le | un
  deriving DecidableEq, Repr

/-- FCMP: the relation and its flags; lt and le with any NaN are invalid (R305, R306). -/
def Fmt.cmp (f : Fmt) (c : CmpOp) (x y : Nat) : Bool × FFlags :=
  let a := f.decode x
  let b := f.decode y
  let nan := a.isNan || b.isNan
  let fl := match c with
    | .lt | .le => if nan then flInvalid else 0#5
    | _ => snanFlag [a, b]
  (match c with
   | .eq => FV.eq a b
   | .lt => FV.lt a b
   | .le => FV.lt a b || FV.eq a b
   | .un => nan, fl)

/-! ## Vector lanes -/

/-- One lane of a binary operation. -/
abbrev LaneFn := Nat → Nat → Nat → Nat × FFlags

/-- Combine lanes: on lanes by the function, off lanes keep the old value; the flags of the on lanes (R376). -/
def mapLanes (f : LaneFn) : List Bool → List Nat → List Nat → List Nat → List (Nat × FFlags)
  | p :: ps, a :: as_, b :: bs, d :: ds => (if p then f a b d else (d, 0#5)) :: mapLanes f ps as_ bs ds
  | _, _, _, _ => []

def orFlags (l : List (Nat × FFlags)) : FFlags := l.foldl (fun a x => a ||| x.2) 0#5

/-- The rounding mode VRM (R89). -/
def ThreadSet.vrm (x : ThreadSet) : Nat := bits x.fpcsr 1 0

def laneInt (g : Nat → Nat → Nat → Nat) : LaneFn := fun a b d => (g a b d, 0#5)

def laneAdd (t : BitVec 3) (rm : Nat) : LaneFn := fun a b _ => if tyInt t then ((a + b) % 2 ^ tyW t, 0#5) else (tyFmt t).add rm a b
def laneSub (t : BitVec 3) (rm : Nat) : LaneFn := fun a b _ => if tyInt t then ((a + 2 ^ tyW t - b) % 2 ^ tyW t, 0#5) else (tyFmt t).sub rm a b
def laneMul (t : BitVec 3) (rm : Nat) : LaneFn := fun a b _ => if tyInt t then ((a * b) % 2 ^ tyW t, 0#5) else (tyFmt t).mul rm a b
def laneFma (t : BitVec 3) (rm : Nat) : LaneFn := fun a b d => (tyFmt t).fma rm a b d
def laneMin (t : BitVec 3) : LaneFn := fun a b _ =>
  if tyInt t then (if sgn (tyW t) b < sgn (tyW t) a then b else a, 0#5) else (tyFmt t).minmax false a b
def laneMax (t : BitVec 3) : LaneFn := fun a b _ =>
  if tyInt t then (if sgn (tyW t) a < sgn (tyW t) b then b else a, 0#5) else (tyFmt t).minmax true a b
def laneShl (t : BitVec 3) : LaneFn := fun a b _ => (a * 2 ^ (b % tyW t) % 2 ^ tyW t, 0#5)
def laneShr (t : BitVec 3) : LaneFn := fun a b _ => (a / 2 ^ (b % tyW t), 0#5)
def laneSar (t : BitVec 3) : LaneFn := fun a b _ => (modN (tyW t) (sgn (tyW t) a / 2 ^ (b % tyW t)), 0#5)

/-- One lane of VCMP: eq, lt, le, ltu (R377). -/
def laneCmp (t : BitVec 3) (c : BitVec 2) (a b : Nat) : Bool × FFlags :=
  let w := tyW t
  if tyInt t then
    (match c.toNat with
     | 0 => decide (a = b)
     | 1 => decide (sgn w a < sgn w b)
     | 2 => decide (sgn w a ≤ sgn w b)
     | _ => decide (a < b), 0#5)
  else (tyFmt t).cmp (match c.toNat with | 0 => .eq | 1 => .lt | _ => .le) a b

/-- VRED over the on lanes, in increasing lane (R377). The first on lane starts a min or max. -/
def redFold (f : Nat → Nat → Nat × FFlags) : List Nat → Nat → FFlags → Nat × FFlags
  | [], acc, fl => (acc, fl)
  | x :: r, acc, fl => let (y, g) := f acc x; redFold f r y (fl ||| g)

def vredVal (t : BitVec 3) (o : BitVec 2) (rm : Nat) (xs : List Nat) : Nat × FFlags :=
  let w := tyW t
  if tyInt t then
    let s64 := fun x => modN 64 (sgn w x)
    match xs, o.toNat with
    | [], _ => (0, 0#5)
    | xs, 0 => ((xs.foldl (fun a x => (a + s64 x) % 2 ^ 64) 0), 0#5)
    | x :: r, 1 => (s64 (r.foldl (fun a y => if sgn w y < sgn w a then y else a) x), 0#5)
    | x :: r, _ => (s64 (r.foldl (fun a y => if sgn w a < sgn w y then y else a) x), 0#5)
  else
    match xs, o.toNat with
    | [], _ => (0, 0#5)
    | xs, 0 => redFold (fun a x => (tyFmt t).add rm a x) xs 0 0#5
    | x :: r, 1 => let v := redFold (fun a y => (tyFmt t).minmax false a y) r x (snanFlag [(tyFmt t).decode x]); ((tyFmt t).canon v.1, v.2)
    | x :: r, _ => let v := redFold (fun a y => (tyFmt t).minmax true a y) r x (snanFlag [(tyFmt t).decode x]); ((tyFmt t).canon v.1, v.2)

/-! ## Conversions of form 0 (R379) -/

/-- Convert one lane from type s to type d. -/
def cvtLane (s d : BitVec 3) (rm : Nat) (x : Nat) : Nat × FFlags :=
  let wd := tyW d
  let lo : Int := -(2 ^ (wd - 1))
  let hi : Int := 2 ^ (wd - 1) - 1
  match tyInt s, tyInt d with
  | true, true => (modN wd (max lo (min hi (sgn (tyW s) x))), 0#5)
  | true, false => (tyFmt d).ofInt rm (sgn (tyW s) x)
  | false, true => let r := (tyFmt s).toIntClamp rm lo hi x; (modN wd r.1, r.2)
  | false, false => (tyFmt s).convert (tyFmt d) rm x

end Sys2Proof.Machine
end

