-- ==== Sys2Proof/Machine/Alu.lean ====
section
/-!
DEFINITION. The ALU family (R220, R257 to R259, R354), the immediates (R221, R260, R265, R343, R355, R385) and LIH (R330).
-/

namespace Sys2Proof.Machine

open Sys2Proof

/-- A function of the ALU on n-bit operands, its result below 2^n (R258). -/
abbrev AluFn := Nat → Word → Word → Word

/-- The low 32 bits with .w, zero-extended for the function. -/
def aluArg (w : Bool) (a : Word) : Word := if w then (a.setWidth 32).setWidth 64 else a
/-- The result: sign-extended from 32 bits with .w (R220). -/
def aluRes (w : Bool) (f : AluFn) (a b : Word) : Word :=
  if w then ((f 32 (aluArg true a) (aluArg true b)).setWidth 32).signExtend 64 else f 64 a b

/-! ## The functions (R258) -/

def fnAdd : AluFn := fun n a b => BitVec.ofNat 64 ((a.toNat + b.toNat) % 2 ^ n)
def fnSub : AluFn := fun n a b => BitVec.ofNat 64 ((a.toNat + 2 ^ n - b.toNat) % 2 ^ n)
def fnMul : AluFn := fun n a b => BitVec.ofNat 64 (a.toNat * b.toNat % 2 ^ n)
def fnDiv : AluFn := fun n a b => if b = 0 then BitVec.ofNat 64 (2 ^ n - 1) else BitVec.ofNat 64 (modN n ((sgn n a.toNat).tdiv (sgn n b.toNat)))
def fnDivu : AluFn := fun n a b => if b = 0 then BitVec.ofNat 64 (2 ^ n - 1) else BitVec.ofNat 64 (a.toNat / b.toNat)
def fnRem : AluFn := fun n a b => if b = 0 then a else BitVec.ofNat 64 (modN n ((sgn n a.toNat).tmod (sgn n b.toNat)))
def fnRemu : AluFn := fun _ a b => if b = 0 then a else BitVec.ofNat 64 (a.toNat % b.toNat)
def fnAnd : AluFn := fun _ a b => a &&& b
def fnOr : AluFn := fun _ a b => a ||| b
def fnXor : AluFn := fun _ a b => a ^^^ b
def fnShl : AluFn := fun n a b => BitVec.ofNat 64 (a.toNat * 2 ^ (b.toNat % n) % 2 ^ n)
def fnShr : AluFn := fun n a b => BitVec.ofNat 64 (a.toNat / 2 ^ (b.toNat % n))
def fnSar : AluFn := fun n a b => BitVec.ofNat 64 (modN n (sgn n a.toNat / 2 ^ (b.toNat % n)))
def fnSlt : AluFn := fun n a b => if sgn n a.toNat < sgn n b.toNat then 1 else 0
def fnSltu : AluFn := fun _ a b => if a.toNat < b.toNat then 1 else 0
def fnMin : AluFn := fun n a b => if sgn n b.toNat < sgn n a.toNat then b else a
def fnMax : AluFn := fun n a b => if sgn n a.toNat < sgn n b.toNat then b else a
def fnMinu : AluFn := fun _ a b => if b.toNat < a.toNat then b else a
def fnMaxu : AluFn := fun _ a b => if a.toNat < b.toNat then b else a
def fnMulh : AluFn := fun _ a b => BitVec.ofNat 64 (modN 64 (a.toInt * b.toInt / 2 ^ 64))
def fnMulhu : AluFn := fun _ a b => BitVec.ofNat 64 (a.toNat * b.toNat / 2 ^ 64)
def fnClz : AluFn := fun n a _ => BitVec.ofNat 64 (n - bitLen a.toNat)
/-- Count of one bits among the low n. -/
def popcount : Nat → Nat → Nat
  | 0, _ => 0
  | n + 1, x => x % 2 + popcount n (x / 2)
def fnPopc : AluFn := fun n a _ => BitVec.ofNat 64 (popcount n a.toNat)

/-- ALU-R: sources rs1 then rs2, room for the result, DIVZ, the result (R258, R259). -/
def aluR (f : AluFn) (dz : Bool) (d a b : Reg) (w : Bool) (s : State) : Host.Outcome State Fault Refusal :=
  issue s fun e => do
    let (x, e) ← e.srcS a
    let (y, e) ← e.srcS b
    e.roomS d
    if dz && e.x.trapen.getLsbD 0 && decide (aluArg w y = 0) then trap .divz 0
    else (e.putS d (aluRes w f x y)).next

/-- ALU-K: the second operand is the literal or the window read, checked after the queues (R258, R259). -/
def aluK (f : AluFn) (dz : Bool) (d a : Reg) (w : Bool) (k : KOp) (s : State) : Host.Outcome State Fault Refusal :=
  issue s fun e => do
    let (x, e) ← e.srcS a
    e.roomS d
    let (y, e) ← e.kop k w
    if dz && e.x.trapen.getLsbD 0 && decide (aluArg w y = 0) then trap .divz 0
    else (e.putS d (aluRes w f x y)).next2

/-- One source and an immediate. -/
def aluI (f : Word → Word) (d a : Reg) (s : State) : Host.Outcome State Fault Refusal :=
  issue s fun e => do
    let (x, e) ← e.srcS a
    e.roomS d
    (e.putS d (f x)).next

/-! ## ALU-R -/

def execAdd (d a b : Reg) (w : Bool) (s : State) : Host.Outcome State Fault Refusal := aluR fnAdd false d a b w s
def execSub (d a b : Reg) (w : Bool) (s : State) : Host.Outcome State Fault Refusal := aluR fnSub false d a b w s
def execMul (d a b : Reg) (w : Bool) (s : State) : Host.Outcome State Fault Refusal := aluR fnMul false d a b w s
def execDiv (d a b : Reg) (w : Bool) (s : State) : Host.Outcome State Fault Refusal := aluR fnDiv true d a b w s
def execDivu (d a b : Reg) (w : Bool) (s : State) : Host.Outcome State Fault Refusal := aluR fnDivu true d a b w s
def execRem (d a b : Reg) (w : Bool) (s : State) : Host.Outcome State Fault Refusal := aluR fnRem true d a b w s
def execRemu (d a b : Reg) (w : Bool) (s : State) : Host.Outcome State Fault Refusal := aluR fnRemu true d a b w s
def execAnd (d a b : Reg) (w : Bool) (s : State) : Host.Outcome State Fault Refusal := aluR fnAnd false d a b w s
def execOr (d a b : Reg) (w : Bool) (s : State) : Host.Outcome State Fault Refusal := aluR fnOr false d a b w s
def execXor (d a b : Reg) (w : Bool) (s : State) : Host.Outcome State Fault Refusal := aluR fnXor false d a b w s
def execShl (d a b : Reg) (w : Bool) (s : State) : Host.Outcome State Fault Refusal := aluR fnShl false d a b w s
def execShr (d a b : Reg) (w : Bool) (s : State) : Host.Outcome State Fault Refusal := aluR fnShr false d a b w s
def execSar (d a b : Reg) (w : Bool) (s : State) : Host.Outcome State Fault Refusal := aluR fnSar false d a b w s
def execSlt (d a b : Reg) (w : Bool) (s : State) : Host.Outcome State Fault Refusal := aluR fnSlt false d a b w s
def execSltu (d a b : Reg) (w : Bool) (s : State) : Host.Outcome State Fault Refusal := aluR fnSltu false d a b w s
def execMin (d a b : Reg) (w : Bool) (s : State) : Host.Outcome State Fault Refusal := aluR fnMin false d a b w s
def execMax (d a b : Reg) (w : Bool) (s : State) : Host.Outcome State Fault Refusal := aluR fnMax false d a b w s
def execMinu (d a b : Reg) (w : Bool) (s : State) : Host.Outcome State Fault Refusal := aluR fnMinu false d a b w s
def execMaxu (d a b : Reg) (w : Bool) (s : State) : Host.Outcome State Fault Refusal := aluR fnMaxu false d a b w s
def execMulh (d a b : Reg) (s : State) : Host.Outcome State Fault Refusal := aluR fnMulh false d a b false s
def execMulhu (d a b : Reg) (s : State) : Host.Outcome State Fault Refusal := aluR fnMulhu false d a b false s
def execClz (d a : Reg) (w : Bool) (s : State) : Host.Outcome State Fault Refusal := aluI (fun x => aluRes w fnClz x 0) d a s
def execPopc (d a : Reg) (w : Bool) (s : State) : Host.Outcome State Fault Refusal := aluI (fun x => aluRes w fnPopc x 0) d a s

/-! ## ALU-K -/

def execAddK (d a : Reg) (w : Bool) (k : KOp) (s : State) : Host.Outcome State Fault Refusal := aluK fnAdd false d a w k s
def execSubK (d a : Reg) (w : Bool) (k : KOp) (s : State) : Host.Outcome State Fault Refusal := aluK fnSub false d a w k s
def execMulK (d a : Reg) (w : Bool) (k : KOp) (s : State) : Host.Outcome State Fault Refusal := aluK fnMul false d a w k s
def execDivK (d a : Reg) (w : Bool) (k : KOp) (s : State) : Host.Outcome State Fault Refusal := aluK fnDiv true d a w k s
def execDivuK (d a : Reg) (w : Bool) (k : KOp) (s : State) : Host.Outcome State Fault Refusal := aluK fnDivu true d a w k s
def execRemK (d a : Reg) (w : Bool) (k : KOp) (s : State) : Host.Outcome State Fault Refusal := aluK fnRem true d a w k s
def execRemuK (d a : Reg) (w : Bool) (k : KOp) (s : State) : Host.Outcome State Fault Refusal := aluK fnRemu true d a w k s
def execAndK (d a : Reg) (w : Bool) (k : KOp) (s : State) : Host.Outcome State Fault Refusal := aluK fnAnd false d a w k s
def execOrK (d a : Reg) (w : Bool) (k : KOp) (s : State) : Host.Outcome State Fault Refusal := aluK fnOr false d a w k s
def execXorK (d a : Reg) (w : Bool) (k : KOp) (s : State) : Host.Outcome State Fault Refusal := aluK fnXor false d a w k s
def execShlK (d a : Reg) (w : Bool) (k : KOp) (s : State) : Host.Outcome State Fault Refusal := aluK fnShl false d a w k s
def execShrK (d a : Reg) (w : Bool) (k : KOp) (s : State) : Host.Outcome State Fault Refusal := aluK fnShr false d a w k s
def execSarK (d a : Reg) (w : Bool) (k : KOp) (s : State) : Host.Outcome State Fault Refusal := aluK fnSar false d a w k s
def execSltK (d a : Reg) (w : Bool) (k : KOp) (s : State) : Host.Outcome State Fault Refusal := aluK fnSlt false d a w k s
def execSltuK (d a : Reg) (w : Bool) (k : KOp) (s : State) : Host.Outcome State Fault Refusal := aluK fnSltu false d a w k s
def execMinK (d a : Reg) (w : Bool) (k : KOp) (s : State) : Host.Outcome State Fault Refusal := aluK fnMin false d a w k s
def execMaxK (d a : Reg) (w : Bool) (k : KOp) (s : State) : Host.Outcome State Fault Refusal := aluK fnMax false d a w k s
def execMinuK (d a : Reg) (w : Bool) (k : KOp) (s : State) : Host.Outcome State Fault Refusal := aluK fnMinu false d a w k s
def execMaxuK (d a : Reg) (w : Bool) (k : KOp) (s : State) : Host.Outcome State Fault Refusal := aluK fnMaxu false d a w k s
def execMulhK (d a : Reg) (k : KOp) (s : State) : Host.Outcome State Fault Refusal := aluK fnMulh false d a false k s
def execMulhuK (d a : Reg) (k : KOp) (s : State) : Host.Outcome State Fault Refusal := aluK fnMulhu false d a false k s

/-! ## Immediates -/

def execAddi (d a : Reg) (i : Half) (s : State) : Host.Outcome State Fault Refusal := aluI (fun x => x + i.signExtend 64) d a s
def execAndi (d a : Reg) (i : Half) (s : State) : Host.Outcome State Fault Refusal := aluI (fun x => x &&& i.setWidth 64) d a s
def execOri (d a : Reg) (i : Half) (s : State) : Host.Outcome State Fault Refusal := aluI (fun x => x ||| i.setWidth 64) d a s
def execXori (d a : Reg) (i : Half) (s : State) : Host.Outcome State Fault Refusal := aluI (fun x => x ^^^ i.setWidth 64) d a s
def execSlti (d a : Reg) (i : Half) (s : State) : Host.Outcome State Fault Refusal := aluI (fun x => if x.toInt < (i.signExtend 64).toInt then 1 else 0) d a s
def execShiShl (d a : Reg) (n : BitVec 6) (s : State) : Host.Outcome State Fault Refusal := aluI (fun x => x <<< n.toNat) d a s
def execShiShr (d a : Reg) (n : BitVec 6) (s : State) : Host.Outcome State Fault Refusal := aluI (fun x => x >>> n.toNat) d a s
def execShiSar (d a : Reg) (n : BitVec 6) (s : State) : Host.Outcome State Fault Refusal := aluI (fun x => x.sshiftRight n.toNat) d a s

/-- LIH: sixteen bits of sD replaced, the rest kept (R221, R330). -/
def lihVal (x : Word) (k : BitVec 2) (i : Half) : Word :=
  (x &&& ~~~(0xFFFF#64 <<< (16 * k.toNat))) ||| (i.setWidth 64 <<< (16 * k.toNat))
def execLih (d : Reg) (k : BitVec 2) (i : Half) (s : State) : Host.Outcome State Fault Refusal :=
  issue s fun e => do
    let (x, e) ← e.srcS d
    e.roomS d
    (e.putS d (lihVal x k i)).next

end Sys2Proof.Machine
end

