-- ==== Sys2Proof/Machine/LoadStore.lean ====
section
/-!
DEFINITION. The memory family at issue: LD, ST, VLD, VST, PREF (R223, R326 to R328, R346, R359, R383), VGATH and VSCAT
(R381), BRD and BWR (R278 to R283), COPY (R287, R288). What they do later stands in MemEvents.
-/

namespace Sys2Proof.Machine

open Sys2Proof

/-- The entry of an operation in the vector load queue. -/
def Exe.pushV (e : Exe) (id : Nat) : Exe := { e with x := { e.x with vlq := e.x.vlq ++ [.wait id 0] } }

/-- Issue a load: outstanding, held when a byte lies on a page that is not resident (R81); OSEQ advances (R190). -/
def Exe.load (e : Exe) (k : OpKind) (bs : List Block) (segs : List Seg) (n : Nat) (f : Op → Op) : Except Stop Exe := do
  e.roomRecord
  let o := f { e.mkOp k with segs := segs, data := List.replicate n 0, pages := pagesOf bs, width := n, held := anyNr bs }
  .ok ((e.send o).nextSeq)

/-! ## Scalar loads and stores -/

def execLd (z : BitVec 2) (x : Bool) (_h : BitVec 2) (a : Reg) (i : Half) (s : State) : Host.Outcome State Fault Refusal :=
  issue s fun e => do
    let (b, e) ← e.srcS a
    let n := 2 ^ z.toNat
    let va := offAddr b i n
    e.roomLdq 1
    Exe.aligned va n
    let bs ← e.check va n rRD
    let id := e.s.nextId
    let e ← e.load .ld bs (segsOf bs) n (fun o => { o with addr := va, q := 1, signed := x, fn := i.setWidth 11 })
    (e.pushS id 0).next

def execSt (z : BitVec 2) (_h : BitVec 2) (a : Reg) (i : Half) (s : State) : Host.Outcome State Fault Refusal :=
  issue s fun e => do
    let (b, e) ← e.srcS a
    let n := 2 ^ z.toNat
    let va := offAddr b i n
    if e.x.ssq.isEmpty then trap .qdead 0 else
    Exe.aligned va n
    let bs ← e.check va n rWR
    let (v, e) ← e.takeSsq
    let e ← e.store .st bs (segsOf bs) (leBytes n v.toNat) (fun o => { o with addr := va, operand := v, fn := i.setWidth 11 })
    e.next

/-! ## Vector loads and stores -/

def execVld (_h : BitVec 2) (a : Reg) (i : Half) (s : State) : Host.Outcome State Fault Refusal :=
  issue s fun e => do
    let (b, e) ← e.srcS a
    let va := offAddr b i 64
    e.roomVldq
    let bs ← e.check va 64 rRD
    let id := e.s.nextId
    let e ← e.load .vld bs (segsOf bs) 64 (fun o => { o with addr := va, q := 2, fn := i.setWidth 11 })
    (e.pushV id).next

def execVst (_h : BitVec 2) (a : Reg) (i : Half) (s : State) : Host.Outcome State Fault Refusal :=
  issue s fun e => do
    let (b, e) ← e.srcS a
    let va := offAddr b i 64
    if e.x.vsq.isEmpty then trap .qdead 0 else
    let bs ← e.check va 64 rWR
    let (v, e) ← e.takeVsq
    let e ← e.store .vst bs (segsOf bs) (leBytes 64 v.toNat) (fun o => { o with addr := va, fn := i.setWidth 11 })
    e.next

/-! ## PREF -/

/-- An address that PREF can act on: paged memory (R346). -/
def prefPaged (e : Exe) (va : Word) : Bool :=
  let a := va.toNat
  if e.t.core.kernel then decide (a < scratchBase) else decide (2 ^ 18 ≤ a) && !(decide (scratchBase ≤ a) && decide (a < scratchEnd))

/-- PREF. One that is dropped has issued too: OSEQ advances (R190, R346). -/
def execPref (_l : BitVec 2) (a : Reg) (i : Half) (s : State) : Host.Outcome State Fault Refusal :=
  issue s fun e => do
    let (b, e) ← e.srcS a
    let va := offAddr b i 64 &&& ~~~63#64
    let here := offAddr b i 64
    if prefPaged e here then
      match e.s.check e.view here 1 rRD with
      | .error _ => e.nextSeq.next
      | .ok bs =>
        if anyNr bs then e.nextSeq.next
        else do
          let e ← e.load .pref bs (wholeSegs bs) 0 (fun o => { o with addr := va, fn := i.setWidth 11 })
          e.next
    else e.nextSeq.next

/-! ## Gather and scatter -/

/-- The on lanes: number and address base + SignExt(x[i], w) * w / 8. -/
def laneAddrs (base : Word) (t : BitVec 3) (x : Vec) (p : Word) : List (Nat × Word) :=
  let w := tyW t
  ((List.range (lanesN t)).zip (lanes t x)).filterMap (fun l =>
    if p.getLsbD l.1 then some (l.1, base + BitVec.ofInt 64 (sgn w l.2 * ((w / 8 : Nat) : Int))) else none)

/-- Place a lane by address, before those above it. -/
def insertLane (l : Nat × Word) : List (Nat × Word) → List (Nat × Word)
  | [] => [l]
  | x :: r => if l.2.toNat ≤ x.2.toNat then l :: x :: r else x :: insertLane l r

/-- Check lanes in address order (R82): the blocks of each. -/
def Exe.checkLanes (e : Exe) (n : Nat) (r : BitVec 4) : List (Nat × Word) → Except Stop (List (Nat × List Block))
  | [] => .ok []
  | l :: rest => do
    let bs ← e.check l.2 n r
    let more ← e.checkLanes n r rest
    .ok ((l.1, bs) :: more)

/-- The pieces of the lanes, in increasing lane. -/
def laneSegs (n : Nat) (on : List (Nat × Word)) (cs : List (Nat × List Block)) : List Seg :=
  on.flatMap (fun l => (segsOf ((cs.find? (fun c => decide (c.1 = l.1))).map Prod.snd |>.getD [])).map (fun g => { g with off := l.1 * n + g.off }))

/-- The check of all on lanes: ALIGN at the lowest lane, then the ranges. -/
def Exe.lanesOk (e : Exe) (n : Nat) (r : BitVec 4) (on : List (Nat × Word)) : Except Stop (List (Nat × List Block)) :=
  match on.find? (fun l => decide (l.2.toNat % n ≠ 0)) with
  | some l => trap .align l.2
  | none => e.checkLanes n r (on.foldr insertLane [])

/-- The on lanes as a mask. -/
def laneMask (on : List (Nat × Word)) : Word := BitVec.ofNat 64 (on.foldl (fun a l => a + 2 ^ l.1) 0)

/-- The word bits [10:0] of VGATH and VSCAT. -/
def laneFn (p t : BitVec 3) : BitVec 11 := p ++ t ++ 0#5

def execVgath (a b : Reg) (p t : BitVec 3) (s : State) : Host.Outcome State Fault Refusal :=
  issue s fun e => do
    let (base, e) ← e.srcS a
    let (x, e) ← e.srcV b
    let n := tyW t / 8
    e.roomVldq
    let on := laneAddrs base t x (← e.srcP p)
    let cs ← e.lanesOk n rRD on
    let bs := cs.flatMap Prod.snd
    let id := e.s.nextId
    let e ← e.load .vgath bs (laneSegs n on cs) 64 (fun o => { o with addr := base, q := 2, vec := x, cmp := laneMask on, fn := laneFn p t })
    (e.pushV id).next

def execVscat (a b : Reg) (p t : BitVec 3) (s : State) : Host.Outcome State Fault Refusal :=
  issue s fun e => do
    let (base, e) ← e.srcS a
    let (x, e) ← e.srcV b
    let n := tyW t / 8
    if e.x.vsq.isEmpty then trap .qdead 0 else
    let on := laneAddrs base t x (← e.srcP p)
    let cs ← e.lanesOk n rWR on
    let (v, e) ← e.takeVsq
    let e ← e.store .vscat (cs.flatMap Prod.snd) (laneSegs n on cs) (leBytes 64 v.toNat)
      (fun o => { o with addr := base, vec := x, cmp := laneMask on, fn := laneFn p t })
    e.next

/-! ## Block operations -/

/-- In the local window (R78): below 2^18 on a compute core; a kernel core has none (R389). -/
def Exe.local (e : Exe) (a : Word) : Bool := !e.t.core.kernel && decide (a.toNat < 2 ^ 18)

/-- The common part of BRD and BWR. `rd` tells BRD. Bytes a BRD will write become undefined, but for those that their owner alone
writes (R7, R279). -/
def block (k : OpKind) (rd : Bool) (d a b : Reg) (n : BitVec 11) (s : State) : Host.Outcome State Fault Refusal :=
  issue s fun e => do
    let (src, e) ← e.srcS a
    let (dst, e) ← e.srcS b
    let (h, e) ← e.srcS d
    Exe.aligned src 64
    Exe.aligned dst 64
    if e.local src = rd then trap .bound src else
    if e.local dst ≠ rd then trap .bound dst else
    let len := 64 * (n.toNat + 1)
    let sb ← e.check src len rRD
    let db ← e.check dst len rWR
    e.roomRecord
    let o : Op := { e.mkOp k with segs := wholeSegs sb, dst := wholeSegs db, pages := pagesOf (if rd then sb else db), width := len,
                                  addr := src, operand := dst, hdr := h, n := n.toNat + 1, fn := n, held := anyNr (sb ++ db) }
    let e := ((e.send o).nextSeq).count
    let e := if rd then e.onState (fun s => db.foldl (fun s g => s.forgetRw g.bus g.len) s) else e
    e.next

def execBrd (d a b : Reg) (n : BitVec 11) (s : State) : Host.Outcome State Fault Refusal := block .brd true d a b n s
def execBwr (d a b : Reg) (n : BitVec 11) (s : State) : Host.Outcome State Fault Refusal := block .bwr false d a b n s

/-! ## COPY -/

/-- The descriptor is in range (R149, R288). -/
def copyDescOk (d : Vec) : Bool :=
  let l := dRowLen d
  let r := dRows d
  decide (1 ≤ l) && decide (l ≤ 16777216) && decide (1 ≤ r) && decide (r ≤ 65536) && decide (d.extractLsb' 256 256 = 0) &&
  decide (l * r ≤ 2 ^ 32) && (decide (r ≤ 1) || decide (l ≤ (vWord32 d 28).toInt.natAbs))

/-- Check `n` rows from `a` on, with a stride. -/
def Exe.checkRows (e : Exe) (len : Nat) (stride : Word) (r : BitVec 4) : Nat → Word → Except Stop Unit
  | 0, _ => .ok ()
  | n + 1, a => do
    let _ ← e.check a len r
    e.checkRows len stride r n (a + stride)

def execCopy (d a : Reg) (s : State) : Host.Outcome State Fault Refusal :=
  issue s fun e => do
    let (h, e) ← e.srcS a
    let (v, e) ← e.srcV d
    if !(copyDescOk v) then trap .bound 0 else
    e.checkRows (dRowLen v) (dSstr v) rRD (dRows v) (dSrc v)
    e.checkRows (dRowLen v) (dDstr v) rWR (dRows v) (dDst v)
    let q := e.s.copyQ e.a.ctx e.a.cls
    if 256 ≤ q.ents.length then stall .copyQ else
    e.roomRecord
    let id := e.s.nextId
    let c : CopyE := { op := id, desc := v, hdr := h, prog := 0, mark := e.mark,
                       issuer := at64 e.t.core.idx 0 ||| at64 e.t.ts 14 ||| at64 (e.x.oseq.toNat % 65536) 16 ||| at64 (e.a.lid.getD 0).toNat 32 }
    let slot := (e.s.copyQBase q.ctx q.level).getD 0 + 64 + 128 * ((q.head + q.ents.length) % 256)
    let e := e.send { e.mkOp .copy with addr := dSrc v, hdr := h, vec := v, mark := e.mark, operand := BitVec.ofNat 64 slot }
    let q : CopyQ := { q with ents := q.ents ++ [c] }
    (((e.nextSeq).count).onState (fun s => (s.setCopyQ q).syncCopyQ q (q.ents.length - 1))).next

end Sys2Proof.Machine
end

