-- ==== Sys2Proof/Machine/Amo.lean ====
section
/-!
DEFINITION. AMO at issue (R225, R261 to R264), with its release and acquire halves (R161). Its performance is State.amoNow.
-/

namespace Sys2Proof.Machine

open Sys2Proof

/-- Every later access of the thread set waits for these operations (R159). -/
def ThreadSet.behind (s : State) (x : ThreadSet) (ids : List Nat) : ThreadSet :=
  { x with rel := x.rel.filter (fun d => s.pending d) ++ ids }

/-- AMO with its operation code; `c` is the compare register of CAS. -/
def amo (code : Nat) (c : Option Reg) (a b : Reg) (w r m : Bool) (o : BitVec 2) (s : State) : Host.Outcome State Fault Refusal :=
  issue s fun e => do
    let (va, e) ← e.srcS a
    let (v, e) ← e.srcS b
    let (k, e) ← (match c with
      | some c => e.srcS c
      | none => .ok (0, e))
    let n := if w then 4 else 8
    if !r then e.roomLdq 1
    Exe.aligned va n
    let bs ← e.check va n rAM
    let rel := o.getLsbD 1
    if rel then
      e.waitReplay
      e.waitTokens
    e.roomRecord
    let before := if rel then e.s.cumulative e.t else []
    let e := if rel then { e with x := ThreadSet.behind e.s e.x before } else e
    let id := e.s.nextId
    let fn : BitVec 11 := BitVec.ofNat 11 ((if w then 512 else 0) + (if r then 256 else 0) + (if m then 128 else 0) + 32 * o.toNat + code)
    let op : Op := { e.mkOp .amo with segs := wholeSegs bs, pages := pagesOf bs, width := n, held := anyNr bs, addr := va, operand := v,
                                      cmp := k, mark := e.mark, n := code, q := if r then 0 else 1, fn := fn }
    let e := (e.send op).nextSeq
    let e := if r then e else e.pushS id 0
    let e := if o.getLsbD 0 then { e with x := ThreadSet.behind e.s e.x [id] } else e
    e.next

def execAmoAdd (a b : Reg) (w r m : Bool) (o : BitVec 2) (s : State) : Host.Outcome State Fault Refusal := amo 0 none a b w r m o s
def execAmoFadd (a b : Reg) (w r m : Bool) (o : BitVec 2) (s : State) : Host.Outcome State Fault Refusal := amo 1 none a b w r m o s
def execAmoMin (a b : Reg) (w r m : Bool) (o : BitVec 2) (s : State) : Host.Outcome State Fault Refusal := amo 2 none a b w r m o s
def execAmoMax (a b : Reg) (w r m : Bool) (o : BitVec 2) (s : State) : Host.Outcome State Fault Refusal := amo 3 none a b w r m o s
def execAmoMinu (a b : Reg) (w r m : Bool) (o : BitVec 2) (s : State) : Host.Outcome State Fault Refusal := amo 4 none a b w r m o s
def execAmoMaxu (a b : Reg) (w r m : Bool) (o : BitVec 2) (s : State) : Host.Outcome State Fault Refusal := amo 5 none a b w r m o s
def execAmoAnd (a b : Reg) (w r m : Bool) (o : BitVec 2) (s : State) : Host.Outcome State Fault Refusal := amo 6 none a b w r m o s
def execAmoOr (a b : Reg) (w r m : Bool) (o : BitVec 2) (s : State) : Host.Outcome State Fault Refusal := amo 7 none a b w r m o s
def execAmoXor (a b : Reg) (w r m : Bool) (o : BitVec 2) (s : State) : Host.Outcome State Fault Refusal := amo 8 none a b w r m o s
def execAmoSwap (a b : Reg) (w r m : Bool) (o : BitVec 2) (s : State) : Host.Outcome State Fault Refusal := amo 9 none a b w r m o s
def execAmoCas (c a b : Reg) (w r m : Bool) (o : BitVec 2) (s : State) : Host.Outcome State Fault Refusal := amo 10 (some c) a b w r m o s

end Sys2Proof.Machine
end

