-- ==== Sys2Proof/Machine/Branch.lean ====
section
/-!
DEFINITION. Branches (R276, R277), JAL (R321) and JR (R322).
-/

namespace Sys2Proof.Machine

open Sys2Proof

/-- Go to PC + 4 * SignExt(off) when taken, else to the next word. -/
def Exe.branch (e : Exe) (take : Bool) (off : Word) : Except Stop Exe :=
  if take then .ok { e with x := { e.x with pc := e.x.pc + 4 * off } } else e.next

/-- A branch on two scalar registers. -/
def branchCmp (rel : Word → Word → Bool) (a b : Reg) (o : BitVec 13) (s : State) : Host.Outcome State Fault Refusal :=
  issue s fun e => do
    let (x, e) ← e.srcS a
    let (y, e) ← e.srcS b
    e.branch (rel x y) (o.signExtend 64)

def execBeq (a b : Reg) (o : BitVec 13) (s : State) : Host.Outcome State Fault Refusal := branchCmp (fun x y => decide (x = y)) a b o s
def execBne (a b : Reg) (o : BitVec 13) (s : State) : Host.Outcome State Fault Refusal := branchCmp (fun x y => decide (x ≠ y)) a b o s
def execBlt (a b : Reg) (o : BitVec 13) (s : State) : Host.Outcome State Fault Refusal := branchCmp BitVec.slt a b o s
def execBge (a b : Reg) (o : BitVec 13) (s : State) : Host.Outcome State Fault Refusal := branchCmp (fun x y => !(BitVec.slt x y)) a b o s
def execBltu (a b : Reg) (o : BitVec 13) (s : State) : Host.Outcome State Fault Refusal := branchCmp BitVec.ult a b o s
def execBgeu (a b : Reg) (o : BitVec 13) (s : State) : Host.Outcome State Fault Refusal := branchCmp (fun x y => !(BitVec.ult x y)) a b o s

/-- BPA: any bit of the predicate; BPN: none. -/
def execBpa (p : BitVec 3) (o : BitVec 13) (s : State) : Host.Outcome State Fault Refusal :=
  issue s fun e => do
    let v ← e.srcP p
    e.branch (decide (v ≠ 0)) (o.signExtend 64)
def execBpn (p : BitVec 3) (o : BitVec 13) (s : State) : Host.Outcome State Fault Refusal :=
  issue s fun e => do
    let v ← e.srcP p
    e.branch (decide (v = 0)) (o.signExtend 64)

def execJal (d : Reg) (o : BitVec 21) (s : State) : Host.Outcome State Fault Refusal :=
  issue s fun e => do
    e.roomS d
    (e.putS d (e.x.pc + 4)).branch true (o.signExtend 64)

/-- JR: the target, before the link is written; ALIGN leaves the link unwritten. -/
def execJr (d a : Reg) (o : Half) (s : State) : Host.Outcome State Fault Refusal :=
  issue s fun e => do
    let (b, e) ← e.srcS a
    e.roomS d
    let t := offAddr b o 4
    Exe.aligned t 4
    let e := e.putS d (e.x.pc + 4)
    .ok { e with x := { e.x with pc := t } }

end Sys2Proof.Machine
end

