-- ==== Sys2Proof/Machine/Msg.lean ====
section
/-!
DEFINITION. Messages, tasks and launches at issue: SEND and SENDO (R106, R107, R351), SPAWN (R115, R126, R356), BARA (R273,
R274), LEND (R329), LNCH (R114, R331), and DONE (R105, R299) with the release of the send buffer.
-/

namespace Sys2Proof.Machine

open Sys2Proof

/-- The common scope of two cores (R153): 1 one core, 2 one bundle, 3 one die, 4 the device. -/
def commonScope (a b : CoreId) : Nat :=
  if a = b then 1
  else if !a.kernel && !b.kernel && decide (bundleOf a = bundleOf b) then 2
  else if dieOf a = dieOf b then 3
  else 4

/-- Put an entry into the send buffer of 32 (R105). -/
def Exe.buffer (e : Exe) (b : Buffered) : Except Stop Exe :=
  if 32 ≤ e.x.sbuf.length then trap .bound 0
  else .ok { e with x := { e.x with sbuf := e.x.sbuf ++ [b] } }

/-! ## SEND, SENDO -/

/-- A core that is present, or XLATE with TADDR the operand. -/
def Exe.present (e : Exe) (c : CoreId) (d : Word) : Except Stop CoreId := if e.s.coreAbsent c then trap .xlate d else .ok c

/-- The owner of an address (R107, R389). -/
def Exe.owner (e : Exe) (d : Word) : Except Stop CoreId :=
  let a := d.toNat
  if e.local d then .ok e.t.core
  else if scratchBase ≤ a ∧ a < kernelBase then e.present (cc ((a - scratchBase) / 2 ^ 18)) d
  else if kernelBase ≤ a ∧ a < scratchEnd then
    if e.t.core.kernel then e.present (kc ((a - kernelBase) / 2 ^ 20)) d else trap .xlate d
  else if e.t.core.kernel ∨ 2 ^ 48 ≤ a then trap .xlate d
  else match (e.s.translate (bundleOf e.t.core) e.a.ctx a).bind Leaf.aff with
    | none => trap .xlate d
    | some c => e.present (cc c) d

/-- The common part: the destination is checked and the message buffered. No thimble is checked on a kernel core (R389). -/
def Exe.sendTo (e : Exe) (t : CoreId) (h : Word) (kind : Nat) (sc : BitVec 3) (v : Vec) : Except Stop Exe := do
  let outside := !(e.s.inLaunch e.view t)
  if outside && !e.t.core.kernel && (e.s.endpoint? e.t.core t.idx).isNone then trap .gate (BitVec.ofNat 64 t.idx) else
  let dev := if outside && !e.t.core.kernel then e.remote t.idx else none
  let e ← e.buffer (.send t outside h kind sc.toNat ((v.setWidth 384).setWidth 512) dev)
  e.next

/-- The core that a SEND names: present, but for one of another device, which is not this device's to know (R106, R208). -/
def Exe.sendCore (e : Exe) (d : Word) : Except Stop CoreId :=
  let c := cc d.toNat
  if !e.t.core.kernel && !(e.s.inLaunch e.view c) && (e.remote c.idx).isSome then .ok c else e.present c d

def execSend (v a b : Reg) (sc : BitVec 3) (s : State) : Host.Outcome State Fault Refusal :=
  issue s fun e => do
    let (h, e) ← e.srcS a
    let (d, e) ← e.srcS b
    let (p, e) ← e.srcV v
    if 2 ^ 14 ≤ d.toNat then trap .xlate d else
    let t ← e.sendCore d
    e.sendTo t h 0 sc p

def execSendo (v a b : Reg) (sc : BitVec 3) (s : State) : Host.Outcome State Fault Refusal :=
  issue s fun e => do
    let (h, e) ← e.srcS a
    let (d, e) ← e.srcS b
    let (p, e) ← e.srcV v
    let t ← e.owner d
    e.sendTo t h 1 sc p

/-! ## SPAWN -/

/-- A Pile record from its 32 bytes (R124); `s2` is the source word its runs receive. -/
def pileRecOf (d : List Byte) (s2 : Word) : PileRec :=
  { hdr := w64 (sliceB d 0 8), index := w32 (sliceB d 8 4), gain := fieldB d 12 4, fpbase := w64 (sliceB d 16 8),
    fplen := fieldB d 24 4, arg := w32 (sliceB d 28 4), s2 := s2, running := false, p := 0, touched := false, deps := [] }

/-- The first byte of a range that fails with a cause. -/
def State.firstFail (s : State) (v : View) (r : BitVec 4) (c : Cause) : Nat → Word → Nat → Option Word
  | 0, _, _ => none
  | fuel + 1, va, len =>
    if len = 0 then none
    else
      let n := min len (32768 - va.toNat % 32768)
      let rest := s.firstFail v r c fuel (va + BitVec.ofNat 64 n) (len - n)
      match s.decideByte v va r with
      | .error d => if d = c then some va else rest
      | .ok _ => rest

/-- The check of a record in PILE mode, row by row of R126: XLATE anywhere comes before PROT anywhere (R356). No row names GATE: a thimble is asked at
the fetch (DESIGN CHOICE, log 44). -/
def Exe.spawnCheck (e : Exe) (l : Launch) (r : PileRec) : Except Stop Unit :=
  if r.fpbase.toNat % 64 ≠ 0 ∨ r.fplen % 64 ≠ 0 then trap .align r.fpbase
  else if 65536 < r.fplen ∨ l.fpa * 4096 < r.fplen then trap .bound r.fpbase
  else
    let need := if r.hdr.getLsbD 52 then rRD ||| rWR else rRD
    match [Cause.bound, .xlate, .prot].findSome? (fun c => (e.s.firstFail e.view need c 4 r.fpbase r.fplen).map (fun a => (c, a))) with
    | some (c, a) => trap c a
    | none => .ok ()

def execSpawn (v : Reg) (s : State) : Host.Outcome State Fault Refusal :=
  issue s fun e => do
    let (x, e) ← e.srcV v
    let d := leBytes 32 x.toNat
    match e.launch with
    | some l => if l.pile then e.spawnCheck l (pileRecOf d 0)
    | none => .ok ()
    let e ← e.buffer (.spawn d)
    e.next

/-! ## BARA, LEND -/

/-- The members of a group, by ordinal (R117): g0 is every core of the launch. -/
def Launch.members (l : Launch) (g : Nat) : List Nat :=
  if g = 0 then List.range l.n else Assoc.getD l.groups g []

/-- The core is a member of a group in use. -/
def Launch.member (l : Launch) (g : Nat) (c : CoreId) : Bool :=
  match l.ordinal c with
  | none => false
  | some o => if g = 0 then true else (Assoc.getD l.groups g []).contains o

def execBara (v a : Reg) (g : Byte) (r : BitVec 3) (s : State) : Host.Outcome State Fault Refusal :=
  issue s fun e => do
    let (h, e) ← e.srcS a
    let (x, e) ← e.srcV v
    if !((e.launch.map (fun l => l.member g.toNat e.t.core)).getD false) then trap .gate (g.setWidth 64) else
    let e ← e.buffer (.bara g.toNat r.toNat h x)
    e.next

def execLend (s : State) : Host.Outcome State Fault Refusal :=
  issue s fun e => do
    let e ← e.buffer .lend
    e.next

/-! ## LNCH -/

/-- The granted descriptor's blocks (R114): 64-byte aligned, in paged memory, with RD. -/
def Exe.descriptor (e : Exe) (d : Word) : Option (List Block) :=
  if d.toNat % 64 ≠ 0 ∨ !(prefPaged e d) then none
  else match e.s.check e.view d 64 rRD with
    | .ok bs => some bs
    | .error _ => none

/-- The most urgent level granted to a context (R189); Edoiny has no descriptor and no cap. -/
def State.grantLevel (s : State) (ctx : Half) : Nat := ((s.ctx ctx).map (fun c => bits c.grant 3 0)).getD 0

/-- Children in a die's pending-launch store: packets not taken, and launches of the die that wait there for a slot or for bundles (R111, R114,
R388). Launches of other sources wait in no store of a compute die (log 44). -/
def State.pendingOf (s : State) (die : Nat) : Nat :=
  (s.children.filter (fun c => decide (c.die = die))).length +
  (s.launches.filter (fun l => decide (l.src = .child die) && decide (l.state ≠ .running))).length

/-- A level as queues, contexts and packets hold it in four bits: 12 to 15, which no rule gives a meaning, count as 11 (log 35). -/
def levelOf (n : Nat) : Nat := min 11 (n % 16)

/-- Word 0 of a packet with its LEVEL replaced. -/
def withLevel (w : Word) (lv : Nat) : Word := (w &&& ~~~(0xF0#64)) ||| at64 (lv % 16) 4

/-- The 64-bit words of a vector. -/
def wordsOf (v : Vec) : List Word := [0, 8, 16, 24, 32, 40, 48, 56].map (vWord v)

def execLnch (v a : Reg) (s : State) : Host.Outcome State Fault Refusal :=
  issue s fun e => do
    let (d, e) ← e.srcS a
    let (x, e) ← e.srcV v
    e.roomLdq 1
    e.waitReplay
    e.waitTokens
    e.waitRelease
    match e.descriptor d with
    | none => (e.pushVal 1).next
    | some bs =>
      if anyNr bs then stall .held else
      let die := dieOf e.t.core
      if 256 ≤ e.s.pendingOf die then (e.pushVal 2).next else
      let q := e.s.rdBlocks bs
      let lv := max (levelOf (fieldB q 0x28 8)) (levelOf (e.s.grantLevel e.a.ctx))
      let ws := wordsOf x
      let c : Child := { id := e.s.nextId, die := die, t := e.t, ctx := e.a.ctx, slots := w64 (sliceB q 0x20 8), deps := [],
                         words := withLevel ((ws[0]?).getD 0) lv :: ws.drop 1 }
      ((e.pushVal 0).onState (fun s => { s with children := s.children ++ [c], nextId := s.nextId + 1 })).next

/-! ## The release of the send buffer (R105, R119, R162, R240) -/

/-- An operation of a thread set outside an instruction's issue. -/
def newOp (s : State) (t : TsId) (a : Activation) (k : OpKind) : Op :=
  { id := s.nextId, t := t, ctx := a.ctx, lid := a.lid, kind := k, segs := [], dst := [], pages := [], data := [], seq := (s.tsGet t).oseq,
    fn := 0, addr := 0, operand := 0, cmp := 0, mark := 0, n := 0, q := 0, width := 0, signed := false, held := false, parked := false,
    dead := none, vec := 0, hdr := 0, deps := [], mst := 0 }

/-- The deque of an ordinal: the far end's slot and the records from there on. -/
def Launch.deque (l : Launch) (o : Nat) : Nat × List DqRec := Assoc.getD l.deques o (0, [])
def Launch.setDeque (l : Launch) (o : Nat) (d : Nat × List DqRec) : Launch := { l with deques := Assoc.set l.deques o d }

/-- Header word 1 of a task, its scope still to be filled (R101). -/
def taskW1 (t : TsId) (lid : Half) : Word := header1 t.core.idx t.ts 0 lid 0 3 false t.core.kernel

/-- A payload of 24 argument bytes. -/
def argPay (d : List Byte) : Vec := vec512 (sliceB d 8 24)

/-- A task record goes to the core's own basket (R115). -/
def State.spawnSelf (s : State) (t : TsId) (a : Activation) (deps : List Nat) (d : List Byte) : State :=
  let m : Msg := { w0 := deliverW0 (w64 (sliceB d 0 8)), w1 := taskW1 t (a.lid.getD 0) ||| at64 1 48, pay := argPay d }
  (s.countAt a.lid t.core 1).post { id := 0, dst := t.core, src := some t, msg := m, ctx := a.ctx, lid := a.lid, counted := a.lid.isSome,
                                    outside := false, deps := deps, held := false }

/-- Push a record at the owner end of a deque; its bytes also stand in the deque area (log 16). -/
def State.dequePush (s : State) (l : Launch) (c : CoreId) (o : Nat) (r : DqRec) : State :=
  let (far, rs) := l.deque o
  let s := s.wr (scratchBus c (s.areaBase l (bundleOf c) + 32 * ((far + rs.length) % 256))) r.bytes
  s.onLaunch (some l.lid) (fun l => l.setDeque o (far, rs ++ [r]))

/-- Release one buffered operation; LEND begins the token's round again, so that the clean one comes after it (R121, R134). `grp` names the releasing DONE or TRET (R240). -/
def State.releaseOne (t : TsId) (a : Activation) (deps : List Nat) (grp : Nat) (s : State) (b : Buffered) : State :=
  match b with
  | .send dst outside w0 kind scope pay dev =>
    let x := s.tsGet t
    let m : Msg := { w0 := deliverW0 w0, w1 := header1 t.core.idx t.ts (x.mseq.toNat % 65536) (a.lid.getD 0) scope kind false t.core.kernel, pay := pay }
    let s := s.tsSet t { x with mseq := x.mseq + 1 }
    let s := if outside then s else s.countAt a.lid t.core 1
    s.post { id := 0, dst := dst, src := some t, msg := m, ctx := a.ctx, lid := if outside then none else a.lid, counted := !outside,
             outside := outside, deps := deps, held := false, dev := dev }
  | .spawn d =>
    match a.lid.bind s.launch with
    | none => s.spawnSelf t a deps d
    | some l =>
      if l.pile then
        let r := pileRecOf d (taskW1 t l.lid)
        let home := (l.bundles[r.index.toNat % max 1 l.bundles.length]?).getD 0
        let s := s.countAt a.lid t.core 1
        { s with pnet := s.pnet ++ [(s.nextId, .spawn l.lid home r deps grp none)], nextId := s.nextId + 1 }
      else
        let o := (l.ordinal t.core).getD 0
        if 256 ≤ (l.deque o).2.length then s.spawnSelf t a deps d
        else s.dequePush l t.core o { bytes := d, s2 := taskW1 t l.lid, deps := deps }
  | .bara g red hdr vec =>
    match a.lid.bind s.launch with
    | none => s
    | some l =>
      let o := (l.ordinal t.core).getD 0
      let k := ((l.epochs.find? (fun e => decide (e.1 = g) && decide (e.2.1 = o))).map (fun e => e.2.2)).getD 0 + 1
      let x := s.tsGet t
      let op : Op := { newOp s t a .bara with n := g, width := red, hdr := hdr, vec := vec, deps := deps, mark := markOf a.ctx t x.oseq,
                                              addr := BitVec.ofNat 64 g, operand := BitVec.ofNat 64 k,
                                              fn := BitVec.ofNat 11 (g % 8 * 256 + red * 32) }
      let s := (s.tsSet t { x with oseq := x.oseq + 1 }).countAt a.lid t.core 1
      let s := s.onLaunch a.lid (fun l => { l with epochs := (g, o, k) :: l.epochs.filter (fun e => !(decide (e.1 = g) && decide (e.2.1 = o))) })
      { s with ops := s.ops ++ [op], nextId := s.nextId + 1 }
  | .lend => s.onLaunch a.lid (fun l => { l with lend := true, token := l.token.again })

/-- Release the whole send buffer, in program order. -/
def State.releaseAll (s : State) (t : TsId) (a : Activation) : State :=
  let deps := s.cumulative t
  let x := s.tsGet t
  let grp := s.nextId
  let s := { (s.tsSet t { x with sbuf := [] }) with nextId := s.nextId + 1 }
  let s := x.sbuf.foldl (State.releaseOne t a deps grp) s
  let x := s.tsGet t
  s.tsSet t { x with rel := x.rel.filter (fun d => s.pending d) ++ deps }

/-- The Pile record of an activation leaves its run, or goes back to ready (R133); its next dispatch is a re-delivery after a retry only. -/
def State.retirePile (s : State) (t : TsId) (a : Activation) (back mark : Bool) : State :=
  match a.origin, a.lid with
  | .pile r home run, some lid =>
    let r : PileRec := { r with s2 := if mark then r.s2 ||| at64 1 55 else r.s2 &&& ~~~(at64 1 55) }
    { s with pnet := s.pnet ++ [(s.nextId, .retire lid home r back t run)], nextId := s.nextId + 1 }
  | _, _ => s

/-- The thread set becomes free; values still to come are discarded (R92, R299). -/
def State.freeTs (s : State) (t : TsId) : State :=
  { (s.tsSet t (s.tsGet t).free) with ops := s.ops.map (fun o => if o.t = t then { o with q := 0 } else o) }

/-! ## Steal requests (R116) -/

/-- A core of a frozen or freezing bundle. -/
def State.frozenFor (s : State) (c : CoreId) (ctx : Half) : Bool := (s.frozenImg c ctx).isSome || s.freezingOn c ctx

/-- A thread set with nothing reserved for it. -/
def State.idleTs (s : State) (t : TsId) : Bool :=
  (s.tsGet t).act.isNone && s.pnet.all (fun e => match e.2 with
    | .fetch _ x _ _ | .stealReq _ _ _ x _ | .stealReply _ _ x _ _ _ => decide (x ≠ t)
    | _ => true)

/-- No further activation of the launch starts there: LEND, or a freeze of its context (R121, R184). -/
def State.open (s : State) (l : Launch) (c : CoreId) : Bool := l.holds c && !l.lend && !(s.frozenFor c l.ctx)

/-- Idle for stealing: four free thread sets, no message of the launch, an empty deque (R116). -/
def State.idleForSteal (s : State) (l : Launch) (o : Nat) : Bool :=
  let c := l.coreAt o
  s.open l c && (threadsOf c).all s.idleTs && decide ((s.core c).held l.lid = 0) && (l.deque o).2.isEmpty

/-- Victims in order: the other cores of the thief's bundle, then the launch's other bundles, starting after its own. -/
def Launch.victims (l : Launch) (o : Nat) : List Nat :=
  let b := o / 8
  (List.range 8).filterMap (fun i => if 8 * b + i = o then none else some (8 * b + i)) ++
  (List.range (l.bundles.length - 1)).flatMap (fun k => (List.range 8).map (fun i => 8 * ((b + 1 + k) % l.bundles.length) + i))

/-- An idle core with no request outstanding asks its next victim, while the launch has a record to steal. A core that has got a record goes on, when
it is idle again, at the victim after the one that gave it (log 44). -/
def State.sendSteal (s : State) (lid : Half) (o : Nat) : State :=
  match s.launch lid with
  | none => s
  | some l =>
    if l.pile || l.stealOut.contains o || !(s.idleForSteal l o) || l.deques.all (fun d => d.2.2.isEmpty) then s
    else
      let vs := l.victims o
      let k := Assoc.getD l.steals o 0 % max 1 vs.length
      match vs[k]? with
      | none => s
      | some v =>
        let s := s.setLaunch { l with stealOut := o :: l.stealOut, steals := Assoc.set l.steals o (k + 1) }
        { s with snet := s.snet ++ [(s.nextId, .request lid o v)], nextId := s.nextId + 1 }

/-- Every idle core of a launch asks. -/
def State.sendSteals (s : State) (lid : Half) : State :=
  match s.launch lid with
  | none => s
  | some l => if l.pile || l.deques.all (fun d => d.2.2.isEmpty) then s else (List.range l.n).foldl (fun s o => s.sendSteal lid o) s

/-- The launches that hold a core: it may have become idle for each (R116). -/
def State.askAll (s : State) (c : CoreId) : State := (s.launches.filter (fun l => l.holds c)).foldl (fun s l => s.sendSteals l.lid) s

/-- The first lost access whose value nothing has popped (R81). -/
def lostAddr {α : Type} : List (LdE α) → Option Word
  | [] => none
  | .bad .xlate a :: _ => some a
  | _ :: r => lostAddr r

/-- The activation ends although a lost access was never popped: the context is killed (R81). -/
def ThreadSet.lost (x : ThreadSet) : Option Word :=
  match lostAddr x.slq with
  | some a => some a
  | none => lostAddr x.vlq

/-- The basting record has room for the barrier arrivals that a release would enter (R191). -/
def Exe.roomArrivals (e : Exe) : Except Stop Unit :=
  let n := (e.x.sbuf.filter (fun b => match b with | .bara _ _ _ _ => true | _ => false)).length
  if n ≠ 0 ∧ 64 < (e.s.ops.filter (fun o => decide (o.t = e.t) && o.basted)).length + n then stall .record else .ok ()

/-- A wait of DONE, which is a freeze point (R182). -/
def atDone (r : Except Stop Unit) : Except Stop Unit :=
  match r with
  | .error (.stall .release) => stall .done
  | .error (.stall .held) => stall .doneHeld
  | r => r

def execDone (s : State) : Host.Outcome State Fault Refusal :=
  issue s fun e => do
    if e.x.tlev ≠ 0 then trap .illop 0 else
    if !(e.x.ssq.isEmpty && e.x.vsq.isEmpty) then trap .qdead 0 else
    atDone e.waitTokens
    atDone e.waitReplay
    atDone e.waitGains
    e.roomArrivals
    match e.x.lost with
    | some va => .ok (e.onState (fun s => s.killByTrap e.t Cause.xlate.code va))
    | none => .ok (e.onState (fun s =>
        let s := (s.releaseAll e.t e.a).retirePile e.t e.a false false
        ((s.onLaunch e.a.lid (fun l => { l with acts := l.acts + 1 })).freeTs e.t).askAll e.t.core))

end Sys2Proof.Machine
end

