-- ==== Sys2Proof/Machine/Pages.lean ====
section
/-!
DEFINITION. Context pages: the context page table (R69 to R72), reference counts (R73), release and the handing on of frames
(R76, R245, R246), detaching (R74), token marks (R37), and the programs that wait for pages and frames (R49, R54).
-/

namespace Sys2Proof.Machine

open Sys2Proof

/-! ## Programs -/

def State.prog (s : State) (slot : Nat) : Option Prog := s.progs.find? (fun p => decide (p.slot = slot))
def State.onProg (s : State) (slot : Nat) (f : Prog → Prog) : State :=
  { s with progs := s.progs.map (fun p => if p.slot = slot then f p else p) }

/-- Record a state change: the program moves to the end of the list (R68). One that becomes READY other than from a step
launch enters the tail of its level's queue (R49; log 31). -/
def State.setPState (s : State) (slot : Nat) (st : PState) (tail : Bool) : State :=
  match s.prog slot with
  | none => s
  | some p =>
    let p : Prog := { p with state := st }
    let p : Prog := if tail then { p with place := s.nextId, qy := 0 } else p
    { s with progs := s.progs.filter (fun q => decide (q.slot ≠ slot)) ++ [p], nextId := s.nextId + 1 }

/-- STAT of a program (R24). -/
def PState.code : PState → Nat
  | .ready => 0 | .batched => 1 | .parked => 2 | .awaiting => 3 | .done => 4 | .killed => 5
def Prog.stat (p : Prog) : Word := at64 p.state.code 0 ||| at64 p.level 4 ||| at64 p.fault 8 ||| at64 p.retstk.length 16

/-- The return stack, RETSTK[0] first. -/
def Prog.retWords (p : Prog) : List Nat := p.retstk.reverse ++ ((p.retw ++ List.replicate 16 0).take 16).drop p.retstk.length
/-- GOSUB: the next instruction's index enters RETSTK at the depth (R25, R24). -/
def Prog.gosub (p : Prog) : Prog :=
  { p with retstk := (p.pc + 1) :: p.retstk, retw := ((p.retw ++ List.replicate 16 0).take 16).set p.retstk.length (p.pc + 1) }

/-- The fields of an agent state block below TLEN (R24); KREQ is write-only and reads 0 (R7). -/
def Prog.head (p : Prog) : List Byte :=
  leBytes 8 p.pimg.toNat ++ leBytes 8 p.pc ++ leBytes 8 p.stat.toNat ++ List.replicate 8 0 ++ leBytes 8 p.retn.toNat ++
  leBytes 8 p.scratch.toNat ++ leBytes 8 p.p0.toNat ++ leBytes 8 p.p1.toNat ++
  (p.a.take 16).flatMap (fun x => leBytes 8 x.toNat) ++ (p.c.take 16).flatMap (fun x => leBytes 8 x.toNat) ++
  (p.retWords.take 16).flatMap (leBytes 4)

/-- Bring an agent state block up to date (R25). Token slots at or beyond a string's length, whose content R25 leaves undefined, keep the bytes that they
hold (DESIGN CHOICE, log 44, on R25). -/
def State.syncBlock (s : State) (slot : Nat) : State :=
  match s.prog slot with
  | none => s
  | some p =>
    let s := s.wrPhys p.sblk p.head
    let s := s.wrPhys (p.sblk + 0x200) ((p.t.take 16).flatMap (fun x => leBytes 8 x.length))
    (p.t.take 16).zipIdx.foldl (fun s x =>
      if x.1.isEmpty then s else s.wrPhys (p.sblk + 0x1000 + 0x4000 * x.2) (x.1.flatMap (fun w => leBytes 4 w.toNat))) s

/-- The state block as admission writes it (R24). -/
def State.clearBlock (s : State) (slot : Nat) : State :=
  match s.prog slot with
  | none => s
  | some p => (if s.absentCh.isEmpty then s.zeroRange p.sblk 0x41000 else s.wr p.sblk (List.replicate 0x41000 0)).syncBlock slot

/-! ## Entries (R70) -/

def PageE.none : PageE :=
  { loc := 0, res := 0, fill := 0, mgen := 0, refc := 0, infl := 0, hold := 0, img := 0, used := false, lastUse := 0, target := 0,
    move := 0, lines := 0, retried := false }

def State.page (s : State) (pti : Nat) : PageE := Assoc.getD s.pages pti PageE.none

def PageE.bytes (e : PageE) : List Byte :=
  leBytes 8 (at64 e.loc 0 ||| at64 e.res 40 ||| at64 e.fill 42 ||| at64 e.mgen 48).toNat ++
  leBytes 8 (at64 e.refc 0 ||| at64 e.infl 24 ||| at64 e.hold 40 ||| at64 e.img.toNat 48).toNat

/-- Write an entry; the table in stack memory shows it. -/
def State.setPage (s : State) (pti : Nat) (e : PageE) : State :=
  ({ s with pages := Assoc.set s.pages pti e }).wrPhys (s.ptBase + 16 * pti) e.bytes

def State.image (s : State) (id : Half) : Option Image := s.images.find? (fun m => decide (m.id = id))
/-- Page size of an image in units of 64 KiB. -/
def State.pageUnits (s : State) (img : Half) : Nat := ((s.image img).map Image.pages).getD 1
def State.kvl (s : State) (img : Half) : Nat := ((s.image img).map Image.kvl).getD 1
/-- Physical address of a resident page's frame. -/
def PageE.frame (e : PageE) : Nat := e.loc % 2 ^ 24 * 65536
/-- Physical address of the id word of position `q` of a frame (R298). -/
def State.idWord (s : State) (e : PageE) (q : Nat) : Nat := e.frame + 65536 * s.pageUnits e.img - 64 + 4 * (q % 16)

def State.freeEntries (s : State) : Nat := s.ptSize - (s.pages.filter (fun e => e.2.used)).length

/-- The first of consecutive indexes modulo `m`, from `i` on, that `bad` does not name. -/
def firstFree (m : Nat) (bad : Nat → Bool) : Nat → Nat → Option Nat
  | 0, _ => none
  | n + 1, i => if bad (i % m) then firstFree m bad n (i + 1) else some (i % m)

/-- A free entry. Which one is not specified: the search starts at a free value (log 3). -/
def State.allocPti (s : State) : Option Nat :=
  if s.ptSize = 0 then none
  else firstFree s.ptSize (fun i => (s.page i).used || decide ((s.page i).infl ≠ 0)) (s.pages.length + 1) (Config.freeWord s.fresh).toNat

/-- Allocate an entry for a frame: MGEN is incremented (R72, R73). `use` is the last use of what it holds (R53). -/
def State.newPage (s : State) (img : Half) (frame refc fill hold use : Nat) : Option (State × Nat) :=
  match s.allocPti with
  | none => none
  | some i =>
    let e : PageE := { PageE.none with loc := frame, fill := fill, mgen := ((s.page i).mgen + 1) % 65536, refc := refc, hold := hold,
                                       img := img, used := true, lastUse := use }
    some (({ s with fresh := s.fresh + 1 } : State).setPage i e, i)

/-! ## Frames (R245) -/

def State.heldFrames (s : State) (slot : Nat) : List (Nat × Nat) := (s.reserved.filter (fun r => decide (r.1 = slot))).map Prod.snd

/-- Those of one page size, in 64 KiB units. -/
def State.framesOf (s : State) (slot units : Nat) : List (Nat × Nat) := (s.heldFrames slot).filter (fun f => decide (f.2 = units))

/-- Take the first frame of a page size reserved for a program. -/
def State.takeFrame (s : State) (slot units : Nat) : Option (State × Nat) :=
  match s.framesOf slot units with
  | [] => none
  | f :: _ => some ({ s with reserved := s.reserved.erase (slot, f) }, f.1)

/-- What a parked program waits for has come (R49). -/
def State.parkMet (s : State) (p : Prog) (w : ParkWait) : Bool :=
  match w with
  | .pages l => l.all (fun i => decide ((s.page i).res = 0))
  | .frames cid n => decide (n ≤ (s.framesOf p.slot (((Assoc.get s.lctx cid).map (fun c => s.pageUnits c.img)).getD 1)).length)
  | .entries n => decide (n ≤ s.freeEntries)
  | .image va =>
    match s.granted p.nctx va 1 rRD true with
    | .ok bs => !(anyNr bs)
    | .error _ => true

/-- Wait of a program for frames, if it is parked for more than it holds: the page size it needs. -/
def State.wantsFrame (s : State) (p : Prog) (units : Nat) : Bool :=
  decide (p.state = .parked) && p.park.any (fun w => match w with
    | .frames cid n => decide ((s.framesOf p.slot units).length < n) && decide (((Assoc.get s.lctx cid).map (fun c => s.pageUnits c.img)).getD 1 = units)
    | _ => false)

/-- Of programs in order of parking, the first of the most urgent level. -/
def mostUrgent : List Prog → Option Prog
  | [] => none
  | p :: r => match mostUrgent r with
    | none => some p
    | some q => if q.level < p.level then some q else some p

/-- A frame that becomes free goes to a parked program that waits for one, or to the pool (R245); a retired channel's does not (R22). -/
def State.handFrame (s : State) (frame units : Nat) : State :=
  if s.noChannel (frame * 65536) then s
  else match mostUrgent (s.progs.filter (fun p => s.wantsFrame p units)) with
  | some p => { s with reserved := s.reserved ++ [(p.slot, frame, units)] }
  | none => { s with freeFrames := s.freeFrames ++ (List.range units).map (fun i => frame + i) }

/-- The reservations of a program are given up. -/
def State.dropFrames (s : State) (slot : Nat) : State :=
  let fs := s.heldFrames slot
  let s := { s with reserved := s.reserved.filter (fun r => decide (r.1 ≠ slot)) }
  fs.foldl (fun s f => s.handFrame f.1 f.2) s

/-! ## Release (R76) -/

/-- What a page occupies in a tier returns to its pool: a frame, host slots, or blocks. -/
def State.giveTier (s : State) (tier loc units : Nat) : State :=
  match tier with
  | 0 => s.handFrame loc units
  | 1 => { s with usedHost := s.usedHost.filter (fun x => decide (x < loc ∨ loc + units ≤ x)) }
  | _ => { s with usedBlocks := s.usedBlocks.erase loc, shelf := Assoc.del s.shelf loc }

/-- The tiers that a move of R77 leads from and to: 0 frame, 1 host slots, 2 blocks. -/
def PageE.tiers (e : PageE) : Nat × Nat :=
  match e.move with
  | 0 => (0, 1)
  | 1 => (1, 2)
  | 2 => (1, 0)
  | _ => (2, 0)

/-- Release an entry whose REFC, HOLD and INFL are 0. Of one that is moving, both places return to their pools, and the move ends. -/
def State.release (s : State) (pti : Nat) : State :=
  let e := s.page pti
  if !e.used ∨ e.refc ≠ 0 ∨ e.hold ≠ 0 ∨ e.infl ≠ 0 then s
  else
    let units := s.pageUnits e.img
    let s := s.setPage pti { PageE.none with mgen := (e.mgen + 1) % 65536 }
    if e.res = 3 then (s.giveTier e.tiers.1 e.loc units).giveTier e.tiers.2 e.target units else s.giveTier e.res e.loc units

/-- Change an entry in one update. -/
def State.onPage (s : State) (pti : Nat) (f : PageE → PageE) : State := s.setPage pti (f (s.page pti))

/-! ## Contexts (R69, R73) -/

def LCtx.empty : LCtx :=
  { gen := 1, quar := false, live := false, len := 0, tail := 0, base := 0, img := 0, list := [], creator := 0, pin := false, busy := none, detach := none }
def State.lc (s : State) (cid : Nat) : LCtx := Assoc.getD s.lctx cid LCtx.empty
/-- Where Edoiny keeps a context's page list: 65,536 words for the longest context (R69). -/
def State.pageListAt (s : State) (cid : Nat) : Nat := s.listBase + 2 ^ 18 * cid
/-- Write a context; the words of its page list stand in stack memory (R69). -/
def State.setLc (s : State) (cid : Nat) (c : LCtx) : State :=
  let t : State := { s with lctx := Assoc.set s.lctx cid c }
  if c.list.isEmpty ∨ (s.lc cid).list = c.list then t else t.wrPhys c.base (c.list.flatMap (leBytes 4))
def State.onLc (s : State) (cid : Nat) (f : LCtx → LCtx) : State := s.setLc cid (f (s.lc cid))

/-- A handle (R26). -/
def handle (cid gen : Nat) : Word := at64 cid 0 ||| at64 gen 32 ||| at64 1 63

/-- The context that a handle names: LIVE, and not stale (R27). -/
def State.named (s : State) (h : Word) : Option Nat :=
  if h.getLsbD 63 && (s.lc (bits h 17 0)).live && decide ((s.lc (bits h 17 0)).gen = bits h 47 32) then some (bits h 17 0) else none

def State.liveCtxs (s : State) : Nat := (s.lctx.filter (fun c => c.2.live)).length

/-- A free context id; the choice is unspecified (R293). -/
def State.freeCid (s : State) : Option Nat :=
  if Config.maxContexts ≤ s.liveCtxs then none
  else firstFree Config.maxContexts (fun i => (s.lc i).live || (s.lc i).quar) (s.lctx.length + 1) (Config.freeWord s.fresh).toNat

/-- CTXNEW's step (R293). -/
def State.ctxNew (s : State) (img : Half) (slot : Nat) : Option (State × Word) :=
  match s.freeCid with
  | none => none
  | some g =>
    let c : LCtx := { LCtx.empty with gen := (s.lc g).gen, live := true, base := s.pageListAt g, img := img, creator := slot }
    some (({ s with fresh := s.fresh + 1 } : State).setLc g c, handle g c.gen)

/-- CTXFORK's step (R73, R291). -/
def State.ctxFork (s : State) (src slot : Nat) : Option (State × Word) :=
  match s.freeCid with
  | none => none
  | some g =>
    let b := s.lc src
    let c : LCtx := { LCtx.empty with gen := (s.lc g).gen, live := true, base := s.pageListAt g, img := b.img, creator := slot, len := b.len, tail := b.tail, list := b.list }
    let s := ({ s with fresh := s.fresh + 1 } : State).setLc g c
    some (b.list.foldl (fun s i => s.onPage i (fun e => { e with refc := e.refc + 1 })) s, handle g c.gen)

/-- The end of a generation at 0xFFFF (R28): every copy of the handle reads LIVE 0, and the id starts again at 1. -/
def State.quarantine (s : State) (cid : Nat) : State :=
  let dead := fun (h : Word) => if h.getLsbD 63 && decide (bits h 17 0 = cid) then h &&& ~~~(at64 1 63) else h
  let deadE := fun (m : MboxE) => if m.cls = 1 then { m with val := dead m.val } else m
  let s := { s with progs := s.progs.map (fun (p : Prog) => { p with c := p.c.map dead, mbox := p.mbox.map deadE }) }
  s.onLc cid (fun c => { c with gen := 1, quar := false })

/-- CTXDROP's step (R73, R246): pins and counts fall in list order, then releases follow in list order. -/
def State.ctxDrop (s : State) (cid : Nat) : State :=
  let c := s.lc cid
  if !c.live then s
  else
    let s := c.list.foldl (fun s i => s.onPage i (fun e => { e with refc := e.refc - 1, hold := if c.pin then e.hold - 1 else e.hold })) s
    let last := decide (c.gen = 0xFFFF)
    let s := s.setLc cid { LCtx.empty with gen := if last then c.gen else c.gen + 1, quar := last }
    let s := if last then s.quarantine cid else s
    c.list.foldl State.release s

/-! ## Detaching (R74) -/

/-- Copy the lines of positions 0 to f - 1, and their ids, from a frame to another. -/
def State.copyLines (s : State) (img : Half) (src dst f : Nat) : State :=
  let s := s.wrPhys (dst * 65536) (s.rd (src * 65536) (64 * s.kvl img * f))
  let e := 65536 * s.pageUnits img - 64
  s.wrPhys (dst * 65536 + e) (s.rd (src * 65536 + e) (4 * f))

/-- Replace word `i` of a context's list; its pin moves with it. -/
def State.relist (s : State) (cid i : Nat) (pti : Nat) : State :=
  let c := s.lc cid
  let s := if c.pin then s.onPage ((c.list[i]?).getD 0) (fun e => { e with hold := e.hold - 1 }) else s
  s.setLc cid { c with list := c.list.set i pti, detach := none }

/-- Step 1 of a detach: the old entry's count falls, a copy holds it, and a record is set (R74, R75). -/
def State.detachBegin (s : State) (cid i f frame : Nat) : State :=
  let pti := ((s.lc cid).list[i]?).getD 0
  let s := s.onPage pti (fun e => { e with refc := e.refc - 1, hold := e.hold + 1 })
  s.onLc cid (fun c => { c with detach := some { pti := pti, word := i, f := f, frame := frame, copied := false, newPti := none } })

/-- Steps 2 to 5, for every context that takes the copy. The new page's last use is the old one's: last use is a stamp kept with a page, which stays when
a context lists it no longer (DESIGN CHOICE, log 44, on R53). -/
def State.detachEnd (s : State) (cids : List Nat) (d : Detach) : State :=
  let e := s.page d.pti
  let s := s.copyLines e.img e.loc d.frame d.f
  let pins := (cids.filter (fun c => (s.lc c).pin)).length
  match s.newPage e.img d.frame cids.length d.f pins e.lastUse with
  | none => s
  | some (s, new) =>
    let s := cids.foldl (fun s c => s.relist c d.word new) s
    (s.onPage d.pti (fun e => { e with hold := e.hold - 1 })).release d.pti

/-- A detach for contexts that take one copy, done whole: the old count falls by their number (R57, R74). -/
def State.detachWhole (s : State) (cids : List Nat) (i f frame : Nat) : State :=
  match cids with
  | [] => s
  | c :: _ =>
    let pti := ((s.lc c).list[i]?).getD 0
    let s := s.onPage pti (fun e => { e with refc := e.refc - cids.length, hold := e.hold + 1 })
    s.detachEnd cids { pti := pti, word := i, f := f, frame := frame, copied := false, newPti := none }

/-- A kill undoes a detach whose record is set (R75). -/
def State.detachUndo (s : State) (cid : Nat) : State :=
  match (s.lc cid).detach with
  | none => s
  | some d =>
    let img := (s.page d.pti).img
    let s := match d.newPti with
      | none => s
      | some i => s.setPage i { PageE.none with mgen := ((s.page i).mgen + 1) % 65536 }
    let s := s.onPage d.pti (fun e => { e with refc := e.refc + 1, hold := e.hold - 1 })
    let s := s.onLc cid (fun c => { c with detach := none })
    s.handFrame d.frame (s.pageUnits img)

/-! ## Token marks (R37) -/

def tokenMark (cid pos mgen : Nat) : Word := at64 cid 46 ||| at64 pos 26 ||| at64 mgen 10

inductive MarkEnd where
  | applied | duplicate | stale | order
  deriving DecidableEq, Repr

/-- A write under a token mark at the page's owner: line `line` of the position. When every line has been accepted FILL rises, and the token
id is written (R37, R298). -/
def State.markWrite (s : State) (mark : Word) (line : Nat) (d : List Byte) (token : Word32) : State × MarkEnd :=
  let pos := bits mark 45 26
  let c := s.lc (bits mark 63 46)
  match c.list[pos / 16]? with
  | none => (s, .stale)
  | some pti =>
    let e := s.page pti
    let q := pos % 16
    if e.mgen ≠ bits mark 25 10 ∨ e.res ≠ 0 ∨ !e.used ∨ s.kvl e.img ≤ line then (s, .stale)
    else if q < e.fill then (s, .duplicate)
    else if e.fill < q then ({ s with reports := .pageOrder mark :: s.reports }, .order)
    else
      let n := s.kvl e.img
      let s := s.wrPhys (e.frame + 64 * (n * q + line)) (sliceB d 0 64)
      let got := e.lines ||| 2 ^ line
      if got % 2 ^ n ≠ 2 ^ n - 1 then (s.setPage pti { e with lines := got }, .applied)
      else
        let s := s.wrPhys (s.idWord e q) (leBytes 4 token.toNat)
        (s.setPage pti { e with fill := e.fill + 1, lines := 0 }, .applied)

/-! ## What a step needs (R52, R54, R247) -/

/-- The positions that `n` steps on a context of length `len` write: the first, and one past the last. -/
def writes (len n : Nat) : Nat × Nat := (len - 1, len + n - 1)

structure Need where
  absent : List Nat     -- pages not resident
  frames : Nat
  entries : Nat
  detach : Bool
  deriving DecidableEq, Repr

/-- What `n` steps on a context need; `share` contexts take the steps together (R57). -/
def State.need (s : State) (cid n share : Nat) : Need :=
  let c := s.lc cid
  let (lo, hi) := writes c.len n
  let fresh := (hi + 15) / 16 - (lo + 15) / 16
  let det := decide (lo < hi) && decide (lo % 16 ≠ 0) && c.detach.isNone && decide (share < (s.page ((c.list[lo / 16]?).getD 0)).refc)
  { absent := c.list.filter (fun i => decide ((s.page i).res ≠ 0)),
    frames := fresh + (if det then 1 else 0), entries := fresh + (if det then 1 else 0), detach := det }

/-- What is missing for a program's next `n` steps: nothing, or what it parks for. The frames of a chunk are reserved before it is placed: the copy
frame of a detach, and one for every page that the chunk creates (R247). Of entries it needs those of its next step: a later step that finds none
parks the program then (R54). -/
def State.missing (s : State) (slot cid n share : Nat) : List ParkWait :=
  let x := s.need cid n share
  (if x.absent.isEmpty then [] else [.pages x.absent]) ++
  (if (s.framesOf slot (s.pageUnits (s.lc cid).img)).length < x.frames then [.frames cid x.frames] else []) ++
  (let first := (s.need cid (min n 1) share).entries
   if s.freeEntries < first then [.entries first] else [])

end Sys2Proof.Machine
end

