-- ==== Sys2Proof/Machine/Gain.lean ====
section
/-!
DEFINITION. GSET, GADD, GMAX and GGET at issue (R129, R309 to R311). What the home engine does stands in PileEvents.
-/

namespace Sys2Proof.Machine

open Sys2Proof

/-- The launch must be in PILE mode, or GATE with TADDR the index. -/
def Exe.inPile (e : Exe) (x : Word) : Except Stop Unit :=
  if (e.launch.map Launch.pile).getD false then .ok () else trap .gate x

/-- The index: bits [31:0]. -/
def low32 (x : Word) : Word := (x.setWidth 32).setWidth 64

/-- An update on its way to the home engine of its index; `op` is 0 GSET, 1 GADD, 2 GMAX. -/
def gain (op : Nat) (a b : Reg) (m : Bool) (s : State) : Host.Outcome State Fault Refusal :=
  issue s fun e => do
    let (x, e) ← e.srcS a
    let (v, e) ← e.srcS b
    let x := low32 x
    e.inPile x
    e.roomRecord
    let o : Op := { e.mkOp .gain with addr := x, operand := v, mark := e.mark, n := op, fn := BitVec.ofNat 11 ((if m then 4 else 0) + op) }
    ((e.send o).nextSeq).next

def execGset (a b : Reg) (m : Bool) (s : State) : Host.Outcome State Fault Refusal := gain 0 a b m s
def execGadd (a b : Reg) (m : Bool) (s : State) : Host.Outcome State Fault Refusal := gain 1 a b m s
def execGmax (a b : Reg) (m : Bool) (s : State) : Host.Outcome State Fault Refusal := gain 2 a b m s

def execGget (a : Reg) (s : State) : Host.Outcome State Fault Refusal :=
  issue s fun e => do
    let (x, e) ← e.srcS a
    let x := low32 x
    e.roomLdq 1
    e.inPile x
    e.roomRecord
    let id := e.s.nextId
    let o : Op := { e.mkOp .gget with addr := x, n := 3, q := 1, fn := 3 }
    (((e.send o).nextSeq).pushS id 0).next

end Sys2Proof.Machine
end

