-- ==== Sys2Proof/Machine/Sys.lean ====
section
/-!
DEFINITION. FENCE (R160), SPILL, FILL and TOKW (R95 to R97), GETSR and SETSR (R87 to R89, R316, R353), NOP, YIELD, BRK, TRAP
and TRET (R180, R281, R374, R375, R386), GATEW, FREEZE, THAW and KTLB (R183, R210, R307, R325, R369), MARKQ (R194, R334).
-/

namespace Sys2Proof.Machine

open Sys2Proof

/-! ## FENCE -/

/-- Wait until every earlier load, FILL, AMO and GGET is performed (R96, R160). -/
def Exe.waitLoads (e : Exe) : Except Stop Unit :=
  if e.s.ops.any (fun o => decide (o.t = e.t) && (o.kind.loads || decide (o.kind = .fill) || decide (o.kind = .amo) || decide (o.kind = .gget))) then stall .release else .ok ()

/-- The release half: replay queue, tokens, then the cumulative set. -/
def Exe.fenceRel (e : Exe) : Except Stop Unit := do
  e.waitReplay
  e.waitTokens
  e.waitRelease

def execFenceAcq (_sc : BitVec 3) (s : State) : Host.Outcome State Fault Refusal :=
  issue s fun e => do
    e.waitLoads
    e.next
def execFenceRel (_sc : BitVec 3) (s : State) : Host.Outcome State Fault Refusal :=
  issue s fun e => do
    e.fenceRel
    e.next
def execFenceFull (_sc : BitVec 3) (s : State) : Host.Outcome State Fault Refusal :=
  issue s fun e => do
    e.fenceRel
    e.waitLoads
    e.next

/-! ## SPILL, FILL, TOKW -/

/-- The 64 bytes of a SPILL or FILL (R95, R389): ALIGN, then BOUND at the first byte at or beyond S. -/
def Exe.spillAt (e : Exe) (a : Word) : Except Stop (List Seg) := do
  Exe.aligned a 64
  let size := e.s.scratchSize e.t.core
  if size < a.toNat + 64 then trap .bound a
  else .ok (cutBlock 10 a (scratchBus e.t.core a.toNat) 64 0)

def Exe.roomToken (e : Exe) (n : Nat) : Except Stop Unit := if 15 ≤ e.s.tokCount e.t n then stall .token else .ok ()

def execSpill (d a : Reg) (n : BitVec 3) (s : State) : Host.Outcome State Fault Refusal :=
  issue s fun e => do
    let (b, e) ← e.srcS a
    let segs ← e.spillAt b
    e.roomToken n.toNat
    let (v, e) ← e.srcV d
    (e.send { e.mkOp .spill with segs := segs, data := leBytes 64 v.toNat, addr := b, n := d.toNat, width := n.toNat }).next

def execFill (d a : Reg) (n : BitVec 3) (s : State) : Host.Outcome State Fault Refusal :=
  issue s fun e => do
    let (b, e) ← e.srcS a
    let segs ← e.spillAt b
    e.roomToken n.toNat
    (e.send { e.mkOp .fill with segs := segs, addr := b, n := d.toNat, width := n.toNat }).next

def execTokw (n : BitVec 3) (s : State) : Host.Outcome State Fault Refusal :=
  issue s fun e =>
    if e.s.tokCount e.t n.toNat ≠ 0 then stall .token else e.next

/-! ## Special registers (R88, R89) -/

/-- CORE. -/
def coreWord (t : TsId) : Word := at64 t.core.idx 0 ||| at64 t.ts 14 ||| at64 (if t.core.kernel then 1 else 0) 16

/-- Queue occupancies. -/
def ThreadSet.qstat (x : ThreadSet) : Word :=
  at64 x.slq.length 0 ||| at64 x.ssq.length 5 ||| at64 x.vlq.length 9 ||| at64 x.vsq.length 13

/-- The token counts. -/
def State.toks (s : State) (t : TsId) : Word :=
  (List.range 8).foldl (fun w n => w ||| at64 (s.tokCount t n) (4 * n)) 0

/-- The value of a special register; none for a number that R88 does not list. LAUNCH, RESID and TOL of an activation without a launch or a Pile read 0
(DESIGN CHOICE, log 44, on R88). -/
def Exe.sr (e : Exe) (n : Nat) : Option Word :=
  let pile := e.launch.filter Launch.pile
  if 0x010 ≤ n ∧ n ≤ 0x017 then some (e.kb (n - 0x010))
  else match n with
    | 0x000 => some (coreWord e.t)
    | 0x001 => some ((e.a.lid.getD 0).setWidth 64)
    | 0x002 => some (BitVec.ofNat 64 (Assoc.getD e.s.cycle (islandOf e.t.core) 0))
    | 0x003 => some (at64 (e.s.clock % 1000000000) 0 ||| at64 (e.s.clock / 1000000000 % 2 ^ 32) 32)
    | 0x004 => some (at64 (e.s.scratchSize e.t.core) 0 ||| at64 (if e.t.core.kernel then 128 else (e.s.core e.t.core).l1) 20)
    | 0x005 => some e.x.qstat
    | 0x006 => some (e.s.toks e.t)
    | 0x007 => some e.x.fpcsr
    | 0x008 => some e.x.trapen
    | 0x009 => some e.x.wbudget
    | 0x020 => some (BitVec.ofNat 64 e.x.tlev)
    | 0x021 => some e.x.bank1.cause
    | 0x022 => some e.x.bank1.epc
    | 0x023 => some e.x.bank1.addr
    | 0x024 => some e.x.bank1.msg
    | 0x025 => some e.x.tvec1
    | 0x029 => some e.x.bank2.cause
    | 0x02A => some e.x.bank2.epc
    | 0x02B => some e.x.bank2.addr
    | 0x02C => some e.x.bank2.msg
    | 0x02D => some e.x.tvec2
    | 0x030 => some ((pile.map Launch.resid).getD 0)
    | 0x031 => some ((pile.map Launch.tol).getD 0)
    | _ => none

/-- SETSR: the fields that can be written (R353). -/
def ThreadSet.setSr (x : ThreadSet) (n : Nat) (v : Word) : ThreadSet :=
  match n with
  | 0x007 => { x with fpcsr := (x.fpcsr &&& ~~~3#64 &&& ~~~(v &&& 0x7C#64)) ||| (v &&& 3#64) }
  | 0x008 => { x with trapen := v &&& 0x3F#64 }
  | 0x025 => { x with tvec1 := v }
  | 0x02D => { x with tvec2 := v }
  | _ => x

def execGetsr (d : Reg) (n : BitVec 12) (s : State) : Host.Outcome State Fault Refusal :=
  issue s fun e => do
    match e.sr n.toNat with
    | none => trap .illop 0
    | some v =>
      e.roomS d
      (e.putS d v).next

def execSetsr (a : Reg) (n : BitVec 12) (s : State) : Host.Outcome State Fault Refusal :=
  issue s fun e => do
    match e.sr n.toNat with
    | none => trap .illop 0
    | some _ =>
      let (v, e) ← e.srcS a
      Exe.next { e with x := e.x.setSr n.toNat v }

/-! ## NOP, YIELD, BRK, TRAP -/

def execNop (s : State) : Host.Outcome State Fault Refusal := issue s fun e => e.next

/-- The issue run of the thread set whose turn it was is over: its core considers it last, as if it had stalled (R84). -/
def State.endRun (s : State) : State :=
  match s.cur with
  | .ts t => if (s.tsGet t).act.isSome then s.tsSet t { s.tsGet t with run := 0 } else s
  | _ => s

/-- YIELD ends the issue run: another thread set that is ready goes first (R84, R386). -/
def execYield (s : State) : Host.Outcome State Fault Refusal :=
  match issue s fun e => e.next with
  | .next u => .next u.endRun
  | r => r

/-- The break enable of a context (R189); Edoiny has no descriptor. -/
def State.breakOn (s : State) (ctx : Half) : Bool := ((s.ctx ctx).map (fun c => c.grant.getLsbD 9)).getD false

/-- Edoiny's debug endpoint is full: its size is Edoiny's own (R281, log 34). -/
def State.debugFull (s : State) : Bool := Config.freeBool s.fresh 281

/-- A break record enters the debug endpoint, or is dropped and counted for its context. -/
def State.breakRecord (s : State) (ctx : Half) (d : List Byte) : State :=
  if s.debugFull then { s with ctxs := s.ctxs.map (fun c => if c.1 = ctx then (c.1, { c.2 with brkDrops := c.2.brkDrops + 1 }) else c) }
  else { s with reports := .brk d :: s.reports }

def execBrk (a : Reg) (c : BitVec 4) (s : State) : Host.Outcome State Fault Refusal :=
  issue s fun e => do
    let (v, e) ← e.srcS a
    let d := leBytes 8 (coreWord e.t).toNat ++ leBytes 8 e.x.pc.toNat ++ leBytes 8 v.toNat ++ leBytes 4 c.toNat ++ leBytes 4 (e.a.lid.getD 0).toNat
    let e := if e.s.breakOn e.a.ctx then { e with s := e.s.breakRecord e.a.ctx d } else e
    e.next

def execTrap (a : Reg) (c : BitVec 4) (s : State) : Host.Outcome State Fault Refusal :=
  issue s fun e => do
    let (v, _) ← e.srcS a
    .error (.trap c.toNat v)

/-! ## TRET -/

/-- A message goes back to the head of its class, with MARK 1 (R104, R180): before the first of its class, which leaves it there among the other
classes' ages, and behind all where none of its class is present (DESIGN CHOICE, log 44). -/
def headOfClass (m : Msg) : List Msg → List Msg
  | [] => [m]
  | x :: r => if msgClass x.w0 = msgClass m.w0 then m :: x :: r else x :: headOfClass m r

/-- The held message or deque record returns. A full basket keeps its newest message in the memory basket; a deque that holds 256 records takes the
returned one as a 257th (DESIGN CHOICE, log 44, on R104). -/
def State.returnWork (s : State) (t : TsId) (a : Activation) : State :=
  match a.origin with
  | .message =>
    let k := s.core t.core
    let b := headOfClass { a.msg with w1 := a.msg.w1 ||| at64 1 55 } k.basket
    s.setCore t.core { k with basket := b.take 64, membk := b.drop 64 ++ k.membk }
  | .deque r =>
    match a.lid.bind s.launch with
    | none => s
    | some l => s.dequePush l t.core ((l.ordinal t.core).getD 0) { r with s2 := r.s2 ||| at64 1 55 }
  | .pile _ _ _ => s

/-- The end of a trap: both banks and TLEV are zero and the thread set is free; its core may be idle now (R116). -/
def State.trapEnds (s : State) (t : TsId) : State :=
  let s := s.freeTs t
  let x := s.tsGet t
  (s.tsSet t { x with tlev := 0, bank1 := {}, bank2 := {} }).askAll t.core

/-- TRET retry and skip (R180). A Pile record goes back to ready in both (R133). Of R104's words, that the message or record returns where the trap
"retries or skips", and R180's, that a skip drops it, the model follows R180 (DEDUCED, log 44). -/
def tret (retry : Bool) (s : State) : Host.Outcome State Fault Refusal :=
  issue s fun e => do
    if e.x.tlev = 0 then trap .illop 0 else
    if !(e.x.ssq.isEmpty && e.x.vsq.isEmpty) then trap .qdead 0 else
    e.waitTokens
    e.waitReplay
    e.waitGains
    e.roomArrivals
    match e.x.lost with
    | some va => .ok (e.onState (fun s => s.killByTrap e.t Cause.xlate.code va))
    | none => .ok (e.onState (fun s =>
        let s := (s.releaseAll e.t e.a).retirePile e.t e.a true retry
        let s := if retry then s.returnWork e.t e.a
          else s.onLaunch e.a.lid (fun l => { l with skips := l.skips + 1 })
        s.trapEnds e.t))

def execTretRetry (s : State) : Host.Outcome State Fault Refusal := tret true s
def execTretSkip (s : State) : Host.Outcome State Fault Refusal := tret false s
def execTretKill (s : State) : Host.Outcome State Fault Refusal :=
  issue s fun e => do
    if e.x.tlev = 0 then trap .illop 0 else
    if !(e.x.ssq.isEmpty && e.x.vsq.isEmpty) then trap .qdead 0 else
    .ok (e.onState (fun s => s.killContext e.a.ctx e.x.bankCauses e.x.bank1.msg (whoWord e.t e.a.lid e.a.ctx e.x.tlev true) (some e.t)))

/-! ## The kernel instructions -/

/-- PRIV on a compute core (R15). -/
def Exe.privileged (e : Exe) : Except Stop Unit := if e.t.core.kernel then .ok () else trap .priv 0

/-- Wait for the thread set's earlier kernel instructions to finish. -/
def Exe.waitKernel (e : Exe) : Except Stop Unit :=
  if e.s.ops.any (fun o => decide (o.t = e.t) && (decide (o.kind = .ktlb) || decide (o.kind = .freeze) || decide (o.kind = .thaw)))
  then stall .engine else .ok ()

/-- Wait until every earlier store of the thread set is taken. -/
def Exe.waitStores (e : Exe) : Except Stop Unit :=
  if e.s.ops.any (fun o => decide (o.t = e.t) && o.kind.writes) then stall .engine else .ok ()

/-- An entry image: its reserved fields are zero and KINDE agrees with the entry number (R209, R210). -/
def thimbleImageOk (v : Thimble) (endpoint : Bool) : Bool :=
  decide (v.getLsbD 1 = endpoint) && decide (v.extractLsb' 6 58 = 0) && decide (v.extractLsb' 192 64 = 0) &&
  (!endpoint || (decide (v.extractLsb' 4 2 = 0) && decide (v.extractLsb' 78 2 = 0) && decide (v.extractLsb' 84 44 = 0) &&
    decide (v.extractLsb' 128 64 = 0)))

/-- GATEW. Of an image that a seam bundle's firewall does not let through, the bytes are free values and the drop is counted (R18, R212; log 43). -/
def execGatew (a b : Reg) (s : State) : Host.Outcome State Fault Refusal :=
  issue s fun e => do
    e.privileged
    let (x, e) ← e.srcS a
    let (va, e) ← e.srcS b
    e.roomLdq 1
    if bits x 63 19 ≠ 0 then trap .bound 0 else
    Exe.aligned va 32
    let bs ← e.check va 32 rRD
    e.waitStores
    e.waitKernel
    let c := cc (bits x 13 0)
    let n := bits x 18 14
    let v : Thimble := BitVec.ofNat 256 (leNat ((segsOf bs).flatMap e.s.take_))
    let e := { e with s := (segsOf bs).foldl State.noteBar e.s }
    if e.s.coreAbsent c then (e.pushVal 1).next
    else if !(thimbleImageOk v (decide (16 ≤ n))) then (e.pushVal 2).next
    else
      let k := e.s.core c
      Exe.next { (e.pushVal 0) with s := e.s.setCore c { k with thimble := Assoc.set k.thimble n v } }

/-- A status to come: an operation, its queue entry, and every later access behind it. -/
def Exe.pending (e : Exe) (k : OpKind) (f : Op → Op) : Exe :=
  let id := e.s.nextId
  let e := (e.send (f { e.mkOp k with q := 1 })).pushS id 0
  { e with x := { e.x with rel := e.x.rel ++ [id] } }

/-- FREEZE or THAW of this bundle and context is in progress. -/
def Bundle.busy (k : Bundle) (ctx : Half) : Bool :=
  (k.freezing.map (fun f => decide (f.1 = ctx))).getD false || (k.thawing.map (fun f => decide (f.1 = ctx))).getD false

/-- A bundle holds running state of a context (R183): a running launch that is not frozen there, an activation, or a FREEZE or THAW of it under way. -/
def State.runsOn (s : State) (b : Nat) (ctx : Half) : Bool :=
  let cores := (List.range 8).map (fun i => cc (8 * b + i))
  (s.bundle b).busy ctx || !((s.bundle b).frozen.any (fun f => decide (f.ctx = ctx))) &&
  (s.launches.any (fun l => decide (l.ctx = ctx) && decide (l.state = .running) && l.bundles.contains b) ||
   cores.any (fun c => (threadsOf c).any (fun t => match (s.tsGet t).act with
     | some a => decide (a.ctx = ctx)
     | none => false)))

/-- The contexts with running state on a bundle. -/
def State.runningCtxs (s : State) (b : Nat) : List Half :=
  ((s.launches.map Launch.ctx ++ s.ctxs.map Prod.fst ++ ((s.bundle b).freezing.toList ++ (s.bundle b).thawing.toList).map Prod.fst).eraseDups).filter
    (fun c => s.runsOn b c)

def execFreeze (a b : Reg) (s : State) : Host.Outcome State Fault Refusal :=
  issue s fun e => do
    e.privileged
    let (x, e) ← e.srcS a
    let (blk, e) ← e.srcS b
    e.roomLdq 1
    if bits x 47 11 ≠ 0 then trap .bound 0 else
    Exe.aligned blk (2 ^ 21)
    let _ ← e.check blk (2 ^ 23) rWR
    e.waitKernel
    let bn := bits x 10 0
    let ctx : Half := BitVec.ofNat 16 (bits x 63 48)
    let k := e.s.bundle bn
    if k.busy ctx then stall .engine
    else if !(e.s.bundleUsable bn) then (e.pushVal 2).next
    else if k.frozen.any (fun f => decide (f.ctx = ctx)) then (e.pushVal 3).next
    else if !(e.s.runsOn bn ctx) then (e.pushVal 1).next
    else if k.freezing.isSome then stall .engine
    else
      let id := e.s.nextId
      ((e.pending .freeze (fun o => { o with addr := blk, operand := x })).onState
        (fun s => s.setBundle bn { (s.bundle bn) with freezing := some (ctx, blk.toNat, id) })).next

def execThaw (a b : Reg) (s : State) : Host.Outcome State Fault Refusal :=
  issue s fun e => do
    e.privileged
    let (x, e) ← e.srcS a
    let (blk, e) ← e.srcS b
    e.roomLdq 1
    if bits x 47 11 ≠ 0 then trap .bound 0 else
    Exe.aligned blk (2 ^ 21)
    let _ ← e.check blk (2 ^ 23) rRD
    e.waitStores
    e.waitKernel
    let bn := bits x 10 0
    let ctx : Half := BitVec.ofNat 16 (bits x 63 48)
    let k := e.s.bundle bn
    let ident : Word := at64 ctx.toNat 0 ||| at64 bn 16
    if k.busy ctx then stall .engine
    else if !(e.s.bundleUsable bn) || (e.s.runningCtxs bn).any (fun c => decide (c ≠ ctx)) then (e.pushVal 2).next
    else if e.s.runsOn bn ctx then (e.pushVal 3).next
    else if !((e.s.rd64 blk.toNat).getLsbD 0) || decide (e.s.rd64 (blk.toNat + 8) ≠ ident) then (e.pushVal 1).next
    else
      let id := e.s.nextId
      ((e.pending .thaw (fun o => { o with addr := blk, operand := x })).onState
        (fun s => s.setBundle bn { (s.bundle bn) with thawing := some (ctx, blk.toNat, id) })).next

/-- A piece of an outstanding access lies in a range of virtual addresses. -/
def Op.inRange (o : Op) (lo n : Nat) : Bool :=
  (o.segs ++ o.dst).any (fun g => decide (g.va.toNat < lo + n) && decide (lo < g.va.toNat + g.len))

/-- A cached leaf, of 2 MiB or 64 KiB, overlaps a range of virtual addresses. -/
def TcEntry.overlaps (t : TcEntry) (lo n : Nat) : Bool :=
  let size := if t.large then 2 ^ 21 else 2 ^ 16
  let at_ := t.page * 65536 / size * size
  decide (at_ < lo + n) && decide (lo < at_ + size)

/-- KTLB (R325): the status waits for the accesses translated through a dropped entry. -/
def execKtlb (a b : Reg) (s : State) : Host.Outcome State Fault Refusal :=
  issue s fun e => do
    e.privileged
    let (x, e) ← e.srcS a
    let (n, e) ← e.srcS b
    e.roomLdq 1
    if bits x 15 0 ≠ 0 then trap .align x
    else if bits n 15 0 ≠ 0 ∨ 2 ^ 48 < bits x 47 0 + n.toNat then trap .bound x
    else do
      e.waitStores
      e.waitKernel
      let ctx : Half := BitVec.ofNat 16 (bits x 63 48)
      let lo := if n = 0 then 0 else bits x 47 0
      let len := if n = 0 then 2 ^ 48 else n.toNat
      let drop := fun (t : TcEntry) => decide (t.ctx = ctx) && t.overlaps lo len
      let old := (e.s.ops.filter (fun o => decide (o.ctx = ctx) && !o.held && !o.parked && o.inRange lo len)).map Op.id
      ((e.pending .ktlb (fun o => { o with addr := x, operand := n, deps := old })).onState (fun s =>
        { s with bundles := s.bundles.map (fun k => (k.1, { k.2 with tc := k.2.tc.filter (fun t => !(drop t)) })) })).next

/-! ## MARKQ -/

def execMarkq (a b : Reg) (g : Bool) (s : State) : Host.Outcome State Fault Refusal :=
  issue s fun e => do
    let (m, e) ← e.srcS a
    let (t, e) ← e.srcS b
    e.roomLdq 2
    let ctx := if e.t.core.kernel then Config.edoiny else e.a.ctx
    if bits m 63 48 ≠ ctx.toNat then trap .gate m else
    let segs ← (if g then do
        e.inPile (low32 t)
        .ok []
      else do
        let bs ← e.check t 1 rRD
        .ok (wholeSegs bs))
    e.roomRecord
    let id := e.s.nextId
    let o : Op := { e.mkOp .markq with segs := segs, addr := if g then low32 t else t, operand := m, mark := m, n := if g then 1 else 0, q := 1,
                                       fn := if g then 1 else 0 }
    ((((e.send o).nextSeq).pushS id 0).pushS id 1).next

end Sys2Proof.Machine
end

