-- ==== Sys2Proof/Machine/FrontEnd.lean ====
section
/-!
DEFINITION. The launch front end: packets from host queues, children, INVOKE and step launches (R109 to R112, R114, R203), the checks of
R113, placement (R388), and the start of a launch (R98, R99, R117, R123, R233).
-/

namespace Sys2Proof.Machine

open Sys2Proof

/-! ## Agent marks (R47) -/

/-- An agent mark (R47). -/
def Prog.mark (p : Prog) : Word := at64 p.slot 48 ||| at64 (bits p.retn 47 0) 0
/-- An owner keeps the results of a slot's last four marks (R47). -/
def Prog.remember (p : Prog) (owner : Nat) (mark res : Word) (entry : Option MboxE := none) : Prog :=
  { p with marks := ({ owner := owner, mark := mark, res := res, entry := entry } :: p.marks.filter (fun m => decide (m.owner = owner))).take 4 ++
                    p.marks.filter (fun m => decide (m.owner ≠ owner)) }
/-- What an owner remembers of the program's current mark, if it is a repeated one. -/
def Prog.repeated (p : Prog) (owner : Nat) : Option AgentMark := p.marks.find? (fun m => decide (m.owner = owner) && decide (m.mark = p.mark))

/-! ## Packets -/

/-- A packet as the front end takes it, with its level replaced (R110). -/
structure Packet where
  ctx : Half
  words : List Word
  slots : Option (Nat × Nat)    -- base of the dependence slots; 1 when it is virtual
  src : LaunchFrom
  deriving DecidableEq, Repr

def Packet.w (p : Packet) (i : Nat) : Word := (p.words[i]?).getD 0
def Packet.kind (p : Packet) : Nat := bits (p.w 0) 3 0

def State.qwait (s : State) (q : Nat) : QWait :=
  (s.qwaits.find? (fun x => decide (x.q = q))).getD { q := q, depend := none, fence := none, fetched := [], launched := [] }
def State.setQwait (s : State) (x : QWait) : State :=
  { s with qwaits := if s.qwaits.any (fun y => decide (y.q = x.q)) then s.qwaits.map (fun y => if y.q = x.q then x else y) else s.qwaits ++ [x] }

/-- The bytes in memory of packet `n` of a queue; QSIZE counts from 4 to 16, and a ring outside stack memory reads all ones (R109, R22). -/
def State.ringPacket (s : State) (b : QBind) (n : Nat) : List Byte :=
  let size := min 16 (max 4 (bits (s.rd64 (b.qdesc + 8)) 4 0))
  let a := (s.rd64 b.qdesc).toNat + 64 * (n % 2 ^ size)
  if a + 64 ≤ Config.channels * Config.channelBytes then s.rd a 64 else List.replicate 64 0xFF

/-- Packets published and not taken. -/
def State.published (s : State) (b : QBind) : Nat :=
  let d := (s.rd64 (b.qdesc + 0x18) - s.rd64 (b.qdesc + 0x10)).toNat
  if 2 ^ 63 ≤ d then 0 else d

/-- The next packet of a queue: a prefetched copy that memory no longer equals may still be taken (R109). -/
def State.headPacket (s : State) (b : QBind) (q : Nat) : List Byte :=
  let n := (s.rd64 (b.qdesc + 0x10)).toNat
  let now := s.ringPacket b n
  match Assoc.get (s.qwait q).fetched n with
  | none => now
  | some old => if Config.freeBool s.fresh n then old else now

def packetWords (d : List Byte) (lv : Nat) : List Word :=
  let ws := [0, 8, 16, 24, 32, 40, 48, 56].map (fun o => w64 (sliceB d o 8))
  withLevel ((ws[0]?).getD 0) lv :: ws.drop 1

/-- The packet that a source offers now: a queue that no DEPEND or FETCH-FENCE holds, the oldest child of its thread set, an
INVOKE or a step launch not yet taken. -/
def State.packet (s : State) (src : PacketSrc) : Option Packet :=
  match src with
  | .host q =>
    match Assoc.get s.qbind q with
    | none => none
    | some b =>
      let x := s.qwait q
      if x.depend.isSome || x.fence.isSome || decide (s.published b = 0) then none
      else
        let lv := max (min 11 (bits (s.rd64 (b.qdesc + 0x28)) 3 0)) b.lcap
        some { ctx := b.nctx, words := packetWords (s.headPacket b q) lv, slots := some ((s.rd64 (b.qdesc + 0x20)).toNat, 0), src := .queue q }
  | .child id =>
    match s.children.find? (fun c => decide (c.id = id)) with
    | none => none
    | some c =>
      if ((s.children.find? (fun d => decide (d.t = c.t))).map Child.id) = some id then
        some { ctx := c.ctx, words := c.words, slots := some (c.slots.toNat, 1), src := .child c.die }
      else none
  | .invoke slot =>
    match s.progs.find? (fun p => decide (p.slot = slot)) with
    | none => none
    | some p =>
      match p.await with
      | .launch _ (some ws) _ _ => some { ctx := p.nctx, words := ws, slots := none, src := .invoke slot }
      | _ => none
  | .stepLaunch id =>
    match s.steps.find? (fun x => decide (x.id = id)) with
    | none => none
    | some x =>
      if x.taken then none
      else some { ctx := ((s.images.find? (fun m => decide (m.id = x.img))).map Image.ctx).getD 0, words := x.words, slots := none, src := .stepLaunch id }

/-- The packet is taken: HEAD advances, and up to 16 published packets behind it may be prefetched. An INVOKE learns its launch id, which
the front end keeps as the result of its mark (R320). -/
def State.takePacket (s : State) (src : PacketSrc) (lid : Option Half := none) : State :=
  match src with
  | .host q =>
    match Assoc.get s.qbind q with
    | none => s
    | some b =>
      let n := (s.rd64 (b.qdesc + 0x10)).toNat
      let x := s.qwait q
      let ahead := ((List.range 16).filter (fun i => decide (i + 1 < s.published b))).map (fun i => (n + 1 + i) % 2 ^ 64)
      let kept := x.fetched.filter (fun e => ahead.contains e.1)
      let more := (ahead.filter (fun i => (Assoc.get kept i).isNone)).map (fun i => (i, s.ringPacket b i))
      let s := s.setQwait { x with fetched := kept ++ more }
      { s.wr64 (b.qdesc + 0x10) (BitVec.ofNat 64 (n + 1)) with fresh := s.fresh + 1 }
  | .child id => { s with children := s.children.filter (fun c => decide (c.id ≠ id)) }
  | .invoke slot => { s with progs := s.progs.map (fun p => if p.slot = slot then (match p.await with
      | .launch a (some _) _ st =>
        let q := { p with await := .launch a none lid st }
        (match lid with
         | some l => q.remember ownerFront p.mark (l.setWidth 64)
         | none => q)
      | _ => p) else p) }
  | .stepLaunch id => { s with steps := s.steps.map (fun x => if x.id = id then { x with taken := true } else x) }

/-! ## The checks of R113 -/

/-- What the front end reads for a launch at acceptance (R113, R117, R123). -/
structure Tables where
  kb : List Word
  lists : List (Nat × List Nat)
  tol : Word
  rlist : Word
  rcap : Nat
  fpa : Nat
  root : Vec
  deriving DecidableEq, Repr

/-- A packet is refused with a status, or waits for a page that is not resident. -/
inductive Refused where
  | status (n : Nat)
  | held
  deriving DecidableEq, Repr

/-- Step 1: the packet's own words. R113 judges the alignment of ROOTP, and R110 gives none: below 64 bytes it is free (log 35). -/
def Launch.wordsOk (l : Launch) : Bool :=
  let wd := bits (l.w 0) 22 18
  decide (bits (l.w 0) 3 0 = 0) && !(l.w 0).getLsbD 23 && decide (bits (l.w 3) 63 24 = 0) && decide (3 ≤ l.cscope) && decide (l.cscope ≤ 5) &&
  decide (wd = 0 ∨ (10 ≤ wd ∧ wd ≤ 30)) && (decide (bits (l.w 2) 5 0 = 0) || Config.rootAligned (bits (l.w 2) 5 0)) &&
  decide (bits (l.w 4) 5 0 = 0) && decide (bits l.crec 6 0 = 0) && (!l.pile || decide (bits (l.w 7) 5 0 = 0))

/-- A range that a table's address must grant. -/
def State.mustGrant (s : State) (ctx : Half) (va : Word) (n : Nat) (r : BitVec 4) : Except Refused (List Byte) :=
  match s.granted ctx va n r true with
  | .error _ => .error (.status 4)
  | .ok bs => if anyNr bs then .error .held else .ok (s.rdBlocks bs)

/-- The group table; a GTAB of 0 is an address as any other (R113, R117). -/
def State.groupTable (s : State) (ctx : Half) (va : Word) : Except Refused (List Byte) := s.mustGrant ctx va 4096 rRD

/-- A completion record: writable in the context, or in host memory that Edoiny has granted (R198). -/
def State.crecOk (s : State) (ctx : Half) (va : Word) : Except Refused Unit :=
  if (s.lookup ctx va.toNat).isNone ∧ s.inHost va.toNat 128 then .ok ()
  else match s.mustGrant ctx va 128 rWR with
    | .error e => .error e
    | .ok _ => .ok ()

/-- The lists of the used groups, each granted over its extent (R117). -/
def State.groupLists (s : State) (ctx : Half) (d : List Byte) : List Nat → Except Refused (List (Nat × List Nat))
  | [] => .ok []
  | g :: r =>
    let n := fieldB d (16 * g) 4
    if n = 0 then s.groupLists ctx d r
    else match s.mustGrant ctx (w64 (sliceB d (16 * g + 8) 8)) (2 * n) rRD with
      | .error e => .error e
      | .ok x => match s.groupLists ctx d r with
        | .error e => .error e
        | .ok rest => .ok ((g, (List.range n).map (fun i => fieldB x (2 * i) 2)) :: rest)

/-- Whole kibibytes of the footprint area above S, a reserved field, or a misaligned list (R123). -/
def Launch.pparOk (l : Launch) (d : List Byte) : Bool :=
  decide (fieldB d 0x14 4 = 0) && decide (fieldB d 0x18 8 < 64) && decide (fieldB d 0x18 8 * 4096 ≤ (256 - l.l1) * 1024) &&
  (d.drop 0x20).all (fun b => decide (b = 0)) && decide (fieldB d 8 8 % 64 = 0)

/-- Steps 1 to 4 of R113. -/
def State.checkLaunch (s : State) (l : Launch) : Except Refused Tables := do
  if !l.wordsOk then .error (.status 3) else
  let inv := match l.src with | .invoke _ => true | _ => false
  if inv && (decide (l.wslot ≠ 0) || decide (l.sslot ≠ 0)) then .error (.status 3) else
  let _ ← s.mustGrant l.ctx (at64 (bits (l.w 1) 47 2) 2) 4 rEX
  let root ← s.mustGrant l.ctx (l.w 2) 48 rRD
  let gt ← s.groupTable l.ctx (l.w 4)
  let wt ← s.mustGrant l.ctx (l.w 5) 64 rRD
  s.crecOk l.ctx l.crec
  let pp ← (if l.pile then s.mustGrant l.ctx (l.w 7) 64 rRD else .ok (List.replicate 64 0))
  let kb := (List.range 8).map (fun i => w64 (sliceB wt (8 * i) 8))
  let gs := (List.range 256).drop 1
  if kb.any (fun b => decide (bits b 15 0 ≠ 0)) || gs.any (fun g => decide (65536 < fieldB gt (16 * g) 4)) || (l.pile && !(l.pparOk pp)) then
    .error (.status 3)
  else
  let lists ← s.groupLists l.ctx gt gs
  let rlist := w64 (sliceB pp 8 8)
  let rcap := fieldB pp 0x10 4
  let _ ← (if l.pile ∧ rlist ≠ 0 then s.mustGrant l.ctx rlist (64 + 32 * rcap) rWR else .ok [])
  .ok { kb := kb, lists := lists, tol := w64 (sliceB pp 0 8), rlist := rlist, rcap := rcap, fpa := fieldB pp 0x18 8, root := vec512 root }

/-! ## Refusal -/

/-- A launch that does not start completes with its status and the acceptance stamp only (R113, R112, R320). A record of a launch whose
CREC passed the checks, and that can be written no longer, is reported (R122). -/
def State.refuseLaunch (s : State) (l : Launch) (status : Nat) : State :=
  let valid := decide (l.crec.toNat % 128 = 0) && (match s.granted l.ctx l.crec 128 rWR true with | .ok _ => true | .error _ => false)
  let valid := valid || decide (l.crec.toNat % 128 = 0) && (s.lookup l.ctx l.crec.toNat).isNone && s.inHost l.crec.toNat 128
  let s := if valid then (s.writeCrec l.ctx l.crec (crecBytes status l.lid l.accst none none none 0)).getD s
    else if status = 3 ∨ status = 4 then s
    else { s with reports := .crec l.lid :: s.reports }
  let s : State := { s with launches := s.launches.filter (fun x => decide (x.lid ≠ l.lid)) }
  let l := if bits (l.w 0) 3 0 = 0 then l else { l with words := (l.w 0 &&& ~~~(at64 0xFFF 36)) :: l.words.drop 1 }
  s.settle l (statusWord status (if valid then l.lid else 0))

/-! ## Placement (R388) -/

/-- The launches that a bundle holds and that are not frozen there. -/
def State.holders (s : State) (b : Nat) : List Launch :=
  s.launches.filter (fun x => decide (x.state = .running) && x.bundles.contains b &&
    !((s.bundle b).frozen.any (fun f => decide (f.ctx = x.ctx))))

/-- Runs of a core's footprint area that are pinned. -/
def State.pinned (s : State) (c : CoreId) : List (Nat × Nat) :=
  (threadsOf c).filterMap (fun t => match (s.tsGet t).act with
    | some a => (match a.origin with | .pile r _ run => some (run, r.fplen) | _ => none)
    | none => none) ++
  s.pnet.filterMap (fun e => match e.2 with
    | .retire _ _ r _ t run => if t.core = c then some (run, r.fplen) else none
    | _ => none)

/-- Every pinned run of a bundle's cores lies in the area of the PILE launch that it belongs to: none was left behind by `raiseAreas`. -/
def State.runsInside (s : State) (x : Launch) (b : Nat) : Bool :=
  (List.range 8).all (fun i => (s.pinned (cc (8 * b + i))).all (fun r => decide (r.2 = 0) ||
    (decide (s.areaBase x b ≤ r.1) && decide (r.1 + r.2 ≤ s.areaBase x b + x.area))))

/-- An operation that its launch has left behind still reads or writes a scratchpad of a bundle (R81, R237). -/
def Op.lingers (o : Op) (b : Nat) : Bool :=
  o.orphan && !o.kind.loads && (o.segs ++ o.dst).any (fun g => decide (scratchBase ≤ g.bus ∧ g.bus < kernelBase) && decide ((g.bus - scratchBase) / 2 ^ 21 = b))

/-- A bundle is eligible for a launch. With an image of the launch's own context, or a FREEZE or THAW under way, it is not; nor while a run stands
outside its launch's area, or an operation of an ended launch is still to reach a scratchpad there (DESIGN CHOICE, log 44, on R388 and R237). -/
def State.eligible (s : State) (l : Launch) (b : Nat) : Bool :=
  let hs := s.holders b
  let area := hs.foldl (fun a x => a + x.area) l.area
  s.bundleUsable b && s.ops.all (fun o => !(o.lingers b)) && !((s.bundle b).frozen.any (fun f => decide (f.ctx = l.ctx))) && (s.bundle b).freezing.isNone && (s.bundle b).thawing.isNone &&
  ((List.range 8).map (fun i => cc (8 * b + i))).all (fun c => (threadsOf c).all (fun t => match (s.tsGet t).act with
    | some a => decide (a.ctx = l.ctx)
    | none => true)) &&
  hs.all (fun x => decide (x.ctx = l.ctx) && decide (x.l1 = l.l1) && (!x.pile || s.runsInside x b)) && decide (hs.length < 2) &&
  !(l.pile && hs.any Launch.pile) && decide (area ≤ (256 - l.l1) * 1024)

def State.usable (s : State) : List Nat := (List.range Config.bundles).filter s.bundleUsable

/-- Bundles requested and fewest accepted (R110). -/
def State.wanted (s : State) (l : Launch) : Nat × Nat :=
  let n := if bits (l.w 3) 11 0 = 0 then s.usable.length else bits (l.w 3) 11 0
  (n, if bits (l.w 3) 23 12 = 0 then n else bits (l.w 3) 23 12)

/-- The bundles a launch gets now: free ones first, then shared ones, each in increasing number; none while fewer than MINB are eligible. -/
def State.choose (s : State) (l : Launch) : Option (List Nat) :=
  let e := (List.range Config.bundles).filter (s.eligible l)
  let w := s.wanted l
  if e.length < w.2 then none
  else
    let got := (e.filter (fun b => (s.holders b).isEmpty) ++ e.filter (fun b => !(s.holders b).isEmpty)).take w.1
    some (e.filter (fun b => got.contains b))

/-! ## The start of a launch -/

/-- Group members in increasing ordinal, each once (R117). -/
def membersOf (n : Nat) (l : List Nat) : List Nat := (List.range n).filter (fun o => l.contains o)

/-- Scratchpad of a core that keeps its content for a launch: its area and named regions (R99). -/
def State.keptFor (s : State) (c : CoreId) (l : Launch) : List (Nat × Nat) :=
  (s.areaBase l (bundleOf c), l.area) ::
  (s.regions.filter (fun r => decide (r.ctx = l.ctx) && decide (r.entry = bits (l.w 1) 47 2 * 4))).map (fun r => (r.off, r.len))

/-- The operand rings of a core (R140). -/
def State.ringBytes (s : State) (c : CoreId) : List (Nat × Nat) := (s.core c).rings.map (fun r => (r.2.base, 64 + slotSize r.2.fmt * r.2.count))

/-- Scratchpad of a core that keeps its content: areas, named regions and rings of its launches, and pinned runs (R99, R127, R140); on a kernel core
the regions of Edoiny's programs. -/
def State.keptScratch (s : State) (c : CoreId) : List (Nat × Nat) :=
  if c.kernel then (s.regions.filter (fun r => decide (r.ctx = Config.edoiny))).map (fun r => (r.off, r.len))
  else (s.launches.filter (fun l => l.holds c)).flatMap (s.keptFor c) ++ s.ringBytes c ++ s.pinned c

/-- Forget a range of a core's scratchpad but for kept ranges. -/
def forgetBut (c : CoreId) : List (Nat × Nat) → Nat → Nat → State → State
  | [], lo, hi, s => if lo < hi then s.forget (scratchBus c lo) (hi - lo) else s
  | (a, n) :: r, lo, hi, s =>
    if hi ≤ lo then s
    else if a + n ≤ lo ∨ hi ≤ a then forgetBut c r lo hi s
    else forgetBut c r (a + n) hi (forgetBut c r lo a s)

/-- A core's scratchpad at the start of a launch that shares it: what the other launch is using stays, all of it while an activation of
that launch runs there (R99, R388; log 45). -/
def State.shareScratch (s : State) (l : Launch) (c : CoreId) : State :=
  if (threadsOf c).any (fun t => (s.tsGet t).act.isSome) then s
  else forgetBut c ((s.launches.filter (fun x => x.holds c && decide (x.lid ≠ l.lid))).flatMap (s.keptFor c) ++ s.ringBytes c) 0 (2 ^ 18) s

/-- The scratchpads of a bundle at a launch's start (R99, R388): all undefined, but for what another launch that shares the cores is using. An initialised
region holds its initial data also where it covers bytes that the other launch uses, but for the control line of a bound ring (DESIGN CHOICE, log 44,
on R99: its two exceptions overlap there). -/
def State.startScratch (s : State) (l : Launch) (b : Nat) (shared : Bool) : State :=
  let cores := (List.range 8).map (fun i => cc (8 * b + i))
  let s : State := if shared then cores.foldl (fun s c => s.shareScratch l c) s else s.forget (scratchBus (cc (8 * b)) 0) (8 * 2 ^ 18)
  let s : State := cores.foldl (fun s c => s.setCore c { s.core c with l1 := l.l1 }) s
  (s.regions.filter (fun r => decide (r.ctx = l.ctx) && decide (r.entry = bits (l.w 1) 47 2 * 4))).foldl (fun s r =>
    match r.init with
    | none => s
    | some va => match s.rdV l.ctx va r.len rRD with
      | none => s
      | some d => cores.foldl (fun s c => s.wrRw (scratchBus c r.off) d) s) s

/-- What was read at acceptance is kept with the launch: its lists become groups when the ordinals are known. -/
def Launch.keep (l : Launch) (t : Tables) : Launch :=
  { l with lists := t.lists, kb := t.kb, tol := t.tol, rlist := t.rlist, rcap := t.rcap, fpa := t.fpa, root := t.root }

/-- No thread set of a launch's bundles keeps trap vectors for its id: they read 0 when the launch begins (R88, R179). -/
def State.newVectors (s : State) (lid : Half) (bs : List Nat) : State :=
  { s with ts := s.ts.map (fun e => if !e.1.core.kernel && bs.contains (bundleOf e.1.core) then (e.1, e.2.dropVectors lid) else e) }

/-- Start a launch on its bundles: groups are judged, cores are split, the Pile engines are set up, the root message goes to ordinal 0 (R113 step 6, R125,
R236). -/
def State.startLaunch (s : State) (l : Launch) (bs : List Nat) : State :=
  let n := 8 * bs.length
  let groups := l.lists.map (fun g => (g.1, membersOf n g.2))
  if (List.range n).any (fun o => decide (4 < (groups.filter (fun g => g.2.contains o)).length)) then s.refuseLaunch l 5
  else
    let shared := bs.filter (fun b => !(s.holders b).isEmpty)
    let l : Launch := { l with state := .running, bundles := bs, areaLow := shared, groups := groups }
    let s := (s.setLaunch l).newVectors l.lid bs
    let s := bs.foldl (fun s b => s.startScratch l b (shared.contains b)) s
    let s := if l.pile then bs.foldl (fun s b => s.setPile b l.lid (s.pileOf b l.lid)) s else s
    let m : Msg := { w0 := deliverW0 (l.w 1), w1 := header1 0x3FFF 0 0 l.lid 4 2 false false, pay := l.root }
    s.post { id := 0, dst := l.coreAt 0, src := none, msg := m, ctx := l.ctx, lid := some l.lid, counted := false, outside := false, deps := [], held := false }

/-- An accepted level-0 launch waits, ahead of every launch of levels 1 to 11 (R66, R388). -/
def State.urgentWaits (s : State) (l : Launch) : Bool :=
  decide (l.level ≠ 0) && s.launches.any (fun x => decide (x.state = .waitBundles) && decide (x.level = 0))

/-- Step 5 of R113 and placement: CORES, the start, or a wait until MINB bundles are eligible. -/
def State.placeLaunch (s : State) (l : Launch) : State :=
  if s.usable.length < (s.wanted l).2 then s.refuseLaunch l 6
  else match if s.urgentWaits l then none else s.choose l with
    | some bs => s.startLaunch l bs
    | none => s.setLaunch { l with state := .waitBundles }

/-- A launch whose checks have passed is accepted: it takes its place in the order of acceptance (R104, R119), then its bundles. -/
def State.admitLaunch (s : State) (l : Launch) (t : Tables) : State :=
  ({ s with orderNext := s.orderNext + 1 } : State).placeLaunch { l.keep t with order := s.orderNext }

/-- Acceptance: the checks, then placement; none while a table's page is not resident. -/
def State.acceptLaunch (s : State) (l : Launch) : Option State :=
  match s.checkLaunch l with
  | .error (.status n) => some (s.refuseLaunch l n)
  | .error .held => none
  | .ok t => some (s.admitLaunch l t)

def newLaunch (lid : Half) (p : Packet) (acc : Stamp) : Launch :=
  { lid := lid, ctx := p.ctx, src := p.src, words := p.words, queued := p.slots, state := .waitSlot, order := 0, bundles := [], areaLow := [], lists := [], groups := [],
    kb := [], tol := 0, rlist := 0, rcap := 0, fpa := 0, root := 0, accst := acc, startst := none, acts := 0, disc := 0, discRec := 0, mappl := 0,
    msupp := 0, markold := 0, traps := 0, skips := 0, counts := [], stains := [], steals := [], stealOut := [], deques := [],
    token := { started := false, at_ := 0, sum := 0, stain := false }, lend := false, conv := false, epochs := [], arrivals := [], done := [],
    resid := 0 }

/-- A launch id that is free: the offered one, or the first from 1 (log 20). -/
def State.freeLid (s : State) (hint : Nat) : Option Half :=
  let free := fun (x : Nat) => decide (1 ≤ x) && decide (x < 65536) && s.launches.all (fun l => decide (l.lid.toNat ≠ x)) && s.ending.all (fun e => decide (e.l.lid.toNat ≠ x))
  (if free hint then some hint else ((List.range (s.launches.length + 2)).find? free)).map (fun x => BitVec.ofNat 16 x)

/-! ## Events -/

/-- A child or INVOKE packet of a kind that is not its source's, and the reserved kinds: they end with BADPACKET (R111, R114, R320). -/
def launchKind (src : PacketSrc) (k : Nat) : Bool :=
  match src with
  | .host _ => decide (k = 0) || decide (5 ≤ k)
  | .child _ => decide (k ≠ 2) && decide (k ≠ 4)
  | _ => true

/-- LAUNCH: taken, checked, and accepted, or left waiting for its slot WSLOT, which is published. One whose slot cannot be reached waits for none
(DESIGN CHOICE, log 44, on R112). -/
def execLaunchPacket (src : PacketSrc) (hint : Nat) (s : State) : Host.Outcome State Fault Refusal :=
  match s.packet src, s.freeLid hint with
  | some p, some lid =>
    if !(launchKind src p.kind) then .next s
    else
      let l := newLaunch lid p s.stamp
      match s.checkLaunch l with
      | .error .held => .next s
      | r =>
        let s : State := (s.takePacket src (some lid)).stamped
        let s : State := match src with
          | .host q => s.setQwait { s.qwait q with launched := (s.qwait q).launched ++ [lid] }
          | _ => s
        let s : State := { s with launches := s.launches ++ [l] }
        match r with
        | .error (.status n) => .next (s.refuseLaunch l n)
        | .error .held => .next s
        | .ok t =>
          match if l.wslot = 0 then none else s.slotAddr l l.wslot with
          | some a => .next (s.publish (some a) (bits (l.w 0) 63 48))
          | none => .next (s.admitLaunch l t)
  | _, _ => .next s

/-- DEPEND: NEEDED is published, and the queue waits until the slot fires; slot 0 is never waited on (R111, R112). -/
def execDependPacket (q : Nat) (s : State) : Host.Outcome State Fault Refusal :=
  match s.packet (.host q) with
  | none => .next s
  | some p =>
    if p.kind ≠ 1 then .next s
    else
      let l := newLaunch 0 p s.stamp0
      let s := s.takePacket (.host q)
      if l.wslot = 0 then .next s
      else
        let a := s.slotAddr l l.wslot
        .next ((s.setQwait { s.qwait q with depend := a }).publish a (bits (p.w 0) 63 48))

/-- SIGNAL adds 1 to DONECNT of SSLOT; slot 0 is never signalled. -/
def execSignalPacket (src : PacketSrc) (s : State) : Host.Outcome State Fault Refusal :=
  match s.packet src with
  | none => .next s
  | some p =>
    if p.kind ≠ 2 ∨ launchKind src 2 then .next s
    else
      let l := newLaunch 0 p s.stamp0
      let s := s.takePacket src
      .next (if l.sslot = 0 then s else s.signalAt (s.slotAddr l l.sslot))

/-- FETCH-FENCE holds its queue until every launch taken from it before has completed (R109). -/
def execFetchFencePacket (q : Nat) (s : State) : Host.Outcome State Fault Refusal :=
  match s.packet (.host q) with
  | none => .next s
  | some p =>
    if p.kind ≠ 3 then .next s
    else
      let s := s.takePacket (.host q)
      .next (s.setQwait { s.qwait q with fence := some (s.qwait q).launched })

/-- The fence is over: prefetched packets are discarded and fetched again. -/
def execFetchFenceRelease (q : Nat) (s : State) : Host.Outcome State Fault Refusal :=
  if (s.qwait q).fence = some [] then .next (s.setQwait { s.qwait q with fence := none, fetched := [] }) else .next s

/-- STAMP writes a stamp of the front end to CREC (R111). -/
def execStampPacket (src : PacketSrc) (s : State) : Host.Outcome State Fault Refusal :=
  match s.packet src with
  | none => .next s
  | some p =>
    if p.kind ≠ 4 ∨ launchKind src 4 then .next s
    else
      let d := s.stamp.bytes
      let s : State := (s.takePacket src).stamped
      .next (match s.granted p.ctx (p.w 6) 16 rWR true with
        | .ok bs => s.wrBlocks bs d
        | .error _ => (s.wrTarget p.ctx (p.w 6) d).getD s)

/-- Both words of a slot become zero. -/
def State.clearSlot (s : State) (a : Nat) : State := s.wrRw a (List.replicate 16 0)

/-- A slot fires when PUB is 1 and DONECNT equals NEEDED; above NEEDED its launch completes with DEPOVER and the slot is cleared. A DEPEND's slot above
NEEDED never fires and is not cleared: it has no launch to complete (DESIGN CHOICE, log 35, on R112). -/
def execSlotFire (addr : Nat) (s : State) : Host.Outcome State Fault Refusal :=
  let done := s.rd64 addr
  let pub := s.rd64 (addr + 8)
  if !(pub.getLsbD 63) then .next s
  else match s.launches.find? (fun l => decide (l.state = .waitSlot) && decide (s.slotAddr l l.wslot = some addr)) with
    | some l =>
      if done.toNat < bits pub 15 0 then .next s
      else if bits pub 15 0 < done.toNat then .next ((s.clearSlot addr).refuseLaunch l 7)
      else match s.acceptLaunch l with
        | none => .next s
        | some _ => .next (((s.clearSlot addr).acceptLaunch l).getD s)
    | none => match s.qwaits.find? (fun x => decide (x.depend = some addr)) with
      | none => .next s
      | some x => if done.toNat = bits pub 15 0 then .next ((s.clearSlot addr).setQwait { x with depend := none }) else .next s

/-- A waiting launch is placed when MINB bundles are eligible; level 0 goes before every other level (R388). -/
def execPendingLaunchPlace (lid : Half) (s : State) : Host.Outcome State Fault Refusal :=
  match s.launch lid with
  | none => .next s
  | some l =>
    if l.state ≠ .waitBundles ∨ s.urgentWaits l = true then .next s
    else if (s.choose l).isNone ∧ (s.wanted l).2 ≤ s.usable.length then .next s
    else .next (s.placeLaunch l)

end Sys2Proof.Machine
end

