-- ==== Sys2Proof/Machine/MsgEvents.lean ====
section
/-!
DEFINITION. Messages on their way (R103, R119, R188), the start of an activation (R86, R104), steals (R116), the rinse token (R119 to R121,
R134), and the group barrier (R118, R274).
-/

namespace Sys2Proof.Machine

open Sys2Proof

/-! ## Arrival -/

/-- The most recently accepted launch of a list (R119). -/
def latest : List Launch → Option Launch
  | [] => none
  | l :: r => match latest r with
    | none => some l
    | some x => if x.order < l.order then some l else some x

/-- The launch that a message from outside joins: the most recently accepted one that holds the core (R119). -/
def State.target (s : State) (c : CoreId) : Option Launch := latest (s.launches.filter (fun l => l.holds c))

/-- Header word 1 with another launch id. -/
def withLid (w : Word) (lid : Half) : Word := (w &&& ~~~(0xFFFF00000000#64)) ||| at64 lid.toNat 32

/-- Where a message goes: its context, its launch, and the message; none discards it. A message to a kernel core joins no launch. -/
def State.joins (s : State) (f : Flight) : Option (Half × Option Half × Msg) :=
  if s.coreAbsent f.dst then none
  else if f.dst.kernel then some (Config.edoiny, none, if f.outside then { f.msg with w1 := withLid f.msg.w1 0 } else f.msg)
  else if f.outside then (s.target f.dst).map (fun l => (l.ctx, some l.lid, { f.msg with w1 := withLid f.msg.w1 l.lid }))
  else match f.lid with
    | none => none
    | some lid => if (s.launch lid).isSome then some (f.ctx, some lid, f.msg) else none

def State.dropFlight (s : State) (id : Nat) : State := { s with net := s.net.filter (fun f => decide (f.id ≠ id)) }

/-- A steal reply with its record has come in: the thief may ask again (R116). -/
def State.stealEnds (s : State) (lid : Option Half) (f : Flight) : State :=
  if msgKind f.msg.w1 = 3 ∧ f.src = none then
    s.onLaunch lid (fun l => match l.ordinal f.dst with
      | none => l
      | some o => { l with stealOut := l.stealOut.filter (fun x => decide (x ≠ o)) })
  else s

/-- Two messages of one source to one core keep their order; a release waits for its cumulative set (R103, R162). -/
def State.mayArrive (s : State) (f : Flight) : Bool :=
  f.deps.all (fun d => !(s.pending d)) &&
  (s.net.takeWhile (fun g => decide (g.id ≠ f.id))).all (fun g => !(f.src.isSome && decide (g.src = f.src) && decide (g.dst = f.dst)))

/-- A message to a seam bundle ends there: the firewall drops and counts it where its set does not allow its source, which header word 1
names (R17, R212). -/
def State.atFirewall (s : State) (f : Flight) : State :=
  if f.dst.kernel ∨ !(s.seam.contains (bundleOf f.dst)) then s
  else
    let ok := match Assoc.get s.firewall (bundleOf f.dst) with
      | some w => w.sources.contains (f.msg.w1.getLsbD 56, bits f.msg.w1 13 0)
      | none => false
    if ok then s else { s with fwDrops := s.fwDrops + 1 }

/-- Lanes of a link (R208). -/
def State.lanesOf (s : State) (link : Nat) : Nat := if link < Config.links then Assoc.getD s.lanes link 8 else 0

/-- A link with a working lane that is routed to a device (R208, R212). -/
def State.linkTo (s : State) (d : Nat) : Option Nat :=
  (List.range Config.links).find? (fun l => decide (s.lanesOf l ≠ 0) && decide (Assoc.get s.routes l = some d))

/-- The operation whose completion has come in is outstanding no more (R103). -/
def State.ackFlight (s : State) (f : Flight) : State := match f.op with
  | some i => s.dropOp i
  | none => s

/-- A message for another device leaves on a link that is routed to it: the core's number, then the message. With no such link it is held (R208). -/
def State.sendAway (s : State) (f : Flight) (d : Nat) : State :=
  match s.linkTo d with
  | none => s
  | some link => { s.dropFlight f.id with peerOut := s.peerOut ++ [(link, leBytes 8 f.dst.idx ++ f.msg.bytes)] }

def execMessageArrival (id : Nat) (s : State) : Host.Outcome State Fault Refusal :=
  match s.net.find? (fun f => decide (f.id = id)) with
  | none => .next s
  | some f =>
    if !(s.mayArrive f) then .next s
    else match f.dev with
    | some d => .next (s.sendAway f d)
    | none => match s.joins f with
      | none => .next (((s.dropFlight id).atFirewall f).ackFlight f)
      | some (ctx, lid, m) =>
        match s.enter f.dst ctx lid f.counted lid.isSome m with
        | some s => .next (((s.dropFlight id).stealEnds lid f).ackFlight f)
        | none =>
          if s.frozenFor f.dst ctx then
            .next (match lid with
              | some l => (s.dropFlight id).endLaunch l 8
              | none => s)
          else if f.held then .next s
          else .next { s with net := s.net.map (fun g => if g.id = id then
              { g with held := true, since := s.clock, msg := m, ctx := ctx, lid := lid, outside := g.outside && lid.isNone } else g) }

/-- 2^20 network cycles of 1.2 GHz, in whole nanoseconds (R103, R127). -/
def holdLimit : Nat := 873814

/-- A message, or a SPAWN record at a full engine, held too long ends its launch with OVERFLOW; on a frozen core no timeout runs (R103, R126, R188). -/
def execMessageHoldTimeout (id : Nat) (s : State) : Host.Outcome State Fault Refusal :=
  match s.net.find? (fun f => decide (f.id = id)) with
  | some f =>
    match s.joins f with
    | some (ctx, some lid, _) =>
      if f.held && decide (f.since + holdLimit < s.clock) && !(s.frozenFor f.dst ctx) then .next (s.endLaunch lid 8) else .next s
    | _ => .next s
  | none =>
    match s.pnet.find? (fun f => decide (f.1 = id)) with
    | some (_, .spawn lid _ _ _ _ (some since)) => if since + holdLimit < s.clock then .next (s.endLaunch lid 8) else .next s
    | _ => .next s

/-! ## The start of an activation -/

/-- A basket message may start. -/
def State.startable (s : State) (c : CoreId) (m : Msg) : Bool :=
  if c.kernel then true
  else match s.launch (BitVec.ofNat 16 (bits m.w1 47 32)) with
    | none => false
    | some l => s.open l c

/-- The oldest message of the most urgent class. -/
def urgentMsg : List Msg → Option Msg
  | [] => none
  | m :: r => match urgentMsg r with
    | none => some m
    | some x => if msgClass x.w0 < msgClass m.w0 then some x else some m

def dropMsg (m : Msg) : List Msg → List Msg
  | [] => []
  | x :: r => if x = m then r else x :: dropMsg m r

/-- The launch whose task a free thread set of the core would start: the most urgent, then the one accepted first (R104, R388). -/
def State.taskLaunch (s : State) (c : CoreId) : Option Launch :=
  let waits := fun (l : Launch) => s.open l c && (match l.ordinal c with
    | none => false
    | some o => if l.pile then !l.conv && (s.pileOf (bundleOf c) l.lid).recs.any (fun r => !r.running) else !(l.deque o).2.isEmpty)
  (s.launches.filter waits).foldl (fun (a : Option Launch) l => match a with
    | none => some l
    | some x => if l.level < x.level ∨ (l.level = x.level ∧ l.order < x.order) then some l else some x) none

/-- A launch's watchdog budget under its context's cap (R66, R110, R189); a kernel core's program has that of WDOG 0. -/
def State.budgetOf (s : State) (lid : Option Half) (ctx : Half) : Nat :=
  let b := ((lid.bind s.launch).map Launch.budget).getD (2 ^ 20)
  match s.ctx ctx with
  | none => b
  | some c => if bits c.grant 8 4 = 0 then b else min b (2 ^ bits c.grant 8 4)

/-- Every other byte is undefined when an activation begins (R99; log 3), also for an activation that runs meanwhile on the core (log 45). -/
def State.forgetScratch (s : State) (c : CoreId) : State := forgetBut c (s.keptScratch c) 0 (s.scratchSize c) s

/-- Begin an activation on a free thread set: s1, s2 and v0 delivered, every other register zero, queues empty, TLEV 0 (R86, R104). -/
def State.begin (s : State) (t : TsId) (a : Activation) : State :=
  let s := s.forgetScratch t.core
  let x := (s.tsGet t).useVectors a.lid
  let s := s.tsSet t { x with
    sreg := [(1, a.msg.w0), (2, a.msg.w1)], vreg := [(0, a.msg.pay)], preg := [], slq := [], ssq := [], vlq := [], vsq := [],
    pc := at64 (bits a.msg.w0 47 2) 2, fpcsr := 0, trapen := 0, wbudget := BitVec.ofNat 64 (s.budgetOf a.lid a.ctx), tlev := 0, bank1 := {},
    bank2 := {}, sbuf := [], act := some a, stall := none, run := 0, softS := [], softV := [], softP := [], softQ := [] }
  match a.lid.bind s.launch with
  | none => s
  | some l =>
    if msgKind a.msg.w1 = 2 ∧ l.startst = none then
      (s.setLaunch { l with startst := some s.stamp, token := { started := true, at_ := 0, sum := 0, stain := false } }).stamped
    else s

/-- The message of a task: KIND 3 with the common scope of spawner and runner, which is at least 2 between cores (R101, R162). -/
def taskMsg (w0 s2 : Word) (c : CoreId) (pay : Vec) : Msg :=
  let from_ : CoreId := { kernel := s2.getLsbD 56, idx := bits s2 13 0 }
  { w0 := deliverW0 w0, w1 := s2 ||| at64 (commonScope from_ c) 48, pay := pay }

/-- Start a basket message. -/
def State.startMsg (s : State) (t : TsId) (m : Msg) : State :=
  let k := s.core t.core
  let lid : Option Half := if t.core.kernel then none else some (BitVec.ofNat 16 (bits m.w1 47 32))
  let ctx := if t.core.kernel then Config.edoiny else ((lid.bind s.launch).map Launch.ctx).getD 0
  let k2 := ({ k with basket := dropMsg m k.basket } : CoreSt).refill
  let s := (s.mirrorMembk t.core ctx k k2).setCore t.core k2
  s.begin t { origin := .message, msg := m, lid := lid, ctx := ctx, cls := msgClass m.w0, fetchTrap := none }

/-- Start the record at the owner end of a deque, once its spawner's release is complete (R115, R162). -/
def State.startTask (s : State) (t : TsId) (l : Launch) : State :=
  match l.ordinal t.core with
  | none => s
  | some o =>
    let (far, rs) := l.deque o
    match rs.getLast? with
    | none => s
    | some r =>
      if r.deps.any (fun d => s.pending d) then s
      else
        let s := s.setLaunch (l.setDeque o (far, rs.dropLast))
        let m := taskMsg (w64 (sliceB r.bytes 0 8)) r.s2 t.core (argPay r.bytes)
        s.begin t { origin := .deque r, msg := m, lid := some l.lid, ctx := l.ctx, cls := msgClass m.w0, fetchTrap := none }

/-- The choice of R104. A Pile task is dispatched by its engine (pileOffer). -/
def execActivationStart (t : TsId) (s : State) : Host.Outcome State Fault Refusal :=
  let ms := (s.core t.core).basket.filter (s.startable t.core)
  if !(s.idleTs t) || s.coreAbsent t.core then .next s
  else match s.taskLaunch t.core with
    | some l =>
      match ms.find? (fun m => decide (msgClass m.w0 < l.level)) with
      | some m => .next (s.startMsg t m)
      | none => if l.pile then .next s else .next (s.startTask t l)
    | none =>
      match urgentMsg ms with
      | some m => .next (s.startMsg t m)
      | none => .next s

/-! ## Steals -/

/-- The victim's deque controller answers: the record at the far end as a KIND 3 message, or an empty reply (R116, R184). -/
def execStealRequest (id : Nat) (s : State) : Host.Outcome State Fault Refusal :=
  match s.snet.find? (fun e => decide (e.1 = id)) with
  | some (_, .request lid thief victim) =>
    let s : State := { s with snet := s.snet.filter (fun e => decide (e.1 ≠ id)) }
    match s.launch lid with
    | none => .next s
    | some l =>
      let (far, rs) := l.deque victim
      let c := l.coreAt victim
      match rs with
      | r :: rest =>
        if s.open l c then
          let m := taskMsg (w64 (sliceB r.bytes 0 8)) r.s2 (l.coreAt thief) (argPay r.bytes)
          let s := (s.setLaunch (l.setDeque victim ((far + 1) % 256, rest))).countAt (some lid) c 1
          let s := s.post { id := 0, dst := l.coreAt thief, src := none, msg := m, ctx := l.ctx, lid := some lid, counted := true, outside := false,
                            deps := r.deps, held := false }
          .next (s.sendSteal lid victim)
        else .next { s with snet := s.snet ++ [(s.nextId, .reply lid thief)], nextId := s.nextId + 1 }
      | [] => .next { s with snet := s.snet ++ [(s.nextId, .reply lid thief)], nextId := s.nextId + 1 }
  | _ => .next s

/-- An empty reply: the thief asks the next victim if it is still idle. -/
def execEmptyStealReply (id : Nat) (s : State) : Host.Outcome State Fault Refusal :=
  match s.snet.find? (fun e => decide (e.1 = id)) with
  | some (_, .reply lid thief) =>
    let s : State := { s with snet := s.snet.filter (fun e => decide (e.1 ≠ id)) }
    .next ((s.onLaunch (some lid) (fun l => { l with stealOut := l.stealOut.filter (fun x => decide (x ≠ thief)) })).sendSteal lid thief)
  | _ => .next s

/-! ## The rinse token (R119 to R121, R134) -/

/-- Idle for the token. Under LEND basket and deque are ignored; ready Pile records are ignored under LEND and below tolerance. -/
def State.idleForToken (s : State) (l : Launch) (o : Nat) : Bool :=
  let c := l.coreAt o
  let runs := (threadsOf c).any (fun t => match (s.tsGet t).act with
    | some a => decide (a.lid = some l.lid)
    | none => false)
  !(s.frozenFor c l.ctx) && !runs && l.stealOut.isEmpty && (l.lend || (decide ((s.core c).held l.lid = 0) && (l.deque o).2.isEmpty)) &&
  (!l.pile || (s.pnet.all (fun e => match e.2 with
      | .stealReq x _ _ _ _ | .stealReply x _ _ _ _ _ | .fetch x _ _ _ | .retire x _ _ _ _ _ => decide (x ≠ l.lid)
      | _ => true) &&
    (decide (o % 8 ≠ 0) || (s.pileOf (bundleOf c) l.lid).recs.all (fun r => !r.running && (l.lend || l.conv)))))

/-- After a clean round: the launch ends, or, in PILE mode, dispatch resumes and another round begins. -/
def State.cleanRound (s : State) (l : Launch) : State :=
  let again : State := s.setLaunch { l with conv := false, token := { started := true, at_ := 0, sum := 0, stain := false } }
  if l.lend then s.endLaunch l.lid 1
  else if !l.pile then s.endLaunch l.lid 0
  else if l.conv then (if (s.exactResid l).toNat < l.tol.toNat then s.endLaunch l.lid 2 else again)
  else if l.bundles.all (fun b => (s.pileOf b l.lid).recs.isEmpty) then s.endLaunch l.lid 0 else again

def execRinseTokenVisit (lid : Half) (s : State) : Host.Outcome State Fault Refusal :=
  match s.launch lid with
  | none => .next s
  | some l =>
    let k := l.token
    if l.state ≠ .running ∨ !k.started ∨ !(s.idleForToken l k.at_) then .next s
    else
      let b := bundleOf (l.coreAt k.at_)
      let p := s.pileOf b lid
      let own := l.pile && decide (k.at_ % 8 = 0)
      let sum := k.sum + Assoc.getD l.counts k.at_ 0 + (if own then p.count else 0)
      let stain := k.stain || l.stains.contains k.at_ || (own && p.stain)
      let s : State := if own then s.setPile b lid { p with stain := false } else s
      let l : Launch := { l with stains := l.stains.filter (fun o => decide (o ≠ k.at_)) }
      if k.at_ + 1 < l.n then .next (s.setLaunch { l with token := { started := true, at_ := k.at_ + 1, sum := sum, stain := stain } })
      else if (s.ops ++ s.bundles.flatMap (fun b => b.2.frozen.flatMap Frozen.ops)).any (fun o => decide (o.lid = some lid) && decide (o.kind = .amo) && o.held) then
        .next s   -- a write to come (R122)
      else if stain || decide (sum ≠ 0) then .next (s.setLaunch { l with token := { started := true, at_ := 0, sum := 0, stain := false } })
      else .next ((s.setLaunch l).cleanRound l)

/-! ## The group barrier (R118, R274) -/

/-- A signed 64-bit value. -/
def sval (x : Nat) : Int := if 2 ^ 63 ≤ x then (x : Int) - 2 ^ 64 else x

/-- (S, C) of one fsum2 pair over the arrivals in order. -/
def fsum2 (q : Nat) : List Arrival → Nat × Nat → Nat × Nat
  | [], a => a
  | m :: r, (S, C) =>
    let x := (vWord m.vec (16 * q)).toNat
    let y := (vWord m.vec (16 * q + 8)).toNat
    let (t, e) := fFP64.twoSum S x
    fsum2 q r (t, (fFP64.add 0 (fFP64.add 0 C y).1 e).1)

/-- Payload bytes 0 to 31: the reduction that the lowest ordinal names, in increasing ordinal order. -/
def reduce (red : Nat) (l : List Arrival) : List Byte :=
  let vs := l.map (fun m => (vWord m.vec 0).toNat)
  let one := fun (x : Nat) => leBytes 8 x ++ List.replicate 24 0
  match red, vs with
  | 1, _ => one (vs.foldl (fun a x => (a + x) % 2 ^ 64) 0)
  | 2, v :: r => one (r.foldl (fun a x => if sval x < sval a then x else a) v)
  | 3, v :: r => one (r.foldl (fun a x => if sval a < sval x then x else a) v)
  | 4, _ => let p := fsum2 0 l (0, 0)
            let q := fsum2 1 l (0, 0)
            leBytes 8 p.1 ++ leBytes 8 p.2 ++ leBytes 8 q.1 ++ leBytes 8 q.2
  | _, _ => List.replicate 32 0

/-- The smallest scope that contains a group (R101). -/
def groupScope (cs : List CoreId) : Nat :=
  match cs with
  | [] => 1
  | c :: r => r.foldl (fun a d => max a (commonScope c d)) 1

/-- The KIND 6 message of a member. -/
def baraMsg (l : Launch) (a : Arrival) (scope : Nat) (pay : Vec) : Msg :=
  { w0 := deliverW0 a.hdr, w1 := header1 (l.coreAt a.ordinal).idx a.ts (a.seq.toNat % 65536) l.lid scope 6 false false, pay := pay }

/-- Complete the next epoch of a group, if every member has arrived for it (R118). -/
def State.baraComplete (s : State) (lid : Half) (g : Nat) : State :=
  match s.launch lid with
  | none => s
  | some l =>
    let ms := l.members g
    let k := (l.done.filter (fun e => decide (e.group = g))).foldl (fun a e => max a e.epoch) 0 + 1
    let here := ms.filterMap (fun o => l.arrivals.find? (fun a => decide (a.group = g) && decide (a.epoch = k) && decide (a.ordinal = o)))
    if ms.isEmpty ∨ here.length < ms.length then s
    else
      let red := ((here.head?).map Arrival.red).getD 0
      let pay := vec512 (reduce red here ++ leBytes 8 k ++ leBytes 8 ms.length)
      let scope := groupScope (ms.map l.coreAt)
      let s := s.setLaunch { l with done := { group := g, epoch := k, pay := pay } :: l.done.filter (fun e => !(decide (e.group = g) && decide (e.epoch + 256 ≤ k))),
                                    arrivals := l.arrivals.filter (fun a => !(decide (a.group = g) && decide (a.epoch + 256 ≤ k))) }
      here.foldl (fun s a => s.post { id := 0, dst := l.coreAt a.ordinal, src := none, msg := baraMsg l a scope pay, ctx := l.ctx, lid := some lid,
                                      counted := true, outside := false, deps := [], held := false }) s

/-- Complete the epochs of a group that are complete, in order. -/
def State.baraAll (s : State) (lid : Half) (g : Nat) : Nat → State
  | 0 => s
  | n + 1 => State.baraAll (s.baraComplete lid g) lid g n

/-- An arrival is combined, under its mark; a replay is not an arrival (R193). -/
def execBaraArrival (id : Nat) (s : State) : Host.Outcome State Fault Refusal :=
  match s.op id with
  | none => .next s
  | some o =>
    match o.lid.bind s.launch with
    | none => .next s
    | some l =>
      let own := groupOwner l.lid o.n
      if o.kind ≠ .bara ∨ o.deps.any (fun d => s.pending d) ∨ (s.remembered own o.mark).isSome ∨ (o.replay && s.markOld own o.mark) = true then .next s
      else
        let a : Arrival := { group := o.n, ordinal := (l.ordinal o.t.core).getD 0, epoch := o.operand.toNat, red := o.width, hdr := o.hdr, vec := o.vec,
                             seq := o.seq, ts := o.t.ts, mark := o.mark }
        let s := (s.dropOp id).remember own o.mark false o.operand
        .next ((s.setLaunch { l with arrivals := l.arrivals ++ [a] }).baraAll l.lid o.n (l.arrivals.length + 1))

end Sys2Proof.Machine
end

