-- ==== Sys2Proof/Machine/Press.lean ====
section
/-!
DEFINITION. The press instructions at issue: MMA (R143, R335), MRING and MRADV (R142), MZERO (R341) and MST (R145, R339).
What the press does with its queue stands in PressEvents.
-/

namespace Sys2Proof.Machine

open Sys2Proof

/-- Kernel cores have no press: its instructions are ILLOP there (R229). -/
def Exe.hasPress (e : Exe) : Except Stop Unit := if e.t.core.kernel then trap .illop 0 else .ok ()

/-- A ring that is bound in the launch of the activation. -/
def Exe.ring (e : Exe) (n : Nat) : Option Ring :=
  (Assoc.get (e.s.core e.t.core).rings n).filter (fun r => decide (r.lid = e.a.lid))

/-- A command names a ring. -/
def PressCmd.names (c : PressCmd) (n : Nat) : Bool :=
  match c.word with
  | .mma a b _ _ _ _ _ _ _ => decide (a.toNat = n) || decide (b.toNat = n)
  | _ => false

/-- Enter a command at the tail of the core's press queue of 8, with the activation's CLASS (R144). -/
def Exe.press (e : Exe) (w : Instr) (f : PressCmd → PressCmd) : Except Stop Exe :=
  let k := e.s.core e.t.core
  if 8 ≤ k.pressQ.length then stall .pressQ
  else
    let c := f { word := w, t := e.t, cls := e.a.cls, lid := e.a.lid.getD 0, addr := 0, stride := 0, hdr := 0, segs := [], held := false,
                 oseq := e.x.oseq, deps := e.x.rel.filter (fun d => e.s.pending d) }
    .ok { e with s := e.s.setCore e.t.core { k with pressQ := k.pressQ ++ [c] } }

def execMma (a b : BitVec 3) (sl : BitVec 3) (f g : BitVec 4) (z k j : Bool) (n : BitVec 3) (s : State) : Host.Outcome State Fault Refusal :=
  issue s fun e => do
    e.hasPress
    match e.ring a.toNat, e.ring b.toNat with
    | some ra, some rb =>
      if ra.fmt ≠ f.toNat ∨ rb.fmt ≠ g.toNat then trap .illop 0
      else if ra.count < n.toNat + 1 then trap .bound (BitVec.ofNat 64 ra.base)
      else if rb.count < n.toNat + 1 then trap .bound (BitVec.ofNat 64 rb.base)
      else do
        let e ← e.press (.mma a b sl f g z k j n) id
        e.next
    | _, _ => trap .bound 0

/-! ## Rings -/

/-- The ranges of a core's scratchpad that a ring must not overlap (R338): other rings, the areas of the core's launches, and their named regions, but
for one that holds the whole ring, which is then the ring's own storage (R243; log 30). -/
def State.reserved4 (s : State) (c : CoreId) (n base len : Nat) : List (Nat × Nat) :=
  let b := bundleOf c
  let ls := s.launches.filter (fun l => decide (l.state = .running) && l.bundles.contains b && (s.frozenImg c l.ctx).isNone)
  ((s.core c).rings.filter (fun r => decide (r.1 ≠ n))).map (fun r => (r.2.base, 64 + slotSize r.2.fmt * r.2.count)) ++
  ls.map (fun l => (s.areaBase l b, l.area)) ++
  ((s.regions.filter (fun r => ls.any (fun l => decide (r.ctx = l.ctx) && decide (r.entry = bits (l.w 1) 47 2 * 4)) &&
    !(decide (r.off ≤ base) && decide (base + len ≤ r.off + r.len)))).map (fun r => (r.off, r.len)))

/-- Overlapped bytes of a new ring become undefined (R338). -/
def State.forgetOverlaps (s : State) (c : CoreId) (base len : Nat) : List (Nat × Nat) → State
  | [] => s
  | r :: rest =>
    let lo := max base r.1
    let hi := min (base + len) (r.1 + r.2)
    State.forgetOverlaps (if lo < hi then s.forget (scratchBus c lo) (hi - lo) else s) c base len rest

def execMring (a b : Reg) (n : BitVec 3) (s : State) : Host.Outcome State Fault Refusal :=
  issue s fun e => do
    e.hasPress
    let (base, e) ← e.srcS a
    let (v, e) ← e.srcS b
    let count := bits v 7 0
    let fmt := bits v 11 8
    if bits v 63 12 ≠ 0 ∨ count = 0 ∨ 7 < fmt then trap .bound base else
    Exe.aligned base 64
    let size := e.s.scratchSize e.t.core
    let len := 64 + slotSize fmt * count
    if size ≤ base.toNat then trap .bound base
    else if size < base.toNat + len then trap .bound (BitVec.ofNat 64 size)
    else
      let k := e.s.core e.t.core
      if k.pressQ.any (fun c => c.names n.toNat) then stall .pressQ
      else
        let r : Ring := { base := base.toNat, count := count, fmt := fmt, lid := e.a.lid }
        (e.onState (fun s =>
          let rs := s.reserved4 e.t.core n.toNat base.toNat len
          let s := s.setCore e.t.core { k with rings := Assoc.set k.rings n.toNat r }
          let s := s.wr (scratchBus e.t.core base.toNat) (List.replicate 64 0)
          s.forgetOverlaps e.t.core base.toNat len rs)).next

/-- HEAD and TAIL of a ring. -/
def State.ringHead (s : State) (c : CoreId) (r : Ring) : Word32 := s.rd32 (scratchBus c r.base)
def State.ringTail (s : State) (c : CoreId) (r : Ring) : Word32 := s.rd32 (scratchBus c (r.base + 4))

/-- The thread set's earlier stores and SPILLs to scratchpad are performed (R142). -/
def Exe.waitScratch (e : Exe) : Except Stop Unit :=
  if e.s.ops.any (fun o => decide (o.t = e.t) && !o.orphan && (o.kind.isStore || decide (o.kind = .spill)) && o.segs.any (fun g => decide (scratchBase ≤ g.bus)))
  then stall .release else .ok ()

def execMradv (a : Reg) (n : BitVec 3) (s : State) : Host.Outcome State Fault Refusal :=
  issue s fun e => do
    e.hasPress
    let (v, e) ← e.srcS a
    match e.ring n.toNat with
    | none => trap .bound 0
    | some r =>
      let tail := e.s.ringTail e.t.core r
      let used := (tail - e.s.ringHead e.t.core r).toNat
      if bits v 63 16 ≠ 0 ∨ r.count < used + bits v 15 0 then trap .bound (BitVec.ofNat 64 r.base) else
      e.waitScratch
      (e.onState (fun s => s.wr32 (scratchBus e.t.core (r.base + 4)) (tail + v.setWidth 32))).next

/-! ## MZERO, MST -/

def execMzero (sl : BitVec 2) (s : State) : Host.Outcome State Fault Refusal :=
  issue s fun e => do
    e.hasPress
    let e ← e.press (.mzero sl) id
    e.next

/-- Check the 32 rows of an MST, row by row. -/
def Exe.mstRows (e : Exe) (stride : Word) (w : Nat) : Nat → Word → Except Stop (List Block)
  | 0, _ => .ok []
  | n + 1, a => do
    let bs ← e.check a w rWR
    let more ← e.mstRows stride w n (a + stride)
    .ok (bs ++ more)

def execMst (d a b : Reg) (m : BitVec 3) (sl : BitVec 2) (s : State) : Host.Outcome State Fault Refusal :=
  issue s fun e => do
    e.hasPress
    let (va, e) ← e.srcS a
    let (st, e) ← e.srcS b
    let (h, e) ← e.srcS d
    let w := mstRowBytes m.toNat
    Exe.aligned va 64
    if bits st 31 0 % 64 ≠ 0 then trap .align va
    else if bits st 63 32 ≠ 0 ∨ bits st 31 0 < w then trap .bound va
    else do
      let bs ← e.mstRows st w 32 va
      let rows : List Seg := bs.map (fun g => { va := g.va, bus := g.bus, len := g.len, off := 0 })
      let e ← e.press (.mst d a b m sl) (fun c => { c with addr := va, stride := st.toNat, hdr := h, held := anyNr bs, segs := rows })
      ((e.nextSeq).count).next

end Sys2Proof.Machine
end

