-- ==== Sys2Proof/Machine/MemEvents.lean ====
section
/-!
DEFINITION. What outstanding operations do after their issue: loads, stores, atomics, SPILLs and FILLs (R90, R96, R154 to R158), held and
parked accesses (R81), block operations (R279, R283), copies (R151, R288), MST rows (R145, R340), translations (R80), soft errors (R176).
-/

namespace Sys2Proof.Machine

open Sys2Proof

/-! ## Replays that fail -/

/-- A replayed operation faults, or meets an uncorrectable error: its context is killed with the cause and REPLAY set, and no trap is taken (R187). -/
def State.killReplay (s : State) (o : Op) (c : Cause) (a : Word) : State :=
  s.killContext o.ctx [{ cause := at64 c.code 0 ||| at64 1 8, epc := epcOf (s.tsGet o.t).pc, addr := a }] 0
    (whoWord o.t o.lid o.ctx (s.tsGet o.t).tlev false) none

/-! ## Loads, stores, atomics -/

/-- The answer of MARKQ: status and remembered result (R194, R334). A mark older than every one that the window holds is too old. -/
def State.query (s : State) (owner : Nat) (m : Word) : Word × Word :=
  let w := s.window? owner m
  let q : Word32 := m.setWidth 32
  match w.find? (fun e => decide (e.1 = q)) with
  | some (_, true, r) => (0, r)
  | some (_, false, _) => (2, 0)
  | none => match oldestSeq w with
    | none => (1, 0)
    | some e => if seqOlder q e then (2, 0) else (1, 0)

/-- MARKQ's query, behind every earlier operation of its thread set to the owner. -/
def State.markqNow (s : State) (o : Op) : State :=
  match s.ownerOf o with
  | none => s
  | some w =>
    if (s.older o.id).any (fun x => decide (x.t = o.t) && decide (s.ownerOf x = some w)) || o.deps.any (fun d => s.pending d) then s
    else
      let (st, r) := s.query w o.mark
      let s := if o.q = 1 then (s.fillS o.t o.id 0 (.ready st)).fillS o.t o.id 1 (.ready r) else s
      s.dropOp o.id

/-- A load performs its next piece; PREF ends with no effect; MARKQ is answered; KTLB gives its status (R157, R325, R346). -/
def execLoadPerformed (id : Nat) (s : State) : Host.Outcome State Fault Refusal :=
  match s.op id with
  | none => .next s
  | some o =>
    if o.held then .next s
    else match o.kind with
      | .ld | .vld | .vgath => match o.replay, s.loadError o with
        | true, some (c, a) => .next ((s.dropOp id).killReplay o c a)
        | _, _ => .next (s.loadPiece o)
      | .pref => .next (s.dropOp id)
      | .markq => .next (s.markqNow o)
      | .ktlb => if o.deps.any (fun d => s.pending d) then .next s
        else .next (s.endWith id 0)
      | _ => .next s

/-- The next piece of a store is taken by its point of visibility (R154, R156); of one that its launch has left behind, the record may go then (R122). -/
def execStoreTaken (id : Nat) (s : State) : Host.Outcome State Fault Refusal :=
  match s.op id with
  | none => .next s
  | some o =>
    if o.kind.isStore ∧ !o.parked then .next (if o.orphan then (s.storePiece o).close else s.storePiece o) else .next s

/-- The value that an atomic has pushed or would push, as its owner remembers it (R193, R262). -/
def State.pushed (s : State) (o : Op) : Word := ((s.ownerOf o).bind (fun w => s.remembered w o.mark)).getD 0

/-- While its core is being frozen, an operation's acknowledgement may still be on its way after its owner has applied it: `t` is the
machine with it applied and acknowledged (R184, R191). -/
def State.acked (t s : State) (o : Op) : State :=
  if s.freezingOn o.t.core o.ctx && Config.freeBool s.fresh o.id then
    { t with ts := s.ts, ops := s.ops.map (fun x => if x.id = o.id then { x with sent := true, data := leBytes 8 (t.pushed o).toNat } else x), fresh := s.fresh + 1 }
  else t

/-- An atomic at its point of visibility, not a replay under a remembered mark (R154, R193); then its acknowledgement, with the value that it read
(R262). -/
def execAmoPerform (id : Nat) (s : State) : Host.Outcome State Fault Refusal :=
  match s.op id with
  | none => .next s
  | some o =>
    let bad := o.segs.findSome? (fun g => (s.damage g).map (fun e => (e.1, if e.1 = .ecc then o.addr else g.va + BitVec.ofNat 64 e.2)))
    if o.kind = .amo ∧ o.sent then .next ((if o.q = 1 then s.fillS o.t id 0 (.ready (w64 o.data)) else s).dropOp id)
    else if o.kind ≠ .amo ∨ o.held = true ∨ s.known o = true ∨ !(s.clear o o.segs false) then .next s
    else if o.orphan then .next (s.amoNow o).close
    else match bad with
      | some (c, a) => if o.replay then .next ((s.dropOp id).killReplay o c a) else .next (s.amoNow o)
      | none => .next ((s.amoNow o).acked s o)

/-- A SPILL's 64 bytes are written and its token count falls (R96). -/
def execSpillComplete (id : Nat) (s : State) : Host.Outcome State Fault Refusal :=
  match s.op id with
  | none => .next s
  | some o => if o.kind = .spill ∧ s.clear o o.segs false then .next (s.storeNow o) else .next s

/-- A FILL delivers its register, after every older FILL of it (R96, R97). -/
def execFillDeliver (id : Nat) (s : State) : Host.Outcome State Fault Refusal :=
  match s.op id with
  | none => .next s
  | some o =>
    if o.kind ≠ .fill ∨ !(s.clear o o.segs false) ∨
        (s.older id).any (fun x => decide (x.t = o.t) && decide (x.kind = .fill) && decide (x.n = o.n)) then .next s
    else .next (s.fillNow o)

/-! ## Held and parked accesses (R81) -/

/-- The page of a held access is resident: it proceeds. A parked store is performed then, behind older parked stores to a page of its own
and behind what program order puts before it (R81, R167). -/
def execHeldAccessResume (id : Nat) (s : State) : Host.Outcome State Fault Refusal :=
  match s.op id with
  | none => .next s
  | some o =>
    let behind := o.parked && (s.older id).any (fun x => decide (x.t = o.t) && x.parked && x.pages.any (fun p => o.pages.contains p))
    if !(o.held || o.parked) || o.dead.isSome || behind then .next s
    else match s.recheckOp o with
      | .ok (o, false) =>
        if o.parked then .next (if s.clear o o.segs false then s.storeNow o else s)
        else .next (s.setOp { o with held := false })
      | _ => .next s

/-- The page of a held access is gone: the pop will raise XLATE, or the context is killed; a parked store stays for PARKED. The first byte of a
gather is that of its lowest active lane (log 44). A replay kills the context with REPLAY set, and no trap (R187). R81 speaks of a page that is
unmapped or lost: one that has lost the right, or whose thimble is gone, counts as such here, but for MST, whose kill records the cause itself
(R340; DESIGN CHOICE, log 44, on R81). Nothing pops the value of an operation that its launch has left behind: its context is killed. -/
def execHeldAccessFail (id : Nat) (s : State) : Host.Outcome State Fault Refusal :=
  match s.op id with
  | none => .next s
  | some o =>
    if !(o.held || o.parked) || o.dead.isSome then .next s
    else match s.recheckOp o with
      | .ok _ => .next s
      | .error (c, a) =>
        let first := ((o.segs.head?).map Seg.va).getD o.addr
        if o.replay && !o.orphan then .next ((s.dropOp id).killReplay o c a)
        else if o.parked then .next (s.setOp { o with dead := some (c, a) })
        else match o.kind with
          | .ld | .vld | .vgath | .amo =>
            if o.q ≠ 0 then .next ((s.fillBad o .xlate first).dropOp id)
            else .next (s.killFor o (at64 Cause.xlate.code 0) first)
          | .brd | .bwr => .next (s.killFor o (at64 Cause.xlate.code 0) a)
          | .mst => .next (s.killFor o (at64 c.code 0) a)
          | _ => .next (s.dropOp id)

/-! ## Block operations -/

/-- A block operation moves its lines and its completion enters the issuer's basket; where that is full the completion is held in the network,
and the operation stays outstanding, its destination undefined, until it has entered (R103, R279). An error in a line read stops it and is raised
at the thread set's next instruction; of a replay it kills (R187). -/
def State.blockDone (s : State) (o : Op) (kind scope : Nat) : State :=
  if o.held || o.sent || !(s.clear o (o.segs ++ o.dst) false) then s
  else match s.blockDamage o with
    | some e =>
      if o.orphan then (s.dropOp o.id).close
      else if o.replay then (s.dropOp o.id).killReplay o e.1 e.2
      else
        let x := s.tsGet o.t
        (s.tsSet o.t { x with pend := some e }).dropOp o.id
    | none =>
      let pay := vec512 (leBytes 8 o.addr.toNat ++ leBytes 8 o.operand.toNat ++ leBytes 4 o.n ++ List.replicate 28 0)
      let ops := s.ops
      let s := s.blockNow o
      let m := completion o kind scope pay
      if o.orphan then s.close
      else if o.lid.isSome ∧ (o.lid.bind s.launch).isNone then s
      else match s.enter o.t.core o.ctx o.lid true true m with
        | some u => u
        | none =>
          let s : State := { s with ops := ops.map (fun x => if x.id = o.id then { x with sent := true } else x) }
          s.post { id := 0, dst := o.t.core, src := none, msg := m, ctx := o.ctx, lid := o.lid, counted := true, outside := false, deps := [], held := true,
                   since := s.clock, op := some o.id }

def execBrdComplete (id : Nat) (s : State) : Host.Outcome State Fault Refusal :=
  match s.op id with
  | some o => if o.kind = .brd then .next (s.blockDone o 4 1) else .next s
  | none => .next s

def execBwrComplete (id : Nat) (s : State) : Host.Outcome State Fault Refusal :=
  match s.op id with
  | some o => if o.kind = .bwr then .next (s.blockDone o 5 4) else .next s
  | none => .next s

/-! ## Copies (R151, R288, R289) -/

/-- The engines of a die that are present: eight on each compute die, none on an I/O die (R13, R21, R22). -/
def State.copyEngines (s : State) (die : Nat) : Nat :=
  if die < Config.dies then ((List.range 8).filter (fun i => !(s.absentCE.contains (8 * die + i)))).length else 0

/-- The dies whose engines serve the queues of a context: those on which it has launches and no bundle of which is freezing or frozen for it (R151,
R184). Edoiny has none: its kernel cores' copies are served by the engines of every compute die (DESIGN CHOICE, log 44). -/
def State.copyDies (s : State) (ctx : Half) : List Nat :=
  (List.range Config.dies).filter (fun d => decide (ctx = Config.edoiny) ||
    (s.launches.any (fun l => decide (l.ctx = ctx) && decide (l.state = .running) && l.bundles.any (fun b => decide (b / Config.bundlesPerDie = d))) &&
     !(s.bundles.any (fun b => decide (b.1 / Config.bundlesPerDie = d) &&
       ((b.2.freezing.map (fun f => decide (f.1 = ctx))).getD false || b.2.frozen.any (fun f => decide (f.ctx = ctx)))))))

/-- The operations in frozen records. -/
def State.frozenOps (s : State) : List Op := s.bundles.flatMap (fun b => b.2.frozen.flatMap Frozen.ops)

/-- The queue's entry at HEAD and its operation, outstanding or captured, where every earlier store of its thread set is taken. A captured one that is
done waits for its THAW. -/
def State.copyHead (s : State) (q : CopyQ) : Option (CopyE × Op) :=
  match q.ents with
  | [] => none
  | e :: _ =>
    let all := if (s.op e.op).isSome then s.ops else s.frozenOps
    match all.find? (fun o => decide (o.id = e.op)) with
    | none => none
    | some o =>
      let before := decide (e.prog = 0) && (o.deps.any (fun d => s.pending d) ||
        (all.takeWhile (fun x => decide (x.id ≠ o.id))).any (fun x => decide (x.t = o.t) && x.kind.writes && !x.orphan))
      let waits := (s.op e.op).isNone && decide (dRowLen e.desc * dRows e.desc ≤ e.prog)
      if before || waits then none else some (e, o)

/-- Since when a queue has waited for its turn: 0 for one never served, else its place among those served, the latest last. -/
def State.copyTurnOf (s : State) (q : CopyQ) : Nat := match indexOf? s.copyTurn (q.level, q.ctx) with | some i => i + 1 | none => 0

/-- A queue whose entry at HEAD is begun: an engine leaves it only for a more urgent one. -/
def CopyQ.begun (q : CopyQ) : Bool := match q.ents with | e :: _ => decide (e.prog ≠ 0) | [] => false

/-- An engine comes to queue `x` before `q`: by level, then to one it works on already, then in turn. -/
def State.copyBefore (s : State) (x q : CopyQ) : Bool :=
  decide (x.level < q.level) || (decide (x.level = q.level) &&
    ((x.begun && !q.begun) || (decide (x.begun = q.begun) && decide (s.copyTurnOf x < s.copyTurnOf q))))

/-- An engine may serve the queue: on a die of its context, fewer queues that the die serves come before it than the die has engines (R151). -/
def State.copyTurnOk (s : State) (q : CopyQ) : Bool :=
  let before := s.copyQs.filter (fun x => decide (x ≠ q) && (s.copyHead x).isSome && s.copyBefore x q)
  (s.copyDies q.ctx).any (fun d => decide ((before.filter (fun x => (s.copyDies x.ctx).contains d)).length < s.copyEngines d))

/-- The KIND 7 message of an entry. -/
def copyMsg (o : Op) (e : CopyE) (status : Nat) : Msg :=
  completion o 7 1 (vec512 (leBytes 8 (dSrc e.desc).toNat ++ leBytes 8 (dDst e.desc).toNat ++ leBytes 8 e.prog ++ leBytes 8 status ++ List.replicate 16 0))

/-- The entry's completion enters its issuer's basket, and HEAD advances; a full basket leaves it at HEAD (R288). -/
def State.copyDone (s : State) (q : CopyQ) (e : CopyE) (o : Op) (status : Nat) : State :=
  match s.enter o.t.core o.ctx o.lid true true (copyMsg o e status) with
  | none => s
  | some s =>
    let q : CopyQ := { q with head := q.head + 1, ents := q.ents.drop 1 }
    ((s.setCopyQ q).syncCopyQ q q.ents.length).dropOp o.id

/-- An engine moves the next chunk of the entry at HEAD. Of one whose core is frozen, PROG advances and the completion waits for the THAW; scratchpads
then stand in the save blocks (R151, R184, R185, R289). -/
def execCopyEngineChunk (ctx : Half) (level : Nat) (s : State) : Host.Outcome State Fault Refusal :=
  let q := s.copyQ ctx level
  match s.copyHead q with
  | none => .next s
  | some (e, o) =>
    if !(s.copyTurnOk q) then .next s
    else
      let captured := (s.op e.op).isNone
      let v : View := { o.view with late := captured }
      let f := if captured then s.imageAt ctx else id
      let total := dRowLen e.desc * dRows e.desc
      let put := fun (s : State) (n : Nat) =>
        let e : CopyE := { e with prog := e.prog + n }
        let q : CopyQ := { q with ents := e :: q.ents.drop 1 }
        let turn := if e.prog = n then s.copyTurn.filter (fun x => decide (x ≠ (level, ctx))) ++ [(level, ctx)] else s.copyTurn
        let s : State := { (s.setCopyQ q).syncCopyQ q 0 with copyTurn := turn }
        (s, q, e)
      let done := fun (r : State × CopyQ × CopyE) (status : Nat) => if captured then r.1 else r.1.copyDone r.2.1 r.2.2 o status
      if total ≤ e.prog then .next (done (s, q, e) 0)
      else
        let smeared := s.copyOverlaps v e.desc
        let rest := fun (s : State) (n : Nat) => put (if smeared then s.smearChunk f v e.desc e.prog n else s) n
        match s.copyChunk f v e.desc e.prog with
        | (_, .held) => .next s
        | (s, .moved n) => .next (if total ≤ e.prog + n then done (rest s n) 0 else (rest s n).1)
        | (s, .stopped n c) => .next (done (rest s n) c.code)

/-! ## MST rows (R145, R339, R340) -/

/-- Every row is written, and the completion enters the issuer's basket; a page that fails now kills the context. -/
def execMstComplete (id : Nat) (s : State) : Host.Outcome State Fault Refusal :=
  match s.op id with
  | none => .next s
  | some o =>
    if o.kind ≠ .mst ∨ o.held ∨ o.deps.any (fun d => s.pending d) then .next s
    else match s.recheckOp o with
      | .error (c, a) => .next (s.killFor o (at64 c.code 0) a).close
      | .ok (_, true) => .next s
      | .ok (o, false) =>
        let pay := vec512 (leBytes 8 o.addr.toNat ++ leBytes 4 o.operand.toNat ++ leBytes 1 (o.mst % 4) ++ leBytes 1 (o.mst / 4) ++ List.replicate 34 0)
        .next (if o.orphan then (s.storeNow o).close else (s.storeNow o).deliver o.t.core o.ctx o.lid (completion o 8 1 pay))

/-! ## Translation, watchdog, soft errors -/

/-- A walk has completed: the bundle keeps the leaf it found, among its 2,048 entries the latest (R80; log 9). -/
def execTranslationWalkComplete (b : Nat) (ctx : Half) (va : Word) (s : State) : Host.Outcome State Fault Refusal :=
  if 2 ^ 48 ≤ va.toNat then .next s
  else match s.lookup ctx va.toNat with
    | none => .next s
    | some l =>
      let k := s.bundle b
      let e : TcEntry := { ctx := ctx, page := va.toNat / 65536, phys := l.phys, rights := l.rights, nr := l.nr, aff := l.aff, large := l.large }
      .next (s.setBundle b { k with tc := (e :: k.tc.filter (fun x => !(decide (x.ctx = ctx) && decide (x.page = e.page)))).take 2048 })

/-- WBUDGET is 0: the next instruction to issue raises WDOG (R176). -/
def execWatchdogExpiry (t : TsId) (s : State) : Host.Outcome State Fault Refusal :=
  let x := s.tsGet t
  if x.act.isNone ∨ x.wbudget ≠ 0 then .next s else .next ((s.tick t false).takeTrap t Cause.wdog.code 0)

/-- An uncorrectable error strikes registers, a queue, scratchpad, or, below the scratchpads, stack memory (R176). -/
def execSoftError (x : SoftTarget) (s : State) : Host.Outcome State Fault Refusal :=
  match x with
  | .sreg t n => let y := s.tsGet t
                 .next (s.tsSet t { y with softS := n :: y.softS })
  | .vreg t n => let y := s.tsGet t
                 .next (s.tsSet t { y with softV := n :: y.softV })
  | .preg t n => let y := s.tsGet t
                 .next (s.tsSet t { y with softP := n :: y.softP })
  | .queue t n => let y := s.tsGet t
                  .next (s.tsSet t { y with softQ := n :: y.softQ })
  | .scratch a => if scratchBase ≤ a then .next { s with softMem := a :: s.softMem } else .next { s with eccMem := a :: s.eccMem }

end Sys2Proof.Machine
end

