-- ==== Sys2Proof/Machine/PileEvents.lean ====
section
/-!
DEFINITION. The Pile engines: arriving records (R126, R240), gain updates (R129, R241), samples and broadcasts (R127, R130, R134), offers,
steals and dispatch (R127), and retirement (R133).
-/

namespace Sys2Proof.Machine

open Sys2Proof

/-! ## Records of an engine -/

/-- Top: the ready record of largest gain, ties to the lower index. -/
def Pile.top (p : Pile) : Option PileRec := (sortRecs (p.recs.filter (fun r => !r.running))).head?

/-- Take: the record runs with its gain; P and TOUCHED are clear. -/
def Pile.take (p : Pile) (r : PileRec) : Pile := p.onRec r.index (fun x => { x with running := true, p := 0, touched := false })

/-- SpawnArrive at an engine (R126); none when it holds 8,192 records. -/
def Pile.arrive (p : Pile) (r : PileRec) : Option Pile :=
  match p.find r.index with
  | some q =>
    if q.running then some (p.onRec r.index (fun x => { x with p := min (x.p + r.gain) maxGain, touched := true }))
    else some (p.onRec r.index (fun x => { x with gain := min (x.gain + r.gain) maxGain }))
  | none => if p.recs.length < 8192 then some (p.put (p.recs ++ [r])) else none

/-- The engine is part of a frozen image, which logs what reaches it (R185). -/
def State.frozenPile (s : State) (b : Nat) (lid : Half) : Option Frozen :=
  (s.bundle b).frozen.find? (fun f => (Assoc.get f.piles lid).isSome)

/-- Its entries in use, for every frozen engine of the context. -/
def State.logUsed (s : State) (ctx : Half) : Nat :=
  s.bundles.foldl (fun a b => (b.2.frozen.filter (fun f => decide (f.ctx = ctx))).foldl (fun a f => a + f.excess.length) a) 0

/-- The first entry from `n` on, in the log's round, that no frozen engine of the context holds (log 42). -/
def State.logSlot (s : State) (ctx : Half) (n : Nat) : Nat :=
  let used := s.bundles.flatMap (fun b => (b.2.frozen.filter (fun f => decide (f.ctx = ctx))).flatMap Frozen.excess)
  let m := s.logSlots ctx
  (((List.range (used.length + 1)).map (fun i => (n + i) % m)).find? (fun k => !(used.contains k))).getD (n % m)

/-- 32 bytes of a log entry: a record (R124), or the mark, index, function and operand of an update (log 17). -/
def ULogEntry.bytes : ULogEntry → List Byte
  | .record _ r _ => r.bytes
  | .upd o => leBytes 8 o.mark.toNat ++ leBytes 8 o.addr.toNat ++ leBytes 8 o.operand.toNat ++ leBytes 8 o.fn.toNat

/-- What the header word of a record's spawner says, in 18 bits: SRC and TS, then MARK and KSRC (R100). -/
def spawnerBits (s2 : Word) : Nat := bits s2 15 0 + 2 ^ 16 * bits s2 56 55
def spawnerBack (lid : Half) (n : Nat) : Word := at64 (n % 2 ^ 16) 0 ||| at64 lid.toNat 32 ||| at64 3 51 ||| at64 (n / 2 ^ 16 % 4) 55

/-- The word beside a log entry, which ULOG has no room for (log 17): present, an update, then a record's spawner and release group, or an update's source
and operation. -/
def ULogEntry.word : ULogEntry → Nat
  | .record _ r g => 1 + 2 ^ 3 * spawnerBits r.s2 + 2 ^ 21 * (g % 2 ^ 43)
  | .upd o => 3 + 2 ^ 3 * (o.t.core.idx % 2 ^ 14 + 2 ^ 14 * o.t.ts) + 2 ^ 21 * (o.id % 2 ^ 43)

/-- An arrival at a frozen engine is logged: in ULOG, or in the context's overflow log, whose end ends the launch with OVERFLOW (R185, R189). -/
def State.logFor (s : State) (b : Nat) (f : Frozen) (lid : Half) (e : ULogEntry) : State :=
  if f.ulog.length < 65536 then
    ((s.setFrozen b { f with ulog := f.ulog ++ [e] }).wr (f.blk + 0x580000 + 32 * f.ulog.length) e.bytes).wr
      (f.blk + 0x780000 + 8 * f.ulog.length) (leBytes 8 e.word)
  else if s.logSlots f.ctx ≤ s.logUsed f.ctx then s.endLaunch lid 8
  else
    match s.ctx f.ctx, s.logBase f.ctx with
    | some c, some a =>
      let n := s.logSlot f.ctx c.logNext
      let s := (s.setFrozen b { f with ulog := f.ulog ++ [e], excess := f.excess ++ [n] }).wr (a + 32 * n) e.bytes
      { s with ctxs := Assoc.set s.ctxs f.ctx { c with logNext := n + 1 } }
    | _, _ => s.endLaunch lid 8

/-! ## Arriving records -/

/-- Records arrive one after another, each counting −1 at the engine and staining it (R119, R126); none when the engine has no room for all of them. -/
def Pile.arriveAll (p : Pile) : List PileRec → Option Pile
  | [] => some p
  | r :: rs => match p.arrive r with
    | none => none
    | some p => Pile.arriveAll { p with count := p.count - 1, stain := true } rs

/-- The records of one release at one engine, in program order (R240): the launch and engine they go to, their release group. -/
def State.spawnGroup (s : State) (home grp : Nat) : List (Nat × PileNet) :=
  s.pnet.filter (fun e => match e.2 with
    | .spawn _ h _ _ g _ => decide (h = home) && decide (g = grp)
    | _ => false)

def PileNet.rec? : PileNet → Option PileRec
  | .spawn _ _ r _ _ _ => some r
  | _ => none

/-- They enter the engine, or its log while it is frozen; an engine without room for all of them leaves them held. -/
def State.spawnAll (s : State) (lid : Half) (home grp : Nat) : State :=
  let es := s.spawnGroup home grp
  let rs := es.filterMap (fun e => e.2.rec?)
  let drop : State := { s with pnet := s.pnet.filter (fun x => !(es.any (fun e => decide (e.1 = x.1)))) }
  if (s.launch lid).isNone then drop
  else if (s.frozenPile home lid).isSome then
    rs.foldl (fun s r => match s.frozenPile home lid with
      | some f => s.logFor home f lid (.record lid r grp)
      | none => s) drop
  else match (s.pileOf home lid).arriveAll rs with
    | some p => drop.setPile home lid p
    | none => { s with pnet := s.pnet.map (fun x => match x.2 with
        | .spawn l h r d g since => if h = home ∧ g = grp then (x.1, .spawn l h r d g (some (since.getD s.clock))) else x
        | _ => x) }

/-- The records that one DONE released to one engine arrive in program order, as one step (R240), once the release is complete (R162). -/
def execSpawnArrive (id : Nat) (s : State) : Host.Outcome State Fault Refusal :=
  match s.pnet.find? (fun e => decide (e.1 = id)) with
  | some (_, .spawn lid home _ deps grp _) => if deps.any (fun d => s.pending d) then .next s else .next (s.spawnAll lid home grp)
  | _ => .next s

/-! ## Gain updates -/

/-- What GGET pushes. -/
def Pile.look (p : Pile) (i : Word32) : Word :=
  match p.find i with
  | none => 0
  | some x => at64 x.gain 0 ||| at64 (if x.running then 1 else 0) 32 ||| at64 1 33

/-- Apply an update at its engine under its mark; with M set it counts in MAPPL (R131, R193). -/
def State.applyGain (s : State) (lid : Half) (home : Nat) (o : Op) : State :=
  if !(s.poolOk o.ctx (pileOwner home) o.mark) then s.endLaunch lid 8
  else
    let (p, r) := (s.pileOf home lid).update o.n (o.addr.setWidth 32) o.operand
    let m := o.fn.getLsbD 2
    let s := ((s.setPile home lid p).remember (pileOwner home) o.mark m r).mirrorWindow o.ctx (pileOwner home) o.mark
    let s := if m then s.onLaunch (some lid) (fun l => { l with mappl := l.mappl + 1 }) else s
    s.dropOp o.id

/-- An update reaches its home engine, in the program order of its thread set to that engine (R132). -/
def execGainUpdateApply (id : Nat) (s : State) : Host.Outcome State Fault Refusal :=
  match s.op id with
  | none => .next s
  | some o =>
    match o.lid.bind s.launch with
    | none => .next s
    | some l =>
      let home := l.home (o.addr.setWidth 32)
      let own := pileOwner home
      let before := (s.older id).any (fun x => decide (x.t = o.t) && (decide (x.kind = .gain) || decide (x.kind = .gget)) && decide (s.ownerOf x = some own))
      if before || o.deps.any (fun d => s.pending d) then .next s
      else match o.kind, s.frozenPile home l.lid with
        | .gain, some f =>
          if f.ulog.any (fun e => match e with | .upd x => decide (x.id = id) | _ => false) then .next s else .next (s.logFor home f l.lid (.upd o))
        | .gain, none =>
          if o.sent then .next (s.dropOp id)
          else if (s.remembered own o.mark).isSome || (o.replay && s.markOld own o.mark) then .next s
          else .next ((s.applyGain l.lid home o).acked s o)
        | .gget, none =>
          let v := (s.pileOf home l.lid).look (o.addr.setWidth 32)
          .next ((if o.q = 1 then s.fillS o.t id 0 (.ready v) else s).dropOp id)
        | _, _ => .next s

/-! ## Samples -/

/-- The largest ready gain of a launch and its bundle, ties to the lower index (R127). The records of an engine that stands in a frozen image do not
count: nothing can be stolen there (DESIGN CHOICE, log 44, on R127). -/
def State.sampleTop (s : State) (l : Launch) : Nat × Option Nat :=
  let r := l.bundles.foldl (fun (a : Option (PileRec × Nat)) b =>
    match (s.pileOf b l.lid).top, a with
    | some r, some (x, c) => if x.gain < r.gain ∨ (x.gain = r.gain ∧ r.index.toNat < x.index.toNat) then some (r, b) else some (x, c)
    | some r, none => some (r, b)
    | none, a => a) none
  match r with
  | none => (0, none)
  | some (r, b) => (r.gain, some b)

/-- The reduction network samples a launch: RESID, and a broadcast to every engine; below TOL dispatch stops (R127, R130, R134). Before the root
activation has begun, and with it the token's rounds, no sample is compared with TOL (DESIGN CHOICE, log 44). The token's round begins again then, so
that the clean one comes after it. -/
def execPileSample (lid : Half) (s : State) : Host.Outcome State Fault Refusal :=
  match s.launch lid with
  | none => .next s
  | some l =>
    if l.state ≠ .running ∨ !l.pile then .next s
    else
      let g := s.sampleTop l
      let r := s.exactResid l
      let below := l.token.started && decide (r.toNat < l.tol.toNat)
      let s := s.setLaunch { l with resid := r, conv := l.conv || below, token := if below && !l.conv then l.token.again else l.token }
      .next (l.bundles.foldl (fun s b =>
        if (s.frozenPile b lid).isSome then s
        else
          let p := s.pileOf b lid
          s.setPile b lid { p with coming := p.coming ++ [g] }) s)

/-- An engine receives the next broadcast, in sample order. -/
def execPileBroadcastReceive (lid : Half) (b : Nat) (s : State) : Host.Outcome State Fault Refusal :=
  match (Assoc.get (s.bundle b).piles lid) with
  | none => .next s
  | some p =>
    match p.coming with
    | [] => .next s
    | g :: r => .next (s.setPile b lid { p with bcast := g, coming := r })

/-! ## Dispatch -/

/-- Begin the dispatch of a taken record: its footprint is fetched. -/
def State.fetch (s : State) (lid : Half) (t : TsId) (r : PileRec) (home : Nat) : State :=
  { s with pnet := s.pnet ++ [(s.nextId, .fetch lid t { r with running := true, p := 0, touched := false } home)], nextId := s.nextId + 1 }

/-- The engine may dispatch for its launch on a core. -/
def State.dispatches (s : State) (l : Launch) (c : CoreId) : Bool := s.open l c && !l.conv

/-- PileOffer for a free thread set (R127), when R104 puts nothing before it. -/
def execPileOffer (t : TsId) (s : State) : Host.Outcome State Fault Refusal :=
  let c := t.core
  let b := bundleOf c
  match s.launches.find? (fun l => l.pile && s.dispatches l c) with
  | none => .next s
  | some l =>
    let urgent := (s.core c).basket.any (fun m => s.startable c m && decide (msgClass m.w0 < l.level))
    let other := ((s.taskLaunch c).map (fun x => decide (x.lid ≠ l.lid))).getD false
    if !(s.idleTs t) || s.coreAbsent c || other then .next s
    else
      let p := s.pileOf b l.lid
      let m := p.top
      if urgent then .next s
      else
        let dispatch := fun (r : PileRec) => (s.setPile b l.lid (p.take r)).fetch l.lid t r b
        let steal := fun (h : Nat) =>
          let s := s.setPile b l.lid { p with stealOut := true }
          ({ s with pnet := s.pnet ++ [(s.nextId, .stealReq l.lid h b t (m.map PileRec.index))], nextId := s.nextId + 1 } : State)
        let fits := (m.map (fun r => decide (p.bcast.1 ≤ r.gain * 2 ^ l.theta))).getD false
        match m, p.bcast.2 with
        | some r, none => .next (dispatch r)
        | some r, some h => if fits then .next (dispatch r) else if h ≠ b ∧ !p.stealOut then .next (steal h) else .next (dispatch r)
        | none, some h => if h ≠ b ∧ !p.stealOut then .next (steal h) else .next s
        | none, none => .next s

/-- The victim engine answers with its top record, which then runs, or with nothing. No reply between engines moves C or a stain bit: the record does not
change its home engine, which counts it until it retires (DESIGN CHOICE, log 44, on R119 and R127). -/
def execPileStealRequest (id : Nat) (s : State) : Host.Outcome State Fault Refusal :=
  match s.pnet.find? (fun e => decide (e.1 = id)) with
  | some (_, .stealReq lid home thief t own) =>
    let s : State := { s with pnet := s.pnet.filter (fun e => decide (e.1 ≠ id)) }
    match s.launch lid with
    | none => .next s
    | some l =>
      let reply := fun (s : State) (r : Option PileRec) =>
        ({ s with pnet := s.pnet ++ [(s.nextId, .stealReply lid thief t r home own)], nextId := s.nextId + 1 } : State)
      let p := s.pileOf home lid
      match p.top with
      | none => .next (reply s none)
      | some r => if s.dispatches l (cc (8 * home)) then .next (reply (s.setPile home lid (p.take r)) (some r)) else .next (reply s none)
  | _ => .next s

/-- A record taken for a thread set that starts no activation of its launch any more goes back to its engine (R121, R134). -/
def State.giveBack (s : State) (id : Nat) (lid : Half) (home : Nat) (r : PileRec) (t : TsId) : State :=
  { s with pnet := s.pnet.filter (fun e => decide (e.1 ≠ id)) ++ [(s.nextId, .retire lid home { r with fplen := 0 } true t 0)], nextId := s.nextId + 1 }

/-- The reply comes in: the stolen record is dispatched, or the thief's own, if it is still ready. -/
def execPileStealReply (id : Nat) (s : State) : Host.Outcome State Fault Refusal :=
  match s.pnet.find? (fun e => decide (e.1 = id)) with
  | some (_, .stealReply lid thief t r home own) =>
    match s.launch lid with
    | none => .next { s with pnet := s.pnet.filter (fun e => decide (e.1 ≠ id)) }
    | some l =>
      if s.frozenFor t.core l.ctx then .next s
      else
        let s : State := { s with pnet := s.pnet.filter (fun e => decide (e.1 ≠ id)) }
        let p : Pile := { s.pileOf thief lid with stealOut := false }
        let s := s.setPile thief lid p
        match r, own.bind p.find with
        | some r, _ => .next (if l.lend then s.giveBack id lid home r t else s.fetch lid t r home)
        | none, some m => if !m.running && s.dispatches l t.core then .next ((s.setPile thief lid (p.take m)).fetch lid t m thief) else .next s
        | none, none => .next s
  | _ => .next s

/-- The lowest free run of `n` bytes in an area. -/
def freeRun (lo hi n : Nat) (used : List (Nat × Nat)) : Option Nat :=
  let fits := fun (a : Nat) => decide (lo ≤ a) && decide (a + n ≤ hi) && used.all (fun u => decide (a + n ≤ u.1) || decide (u.1 + u.2 ≤ a))
  ((lo :: used.map (fun u => u.1 + u.2)).filter fits).foldl (fun (a : Option Nat) x => match a with | none => some x | some y => some (min x y)) none

/-- The payload of a dispatch (R127). -/
def pilePay (c : CoreId) (r : PileRec) (run : Nat) : Vec :=
  vec512 (leBytes 4 r.index.toNat ++ leBytes 4 r.gain ++ leBytes 8 r.fpbase.toNat ++ leBytes 4 r.fplen ++ leBytes 4 r.arg.toNat ++
    leBytes 8 (if c.kernel then scratchBus c run else run))

/-- The footprint is in its pinned run, which is claimed now (DESIGN CHOICE, log 44, on R127), and the activation begins; a fault of the fetch becomes its first instruction's trap (R127). HDR [51:0] is
delivered as it stands, a CLASS of 12 to 15 too, where R100 makes it 11 in a message (DESIGN CHOICE, log 44, on R127). -/
def execFootprintFetchComplete (id : Nat) (s : State) : Host.Outcome State Fault Refusal :=
  match s.pnet.find? (fun e => decide (e.1 = id)) with
  | some (_, .fetch lid t r home) =>
    match s.launch lid with
    | none => .next s
    | some l =>
      let c := t.core
      let base := s.areaBase l (bundleOf c)
      if l.lend then .next (s.giveBack id lid home r t)
      else match freeRun base (base + l.area) r.fplen (s.pinned c) with
      | none => .next s
      | some run =>
        let drop : State := { s with pnet := s.pnet.filter (fun e => decide (e.1 ≠ id)) }
        let w0 := at64 (bits r.hdr 51 0) 0
        let m : Msg := { taskMsg w0 r.s2 c (pilePay c r run) with w0 := w0 }
        let a : Activation := { origin := .pile r home run, msg := m, lid := some lid, ctx := l.ctx, cls := msgClass w0, fetchTrap := none }
        if s.frozenFor c l.ctx then .next s
        else match s.check { core := c, ctx := l.ctx, lid := some lid } r.fpbase r.fplen rRD with
          | .error e => .next (drop.begin t { a with fetchTrap := some e })
          | .ok bs => if anyNr bs then .next s else .next ((drop.wr (scratchBus c run) (s.rdBlocks bs)).begin t a)
  | _ => .next s

/-! ## Retirement (R133) -/

/-- The record leaves its engine; a touched one is ready again with P. A trap returns it with its gain and P merged. MARK is that of the end (R180). -/
def Pile.retire (p : Pile) (r : PileRec) (back : Bool) : Pile :=
  match p.find r.index with
  | none => p
  | some x =>
    if back then p.onRec r.index (fun y => { y with running := false, gain := min (y.gain + y.p) maxGain, p := 0, touched := false, s2 := r.s2 })
    else if x.touched && decide (0 < x.p) then p.onRec r.index (fun y => { y with running := false, gain := y.p, p := 0, touched := false, s2 := r.s2 })
    else p.put (p.recs.filter (fun y => decide (y.index ≠ r.index)))

/-- The write-back, the unpinning and the engine's step, which waits while the engine is frozen. A footprint that is no longer writable
kills the context. -/
def execPileRetire (id : Nat) (s : State) : Host.Outcome State Fault Refusal :=
  match s.pnet.find? (fun e => decide (e.1 = id)) with
  | some (_, .retire lid home r back t run) =>
    match s.launch lid with
    | none => .next s
    | some l =>
      let c := t.core
      let mine : Seg := { va := 0, bus := scratchBus c run, len := r.fplen, off := 0 }
      let busy := s.ops.any (fun o => decide (o.t.core = c) && o.kind.writes && o.segs.any (fun g => g.overlaps mine))
      let away := (s.frozenPile home lid).isSome
      if busy || (s.frozenImg c l.ctx).isSome && !(s.freezingOn c l.ctx) && decide (r.fplen ≠ 0) then .next s
      else
        let done := fun (s : State) =>
          if away then { s with pnet := s.pnet.map (fun e => if e.1 = id then
              (id, .retire lid home { r with fplen := 0, hdr := r.hdr &&& ~~~(at64 1 52) } back t run) else e) }
          else
          let s : State := { s with pnet := s.pnet.filter (fun e => decide (e.1 ≠ id)) }
          s.setPile home lid ((s.pileOf home lid).retire r back)
        if back || !(r.hdr.getLsbD 52) then .next (done s)
        else match s.check { core := c, ctx := l.ctx, lid := some lid } r.fpbase r.fplen rWR with
          | .error (k, a) => .next (s.killContext l.ctx [{ cause := at64 k.code 0, epc := 0, addr := a }] 0
              (whoWord t (some lid) l.ctx (s.tsGet t).tlev false) none)
          | .ok bs => if anyNr bs then .next s else .next (done (s.wrBlocks bs (s.rd (scratchBus c run) r.fplen)))
  | _ => .next s

end Sys2Proof.Machine
end

