-- ==== Sys2Proof/Machine/PressEvents.lean ====
section
/-!
DEFINITION. The press: the arbiter (R147), MMA (R144), MZERO and MST at the press (R145), and the two accumulator banks (R146, R148).
-/

namespace Sys2Proof.Machine

open Sys2Proof

/-! ## The arbiter -/

/-- Commands one core may run in a row (R147). -/
def pressWeight (cls : Nat) : Nat := if cls ≤ 2 then 8 else if 9 ≤ cls then 1 else 10 - cls

/-- A ring of the launch that issued a command. -/
def State.cmdRing (s : State) (c : CoreId) (k : PressCmd) (n : Nat) : Option Ring :=
  (Assoc.get (s.core c).rings n).filter (fun r => decide (r.lid = some k.lid))

/-- The bank of a launch is resident, or a free one can be bound at no cost (R148). -/
def State.bankReady (s : State) (b : Nat) (lid : Half) : Bool :=
  let k := s.bundle b
  k.banks.any (fun x => decide (x.lid = lid)) || (decide (k.banks.length < 2) && k.saved.all (fun x => decide (x.lid ≠ lid)))

/-- The rings of an MMA hold at least n published slots; MZERO and MST are always ready; the context is not being frozen (R144, R147, R184). -/
def State.headStart (s : State) (b : Nat) (c : CoreId) (k : PressCmd) : Bool :=
  (s.bundle b).freezing.isNone &&
  match k.word with
  | .mma ra rb _ _ _ _ _ _ n =>
    match s.cmdRing c k ra.toNat, s.cmdRing c k rb.toNat with
    | some x, some y =>
      decide (n.toNat + 1 ≤ (s.ringTail c x - s.ringHead c x).toNat) && decide (n.toNat + 1 ≤ (s.ringTail c y - s.ringHead c y).toNat)
    | _, _ => false
  | _ => true

/-- A head is ready: of an MMA the accumulator bank is resident too (R144, R147). -/
def State.headReady (s : State) (b : Nat) (c : CoreId) (k : PressCmd) : Bool :=
  s.headStart b c k && (match k.word with
    | .mma _ _ _ _ _ _ _ _ _ => s.bankReady b k.lid
    | _ => true)

/-- Visit cores from `c` on, until one has a ready head within its weight: the core, the command, and the count before it. -/
def State.arbitrate (s : State) (b : Nat) (ready : CoreId → PressCmd → Bool) : Nat → Nat → Nat → Option (Nat × PressCmd × Nat)
  | 0, _, _ => none
  | fuel + 1, c, k =>
    match (s.core (cc (8 * b + c))).pressQ with
    | h :: _ => if ready (cc (8 * b + c)) h = true ∧ k < pressWeight h.cls then some (c, h, k) else s.arbitrate b ready fuel ((c + 1) % 8) 0
    | [] => s.arbitrate b ready fuel ((c + 1) % 8) 0

/-- The command that the press takes next, while it runs none. -/
def State.pressNext (s : State) (b : Nat) : Option (Nat × PressCmd × Nat) :=
  let k := s.bundle b
  if k.exec.isSome then none else s.arbitrate b (s.headReady b) 9 k.arb k.credit

/-- The command that it would take next if every bank were resident: the one for which a bank is swapped in (R148). -/
def State.swapNext (s : State) (b : Nat) : Option (Nat × PressCmd × Nat) :=
  let k := s.bundle b
  if k.exec.isSome then none else s.arbitrate b (s.headStart b) 9 k.arb k.credit

/-- The resident bank of a launch, as the one whose last command is newest. -/
def State.useBank (s : State) (b : Nat) (lid : Half) (f : AccBank → AccBank) : State :=
  let k := s.bundle b
  let mine := (k.banks.find? (fun x => decide (x.lid = lid))).getD { lid := lid, slots := [] }
  s.setBundle b { k with banks := k.banks.filter (fun x => decide (x.lid ≠ lid)) ++ [f mine] }

/-- The 1,024 pairs of a slot; a slot that no command of the launch has written is undefined (R146). -/
def State.slotPairs (s : State) (b : Nat) (lid : Half) (key : Nat) : List (Word32 × Word32) :=
  match ((s.bundle b).banks.find? (fun x => decide (x.lid = lid))).bind (fun x => Assoc.get x.slots key) with
  | some l => l
  | none => (List.range 1024).map (fun i => (Config.freeAcc (64 * lid.toNat + key) (2 * i), Config.freeAcc (64 * lid.toNat + key) (2 * i + 1)))

/-- A head leaves its core's queue, and the arbiter counts it. -/
def State.popPress (s : State) (b c n : Nat) : State :=
  let core := cc (8 * b + c)
  let k := s.core core
  let s := s.setCore core { k with pressQ := k.pressQ.drop 1 }
  s.setBundle b { s.bundle b with arb := c, credit := n + 1 }

/-! ## MMA -/

/-- The press starts an MMA; the command keeps its queue place until it retires. -/
def execPressCommandStart (b : Nat) (s : State) : Host.Outcome State Fault Refusal :=
  match s.pressNext b with
  | some (c, cmd, n) =>
    match cmd.word with
    | .mma _ _ _ _ _ _ _ _ _ =>
      if s.bankReady b cmd.lid then
        let s := s.useBank b cmd.lid id
        .next (s.setBundle b { s.bundle b with exec := some (c, cmd), arb := c, credit := n })
      else .next s
    | _ => .next s
  | none => .next s

/-- The bytes of the slot that a counter value names (R140). -/
def State.ringSlot (s : State) (c : CoreId) (r : Ring) (h : Nat) : List Byte :=
  s.rd (scratchBus c (r.base + 64 + slotSize r.fmt * (h % max 1 r.count))) (slotSize r.fmt)

/-- The lanes of `n` slots from HEAD: for each slot, elements and scale by lane. -/
def State.panels (s : State) (c : CoreId) (r : Ring) (n : Nat) : List (List (List FV × Option Int)) :=
  (List.range n).map (fun b =>
    let x := s.ringSlot c r (((s.ringHead c r).toNat + b) % 2 ^ 32)
    (List.range 32).map (fun i => (laneElems r.fmt x i, laneScale r.fmt x i)))

/-- One output: the accumulation over the blocks, in increasing K (R144). -/
def mmaOut (i j : Nat) : List (List (List FV × Option Int)) → List (List (List FV × Option Int)) → Word32 × Word32 → Word32 × Word32
  | pa :: ra, pb :: rb, acc =>
    let a := (pa[i]?).getD ([], none)
    let b := (pb[j]?).getD ([], none)
    mmaOut i j ra rb (pressAcc acc (pressBlock (a.1.zip b.1) a.2 b.2))
  | _, _, acc => acc

/-- HEAD of a ring advances. -/
def State.advance (s : State) (c : CoreId) (r : Ring) (n : Nat) : State := s.wr32 (scratchBus c r.base) (s.ringHead c r + BitVec.ofNat 32 n)

/-- An MMA retires: zS takes the sums, then HEAD of each ring that is not kept advances (R144). -/
def execMmaRetire (b : Nat) (s : State) : Host.Outcome State Fault Refusal :=
  match (s.bundle b).exec with
  | none => .next s
  | some (c, cmd) =>
    let core := cc (8 * b + c)
    match cmd.word with
    | .mma ra rb sl _ _ z kb ka n =>
      match s.cmdRing core cmd ra.toNat, s.cmdRing core cmd rb.toNat with
      | some x, some y =>
        let k := n.toNat + 1
        let pa := s.panels core x k
        let pb := s.panels core y k
        let old := if z then List.replicate 1024 ((0 : Word32), (0 : Word32)) else s.slotPairs b cmd.lid (4 * c + sl.toNat)
        let new := old.zipIdx.map (fun e => mmaOut (e.2 / 32) (e.2 % 32) pa pb e.1)
        let s := s.useBank b cmd.lid (fun a => { a with slots := Assoc.set a.slots (4 * c + sl.toNat) new })
        let s := if ka then s else s.advance core x k
        let s := if kb then s else s.advance core y k
        let s := s.popPress b c (s.bundle b).credit
        .next (s.setBundle b { s.bundle b with exec := none })
      | _, _ => .next s
    | _ => .next s

/-! ## MZERO, MST -/

def execMzeroExecute (b : Nat) (s : State) : Host.Outcome State Fault Refusal :=
  match s.pressNext b with
  | some (c, cmd, n) =>
    match cmd.word with
    | .mzero sl =>
      if s.bankReady b cmd.lid then
        let s := s.useBank b cmd.lid (fun a => { a with slots := Assoc.set a.slots (4 * c + sl.toNat) (List.replicate 1024 (0, 0)) })
        .next (s.popPress b c n)
      else .next s
    | _ => .next s
  | none => .next s

/-- The rows' pieces with their places in the data, one after another. -/
def placeSegs : List Seg → Nat → List Seg
  | [], _ => []
  | g :: r, off => { g with off := off } :: placeSegs r (off + g.len)

/-- MST reads its slot; its rows are then outstanding (R145). -/
def execMstExecute (b : Nat) (s : State) : Host.Outcome State Fault Refusal :=
  match s.pressNext b with
  | some (c, cmd, n) =>
    match cmd.word with
    | .mst _ _ _ m sl =>
      if s.bankReady b cmd.lid then
        let s := s.useBank b cmd.lid id
        let ps := s.slotPairs b cmd.lid (4 * c + sl.toNat)
        let d := (List.range 32).flatMap (fun i => mstRow m.toNat ((ps.drop (32 * i)).take 32))
        let ctx := ((s.launch cmd.lid).map Launch.ctx).getD 0
        let a : Activation := { origin := .message, msg := { w0 := 0, w1 := 0, pay := 0 }, lid := some cmd.lid, ctx := ctx, cls := cmd.cls, fetchTrap := none }
        let o : Op := { newOp s cmd.t a .mst with deps := cmd.deps, segs := placeSegs cmd.segs 0, data := d, addr := cmd.addr, operand := BitVec.ofNat 64 cmd.stride,
                                                  hdr := cmd.hdr, held := cmd.held, seq := cmd.oseq, mst := sl.toNat + 4 * m.toNat, width := d.length }
        .next (({ s with ops := s.ops ++ [o], nextId := s.nextId + 1 } : State).popPress b c n)
      else .next s
    | _ => .next s
  | none => .next s

/-! ## The accumulator banks (R148) -/

/-- A launch has commands queued or running on the bundle. -/
def State.queued (s : State) (b : Nat) (lid : Half) : Bool :=
  (List.range 8).any (fun c => (s.core (cc (8 * b + c))).pressQ.any (fun k => decide (k.lid = lid)))

/-- The bank that makes way: the one whose last command is older, but one whose launch has queued commands only when both have. -/
def State.bankOut (s : State) (b : Nat) : Option AccBank :=
  match (s.bundle b).banks with
  | x :: y :: _ => if s.queued b x.lid && !(s.queued b y.lid) then some y else some x
  | x :: _ => some x
  | [] => none

/-- The image in the context save area that a directory entry of the bundle names (R189). -/
def State.bankImage (s : State) (b : Nat) (lid : Half) (k : Nat) : Option Nat :=
  (s.launch lid).bind (fun l => s.saveDir l.ctx (0x20000 + 8 * (2 * b + k)))

/-- The 256 KiB of a bank: 32 slots of 1,024 pairs, s before c (R145, R148). -/
def State.bankBytes (s : State) (b : Nat) (lid : Half) : List Byte :=
  (List.range 32).flatMap (fun key => (s.slotPairs b lid key).flatMap (fun p => leBytes 4 p.1.toNat ++ leBytes 4 p.2.toNat))

/-- The directory entry for a launch's bank: the first that no saved bank of its context uses (log 18). -/
def State.bankEntry (s : State) (b : Nat) (lid : Half) : Nat :=
  let ctx := (s.launch lid).map Launch.ctx
  if (s.bundle b).saved.any (fun x => decide ((s.launch x.lid).map Launch.ctx = ctx) && decide (x.image = some 0)) then 1 else 0

/-- A resident bank is saved to its launch's context save area; it stays with the press where Edoiny has put no image into the directory. -/
def State.saveBank (s : State) (b : Nat) (x : AccBank) : State :=
  let n := s.bankEntry b x.lid
  let out := fun (s : State) (y : AccBank) =>
    let k := s.bundle b
    s.setBundle b { k with banks := k.banks.filter (fun z => decide (z.lid ≠ x.lid)), saved := y :: k.saved }
  match s.bankImage b x.lid n with
  | none => out s { x with image := none }
  | some a => out (s.wrPhys a (s.bankBytes b x.lid)) { lid := x.lid, slots := [], image := some n }

/-- A saved bank as it comes back. -/
def State.savedBank (s : State) (b : Nat) (x : AccBank) : AccBank :=
  match x.image.bind (s.bankImage b x.lid) with
  | none => { x with image := none }
  | some a => { lid := x.lid, slots := (List.range 32).map (fun key =>
      let d := s.rdPhys (a + 8192 * key) 8192
      (key, (List.range 1024).map (fun i => (w32 (sliceB d (8 * i) 4), w32 (sliceB d (8 * i + 4) 4))))) }

/-- A launch's bank becomes resident: its saved one, or a new one. -/
def State.loadBank (s : State) (b : Nat) (lid : Half) : State :=
  let k := s.bundle b
  let own := match k.saved.find? (fun x => decide (x.lid = lid)) with
    | some x => s.savedBank b x
    | none => { lid := lid, slots := [] }
  s.setBundle b { k with banks := k.banks ++ [own], saved := k.saved.filter (fun x => decide (x.lid ≠ lid)) }

/-- The next command's launch has no bank: a bound one is saved, and the newcomer's is restored or bound. -/
def execAccumulatorBankSwap (b : Nat) (s : State) : Host.Outcome State Fault Refusal :=
  match s.swapNext b with
  | none => .next s
  | some (_, cmd, _) =>
    if s.bankReady b cmd.lid then .next s
    else if (s.bundle b).banks.length < 2 then .next (s.loadBank b cmd.lid)
    else match s.bankOut b with
      | none => .next s
      | some x => .next ((s.saveBank b x).loadBank b cmd.lid)

end Sys2Proof.Machine
end

