-- ==== Sys2Proof/Machine/FreezeEvents.lean ====
section
/-!
DEFINITION. FREEZE and THAW after their issue: capture points (R182, R184), the save block (R185, R186, R190; log 17), restoration and
replay (R187, R195), and replays under remembered marks (R193).
-/

namespace Sys2Proof.Machine

open Sys2Proof

/-! ## Capture -/

/-- The freeze point of a thread set: 0 free, 1 at DONE, 2 stalled under R81 (R182). -/
def State.freezePoint (s : State) (t : TsId) : Option Nat :=
  let x := s.tsGet t
  match x.act, x.stall with
  | none, _ => some 0
  | some _, some .done => some 1
  | some _, some .doneHeld => some 1
  | some _, some r => if x.tlev = 0 ∧ s.stall81 t r then some 2 else none
  | some _, none => none

/-- An image with nothing captured yet, or of a block that the bundle holds no capture of, or that software made. -/
def Frozen.bare (ctx : Half) (blk : Nat) : Frozen :=
  { ctx := ctx, blk := blk, ts := [], cores := [], ops := [], piles := [], ulog := [], excess := [], stamp := { sec := 0, ns := 0, seq := 0 } }

/-- A thread set whose state has gone into an image: free, with nothing of its context left behind. -/
def ThreadSet.left (x : ThreadSet) : ThreadSet :=
  { x.free with rel := [], seen := [], softS := [], softV := [], softP := [], pend := none, tvecFor := none, tvecs := [], tvec1 := 0, tvec2 := 0 }

/-- The captured part of a core: its thread sets, its basket, rings and windows, and its basting records. A completion of one of its operations that is
held in the network is discarded (R184). -/
def State.capture (s : State) (c : CoreId) (ctx : Half) (blk : Nat) : State :=
  let b := bundleOf c
  let k := s.bundle b
  let f : Frozen := (k.frozen.find? (fun x => decide (x.ctx = ctx))).getD (Frozen.bare ctx blk)
  let mine := s.ops.filter (fun o => decide (o.t.core = c) && o.basted)
  let x := s.core c
  let f : Frozen := { f with ts := f.ts ++ (threadsOf c).map (fun t => (t, s.tsGet t)), cores := f.cores ++ [(c, x)], ops := f.ops ++ mine, stamp := s.stamp0 }
  let s := s.setBundle b { k with frozen := f :: k.frozen.filter (fun y => decide (y.ctx ≠ ctx)) }
  let s := s.setCore c { x with basket := [], membk := [], ring := [], dups := [], captured := true }
  let answers := fun (g : Flight) => (g.op.map (fun id => mine.any (fun o => decide (o.id = id)))).getD false
  let s : State := { s with ops := s.ops.filter (fun o => !(decide (o.t.core = c) && o.basted)), net := s.net.filter (fun g => !(answers g)) }
  (threadsOf c).foldl (fun s t => s.tsSet t (s.tsGet t).left) s

/-- The capture point of a core of a bundle that is being frozen (R184 step 3). -/
def execFreezeCapturePoint (core : Nat) (s : State) : Host.Outcome State Fault Refusal :=
  let c := cc core
  match (s.bundle (bundleOf c)).freezing with
  | none => .next s
  | some (ctx, blk, _) =>
    let ready := (threadsOf c).all (fun t => (s.freezePoint t).isSome) &&
      s.ops.all (fun o => !(decide (o.t.core = c) && !o.orphan && ((o.kind.isStore && !o.parked) || decide (o.kind = .spill) || decide (o.kind = .fill))))
    if (s.frozenImg c ctx).isSome || !ready then .next s else .next (s.capture c ctx blk)

/-! ## The bytes of the save block -/

def bitSet (l : List Nat) : Nat := (l.eraseDups).foldl (fun a n => a + 2 ^ n) 0

/-- The place of an operation's first entry in a load queue. -/
def slotOf {α : Type} (id : Nat) (q : List (LdE α)) : Option Nat :=
  (q.zipIdx.find? (fun e => match e.1 with | .wait i w => decide (i = id) && decide (w = 0) | _ => false)).map Prod.snd

/-- KIND of a basting entry (R190). -/
def Op.kindCode (o : Op) : Nat :=
  match o.kind with
  | .ld => 1 | .vld => 2 | .vgath => 3 | .pref => 4 | .brd => 5 | .bwr => 6 | .copy => 7 | .st => 8 | .vst => 9 | .vscat => 10
  | .amo => 11 | .gain => 12 | .gget => 13 | .bara => 14 | .markq => 15 | _ => 0

/-- Class M: 2; class I: 1. -/
def Op.classCode (o : Op) : Nat := match o.kind with | .amo | .gain | .bara => 2 | _ => 1

/-- The 32 bytes of a basting entry. -/
def Op.entry (o : Op) (x : ThreadSet) : List Byte :=
  let s1 := slotOf o.id x.slq
  let s2 := slotOf o.id x.vlq
  let slot := match s1, s2 with | some n, _ => n | none, some n => n | none, none => 31
  leBytes 4 (o.kindCode + 256 * o.classCode + 1024 * (if s2.isSome then 1 else 0) + 2048 * slot + 65536 * o.fn.toNat) ++ leBytes 4 o.seq.toNat ++
  leBytes 8 o.addr.toNat ++ leBytes 8 o.operand.toNat ++ leBytes 8 (if o.classCode = 2 then o.mark.toNat else 0)

/-- The 128 bytes of its extension line. -/
def Op.ext (o : Op) : List Byte :=
  sliceB (match o.kind with
    | .vgath => leBytes 64 o.vec.toNat
    | .brd | .bwr => leBytes 8 o.hdr.toNat ++ leBytes 4 o.n
    | .vst => o.data
    | .vscat => leBytes 64 o.vec.toNat ++ o.data
    | .amo => leBytes 8 o.cmp.toNat
    | .bara => leBytes 64 o.vec.toNat ++ leBytes 8 o.hdr.toNat ++ leBytes 8 o.operand.toNat
    | .markq => leBytes 8 o.addr.toNat
    | _ => []) 0 128

/-- The value of a load-queue entry; of one that will report a failure, the address (log 17). -/
def readyS : LdE Word → List Byte | .ready v => leBytes 8 v.toNat | .bad _ a => leBytes 8 a.toNat | _ => List.replicate 8 0
def readyV : LdE Vec → List Byte | .ready v => leBytes 64 v.toNat | .bad _ a => leBytes 8 a.toNat ++ List.replicate 56 0 | _ => List.replicate 64 0
/-- The failure that an entry will report. -/
def LdE.code {α : Type} : LdE α → Nat | .bad c _ => c.code | _ => 0
/-- A list of entries, `n` of `w` bytes in all. -/
def padded (n w : Nat) (l : List (List Byte)) : List Byte := sliceB (l.flatMap id) 0 (n * w)

/-- A 128-byte entry of SBUF (R186), in a layout of the model's (log 17): what is buffered, its fields, its wide operand in bytes 64 to 127. -/
def Buffered.bytes : Buffered → List Byte
  | .send d o w0 k sc pay dev =>
    leBytes 1 1 ++ leBytes 1 (if o then 1 else 0) ++ leBytes 1 k ++ leBytes 1 sc ++ leBytes 2 (d.idx + if d.kernel then 2 ^ 15 else 0) ++
    leBytes 2 (match dev with | some n => n + 1 | none => 0) ++ leBytes 8 w0.toNat ++ List.replicate 48 0 ++ leBytes 64 pay.toNat
  | .spawn d => leBytes 1 2 ++ List.replicate 63 0 ++ sliceB d 0 64
  | .bara g r h v => leBytes 1 3 ++ leBytes 1 g ++ leBytes 1 r ++ List.replicate 5 0 ++ leBytes 8 h.toNat ++ List.replicate 48 0 ++ leBytes 64 v.toNat
  | .lend => leBytes 1 4 ++ List.replicate 127 0

def bufferedBack (d : List Byte) : Option Buffered :=
  let v := vec512 (sliceB d 64 64)
  let c := fieldB d 4 2
  match fieldB d 0 1 with
  | 1 => some (.send { kernel := decide (2 ^ 15 ≤ c), idx := c % 2 ^ 15 } (decide (fieldB d 1 1 = 1)) (w64 (sliceB d 8 8)) (fieldB d 2 1) (fieldB d 3 1) v
      (if fieldB d 6 2 = 0 then none else some (fieldB d 6 2 - 1)))
  | 2 => some (.spawn (sliceB d 64 32))
  | 3 => some (.bara (fieldB d 1 1) (fieldB d 2 1) (w64 (sliceB d 8 8)) v)
  | 4 => some .lend
  | _ => none

/-- A thread set's activation as the save block holds it, 256 bytes at +0x6000 of its area, in a layout of the model's (log 17): the message, its
launch and class, where it came from, a footprint fetch that failed, and the record that runs. -/
def Activation.bytes (a : Activation) : List Byte :=
  let kind := match a.origin with | .message => 1 | .deque _ => 2 | .pile _ _ _ => 3
  let rc := match a.origin with
    | .message => List.replicate 56 0
    | .deque r => sliceB r.bytes 0 32 ++ leBytes 8 r.s2.toNat ++ List.replicate 16 0
    | .pile r home run => r.bytes ++ leBytes 8 r.s2.toNat ++ leBytes 8 home ++ leBytes 8 run
  a.msg.bytes ++ leBytes 8 (kind + 2 ^ 8 * a.cls + 2 ^ 16 * (match a.lid with | some l => 2 ^ 16 + l.toNat | none => 0) +
    2 ^ 40 * (match a.fetchTrap with | some (c, _) => c.code | none => 0)) ++
  leBytes 8 (match a.fetchTrap with | some (_, x) => x.toNat | none => 0) ++ rc

/-- The cause of a code (R176). -/
def causeOf (n : Nat) : Option Cause :=
  [Cause.illop, .priv, .align, .bound, .xlate, .prot, .divz, .qdead, .wdog, .gate, .soft, .ecc, .fpx, .markold, .parked].find? (fun c => decide (c.code = n))

/-- A message from its 64 bytes. -/
def msgBack (d : List Byte) : Msg := { w0 := w64 (sliceB d 0 8), w1 := w64 (sliceB d 8 8), pay := vec512 (sliceB d 16 48) }

def activationBack (ctx : Half) (d : List Byte) : Option Activation :=
  let rc := sliceB d 80 32
  let s2 := w64 (sliceB d 112 8)
  let origin : Option Origin := match fieldB d 64 1 with
    | 1 => some .message
    | 2 => some (.deque { bytes := rc, s2 := s2, deps := [] })
    | 3 => some (.pile { pileRecOf rc s2 with running := true } (fieldB d 120 8) (fieldB d 128 8))
    | _ => none
  origin.map (fun o =>
    { origin := o, msg := msgBack (d.take 64), lid := if fieldB d 68 1 % 2 = 1 then some (BitVec.ofNat 16 (fieldB d 66 2)) else none, ctx := ctx,
      cls := fieldB d 65 1 % 16, fetchTrap := (causeOf (fieldB d 69 1)).map (fun c => (c, w64 (sliceB d 72 8))) })

/-- The first 4 KiB of the thread-set image of R186; SBUF follows. -/
def ThreadSet.image (x : ThreadSet) (point n : Nat) : List Byte :=
  leBytes 8 (point + 4 * n) ++ leBytes 8 x.pc.toNat ++
  leBytes 8 (bitSet (x.sreg.map Prod.fst) + 2 ^ 32 * bitSet (x.preg.map Prod.fst)) ++ leBytes 8 (bitSet (x.vreg.map Prod.fst)) ++
  leBytes 8 x.qstat.toNat ++ leBytes 8 x.wbudget.toNat ++ leBytes 8 x.fpcsr.toNat ++ leBytes 8 x.trapen.toNat ++ leBytes 8 x.tvec1.toNat ++
  leBytes 8 x.tvec2.toNat ++ leBytes 8 x.sbuf.length ++ leBytes 8 x.oseq.toNat ++ leBytes 8 x.mseq.toNat ++ List.replicate 0x98 0 ++
  (List.range 32).flatMap (fun i => leBytes 8 (Assoc.getD x.sreg i 0).toNat) ++ leBytes 8 (2 ^ 64 - 1) ++ ((List.range 8).drop 1).flatMap (fun i => leBytes 8 (Assoc.getD x.preg i 0).toNat) ++
  padded 16 8 (x.slq.map readyS) ++ padded 8 8 (x.ssq.map (fun v => leBytes 8 v.toNat)) ++ List.replicate 0x100 0 ++
  (List.range 32).flatMap (fun i => leBytes 64 (Assoc.getD x.vreg i 0).toNat) ++ padded 8 64 (x.vlq.map readyV) ++
  padded 4 64 (x.vsq.map (fun v => leBytes 64 v.toNat))

/-- The entries of a thread set's record, in increasing SEQ. -/
def Frozen.record (f : Frozen) (t : TsId) : List Op := f.ops.filter (fun o => decide (o.t = t))

/-! What the manual gives no place for stands where it lays nothing out, in a layout of the model's (log 17). -/

/-- A launch id that may be absent. -/
def lidWord (l : Option Half) : Nat := match l with | some x => 2 ^ 16 + x.toNat | none => 0
def lidBack (n : Nat) : Option Half := if n / 2 ^ 16 % 2 = 1 then some (BitVec.ofNat 16 n) else none

/-- The places of a core's recorded operations, with their names: entry i of thread set n at place 64 n + i. -/
def Frozen.places (f : Frozen) (c : CoreId) : List (Nat × Nat) :=
  (threadsOf c).flatMap (fun t => ((f.record t).take 64).zipIdx.map (fun e => (64 * t.ts + e.2, e.1.id)))
/-- Some of them, as 256 bits. -/
def placeMask (ps : List (Nat × Nat)) (ids : List Nat) : List Byte := leBytes 32 (bitSet ((ps.filter (fun p => ids.contains p.2)).map Prod.fst))
def placed (ps : List (Nat × Nat)) (d : List Byte) : List Nat := (ps.filter (fun p => (leNat d).testBit p.1)).map Prod.snd

/-- 64 bytes beside a basting entry: its name, what it waits for, lanes, width, sign, launch. -/
def Op.more (o : Op) (ps : List (Nat × Nat)) : List Byte :=
  sliceB (leBytes 8 (o.id + 1) ++ placeMask ps o.deps ++ leBytes 8 o.cmp.toNat ++ leBytes 4 o.width ++ leBytes 4 (if o.signed then 1 else 0) ++
    leBytes 4 (lidWord o.lid)) 0 64

/-- 256 bytes beside a thread-set image: the launches of its trap vectors, damage, a pending error, what later accesses wait for, and the failures that
its load queues will report. -/
def ThreadSet.more (x : ThreadSet) (ps : List (Nat × Nat)) : List Byte :=
  sliceB (leBytes 8 (lidWord x.tvecFor) ++
    padded 2 24 ((x.tvecs.filter (fun e => decide (e.1 ≠ x.tvecFor) && e.1.isSome)).map (fun e => leBytes 8 (lidWord e.1) ++ leBytes 8 e.2.1.toNat ++ leBytes 8 e.2.2.toNat)) ++
    leBytes 8 (bitSet x.softS) ++ leBytes 8 (bitSet x.softV) ++ leBytes 8 (bitSet x.softP) ++ leBytes 8 (bitSet x.softQ) ++
    leBytes 8 ((x.pend.map (fun p => p.1.code)).getD 0) ++ leBytes 8 ((x.pend.map (fun p => p.2.toNat)).getD 0) ++ placeMask ps x.rel ++ placeMask ps x.seen ++
    padded 16 1 (x.slq.map (fun e => leBytes 1 e.code)) ++ padded 8 1 (x.vlq.map (fun e => leBytes 1 e.code))) 0 256

/-- 64 bytes beside a queued press command: its operands, OSEQ, and what it waits for. -/
def PressCmd.more (k : PressCmd) (ps : List (Nat × Nat)) : List Byte :=
  leBytes 8 k.addr.toNat ++ leBytes 8 k.stride ++ leBytes 8 k.hdr.toNat ++ leBytes 8 k.oseq.toNat ++ placeMask ps k.deps

/-- A core's deque of a launch, 16 KiB: the far end's slot, the number of records, their source words, and what they wait for. -/
def State.saveDeque (s : State) (l : Launch) (c : CoreId) (ps : List (Nat × Nat)) (at_ : Nat) : State :=
  match l.ordinal c with
  | none => s
  | some o =>
    let (far, rs) := l.deque o
    (s.wrPhys at_ (leBytes 8 far ++ leBytes 8 rs.length ++ rs.flatMap (fun r => leBytes 8 r.s2.toNat))).wrPhys (at_ + 0x1000) (rs.flatMap (fun r => placeMask ps r.deps))

/-- A queued press command's 8 bytes (R185). -/
def PressCmd.bytes (k : PressCmd) (second : Bool) : List Byte :=
  let w := match encodeNorson k.word with | some (w :: _) => w.toNat | _ => 0
  leBytes 8 (w + 2 ^ 32 * k.t.ts + 2 ^ 36 * k.cls + 2 ^ 40 + 2 ^ 41 * (if second then 1 else 0))

/-- The launches of a context on a bundle, the one placed first before the other. -/
def State.pair (s : State) (b : Nat) (ctx : Half) : List Launch :=
  let ls := s.launches.filter (fun l => decide (l.ctx = ctx) && decide (l.state = .running) && l.bundles.contains b)
  ls.filter (fun l => !(l.areaLow.contains b)) ++ ls.filter (fun l => l.areaLow.contains b)

/-- RINSE of a launch: C and the stain bit of each core. -/
def Launch.rinse (l : Launch) (b : Nat) : List Byte :=
  (List.range 8).flatMap (fun c => match l.ordinal (cc (8 * b + c)) with
    | none => List.replicate 16 0
    | some o => leBytes 8 (BitVec.ofInt 64 (Assoc.getD l.counts o 0)).toNat ++ leBytes 8 (if l.stains.contains o then 1 else 0))

/-- BINDS of a launch, 384 bytes a core, in a layout of the model's (log 17). -/
def State.binds (s : State) (l : Launch) (b : Nat) : List Byte :=
  (List.range 8).flatMap (fun c =>
    let id := cc (8 * b + c)
    let o := (l.ordinal id).getD 0
    let gs := (l.groups.filter (fun g => g.2.contains o)).map Prod.fst
    sliceB (leBytes 8 l.lid.toNat ++ leBytes 8 (s.scratchSize id + 2 ^ 20 * l.l1) ++ (l.kbAt id).flatMap (fun w => leBytes 8 w.toNat) ++
      leBytes 32 (bitSet gs) ++ leBytes 8 o) 0 384)

/-- A Pile entry's 40 bytes (R185); the three that the manual leaves hold its spawner (log 17). -/
def PileRec.saved (r : PileRec) : List Byte :=
  r.bytes ++ leBytes 4 r.p ++ leBytes 1 ((if r.running then 1 else 0) + (if r.touched then 2 else 0) + 4) ++ leBytes 3 (spawnerBits r.s2)

/-- Write one core block: scratchpad, basket, thread-set areas. -/
def State.saveCore (s : State) (f : Frozen) (c : CoreId) (base : Nat) : State :=
  let x := Assoc.getD f.cores c CoreSt.reset
  let s := s.wrPhys base (s.rd (scratchBus c 0) (s.scratchSize c))
  let s := s.wrPhys (base + 0x38000) (padded 64 64 (x.basket.map Msg.bytes))
  let s := s.wrPhys (base + 0x39000) (leBytes 8 x.basket.length)
  let ps := f.places c
  (threadsOf c).foldl (fun s t =>
    let y := Assoc.getD f.ts t ThreadSet.reset
    let ops := f.record t
    let point := match y.act, y.stall with | none, _ => 0 | _, some .done => 1 | _, some .doneHeld => 1 | _, _ => 2
    let a := base + 0x3A000 + 0x8000 * t.ts
    let s := s.wrPhys a (y.image point ops.length)
    let s := s.wrPhys (a + 0x1000) (padded 32 128 (y.sbuf.map Buffered.bytes))
    let s := s.wrPhys (a + 0x6000) (sliceB (match y.act with | some x => x.bytes | none => []) 0 256 ++ y.more ps)
    let s := s.wrPhys (a + 0x7000) (padded 64 64 (ops.map (fun o => o.more ps)))
    let s := s.wrPhys (a + 0x2000) (padded 64 32 (ops.map (fun o => o.entry y)))
    s.wrPhys (a + 0x4000) (padded 64 128 (ops.map Op.ext))) s

/-- Write the save block, BSTATE last (R184 steps 5 and 6, R185). -/
def State.saveBundle (s : State) (b : Nat) (f : Frozen) : State :=
  let cores := (List.range 8).map (fun i => cc (8 * b + i))
  let ls := s.pair b f.ctx
  let second := (ls.drop 1).head?
  let s := s.clearPhys f.blk 0x50000
  let s := s.wrPhys (f.blk + 8) (leBytes 8 (f.ctx.toNat + 65536 * b))
  let s := s.wrPhys (f.blk + 0x10) f.stamp.bytes
  let s := match ls.head? with
    | none => s
    | some l => (s.wrPhys (f.blk + 0x20) (l.rinse b)).wrPhys (f.blk + 0x400) (s.binds l b)
  let s := match second with
    | none => s
    | some l => (s.wrPhys (f.blk + 0x1000) (l.rinse b)).wrPhys (f.blk + 0x1400) (s.binds l b)
  let s := s.wrPhys (f.blk + 0x100) (cores.flatMap (fun c => padded 8 8 ((Assoc.getD f.cores c CoreSt.reset).pressQ.map (fun k =>
    k.bytes (decide (some k.lid = second.map Launch.lid))))))
  let s := s.wrPhys (f.blk + 0x300) (cores.flatMap (fun c => (List.range 8).flatMap (fun n =>
    match Assoc.get (Assoc.getD f.cores c CoreSt.reset).rings n with
    | none => List.replicate 4 0
    | some r => leBytes 4 (r.base + 2 ^ 18 * r.count + 2 ^ 26 * r.fmt + (if r.lid = second.map Launch.lid ∧ second.isSome then 2 ^ 30 else 0) + 2 ^ 31))))
  let s := s.wrPhys (f.blk + 0x8000) (cores.flatMap (fun c => padded 8 64 ((Assoc.getD f.cores c CoreSt.reset).pressQ.map (fun k => k.more (f.places c)))))
  let s := cores.zipIdx.foldl (fun s c => ls.zipIdx.foldl (fun s l => s.saveDeque l.1 c.1 (f.places c.1) (f.blk + 0x10000 + 0x8000 * c.2 + 0x4000 * l.2)) s) s
  let s := match f.piles.head? with
    | none => s
    | some (_, p) =>
      let s := s.wrPhys (f.blk + 0x1080) (leBytes 8 (BitVec.ofInt 64 p.count).toNat ++ leBytes 8 (if p.stain then 1 else 0))
      (s.clearPhys (f.blk + 0x500000) 0x50000).wrPhys (f.blk + 0x500000) (p.recs.flatMap PileRec.saved)
  let s := s.clearPhys (f.blk + 0x580000) 0x280000
  let s := cores.zipIdx.foldl (fun s c => s.saveCore f c.1 (f.blk + 0x100000 + 0x80000 * c.2)) s
  s.wr64 f.blk (BitVec.ofNat 64 (1 + 2 * 255 + 512 * (if f.piles.isEmpty then 0 else 1) + 1024 * (if second.isSome then 1 else 0)))

/-! ## FREEZE ends -/

/-- Counts and stains of the bundle's cores move into the block: what a launch counts for them from now on is added at THAW. -/
def State.clearRinse (s : State) (b : Nat) (ctx : Half) : State :=
  (s.pair b ctx).foldl (fun s l => s.setLaunch { l with
    counts := l.counts.filter (fun e => decide (e.1 / 8 ≠ (l.ordinal (cc (8 * b))).getD 0 / 8)),
    stains := l.stains.filter (fun o => decide (o / 8 ≠ (l.ordinal (cc (8 * b))).getD 0 / 8)) }) s

/-- Every core is captured, the press is idle, its rows and the engine's retirements are done: the block is written, the accumulator banks are saved
(R146), the agent state blocks of the context's programs are brought up to date (R25), and the status is pushed. -/
def execFreezeComplete (b : Nat) (s : State) : Host.Outcome State Fault Refusal :=
  let k := s.bundle b
  match k.freezing, k.frozen with
  | some (ctx, _, id), f :: rest =>
    let cores := (List.range 8).map (fun i => cc (8 * b + i))
    let here := fun (t : TsId) => !t.core.kernel && decide (bundleOf t.core = b)
    let busy := k.exec.isSome || cores.any (fun c => (s.frozenImg c ctx).isNone) || s.ops.any (fun o => here o.t && decide (o.kind = .mst)) ||
      s.pnet.any (fun e => match e.2 with
        | .retire _ _ r _ t _ => here t && (decide (r.fplen ≠ 0) || r.hdr.getLsbD 52)
        | _ => false)
    if f.ctx ≠ ctx ∨ busy = true then .next s
    else
      let f : Frozen := { f with piles := k.piles, cores := f.cores.map (fun c =>
        (c.1, { c.2 with pressQ := (s.core c.1).pressQ, rings := (s.core c.1).rings })) }
      let s := s.saveBundle b f
      let s := s.setBundle b { k with frozen := f :: rest, piles := [], freezing := none, tc := k.tc.filter (fun e => decide (e.ctx ≠ ctx)) }
      let s := (k.banks.filter (fun x => decide ((s.launch x.lid).map Launch.ctx = some ctx))).foldl (fun s x => s.saveBank b x) s
      let s := (s.progs.filter (fun p => decide (p.nctx = ctx))).foldl (fun s p => s.syncBlock p.slot) s
      let s := cores.foldl (fun s c => s.setCore c { s.core c with pressQ := [], rings := [], captured := false }) s
      let s := s.clearRinse b ctx
      .next (s.endWith id 0)
  | _, _ => .next s

/-! ## THAW: reading the block back

Everything is restored from the bytes of the block (R187). What the bundle keeps beside it serves the messages, updates and records that arrive
meanwhile, and tells which names a replay may take again. A name or place in an altered block that is not the context's own is not followed (R10). -/

/-- The entries of a load queue: values, and the failures to report. -/
def queueBack {α : Type} (n : Nat) (get : Nat → α) (addr : Nat → Word) (code : Nat → Nat) : List (LdE α) :=
  (List.range n).map (fun i => match causeOf (code i) with
    | some c => LdE.bad c (addr i)
    | none => LdE.ready (get i))

/-- The registers whose valid bit is set. -/
def validRegs {α : Type} (n mask : Nat) (get : Nat → α) : List (Nat × α) :=
  ((List.range n).filter (fun i => decide (mask / 2 ^ i % 2 = 1))).map (fun i => (i, get i))

/-- The numbers below `n` whose bit is set. -/
def setOf (n mask : Nat) : List Nat := (List.range n).filter (fun i => mask.testBit i)

/-- A thread set from its image (R186) and the 256 bytes beside it; `ps` names the operations of the core's records. -/
def ThreadSet.ofImage (d m : List Byte) (ps : List (Nat × Nat)) : ThreadSet :=
  let f := fun (o : Nat) => w64 (sliceB d o 8)
  let v := fun (o : Nat) => vec512 (sliceB d o 64)
  let q := f 0x20
  let w := fun (o : Nat) => w64 (sliceB m o 8)
  { ThreadSet.reset with
    pc := f 8, sreg := validRegs 32 (fieldB d 0x10 4) (fun i => f (0x100 + 8 * i)), preg := validRegs 8 (fieldB d 0x14 1) (fun i => f (0x200 + 8 * i)),
    vreg := validRegs 32 (fieldB d 0x18 4) (fun i => v (0x400 + 64 * i)), wbudget := f 0x28, fpcsr := f 0x30, trapen := f 0x38, tvec1 := f 0x40,
    tvec2 := f 0x48, oseq := (f 0x58).setWidth 32, mseq := (f 0x60).setWidth 32,
    slq := queueBack (min 16 (bits q 4 0)) (fun i => f (0x240 + 8 * i)) (fun i => f (0x240 + 8 * i)) (fun i => fieldB m (0xA8 + i) 1),
    ssq := (List.range (min 8 (bits q 8 5))).map (fun i => f (0x2C0 + 8 * i)),
    vlq := queueBack (min 8 (bits q 12 9)) (fun i => v (0xC00 + 64 * i)) (fun i => f (0xC00 + 64 * i)) (fun i => fieldB m (0xB8 + i) 1),
    vsq := (List.range (min 4 (bits q 15 13))).map (fun i => v (0xE00 + 64 * i)),
    sbuf := (List.range (min 32 (fieldB d 0x50 8))).filterMap (fun i => bufferedBack (sliceB d (0x1000 + 128 * i) 128)),
    tvecFor := lidBack (fieldB m 0 8),
    tvecs := ([0x08, 0x20].filter (fun o => (lidBack (fieldB m o 8)).isSome)).map (fun o => (lidBack (fieldB m o 8), w (o + 8), w (o + 16))),
    softS := setOf 64 (fieldB m 0x38 8), softV := setOf 64 (fieldB m 0x40 8), softP := setOf 64 (fieldB m 0x48 8), softQ := setOf 64 (fieldB m 0x50 8),
    pend := (causeOf (fieldB m 0x58 8)).map (fun c => (c, w 0x60)), rel := placed ps (sliceB m 0x68 32), seen := placed ps (sliceB m 0x88 32) }

/-- Operation kinds by code. -/
def kindOf (n : Nat) : Option OpKind :=
  match n with
  | 1 => some .ld | 2 => some .vld | 3 => some .vgath | 4 => some .pref | 5 => some .brd | 6 => some .bwr | 7 => some .copy | 8 => some .st
  | 9 => some .vst | 10 => some .vscat | 11 => some .amo | 12 => some .gain | 13 => some .gget | 14 => some .bara | 15 => some .markq
  | _ => none

/-- A laundry mark names its context's own operations alone (R10, R193). -/
def ownMark (ctx : Half) (m : Word) : Word := at64 (bits m 47 0) 0 ||| at64 ctx.toNat 48

/-- An operation from its basting entry, its extension line and the 64 bytes beside them. -/
def Op.ofEntry (ctx : Half) (t : TsId) (k : OpKind) (ps : List (Nat × Nat)) (id : Nat) (d x m : List Byte) : Op :=
  let slot := fieldB d 0 2 / 2048
  let fn : BitVec 11 := BitVec.ofNat 11 (fieldB d 2 2)
  let width := min 16777216 (fieldB m 48 4)
  let o : Op :=
    { id := id, t := t, ctx := ctx, lid := lidBack (fieldB m 56 4), kind := k, segs := [], dst := [], pages := [], data := [], seq := w32 (sliceB d 4 4), fn := fn,
      addr := w64 (sliceB d 8 8), operand := w64 (sliceB d 16 8), cmp := w64 (sliceB m 40 8), mark := ownMark ctx (w64 (sliceB d 24 8)), n := 0,
      q := if slot = 31 then 0 else 1 + fieldB d 1 1 / 4 % 2, width := width, signed := decide (fieldB m 52 1 = 1), held := false, parked := false, dead := none,
      vec := 0, hdr := 0, deps := placed ps (sliceB m 8 32), mst := 0, replay := true }
  match k with
  | .ld => { o with mark := 0, width := min 8 width, data := List.replicate (min 8 width) 0 }
  | .vld => { o with mark := 0, width := 64, data := List.replicate 64 0 }
  | .vgath => { o with mark := 0, width := 64, data := List.replicate 64 0, vec := vec512 (sliceB x 0 64) }
  | .brd | .bwr => { o with mark := 0, hdr := w64 (sliceB x 0 8), n := min 2048 (fieldB x 8 4), width := 64 * min 2048 (fieldB x 8 4) }
  | .st => { o with mark := 0, width := min 8 width, data := leBytes (min 8 width) o.operand.toNat, parked := true }
  | .vst => { o with mark := 0, width := 64, data := sliceB x 0 64, parked := true }
  | .vscat => { o with mark := 0, width := 64, vec := vec512 (sliceB x 0 64), data := sliceB x 64 64, parked := true }
  | .amo => { o with cmp := w64 (sliceB x 0 8), width := if fn.getLsbD 9 then 4 else 8, n := fn.toNat % 32 }
  | .gain => { o with n := fn.toNat % 4 }
  | .gget => { o with mark := 0, n := 3 }
  | .bara => { o with vec := vec512 (sliceB x 0 64), hdr := w64 (sliceB x 64 8), operand := w64 (sliceB x 72 8), n := o.addr.toNat, width := fn.toNat / 32 % 8 }
  | .markq => { o with addr := w64 (sliceB x 0 8), mark := ownMark ctx o.operand, n := fn.toNat % 2 }
  | _ => { o with mark := 0 }

/-- The pieces of a replayed access, by a new check (R187). A parked store stays in the replay queue, and is taken in its order (R81, R195). -/
def State.reissue (s : State) (o : Op) : Except (Cause × Word) Op :=
  let v := o.view
  let whole := fun (a : Word) (n : Nat) (r : BitVec 4) => s.check v a n r
  match o.kind with
  | .ld | .vld | .st | .vst => match whole o.addr o.width o.kind.right with
    | .ok bs => .ok { o with segs := segsOf bs, pages := pagesOf bs, held := !o.kind.isStore && anyNr bs }
    | .error e => .error e
  | .vgath | .vscat =>
    let t : BitVec 3 := BitVec.ofNat 3 (o.fn.toNat / 32 % 8)
    let n := tyW t / 8
    let on := laneAddrs o.addr t o.vec o.cmp
    let step := fun (a : Except (Cause × Word) (List Seg × List Block)) (l : Nat × Word) => match a, whole l.2 n o.kind.right with
      | .ok (g, all), .ok bs => .ok (g ++ (segsOf bs).map (fun x => { x with off := l.1 * n + x.off }), all ++ bs)
      | .error e, _ => .error e
      | .ok _, .error e => .error e
    match on.foldl step (.ok ([], [])) with
    | .ok (g, all) => .ok { o with segs := g, pages := pagesOf all, held := !o.kind.isStore && anyNr all }
    | .error e => .error e
  | .amo => match whole o.addr o.width rAM with
    | .ok bs => .ok { o with segs := wholeSegs bs, pages := pagesOf bs, held := anyNr bs }
    | .error e => .error e
  | .brd | .bwr => match whole o.addr o.width rRD, whole o.operand o.width rWR with
    | .ok a, .ok b => .ok { o with segs := wholeSegs a, dst := wholeSegs b, pages := pagesOf (if o.kind = .brd then a else b), held := anyNr (a ++ b) }
    | .error e, _ => .error e
    | _, .error e => .error e
  | .markq => if o.n = 1 then .ok o else match whole o.addr 1 rRD with
    | .ok bs => .ok { o with segs := wholeSegs bs }
    | .error e => .error e
  | .pref => match whole o.addr 1 rRD with
    | .ok bs => .ok { o with segs := wholeSegs bs }
    | .error _ => .ok o
  | _ => .ok o

/-- A saved slot of a load queue names its operation again. -/
def waitAt {α : Type} (q : List (LdE α)) (i id which : Nat) : List (LdE α) := q.zipIdx.map (fun e => if e.2 = i then .wait id which else e.1)

/-- The queue entry of a replayed copy, which OPERAND addresses, of its own context and thread set, and which no other operation serves; a copy resumes
from its PROG (R151, R190). -/
def State.copyBack (s : State) (o : Op) : Option (CopyQ × CopyE) :=
  (s.copyQs.filter (fun q => decide (q.ctx = o.ctx))).findSome? (fun q =>
    (q.ents.zipIdx.find? (fun e => decide (o.operand.toNat = (s.copyQBase q.ctx q.level).getD 0 + 64 + 128 * ((q.head + e.2) % 256)) &&
      decide (bits e.1.issuer 15 0 = o.t.core.idx + 2 ^ 14 * o.t.ts) && (s.op e.1.op).isNone)).map (fun e => (q, e.1)))

/-- Reissue one entry: the context is killed with REPLAY set where the check fails. It keeps the place that it had in the order of its thread set,
and what waits for it goes on waiting (R168); class M operations of one owner keep their order. -/
def State.replayOne (s : State) (ctx : Half) (ls : List Launch) (t : TsId) (ps : List (Nat × Nat)) (p : Nat) (d x m : List Byte) : State × Bool :=
  match kindOf (fieldB d 0 1) with
  | none => (s, true)
  | some k =>
    let o := Op.ofEntry ctx t k ps (Assoc.getD ps p 0) d x m
    let src := if k = .copy then s.copyBack o else none
    if (o.lid.map (fun l => !(ls.any (fun y => decide (y.lid = l))))).getD false || (decide (k = .copy) && src.isNone) then (s, true)
    else
      let (s, o) : State × Op := match src with
        | some (q, e) => (s.setCopyQ { q with ents := q.ents.map (fun y => if y = e then { y with op := o.id } else y) },
                          { o with addr := dSrc e.desc, hdr := e.hdr, vec := e.desc, mark := e.mark })
        | none => (s, o)
      match s.reissue o with
      | .error (c, a) => (s.killReplay o c a, false)
      | .ok o =>
        let own := s.ownerOf o
        let o : Op := { o with deps := o.deps ++ if o.classCode = 2 ∧ own.isSome then (s.ops.filter (fun y => decide (y.t = t) && decide (y.classCode = 2) &&
          decide (s.ownerOf y = own))).map Op.id else [] }
        let y := s.tsGet t
        let slot := fieldB d 0 2 / 2048
        let y : ThreadSet := if o.q = 1 then { y with slq := (if o.kind = .markq then waitAt (waitAt y.slq slot o.id 0) (slot + 1) o.id 1 else waitAt y.slq slot o.id 0) }
          else if o.q = 2 then { y with vlq := waitAt y.vlq slot o.id 0 } else y
        (({ s with ops := s.ops ++ [o] } : State).tsSet t y, true)

/-- A place and its entry, extension line and 64 bytes. -/
structure Saved where
  place : Nat
  d : List Byte
  x : List Byte
  m : List Byte
  deriving DecidableEq, Repr

/-- Place an entry by SEQ, before later ones. -/
def insertSeq (e : Saved) : List Saved → List Saved
  | [] => [e]
  | x :: r => if seqOlder (w32 (sliceB x.d 4 4)) (w32 (sliceB e.d 4 4)) then x :: insertSeq e r else e :: x :: r

/-- Entries that a thread set's image counts. -/
def State.entriesAt (s : State) (at_ : Nat) : Nat := min 64 (leNat (s.rdPhys at_ 2) / 4 % 128)

/-- Names for the places of a core's records: the operation's own where it is one of the captured thread set's, which others may be waiting for, else a
new one. -/
def State.namesBack (s : State) (f : Frozen) (c : CoreId) (base : Nat) : List (Nat × Nat) :=
  ((threadsOf c).flatMap (fun t =>
    let at_ := base + 0x3A000 + 0x8000 * t.ts
    (List.range (s.entriesAt at_)).map (fun i =>
      let w := leNat (s.rdPhys (at_ + 0x7000 + 64 * i) 8)
      (64 * t.ts + i, if 0 < w ∧ f.ops.any (fun o => decide (o.id = w - 1) && decide (o.t = t)) then w - 1 else s.nextId + 256 * (c.idx % 8) + 64 * t.ts + i)))).foldl
    (fun a p => a ++ [if a.any (fun q => decide (q.2 = p.2)) then (p.1, s.nextId + 256 * (c.idx % 8) + p.1) else p]) []

/-- An activation fits: it is of a launch that the context has on the bundle, and its run lies in the scratchpad (R10). -/
def State.fits (s : State) (ls : List Launch) (c : CoreId) (a : Activation) : Bool :=
  match a.lid with
  | none => (match a.origin with | .pile _ _ _ => false | _ => true)
  | some lid => match ls.find? (fun l => decide (l.lid = lid)), a.origin with
    | none, _ => false
    | some l, .pile r home run => l.pile && l.bundles.contains home && decide (run + r.fplen ≤ s.scratchSize c)
    | some _, _ => true

/-- Restore a thread set, which is free where no activation was captured or its launch has ended, and reissue its record in increasing SEQ
(R187 step 4, R195). -/
def State.thawTs (ctx : Half) (ls : List Launch) (base : Nat) (ps : List (Nat × Nat)) (a : State × Bool) (t : TsId) : State × Bool :=
  if !a.2 then a
  else
    let s := a.1
    let at_ := base + 0x3A000 + 0x8000 * t.ts
    let d := s.rdPhys at_ 0x2000
    let point := fieldB d 0 1 % 4
    let x := ThreadSet.ofImage d (s.rdPhys (at_ + 0x6100) 256) ps
    let act := (activationBack ctx (s.rdPhys (at_ + 0x6000) 256)).filter (s.fits ls t.core)
    let x : ThreadSet := if point = 0 ∨ act.isNone then x.free else { x with act := act, stall := if point = 1 then some .done else some .held }
    let es : List Saved := (List.range (s.entriesAt at_)).map (fun i => Saved.mk (64 * t.ts + i) (s.rdPhys (at_ + 0x2000 + 32 * i) 32)
      (s.rdPhys (at_ + 0x4000 + 128 * i) 128) (s.rdPhys (at_ + 0x7000 + 64 * i) 64))
    (es.foldr insertSeq []).foldl (fun (a : State × Bool) e => if a.2 then a.1.replayOne ctx ls t ps e.place e.d e.x e.m else a) (s.tsSet t x, true)

/-- Rows of an MST as they translate now; one that fails stays for its turn, which kills (R340). -/
def State.mstRowsBack (s : State) (v : View) (stride : Word) (w : Nat) : Nat → Word → List Seg × Bool
  | 0, _ => ([], false)
  | n + 1, a =>
    let (l, nr) := s.mstRowsBack v stride w n (a + stride)
    match s.check v a w rWR with
    | .ok bs => (bs.map (fun g => { va := g.va, bus := g.bus, len := g.len, off := 0 }) ++ l, nr || anyNr bs)
    | .error _ => ({ va := a, bus := 0, len := w, off := 0 } :: l, true)

/-- A press command from its saved word and the 64 bytes beside it (R146, R185). -/
def State.pressBack (s : State) (c : CoreId) (ps : List (Nat × Nat)) (ls : List (Option Launch)) (d m : List Byte) : Option PressCmd :=
  let w := leNat d
  if w / 2 ^ 40 % 2 = 0 then none
  else match (ls[w / 2 ^ 41 % 2]?).join with
    | none => none
    | some l =>
      let k : PressCmd := { word := .nop, t := { core := c, ts := w / 2 ^ 32 % 4 }, cls := min 11 (w / 2 ^ 36 % 16), lid := l.lid, addr := w64 (sliceB m 0 8),
                            stride := fieldB m 8 8, hdr := w64 (sliceB m 16 8), segs := [], held := false, oseq := (w64 (sliceB m 24 8)).setWidth 32,
                            deps := placed ps (sliceB m 32 32) }
      match decodeNorson (BitVec.ofNat 32 w) 0 with
      | .ok (.mma a b z f g x y j n) => some { k with word := .mma a b z f g x y j n }
      | .ok (.mzero z) => some { k with word := .mzero z }
      | .ok (.mst a b z m sl) =>
        let (rows, nr) := s.mstRowsBack { core := c, ctx := l.ctx, lid := some l.lid } (BitVec.ofNat 64 k.stride) (mstRowBytes m.toNat) 32 k.addr
        some { k with word := .mst a b z m sl, segs := rows, held := nr }
      | _ => none

/-- The launch that BINDS or BINDS2 binds on a core: one that the context has on the bundle. -/
def State.boundTo (src : State) (ls : List Launch) (at_ i : Nat) : Option Launch :=
  ls.find? (fun l => decide (l.lid.toNat = leNat (src.rd (at_ + 384 * i) 8)))

/-- The ordinal of a core in BINDS, one that the launch has. -/
def State.boundOrdinal (src : State) (l : Launch) (at_ i : Nat) : Option Nat :=
  let o := leNat (src.rd (at_ + 384 * i + 112) 8)
  if o < l.n then some o else none

/-- BINDS back: a launch's window bases and group memberships on a core (R187). -/
def State.bindsBack (src : State) (ls : List Launch) (at_ : Nat) (s : State) (i : Nat) : State :=
  match src.boundTo ls at_ i with
  | none => s
  | some l => match src.boundOrdinal l at_ i with
    | none => s
    | some o =>
      let d := src.rd (at_ + 384 * i) 384
      let kb := (List.range 8).map (fun n => w64 (sliceB d (16 + 8 * n) 8))
      let mask := fieldB d 80 32
      s.onLaunch (some l.lid) (fun l => { l with
        kbOf := if kb = (Assoc.get l.kbOf o).getD l.kb then l.kbOf else Assoc.set l.kbOf o kb,
        groups := l.groups.map (fun g => (g.1, if mask / 2 ^ g.1 % 2 = 1 then (if g.2.contains o then g.2 else g.2.filter (fun x => decide (x < o)) ++ [o] ++ g.2.filter (fun x => decide (o < x)))
          else g.2.filter (fun x => decide (x ≠ o)))) })

/-- RINSE back: a core's saved count and stain, with what was counted since. -/
def State.rinseBack (src : State) (ls : List Launch) (binds at_ : Nat) (s : State) (i : Nat) : State :=
  match src.boundTo ls binds i with
  | none => s
  | some l => match src.boundOrdinal l binds i with
    | none => s
    | some o => s.onLaunch (some l.lid) (fun l => { l with
        counts := Assoc.set l.counts o (Assoc.getD l.counts o 0 + (src.rd64 (at_ + 16 * i)).toInt),
        stains := if (src.rd64 (at_ + 16 * i + 8)).getLsbD 0 && !(l.stains.contains o) then o :: l.stains else l.stains })

/-- A core's deque back: its records from the restored scratchpad (R115), with the words beside them. -/
def State.dequeBack (src : State) (ps : List (Nat × Nat)) (at_ : Nat) (c : CoreId) (s : State) (l : Launch) : State :=
  match l.ordinal c with
  | none => s
  | some o =>
    if l.pile then s
    else
      let far := leNat (src.rdPhys at_ 8) % 256
      let n := min 257 (leNat (src.rdPhys (at_ + 8) 8))
      s.onLaunch (some l.lid) (fun y => y.setDeque o (far, (List.range n).map (fun i =>
        { bytes := s.rd (scratchBus c (s.areaBase l (bundleOf c) + 32 * ((far + i) % 256))) 32, s2 := w64 (src.rdPhys (at_ + 16 + 8 * i) 8),
          deps := placed ps (src.rdPhys (at_ + 0x1000 + 32 * i) 32) })))

/-- Restore a core that the block holds: scratchpad, rings, press commands, deques, then the basket in arrival order (R187 steps 2 and 3). A message, ring
or command of a launch that is not there is discarded. -/
def State.thawCore (b : Nat) (f : Frozen) (ls : List Launch) (two : Bool) (src : State) (s : State) (i : Nat) : State :=
  let c := cc (8 * b + i)
  let base := f.blk + 0x100000 + 0x80000 * i
  let old := Assoc.getD f.cores c CoreSt.reset
  let ps := src.namesBack f c base
  let bound := [src.boundTo ls (f.blk + 0x400) i, if two then src.boundTo ls (f.blk + 0x1400) i else none]
  let k := s.core c
  let l1 := match bound.head?.join with
    | some _ => 32 * max 1 (min 4 (leNat (src.rd (f.blk + 0x400 + 384 * i + 8) 8) / 2 ^ 20 % 256 / 32))
    | none => k.l1
  let rings := (List.range 8).filterMap (fun n =>
    let w := leNat (src.rd (f.blk + 0x300 + 32 * i + 4 * n) 4)
    if w / 2 ^ 31 = 0 then none
    else ((bound[w / 2 ^ 30 % 2]?).join).map (fun l =>
      (n, ({ base := w % 2 ^ 18, count := w / 2 ^ 18 % 256, fmt := w / 2 ^ 26 % 16, lid := some l.lid } : Ring))))
  let pq := (List.range 8).filterMap (fun n =>
    src.pressBack c ps bound (src.rd (f.blk + 0x100 + 64 * i + 8 * n) 8) (src.rd (f.blk + 0x8000 + 512 * i + 64 * n) 64))
  let bk := ((List.range (min 64 (leNat (src.rd (base + 0x39000) 1) % 128))).map (fun n => msgBack (src.rd (base + 0x38000 + 64 * n) 64))).filter
    (fun m => ls.any (fun l => decide (l.lid = m.w1.extractLsb' 32 16)))
  let s := s.setCore c (({ k with membk := old.membk, ring := old.ring, membkNext := old.membkNext, dups := old.dups, l1 := l1, captured := false,
                                  rings := rings, pressQ := pq, basket := bk } : CoreSt).refill)
  let s : State := { s with scratch := Cells.spliceAll s.undef s.scratch (scratchBus c 0) (src.rdPhys base ((256 - l1) * 1024)) }
  bound.zipIdx.foldl (fun s l => match l.1 with
    | some l' => src.dequeBack ps (f.blk + 0x10000 + 0x8000 * i + 0x4000 * l.2) c s l'
    | none => s) s

/-- A core that the block does not hold takes what has arrived for it meanwhile. -/
def State.thawAbsent (b : Nat) (f : Frozen) (s : State) (i : Nat) : State :=
  let c := cc (8 * b + i)
  match Assoc.get f.cores c with
  | none => s
  | some old =>
    let k := s.core c
    s.setCore c (({ k with membk := old.membk, ring := old.ring, membkNext := old.membkNext, dups := old.dups, captured := false } : CoreSt).refill)

/-- The engine's records, count and stain from the block (R135, R185). What has arrived since stands in ULOG. -/
def State.pileBack (src : State) (b : Nat) (f : Frozen) (l : Launch) (here : Bool) : Pile :=
  let rs := if !here then [] else (List.range 8192).filterMap (fun i =>
    let d := src.rdPhys (f.blk + 0x500000 + 40 * i) 40
    let fl := fieldB d 36 1
    if fl / 4 % 2 = 0 then none
    else some { pileRecOf (d.take 32) (spawnerBack l.lid (fieldB d 37 3)) with
                p := fieldB d 32 4, running := decide (fl % 2 = 1), touched := decide (fl / 2 % 2 = 1) })
  let out := src.pnet.any (fun e => match e.2 with
    | .stealReq x _ k _ _ => decide (x = l.lid) && decide (k = b)
    | .stealReply x k _ _ _ _ => decide (x = l.lid) && decide (k = b)
    | _ => false)
  let p : Pile := { recs := [], partialSum := 0, count := 0, stain := false, bcast := (0, none), coming := [], stealOut := out }
  if here then { p.put rs with count := (src.rd64 (f.blk + 0x1080)).toInt, stain := (src.rd64 (f.blk + 0x1088)).getLsbD 0 } else p

/-- Log entries in a row that one release sent arrive as one step (R240). -/
def ULogEntry.sameGroup : ULogEntry → ULogEntry → Bool
  | .record l _ g, .record m _ h => decide (l = m) && decide (g = h)
  | _, _ => false
def groupLog : List ULogEntry → List (List ULogEntry)
  | [] => []
  | e :: r => match groupLog r with
    | (x :: xs) :: rest => if e.sameGroup x then (e :: x :: xs) :: rest else [e] :: (x :: xs) :: rest
    | rest => [e] :: rest

/-- A log entry from its 32 bytes and the word beside them; of an update whose operation still waits for its answer, the name. -/
def State.logEntryBack (src : State) (l : Launch) (d : List Byte) (w : Nat) : ULogEntry :=
  if w / 2 % 2 = 0 then .record l.lid (pileRecOf d (spawnerBack l.lid (w / 2 ^ 3 % 2 ^ 18))) (w / 2 ^ 21)
  else
    let id := w / 2 ^ 21
    let live := (src.op id).any (fun o => decide (o.kind = .gain) && decide (o.lid = some l.lid))
    .upd { id := if live then id else src.nextId, t := { core := cc (w / 2 ^ 3 % 2 ^ 14), ts := w / 2 ^ 17 % 4 }, ctx := l.ctx, lid := some l.lid, kind := .gain,
           segs := [], dst := [], pages := [], data := [], seq := w32 (sliceB d 0 4), fn := BitVec.ofNat 11 (fieldB d 24 8), addr := w64 (sliceB d 8 8),
           operand := w64 (sliceB d 16 8), cmp := 0, mark := ownMark l.ctx (w64 (sliceB d 0 8)), n := fieldB d 24 1 % 4, q := 0, width := 0, signed := false,
           held := false, parked := false, dead := none, vec := 0, hdr := 0, deps := [], mst := 0 }

/-- ULOG up to its end, which is the first entry with nothing beside it. -/
def State.logBack (src : State) (f : Frozen) (l : Launch) : Nat → Nat → List ULogEntry
  | 0, _ => []
  | k + 1, n =>
    let w := leNat (src.rdPhys (f.blk + 0x780000 + 8 * n) 8)
    if w % 2 = 0 then [] else src.logEntryBack l (src.rdPhys (f.blk + 0x580000 + 32 * n) 32) w :: src.logBack f l k (n + 1)

/-- The bundle's entries in the context's overflow log, by their bytes (R189). -/
def State.excessBack (src : State) (f : Frozen) (l : Launch) : List ULogEntry :=
  match src.logBase f.ctx with
  | none => []
  | some a => ((f.ulog.drop 65536).zip f.excess).map (fun e => src.logEntryBack l (src.rd (a + 32 * e.2) 32) e.1.word)

/-- Log entries are applied as they would have been on arrival (R187 step 2). -/
def State.applyLog (b : Nat) (s : State) (g : List ULogEntry) : State :=
  match g with
  | [] => s
  | .record lid r0 grp :: more =>
    let rs := ((.record lid r0 grp :: more : List ULogEntry)).filterMap (fun e => match e with
      | .record _ r _ => some r
      | _ => none)
    if (s.launch lid).isNone then s
    else match (s.pileOf b lid).arriveAll rs with
      | some p => s.setPile b lid p
      | none => rs.foldl (fun s r => { s with pnet := s.pnet ++ [(s.nextId, .spawn lid b r [] grp (some s.clock))], nextId := s.nextId + 1 }) s
  | .upd o :: _ =>
    match o.lid.bind s.launch with
    | none => s
    | some l => if (s.remembered (pileOwner b) o.mark).isSome then s else s.applyGain l.lid b o

/-- THAW's work (R187): restore, apply the log, refill, replay, and open the bundle again. -/
def State.thaw (s : State) (b : Nat) (f : Frozen) : State :=
  let ls := s.pair b f.ctx
  let src := s
  let k := s.bundle b
  let st := leNat (src.rd f.blk 8)
  let two := decide (st / 2 ^ 10 % 2 = 1)
  let here := (List.range 8).filter (fun i => st.testBit (i + 1))
  let piles := ((ls.filter Launch.pile).take 1).map (fun l => (l.lid, src.pileBack b f l (decide (st / 2 ^ 9 % 2 = 1))))
  let s : State := { s.setBundle b { k with frozen := k.frozen.filter (fun x => decide (x.ctx ≠ f.ctx)), thawing := none, piles := piles } with
                     nextId := s.nextId + 2048 }
  let s := here.foldl (State.thawCore b f ls two src) s
  let s := ((List.range 8).filter (fun i => !(here.contains i))).foldl (State.thawAbsent b f) s
  let s := here.foldl (src.rinseBack ls (f.blk + 0x400) (f.blk + 0x20)) s
  let s := here.foldl (src.bindsBack ls (f.blk + 0x400)) s
  let s := if two then here.foldl (src.bindsBack ls (f.blk + 0x1400)) (here.foldl (src.rinseBack ls (f.blk + 0x1400) (f.blk + 0x1000)) s) else s
  let s := match (ls.filter Launch.pile).head? with
    | none => s
    | some l => (groupLog (src.logBack f l 65536 0 ++ src.excessBack f l)).foldl (State.applyLog b) s
  let s := (here.foldl (fun (a : State × Bool) i =>
    let c := cc (8 * b + i)
    let base := f.blk + 0x100000 + 0x80000 * i
    (threadsOf c).foldl (State.thawTs f.ctx ls base (src.namesBack f c base)) a) (s, true)).1
  let held := fun (g : Flight) => decide (g.ctx = f.ctx) && !g.dst.kernel && decide (bundleOf g.dst = b)
  { s with net := s.net.map (fun g => if held g then { g with held := false } else g) }

/-- THAW ends: BSTATE[0] is cleared and the status pushed; cores that stand idle ask for records (R116). -/
def execThawComplete (b : Nat) (s : State) : Host.Outcome State Fault Refusal :=
  let k := s.bundle b
  match k.thawing with
  | none => .next s
  | some (ctx, blk, id) =>
    let f := (k.frozen.find? (fun f => decide (f.ctx = ctx))).getD (Frozen.bare ctx blk)
    let s := s.thaw b { f with blk := blk }
    let s := s.wr64 blk (s.rd64 blk &&& ~~~1#64)
    .next (((s.endWith id 0).pair b ctx).foldl (fun s l => s.sendSteals l.lid) (s.endWith id 0))

/-! ## Replays at their owners (R193) -/

/-- A replay whose mark its owner remembers applies nothing; the remembered result is returned. One older than the window kills the
context with MARKOLD and REPLAY set (R187). -/
def execMarkedReplayArrival (id : Nat) (s : State) : Host.Outcome State Fault Refusal :=
  match s.op id with
  | none => .next s
  | some o =>
    match s.ownerOf o with
    | none => .next s
    | some own =>
      if o.classCode ≠ 2 ∨ o.sent ∨ o.held ∨ o.deps.any (fun d => s.pending d) then .next s
      else if o.orphan then .next (if s.known o then (s.dropOp id).close else s)
      else match s.remembered own o.mark with
        | some r =>
          let m := match o.kind with | .amo => o.fn.getLsbD 7 | .gain => o.fn.getLsbD 2 | _ => false
          let s := if m then s.onLaunch o.lid (fun l => { l with msupp := l.msupp + 1 }) else s
          match o.kind with
          | .amo => .next ((if o.q = 1 then s.fillS o.t id 0 (.ready r) else s).dropOp id)
          | .bara =>
            match o.lid.bind s.launch with
            | none => .next s
            | some l =>
              let s := s.dropOp id
              match l.done.find? (fun e => decide (e.group = o.n) && decide (e.epoch = o.operand.toNat)),
                    l.arrivals.find? (fun a => decide (a.group = o.n) && decide (a.mark = o.mark)) with
              | some e, some a =>
                let m := baraMsg l a (groupScope ((l.members o.n).map l.coreAt)) e.pay
                .next (s.post { id := 0, dst := o.t.core, src := none, msg := m, ctx := o.ctx, lid := o.lid, counted := true, outside := false, deps := [], held := false })
              | _, _ => .next s
          | _ => .next (s.dropOp id)
        | none =>
          if o.replay && s.markOld own o.mark then
            .next (((s.onLaunch o.lid (fun l => { l with markold := l.markold + 1 })).dropOp id).killReplay o .markold o.addr)
          else .next s

end Sys2Proof.Machine
end

