-- ==== Sys2Proof/Machine/Livik.lean ====
section
/-!
DEFINITION. How a Livik instruction runs: registers (R24 to R27), retirement (R33, R47), parking (R54), the agent fault and the
kill (R46, R49, R75), host mailboxes and notices (R200, R301), program mailboxes (R62, R63), and the image store (R230).
-/

namespace Sys2Proof.Machine

open Sys2Proof

/-! ## Registers -/

def Prog.ga (p : Prog) (i : LIdx) : Word := (p.a[i.toNat]?).getD 0
def Prog.gc (p : Prog) (i : LIdx) : Word := (p.c[i.toNat]?).getD 0
def Prog.gt (p : Prog) (i : LIdx) : List Word32 := (p.t[i.toNat]?).getD []
def Prog.sa (p : Prog) (i : LIdx) (v : Word) : Prog := { p with a := p.a.set i.toNat v }
def Prog.sc (p : Prog) (i : LIdx) (v : Word) : Prog := { p with c := p.c.set i.toNat v }
def Prog.st (p : Prog) (i : LIdx) (v : List Word32) : Prog := { p with t := p.t.set i.toNat v }

/-! ## Host mailbox (R200) -/

/-- The next entry of a program's host mailbox holds a message. -/
def State.hostFull (s : State) (p : Prog) : Bool := (s.rd64 (p.hmbx + 64 * (p.hseq % 64) + 0x38)).getLsbD 0

/-- Fill the next entry: payload and header, then FULL. -/
def State.hostPut (s : State) (p : Prog) (cls : Nat) (tag : Word) (val retn : Word) (pay : List Byte) : State :=
  let e := p.hseq % 64
  let h := p.hmbx + 64 * e
  let s := if pay.isEmpty then s else s.wrPhys (p.hmbx + 4096 + 16384 * e) pay
  let s := s.wrPhys h (leBytes 8 (at64 p.slot 0 ||| at64 cls 16 ||| at64 (tag.toNat % 2 ^ 32) 32).toNat ++ leBytes 8 val.toNat ++
    leBytes 8 retn.toNat ++ leBytes 8 (p.hseq + 1) ++ List.replicate 24 0)
  let s := s.wr64 (h + 0x38) 1
  s.onProg p.slot (fun p => { p with hseq := p.hseq + 1 })

/-- Post a notice, or keep it until the next entry is free, behind those that wait (R200). -/
def State.notice (s : State) (slot : Nat) (tag : Word) (rec : Vec) : State :=
  match s.prog slot with
  | none => s
  | some p =>
    if !p.notices.isEmpty || s.hostFull p then s.onProg slot (fun p => { p with notices := p.notices ++ [(tag, p.retn, rec)] })
    else s.hostPut p 3 tag 0 p.retn (leBytes 32 rec.toNat)

/-- The notice of an end or a kill (R301). -/
def State.endNotice (s : State) (slot : Nat) : State :=
  match s.prog slot with
  | none => s
  | some p =>
    let who := at64 slot 0 ||| at64 p.state.code 16 ||| at64 p.fault 24 ||| at64 p.pc 32
    s.notice slot 1 (vec512 (leBytes 8 who.toNat ++ leBytes 8 p.retn.toNat ++ s.stamp0.bytes))

/-- A stamp or a status by its physical address, in stack memory or in granted host memory beyond it (R198). -/
def State.wrSys (s : State) (a : Nat) (d : List Byte) : State :=
  if Config.channels * Config.channelBytes ≤ a ∧ s.inHost a d.length then s.hostWr a d else s.wrPhys a d

/-! ## Leaving a long instruction -/

/-- No context is held for a program any more (R31). -/
def State.unbusy (s : State) (slot : Nat) : State :=
  { s with lctx := s.lctx.map (fun c => if c.2.busy = some slot then (c.1, { c.2 with busy := none }) else c) }

/-- The context that a program's step runs on (R34): cA of APPEND, cB of GENU, the scratch context, or cB while CHOOSE appends. -/
def Prog.stepCid (p : Prog) : Option Nat :=
  match p.long with
  | some (.append a _) => some (bits (p.gc a) 17 0)
  | some (.genu _ b _ _ _) => some (bits (p.gc b) 17 0)
  | some (.choose _ b _ _ _) => if p.p0.getLsbD 60 then some (bits (p.gc b) 17 0)
    else if p.scratch = 0 then none else some (bits p.scratch 17 0)
  | some _ => some (bits p.scratch 17 0)
  | none => none

/-- The mangle's state for an image (R60). -/
def State.mangle (s : State) (img : Half) : Mangle :=
  (s.mangles.find? (fun m => decide (m.img = img))).getD { img := img, start := 3, defs := [], window := false, opened := 0, place := [] }
def State.setMangle (s : State) (m : Mangle) : State :=
  { s with mangles := if s.mangles.any (fun x => decide (x.img = m.img)) then s.mangles.map (fun x => if x.img = m.img then m else x) else s.mangles ++ [m] }

/-- A READY program of levels 3 to 11 with a long instruction at PC opens a batching window where none is open (R56). -/
def State.openWindow (s : State) (slot : Nat) : State :=
  match s.prog slot with
  | none => s
  | some p =>
    match p.stepCid with
    | none => s
    | some c =>
      let m := s.mangle (s.lc c).img
      if p.level < 3 ∨ p.state ≠ .ready ∨ m.window then s else s.setMangle { m with window := true, opened := s.clock }

/-- Every parked program whose wait is over returns to READY, at the tail of its level's queue (R49). -/
def State.unpark (s : State) : State :=
  s.progs.foldl (fun s q =>
    match s.prog q.slot with
    | none => s
    | some p =>
      if p.state = .parked ∧ p.park.all (s.parkMet p) then
        ((s.onProg p.slot (fun p => { p with park := [] })).setPState p.slot .ready true).openWindow p.slot
      else s) s

/-! ## The kill (R46, R49) -/

/-- An agent fault or a kill, by its code: the state is KILLED, a set detach record is undone (R75), the scratch context is dropped, contexts and
frames are given up to others (R245), and host and kernel cores are told. The launch of an INVOKE runs to its end, also one whose packet the front
end has still to take (R49, R320). -/
def State.agentKill (s : State) (slot : Nat) (code : Nat) : State :=
  match s.prog slot with
  | none => s
  | some p =>
    let await : AwaitOn := match p.await with
      | .launch a (some ws) lid st => .launch a (some ws) lid st
      | _ => .none
    let s := s.onProg slot (fun p => { p with fault := code, scratch := 0, long := none, samp := none, await := await, park := [], kreq := false, lost := false })
    let s := s.setPState slot .killed false
    let s := match p.stepCid with
      | some c => s.detachUndo c
      | none => s
    let s := if p.scratch = 0 then s else s.ctxDrop (bits p.scratch 17 0)
    let s := (s.unbusy slot).dropFrames slot
    let s := { s with reports := .agentKill slot code p.pc p.retn :: s.reports }
    ((s.endNotice slot).syncBlock slot).unpark

/-- A page whose NVMe blocks cannot be read any more (R77). -/
def State.lostPage (s : State) (pti : Nat) : Bool :=
  (s.page pti).used && decide ((s.page pti).res = 2) && (Assoc.get s.shelf (s.page pti).loc).isNone

/-- Park a program at its boundary (R49, R54). One that would wait for a lost page is killed with LOST (R77). -/
def State.parkProg (s : State) (slot : Nat) (w : List ParkWait) : State :=
  if w.any (fun x => match x with | .pages l => l.any s.lostPage | _ => false) then s.agentKill slot 0x0E
  else ((s.onProg slot (fun p => { p with park := w, resume := p.resume || p.long.isSome })).setPState slot .parked false).syncBlock slot

/-! ## Running one instruction -/

/-- Why an instruction does not retire now: an agent fault, a wait that changes nothing, or a residency fault. -/
inductive LStop where
  | fault (code : Nat)
  | wait
  | park (w : List ParkWait)
  deriving DecidableEq, Repr

/-- Time passes between instructions (log 8). -/
def State.pass (s : State) : State := { s with clock := s.clock + Config.freeCycles (2 * s.fresh + 1), fresh := s.fresh + 1 }

/-- A kill is pending: a requested one, or the agent fault of lost state (R48, R50). -/
def Prog.doomed (p : Prog) : Bool := p.kreq || p.lost
/-- Its code: KILLREQ comes before an agent fault, LOST (R46, R50). -/
def Prog.killCode (p : Prog) : Nat := if p.kreq then 0x0D else 0x0E

/-- Run an instruction of the program whose turn it is. A requested kill comes first (R50). -/
def livik (s : State) (f : State → Prog → Except LStop State) : Host.Outcome State Fault Refusal :=
  match s.cur with
  | .prog slot =>
    match s.prog slot with
    | none => .next s
    | some p =>
      if p.state ≠ .ready then .next s
      else if p.doomed then .next (s.pass.agentKill slot p.killCode)
      else match f s.pass p with
        | .ok t => .next t
        | .error (.fault c) => .next (s.pass.agentKill slot c)
        | .error (.park w) => .next (s.pass.parkProg slot w)
        | .error .wait => .next s
  | _ => .next s

/-- A short instruction retires: its effect on the program, RETN and the new PC together (R33). -/
def State.retireTo (s : State) (slot pc : Nat) (f : Prog → Prog) : State :=
  s.onProg slot (fun p => let q := f p; { q with retn := q.retn + 1, pc := pc, since := s.clock })
def State.retire (s : State) (p : Prog) (f : Prog → Prog) : State := s.retireTo p.slot (p.pc + 1) f

def fault {α : Type} (c : Nat) : Except LStop α := .error (.fault c)

/-- A live context that register value names, or BADREG (R27). -/
def State.ctxOf (s : State) (h : Word) : Except LStop Nat :=
  match s.named h with
  | some c => .ok c
  | none => fault 2

/-! ## The image store (R230) -/

/-- `n` bytes at offset `off` of a program's image: a page with NR 1 parks, a failed translation is LOST. -/
def State.imageRead (s : State) (p : Prog) (off n : Nat) : Except LStop (List Byte) :=
  let va := p.pimg + BitVec.ofNat 64 off
  match s.granted p.nctx va n rRD true with
  | .error _ => fault 0x0E
  | .ok bs => match bs.find? Block.nr with
    | some b => .error (.park [.image b.va])
    | none => .ok (s.rdBlocks bs)

/-- Token ids from bytes. -/
def idsOf : Nat → List Byte → List Word32
  | 0, _ => []
  | n + 1, d => w32 (d.take 4) :: idsOf n (d.drop 4)

/-! ## Program mailboxes (R62, R63) -/

/-- Write a mailbox entry's payload and origin to the registers of an AWAIT. -/
def Prog.take (p : Prog) (a : LReg) (b : LIdx) (e : MboxE) : Prog :=
  let p := match a with
    | .a i => p.sa i e.val
    | .c i => p.sc i e.val
    | .t i => p.st i e.str
  p.sa b (at64 e.tag.toNat 32 ||| at64 e.sender.toNat 0)

/-- The oldest entry of a class, and the others. -/
def takeClass (cls : Nat) : List MboxE → Option (MboxE × List MboxE)
  | [] => none
  | e :: r => if e.cls = cls then some (e, r) else (takeClass cls r).map (fun x => (x.1, e :: x.2))

/-- An AWAIT that finds its entry retires (R271). -/
def State.awaitTake (s : State) (p : Prog) (a : LReg) (b : LIdx) (e : MboxE) (rest : List MboxE) : State :=
  s.retire p (fun p =>
    { (p.take a b e).remember (ownerMail p.slot) p.mark (at64 e.tag.toNat 32 ||| at64 e.sender.toNat 0) (some e) with mbox := rest, await := .none })

/-- Enter an entry at the tail of a mailbox; a program that waits for its class takes it at once (R63). -/
def State.mailEnter (s : State) (slot : Nat) (e : MboxE) : State :=
  let s := s.onProg slot (fun p => { p with mbox := p.mbox ++ [e] })
  match s.prog slot with
  | none => s
  | some p =>
    match p.await with
    | .mbox a b _ _ =>
      if p.state = .awaiting then
        match takeClass a.cls p.mbox with
        | some (m, rest) => (s.awaitTake p a b m rest).setPState slot .ready true
        | none => s
      else s
    | _ => s

/-- A slot that can take entries: resident, and neither DONE nor KILLED. -/
def State.mailbox (s : State) (slot : Nat) : Option Prog :=
  (s.prog slot).filter (fun p => decide (p.state ≠ .done) && decide (p.state ≠ .killed))

end Sys2Proof.Machine
end

