-- ==== Sys2Proof/Machine/LivikShort.lean ====
section
/-!
DEFINITION. The short Livik instructions: control (R256, R269, R301, R318), contexts (R290 to R298), strings (R362 to R372), and
POST, AWAIT, INVOKE and STAMP (R270, R271, R319, R320, R344, R345, R361).
-/

namespace Sys2Proof.Machine

open Sys2Proof

/-! ## Control -/

def execAset (a : LIdx) (i : Word32) (s : State) : Host.Outcome State Fault Refusal :=
  livik s fun s p => .ok (s.retire p (fun p => p.sa a (i.signExtend 64)))

/-- ACALC with an operation (R256). -/
def acalc (a b c : LIdx) (f : Word → Word → Word) (s : State) : Host.Outcome State Fault Refusal :=
  livik s fun s p => .ok (s.retire p (fun p => p.sa a (f (p.ga b) (p.ga c))))

/-- Truncating division: all ones for a zero divisor, wrapping for -2^63 by -1. -/
def wordDiv (x y : Word) : Word := if y = 0 then BitVec.allOnes 64 else BitVec.ofInt 64 (x.toInt.tdiv y.toInt)
def wordRem (x y : Word) : Word := if y = 0 then x else BitVec.ofInt 64 (x.toInt.tmod y.toInt)
def flag (b : Bool) : Word := if b then 1 else 0

def execAcalcAdd (a b c : LIdx) (s : State) : Host.Outcome State Fault Refusal := acalc a b c (· + ·) s
def execAcalcSub (a b c : LIdx) (s : State) : Host.Outcome State Fault Refusal := acalc a b c (· - ·) s
def execAcalcMul (a b c : LIdx) (s : State) : Host.Outcome State Fault Refusal := acalc a b c (· * ·) s
def execAcalcDiv (a b c : LIdx) (s : State) : Host.Outcome State Fault Refusal := acalc a b c wordDiv s
def execAcalcRem (a b c : LIdx) (s : State) : Host.Outcome State Fault Refusal := acalc a b c wordRem s
def execAcalcAnd (a b c : LIdx) (s : State) : Host.Outcome State Fault Refusal := acalc a b c (· &&& ·) s
def execAcalcOr (a b c : LIdx) (s : State) : Host.Outcome State Fault Refusal := acalc a b c (· ||| ·) s
def execAcalcXor (a b c : LIdx) (s : State) : Host.Outcome State Fault Refusal := acalc a b c (· ^^^ ·) s
def execAcalcShl (a b c : LIdx) (s : State) : Host.Outcome State Fault Refusal := acalc a b c (fun x y => x <<< (y.toNat % 64)) s
def execAcalcShr (a b c : LIdx) (s : State) : Host.Outcome State Fault Refusal := acalc a b c (fun x y => x >>> (y.toNat % 64)) s
def execAcalcMin (a b c : LIdx) (s : State) : Host.Outcome State Fault Refusal := acalc a b c (fun x y => if x.toInt ≤ y.toInt then x else y) s
def execAcalcMax (a b c : LIdx) (s : State) : Host.Outcome State Fault Refusal := acalc a b c (fun x y => if x.toInt ≤ y.toInt then y else x) s
def execAcalcEq (a b c : LIdx) (s : State) : Host.Outcome State Fault Refusal := acalc a b c (fun x y => flag (decide (x = y))) s
def execAcalcLt (a b c : LIdx) (s : State) : Host.Outcome State Fault Refusal := acalc a b c (fun x y => flag (decide (x.toInt < y.toInt))) s
def execAcalcLtu (a b c : LIdx) (s : State) : Host.Outcome State Fault Refusal := acalc a b c (fun x y => flag (decide (x.toNat < y.toNat))) s

def execGoto (i : Word32) (s : State) : Host.Outcome State Fault Refusal :=
  livik s fun s p => .ok (s.retireTo p.slot i.toNat id)
def execGoif (a : LIdx) (i : Word32) (s : State) : Host.Outcome State Fault Refusal :=
  livik s fun s p => .ok (s.retireTo p.slot (if p.ga a ≠ 0 then i.toNat else p.pc + 1) id)
def execGosub (i : Word32) (s : State) : Host.Outcome State Fault Refusal :=
  livik s fun s p =>
    if 16 ≤ p.retstk.length then fault 9
    else .ok (s.retireTo p.slot i.toNat Prog.gosub)
def execGoret (s : State) : Host.Outcome State Fault Refusal :=
  livik s fun s p => match p.retstk with
    | [] => fault 9
    | r :: rest => .ok (s.retireTo p.slot r (fun p => { p with retstk := rest }))

/-- END (R301): PC keeps its index, and the notice carries RETN after retirement. -/
def execEndp (s : State) : Host.Outcome State Fault Refusal :=
  livik s fun s p =>
    let s := s.retireTo p.slot p.pc (fun q => q.remember ownerHost p.mark 0)
    let s := s.setPState p.slot .done false
    let s := if (p.repeated ownerHost).isSome then s else s.endNotice p.slot
    let s := s.dropFrames p.slot
    .ok (s.syncBlock p.slot)

/-! ## Contexts -/

/-- An instruction under its agent mark at an owner: a repeated mark gives the remembered result and applies nothing (R47). -/
def onceAt (owner : Nat) (p : Prog) (s : State) (g : Prog → Word → Prog) (f : State → Except LStop (State × Word)) : Except LStop State :=
  match p.repeated owner with
  | some r => .ok (s.retire p (fun p => g p r.res))
  | none => do
    let (s, r) ← f s
    .ok (s.retire p (fun q => (g q r).remember owner p.mark r))
/-- A context instruction, whose owner is the context table. -/
def once (p : Prog) (s : State) (g : Prog → Word → Prog) (f : State → Except LStop (State × Word)) : Except LStop State := onceAt ownerTable p s g f

/-- A context that no long instruction commits to (R31), or a wait. -/
def State.unheld (s : State) (cid : Nat) : Except LStop Unit := if (s.lc cid).busy.isSome then .error .wait else .ok ()

def execCtxnew (a b : LIdx) (s : State) : Host.Outcome State Fault Refusal :=
  livik s fun s p => once p s (fun p h => p.sc a h) fun s =>
    if bits (p.ga b) 63 16 ≠ 0 then fault 2
    else match s.image ((p.ga b).setWidth 16) with
      | none => fault 2
      | some m =>
        if m.ctx ≠ p.nctx then fault 2
        else match s.ctxNew m.id p.slot with
          | none => fault 0x0A
          | some r => .ok r

def execCtxfork (a b : LIdx) (s : State) : Host.Outcome State Fault Refusal :=
  livik s fun s p => once p s (fun p h => p.sc a h) fun s => do
    let c ← s.ctxOf (p.gc b)
    s.unheld c
    match s.ctxFork c p.slot with
    | none => fault 0x0A
    | some r => .ok r

def execCtxdrop (a : LIdx) (s : State) : Host.Outcome State Fault Refusal :=
  livik s fun s p => do
    let t ← once p s (fun p _ => p.sc a 0) fun s => do
      let c ← s.ctxOf (p.gc a)
      s.unheld c
      .ok (s.ctxDrop c, 0)
    .ok t.unpark

/-- Pages that a length lists (R69). -/
def listed (len : Nat) : Nat := if len ≤ 1 then 0 else (len - 2) / 16 + 1

/-- CTXTRIM's atomic step to a shorter length (R73, R298). -/
def State.trim (s : State) (slot cid len : Nat) : Except LStop State :=
  let c := s.lc cid
  let keep := listed len
  let idp := (c.list[(len - 1) / 16]?).getD 0
  let e := s.page idp
  if 1 ≤ len ∧ e.res ≠ 0 then .error (.park [.pages [idp]])
  else
    let tail : Word32 := if len = 0 then 0 else s.rd32 (s.idWord e (len - 1))
    let last := (c.list[keep - 1]?).getD 0
    let le := s.page last
    let f := len - 1 - 16 * (keep - 1)
    let cut := decide (1 ≤ keep) && decide (f < le.fill)
    let det := cut && decide (1 < le.refc)
    if det ∧ le.res ≠ 0 then .error (.park [.pages [last]])
    else if det ∧ s.framesOf slot (s.pageUnits c.img) = [] then .error (.park [.frames cid 1])
    else if det ∧ s.freeEntries < 1 then .error (.park [.entries 1])
    else
      let s := s.setLc cid { c with len := len, tail := tail, list := c.list.take keep }
      let s := (c.list.drop keep).foldl (fun s i =>
        s.onPage i (fun e => { e with refc := e.refc - 1, hold := if c.pin then e.hold - 1 else e.hold })) s
      let s := if det then
          (match s.takeFrame slot (s.pageUnits c.img) with
           | some (s, fr) => s.detachWhole [cid] (keep - 1) f fr
           | none => s)
        else if cut then s.onPage last (fun e => { e with fill := f, mgen := (e.mgen + 1) % 65536, lines := 0 })
        else s
      .ok ((c.list.drop keep).foldl State.release s)

def execCtxtrim (a b : LIdx) (s : State) : Host.Outcome State Fault Refusal :=
  livik s fun s p => do
    let t ← once p s (fun p _ => p) fun s => do
      let c ← s.ctxOf (p.gc a)
      s.unheld c
      if (s.lc c).len ≤ (p.ga b).toNat then .ok (s, 0)
      else do
        let t ← s.trim p.slot c (p.ga b).toNat
        .ok (t.dropFrames p.slot, 0)
    .ok t.unpark

def execCtxlen (a b : LIdx) (s : State) : Host.Outcome State Fault Refusal :=
  livik s fun s p => once p s (fun p v => p.sa a v) fun s => do
    let c ← s.ctxOf (p.gc b)
    .ok (s, BitVec.ofNat 64 (s.lc c).len)

/-- Pins that a page carries: of the contexts with PIN 1 that list it (R296). -/
def State.pins (s : State) (pti : Nat) : Nat := (s.lctx.filter (fun c => c.2.live && c.2.pin && c.2.list.contains pti)).length

def execCtxpinHold (a : LIdx) (s : State) : Host.Outcome State Fault Refusal :=
  livik s fun s p => once p s (fun p _ => p) fun s => do
    let c ← s.ctxOf (p.gc a)
    let x := s.lc c
    if x.pin || x.list.any (fun i => decide (254 ≤ s.pins i)) then .ok (s, 0)
    else .ok (x.list.foldl (fun s i => s.onPage i (fun e => { e with hold := e.hold + 1 })) (s.setLc c { x with pin := true }), 0)

def execCtxpinRelease (a : LIdx) (s : State) : Host.Outcome State Fault Refusal :=
  livik s fun s p => once p s (fun p _ => p) fun s => do
    let c ← s.ctxOf (p.gc a)
    let x := s.lc c
    if !x.pin then .ok (s, 0)
    else .ok (x.list.foldl (fun s i => s.onPage i (fun e => { e with hold := e.hold - 1 })) (s.setLc c { x with pin := false }), 0)

/-! ## Strings (R362) -/

/-- TLIT (R372). Under a repeated mark the image store remembers the entry's length (R47). -/
def execTlit (a : LIdx) (i : Word32) (s : State) : Host.Outcome State Fault Refusal :=
  livik s fun s p => do
    let off := i.toNat
    if off % 8 ≠ 0 ∨ p.imgLen < off + 4 then fault 1
    else do
      let h ← s.imageRead p off 4
      let n := match p.repeated ownerImage with
        | some r => r.res.toNat
        | none => leNat h
      if 4096 < n ∨ p.imgLen < off + 4 + 4 * n then fault 1
      else do
        let d ← s.imageRead p (off + 4) (4 * n)
        .ok (s.retire p (fun q => (q.st a (idsOf n d)).remember ownerImage p.mark (BitVec.ofNat 64 n)))

def execTcat (a b c : LIdx) (s : State) : Host.Outcome State Fault Refusal :=
  livik s fun s p =>
    if Config.maxTokens < (p.gt b).length + (p.gt c).length then fault 3
    else .ok (s.retire p (fun p => p.st a (p.gt b ++ p.gt c)))

def execTcut (a b c d : LIdx) (s : State) : Host.Outcome State Fault Refusal :=
  livik s fun s p => .ok (s.retire p (fun p => p.st a (((p.gt b).drop (p.ga c).toNat).take (p.ga d).toNat)))

def execTlen (a b : LIdx) (s : State) : Host.Outcome State Fault Refusal :=
  livik s fun s p => .ok (s.retire p (fun p => p.sa a (BitVec.ofNat 64 (p.gt b).length)))

/-- The first place of `k` in `m`, counted from `i`. -/
def findSub (k : List Word32) : List Word32 → Nat → Option Nat
  | [], i => if k.isEmpty then some i else none
  | x :: r, i => if k.isPrefixOf (x :: r) then some i else findSub k r (i + 1)

def execTfind (a b c d : LIdx) (s : State) : Host.Outcome State Fault Refusal :=
  livik s fun s p => .ok (s.retire p (fun p =>
    let n := (p.ga d).toNat
    p.sa a (if (p.gt b).length < n then BitVec.allOnes 64
      else match findSub (p.gt c) ((p.gt b).drop n) n with
        | some i => BitVec.ofNat 64 i
        | none => BitVec.allOnes 64)))

/-- Compare id by id as unsigned values (R365). -/
def cmpIds : List Word32 → List Word32 → Word
  | [], [] => 0
  | [], _ :: _ => BitVec.allOnes 64
  | _ :: _, [] => 1
  | x :: r, y :: t => if x = y then cmpIds r t else if y.toNat < x.toNat then 1 else BitVec.allOnes 64

def execTcmp (a b c : LIdx) (s : State) : Host.Outcome State Fault Refusal :=
  livik s fun s p => .ok (s.retire p (fun p => p.sa a (cmpIds (p.gt b) (p.gt c))))

def execTadd (a b : LIdx) (s : State) : Host.Outcome State Fault Refusal :=
  livik s fun s p =>
    if Config.maxTokens ≤ (p.gt a).length then fault 3
    else .ok (s.retire p (fun p => p.st a (p.gt a ++ [(p.ga b).setWidth 32])))

def execTget (a b c : LIdx) (s : State) : Host.Outcome State Fault Refusal :=
  livik s fun s p => .ok (s.retire p (fun p => p.sa a (match (p.gt b)[(p.ga c).toNat]? with
    | some x => x.setWidth 64
    | none => BitVec.allOnes 64)))

/-! ## Exchange -/

/-- The payload of a POST: value and string. -/
def Prog.payload (p : Prog) : LReg → Word × List Word32
  | .a i => (p.ga i, [])
  | .c i => (p.gc i, [])
  | .t i => (BitVec.ofNat 64 (p.gt i).length, p.gt i)

def execPost (a b : LIdx) (c : LReg) (i : Word32) (s : State) : Host.Outcome State Fault Refusal :=
  livik s fun s p =>
   onceAt (if bits (p.ga b) 15 0 = 0xFFFF then ownerHost else ownerMail (bits (p.ga b) 15 0)) p s (fun p v => p.sa a v) fun s => do
    let _ ← (match c with
      | .c k => (s.ctxOf (p.gc k)).map (fun _ => ())
      | _ => .ok ())
    let (v, str) := p.payload c
    let dst := bits (p.ga b) 15 0
    if dst = 0xFFFF then
      if s.hostFull p then .ok (s, 1)
      else .ok (s.hostPut p c.cls (i.setWidth 64) v p.retn (str.flatMap (fun w => leBytes 4 w.toNat)), 0)
    else match (if dst = 0xFFFE then none else s.mailbox dst) with
      | none => .ok (s, 2)
      | some q =>
        if 64 ≤ q.mbox.length then .ok (s, 1)
        else .ok (s.mailEnter dst { sender := BitVec.ofNat 16 p.slot, retn := p.retn, tag := i, cls := c.cls, val := v, str := str }, 0)

/-- AWAIT (R271). A and B must differ when A is class a (R270), which decoding sees to. Under a repeated mark it takes no second entry (R47, R272). -/
def execAwait (a : LReg) (b : LIdx) (i : Word32) (s : State) : Host.Outcome State Fault Refusal :=
  livik s fun s p =>
    match p.repeated (ownerMail p.slot), takeClass a.cls p.mbox with
    | some r, _ => .ok (s.retire p (fun p => match r.entry with
        | some e => p.take a b e
        | none => p.sa b r.res))
    | none, some (e, rest) => .ok (s.awaitTake p a b e rest)
    | none, none =>
      let s := s.onProg p.slot (fun p => { p with await := .mbox a b s.clock (1000 * i.toNat) })
      .ok ((s.setPState p.slot .awaiting false).syncBlock p.slot)

/-- INVOKE (R320): the packet goes to the front end, and the program waits. Under a repeated mark it waits for the launch that the front end
remembers, or has its status at once (R47). While the packet's page is not resident the program stays READY and tries again (DESIGN CHOICE, log 44). -/
def execInvoke (a b : LIdx) (s : State) : Host.Outcome State Fault Refusal :=
  livik s fun s p =>
    let va := p.ga b
    let rejected := s.retire p (fun p => p.sa a (statusWord 4 0))
    if va.toNat % 64 ≠ 0 then .ok rejected
    else match s.granted p.nctx va 64 rRD true with
      | .error _ => .ok rejected
      | .ok bs =>
        if anyNr bs then .error .wait
        else
          let ws := wordsOf (vec512 (s.rdBlocks bs))
          let ws := withLevel ((ws[0]?).getD 0) p.level :: ws.drop 1
          let on : AwaitOn := match p.repeated ownerFront with
            | some r => .launch a none (some (r.res.setWidth 16)) r.status
            | none => .launch a (some ws) none none
          let s := s.onProg p.slot (fun p => { p with await := on })
          .ok ((s.setPState p.slot .awaiting false).syncBlock p.slot)

def execStamp (a : LIdx) (s : State) : Host.Outcome State Fault Refusal :=
  livik s fun s p => .ok (s.retire p (fun p => p.sa a (BitVec.ofNat 64 s.clock)))

end Sys2Proof.Machine
end

