-- ==== Sys2Proof/Machine/LivikLong.lean ====
section
/-!
DEFINITION. The long Livik instructions: progress words (R39 to R41), stop sequences (R42), the sampler (R43 to R45), the first
start of APPEND, GENU, SCORE and CHOOSE (R267, R285, R314, R348), the boundary of a step (R50, R54), and retirement (R38, R65).
-/

namespace Sys2Proof.Machine

open Sys2Proof

/-! ## Progress words -/

def progress (kind phase k base cand best : Nat) : Word :=
  at64 kind 61 ||| at64 phase 60 ||| at64 k 44 ||| at64 base 20 ||| at64 cand 12 ||| at64 best 4
def Prog.kind (p : Prog) : Nat := bits p.p0 63 61
def Prog.phase (p : Prog) : Nat := bits p.p0 60 60
def Prog.k (p : Prog) : Nat := bits p.p0 56 44
def Prog.base (p : Prog) : Nat := bits p.p0 40 20
def Prog.cand (p : Prog) : Nat := bits p.p0 19 12
def Prog.best (p : Prog) : Nat := bits p.p0 11 4
/-- The pair with another K. -/
def Prog.setK (p : Prog) (k : Nat) : Prog := { p with p0 := progress p.kind p.phase k p.base p.cand p.best }

/-! ## Stop sequences (R42) -/

/-- Split at a token; a list always has one part more than separators. -/
def splitAt32 (sep : Word32) : List Word32 → List (List Word32)
  | [] => [[]]
  | x :: r =>
    match splitAt32 sep r with
    | [] => [[]]
    | h :: t => if x = sep then [] :: h :: t else (x :: h) :: t

/-- The stop sequences of a set, if it has the form of R42; an empty set has none. -/
def stopSeqs (V : Nat) (l : List Word32) : Option (List (List Word32)) :=
  if l.isEmpty then some []
  else
    let parts := splitAt32 0xFFFFFFFF#32 l
    let seqs := parts.dropLast
    if parts.getLast? = some [] ∧ 1 ≤ seqs.length ∧ seqs.length ≤ 8 ∧
        seqs.all (fun q => decide (1 ≤ q.length) && decide (q.length ≤ 15) && q.all (fun x => decide (x.toNat < V))) then some seqs
    else none

/-- The longest suffix of the output that is a proper prefix of a sequence, at most `m` long. -/
def matchLen (q out : List Word32) : Nat → Nat
  | 0 => 0
  | m + 1 => if m + 1 < q.length ∧ (q.take (m + 1)).isSuffixOf out then m + 1 else matchLen q out m

/-- P1 of a GENU whose output is `out` (R40). -/
def genuP1 (seqs : List (List Word32)) (out : List Word32) (draw : Nat) : Word :=
  (seqs.zipIdx.foldl (fun w q => w ||| at64 (matchLen q.1 out 15) (4 * q.2)) 0) ||| at64 draw 32

/-- Some sequence is completed by the last token. -/
def stopped (seqs : List (List Word32)) (out : List Word32) : Bool := seqs.any (fun q => q.isSuffixOf out)

/-! ## The sampler -/

/-- Read and check a sampler block (R43). -/
def State.sampler (s : State) (p : Prog) (imm : Nat) : Except LStop Sampler :=
  if imm % 32 ≠ 0 ∨ p.imgLen < imm + 32 then fault 6
  else do
    let d ← s.imageRead p imm 32
    let x : Sampler := { seed := w64 d, temp := fieldB d 8 4, topk := fieldB d 12 4, mode := fieldB d 16 1 }
    let tempOk := match fFP32.decode x.temp with
      | .num n m _ => !n && decide (m ≠ 0)
      | _ => false
    if 1 < x.mode ∨ leNat (sliceB d 17 15) ≠ 0 ∨ 4096 < x.topk ∨ (x.mode = 1 ∧ !tempOk) then fault 6 else .ok x

/-- Mix (R44). -/
def mix (seed g q : Word) : Word :=
  let x := seed ^^^ (g * 0x9E3779B97F4A7C15) ^^^ (q * 0xC2B2AE3D27D4EB4F)
  let x := (x ^^^ (x >>> 30)) * 0xBF58476D1CE4E5B9
  let x := (x ^^^ (x >>> 27)) * 0x94D049BB133111EB
  x ^^^ (x >>> 31)

/-- The draw u as FP64 (R44). -/
def draw (seed : Word) (g q : Nat) : Nat :=
  (fFP64.ofFV 0 (.num false (bits (mix seed (BitVec.ofNat 64 g) (BitVec.ofNat 64 q)) 63 11) (-53))).1

/-- The order of logits: NaN below every number, both zeros equal (R45). -/
def logitKey (x : Nat) : Int :=
  match fFP32.decode x with
  | .nan _ => -(2 ^ 33)
  | _ => if x < 2 ^ 31 then (x : Int) else -((x - 2 ^ 31 : Nat) : Int)

/-- Insert an id into a list in decreasing logits, ties lowest id first; equal keys already there stay before. -/
def insertLogit (x : Nat × Nat) : List (Nat × Nat) → List (Nat × Nat)
  | [] => [x]
  | y :: r => if logitKey x.2 ≤ logitKey y.2 then y :: insertLogit x r else x :: y :: r

/-- (id, logit) in the sampler's order. -/
def logitOrder (ls : List Nat) : List (Nat × Nat) := ls.zipIdx.foldl (fun l x => insertLogit (x.2, x.1) l) []

def fp64OfFp32 (x : Nat) : Nat := (fFP32.convert fFP64 0 x).1

/-- The weight of a logit with the largest m (R45). -/
def weight (temp m x : Nat) : Nat :=
  let one := 0x3FF0000000000000
  match fFP32.decode x, fFP32.decode m with
  | .nan _, _ => 0
  | .inf true, _ => 0
  | v, .inf false => if v = .inf false then one else 0
  | _, _ =>
    let d := (fFP64.sub 0 (fp64OfFp32 x) (fp64OfFp32 m)).1
    expRN (fFP64.div 0 d (fp64OfFp32 temp)).1

/-- The first id whose running sum is greater than t, else the last. -/
def pick (t : Nat) : List (Nat × Nat) → Nat → Nat → Nat
  | [], _, last => last
  | (i, w) :: r, acc, _ =>
    let acc := (fFP64.add 0 acc w).1
    if FV.lt (fFP64.decode t) (fFP64.decode acc) then i else pick t r acc i

/-- The token that R45 selects. -/
def sample (x : Sampler) (cid pos : Nat) (logits : List Nat) : Nat :=
  let l := logitOrder logits
  if x.mode = 0 then (l.head?.map Prod.fst).getD 0
  else
    let l := if x.topk = 0 then l else l.take x.topk
    let m := (l.head?.map Prod.snd).getD 0
    let ws := l.map (fun e => (e.1, weight x.temp m e.2))
    let sum := ws.foldl (fun a e => (fFP64.add 0 a e.2).1) 0
    pick (fFP64.mul 0 (draw x.seed cid pos) sum).1 ws 0 0

/-! ## What a program's next steps are -/

/-- Candidates of a CHOOSE (R35). -/
def candidates (sep : BitVec 24) (l : List Word32) : List (List Word32) := splitAt32 (sep.setWidth 32) l

/-- The work is APPEND's, or CHOOSE's append phase (R55). -/
def Prog.appending (p : Prog) : Bool :=
  match p.long with
  | some (.append _ _) => true
  | some (.choose _ _ _ _ _) => decide (p.phase = 1)
  | _ => false

/-- The tokens still to step over. -/
def Prog.rest (p : Prog) : List Word32 :=
  match p.long with
  | some (.append _ b) => (p.gt b).drop p.k
  | some (.score _ _ c) => (p.gt c).drop p.k
  | some (.choose _ _ c _ sep) => (((candidates sep (p.gt c))[if p.phase = 1 then p.best else p.cand]?).getD []).drop p.k
  | _ => []

/-- Opcode of a long instruction. -/
def longOp : Option Instr → Nat
  | some (.append _ _) => 0x20
  | some (.genu _ _ _ _ _) => 0x21
  | some (.score _ _ _) => 0x22
  | _ => 0x23
def longKind (i : Option Instr) : Nat := longOp i - 0x1F

/-! ## Retirement (R38, R65, R59) -/

/-- A stamp entry as a vector (R65). -/
def stampEntry (t : Stamp) (seq pc op : Nat) (miss : Bool) (steps slot : Nat) : Vec :=
  BitVec.ofNat 512 (t.sec % 2 ^ 48 + t.ns * 2 ^ 48 + seq % 2 ^ 64 * 2 ^ 80 + pc % 2 ^ 32 * 2 ^ 144 + op * 2 ^ 176 + (if miss then 2 ^ 184 else 0) +
    min steps 0xFFFFF * 2 ^ 192 + slot * 2 ^ 224)

/-- A long instruction retires: A as the function writes it, P0 and P1 zero, RETN and PC, the stamp, and a notice for a miss. -/
def State.longRetire (s : State) (slot : Nat) (f : Prog → Prog) : State :=
  match s.prog slot with
  | none => s
  | some p =>
    let miss := decide (p.level ≤ 2) && decide (p.since + p.deadline < s.clock)
    let e := stampEntry s.stamp0 s.rseq p.pc (longOp p.long) miss p.steps slot
    let s := s.wrSys (p.sring + 32 * (s.rseq % 256)) (leBytes 32 e.toNat)
    let s := { s with rseq := s.rseq + 1 }
    let s := s.onProg slot (fun p =>
      { f p with p0 := 0, p1 := 0, scratch := 0, long := none, samp := none, resume := false, steps := 0, qy := 0, retn := p.retn + 1, pc := p.pc + 1, since := s.clock })
    let s := if miss then s.notice slot 2 e else s
    ((s.unbusy slot).dropFrames slot).unpark

/-! ## The boundary before a step (R50, R54) -/

/-- A READY program at a token boundary: a kill, CTXLIMIT, a residency fault, or its next step may be placed. -/
def State.boundary (s : State) (slot : Nat) : State :=
  match s.prog slot with
  | none => s
  | some p =>
    if p.doomed then s.agentKill slot p.killCode
    else match p.stepCid with
      | none => s
      | some c =>
        if Config.maxLength ≤ (s.lc c).len then s.agentKill slot 0x0A
        else
          let w := s.missing slot c 1 Config.maxContexts
          if w.isEmpty then s.openWindow slot else (s.parkProg slot w).unpark

/-! ## CHOOSE between steps (R285) -/

/-- OpenCandidate(i): fork for a candidate that is not empty; none when no id is free. The context is the one of B's id, also where another program
has dropped B between candidates: the handle is checked at the first start alone (DESIGN CHOICE, log 44). -/
def State.openCandidate (s : State) (slot : Nat) (b : LIdx) (cands : List (List Word32)) (i : Nat) : Option State :=
  match s.prog slot with
  | none => none
  | some p =>
    if ((cands[i]?).getD []).isEmpty then
      some (s.onProg slot (fun p => { p with scratch := 0, p0 := progress 4 0 0 0 i p.best, p1 := 0 }))
    else
      let c := bits (p.gc b) 17 0
      match s.ctxFork c slot with
      | none => none
      | some (s, h) => some (s.onProg slot (fun p => { p with scratch := h, p0 := progress 4 0 0 (s.lc c).len i p.best, p1 := 0 }))

/-- Go on with a CHOOSE until a step is due, or it retires: each CandidateEnd is one atomic step. Where the fork that it ends with finds no context id,
everything before the fork stands (R285). -/
def State.chooseOn (slot : Nat) (a b : LIdx) (app : Bool) (cands : List (List Word32)) : Nat → State → State
  | 0, s => s
  | fuel + 1, s =>
    match s.prog slot with
    | none => s
    | some p =>
      if p.phase = 1 then
        if p.k < ((cands[p.best]?).getD []).length then s.boundary slot
        else s.longRetire slot (fun p => p.sa a (BitVec.ofNat 64 p.best))
      else if p.k < ((cands[p.cand]?).getD []).length then s.boundary slot
      else
        let better := decide (p.cand = 0) || FV.lt (fFP64.decode (p.ga a).toNat) (fFP64.decode p.p1.toNat)
        let s := if p.scratch = 0 then s else s.ctxDrop (bits p.scratch 17 0)
        let best := if better then p.cand else p.best
        let s := s.onProg slot (fun q => { (if better then q.sa a q.p1 else q) with scratch := 0, p0 := progress 4 0 p.k p.base p.cand best })
        if p.cand + 1 < cands.length then
          let s := s.onProg slot (fun q => { q with p0 := progress 4 0 0 p.base (p.cand + 1) best, p1 := 0 })
          match s.openCandidate slot b cands (p.cand + 1) with
          | none => s.agentKill slot 0x0A
          | some s => State.chooseOn slot a b app cands fuel s
        else if app then
          State.chooseOn slot a b app cands fuel
            (s.onProg slot (fun q => { q with p0 := progress 4 1 0 (s.lc (bits (q.gc b) 17 0)).len p.cand best, p1 := 0 }))
        else s.longRetire slot (fun q => q.sa a (BitVec.ofNat 64 best))

/-! ## Starting -/

/-- The checks of a resumption (R41): the pair agrees with the instruction and with the stepped context. PHASE, CAND and BEST, which are CHOOSE's,
count as reserved fields of another KIND's pair; of the P1 fields that R40 calls zero, APPEND's word and GENU's [63:53] count as reserved, and CHOOSE's
P1 in phase 1 is not looked at (DEDUCED, log 44). -/
def State.progressOk (s : State) (p : Prog) : Bool :=
  decide (p.kind = longKind p.long) && decide (p.p0 &&& 0x0E000E000000000F = 0) &&
  (decide (p.kind = 4) || decide (p.p0 &&& 0x10000000000FFFF0 = 0)) &&
  (match p.kind with
   | 1 => decide (p.p1 = 0)
   | 2 => decide (bits p.p1 63 53 = 0) && decide (bits p.p1 52 32 = p.base + p.k)
   | _ => true) &&
  (match p.stepCid with
   | none => true
   | some c => decide ((s.lc c).len = p.base + p.k))

/-- The progress pair as the saved state block holds it. -/
def State.savedPair (s : State) (p : Prog) : Prog := { p with p0 := s.rd64 (p.sblk + 0x30), p1 := s.rd64 (p.sblk + 0x38) }

/-- A resumption: the pair is read back from the state block, PROGRESS is checked, and GENU reads its sampler block again (R38, R41). -/
def State.resumption (s : State) (slot : Nat) : State :=
  let s := s.onProg slot (fun p => if p.resume && p.long.isSome then s.savedPair p else p)
  match s.prog slot with
  | none => s
  | some p =>
    if !p.resume then s
    else if p.doomed then s.agentKill slot p.killCode
    else if !(s.progressOk p) then s.agentKill slot 0x0C
    else match p.long with
      | some (.genu _ _ _ _ i) =>
        (match s.sampler p i.toNat with
         | .ok x => s.onProg slot (fun p => { p with samp := some x, resume := false })
         | .error (.fault c) => s.agentKill slot c
         | .error (.park w) => s.parkProg slot w
         | .error .wait => s)
      | _ => s.onProg slot (fun p => { p with resume := false })

/-- A long instruction at PC: its first start, or, when P0 shows that it has begun, a resumption after the sequencer's
rebuild (R68); one in progress changes nothing here. -/
def long (i : Instr) (s : State) (f : State → Prog → Except LStop State) : Host.Outcome State Fault Refusal :=
  livik s fun s p =>
    if p.kind = 0 then f (s.onProg p.slot (fun p => { p with long := some i, steps := 0, resume := false })) { p with long := some i }
    else if p.long.isSome then .error .wait
    else
      let s := (s.onProg p.slot (fun p => { p with long := some i, resume := true })).resumption p.slot
      .ok (s.boundary p.slot)

/-- Vocabulary of a context's image. -/
def State.vocab (s : State) (cid : Nat) : Nat := ((s.image (s.lc cid).img).map Image.vocab).getD 0
def valid (V : Nat) (l : List Word32) : Bool := l.all (fun x => decide (x.toNat < V))

/-- Hold a context for a program (R31), or wait for the program that holds it. -/
def State.hold (s : State) (cid slot : Nat) : Except LStop State :=
  match (s.lc cid).busy with
  | some q => if q = slot then .ok s else .error .wait
  | none => .ok (s.onLc cid (fun c => { c with busy := some slot }))

def execAppend (a b : LIdx) (s : State) : Host.Outcome State Fault Refusal :=
  long (.append a b) s fun s p => do
    let c ← s.ctxOf (p.gc a)
    if !(valid (s.vocab c) (p.gt b)) then fault 4 else
    let s ← s.hold c p.slot
    if (p.gt b).isEmpty then .ok (s.longRetire p.slot id)
    else
      let s := s.onProg p.slot (fun p => { p with p0 := progress 1 0 0 (s.lc c).len 0 0, p1 := 0 })
      .ok (s.boundary p.slot)

def execGenu (a b c d : LIdx) (i : Word32) (s : State) : Host.Outcome State Fault Refusal :=
  long (.genu a b c d i) s fun s p => do
    let x ← s.ctxOf (p.gc b)
    let len := (s.lc x).len
    if len = 0 then fault 7 else
    match stopSeqs (s.vocab x) (p.gt c) with
    | none => fault 5
    | some _ => do
      let m ← s.sampler p i.toNat
      let s ← s.hold x p.slot
      let s := s.onProg p.slot (fun p => p.st a [])
      if (p.ga d).toNat = 0 then .ok (s.longRetire p.slot id)
      else
        let s := s.onProg p.slot (fun p => { p with samp := some m, p0 := progress 2 0 0 len 0 0, p1 := genuP1 [] [] len })
        .ok (s.boundary p.slot)

def execScore (a b c : LIdx) (s : State) : Host.Outcome State Fault Refusal :=
  long (.score a b c) s fun s p => do
    let x ← s.ctxOf (p.gc b)
    if (s.lc x).len = 0 then fault 7 else
    if !(valid (s.vocab x) (p.gt c)) then fault 4 else
    if (p.gt c).isEmpty then .ok (s.longRetire p.slot (fun p => p.sa a 0))
    else match s.ctxFork x p.slot with
      | none => fault 0x0A
      | some (s, h) =>
        let s := s.onProg p.slot (fun p => { p with scratch := h, p0 := progress 3 0 0 (s.lc x).len 0 0, p1 := 0 })
        .ok (s.boundary p.slot)

def execChoose (a b c : LIdx) (app : Bool) (sep : BitVec 24) (s : State) : Host.Outcome State Fault Refusal :=
  long (.choose a b c app sep) s fun s p => do
    let x ← s.ctxOf (p.gc b)
    if (s.lc x).len = 0 then fault 7 else
    let cands := candidates sep (p.gt c)
    if 256 < cands.length then fault 8 else
    if !(valid (s.vocab x) ((p.gt c).filter (fun y => decide (y ≠ sep.setWidth 32)))) then fault 4 else
    let s ← (if app then s.hold x p.slot else .ok s)
    let s := s.onProg p.slot (fun p => { (p.sa a 0xFFF0000000000000) with p0 := progress 4 0 0 0 0 0, p1 := 0 })
    match s.openCandidate p.slot b cands 0 with
    | none => .ok (s.agentKill p.slot 0x0A)
    | some s => .ok (State.chooseOn p.slot a b app cands 600 s)

end Sys2Proof.Machine
end

