-- ==== Sys2Proof/Machine/Mangle.lean ====
section
/-!
DEFINITION. The mangle: placing by level (R58, R60), coalescing (R57), the packet and tables of a step launch (R55, R243), and its
return (R36, R244); the ends of the waits of AWAIT and INVOKE (R63, R64).
-/

namespace Sys2Proof.Machine

open Sys2Proof

/-! ## Candidates -/

/-- READY with a long instruction at PC. -/
def Prog.waiting (p : Prog) : Bool := decide (p.state = .ready) && p.long.isSome

/-- Insert by place in the queue. -/
def insertPlace (p : Prog) : List Prog → List Prog
  | [] => [p]
  | q :: r => if p.place < q.place then p :: q :: r else q :: insertPlace p r
/-- The queue of a list of programs: by place. -/
def byPlace (l : List Prog) : List Prog := l.foldr insertPlace []

def State.stepImg (s : State) (p : Prog) : Option Half := p.stepCid.map (fun c => (s.lc c).img)

/-- The waiting programs of a level on an image, in queue order. -/
def State.levelQueue (s : State) (img : Half) (l : Nat) : List Prog :=
  byPlace (s.progs.filter (fun p => p.waiting && decide (p.level = l) && decide (s.stepImg p = some img)))

/-- The queue as placing resumes: from the first member that was not placed; where that one has left the queue, from its head (R60 is silent there:
DESIGN CHOICE, log 44). -/
def rotateTo (slot : Nat) (l : List Prog) : List Prog :=
  match l.dropWhile (fun p => decide (p.slot ≠ slot)) with
  | [] => l
  | r => r ++ l.takeWhile (fun p => decide (p.slot ≠ slot))

/-- A strict program awaits a place (R58): the first, by level and queue. -/
def State.strictFirst (s : State) : Option Prog :=
  [0, 1, 2].findSome? (fun l => (byPlace (s.progs.filter (fun p => p.waiting && decide (p.level = l)))).head?)

/-! ## The work area (R243) -/

def roundUp (n m : Nat) : Nat := (n + m - 1) / m * m
def logBlock (V : Nat) : Nat := roundUp (4 * V) 4096

/-- Bytes that a member's buffers take at most: record, token list, staging lines, and a logit block for a single step. -/
def memberBytes (m : Image) (n : Nat) (logits : Bool) : Nat :=
  64 + roundUp (4 * n) 64 + 64 * m.kvl * n + if logits then 4096 + logBlock m.vocab else 0

/-- Bytes before the member table: the group table, the completion record, the root payload. -/
def areaHead : Nat := 4096 + 128 + 64

/-- The free part of an image's work area, behind the step launches in flight. -/
def State.areaFree (s : State) (m : Image) : Nat × Nat :=
  let mine := s.steps.filter (fun x => decide (x.img = m.id))
  let lo := roundUp (mine.foldl (fun a x => max a x.hi) 0) 4096
  (lo, m.slen - lo)

/-! ## The pass of R60 -/

structure Filling where
  placed : List (Nat × Nat)   -- slot and steps, in order of placing
  toks : Nat
  bytes : Nat
  full : Bool
  deriving DecidableEq, Repr

def Filling.room (f : Filling) : Bool := !f.full && decide (f.placed.length < 4096) && decide (f.toks < 32768)

/-- Place members of one level while room and deficit last: the deficit and the members left over. -/
def placeLevel (m : Image) (avail : Nat) : List Prog → Nat → Filling → Nat × List Prog × Filling
  | [], d, f => (d, [], f)
  | p :: r, d, f =>
    if !f.room then (d, p :: r, f)
    else
      let n := if p.appending then min 256 (min p.rest.length (min d (32768 - f.toks))) else 1
      if n = 0 ∨ d < 1 then (d, p :: r, f)
      else
        let b := memberBytes m n (!p.appending)
        if avail < f.bytes + b then (d, p :: r, { f with full := true })
        else placeLevel m avail r (d - n) { f with placed := f.placed ++ [(p.slot, n)], toks := f.toks + n, bytes := f.bytes + b }

def State.ql (s : State) (l : Nat) : Nat := s.qb * 2 ^ (11 - l)

/-- Visit the levels in cyclic order. -/
def State.visit (s : State) (m : Image) (avail : Nat) : Nat → Nat → Mangle → Filling → Mangle × Filling
  | 0, _, g, f => (g, f)
  | k + 1, l, g, f =>
    let next := if l = 11 then 3 else l + 1
    match s.levelQueue m.id l with
    | [] => s.visit m avail k next { g with defs := Assoc.set g.defs l 0 } f
    | q =>
      let q := match Assoc.get g.place l with
        | some slot => rotateTo slot q
        | none => q
      let d := min (Assoc.getD g.defs l 0 + s.ql l) (2 * s.ql l)
      let (d, left, f) := placeLevel m avail q d f
      let g := { g with defs := Assoc.set g.defs l (if left.isEmpty then 0 else d),
                        place := match left with | [] => Assoc.del g.place l | p :: _ => Assoc.set g.place l p.slot }
      if f.room then s.visit m avail k next g f else ({ g with start := next }, f)

/-! ## Coalescing (R57) -/

/-- Programs placed together, with the steps they run. -/
structure Group where
  slots : List Nat       -- smallest CID first
  n : Nat
  deriving DecidableEq, Repr

def commonRun : List Word32 → List Word32 → Nat
  | x :: r, y :: t => if x = y then commonRun r t + 1 else 0
  | _, _ => 0

/-- Two append members may be computed as one. -/
def State.alike (s : State) (p q : Prog) : Bool :=
  match p.stepCid, q.stepCid with
  | some c, some d =>
    let x := s.lc c
    let y := s.lc d
    p.appending && q.appending && x.detach.isNone && y.detach.isNone && decide (x.len = y.len) && decide (x.tail = y.tail) && decide (x.list = y.list) &&
    decide (x.img = y.img) && decide (1 ≤ commonRun p.rest q.rest)
  | _, _ => false

/-- Add a placed member to its group. -/
def State.joinGroup (s : State) (gs : List Group) (x : Nat × Nat) : List Group :=
  match s.prog x.1 with
  | none => gs
  | some p =>
    let fits := fun (g : Group) => match (g.slots.head?).bind s.prog with
      | some q => s.alike p q
      | none => false
    match gs.find? fits with
    | none => gs ++ [{ slots := [x.1], n := x.2 }]
    | some g =>
      let run := match (g.slots.head?).bind s.prog with
        | some q => commonRun p.rest q.rest
        | none => 0
      let cid := fun (slot : Nat) => ((s.prog slot).bind Prog.stepCid).getD 0
      let slots := if cid x.1 < cid ((g.slots.head?).getD 0) then x.1 :: g.slots else g.slots ++ [x.1]
      gs.map (fun h => if h = g then { slots := slots, n := min g.n (min x.2 run) } else h)

/-! ## Forming a step launch -/

/-- Pages and frames of a group before its steps run: a shared page is detached once, or the programs park (R57, R74, R247). The frames reserved for its
first member, the one of the smallest CID, serve the group, and where it lacks some every member parks (DESIGN CHOICE, log 44, on R57). -/
def State.prepare (s : State) (g : Group) : State × Bool :=
  match g.slots with
  | [] => (s, false)
  | slot :: _ =>
    match (s.prog slot).bind Prog.stepCid with
    | none => (s, false)
    | some c =>
      let cids := g.slots.filterMap (fun x => (s.prog x).bind Prog.stepCid)
      if cids.any (fun d => (s.lc d).detach.isSome) then (s, false)
      else
        let w := s.missing slot c g.n g.slots.length
        if !w.isEmpty then (g.slots.foldl (fun s x => s.parkProg x w) s, false)
        else
          let pos := (writes (s.lc c).len g.n).1
          let s := if (s.need c g.n g.slots.length).detach then
              (match s.takeFrame slot (s.pageUnits (s.lc c).img) with
               | some (s, f) => s.detachWhole cids (pos / 16) ((s.page (((s.lc c).list[pos / 16]?).getD 0)).fill) f
               | none => s)
            else s
          (s, true)

/-- The member of a group, with its buffers from `at_` on: token list, staging, logits. -/
def State.member (s : State) (m : Image) (g : Group) (at_ : Nat) : Option (Member × List Word32 × Nat) :=
  match g.slots with
  | [] => none
  | slot :: kin =>
    match s.prog slot with
    | none => none
    | some p =>
      match p.stepCid with
      | none => none
      | some c =>
        let x := s.lc c
        let (lo, hi) := writes x.len g.n
        let toks := (if 1 ≤ x.len then x.tail :: p.rest else p.rest).take (hi - lo)
        let kva := at_ + roundUp (4 * (hi - lo)) 64
        let stop := kva + 64 * m.kvl * (hi - lo)
        let loga := if p.appending then 0 else roundUp stop 4096
        some ({ slot := slot, cid := c, n := g.n, pos := lo, tokn := hi - lo, toka := at_, kva := kva, loga := loga, kin := kin }, toks,
              if p.appending then stop else loga + logBlock m.vocab)

def Member.record (x : Member) (base : Nat) : List Byte :=
  leBytes 4 x.tokn ++ leBytes 4 x.pos ++ leBytes 8 (base + x.toka) ++ leBytes 8 (base + x.kva) ++
  leBytes 8 (if x.loga = 0 then 0 else base + x.loga) ++ leBytes 4 x.cid ++ List.replicate 28 0

/-- Fill part of the work area with zeros. -/
def State.zeroV (s : State) (ctx : Half) (va n : Nat) : State :=
  match s.granted ctx (BitVec.ofNat 64 va) n rWR false with
  | .ok bs => bs.foldl (fun s b => s.zeroRange b.bus b.len) s
  | .error _ => s

def State.putV (s : State) (ctx : Half) (va : Nat) (d : List Byte) : State := (s.wrV ctx (BitVec.ofNat 64 va) d).getD s

/-- Lay out members one after another. -/
def State.layMembers (s : State) (m : Image) : List Group → Nat → List (Member × List Word32) × Nat
  | [], a => ([], a)
  | g :: r, a =>
    match s.member m g a with
    | none => s.layMembers m r a
    | some (x, toks, e) =>
      let (l, e) := s.layMembers m r e
      ((x, toks) :: l, e)

/-- Form the step launch of groups on an image: tables and buffers in the work area, the packet of R243, members BATCHED. -/
def State.formLaunch (s : State) (m : Image) (gs : List Group) : State :=
  if gs.isEmpty then s
  else
    let (lo, _) := s.areaFree m
    let base := m.sbase.toNat
    let tab := lo + areaHead
    let (ms, hi) := s.layMembers m gs (tab + 64 * gs.length)
    let slots := gs.flatMap Group.slots
    let level := slots.foldl (fun a x => min a (((s.prog x).map Prog.level).getD 11)) 11
    let s := s.zeroV m.ctx (base + lo) (hi - lo)
    let s := s.putV m.ctx (base + lo + 4096 + 128) (leBytes 8 (base + tab) ++ leBytes 4 ms.length ++ leBytes 4 m.id.toNat ++ List.replicate 32 0)
    let s := s.putV m.ctx (base + tab) (ms.flatMap (fun x => x.1.record base))
    let s := ms.foldl (fun s x => s.putV m.ctx (base + x.1.toka) (x.2.flatMap (fun t => leBytes 4 t.toNat))) s
    let w0 := at64 level 4 ||| at64 1 9 ||| at64 4 10 ||| at64 (m.params % 4) 16 ||| at64 (m.params / 4 % 32) 18
    let entry := at64 (bits m.entry 47 0) 0 ||| at64 level 48 ||| at64 (bits m.entry 63 52) 52
    let words := [w0, entry, BitVec.ofNat 64 (base + lo + 4096 + 128), at64 (m.params / 128 % 4096) 0 ||| at64 1 12, BitVec.ofNat 64 (base + lo),
                  m.wtab, BitVec.ofNat 64 (base + lo + 4096), 0]
    let left := (s.progs.filter (fun p => p.waiting && !(slots.contains p.slot))).map Prog.slot
    let s := slots.foldl (fun s x => s.setPState x .batched false) s
    { s with steps := s.steps ++ [{ id := s.nextId, img := m.id, level := level, members := ms.map Prod.fst, words := words, lo := lo, hi := hi, left := left,
                                    taken := false, status := none }], nextId := s.nextId + 1 }

/-! ## Placing -/

/-- A strict program's next step, in a step launch that closes at once (R56, R58). Each strict member has a step launch of its own, which R55 permits
and does not ask for (DESIGN CHOICE, log 44). -/
def execStrictStepPlace (slot : Nat) (s : State) : Host.Outcome State Fault Refusal :=
  match s.strictFirst with
  | none => .next s
  | some p =>
    if p.slot ≠ slot then .next s
    else
      let s := s.resumption slot
      match s.prog slot with
      | none => .next s
      | some p =>
        match (s.stepImg p).bind s.image with
        | none => .next s
        | some m =>
          if !p.waiting ∨ p.resume then .next s.unpark
          else
            let g : Group := { slots := [slot], n := if p.appending then min 256 p.rest.length else 1 }
            if (s.areaFree m).2 < areaHead + memberBytes m g.n (!p.appending) then .next s
            else
              let (s, ok) := s.prepare g
              .next ((if ok then s.formLaunch m [g] else s).unpark)

/-- Steps that were placed and not run go back to the deficit of the level (R57). -/
def State.refund (s : State) (m : Mangle) (placed : List (Nat × Nat)) (gs : List Group) : Mangle :=
  placed.foldl (fun m x =>
    match s.prog x.1 with
    | none => m
    | some p =>
      let ran := ((gs.find? (fun g => g.slots.contains x.1)).map Group.n).getD 0
      if x.2 ≤ ran then m
      else { m with defs := Assoc.set m.defs p.level (min (Assoc.getD m.defs p.level 0 + (x.2 - ran)) (2 * s.ql p.level)) }) m

/-- A batching window closes, early when its members reach a limit of R55 or fill the work area: one pass of R60 places every member (R56, R243). -/
def execBatchingWindowClose (img : Half) (s : State) : Host.Outcome State Fault Refusal :=
  let g := s.mangle img
  let flying := (s.steps.filter (fun x => decide (x.img = img) && decide (3 ≤ x.level))).length
  match s.image img with
  | none => .next s
  | some m =>
    let here := s.progs.filter (fun p => p.waiting && decide (3 ≤ p.level) && decide (s.stepImg p = some img))
    let steps := fun (p : Prog) => if p.appending then min 256 p.rest.length else 1
    let early := decide (4096 ≤ here.length) || decide (32768 ≤ here.foldl (fun a p => a + steps p) 0) ||
      decide ((s.areaFree m).2 - areaHead < here.foldl (fun a p => a + memberBytes m (steps p) (!p.appending)) 0)
    if !g.window ∨ s.strictFirst.isSome ∨ 8 ≤ flying ∨ !(early || decide (g.opened + 1000 * s.window ≤ s.clock)) then .next s
    else
      let s := (here.map Prog.slot).foldl (fun s x => s.resumption x) s
      let avail := (s.areaFree m).2 - areaHead
      let (g, f) := s.visit m avail 9 g.start g { placed := [], toks := 0, bytes := 0, full := false }
      let gs := f.placed.foldl s.joinGroup []
      let (s, ok) := gs.foldl (fun (a : State × List Group) x =>
        let (t, y) := a.1.prepare x
        (t, if y then a.2 ++ [x] else a.2)) (s, [])
      let g := s.refund g f.placed ok
      let s := (s.setMangle { g with window := false }).formLaunch m ok
      .next ((match s.progs.find? (fun (p : Prog) => p.waiting && decide (3 ≤ p.level) && decide (s.stepImg p = some img)) with
        | some p => s.openWindow p.slot
        | none => s).unpark)

/-! ## The return of a step launch (R36, R244) -/

/-- The page that holds the position a step writes: created if the position opens one, and detached where a context forked meanwhile shares it
(R73, R74); none is a residency fault. -/
def State.openPage (s : State) (cids : List Nat) (slot q : Nat) : Option State :=
  match cids with
  | [] => none
  | c :: _ =>
    let x := s.lc c
    let pti := (x.list[q / 16]?).getD 0
    if q / 16 < x.list.length then
      if (s.page pti).refc ≤ cids.length then some s
      else if s.freeEntries = 0 ∨ cids.any (fun d => (s.lc d).detach.isSome) then none
      else (s.takeFrame slot (s.pageUnits x.img)).map (fun t => t.1.detachWhole cids (q / 16) (s.page pti).fill t.2)
    else match s.takeFrame slot (s.pageUnits x.img) with
      | none => none
      | some (s, f) =>
        match s.newPage x.img f cids.length 0 (cids.filter (fun d => (s.lc d).pin)).length s.clock with
        | none => none
        | some (s, i) => some (cids.foldl (fun s d => s.onLc d (fun y => { y with list := y.list ++ [i] })) s)

/-- Write the lines of a step's position under its token mark (R36 step 1). -/
def State.writeLines (s : State) (m : Image) (x : Member) (c q : Nat) : Nat → Nat → State × Bool
  | 0, _ => (s, true)
  | k + 1, l =>
    let pti := ((s.lc c).list[q / 16]?).getD 0
    let d := (s.rdV m.ctx (m.sbase + BitVec.ofNat 64 (x.kva + 64 * (m.kvl * (q - x.pos) + l))) 64 rRD).getD (List.replicate 64 0)
    let (s, r) := s.markWrite (tokenMark c q (s.page pti).mgen) l d (s.lc c).tail
    if r = .stale then (s, false) else s.writeLines m x c q k (l + 1)

/-- Logits at LOGA (R35, R45). -/
def State.logits (s : State) (m : Image) (loga : Nat) : List Nat :=
  ((idsOf m.vocab ((s.rdV m.ctx (m.sbase + BitVec.ofNat 64 loga) (4 * m.vocab) rRD).getD [])).map BitVec.toNat)

/-- The context takes a token: its tail, its length, and the last use of its pages. -/
def State.extend (s : State) (c : Nat) (tok : Word32) : State :=
  let s := s.onLc c (fun x => { x with tail := tok, len := x.len + 1 })
  { s with pages := s.pages.map (fun e => if (s.lc c).list.contains e.1 then (e.1, { e.2 with lastUse := s.clock }) else e) }

/-- A program commits its step: the output slot, the progress pair, then the context (R34, R36, R42). -/
def State.commitProg (s : State) (m : Image) (loga : Nat) (slot : Nat) : State :=
  match s.prog slot with
  | none => s
  | some p =>
    match p.stepCid with
    | none => s
    | some c =>
      let x := s.lc c
      let first := decide ((s.progs.filter (fun q => decide (q.level = p.level) && (decide (q.state = .ready) || decide (q.state = .batched)))).all
        (fun q => decide (p.place ≤ q.place)))
      let s := s.onProg slot (fun p => { p with steps := p.steps + 1, qy := if first then p.qy + 1 else p.qy })
      match p.long with
      | some (.genu a _ cs _ _) =>
        let seqs := (stopSeqs m.vocab (p.gt cs)).getD []
        let smp := p.samp.getD { seed := 0, temp := 0, topk := 0, mode := 0 }
        let t : Word32 := BitVec.ofNat 32 (sample smp c x.len (s.logits m loga))
        let out := p.gt a ++ [t]
        let s := s.onProg slot (fun p => { (p.st a out).setK (p.k + 1) with p1 := genuP1 seqs out (x.len + 1) })
        s.extend c t
      | _ =>
        let t := (p.rest.head?).getD 0
        let s := if p.appending then s.onProg slot (fun p => p.setK (p.k + 1))
          else
            let lp := fp64OfFp32 (logProb (s.logits m loga) t.toNat)
            s.onProg slot (fun p => { p.setK (p.k + 1) with p1 := BitVec.ofNat 64 (fFP64.add 0 p.p1.toNat lp).1 })
        s.extend c t

/-- Commit the steps of a member one at a time; false when a residency fault stops it. -/
def State.commitSteps (m : Image) (x : Member) : Nat → State → State × Bool
  | 0, s => (s, true)
  | n + 1, s =>
    let slots := x.slot :: x.kin
    let cids := slots.filterMap (fun y => (s.prog y).bind Prog.stepCid)
    let len := (s.lc x.cid).len
    if Config.maxLength ≤ len then (s, true)
    else
      let w := if len = 0 then some s
        else match s.openPage cids x.slot (len - 1) with
          | none => none
          | some s => match s.writeLines m x x.cid (len - 1) m.kvl 0 with
            | (s, true) => some s
            | (_, false) => none
      match w with
      | none => (s, false)
      | some s => State.commitSteps m x n (slots.foldl (fun s y => s.commitProg m x.loga y) s)

/-- The long instruction yields when its quantum is spent and another program of its level was left out (R61). -/
def State.yieldTo (s : State) (slot : Nat) (left : List Nat) : State :=
  match s.prog slot with
  | none => s
  | some p =>
    let qy := if p.level ≤ 2 then 256 else s.ql p.level
    let other := left.any (fun x => decide (x ≠ slot) && ((s.prog x).map (fun q => decide (q.level = p.level))).getD false)
    if p.waiting ∧ qy ≤ p.qy ∧ other then s.setPState slot .ready true else s

/-- A residency fault of a member (R49): it parks for what its next step lacks. -/
def State.stepFault (s : State) (p : Prog) : State :=
  (s.parkProg p.slot (match p.stepCid with
    | some c => s.missing p.slot c 1 1
    | none => [])).unpark

/-- After its steps: a kill, retirement, a residency fault, a yield, or READY for the next step (R49, R50). -/
def State.afterSteps (s : State) (left : List Nat) (ok : Bool) (slot : Nat) : State :=
  match s.prog slot with
  | none => s
  | some p =>
    let s := s.setPState slot .ready false
    if p.doomed then s.agentKill slot p.killCode
    else match p.long with
      | some (.choose a b c app sep) =>
        if !ok then s.stepFault p
        else (State.chooseOn slot a b app (candidates sep (p.gt c)) 600 s).yieldTo slot left
      | some (.score a _ _) =>
        if p.rest.isEmpty then (s.ctxDrop (bits p.scratch 17 0)).longRetire slot (fun q => q.sa a q.p1)
        else if !ok then s.stepFault p
        else (s.boundary slot).yieldTo slot left
      | some (.genu a _ c d _) =>
        if stopped ((stopSeqs (2 ^ 32) (p.gt c)).getD []) (p.gt a) || decide (min (p.ga d).toNat 4096 ≤ p.k) then s.longRetire slot id
        else if !ok then s.stepFault p
        else (s.boundary slot).yieldTo slot left
      | _ =>
        if p.rest.isEmpty then s.longRetire slot id
        else if !ok then s.stepFault p
        else (s.boundary slot).yieldTo slot left

/-- The sequencer acts on a step launch whose status it has read (R244). A lost one is run again (R48): that is no resumption of R38, and a GENU goes
on with the sampler block that it has read (DESIGN CHOICE, log 44). -/
def execStepLaunchComplete (id : Nat) (s : State) : Host.Outcome State Fault Refusal :=
  match s.steps.find? (fun x => decide (x.id = id)) with
  | none => .next s
  | some l =>
    match l.status, s.image l.img with
    | some w, some m =>
      let s := { s.pass with steps := s.steps.filter (fun x => decide (x.id ≠ id)) }
      if bits w 15 0 ≠ 0 then
        .next (l.members.foldl (fun s x => (x.slot :: x.kin).foldl (fun s y => (s.setPState y .ready false).boundary y) s) s).unpark
      else
        .next (l.members.foldl (fun s x =>
          let (s, ok) := State.commitSteps m x x.n s
          (x.slot :: x.kin).foldl (fun s y => s.afterSteps l.left ok y) s) s).unpark
    | _, _ => .next s

/-! ## Token marks, AWAIT and INVOKE -/

def execTokenMarkWrite (mark : Word) (line : Nat) (data : List Byte) (token : Word32) (s : State) : Host.Outcome State Fault Refusal :=
  .next (s.markWrite mark line data token).1

/-- An AWAIT whose time has passed retires, unless its entry is there (R63, R271). -/
def execAwaitTimeout (slot : Nat) (s : State) : Host.Outcome State Fault Refusal :=
  match s.prog slot with
  | none => .next s
  | some p =>
    match p.await with
    | .mbox a b t0 n =>
      if p.state ≠ .awaiting ∨ n = 0 ∨ s.clock < t0 + n then .next s
      else match takeClass a.cls p.mbox with
        | some (m, rest) => .next ((s.awaitTake p a b m rest).setPState slot .ready true)
        | none =>
          let s := s.retire p (fun p => { (p.sa b (BitVec.allOnes 64)).remember (ownerMail p.slot) p.mark (BitVec.allOnes 64) with await := .none })
          .next (s.setPState slot .ready true)
    | _ => .next s

/-- An INVOKE whose launch has completed retires with the status word (R64, R320). -/
def execInvokeComplete (slot : Nat) (s : State) : Host.Outcome State Fault Refusal :=
  match s.prog slot with
  | none => .next s
  | some p =>
    match p.await with
    | .launch a none _ (some w) =>
      if p.state ≠ .awaiting then .next s
      else
        let s := s.retire p (fun p => { p.sa a w with await := .none })
        .next (s.setPState slot .ready true)
    | _ => .next s

end Sys2Proof.Machine
end

