-- ==== Sys2Proof/Machine/Planner.lean ====
section
/-!
DEFINITION. The residency planner: lookahead windows (R51), the plan (R52), reservations, folds, shelves, unfolds and detaches (R52, R53, R74,
R77), the end of each move, and the rebuilding of the sequencer (R68, R75).
-/

namespace Sys2Proof.Machine

open Sys2Proof

/-! ## What windows name -/

/-- The window ends after this instruction (R51). -/
def endsWindow : Instr → Bool
  | .goto _ => true
  | .gosub _ => true
  | .goret => true
  | .endp => true
  | _ => false

/-- The lookahead window of `n` words from `pc` on: each instruction with its place. A word that does not decode, or whose page is not there now,
stands in it without an instruction (R51). -/
def State.windowFrom (s : State) (p : Prog) : Nat → Nat → List (Nat × Instr)
  | 0, _ => []
  | n + 1, pc =>
    if p.codeLen ≤ pc then []
    else match s.imageRead p (8 * pc) 8 with
      | .error _ => s.windowFrom p n (pc + 1)
      | .ok d => match decodeLivik (w64 d) with
        | .error _ => s.windowFrom p n (pc + 1)
        | .ok i => (pc, i) :: if endsWindow i then [] else s.windowFrom p n (pc + 1)

/-- The context that a long instruction names; a register that holds no live handle names none. -/
def State.namedCtx (s : State) (p : Prog) : Instr → Option Nat
  | .append a _ => s.named (p.gc a)
  | .genu _ b _ _ _ => s.named (p.gc b)
  | .score _ b _ => s.named (p.gc b)
  | .choose _ b _ _ _ => s.named (p.gc b)
  | _ => none

/-- The context that any instruction names (R53). -/
def State.anyCtx (s : State) (p : Prog) : Instr → Option Nat
  | .ctxfork _ b => s.named (p.gc b)
  | .ctxdrop a => s.named (p.gc a)
  | .ctxtrim a _ => s.named (p.gc a)
  | .ctxlen _ b => s.named (p.gc b)
  | .ctxpinHold a => s.named (p.gc a)
  | .ctxpinRelease a => s.named (p.gc a)
  | .post _ _ (.c k) _ => s.named (p.gc k)
  | i => s.namedCtx p i

/-- The programs that have a window. -/
def State.lookers (s : State) : List Prog :=
  s.progs.filter (fun p => decide (p.state = .ready) || decide (p.state = .batched) || decide (p.state = .parked))

/-- A page that a step, an instruction of a window, a parked program or a CTXPIN hold names (R53). -/
def State.wantedPage (s : State) (pti : Nat) : Bool :=
  (s.lookers.flatMap (fun p => p.stepCid.toList ++ (s.windowFrom p 8 p.pc).filterMap (fun e => s.anyCtx p e.2))).any (fun c => (s.lc c).list.contains pti) ||
  decide (1 ≤ s.pins pti) ||
  s.progs.any (fun p => decide (p.state = .parked) && p.park.any (fun w => match w with | .pages l => l.contains pti | _ => false))

/-! ## The plan (R52) -/

/-- A context of a long instruction in a window, or of the one in progress: its program, its distance from PC, the context, and the tokens that are
still to be appended. -/
structure PlanItem where
  slot : Nat
  level : Nat
  dist : Nat
  cid : Nat
  toks : Nat
  deriving DecidableEq, Repr

/-- A program's items. Of a long instruction in progress they are the context its steps run on and, where another one, the context it names:
SCORE and CHOOSE step a fork of B (R35, R285). -/
def State.itemsOf (s : State) (p : Prog) : List PlanItem :=
  let toks := fun (i : Instr) => match i with
    | .append _ b => (p.gt b).length
    | _ => 0
  let now := p.stepCid.toList ++ (((p.long.bind (s.namedCtx p)).toList).filter (fun c => decide (p.stepCid ≠ some c)))
  (now.map (fun c => { slot := p.slot, level := p.level, dist := 0, cid := c, toks := if p.appending then p.rest.length else 0 })) ++
  (s.windowFrom p 8 p.pc).filterMap (fun e => if p.long.isSome && decide (e.1 = p.pc) then none
    else (s.namedCtx p e.2).map (fun c => { slot := p.slot, level := p.level, dist := e.1 - p.pc, cid := c, toks := toks e.2 }))

/-- Nearest to PC first, and at one distance programs in increasing level (R52; which of the two goes first is a DESIGN CHOICE, log 44). -/
def State.planItems (s : State) : List PlanItem :=
  let xs := s.lookers.flatMap s.itemsOf
  (List.range 8).flatMap (fun d => (List.range 12).flatMap (fun l => xs.filter (fun x => decide (x.dist = d) && decide (x.level = l))))

/-- Frames for the pages that an item's next positions open: position L, and of an APPEND of n tokens L to L + n - 1, after the tail's position
L - 1 (R52). -/
def State.itemFrames (s : State) (x : PlanItem) : Nat := (s.need x.cid (max x.toks 1 + 1) 1).frames

/-- Pages and frames that the program's nearer items beyond PC take of its 64. -/
def State.taken (s : State) (xs : List PlanItem) (x : PlanItem) : Nat :=
  (xs.filter (fun y => decide (y.slot = x.slot) && decide (0 < y.dist) && decide (y.dist < x.dist))).foldl
    (fun a y => a + (s.lc y.cid).list.length + s.itemFrames y) 0

/-- What the plan takes for an item: pages, and a number of frames; beyond PC at most 64 a program (R52). -/
def State.itemPlan (s : State) (xs : List PlanItem) (x : PlanItem) : List Nat × Nat :=
  let ps := (s.lc x.cid).list
  if x.dist = 0 then (ps, s.itemFrames x)
  else
    let room := 64 - s.taken xs x
    (ps.take room, min (s.itemFrames x) (room - ps.length))

/-- The pages that the planner brings in, in its order; then those that parked programs wait for, and those under a hold. -/
def State.planPages (s : State) : List Nat :=
  let xs := s.planItems
  xs.flatMap (fun x => (s.itemPlan xs x).1) ++
  s.progs.flatMap (fun p => if p.state = .parked then p.park.flatMap (fun w => match w with | .pages l => l | _ => []) else []) ++
  ((s.pages.filter (fun e => decide (1 ≤ s.pins e.1))).map Prod.fst)

/-- A page that can be brought in: folded, or shelved and not lost (R77). -/
def State.away (s : State) (pti : Nat) : Bool :=
  (s.page pti).used && (decide ((s.page pti).res = 1) || decide ((s.page pti).res = 2) && !(s.lostPage pti))

/-- The page that the planner brings in next. -/
def State.nextPage (s : State) : Option Nat := s.planPages.find? s.away

/-- What the parked programs of a level wait for: their instruction is at PC. -/
def State.parkedWants (s : State) (l : Nat) : List (Nat × Nat × Nat) :=
  (s.progs.filter (fun p => decide (p.state = .parked) && decide (p.level = l))).flatMap (fun p => p.park.filterMap (fun w => match w with
    | .frames c n => some (p.slot, s.pageUnits (s.lc c).img, n)
    | _ => none))

/-- Frames a program wants, as (slot, page size in 64 KiB units, number), in the order of the plan: by distance from PC, then by level (R52). -/
def State.frameWants (s : State) : List (Nat × Nat × Nat) :=
  let xs := s.planItems
  let want := fun (x : PlanItem) =>
    let units := s.pageUnits (s.lc x.cid).img
    let upto := xs.filter (fun y => decide (y.slot = x.slot) && decide (y.dist ≤ x.dist) && decide (s.pageUnits (s.lc y.cid).img = units))
    if (s.itemPlan xs x).2 = 0 then none else some (x.slot, units, upto.foldl (fun a y => a + (s.itemPlan xs y).2) 0)
  (List.range 8).flatMap (fun d => (List.range 12).flatMap (fun l =>
    (if d = 0 then s.parkedWants l else []) ++ (xs.filter (fun x => decide (x.dist = d) && decide (x.level = l))).filterMap want))

/-- Frames wanted and not reserved yet: the program and the size. -/
def State.openWants (s : State) : List (Nat × Nat) :=
  (s.frameWants.filter (fun w => decide ((s.framesOf w.1 w.2.1).length < w.2.2))).map (fun w => (w.1, w.2.1))

/-- The program that the planner reserves a frame for next, and the frame's size. -/
def State.nextFrame (s : State) : Option (Nat × Nat) := s.openWants.head?

/-- A page that may be folded (R53, R77). -/
def State.foldable (s : State) (pti : Nat) : Bool :=
  let e := s.page pti
  e.used && decide (e.res = 0) && decide (e.infl = 0) && decide (e.hold = 0) && !(s.wantedPage pti)
def State.shelvable (s : State) (pti : Nat) : Bool :=
  let e := s.page pti
  e.used && decide (e.res = 1) && decide (e.infl = 0) && decide (e.hold = 0) && !(s.wantedPage pti)

/-- No page of the kind was used earlier. -/
def State.oldest (s : State) (kind : Nat → Bool) (pti : Nat) : Bool :=
  s.pages.all (fun e => !(kind e.1) || decide ((s.page pti).lastUse ≤ e.2.lastUse))

/-- A run of free units within one channel. -/
def State.freeRun (s : State) (frame units : Nat) : Bool :=
  (List.range units).all (fun i => s.freeFrames.contains (frame + i)) &&
  decide (frame * 65536 / Config.channelBytes = (frame + units - 1) * 65536 / Config.channelBytes)
def State.takeRun (s : State) (frame units : Nat) : State :=
  { s with freeFrames := s.freeFrames.filter (fun x => decide (x < frame ∨ frame + units ≤ x)) }

/-- A frame of a size is free. -/
def State.frameFree (s : State) (units : Nat) : Bool := s.freeFrames.any (fun f => s.freeRun f units)

/-- A size that a reservation or a returning page needs has no free frame. -/
def State.sizeShort (s : State) : Bool :=
  (s.openWants.map Prod.snd ++ (s.nextPage.toList.map (fun i => s.pageUnits (s.page i).img))).any (fun n => !(s.frameFree n))

/-- No frame is free: of a size that is needed, or at all (R53). -/
def State.framesShort (s : State) : Bool := s.freeFrames.isEmpty || s.sizeShort

/-! ## Host storage -/

/-- Address of a 64 KiB slot: the slots of the host regions, one region after another. -/
def hostSlotAddr : List (Nat × Nat) → Nat → Option Nat
  | [], _ => none
  | (base, len) :: r, n => if n < len / 65536 then some (base + 65536 * n) else hostSlotAddr r (n - len / 65536)

/-- Copy a page between a frame and host memory. -/
def State.toHost (s : State) (frame slot units : Nat) : State :=
  (List.range units).foldl (fun s i => match hostSlotAddr s.hostRegions (slot + i) with
    | some a => s.hostWr a (s.rd ((frame + i) * 65536) 65536)
    | none => s) s
def State.hostBytes (s : State) (slot units : Nat) : List Byte :=
  (List.range units).flatMap (fun i => match hostSlotAddr s.hostRegions (slot + i) with
    | some a => s.hostRd a 65536
    | none => List.replicate 65536 0)

/-- Host slots for a page from `slot` on are free. -/
def State.hostFree (s : State) (slot units : Nat) : Bool :=
  (List.range units).all (fun i => !(s.usedHost.contains (slot + i))) && decide (slot + units ≤ s.hostSlots)

/-- Host storage is full for a page of a size (R53). -/
def State.slotsFull (s : State) (units : Nat) : Bool := (List.range s.hostSlots).all (fun h => !(s.hostFree h units))

/-- The size of the page that is to be folded next; where none can be folded, one host slot. -/
def State.foldUnits (s : State) : Nat :=
  ((s.pages.find? (fun e => s.foldable e.1 && s.oldest s.foldable e.1)).map (fun e => s.pageUnits e.2.img)).getD 1

/-! ## The planner's moves -/

def execResidencyPlan (op : PlanOp) (s : State) : Host.Outcome State Fault Refusal :=
  match op with
  | .reserve slot frame =>
    match s.nextFrame with
    | none => .next s
    | some (n, units) =>
      if n = slot ∧ s.freeRun frame units then
        .next ({ s.takeRun frame units with reserved := s.reserved ++ [(slot, frame, units)] } : State).unpark
      else .next s
  | .fold pti hslot =>
    let e := s.page pti
    let units := s.pageUnits e.img
    if s.framesShort ∧ s.foldable pti ∧ s.oldest s.foldable pti ∧ s.hostFree hslot units then
      .next ({ s with usedHost := s.usedHost ++ (List.range units).map (fun i => hslot + i) }.setPage pti { e with res := 3, move := 0, target := hslot })
    else .next s
  | .shelve pti block =>
    let e := s.page pti
    if s.slotsFull s.foldUnits ∧ s.shelvable pti ∧ s.oldest s.shelvable pti ∧ !(s.usedBlocks.contains block) ∧ block < 2 ^ 40 then
      .next ({ s with usedBlocks := s.usedBlocks ++ [block] }.setPage pti { e with res := 3, move := 1, target := block })
    else .next s
  | .unfold pti frame =>
    let e := s.page pti
    let units := s.pageUnits e.img
    if s.nextPage = some pti ∧ s.freeRun frame units then
      .next ((s.takeRun frame units).setPage pti { e with res := 3, move := e.res + 1, target := frame, retried := false })
    else .next s
  | .detach cid =>
    match s.progs.find? (fun p => (decide (p.state = .ready) || decide (p.state = .parked)) && decide (p.stepCid = some cid)) with
    | none => .next s
    | some p =>
      let n := if p.appending then min 256 p.rest.length else 1
      if !(s.need cid n 1).detach ∨ s.missing p.slot cid n 1 ≠ [] then .next s
      else match s.takeFrame p.slot (s.pageUnits (s.lc cid).img) with
        | none => .next s
        | some (s, f) =>
          let pos := (writes (s.lc cid).len 1).1
          .next (s.detachBegin cid (pos / 16) (s.page (((s.lc cid).list[pos / 16]?).getD 0)).fill f)

def execPageFoldComplete (pti : Nat) (s : State) : Host.Outcome State Fault Refusal :=
  let e := s.page pti
  if e.res ≠ 3 ∨ e.move ≠ 0 then .next s
  else
    let units := s.pageUnits e.img
    let s := (s.toHost e.loc e.target units).setPage pti { e with res := 1, loc := e.target }
    .next ((s.handFrame e.loc units).release pti).unpark

def execPageShelveComplete (pti : Nat) (s : State) : Host.Outcome State Fault Refusal :=
  let e := s.page pti
  if e.res ≠ 3 ∨ e.move ≠ 1 then .next s
  else
    let units := s.pageUnits e.img
    let s := { s with shelf := Assoc.set s.shelf e.target (s.hostBytes e.loc units),
                      usedHost := s.usedHost.filter (fun x => decide (x < e.loc ∨ e.loc + units ≤ x)) }
    .next ((s.setPage pti { e with res := 2, loc := e.target }).release pti).unpark

def execPageUnfoldComplete (pti : Nat) (s : State) : Host.Outcome State Fault Refusal :=
  let e := s.page pti
  if e.res ≠ 3 ∨ e.move < 2 then .next s
  else
    let units := s.pageUnits e.img
    let d := if e.move = 2 then s.hostBytes e.loc units else Assoc.getD s.shelf e.loc []
    let s := if e.move = 2 then { s with usedHost := s.usedHost.filter (fun x => decide (x < e.loc ∨ e.loc + units ≤ x)) }
      else { s with usedBlocks := s.usedBlocks.erase e.loc, shelf := Assoc.del s.shelf e.loc }
    .next (((s.wrPhys (e.target * 65536) d).setPage pti { e with res := 0, loc := e.target }).release pti).unpark

/-- A program that has lost state is killed with LOST at its next boundary: at once, but for one that is BATCHED (R48, R49). -/
def State.killLost (s : State) (slot : Nat) : State :=
  match s.prog slot with
  | none => s
  | some p => if p.state = .batched then s.onProg slot (fun p => { p with lost := true }) else s.agentKill slot 0x0E

/-- An NVMe read fails: one retry, then the page is lost, and every program that names it is killed with LOST (R77). -/
def execNvmeReadFail (pti : Nat) (s : State) : Host.Outcome State Fault Refusal :=
  let e := s.page pti
  if e.res ≠ 3 ∨ e.move ≠ 3 then .next s
  else if !e.retried then .next (s.setPage pti { e with retried := true })
  else
    let names := fun (p : Prog) => decide (p.state ≠ .done) && decide (p.state ≠ .killed) &&
      ((p.stepCid.toList ++ (s.windowFrom p 1 p.pc).filterMap (fun e => s.anyCtx p e.2)).any (fun c => (s.lc c).list.contains pti) ||
       p.park.any (fun w => match w with | .pages l => l.contains pti | _ => false))
    let dead := (s.progs.filter names).map Prog.slot
    let s := (({ s with shelf := Assoc.del s.shelf e.loc } : State).setPage pti { e with res := 2 }).handFrame e.target (s.pageUnits e.img)
    let s := { s with reports := .lostPage pti :: s.reports }
    .next ((dead.foldl State.killLost s).release pti).unpark

def execDetachCopyComplete (cid : Nat) (s : State) : Host.Outcome State Fault Refusal :=
  match (s.lc cid).detach with
  | none => .next s
  | some d => .next (s.detachEnd [cid] d).unpark

def execPageRelease (pti : Nat) (s : State) : Host.Outcome State Fault Refusal := .next (s.release pti).unpark

/-- A context reset or a seam fault: queues are rebuilt in the order of the last state changes, BATCHED programs are READY,
deficits and windows are cleared, set detach records are completed (R68, R75), and the state blocks are up to date (R25). The start level and the places
of an image's batches and the steps counted for QY begin again too (DESIGN CHOICE, log 44, on R68). -/
def State.rebuild (s : State) : State :=
  let again := fun (x : Prog × Nat) =>
    let st := if x.1.state = .batched then PState.ready else x.1.state
    { x.1 with state := st, place := s.nextId + x.2, qy := 0, resume := x.1.resume || x.1.long.isSome }
  let gone := fun (x : StepLaunch) => { x with members := [], left := [] }
  let s := { s with progs := s.progs.zipIdx.map again, nextId := s.nextId + s.progs.length, mangles := [], steps := s.steps.map gone }
  let open_ := (s.lctx.filter (fun c => c.2.detach.isSome)).map Prod.fst
  let s := open_.foldl (fun s c => match (s.lc c).detach with
    | some d => s.detachEnd [c] d
    | none => s) s
  let s := (s.progs.filter (fun p => decide (p.state ≠ .done) && decide (p.state ≠ .killed))).foldl (fun s p => s.syncBlock p.slot) s
  s.progs.foldl (fun s p => if p.waiting then s.openWindow p.slot else s) s

def execSequencerRebuild (s : State) : Host.Outcome State Fault Refusal := .next s.rebuild.unpark

end Sys2Proof.Machine
end

