-- ==== Sys2Proof/Machine/Host.lean ====
section
/-!
DEFINITION. The host: BAR0 and BAR2 (R197, R198), doorbells, submissions (R199), mailboxes (R200, R201), service requests (R202,
R203), and the writes of registers that have no row of their own (R7).
-/

namespace Sys2Proof.Machine

open Sys2Proof

def allZero (d : List Byte) : Bool := d.all (fun b => decide (b = 0))
def State.bell (s : State) : State := { s with hostseq := s.hostseq + 1 }
def physOk (a n : Nat) : Bool := decide (a + n ≤ 2 ^ 40)

/-! ## Doorbells -/

/-- QDOOR: the value is TAIL of the bound descriptor; an unbound queue, or a short write, is discarded (R203, R197). -/
def execQdoor (q : Nat) (data : List Byte) (s : State) : Host.Outcome State Fault Refusal :=
  match Assoc.get s.qbind q with
  | none => .next s
  | some b => if data.length < 8 then .next s else .next (s.bell.wr64 (b.qdesc + 0x18) (w64 (data.take 8)))

/-- The state that two programs may not share (R199): block, stamp ring, host mailbox. -/
def stateRanges (sblk sring hmbx : Nat) : List (Nat × Nat) := [(sblk, 0x41000), (sring, 0x2000), (hmbx, 0x101000)]
def overlap (a b : Nat × Nat) : Bool := decide (a.1 < b.1 + b.2) && decide (b.1 < a.1 + a.2)

/-- A place of `n` bytes that the sequencer can write: stack memory, or host memory granted to it (R198). -/
def State.sysOk (s : State) (a n : Nat) : Bool := physOk a n || s.inHost a n

/-- A submission's status, 2, 3, 4 and 1 in this order, or 0 (R199). The image is checked at PIMG itself too, also where it has no bytes. -/
def State.submitStatus (s : State) (pa : Nat) (d : List Byte) : Nat :=
  let f := fun o => fieldB d o 8
  let len := f 0x08 % 2 ^ 32
  let lv := f 0x08 / 2 ^ 32
  let ilen := f 0x48
  let ok := decide (pa % 64 = 0) && decide (f 0 < 2 ^ 48) && decide (f 0 % 65536 = 0) && decide (lv ≤ 11) &&
    (if lv ≤ 2 then decide (1000 ≤ f 0x10) && decide (f 0x10 ≤ 10 ^ 9) else decide (f 0x10 = 0)) &&
    decide (f 0x18 % 4096 = 0) && decide (f 0x20 % 8192 = 0) && decide (f 0x28 % 4096 = 0) && decide (f 0x30 % 8 = 0) &&
    physOk (f 0x18) 0x41000 && s.sysOk (f 0x20) 0x2000 && physOk (f 0x28) 0x101000 && physOk (f 0x30) 128 &&
    decide (f 0x38 < 65536) && decide (ilen < 2 ^ 32) && decide (ilen % 8 = 0) && decide (8 * len ≤ ilen) && allZero (sliceB d 0x50 0x30)
  let ctx : Half := BitVec.ofNat 16 (f 0x38)
  let mapped := match s.granted ctx (BitVec.ofNat 64 (f 0)) (max 1 ilen) rRD false with
    | .ok _ => true
    | .error _ => false
  let mine := stateRanges (f 0x18) (f 0x20) (f 0x28)
  let clash := s.progs.any (fun p => (stateRanges p.sblk p.sring p.hmbx).any (fun x => mine.any (overlap x)))
  if !ok then 2
  else if !((s.ctx ctx).map NCtx.hostGranted).getD false || !mapped then 3
  else if clash then 4
  else if 65534 ≤ s.progs.length then 1 else 0

/-- Admit a program (R24, R49, R199): READY, its block written with the reset values, at the tail of its level's queue. -/
def State.enlist (s : State) (slot : Nat) (d : List Byte) : State :=
  let f := fun o => fieldB d o 8
  let regs := if f 0x30 = 0 then List.replicate 16 (0 : Word) else (List.range 16).map (fun i => s.rd64 (f 0x30 + 8 * i))
  let p : Prog := {
    slot := slot, pimg := BitVec.ofNat 64 (f 0), pc := 0, state := .ready, level := f 0x08 / 2 ^ 32, fault := 0, retstk := [], kreq := false,
    retn := 0, scratch := 0, p0 := 0, p1 := 0, a := regs, c := List.replicate 16 0, t := List.replicate 16 [],
    codeLen := f 0x08 % 2 ^ 32, imgLen := f 0x48, deadline := f 0x10, sblk := f 0x18, sring := f 0x20, hmbx := f 0x28,
    nctx := BitVec.ofNat 16 (f 0x38), mbox := [], hseq := 0, notices := [], await := .none, park := [], since := s.clock, long := none,
    samp := none, resume := false, steps := 0, place := 0, qy := 0, marks := [] }
  (({ s with progs := s.progs ++ [p] } : State).setPState slot .ready true).clearBlock slot

/-- LSUB (R199). `hint` is where the sequencer looks for a free slot first. -/
def execLsub (data : List Byte) (hint : Nat) (s : State) : Host.Outcome State Fault Refusal :=
  if data.length < 64 ∨ !(allZero (sliceB data 8 56)) then .next s
  else
    let s := s.bell
    let pa := fieldB data 0 8
    let d := s.rd pa 128
    let st := s.submitStatus pa d
    match (if st = 0 then firstFree 0xFFFE (fun i => (s.prog i).isSome) 0xFFFE hint else none) with
    | none => .next (s.wr64 (pa + 0x40) (at64 (if st = 0 then 1 else st) 16 ||| at64 1 63))
    | some slot => .next ((s.enlist slot d).wr64 (pa + 0x40) (at64 slot 0 ||| at64 1 63))

/-- MBOX (R201). A malformed post is refused before anything else is looked at. -/
def execMbox (slot : Nat) (data : List Byte) (s : State) : Host.Outcome State Fault Refusal :=
  if data.length < 64 then .next s
  else
    let s := s.bell
    let paddr := fieldB data 0 8
    let value := fieldB data 8 8
    let cls := fieldB data 20 1
    let st := fieldB data 24 8
    let bad := !(decide (cls = 0) || decide (cls = 2)) || !(allZero (sliceB data 21 3)) || !(allZero (sliceB data 32 32)) ||
      decide (cls = 2 ∧ (4096 < value ∨ paddr % 4 ≠ 0)) || decide (cls = 0 ∧ paddr ≠ 0) || decide (st % 8 ≠ 0)
    let reply := fun (s : State) (x : Word) => if st = 0 ∨ st % 8 ≠ 0 then s else s.wrSys st (leBytes 8 x.toNat)
    if bad then .next (reply s 3)
    else match s.mailbox slot with
      | none => .next (reply s 2)
      | some p =>
        if 64 ≤ p.mbox.length then .next (reply s 1)
        else
          let str := if cls = 2 then idsOf value (s.rd paddr (4 * value)) else []
          let e : MboxE := { sender := 0xFFFF, retn := 0, tag := w32 (sliceB data 16 4), cls := cls, val := BitVec.ofNat 64 value, str := str }
          .next (reply (s.mailEnter slot e) 0)

/-! ## Kills and notices -/

/-- A requested kill: at once at a boundary, pending while BATCHED (R49, R50). -/
def State.requestKill (s : State) (slot : Nat) : State :=
  match s.prog slot with
  | none => s
  | some p =>
    match p.state with
    | .done => s
    | .killed => s
    | .batched => s.onProg slot (fun p => { p with kreq := true })
    | _ => s.agentKill slot 0x0D

def execKreq (slot : Nat) (s : State) : Host.Outcome State Fault Refusal := .next (s.requestKill slot)

/-- The host frees an entry of a host mailbox. -/
def execFullFree (slot e : Nat) (s : State) : Host.Outcome State Fault Refusal :=
  match s.prog slot with
  | none => .next s
  | some p => .next (s.wr64 (p.hmbx + 64 * (e % 64) + 0x38) 0)

def execDeferredNoticePost (slot : Nat) (s : State) : Host.Outcome State Fault Refusal :=
  match s.prog slot with
  | none => .next s
  | some p => match p.notices with
    | [] => .next s
    | (tag, retn, rec) :: r =>
      if s.hostFull p then .next s
      else .next ((s.hostPut p 3 tag 0 retn (leBytes 32 rec.toNat)).onProg slot (fun p => { p with notices := r }))

/-! ## Service requests (R202) -/

/-- Bytes of a request block that a code uses: offsets and lengths in the arguments. -/
def svcArgs : Nat → List (Nat × Nat)
  | 1 => [(0x08, 8), (0x10, 8), (0x18, 3)]
  | 4 => [(0x08, 8), (0x10, 8)]
  | 5 => [(0x08, 8), (0x10, 8)]
  | _ => [(0x08, 8)]

/-- Reserved and unused bytes of a block are zero. -/
def svcClean (op : Nat) (d : List Byte) : Bool :=
  allZero (sliceB d 4 4) && (List.range 0x78).all (fun i =>
    (svcArgs op).any (fun u => decide (u.1 ≤ 8 + i) && decide (8 + i < u.1 + u.2)) || decide ((d[8 + i]?).getD 0 = 0))

/-- The reply, and DONE last. -/
def State.svcReply (s : State) (a status : Nat) (reply : Word) : State :=
  ((s.wr64 (a + 0x80) (BitVec.ofNat 64 status)).wr64 (a + 0x88) reply).wr64 (a + 0xF8) 1

/-- Serve the oldest pending request if its code is `op`: a state, a status and a reply, or not yet. -/
def State.serve (s : State) (op : Nat) (f : State → List Byte → Option (State × Nat × Word)) : State :=
  match s.services with
  | [] => s
  | a :: rest =>
    let d := s.rd a 256
    if fieldB d 0 4 ≠ op then s
    else if !(svcClean op d) then ({ s with services := rest } : State).svcReply a 1 0
    else match f s d with
      | none => s
      | some (t, st, r) => ({ t with services := rest } : State).svcReply a st r

/-- What the front end has kept of a queue, its prefetched packets and what held it, goes with the binding (R109, R203). -/
def State.dropQwait (s : State) (q : Nat) : State := { s with qwaits := s.qwaits.filter (fun x => decide (x.q ≠ q)) }

/-- Bind a queue; its descriptor lies in stack memory (R109, R203). -/
def execBindQueue (s : State) : Host.Outcome State Fault Refusal :=
  .next (s.serve 1 fun s d =>
    let q := fieldB d 0x08 8
    let qd := fieldB d 0x10 8
    let x := fieldB d 0x18 8
    let ctx : Half := BitVec.ofNat 16 x
    if 4096 ≤ q ∨ (Assoc.get s.qbind q).isSome ∨ qd % 64 ≠ 0 ∨ !(physOk qd 64) ∨ 2 ^ 20 ≤ x ∨ 11 < x / 65536 ∨
        !(((s.ctx ctx).map NCtx.hostGranted).getD false) then some (s, 1, 0)
    else some ({ s.dropQwait q with qbind := Assoc.set s.qbind q { qdesc := qd, nctx := ctx, lcap := x / 65536, unbind := none } }, 0, 0))

/-- Unbind: the request waits at the head until the queue is drained. -/
def execUnbindQueue (s : State) : Host.Outcome State Fault Refusal :=
  match s.services with
  | [] => .next s
  | a :: _ =>
    let q := fieldB (s.rd a 256) 0x08 8
    match Assoc.get s.qbind q with
    | some b =>
      if fieldB (s.rd a 256) 0 4 = 2 ∧ svcClean 2 (s.rd a 256) ∧ b.unbind = none then
        .next { s with qbind := Assoc.set s.qbind q { b with unbind := some (s.rd64 (b.qdesc + 0x18)) } }
      else .next (s.serve 2 fun _ _ => none)
    | none => .next (s.serve 2 fun s _ => some (s, 1, 0))

/-- Every packet published before the request has been taken: HEAD has reached its TAIL. -/
def State.drained (s : State) (b : QBind) : Bool :=
  match b.unbind with
  | none => false
  | some t => let d := (t - s.rd64 (b.qdesc + 0x10)).toNat
              decide (d = 0) || decide (2 ^ 63 ≤ d)

def execUnbindQueueDrained (s : State) : Host.Outcome State Fault Refusal :=
  .next (s.serve 2 fun s d =>
    let q := fieldB d 0x08 8
    match Assoc.get s.qbind q with
    | none => none
    | some b => if s.drained b then some ({ s.dropQwait q with qbind := Assoc.del s.qbind q }, 0, 0) else none)

/-- Insert into a rising list. -/
def insertNat (x : Nat) : List Nat → List Nat
  | [] => [x]
  | y :: r => if x ≤ y then x :: y :: r else y :: insertNat x r

/-- The live contexts that a slot's program created, in increasing id. -/
def State.createdBy (s : State) (slot : Nat) : List Nat :=
  ((s.lctx.filter (fun c => c.2.live && decide (c.2.creator = slot))).map Prod.fst).foldr insertNat []

/-- A drop of a context waits while a long instruction commits to it (R31); so it never meets a set detach record (R75). -/
def State.dropWaits (s : State) (cid : Nat) : Bool := (s.lc cid).busy.isSome || (s.lc cid).detach.isSome

/-- A program's INVOKE packet that the front end has still to take: its launch runs to its end also after a kill (R49). -/
def Prog.packetLeft (p : Prog) : Bool := match p.await with
  | .launch _ (some _) _ _ => true
  | _ => false

/-- Free a slot: the contexts that its program created are dropped in increasing id (R294). -/
def State.freeSlot (s : State) (slot : Nat) : State :=
  let s := (s.createdBy slot).foldl State.ctxDrop s
  ({ s with progs := s.progs.filter (fun p => decide (p.slot ≠ slot)) } : State).unpark

/-- Release a slot. The request stays pending while a drop that it brings would wait under R31, or while the slot still holds an INVOKE's
packet (R49, R294; log 44). -/
def execReleaseSlot (s : State) : Host.Outcome State Fault Refusal :=
  .next (s.serve 3 fun s d =>
    let slot := fieldB d 0x08 8
    match s.prog slot with
    | none => some (s, 1, 0)
    | some p =>
      if p.state ≠ .done ∧ p.state ≠ .killed then some (s, 1, 0)
      else if p.packetLeft || (s.createdBy slot).any s.dropWaits then none
      else some (s.freeSlot slot, 0, 0))

/-- An image descriptor that may be registered to a context (R202). -/
def State.imageOk (s : State) (ctx : Half) (d : List Byte) : Bool :=
  let f := fun o n => fieldB d o n
  let has := fun (va n : Nat) (r : BitVec 4) (win : Bool) => match s.granted ctx (BitVec.ofNat 64 va) n r win with
    | .ok _ => true
    | .error _ => false
  let wdog := f 0x14 4 / 4 % 32
  decide (2 ≤ f 0x08 4) && decide (f 0x08 4 ≤ 2 ^ 24) && decide (1 ≤ f 0x0C 2) && decide (f 0x0E 1 < 2) && decide (f 0x0F 1 = 0) &&
  decide (1 ≤ f 0x10 2) && decide (f 0x10 2 ≤ 1024) && decide (1024 * f 0x0C 2 + 64 ≤ 65536 * f 0x10 2) && decide (f 0x12 2 = 0) &&
  decide (f 0x14 4 < 2 ^ 19) && !(decide (1 ≤ wdog ∧ wdog ≤ 9) || decide (wdog = 31)) && decide (f 0x14 4 / 128 ≤ 2048) &&
  decide (f 0x30 8 % 2 ^ 21 = 0) && decide (f 0x38 8 % 2 ^ 21 = 0) && decide (2 ^ 27 ≤ f 0x38 8) &&
  has (f 0 8 % 2 ^ 48 / 4 * 4) 4 rEX false && has (f 0x20 8) (f 0x28 8) rRD false && has (f 0x30 8) (f 0x38 8) (rRD ||| rWR) true

/-- Register an image; `hint` is where Edoiny looks for a free id first. -/
def execRegisterModelImage (hint : Nat) (s : State) : Host.Outcome State Fault Refusal :=
  .next (s.serve 4 fun s b =>
    let ctx : Half := BitVec.ofNat 16 (fieldB b 0x08 8)
    let d := s.rd (fieldB b 0x10 8) 64
    let f := fun o n => fieldB d o n
    if 65536 ≤ fieldB b 0x08 8 ∨ (s.ctx ctx).isNone ∨ !(s.imageOk ctx d) then some (s, 1, 0)
    else match firstFree 65536 (fun i => (s.image (BitVec.ofNat 16 i)).isSome) (s.images.length + 1) hint with
      | none => some (s, 2, 0)
      | some id =>
        let m : Image := {
          id := BitVec.ofNat 16 id, ctx := ctx, entry := w64 (sliceB d 0 8), vocab := f 0x08 4, kvl := f 0x0C 2, repro := decide (f 0x0E 1 % 2 = 1),
          pages := f 0x10 2, params := f 0x14 4, wtab := w64 (sliceB d 0x18 8), wbase := w64 (sliceB d 0x20 8), wlen := w64 (sliceB d 0x28 8),
          sbase := w64 (sliceB d 0x30 8), slen := f 0x38 8 }
        some ({ s with images := s.images ++ [m] }, 0, BitVec.ofNat 64 id))

def execExtendHostMemory (s : State) : Host.Outcome State Fault Refusal :=
  .next (s.serve 5 fun s d =>
    let base := fieldB d 0x08 8
    let len := fieldB d 0x10 8
    if base % 2 ^ 21 ≠ 0 ∨ len % 2 ^ 21 ≠ 0 then some (s, 1, 0)
    else some ({ s with hostRegions := s.hostRegions ++ [(base, len)], hostSlots := s.hostSlots + len / 65536 }, 0, 0))

def execKillProgram (s : State) : Host.Outcome State Fault Refusal :=
  .next (s.serve 6 fun s d =>
    match s.prog (fieldB d 0x08 8) with
    | none => some (s, 1, 0)
    | some p => some (s.requestKill p.slot, 0, 0))

def execWithdrawModelImage (s : State) : Host.Outcome State Fault Refusal :=
  .next (s.serve 7 fun s d =>
    let id : Half := BitVec.ofNat 16 (fieldB d 0x08 8)
    if 65536 ≤ fieldB d 0x08 8 ∨ (s.image id).isNone ∨ s.lctx.any (fun c => c.2.live && decide (c.2.img = id)) then some (s, 1, 0)
    else some ({ s with images := s.images.filter (fun m => decide (m.id ≠ id)), mangles := s.mangles.filter (fun m => decide (m.img ≠ id)) }, 0, 0))

def execServiceRequestUnknownCode (s : State) : Host.Outcome State Fault Refusal :=
  match s.services with
  | [] => .next s
  | a :: rest =>
    let op := (s.rd32 a).toNat
    if 1 ≤ op ∧ op ≤ 7 then .next s else .next (({ s with services := rest } : State).svcReply a 3 0)

/-! ## BAR2 and BAR0 -/

/-- The 64-bit word of BAR0 that holds an offset; write-only and reserved words read 0 (R7, R197, R203). -/
def State.bar0 (s : State) (off : Nat) : Word :=
  if off / 8 = 0 then at64 s.devstat 0 ||| at64 s.bootCode 8
  else if s.devstat ≠ 1 then 0
  else if off / 8 = 1 then BitVec.ofNat 64 s.hostseq
  else if 0x300000 ≤ off ∧ off < 0x310000 then
    match Assoc.get s.qbind ((off - 0x300000) / 16) with
    | none => 0
    | some b => if off % 16 < 8 then at64 b.qdesc 0 ||| at64 b.nctx.toNat 48 else at64 b.lcap 0 ||| at64 1 63
  else 0

/-- Host addresses from 2^40 stand for BAR0 (log 32). -/
def bar0Base : Nat := 2 ^ 40

/-- A host load: through BAR2 from stack memory, or of a BAR0 register. -/
def execHostLoad (addr n : Nat) (s : State) : Host.Outcome State Fault Refusal :=
  let byte := fun (a : Nat) => if a < bar0Base then s.rdByte a
    else BitVec.ofNat 8 ((s.bar0 (a - bar0Base)).toNat / 2 ^ (8 * (a % 8)))
  .next { s with hostOut := s.hostOut ++ [(List.range n).map (fun i => byte (addr + i))] }

/-- Store one byte for the host: a byte that its owner alone writes ignores it, but for KREQ (R7, R24). -/
def State.hostByte (s : State) (a : Nat) (b : Byte) : State :=
  match s.progs.find? (fun p => decide (a = p.sblk + 0x18)) with
  | some p => if b.getLsbD 0 then s.requestKill p.slot else s
  | none => if 2 ^ 40 ≤ a then s else s.wrFree a b

def State.hostBytesTo (s : State) (a : Nat) : List Byte → State
  | [] => s
  | b :: r => State.hostBytesTo (s.hostByte a b) (a + 1) r

/-- A host store through BAR2, taken by the channel's home agent; a 1 in KREQ requests a kill (R24). -/
def execHostStore (addr : Nat) (data : List Byte) (s : State) : Host.Outcome State Fault Refusal := .next (s.hostBytesTo addr data)

/-! ## Registers without a row of their own (R7) -/

/-- Limits as Edoiny may set them: within 900 to 1,800 MHz (R20). -/
def mhzRange (lo hi : Nat) : Nat × Nat :=
  let l := max 900 (min 1800 lo)
  (l, max l (min 1800 hi))

/-- An island's limits, and its frequency, which stays within them: 1,800 MHz, or the upper limit, until it is set (R20). -/
def State.mhzLimits (s : State) (i : Nat) : Nat × Nat := Assoc.getD s.limits i (900, 1800)
def State.mhzIn (s : State) (i mhz : Nat) : Nat := max (s.mhzLimits i).1 (min (s.mhzLimits i).2 mhz)
def State.mhz (s : State) (i : Nat) : Nat := s.mhzIn i (Assoc.getD s.islandMHz i 1800)
def State.setMHz (s : State) (i mhz : Nat) : State := { s with islandMHz := Assoc.set s.islandMHz i (s.mhzIn i mhz) }

/-- A write-1-to-clear field. -/
def w1c (old new : BitVec 64) : BitVec 64 := old &&& ~~~new

/-- A write of a register: SVCDOOR of BAR0, and the registers that Edoiny alone writes, at places that the model gives them
(log 32): steering rules, NVMe leases, QB and the batching window, context descriptors, which a write creates, the grants of a
context, and an island's limits and frequency (R20). Read-only fields ignore the write. -/
def execRegisterWrite (off : Nat) (data : List Byte) (s : State) : Host.Outcome State Fault Refusal :=
  if off = 0x400000 then
    if data.length < 64 ∨ !(allZero (sliceB data 8 56)) then .next s
    else .next { s.bell with services := s.services ++ [fieldB data 0 8] }
  else if 2 ^ 32 ≤ off ∧ off < 2 ^ 33 then
    let port := (off - 2 ^ 32) / 2 ^ 16
    let r := (off - 2 ^ 32) % 2 ^ 16 / 64
    if Config.ports ≤ port ∨ 128 ≤ r then .next s
    else
      let x := Assoc.getD s.ports port { rules := [], seq := 0 }
      let old := Assoc.getD x.rules r { bits := 0, held := [] }
      let new : BitVec 512 := BitVec.ofNat 512 (leNat (sliceB data 0 64))
      let drops := w1c (old.bits.extractLsb' 336 64) (new.extractLsb' 336 64)
      let bits : BitVec 512 := (new.extractLsb' 0 336).setWidth 512 ||| (drops.setWidth 512 <<< 336)
      .next { s with ports := Assoc.set s.ports port { x with rules := Assoc.set x.rules r { old with bits := bits } } }
  else if 2 ^ 33 ≤ off ∧ off < 2 ^ 33 + 32 * 65536 * Config.rootPorts then
    let n := (off - 2 ^ 33) / 32
    let v : BitVec 192 := BitVec.ofNat 192 (leNat (sliceB data 0 24)) &&& ~~~(BitVec.ofNat 192 ((2 ^ 27 - 1) * 2 ^ 37))
    let old := Assoc.getD s.leases n { bits := 0, refused := [], forwarded := [] }
    .next { s with leases := Assoc.set s.leases n { old with bits := v } }
  else if off = 2 ^ 34 then
    let v := fieldB data 0 8
    .next (if 1 ≤ v ∧ v ≤ 256 then { s with qb := v } else s)
  else if off = 2 ^ 34 + 8 then
    let v := fieldB data 0 8
    .next (if v ≤ 100 then { s with window := v } else s)
  else if 2 ^ 35 ≤ off ∧ off < 2 ^ 35 + 0xFFFF * 64 then
    let ctx : Half := BitVec.ofNat 16 ((off - 2 ^ 35) / 64)
    let c := (s.ctx ctx).getD { ptroot := 0, save := 0, grant := 0, sizes := 0, hostGranted := false, wins := [] }
    let w := fun i => w64 (sliceB data (8 * i) 8)
    .next { s with ctxs := Assoc.set s.ctxs ctx { c with ptroot := w 0, save := w 1, grant := w 2 &&& 0x3FF, sizes := w 3 &&& 0xFFFFFFFFFFFF } }
  else if 2 ^ 36 ≤ off ∧ off < 2 ^ 36 + 0xFFFF * 1024 then
    let ctx : Half := BitVec.ofNat 16 ((off - 2 ^ 36) / 1024)
    let i := off % 1024 / 32
    match s.ctx ctx with
    | none => .next s
    | some c =>
      if i < 16 then
        .next { s with ctxs := Assoc.set s.ctxs ctx { c with wins := (c.wins ++ List.replicate 16 0).take 16 |>.set i (BitVec.ofNat 256 (leNat (sliceB data 0 32))) } }
      else if i = 16 then .next { s with ctxs := Assoc.set s.ctxs ctx { c with hostGranted := decide (fieldB data 0 1 % 2 = 1) } }
      else .next s
  else if 2 ^ 37 ≤ off ∧ off < 2 ^ 37 + 16 * Config.islands then
    .next (s.setMHz ((off - 2 ^ 37) / 16) (fieldB data 0 8))
  else if 2 ^ 37 + 1024 ≤ off ∧ off < 2 ^ 37 + 1024 + 16 * Config.islands then
    let i := (off - 2 ^ 37 - 1024) / 16
    .next (({ s with limits := Assoc.set s.limits i (mhzRange (fieldB data 0 8) (fieldB data 8 8)) } : State).setMHz i (s.mhz i))
  else .next s

end Sys2Proof.Machine
end

