-- ==== Sys2Proof/Machine/Device.lean ====
section
/-!
DEFINITION. Attachments (R204 to R208), failing parts (R22, R48, R68, R196), boot (R211, R212), attestation (R213), heat (R214), and the words
that are no instruction (R215, R229).
-/

namespace Sys2Proof.Machine

open Sys2Proof

/-! ## Words that are no instruction -/

/-- A Norson word of no instruction: ILLOP, with no effect and no register read (R229). -/
def execReservedEncoding (_w : Word32) (s : State) : Host.Outcome State Fault Refusal := issue s fun _ => trap .illop 0

/-- A Livik word of no instruction at PC: the agent fault ILLOP (R32, R46, R215). -/
def execLivikIllopWord (_w : Word) (s : State) : Host.Outcome State Fault Refusal := livik s fun _ _ => fault 1

/-! ## Ethernet (R206, R207) -/

def State.port (s : State) (p : Nat) : Port := Assoc.getD s.ports p { rules := [], seq := 0 }
def State.rule (s : State) (p r : Nat) : Rule := Assoc.getD (s.port p).rules r { bits := 0, held := [] }
def State.setRule (s : State) (p r : Nat) (x : Rule) : State :=
  let y := s.port p
  { s with ports := Assoc.set s.ports p { y with rules := Assoc.set y.rules r x } }

/-- A field of a steering rule. -/
def ruleF (b : BitVec 512) (lo n : Nat) : Nat := (b.extractLsb' lo n).toNat

/-- A rule that can match: enabled, its reserved fields zero, its numbers within their ranges. -/
def ruleOk (b : BitVec 512) : Bool :=
  b.getLsbD 0 && decide (ruleF b 9 55 = 0) && decide (ruleF b 222 34 = 0) && decide (ruleF b 2 7 % 4 = 0) && decide (ruleF b 2 7 ≤ 124) &&
  (b.getLsbD 1 || (decide (1 ≤ ruleF b 320 8) && decide (2 ≤ ruleF b 328 8) && decide (ruleF b 328 8 ≤ 160) && decide (ruleF b 256 64 % 64 = 0)))

/-- The rule matches a frame. -/
def ruleHits (b : BitVec 512) (f : List Byte) : Bool :=
  let o := ruleF b 2 7
  ruleOk b && decide (o + 4 ≤ f.length) && decide (leNat (sliceB f o 4) &&& ruleF b 96 32 = ruleF b 64 32)

/-- DROPS rises by one. -/
def Rule.drop (x : Rule) : Rule :=
  { x with bits := (x.bits &&& ~~~((BitVec.allOnes 64).setWidth 512 <<< 336)) ||| ((x.bits.extractLsb' 336 64 + 1).setWidth 512 <<< 336) }
def State.dropFrame (s : State) (p r : Nat) : State := s.setRule p r (s.rule p r).drop

/-- The target launch of deposits to a core for a context. -/
def State.depositTarget (s : State) (c : CoreId) (ctx : Half) : Option Launch :=
  latest (s.launches.filter (fun l => l.holds c && decide (l.ctx = ctx)))

/-- Bytes in a port's buffer. -/
def Port.used (x : Port) : Nat := x.rules.foldl (fun a r => r.2.held.foldl (fun a h => a + h.2.1.length) a) 0

/-- The line of the ring write that lies within the core's scratchpad. -/
def State.ringWrite (s : State) (c : CoreId) (a : Nat) (d : List Byte) : State :=
  (d.zipIdx).foldl (fun s x =>
    if scratchBus c 0 ≤ a + x.2 ∧ a + x.2 < scratchBus c (s.scratchSize c) then s.wrByte (a + x.2) x.1 else s) s

/-- A basket deposit: the descriptor line, whose bytes from 28 on the manual leaves open, the frame from byte 48 on, then the message. -/
def State.deposit (s : State) (p r : Nat) (b : BitVec 512) (seq : Nat) (f : List Byte) (st : Stamp) (c : CoreId) (l : Launch) : State :=
  let lines := ruleF b 328 8
  let a := ruleF b 256 64 + 64 * lines * (seq % ruleF b 320 8)
  let gap := (List.range 36).map (fun i => Config.freeByte s.fresh (a + 28 + i))
  let d := st.bytes ++ leBytes 8 seq ++ leBytes 4 f.length ++ gap ++ (f.drop 48).take (64 * (lines - 1))
  let s := { s.ringWrite c a d with fresh := s.fresh + 1 }
  let m : Msg := { w0 := deliverW0 (b.extractLsb' 128 64), w1 := header1 (0x3FF0 + p) 0 (seq % 65536) l.lid 5 10 false false, pay := vec512 (sliceB f 0 48) }
  let s := s.setRule p r { s.rule p r with sent := some s.nextId }
  s.post { id := 0, dst := c, src := none, msg := m, ctx := l.ctx, lid := some l.lid, counted := false, outside := false, deps := [], held := false }

/-- A mailbox deposit: a t-class entry from 0xFFFE. A full or absent mailbox drops the packet. -/
def State.mailDeposit (s : State) (p r : Nat) (b : BitVec 512) (seq : Nat) (f : List Byte) (st : Stamp) : State :=
  let slot := ruleF b 128 16
  match s.mailbox slot with
  | none => s.dropFrame p r
  | some q =>
    if 64 ≤ q.mbox.length then s.dropFrame p r
    else
      let str := ([BitVec.ofNat 32 st.sec, BitVec.ofNat 32 st.ns, BitVec.ofNat 32 seq] ++ idsOf ((f.length + 3) / 4) (f ++ [0, 0, 0])).take 4096
      s.mailEnter slot { sender := 0xFFFE, retn := 0, tag := BitVec.ofNat 32 (256 * p + r), cls := 2, val := BitVec.ofNat 64 str.length, str := str }

/-- A rule's deposits wait: its previous message is held in the network, or the target launch is frozen on the core. -/
def State.depositWaits (s : State) (x : Rule) (c : CoreId) (l : Launch) : Bool :=
  (s.frozenImg c l.ctx).isSome || (match x.sent with
    | some id => s.net.any (fun f => decide (f.id = id) && f.held)
    | none => false)

/-- Deposit a packet, drop it, or none where it has to wait. -/
def State.steer (s : State) (p r : Nat) (b : BitVec 512) (seq : Nat) (f : List Byte) (st : Stamp) : Option State :=
  if b.getLsbD 1 then some (s.mailDeposit p r b seq f st)
  else
    let c := cc (ruleF b 192 14)
    match s.depositTarget c (BitVec.ofNat 16 (ruleF b 206 16)) with
    | none => some (s.dropFrame p r)
    | some l => if s.depositWaits (s.rule p r) c l then none else some (s.deposit p r b seq f st c l)

def execEthernetFrameIngress (port : Nat) (frame : List Byte) (s : State) : Host.Outcome State Fault Refusal :=
  if Config.ports ≤ port then .next s
  else
    let x := s.port port
    let seq := x.seq
    let s := { s with ports := Assoc.set s.ports port { x with seq := (seq + 1) % 2 ^ 64 } }
    match (List.range 128).find? (fun r => ruleHits (s.rule port r).bits frame) with
    | none => .next { s with reports := .frame frame :: s.reports }
    | some r =>
      let y := s.rule port r
      let now := if y.held.isEmpty then s.steer port r y.bits seq frame s.stamp0 else none
      match now with
      | some t => .next t
      | none =>
        if 2 ^ 22 < (s.port port).used + frame.length then .next (s.dropFrame port r)
        else .next (s.setRule port r { y with held := y.held ++ [(seq, frame, s.stamp0, y.bits)] })

/-- A port issues the oldest buffered deposit of the first rule whose deposits need no longer wait. -/
def execHeldDepositIssue (port : Nat) (s : State) : Host.Outcome State Fault Refusal :=
  let try_ := fun (r : Nat) =>
    let x := s.rule port r
    match x.held with
    | [] => none
    | (seq, f, st, b) :: rest => (s.setRule port r { x with held := rest }).steer port r b seq f st
  .next (((s.port port).rules.findSome? (fun r => try_ r.1)).getD s)

/-! ## NVMe leases (R204, R205) -/

/-- Opcodes of the NVMe family that only an admin queue knows (log 33). -/
def nvmeAdmin : List Nat := [0x06, 0x0A, 0x10, 0x14, 0x1A, 0x1C, 0x1E, 0x20, 0x21, 0x24, 0x28, 0x7C, 0x7F]
/-- An opcode that a leased queue may carry: neither an admin nor a vendor opcode, 0x80 and up (log 33). -/
def nvmeCommand (op : Nat) : Bool := decide (op < 0x80) && !(nvmeAdmin.contains op)
/-- The opcodes that write: write, write uncorrectable, write zeroes, dataset management, copy, zone append. -/
def nvmeWrites (op : Nat) : Bool := [0x01, 0x04, 0x08, 0x09, 0x19, 0x7D].contains op
/-- The opcodes that name no range: flush, the reservation commands, I/O management, cancel. -/
def nvmeNoRange (op : Nat) : Bool := [0x00, 0x0D, 0x0E, 0x11, 0x12, 0x15, 0x18, 0x1D].contains op

/-- The status of an entry: none where it is forwarded. -/
def nvmeStatus (b : BitVec 192) (c : NvmeCmd) : Option Nat :=
  let lba0 := (b.extractLsb' 64 64).toNat
  let lban := (b.extractLsb' 128 64).toNat
  if !(nvmeCommand c.opcode) || (nvmeWrites c.opcode && !(b.getLsbD 36)) then some 0x01
  else if c.nsid ≠ (b.extractLsb' 32 4).toNat ∨ lban = 0 then some 0x80
  else if nvmeNoRange c.opcode then none
  else if lba0 ≤ c.lba ∧ c.lba + c.nlb + 1 ≤ lba0 + lban then none else some 0x80

def execNvmeSubmissionCheck (lease : Nat) (cmd : NvmeCmd) (s : State) : Host.Outcome State Fault Refusal :=
  match Assoc.get s.leases lease with
  | none => .next s
  | some l =>
    let l := match nvmeStatus l.bits cmd with
      | some st => { l with refused := l.refused ++ [st] }
      | none => { l with forwarded := l.forwarded ++ [cmd] }
    .next { s with leases := Assoc.set s.leases lease l }

/-! ## Failing parts -/

/-- The bundles of a core set are lost: a launch on one of them runs again from its start if it is REPLAYABLE, and ends FAULTED otherwise;
the record of a re-run counts only that run, and it is written behind every write of both (R122, R196). -/
def State.rerun (s : State) (lid : Half) : State :=
  match s.launch lid with
  | none => s
  | some l =>
    let s : State := s.flushOps (fun o => decide (o.lid = some lid))
    let s : State := { s with ts := s.ts.map (fun e => match e.2.act with
        | some a => if a.lid = some lid then (e.1, e.2.free) else e
        | none => e) }
    let s : State := (((s.discardWork l).sweep l).sweepCopies l).raiseAreas l
    let s : State := ({ s with ops := s.ops.map (fun o => if o.orphan ∧ o.lid = some lid then { o with past := true } else o) } : State).loosen lid
    let l : Launch := { l with
      state := .waitBundles, bundles := [], areaLow := [], groups := [], startst := none, acts := 0, disc := 0, discRec := 0, mappl := 0,
      msupp := 0, markold := 0, traps := 0, skips := 0, counts := [], stains := [], steals := [], stealOut := [], deques := [],
      token := { started := false, at_ := 0, sum := 0, stain := false }, lend := false, conv := false, epochs := [], arrivals := [],
      done := [], resid := 0 }
    (s.setLaunch l).placeLaunch l

/-- A FREEZE or THAW on a lost bundle ends with status 2 (R183). -/
def State.loseFreeze (s : State) (b : Nat) : State :=
  let k := s.bundle b
  let ids := (k.freezing.toList ++ k.thawing.toList).map (fun f => f.2.2)
  ids.foldl (fun s id => s.endWith id 2) s

/-- Bundles leave the map, and what they held is gone. A seam bundle's fault has the sequencer rebuild its state (R68). -/
def State.loseBundles (s : State) (bs : List Nat) : State :=
  let hit := s.launches.filter (fun l => decide (l.state = .running) && l.bundles.any (fun b => bs.contains b))
  let s := bs.foldl State.loseFreeze s
  let lost := fun (c : CoreId) => !c.kernel && bs.contains (bundleOf c)
  let s := hit.foldl (fun s l => if l.repl then s else s.endLaunch l.lid 9) { s with absent := bs ++ s.absent }
  let s := hit.foldl (fun s l => if l.repl then s.rerun l.lid else s) s
  let s := { s with
    ts := s.ts.filter (fun e => !(lost e.1.core)), cores := s.cores.filter (fun e => !(lost e.1)),
    bundles := s.bundles.filter (fun e => !(bs.contains e.1)), ops := s.ops.filter (fun o => o.orphan || !(lost o.t.core)) }
  if s.seam.any (fun b => bs.contains b) then s.rebuild.unpark else s

def execBundleFault (b : Nat) (s : State) : Host.Outcome State Fault Refusal :=
  if Config.bundles ≤ b ∨ s.absent.contains b then .next s else .next (s.loseBundles [b])

/-- An island that fails takes its bundles out of the map (R22). -/
def execIslandFault (n : Nat) (s : State) : Host.Outcome State Fault Refusal :=
  if Config.islands ≤ n ∨ s.absentIsl.contains n then .next s
  else
    let bs := if n < 32 then ((List.range 64).map (fun i => 64 * n + i)).filter (fun b => !(s.absent.contains b)) else []
    .next (({ s with absentIsl := n :: s.absentIsl } : State).loseBundles bs)

/-- A table or page of a context lies in a channel. -/
def State.walkHits (s : State) (c : Nat) : Nat → Nat → Bool
  | 0, _ => false
  | k + 1, table =>
    let here := fun (a : Nat) => decide (a / Config.channelBytes = c)
    here table || (List.range (if k = 0 then 32 else 512)).any (fun i =>
      match s.pte table i with
      | none => false
      | some e => if k = 0 ∨ e.getLsbD 1 then here (pteFrame e) else s.walkHits c k (pteFrame e))

def State.ctxHits (s : State) (c : Nat) (ctx : Half) : Bool :=
  match s.ctx ctx with
  | none => false
  | some x => s.walkHits c 4 (bits x.ptroot 39 0)

/-- A range of stack memory touches a channel. -/
def inChannel (c a n : Nat) : Bool := decide (a < (c + 1) * Config.channelBytes) && decide (c * Config.channelBytes < a + n)

/-- A page's bytes lie in a channel: in its frame, also while a fold reads them from there. -/
def State.pageIn (s : State) (c : Nat) (e : PageE) : Bool :=
  e.used && decide (e.res = 0 ∨ e.res = 3 ∧ e.move = 0) && inChannel c e.frame (65536 * s.pageUnits e.img)

/-- Moves from or into a frame of a channel end where they began, and what they had reserved elsewhere is free again. -/
def State.cancelMoves (s : State) (c : Nat) : State :=
  s.pages.foldl (fun s x =>
    let e := s.page x.1
    let units := s.pageUnits e.img
    let hit := fun (f : Nat) => inChannel c (65536 * f) (65536 * units)
    if !e.used ∨ e.res ≠ 3 then s
    else if e.move = 0 ∧ hit e.loc then (s.giveTier 1 e.target units).setPage x.1 { e with res := 0 }
    else if 2 ≤ e.move ∧ hit e.target then s.setPage x.1 { e with res := e.move - 1 }
    else s) s

/-- Detaches into a frame of a channel are undone; their programs begin them again (R75). -/
def State.cancelDetaches (s : State) (c : Nat) : State :=
  s.lctx.foldl (fun s x => match (s.lc x.1).detach with
    | none => s
    | some d => if inChannel c (65536 * d.frame) (65536 * s.pageUnits (s.lc x.1).img) then s.detachUndo x.1 else s) s

/-- A program has lost its state block, its mailbox storage, or a committed page of a context that one of its registers or its long
instruction names (R48). -/
def State.progHit (s : State) (c : Nat) (p : Prog) : Bool :=
  let cids := (p.c.filterMap s.named) ++ p.stepCid.toList
  inChannel c p.sblk 0x41000 || inChannel c p.hmbx 0x101000 || cids.any (fun g => (s.lc g).list.any (fun i => s.pageIn c (s.page i)))

/-- A channel is retired: what it held is gone, its frames are withdrawn, launches with a record or page in it end FAULTED, and programs
with state in it are killed with LOST at their next boundary (R22, R48, R196). -/
def execChannelFault (c : Nat) (s : State) : Host.Outcome State Fault Refusal :=
  if Config.channels ≤ c ∨ s.absentCh.contains c then .next s
  else
    let hitCrec := fun (l : Launch) => match s.granted l.ctx l.crec 128 rWR false with
      | .ok bs => bs.any (fun b => inChannel c b.bus b.len)
      | .error _ => false
    let ls := s.launches.filter (fun l => hitCrec l || s.ctxHits c l.ctx)
    let ps := (s.progs.filter (fun p => decide (p.state ≠ .done) && decide (p.state ≠ .killed) && s.progHit c p)).map Prog.slot
    let alive := fun (f : Nat) => !(inChannel c (65536 * f) 65536)
    let s : State := { s with
      absentCh := c :: s.absentCh, mem := Cells.delRange s.mem (c * Config.channelBytes) Config.channelBytes,
      freeFrames := s.freeFrames.filter alive, reserved := s.reserved.filter (fun r => !(inChannel c (65536 * r.2.1) (65536 * r.2.2))) }
    let s := ls.foldl (fun s l => s.endLaunch l.lid 9) s
    .next (ps.foldl State.killLost ((s.cancelMoves c).cancelDetaches c)).unpark

/-- A kernel core leaves Edoiny's set; its services go on on the others (R22, R196). Its operations are gone, and their entries leave Edoiny's copy queues,
whose HEAD passes them (DESIGN CHOICE, log 41, on R22). -/
def execKernelCoreFault (k : Nat) (s : State) : Host.Outcome State Fault Refusal :=
  if Config.kernelCores ≤ k ∨ s.absentK.contains k then .next s
  else
    let c := kc k
    let mine := fun (e : CopyE) => s.ops.any (fun o => decide (o.t.core = c) && decide (o.id = e.op))
    .next (({ s with
      absentK := k :: s.absentK, ts := s.ts.filter (fun e => decide (e.1.core ≠ c)), cores := s.cores.filter (fun e => decide (e.1 ≠ c)),
      ops := s.ops.filter (fun o => decide (o.t.core ≠ c)), net := s.net.filter (fun f => decide (f.dst ≠ c)) } : State).passEntries mine)

/-- Lines of a slice that fails are homed in the die's other slices: no address loses its owner (R22). -/
def execL2SliceFault (n : Nat) (s : State) : Host.Outcome State Fault Refusal :=
  if Config.l2Slices ≤ n ∨ s.absentL2.contains n then .next s else .next { s with absentL2 := n :: s.absentL2 }

/-- The die's other engines serve the queues of an engine that fails (R22). -/
def execCopyEngineFault (n : Nat) (s : State) : Host.Outcome State Fault Refusal :=
  if Config.copyEngines ≤ n ∨ s.absentCE.contains n then .next s else .next { s with absentCE := n :: s.absentCE }

/-- The link trains at the next lower width, of 8, 4, 2, 1 and 0; flits in flight come again once and in order, so no message is lost (R196, R208). -/
def execLinkLaneFault (link : Nat) (s : State) : Host.Outcome State Fault Refusal :=
  if Config.links ≤ link then .next s else .next { s with lanes := Assoc.set s.lanes link (s.lanesOf link / 2) }

/-! ## Tlarriud peers (R19, R208) -/

/-- The link that carries the traffic of a link: itself, or, with no working lane, another one that is routed to the same peer. -/
def State.carrier (s : State) (link : Nat) : Option Nat :=
  if s.lanesOf link ≠ 0 then some link
  else match Assoc.get s.routes link with
    | none => none
    | some d => (List.range Config.links).find? (fun l => decide (s.lanesOf l ≠ 0) && decide (Assoc.get s.routes l = some d))

/-- A peer's access is served, and its answer goes out on a link: a block read, block write or atomic by the home agents of stack memory; a
message, of KIND 0 or 1, by the receiving core, where it joins the target launch (R119). An access that leaves the physical space, or a
misaligned atomic, has no effect. -/
def State.servePeer (s : State) (link : Nat) (acc : PeerAccess) : State :=
  match acc with
  | .read a n => if physOk a n then { s with peerOut := s.peerOut ++ [(link, s.rd a n)] } else s
  | .write a d => if physOk a d.length then s.wrRw a d else s
  | .amo op w a b cmp =>
    let n := if w then 4 else 8
    if a % n ≠ 0 ∨ !(physOk a n) ∨ 10 < op then s
    else
      let m := 2 ^ (8 * n)
      let old := leNat (s.rd a n)
      let s := match amoOp op n old (b.toNat % m) (cmp.toNat % m) with
        | none => s
        | some x => s.wrRw a (leBytes n x)
      { s with peerOut := s.peerOut ++ [(link, leBytes 8 (amoPush op n old).toNat)] }
  | .msg core w0 w1 pay =>
    if 1 < msgKind w1 ∨ 16384 ≤ core then s
    else s.post { id := 0, dst := cc core, src := none, msg := { w0 := deliverW0 w0, w1 := w1, pay := pay }, ctx := 0, lid := none, counted := false,
                  outside := true, deps := [], held := false }

/-- Serve what has a link to come by, in order; the rest is held (R208). -/
def State.servePeers (s : State) : State :=
  s.peerHeld.foldl (fun s x => match s.carrier x.1 with
    | some link => s.servePeer link x.2
    | none => { s with peerHeld := s.peerHeld ++ [x] }) { s with peerHeld := [] }

/-- Traffic of a peer on a link (R208). -/
def execTlarriudPeerAccess (link : Nat) (acc : PeerAccess) (s : State) : Host.Outcome State Fault Refusal :=
  .next ({ s with peerHeld := s.peerHeld ++ [(link, acc)] } : State).servePeers

/-! ## Boot, attestation, heat -/

/-- The seam column of each compute die is 1 to 4 of its bundles (R18). -/
def seamOk (seam : List Nat) : Bool :=
  (List.range Config.dies).all (fun d =>
    let n := (seam.eraseDups.filter (fun b => decide (b / Config.bundlesPerDie = d))).length
    decide (1 ≤ n) && decide (n ≤ 4))

/-- The failing step of a boot, 0 for none: step 4 fails where a role has no bundle, a bundle several roles, or a seam column the wrong width (R18, R211,
R212). -/
def bootFails (b : BootInput) : Nat :=
  let held := (List.range 5).all (fun r => b.roles.any (fun x => decide (x.2 = r) && b.seam.contains x.1))
  let one := b.roles.all (fun x => b.roles.all (fun y => decide (x.1 = y.1 → x.2 = y.2)))
  if held && one && seamOk b.seam then b.fail else if b.fail = 0 ∨ 4 < b.fail then 4 else b.fail

/-- A link trains to 8, 4, 2, 1 or no lanes (R208). -/
def trained (n : Nat) : Nat := if 8 ≤ n then 8 else if 4 ≤ n then 4 else if 2 ≤ n then 2 else n

/-- Power-on reset: everything is as after reset, then the boot ROM's steps, up to the failing one (R211). Host memory and the moves still
to come are not the device's. -/
def execPowerOnReset (boot : BootInput) (s : State) : Host.Outcome State Fault Refusal :=
  let n := bootFails boot
  let past := fun (k : Nat) => decide (n = 0) || decide (k < n)
  let z : State := { State.reset with hostMem := s.hostMem, agenda := s.agenda, fresh := s.fresh }
  let z : State := if past 1 then { z with hostX1 := boot.hostX1 } else z
  let z : State := if past 2 then { z with
    absent := boot.absentBundles, absentCh := boot.absentChannels, absentK := boot.absentKernel, absentL2 := boot.absentL2,
    absentCE := boot.absentCopy, absentIsl := boot.absentIslands, lanes := boot.lanes.map (fun l => (l.1, trained l.2)),
    routes := boot.routes, device := boot.device } else z
  let z : State := if past 3 then { z with digests := [boot.cfgDigest, boot.seamDigest, boot.osDigest] } else z
  let z : State := if past 4 then { z with
    seam := boot.seam, roles := boot.roles, locked := true,
    firewall := boot.firewall.map (fun f => (f.1, { ranges := f.2.ranges.take 8, sources := f.2.sources.take 16 })) } else z
  if n ≠ 0 then .next { z with devstat := 2, bootCode := n }
  else
    let fs := boot.frames.flatMap (fun f => (List.range f.2).map (fun i => f.1 + i))
    .next { z with
      devstat := 1, ptBase := boot.ptBase, ptSize := min boot.ptSize (2 ^ 24), listBase := boot.listBase, limits := boot.limits.map (fun l => (l.1, mhzRange l.2.1 l.2.2)), regions := boot.regions,
      hostRegions := boot.hostRegions, hostSlots := boot.hostRegions.foldl (fun a r => a + r.2 / 65536) 0, freeFrames := fs.filter (fun f => !(z.noChannel (65536 * f))),
      ctxs := boot.ctxs.map (fun c => (c.ctx, { ptroot := c.ptroot, save := c.save, grant := c.grant, sizes := c.sizes, hostGranted := c.hostGranted, wins := c.wins })) }

/-- The counts of present units (R213): bundles, channels, kernel cores, L2 slices, copy engines, islands, links. -/
def State.present (s : State) : List Nat :=
  let left := fun (n : Nat) (l : List Nat) => ((List.range n).filter (fun i => !(l.contains i))).length
  [((List.range Config.bundles).filter (fun b => !(s.coreAbsent (cc (8 * b))))).length, left Config.channels s.absentCh, left Config.kernelCores s.absentK,
   left Config.l2Slices s.absentL2, left Config.copyEngines s.absentCE, left Config.islands s.absentIsl,
   ((List.range Config.links).filter (fun l => decide (s.lanesOf l ≠ 0))).length]

/-- An attestation report: digests, nonce, counts, signature (R213; its layout is the model's, log 21). -/
def execAttestationReport (nonce : List Byte) (s : State) : Host.Outcome State Fault Refusal :=
  let d := s.digests.flatMap id ++ sliceB nonce 0 32 ++ s.present.flatMap (leBytes 8)
  .next { s with reports := .attest (d ++ Config.attestSign d) :: s.reports }

/-- The islands of a die, I/O dies 8 and 9 (R20). -/
def islandsOf (die : Nat) : List Nat := if die < 8 then [4 * die, 4 * die + 1, 4 * die + 2, 4 * die + 3] else if die < 10 then [16 + 2 * die, 17 + 2 * die] else []

/-- The thermal role lowers a hot die's islands, within each island's limits (R20, R214). -/
def execThermalThrottle (die mhz : Nat) (s : State) : Host.Outcome State Fault Refusal :=
  .next ((islandsOf die).foldl (fun s i => s.setMHz i (min mhz (s.mhz i))) s)

/-- At 115 degrees the device resets and halts, with code 0x0F (R214). -/
def execThermalReset (s : State) : Host.Outcome State Fault Refusal :=
  .next { State.reset with hostMem := s.hostMem, agenda := s.agenda, fresh := s.fresh, devstat := 3, bootCode := 0x0F }

end Sys2Proof.Machine
end

