-- ==== Sys2Proof/Machine/FpScalar.lean ====
section
/-!
DEFINITION. The FP scalar instructions (R222, R304 to R306).
-/

namespace Sys2Proof.Machine

open Sys2Proof

/-- Two sources, one rounded result with flags: QDEAD, then FPX, then the write (R306). -/
def fp2 (f : Nat → Nat → Nat × FFlags) (d a b : Reg) (e64 : Bool) (s : State) : Host.Outcome State Fault Refusal :=
  issue s fun e => do
    let (x, e) ← e.srcS a
    let (y, e) ← e.srcS b
    e.roomS d
    let r := f (fpArg e64 x) (fpArg e64 y)
    let e ← e.flags r.2
    (e.putS d (BitVec.ofNat 64 r.1)).next

/-- One source. -/
def fp1 (f : Word → Nat × FFlags) (d a : Reg) (s : State) : Host.Outcome State Fault Refusal :=
  issue s fun e => do
    let (x, e) ← e.srcS a
    e.roomS d
    let r := f x
    let e ← e.flags r.2
    (e.putS d (BitVec.ofNat 64 r.1)).next

def execFadd (d a b : Reg) (e : Bool) (m : BitVec 2) (s : State) : Host.Outcome State Fault Refusal := fp2 ((fmtD e).add m.toNat) d a b e s
def execFsub (d a b : Reg) (e : Bool) (m : BitVec 2) (s : State) : Host.Outcome State Fault Refusal := fp2 ((fmtD e).sub m.toNat) d a b e s
def execFmul (d a b : Reg) (e : Bool) (m : BitVec 2) (s : State) : Host.Outcome State Fault Refusal := fp2 ((fmtD e).mul m.toNat) d a b e s
def execFdiv (d a b : Reg) (e : Bool) (m : BitVec 2) (s : State) : Host.Outcome State Fault Refusal := fp2 ((fmtD e).div m.toNat) d a b e s
def execFmin (d a b : Reg) (e : Bool) (s : State) : Host.Outcome State Fault Refusal := fp2 ((fmtD e).minmax false) d a b e s
def execFmax (d a b : Reg) (e : Bool) (s : State) : Host.Outcome State Fault Refusal := fp2 ((fmtD e).minmax true) d a b e s

/-- FFMA reads sD after rs1 and rs2 (R304). -/
def execFfma (d a b : Reg) (e64 : Bool) (m : BitVec 2) (s : State) : Host.Outcome State Fault Refusal :=
  issue s fun e => do
    let (x, e) ← e.srcS a
    let (y, e) ← e.srcS b
    let (z, e) ← e.srcS d
    e.roomS d
    let r := (fmtD e64).fma m.toNat (fpArg e64 x) (fpArg e64 y) (fpArg e64 z)
    let e ← e.flags r.2
    (e.putS d (BitVec.ofNat 64 r.1)).next

def execFsqrt (d a : Reg) (e : Bool) (m : BitVec 2) (s : State) : Host.Outcome State Fault Refusal := fp1 (fun x => (fmtD e).sqrt m.toNat (fpArg e x)) d a s

/-- FCMP writes 1 or 0. -/
def fcmp (c : CmpOp) (e : Bool) (x y : Nat) : Nat × FFlags := let r := (fmtD e).cmp c x y; (if r.1 then 1 else 0, r.2)
def execFcmpEq (d a b : Reg) (e : Bool) (s : State) : Host.Outcome State Fault Refusal := fp2 (fcmp .eq e) d a b e s
def execFcmpLt (d a b : Reg) (e : Bool) (s : State) : Host.Outcome State Fault Refusal := fp2 (fcmp .lt e) d a b e s
def execFcmpLe (d a b : Reg) (e : Bool) (s : State) : Host.Outcome State Fault Refusal := fp2 (fcmp .le e) d a b e s
def execFcmpUn (d a b : Reg) (e : Bool) (s : State) : Host.Outcome State Fault Refusal := fp2 (fcmp .un e) d a b e s

/-- FCVT.f: FP32 to FP64 exactly, or FP64 to FP32 rounded (R305). -/
def execFcvtF (d a : Reg) (e : Bool) (m : BitVec 2) (s : State) : Host.Outcome State Fault Refusal :=
  fp1 (fun x => if e then fFP64.convert fFP32 m.toNat x.toNat else fFP32.convert fFP64 m.toNat (fpArg false x)) d a s
def execFcvtF2i (d a : Reg) (e : Bool) (m : BitVec 2) (s : State) : Host.Outcome State Fault Refusal :=
  fp1 (fun x => let r := (fmtD e).toIntClamp m.toNat (-(2 ^ 63)) (2 ^ 63 - 1) (fpArg e x); (modN 64 r.1, r.2)) d a s
def execFcvtF2u (d a : Reg) (e : Bool) (m : BitVec 2) (s : State) : Host.Outcome State Fault Refusal :=
  fp1 (fun x => let r := (fmtD e).toIntClamp m.toNat 0 (2 ^ 64 - 1) (fpArg e x); (modN 64 r.1, r.2)) d a s
def execFcvtI2f (d a : Reg) (e : Bool) (m : BitVec 2) (s : State) : Host.Outcome State Fault Refusal := fp1 (fun x => (fmtD e).ofInt m.toNat x.toInt) d a s
def execFcvtU2f (d a : Reg) (e : Bool) (m : BitVec 2) (s : State) : Host.Outcome State Fault Refusal := fp1 (fun x => (fmtD e).ofInt m.toNat x.toNat) d a s

end Sys2Proof.Machine
end

