-- ==== Sys2Proof/Machine/Vector.lean ====
section
/-!
DEFINITION. The vector instructions (R227, R376 to R378) and VCVT (R228, R379, R380).
-/

namespace Sys2Proof.Machine

open Sys2Proof

/-- The old destination when some lane keeps it. -/
def Exe.keepV (e : Exe) (d : Reg) (on : List Bool) (reads : Bool) : Except Stop Vec :=
  if reads || on.any (fun b => !b) then e.oldV d else .ok 0

/-- The mould of R376: sources vs1, vs2; lanes; FPX; the write. -/
def vop (f : Nat → LaneFn) (reads : Bool) (d a b : Reg) (p t : BitVec 3) (s : State) : Host.Outcome State Fault Refusal :=
  issue s fun e => do
    let (x, e) ← e.srcV a
    let (y, e) ← e.srcV b
    let pm ← e.srcP p
    let on := onLanes pm (lanesN t)
    let old ← e.keepV d on reads
    e.roomV d
    let r := mapLanes (f e.x.vrm) on (lanes t x) (lanes t y) (lanes t old)
    let e ← e.flags (orFlags r)
    (e.putV d (ofLanes (tyW t) (r.map Prod.fst))).next

def execVadd (d a b : Reg) (p t : BitVec 3) (s : State) : Host.Outcome State Fault Refusal := vop (laneAdd t) false d a b p t s
def execVsub (d a b : Reg) (p t : BitVec 3) (s : State) : Host.Outcome State Fault Refusal := vop (laneSub t) false d a b p t s
def execVmul (d a b : Reg) (p t : BitVec 3) (s : State) : Host.Outcome State Fault Refusal := vop (laneMul t) false d a b p t s
def execVfma (d a b : Reg) (p t : BitVec 3) (s : State) : Host.Outcome State Fault Refusal := vop (laneFma t) true d a b p t s
def execVmin (d a b : Reg) (p t : BitVec 3) (s : State) : Host.Outcome State Fault Refusal := vop (fun _ => laneMin t) false d a b p t s
def execVmax (d a b : Reg) (p t : BitVec 3) (s : State) : Host.Outcome State Fault Refusal := vop (fun _ => laneMax t) false d a b p t s
def execVand (d a b : Reg) (p t : BitVec 3) (s : State) : Host.Outcome State Fault Refusal := vop (fun _ => laneInt (fun a b _ => a &&& b)) false d a b p t s
def execVor (d a b : Reg) (p t : BitVec 3) (s : State) : Host.Outcome State Fault Refusal := vop (fun _ => laneInt (fun a b _ => a ||| b)) false d a b p t s
def execVxor (d a b : Reg) (p t : BitVec 3) (s : State) : Host.Outcome State Fault Refusal := vop (fun _ => laneInt (fun a b _ => a ^^^ b)) false d a b p t s
def execVshl (d a b : Reg) (p t : BitVec 3) (s : State) : Host.Outcome State Fault Refusal := vop (fun _ => laneShl t) false d a b p t s
def execVshr (d a b : Reg) (p t : BitVec 3) (s : State) : Host.Outcome State Fault Refusal := vop (fun _ => laneShr t) false d a b p t s
def execVsar (d a b : Reg) (p t : BitVec 3) (s : State) : Host.Outcome State Fault Refusal := vop (fun _ => laneSar t) false d a b p t s

/-- VSEL writes every lane (R227). -/
def selLanes : List Bool → List Nat → List Nat → List Nat
  | p :: ps, a :: as_, b :: bs => (if p then a else b) :: selLanes ps as_ bs
  | _, _, _ => []
def execVsel (d a b : Reg) (p t : BitVec 3) (s : State) : Host.Outcome State Fault Refusal :=
  issue s fun e => do
    let (x, e) ← e.srcV a
    let (y, e) ← e.srcV b
    let pm ← e.srcP p
    e.roomV d
    (e.putV d (ofLanes (tyW t) (selLanes (onLanes pm (lanesN t)) (lanes t x) (lanes t y)))).next

/-- VCMP: bit i of pD is the relation on an on lane, 0 elsewhere (R377). -/
def cmpLanes (t : BitVec 3) (c : BitVec 2) : List Bool → List Nat → List Nat → List (Nat × FFlags)
  | p :: ps, a :: as_, b :: bs =>
    (if p then let r := laneCmp t c a b; ((if r.1 then 1 else 0), r.2) else (0, 0#5)) :: cmpLanes t c ps as_ bs
  | _, _, _ => []
def execVcmp (c : BitVec 2) (q : BitVec 3) (a b : Reg) (p t : BitVec 3) (s : State) : Host.Outcome State Fault Refusal :=
  issue s fun e => do
    let (x, e) ← e.srcV a
    let (y, e) ← e.srcV b
    let pm ← e.srcP p
    let r := cmpLanes t c (onLanes pm (lanesN t)) (lanes t x) (lanes t y)
    let e ← e.flags (orFlags r)
    (e.putP q (BitVec.ofNat 64 (packBits 1 (r.map Prod.fst)))).next

/-- VBCAST: every on lane takes the scalar's low bits (R377). -/
def execVbcast (d a : Reg) (p t : BitVec 3) (s : State) : Host.Outcome State Fault Refusal :=
  issue s fun e => do
    let (x, e) ← e.srcS a
    let pm ← e.srcP p
    let on := onLanes pm (lanesN t)
    let old ← e.keepV d on false
    e.roomV d
    (e.putV d (ofLanes (tyW t) (selLanes on (List.replicate (lanesN t) (x.toNat % 2 ^ tyW t)) (lanes t old)))).next

/-- VPERM: lane i takes vs1's lane (vs2 lane i mod lanes) (R377). -/
def execVperm (d a b : Reg) (p t : BitVec 3) (s : State) : Host.Outcome State Fault Refusal :=
  issue s fun e => do
    let (x, e) ← e.srcV a
    let (y, e) ← e.srcV b
    let pm ← e.srcP p
    let on := onLanes pm (lanesN t)
    let old ← e.keepV d on false
    e.roomV d
    let xs := lanes t x
    let r := (lanes t y).map (fun i => (xs[i % lanesN t]?).getD 0)
    (e.putV d (ofLanes (tyW t) (selLanes on r (lanes t old)))).next

/-- The on lanes of a vector, in increasing lane. -/
def pickLanes : List Bool → List Nat → List Nat
  | p :: ps, a :: as_ => if p then a :: pickLanes ps as_ else pickLanes ps as_
  | _, _ => []
def execVred (d a : Reg) (o : BitVec 2) (p t : BitVec 3) (s : State) : Host.Outcome State Fault Refusal :=
  issue s fun e => do
    let (x, e) ← e.srcV a
    let pm ← e.srcP p
    e.roomS d
    let r := vredVal t o e.x.vrm (pickLanes (onLanes pm (lanesN t)) (lanes t x))
    let e ← e.flags r.2
    (e.putS d (BitVec.ofNat 64 r.1)).next

/-! ## VCVT -/

/-- Form 0: n = 512 / the larger width; lanes at or above n become 0 (R379). -/
def execVcvtConvert (d a : Reg) (x p st : BitVec 3) (s : State) : Host.Outcome State Fault Refusal :=
  issue s fun e => do
    let (v, e) ← e.srcV a
    let pm ← e.srcP p
    let n := 512 / max (tyW st) (tyW x)
    let on := onLanes pm n
    let old ← e.keepV d on false
    e.roomV d
    let src := unpackBits (tyW st) n v.toNat
    let r := mapLanes (fun q _ _ => cvtLane st x e.x.vrm q) on src src (unpackBits (tyW x) n old.toNat)
    let e ← e.flags (orFlags r)
    (e.putV d (ofLanes (tyW x) (r.map Prod.fst))).next

/-- The second register of a pair. -/
def pairReg (r : Reg) : Reg := r + 1#5

/-- The 32 source values of form 1: the pair for fp32, one register for bf16 or fp16 (R379). -/
def Exe.mxSource (e : Exe) (a : Reg) (st : BitVec 3) : Except Stop (List Nat × Exe) :=
  if st = 6#3 then do
    let (x, e) ← e.srcV a
    let (y, e) ← e.srcV (pairReg a)
    .ok (lanes st x ++ lanes st y, e)
  else do
    let (x, e) ← e.srcV a
    .ok (lanes st x, e)

/-- Form 1: ToMX, elements from byte 0, the scale at byte 32, zeros elsewhere. -/
def execVcvtTomx (d a : Reg) (n : Bool) (f : BitVec 4) (st : BitVec 3) (s : State) : Host.Outcome State Fault Refusal :=
  issue s fun e => do
    let (xs, e) ← e.mxSource a st
    e.roomV d
    let (sc, es, fl) := toMX f.toNat n (xs.map (tyFmt st).decode)
    let e ← e.flags fl
    (e.putV d (BitVec.ofNat 512 (packBits (mxWidth f.toNat) es + sc * 2 ^ 256))).next

/-- Form 2: X * P of each element, rounded by VRM (R379). -/
def execVcvtFrommx (d a : Reg) (f : BitVec 4) (st : BitVec 3) (s : State) : Host.Outcome State Fault Refusal :=
  issue s fun e => do
    let (x, e) ← e.srcV a
    e.roomV d
    if st = 6#3 then e.roomV (pairReg d) else .ok ()
    let sc := x.toNat / 2 ^ 256 % 256
    let r := (unpackBits (mxWidth f.toNat) 32 x.toNat).map (fun q => (tyFmt st).ofFV e.x.vrm (mxValue f.toNat sc q))
    let e ← e.flags (orFlags r)
    let vs := r.map Prod.fst
    if st = 6#3 then ((e.putV d (ofLanes 32 (vs.take 16))).putV (pairReg d) (ofLanes 32 (vs.drop 16))).next
    else (e.putV d (ofLanes 16 vs)).next

end Sys2Proof.Machine
end

