-- ==== Sys2Proof/Machine/Dispatch.lean ====
section
/-!
DEFINITION. One arm per constructor: each calls the meaning of its instruction or event.
-/

namespace Sys2Proof.Machine

open Sys2Proof

def exec (i : Instr) (s : State) : Host.Outcome State Fault Refusal :=
  match i with
  | .add d a b w => Sys2Proof.Machine.execAdd d a b w s
  | .sub d a b w => Sys2Proof.Machine.execSub d a b w s
  | .mul d a b w => Sys2Proof.Machine.execMul d a b w s
  | .mulh d a b => Sys2Proof.Machine.execMulh d a b s
  | .mulhu d a b => Sys2Proof.Machine.execMulhu d a b s
  | .div d a b w => Sys2Proof.Machine.execDiv d a b w s
  | .divu d a b w => Sys2Proof.Machine.execDivu d a b w s
  | .rem d a b w => Sys2Proof.Machine.execRem d a b w s
  | .remu d a b w => Sys2Proof.Machine.execRemu d a b w s
  | .and d a b w => Sys2Proof.Machine.execAnd d a b w s
  | .or d a b w => Sys2Proof.Machine.execOr d a b w s
  | .xor d a b w => Sys2Proof.Machine.execXor d a b w s
  | .shl d a b w => Sys2Proof.Machine.execShl d a b w s
  | .shr d a b w => Sys2Proof.Machine.execShr d a b w s
  | .sar d a b w => Sys2Proof.Machine.execSar d a b w s
  | .slt d a b w => Sys2Proof.Machine.execSlt d a b w s
  | .sltu d a b w => Sys2Proof.Machine.execSltu d a b w s
  | .min d a b w => Sys2Proof.Machine.execMin d a b w s
  | .max d a b w => Sys2Proof.Machine.execMax d a b w s
  | .minu d a b w => Sys2Proof.Machine.execMinu d a b w s
  | .maxu d a b w => Sys2Proof.Machine.execMaxu d a b w s
  | .clz d a w => Sys2Proof.Machine.execClz d a w s
  | .popc d a w => Sys2Proof.Machine.execPopc d a w s
  | .addK d a w k => Sys2Proof.Machine.execAddK d a w k s
  | .subK d a w k => Sys2Proof.Machine.execSubK d a w k s
  | .mulK d a w k => Sys2Proof.Machine.execMulK d a w k s
  | .mulhK d a k => Sys2Proof.Machine.execMulhK d a k s
  | .mulhuK d a k => Sys2Proof.Machine.execMulhuK d a k s
  | .divK d a w k => Sys2Proof.Machine.execDivK d a w k s
  | .divuK d a w k => Sys2Proof.Machine.execDivuK d a w k s
  | .remK d a w k => Sys2Proof.Machine.execRemK d a w k s
  | .remuK d a w k => Sys2Proof.Machine.execRemuK d a w k s
  | .andK d a w k => Sys2Proof.Machine.execAndK d a w k s
  | .orK d a w k => Sys2Proof.Machine.execOrK d a w k s
  | .xorK d a w k => Sys2Proof.Machine.execXorK d a w k s
  | .shlK d a w k => Sys2Proof.Machine.execShlK d a w k s
  | .shrK d a w k => Sys2Proof.Machine.execShrK d a w k s
  | .sarK d a w k => Sys2Proof.Machine.execSarK d a w k s
  | .sltK d a w k => Sys2Proof.Machine.execSltK d a w k s
  | .sltuK d a w k => Sys2Proof.Machine.execSltuK d a w k s
  | .minK d a w k => Sys2Proof.Machine.execMinK d a w k s
  | .maxK d a w k => Sys2Proof.Machine.execMaxK d a w k s
  | .minuK d a w k => Sys2Proof.Machine.execMinuK d a w k s
  | .maxuK d a w k => Sys2Proof.Machine.execMaxuK d a w k s
  | .addi d a imm => Sys2Proof.Machine.execAddi d a imm s
  | .andi d a imm => Sys2Proof.Machine.execAndi d a imm s
  | .ori d a imm => Sys2Proof.Machine.execOri d a imm s
  | .xori d a imm => Sys2Proof.Machine.execXori d a imm s
  | .slti d a imm => Sys2Proof.Machine.execSlti d a imm s
  | .shiShl d a n => Sys2Proof.Machine.execShiShl d a n s
  | .shiShr d a n => Sys2Proof.Machine.execShiShr d a n s
  | .shiSar d a n => Sys2Proof.Machine.execShiSar d a n s
  | .lih d k imm => Sys2Proof.Machine.execLih d k imm s
  | .fadd d a b e m => Sys2Proof.Machine.execFadd d a b e m s
  | .fsub d a b e m => Sys2Proof.Machine.execFsub d a b e m s
  | .fmul d a b e m => Sys2Proof.Machine.execFmul d a b e m s
  | .ffma d a b e m => Sys2Proof.Machine.execFfma d a b e m s
  | .fdiv d a b e m => Sys2Proof.Machine.execFdiv d a b e m s
  | .fsqrt d a e m => Sys2Proof.Machine.execFsqrt d a e m s
  | .fmin d a b e => Sys2Proof.Machine.execFmin d a b e s
  | .fmax d a b e => Sys2Proof.Machine.execFmax d a b e s
  | .fcmpEq d a b e => Sys2Proof.Machine.execFcmpEq d a b e s
  | .fcmpLt d a b e => Sys2Proof.Machine.execFcmpLt d a b e s
  | .fcmpLe d a b e => Sys2Proof.Machine.execFcmpLe d a b e s
  | .fcmpUn d a b e => Sys2Proof.Machine.execFcmpUn d a b e s
  | .fcvtF d a e m => Sys2Proof.Machine.execFcvtF d a e m s
  | .fcvtF2i d a e m => Sys2Proof.Machine.execFcvtF2i d a e m s
  | .fcvtF2u d a e m => Sys2Proof.Machine.execFcvtF2u d a e m s
  | .fcvtI2f d a e m => Sys2Proof.Machine.execFcvtI2f d a e m s
  | .fcvtU2f d a e m => Sys2Proof.Machine.execFcvtU2f d a e m s
  | .ld z x h a imm => Sys2Proof.Machine.execLd z x h a imm s
  | .st z h a imm => Sys2Proof.Machine.execSt z h a imm s
  | .vld h a imm => Sys2Proof.Machine.execVld h a imm s
  | .vst h a imm => Sys2Proof.Machine.execVst h a imm s
  | .pref l a imm => Sys2Proof.Machine.execPref l a imm s
  | .vgath a b p t => Sys2Proof.Machine.execVgath a b p t s
  | .vscat a b p t => Sys2Proof.Machine.execVscat a b p t s
  | .brd d a b n => Sys2Proof.Machine.execBrd d a b n s
  | .bwr d a b n => Sys2Proof.Machine.execBwr d a b n s
  | .copy d a => Sys2Proof.Machine.execCopy d a s
  | .amoAdd a b w r m o => Sys2Proof.Machine.execAmoAdd a b w r m o s
  | .amoFadd a b w r m o => Sys2Proof.Machine.execAmoFadd a b w r m o s
  | .amoMin a b w r m o => Sys2Proof.Machine.execAmoMin a b w r m o s
  | .amoMax a b w r m o => Sys2Proof.Machine.execAmoMax a b w r m o s
  | .amoMinu a b w r m o => Sys2Proof.Machine.execAmoMinu a b w r m o s
  | .amoMaxu a b w r m o => Sys2Proof.Machine.execAmoMaxu a b w r m o s
  | .amoAnd a b w r m o => Sys2Proof.Machine.execAmoAnd a b w r m o s
  | .amoOr a b w r m o => Sys2Proof.Machine.execAmoOr a b w r m o s
  | .amoXor a b w r m o => Sys2Proof.Machine.execAmoXor a b w r m o s
  | .amoSwap a b w r m o => Sys2Proof.Machine.execAmoSwap a b w r m o s
  | .amoCas c a b w r m o => Sys2Proof.Machine.execAmoCas c a b w r m o s
  | .beq a b o => Sys2Proof.Machine.execBeq a b o s
  | .bne a b o => Sys2Proof.Machine.execBne a b o s
  | .blt a b o => Sys2Proof.Machine.execBlt a b o s
  | .bge a b o => Sys2Proof.Machine.execBge a b o s
  | .bltu a b o => Sys2Proof.Machine.execBltu a b o s
  | .bgeu a b o => Sys2Proof.Machine.execBgeu a b o s
  | .bpa p o => Sys2Proof.Machine.execBpa p o s
  | .bpn p o => Sys2Proof.Machine.execBpn p o s
  | .jal d o => Sys2Proof.Machine.execJal d o s
  | .jr d a o => Sys2Proof.Machine.execJr d a o s
  | .send v a b s_ => Sys2Proof.Machine.execSend v a b s_ s
  | .sendo v a b s_ => Sys2Proof.Machine.execSendo v a b s_ s
  | .spawn v => Sys2Proof.Machine.execSpawn v s
  | .done => Sys2Proof.Machine.execDone s
  | .gset a b m => Sys2Proof.Machine.execGset a b m s
  | .gadd a b m => Sys2Proof.Machine.execGadd a b m s
  | .gmax a b m => Sys2Proof.Machine.execGmax a b m s
  | .gget a => Sys2Proof.Machine.execGget a s
  | .bara v a g r => Sys2Proof.Machine.execBara v a g r s
  | .lnch v a => Sys2Proof.Machine.execLnch v a s
  | .lend => Sys2Proof.Machine.execLend s
  | .vadd d a b p t => Sys2Proof.Machine.execVadd d a b p t s
  | .vsub d a b p t => Sys2Proof.Machine.execVsub d a b p t s
  | .vmul d a b p t => Sys2Proof.Machine.execVmul d a b p t s
  | .vfma d a b p t => Sys2Proof.Machine.execVfma d a b p t s
  | .vmin d a b p t => Sys2Proof.Machine.execVmin d a b p t s
  | .vmax d a b p t => Sys2Proof.Machine.execVmax d a b p t s
  | .vand d a b p t => Sys2Proof.Machine.execVand d a b p t s
  | .vor d a b p t => Sys2Proof.Machine.execVor d a b p t s
  | .vxor d a b p t => Sys2Proof.Machine.execVxor d a b p t s
  | .vshl d a b p t => Sys2Proof.Machine.execVshl d a b p t s
  | .vshr d a b p t => Sys2Proof.Machine.execVshr d a b p t s
  | .vsar d a b p t => Sys2Proof.Machine.execVsar d a b p t s
  | .vsel d a b p t => Sys2Proof.Machine.execVsel d a b p t s
  | .vcmp c q a b p t => Sys2Proof.Machine.execVcmp c q a b p t s
  | .vbcast d s_ p t => Sys2Proof.Machine.execVbcast d s_ p t s
  | .vperm d a b p t => Sys2Proof.Machine.execVperm d a b p t s
  | .vred d a o p t => Sys2Proof.Machine.execVred d a o p t s
  | .vcvtConvert d a x p s_ => Sys2Proof.Machine.execVcvtConvert d a x p s_ s
  | .vcvtTomx d a n f s_ => Sys2Proof.Machine.execVcvtTomx d a n f s_ s
  | .vcvtFrommx d a f s_ => Sys2Proof.Machine.execVcvtFrommx d a f s_ s
  | .mma a b s_ f g z k j n => Sys2Proof.Machine.execMma a b s_ f g z k j n s
  | .mring a b n => Sys2Proof.Machine.execMring a b n s
  | .mradv a n => Sys2Proof.Machine.execMradv a n s
  | .mzero s_ => Sys2Proof.Machine.execMzero s_ s
  | .mst d a b m s_ => Sys2Proof.Machine.execMst d a b m s_ s
  | .fenceAcq s_ => Sys2Proof.Machine.execFenceAcq s_ s
  | .fenceRel s_ => Sys2Proof.Machine.execFenceRel s_ s
  | .fenceFull s_ => Sys2Proof.Machine.execFenceFull s_ s
  | .spill d a t => Sys2Proof.Machine.execSpill d a t s
  | .fill d a t => Sys2Proof.Machine.execFill d a t s
  | .tokw t => Sys2Proof.Machine.execTokw t s
  | .getsr d n => Sys2Proof.Machine.execGetsr d n s
  | .setsr a n => Sys2Proof.Machine.execSetsr a n s
  | .nop => Sys2Proof.Machine.execNop s
  | .yield => Sys2Proof.Machine.execYield s
  | .brk a c => Sys2Proof.Machine.execBrk a c s
  | .trap a c => Sys2Proof.Machine.execTrap a c s
  | .tretRetry => Sys2Proof.Machine.execTretRetry s
  | .tretSkip => Sys2Proof.Machine.execTretSkip s
  | .tretKill => Sys2Proof.Machine.execTretKill s
  | .gatew a b => Sys2Proof.Machine.execGatew a b s
  | .freeze a b => Sys2Proof.Machine.execFreeze a b s
  | .thaw a b => Sys2Proof.Machine.execThaw a b s
  | .ktlb a b => Sys2Proof.Machine.execKtlb a b s
  | .markq a b g => Sys2Proof.Machine.execMarkq a b g s
  | .aset a imm => Sys2Proof.Machine.execAset a imm s
  | .acalcAdd a b c => Sys2Proof.Machine.execAcalcAdd a b c s
  | .acalcSub a b c => Sys2Proof.Machine.execAcalcSub a b c s
  | .acalcMul a b c => Sys2Proof.Machine.execAcalcMul a b c s
  | .acalcDiv a b c => Sys2Proof.Machine.execAcalcDiv a b c s
  | .acalcRem a b c => Sys2Proof.Machine.execAcalcRem a b c s
  | .acalcAnd a b c => Sys2Proof.Machine.execAcalcAnd a b c s
  | .acalcOr a b c => Sys2Proof.Machine.execAcalcOr a b c s
  | .acalcXor a b c => Sys2Proof.Machine.execAcalcXor a b c s
  | .acalcShl a b c => Sys2Proof.Machine.execAcalcShl a b c s
  | .acalcShr a b c => Sys2Proof.Machine.execAcalcShr a b c s
  | .acalcMin a b c => Sys2Proof.Machine.execAcalcMin a b c s
  | .acalcMax a b c => Sys2Proof.Machine.execAcalcMax a b c s
  | .acalcEq a b c => Sys2Proof.Machine.execAcalcEq a b c s
  | .acalcLt a b c => Sys2Proof.Machine.execAcalcLt a b c s
  | .acalcLtu a b c => Sys2Proof.Machine.execAcalcLtu a b c s
  | .goto imm => Sys2Proof.Machine.execGoto imm s
  | .goif a imm => Sys2Proof.Machine.execGoif a imm s
  | .gosub imm => Sys2Proof.Machine.execGosub imm s
  | .goret => Sys2Proof.Machine.execGoret s
  | .endp => Sys2Proof.Machine.execEndp s
  | .ctxnew a b => Sys2Proof.Machine.execCtxnew a b s
  | .ctxfork a b => Sys2Proof.Machine.execCtxfork a b s
  | .ctxdrop a => Sys2Proof.Machine.execCtxdrop a s
  | .ctxtrim a b => Sys2Proof.Machine.execCtxtrim a b s
  | .ctxlen a b => Sys2Proof.Machine.execCtxlen a b s
  | .ctxpinHold a => Sys2Proof.Machine.execCtxpinHold a s
  | .ctxpinRelease a => Sys2Proof.Machine.execCtxpinRelease a s
  | .append a b => Sys2Proof.Machine.execAppend a b s
  | .genu a b c d imm => Sys2Proof.Machine.execGenu a b c d imm s
  | .score a b c => Sys2Proof.Machine.execScore a b c s
  | .choose a b c app sep => Sys2Proof.Machine.execChoose a b c app sep s
  | .tlit a imm => Sys2Proof.Machine.execTlit a imm s
  | .tcat a b c => Sys2Proof.Machine.execTcat a b c s
  | .tcut a b c d => Sys2Proof.Machine.execTcut a b c d s
  | .tlen a b => Sys2Proof.Machine.execTlen a b s
  | .tfind a b c d => Sys2Proof.Machine.execTfind a b c d s
  | .tcmp a b c => Sys2Proof.Machine.execTcmp a b c s
  | .tadd a b => Sys2Proof.Machine.execTadd a b s
  | .tget a b c => Sys2Proof.Machine.execTget a b c s
  | .post a b c imm => Sys2Proof.Machine.execPost a b c imm s
  | .await a b imm => Sys2Proof.Machine.execAwait a b imm s
  | .invoke a b => Sys2Proof.Machine.execInvoke a b s
  | .stamp a => Sys2Proof.Machine.execStamp a s
  | .qdoor q data => Sys2Proof.Machine.execQdoor q data s
  | .lsub data hint => Sys2Proof.Machine.execLsub data hint s
  | .mbox slot data => Sys2Proof.Machine.execMbox slot data s
  | .bindQueue => Sys2Proof.Machine.execBindQueue s
  | .unbindQueue => Sys2Proof.Machine.execUnbindQueue s
  | .unbindQueueDrained => Sys2Proof.Machine.execUnbindQueueDrained s
  | .releaseSlot => Sys2Proof.Machine.execReleaseSlot s
  | .registerModelImage hint => Sys2Proof.Machine.execRegisterModelImage hint s
  | .extendHostMemory => Sys2Proof.Machine.execExtendHostMemory s
  | .killProgram => Sys2Proof.Machine.execKillProgram s
  | .withdrawModelImage => Sys2Proof.Machine.execWithdrawModelImage s
  | .kreq slot => Sys2Proof.Machine.execKreq slot s
  | .fullFree slot e => Sys2Proof.Machine.execFullFree slot e s
  | .deferredNoticePost slot => Sys2Proof.Machine.execDeferredNoticePost slot s
  | .hostLoad addr n => Sys2Proof.Machine.execHostLoad addr n s
  | .hostStore addr data => Sys2Proof.Machine.execHostStore addr data s
  | .registerWrite off data => Sys2Proof.Machine.execRegisterWrite off data s
  | .launchPacket src hint => Sys2Proof.Machine.execLaunchPacket src hint s
  | .dependPacket q => Sys2Proof.Machine.execDependPacket q s
  | .signalPacket src => Sys2Proof.Machine.execSignalPacket src s
  | .fetchFencePacket q => Sys2Proof.Machine.execFetchFencePacket q s
  | .fetchFenceRelease q => Sys2Proof.Machine.execFetchFenceRelease q s
  | .stampPacket src => Sys2Proof.Machine.execStampPacket src s
  | .slotFire addr => Sys2Proof.Machine.execSlotFire addr s
  | .pendingLaunchPlace lid => Sys2Proof.Machine.execPendingLaunchPlace lid s
  | .messageArrival id => Sys2Proof.Machine.execMessageArrival id s
  | .messageHoldTimeout id => Sys2Proof.Machine.execMessageHoldTimeout id s
  | .activationStart t => Sys2Proof.Machine.execActivationStart t s
  | .stealRequest id => Sys2Proof.Machine.execStealRequest id s
  | .emptyStealReply id => Sys2Proof.Machine.execEmptyStealReply id s
  | .rinseTokenVisit lid => Sys2Proof.Machine.execRinseTokenVisit lid s
  | .baraArrival id => Sys2Proof.Machine.execBaraArrival id s
  | .brdComplete id => Sys2Proof.Machine.execBrdComplete id s
  | .bwrComplete id => Sys2Proof.Machine.execBwrComplete id s
  | .copyEngineChunk ctx level => Sys2Proof.Machine.execCopyEngineChunk ctx level s
  | .pressCommandStart b => Sys2Proof.Machine.execPressCommandStart b s
  | .mmaRetire b => Sys2Proof.Machine.execMmaRetire b s
  | .mzeroExecute b => Sys2Proof.Machine.execMzeroExecute b s
  | .mstExecute b => Sys2Proof.Machine.execMstExecute b s
  | .mstComplete id => Sys2Proof.Machine.execMstComplete id s
  | .accumulatorBankSwap b => Sys2Proof.Machine.execAccumulatorBankSwap b s
  | .loadPerformed id => Sys2Proof.Machine.execLoadPerformed id s
  | .storeTaken id => Sys2Proof.Machine.execStoreTaken id s
  | .amoPerform id => Sys2Proof.Machine.execAmoPerform id s
  | .spillComplete id => Sys2Proof.Machine.execSpillComplete id s
  | .fillDeliver id => Sys2Proof.Machine.execFillDeliver id s
  | .heldAccessResume id => Sys2Proof.Machine.execHeldAccessResume id s
  | .heldAccessFail id => Sys2Proof.Machine.execHeldAccessFail id s
  | .translationWalkComplete b ctx va => Sys2Proof.Machine.execTranslationWalkComplete b ctx va s
  | .watchdogExpiry t => Sys2Proof.Machine.execWatchdogExpiry t s
  | .softError x => Sys2Proof.Machine.execSoftError x s
  | .spawnArrive id => Sys2Proof.Machine.execSpawnArrive id s
  | .gainUpdateApply id => Sys2Proof.Machine.execGainUpdateApply id s
  | .pileSample lid => Sys2Proof.Machine.execPileSample lid s
  | .pileBroadcastReceive lid b => Sys2Proof.Machine.execPileBroadcastReceive lid b s
  | .pileOffer t => Sys2Proof.Machine.execPileOffer t s
  | .pileStealRequest id => Sys2Proof.Machine.execPileStealRequest id s
  | .pileStealReply id => Sys2Proof.Machine.execPileStealReply id s
  | .footprintFetchComplete id => Sys2Proof.Machine.execFootprintFetchComplete id s
  | .pileRetire id => Sys2Proof.Machine.execPileRetire id s
  | .freezeCapturePoint core => Sys2Proof.Machine.execFreezeCapturePoint core s
  | .freezeComplete b => Sys2Proof.Machine.execFreezeComplete b s
  | .thawComplete b => Sys2Proof.Machine.execThawComplete b s
  | .markedReplayArrival id => Sys2Proof.Machine.execMarkedReplayArrival id s
  | .batchingWindowClose img => Sys2Proof.Machine.execBatchingWindowClose img s
  | .strictStepPlace slot => Sys2Proof.Machine.execStrictStepPlace slot s
  | .stepLaunchComplete id => Sys2Proof.Machine.execStepLaunchComplete id s
  | .tokenMarkWrite mark line data token => Sys2Proof.Machine.execTokenMarkWrite mark line data token s
  | .awaitTimeout slot => Sys2Proof.Machine.execAwaitTimeout slot s
  | .invokeComplete slot => Sys2Proof.Machine.execInvokeComplete slot s
  | .residencyPlan op => Sys2Proof.Machine.execResidencyPlan op s
  | .pageFoldComplete pti => Sys2Proof.Machine.execPageFoldComplete pti s
  | .pageShelveComplete pti => Sys2Proof.Machine.execPageShelveComplete pti s
  | .pageUnfoldComplete pti => Sys2Proof.Machine.execPageUnfoldComplete pti s
  | .nvmeReadFail pti => Sys2Proof.Machine.execNvmeReadFail pti s
  | .detachCopyComplete cid => Sys2Proof.Machine.execDetachCopyComplete cid s
  | .pageRelease pti => Sys2Proof.Machine.execPageRelease pti s
  | .sequencerRebuild => Sys2Proof.Machine.execSequencerRebuild s
  | .ethernetFrameIngress port frame => Sys2Proof.Machine.execEthernetFrameIngress port frame s
  | .heldDepositIssue port => Sys2Proof.Machine.execHeldDepositIssue port s
  | .nvmeSubmissionCheck lease cmd => Sys2Proof.Machine.execNvmeSubmissionCheck lease cmd s
  | .linkLaneFault link => Sys2Proof.Machine.execLinkLaneFault link s
  | .bundleFault b => Sys2Proof.Machine.execBundleFault b s
  | .channelFault c => Sys2Proof.Machine.execChannelFault c s
  | .kernelCoreFault k => Sys2Proof.Machine.execKernelCoreFault k s
  | .powerOnReset boot => Sys2Proof.Machine.execPowerOnReset boot s
  | .thermalThrottle die mhz => Sys2Proof.Machine.execThermalThrottle die mhz s
  | .thermalReset => Sys2Proof.Machine.execThermalReset s
  | .reservedEncoding w => Sys2Proof.Machine.execReservedEncoding w s
  | .livikIllopWord w => Sys2Proof.Machine.execLivikIllopWord w s
  | .serviceRequestUnknownCode => Sys2Proof.Machine.execServiceRequestUnknownCode s
  | .l2SliceFault n => Sys2Proof.Machine.execL2SliceFault n s
  | .copyEngineFault n => Sys2Proof.Machine.execCopyEngineFault n s
  | .islandFault n => Sys2Proof.Machine.execIslandFault n s
  | .tlarriudPeerAccess link acc => Sys2Proof.Machine.execTlarriudPeerAccess link acc s
  | .attestationReport nonce => Sys2Proof.Machine.execAttestationReport nonce s

end Sys2Proof.Machine
end

