-- ==== Sys2Proof/Machine/Fetch.lean ====
section
/-!
DEFINITION. One issue of a thread set or of a program: the traps that come before it, the fetch of its words, their decoding, and the
meaning (R82, R176, R177, R218, R229, R230; log 10).
-/

namespace Sys2Proof.Machine

open Sys2Proof

/-- What fetching gives: one or two words, a trap, or a wait for a page that is not resident. -/
inductive Fetched where
  | words (w w2 : Word32)
  | trap (c : Cause) (addr : Word)
  | held
  deriving DecidableEq, Repr

/-- One code word, checked with EX; of one that a firewall drops, a free value (R18, R212; log 43). -/
def State.fetchOne (s : State) (v : View) (pc : Word) : Fetched :=
  match s.check v pc 4 rEX with
  | .error (c, a) => .trap c a
  | .ok bs => if anyNr bs then .held else .words (w32 ((wholeSegs bs).flatMap s.take_)) 0

/-- The fetch of a code word that a firewall dropped is counted (R212). -/
def State.noteWord (s : State) (v : View) (pc : Word) : State :=
  match s.check v pc 4 rEX with
  | .error _ => s
  | .ok bs => (wholeSegs bs).foldl State.noteBar s

/-- The same of every word of an instruction. -/
def State.noteFetch (s : State) (v : View) (pc : Word) (w : Word32) : State :=
  if isLForm w then (s.noteWord v pc).noteWord v (pc + 4) else s.noteWord v pc

/-- The words at PC: both words of an L-form are fetched and checked before it executes (R218). -/
def State.fetchWords (s : State) (v : View) (pc : Word) : Fetched :=
  match s.fetchOne v pc with
  | .words w _ => if isLForm w then (match s.fetchOne v (pc + 4) with
      | .words w2 _ => .words w w2
      | r => r) else .words w 0
  | r => r

/-- Run the words that were fetched. -/
def State.runWords (s : State) (w w2 : Word32) : Host.Outcome State Fault Refusal :=
  match decodeNorson w w2 with
  | .ok i => exec i s
  | .error _ => execReservedEncoding w s

/-- A trap that an earlier operation left for the thread set's next instruction: of a block operation (R280), or of a footprint fetch (R127). -/
def ThreadSet.waiting (x : ThreadSet) : Option (Cause × Word) :=
  match x.pend with
  | some e => some e
  | none => x.act.bind Activation.fetchTrap
def ThreadSet.noWaiting (x : ThreadSet) : ThreadSet :=
  match x.pend with
  | some _ => { x with pend := none }
  | none => { x with act := x.act.map (fun a => { a with fetchTrap := none }) }

/-- An instruction has taken a trap of its own: the level has risen, or the context is killed. -/
def State.tookTrap (s u : State) (t : TsId) : Bool :=
  decide ((s.tsGet t).tlev < (u.tsGet t).tlev) || (decide (s.reports.length < u.reports.length) && (match u.reports with
    | .kill _ :: _ => true
    | _ => false))

/-- The machine of an instruction's own checks: undamaged data, every value there, nothing that it would have to wait for, and a handler for the
trap that they raise. -/
def State.ampleTs (s : State) (t : TsId) (v : Vec) : State :=
  let x := (s.tsGet t).sound v
  ({ s with ops := s.ops.filter (fun o => o.parked || decide (o.kind = .brd)) } : State).tsSet t { x with
    slq := x.slq.map (fun q => match q with | .ready w => .ready w | _ => .ready (v.setWidth 64))
    vlq := x.vlq.map (fun q => match q with | .ready w => .ready w | _ => .ready v)
    tvec1 := 4, tvec2 := 4 }

/-- The trap that the words raise on such a machine: from the bank that it is saved to, or, at level 2, from the kill's report (R178, R181). -/
def State.ownTrap (s : State) (t : TsId) (w w2 : Word32) (v : Vec) : Option (Nat × Word) :=
  let z := s.ampleTs t v
  match z.runWords w w2 with
  | .next u =>
    if !(z.tookTrap u t) then none
    else match (s.tsGet t).tlev with
      | 0 => some ((u.tsGet t).bank1.cause.toNat, (u.tsGet t).bank1.addr)
      | 1 => some ((u.tsGet t).bank2.cause.toNat, (u.tsGet t).bank2.addr)
      | _ => match u.reports with
        | .kill b :: _ => some (fieldB b 16 8, w64 (sliceB b 64 8))
        | _ => none
  | _ => none

/-- The next instruction where an earlier operation has left it an error: its own causes come first, also where they stand behind a wait (R252, R280). -/
def State.raiseWaiting (s : State) (t : TsId) (v : View) (pc : Word) (c : Cause) (addr : Word) : Host.Outcome State Fault Refusal :=
  let raised := Host.Outcome.next ((s.tick t false).takeTrap t c.code addr)
  match s.fetchWords v pc with
  | .trap c1 a1 => .next ((s.tick t false).takeTrap t c1.code a1)
  | .held => raised
  | .words w w2 =>
    let s := s.noteFetch v pc w
    match s.runWords w w2 with
    | .next u =>
      if s.tookTrap u t then .next u
      else if (u.tsGet t).stall.isNone then raised
      else match agreed ((s.samples t).map (s.ownTrap t w w2)) with
        | some x => .next ((s.tick t false).takeTrap t x.1 x.2)
        | none => raised
    | r => r

/-- One issue of a thread set. -/
def State.stepTs (s0 : State) (t : TsId) : Host.Outcome State Fault Refusal :=
  let s : State := { s0 with cur := .ts t }
  let x := s.tsGet t
  match x.act with
  | none => .next s
  | some a =>
    match x.waiting with
    | some (c, addr) => (s.tsSet t x.noWaiting).raiseWaiting t { core := t.core, ctx := a.ctx, lid := a.lid } x.pc c addr
    | none =>
      if x.wbudget = 0 then execWatchdogExpiry t s
      else match s.fetchWords { core := t.core, ctx := a.ctx, lid := a.lid } x.pc with
        | .trap c addr => .next ((s.tick t false).takeTrap t c.code addr)
        | .held => .next (s.stallTs t .held)
        | .words w w2 => (s.noteFetch { core := t.core, ctx := a.ctx, lid := a.lid } x.pc w).runWords w w2

/-- One issue of a READY program: a pending kill, PCRANGE, the image store, then the word at PC. A long instruction in progress is the mangle's. -/
def State.stepProg (s0 : State) (slot : Nat) : Host.Outcome State Fault Refusal :=
  let s : State := { s0 with cur := .prog slot }
  match s.prog slot with
  | none => .next s
  | some p =>
    if p.state ≠ .ready then .next s
    else if p.doomed then .next (s.pass.agentKill slot p.killCode)
    else if p.long.isSome then .next s
    else if p.codeLen ≤ p.pc then .next (s.pass.agentKill slot 0x0B)
    else match s.imageRead p (8 * p.pc) 8 with
      | .error (.fault c) => .next (s.pass.agentKill slot c)
      | .error (.park w) => .next (s.pass.parkProg slot w)
      | .error .wait => .next s
      | .ok d =>
        match decodeLivik (w64 d) with
        | .ok i => exec i s
        | .error _ => execLivikIllopWord (w64 d) s

end Sys2Proof.Machine
end

