-- ==== Sys2Proof/Machine/Schedule.lean ====
section
/-!
DEFINITION. Who moves next when no agenda says so (log 7): thread sets by R84, programs by level (R58), then the device's own events.
An event that is not due leaves the state as it is and is passed over.
-/

namespace Sys2Proof.Machine

open Sys2Proof

/-- A list from its `n`-th element on, then its beginning. -/
def rotate {α : Type} (n : Nat) (l : List α) : List α := l.drop (n % max 1 l.length) ++ l.take (n % max 1 l.length)

/-! ## Thread sets (R84) -/

/-- The order in which a core considers its thread sets: the one that issued last, unless it has stalled or ended since or has issued 256 in a
row, then the next ones modulo 4. -/
def State.coreOrder (s : State) (c : CoreId) : List TsId :=
  let last := Assoc.getD s.turns c 3
  let after := rotate (last + 1) (threadsOf c)
  let t : TsId := { core := c, ts := last }
  let n := (s.tsGet t).run
  if 0 < n ∧ n < 256 then t :: after.dropLast else after

def curCore : Cur → Option CoreId
  | .ts t => some t.core
  | _ => none

/-- The cores that hold activations, from the one after the current core on. -/
def State.coresBusy (s : State) : List CoreId :=
  let cs := ((s.ts.filter (fun e => e.2.act.isSome)).map (fun e => e.1.core)).eraseDups
  match (curCore s.cur).bind (indexOf? cs) with
  | none => cs
  | some i => rotate (i + 1) cs

def State.threadOrder (s : State) : List TsId :=
  s.coresBusy.flatMap (fun c => (s.coreOrder c).filter (fun t => (s.tsGet t).act.isSome))

/-- The first thread set that is ready: not stalled, or its stall is over. -/
def State.moveTs (s : State) : Option (Host.Outcome State Fault Refusal) :=
  s.threadOrder.findSome? (fun t =>
    match s.stepTs t with
    | .next u => if (s.tsGet t).stall.isNone || (u.tsGet t).stall.isNone then some (.next u) else none
    | r => some r)

/-! ## Programs -/

/-- READY programs, by level, then by place. -/
def State.progOrder (s : State) : List Nat :=
  (List.range 12).flatMap (fun l => (byPlace (s.progs.filter (fun p => decide (p.state = .ready) && decide (p.level = l)))).map Prog.slot)

def State.moveProg (s : State) : Option (Host.Outcome State Fault Refusal) :=
  s.progOrder.findSome? (fun n =>
    match s.stepProg n with
    | .next u => if u = { s with cur := .prog n } then none else some (.next u)
    | r => some r)

/-! ## Events -/

/-- An event's meaning, as exec calls it. -/
abbrev Event := State → Host.Outcome State Fault Refusal

/-- Events of an outstanding operation. -/
def opEvents (o : Op) : List Event :=
  let id := o.id
  (if o.held || o.parked then [execHeldAccessResume id, execHeldAccessFail id] else []) ++
  match o.kind with
  | .ld | .vld | .vgath | .pref | .ktlb => [execLoadPerformed id]
  | .markq => [execLoadPerformed id]
  | .st | .vst | .vscat => [execStoreTaken id]
  | .amo => [execMarkedReplayArrival id, execAmoPerform id]
  | .gain | .gget => [execMarkedReplayArrival id, execGainUpdateApply id]
  | .bara => [execMarkedReplayArrival id, execBaraArrival id]
  | .brd => [execBrdComplete id]
  | .bwr => [execBwrComplete id]
  | .copy => []
  | .spill => [execSpillComplete id]
  | .fill => [execFillDeliver id]
  | .mst => [execMstComplete id]
  | .freeze | .thaw => []

def pnetEvents (e : Nat × PileNet) : List Event :=
  match e.2 with
  | .spawn _ _ _ _ _ _ => [execSpawnArrive e.1, execMessageHoldTimeout e.1]
  | .stealReq _ _ _ _ _ => [execPileStealRequest e.1]
  | .stealReply _ _ _ _ _ _ => [execPileStealReply e.1]
  | .fetch _ _ _ _ => [execFootprintFetchComplete e.1]
  | .retire _ _ _ _ _ _ => [execPileRetire e.1]

def snetEvents (e : Nat × StealNet) : List Event :=
  match e.2 with
  | .request _ _ _ => [execStealRequest e.1]
  | .reply _ _ => [execEmptyStealReply e.1]

/-- A packet's event, by its kind. -/
def packetEvents (src : PacketSrc) (k : Nat) : List Event :=
  match src, k with
  | .host q, 1 => [execDependPacket q]
  | .host q, 3 => [execFetchFencePacket q]
  | _, 2 => [execSignalPacket src, execLaunchPacket src 0]
  | _, 4 => [execStampPacket src, execLaunchPacket src 0]
  | _, _ => [execLaunchPacket src 0]

def State.sources (s : State) : List PacketSrc :=
  s.qbind.map (fun q => .host q.1) ++ s.children.map (fun c => .child c.id) ++
  (s.progs.filter Prog.packetLeft).map (fun p => .invoke p.slot) ++
  s.steps.map (fun x => .stepLaunch x.id)

/-- Events of the front end. -/
def State.frontEvents (s : State) : List Event :=
  s.sources.flatMap (fun src => match s.packet src with
    | some p => packetEvents src p.kind
    | none => []) ++
  s.qwaits.flatMap (fun q => (q.depend.toList.map execSlotFire) ++ (if q.fence.isSome then [execFetchFenceRelease q.q] else []))

/-- Events of a launch. A core that has become idle otherwise than by DONE or TRET, because the other launch on it has ended, asks for records then
(R116). -/
def State.launchEvents (s : State) (l : Launch) : List Event :=
  match l.state with
  | .waitSlot => (s.slotAddr l l.wslot).toList.map execSlotFire
  | .waitBundles => [execPendingLaunchPlace l.lid]
  | .running =>
    let ts := (List.range l.n).flatMap (fun o => threadsOf (l.coreAt o))
    (if l.pile then ts.map execPileOffer ++ [execPileSample l.lid] ++ l.bundles.map (fun b => execPileBroadcastReceive l.lid b) else []) ++
    ts.map execActivationStart ++ [execRinseTokenVisit l.lid] ++ (if l.pile then [] else [fun s => .next (s.sendSteals l.lid)])

/-- Events of a bundle: its press, a FREEZE or THAW under way. -/
def State.bundleEvents (s : State) (b : Nat) : List Event :=
  let k := s.bundle b
  (if (List.range 8).any (fun i => !((s.core (cc (8 * b + i))).pressQ.isEmpty)) || k.exec.isSome then
    [execMmaRetire b, execMzeroExecute b, execMstExecute b, execPressCommandStart b, execAccumulatorBankSwap b] else []) ++
  (if k.freezing.isSome then (List.range 8).map (fun i => execFreezeCapturePoint (8 * b + i)) ++ [execFreezeComplete b] else []) ++
  (if k.thawing.isSome then [execThawComplete b] else [])

/-- Events of a program. -/
def progEvents (p : Prog) : List Event :=
  (match p.await with
   | .mbox _ _ _ _ => [execAwaitTimeout p.slot]
   | .launch _ _ _ _ => [execInvokeComplete p.slot]
   | .none => []) ++
  (if p.notices.isEmpty then [] else [execDeferredNoticePost p.slot])

/-- The planner's moves in the order of its plan: the lowest frame for the next program that has too few, the next page, and, where no frame of
the size is free, room for them (R52, R53). -/
def State.planEvents (s : State) : List Event :=
  let run := fun (n : Nat) => (s.freeFrames.filter (fun f => s.freeRun f n)).min?.toList
  let pages := (s.pages.filter (fun e => e.2.used)).map Prod.fst
  s.nextFrame.toList.flatMap (fun w => (run w.2).map (fun f => execResidencyPlan (.reserve w.1 f))) ++
  s.nextPage.toList.flatMap (fun i => (run (s.pageUnits (s.page i).img)).map (fun f => execResidencyPlan (.unfold i f))) ++
  (if s.sizeShort then pages.flatMap (fun i =>
    ((firstFree (max 1 s.hostSlots) (fun h => (List.range (s.pageUnits (s.page i).img)).any (fun k => s.usedHost.contains (h + k))) s.hostSlots 0).toList.map
      (fun h => execResidencyPlan (.fold i h))) ++
    ((firstFree (s.usedBlocks.length + 1) (fun b => s.usedBlocks.contains b) (s.usedBlocks.length + 1) 0).toList.map
      (fun b => execResidencyPlan (.shelve i b)))) else [])

/-- Events of a page that moves or is free to go. -/
def State.pageEvents (s : State) (i : Nat) : List Event :=
  let e := s.page i
  if e.res = 3 then (match e.move with
    | 0 => [execPageFoldComplete i]
    | 1 => [execPageShelveComplete i]
    | _ => [execPageUnfoldComplete i])
  else if e.used ∧ e.refc = 0 then [execPageRelease i] else []

def State.serviceEvents (s : State) : List Event :=
  match s.services with
  | [] => []
  | a :: _ => match (s.rd32 a).toNat with
    | 1 => [execBindQueue]
    | 2 => [execUnbindQueue, execUnbindQueueDrained]
    | 3 => [execReleaseSlot]
    | 4 => [execRegisterModelImage 0]
    | 5 => [execExtendHostMemory]
    | 6 => [execKillProgram]
    | 7 => [execWithdrawModelImage]
    | _ => [execServiceRequestUnknownCode]

/-- Every internal event that could be due. An image page whose NR has become 0 ends the park that waits for it (R49, R230). -/
def State.events (s : State) : List Event :=
  s.ops.flatMap opEvents ++
  s.copyQs.map (fun q => execCopyEngineChunk q.ctx q.level) ++
  s.net.flatMap (fun f => [execMessageArrival f.id, execMessageHoldTimeout f.id]) ++
  s.pnet.flatMap pnetEvents ++ s.snet.flatMap snetEvents ++
  s.frontEvents ++ s.launches.flatMap s.launchEvents ++
  (s.bundles.map Prod.fst ++ (s.cores.filter (fun c => !c.1.kernel && !c.2.pressQ.isEmpty)).map (fun c => bundleOf c.1)).eraseDups.flatMap s.bundleEvents ++
  (s.cores.filter (fun c => c.1.kernel && !c.2.basket.isEmpty)).flatMap (fun c => (threadsOf c.1).map execActivationStart) ++
  s.serviceEvents ++ [fun s => .next s.unpark] ++ s.steps.map (fun x => execStepLaunchComplete x.id) ++ s.progs.flatMap progEvents ++
  (s.strictFirst.toList.map (fun p => execStrictStepPlace p.slot)) ++ s.mangles.map (fun m => execBatchingWindowClose m.img) ++
  (s.pages.map Prod.fst).flatMap s.pageEvents ++ (s.lctx.filter (fun c => c.2.detach.isSome)).map (fun c => execDetachCopyComplete c.1) ++
  s.planEvents ++ s.ports.map (fun p => execHeldDepositIssue p.1)

/-- The first event that is due. The counter of free values advances, so that the search starts elsewhere in time. -/
def State.moveEvent (s : State) : Option (Host.Outcome State Fault Refusal) :=
  (rotate (s.fresh / 8) s.events).findSome? (fun e =>
    match e s with
    | .next u => if u = s then none else some (.next { u with fresh := u.fresh + 1 })
    | r => some r)

/-! ## The agenda -/

/-- A move that comes from outside the code: an event, not a word that a thread set or a program fetches. -/
def isEvent (i : Instr) : Bool :=
  (encodeNorson i).isNone && (encodeLivik i).isNone && (match i with
    | .reservedEncoding _ => false
    | .livikIllopWord _ => false
    | _ => true)

/-- The agenda may make a move: an event of a running device; before and without a boot, only the power-on reset and host loads (R211). -/
def State.mayMove (s : State) (i : Instr) : Bool :=
  isEvent i && (decide (s.devstat = 1) || (match i with
    | .powerOnReset _ => true
    | .hostLoad _ _ => true
    | _ => false))

/-! ## The scheduler -/

/-- Nothing is ready: a stalled thread set tries again, or time passes. -/
def State.idle (s : State) : Host.Outcome State Fault Refusal :=
  match (rotate s.fresh s.threadOrder).head? with
  | some t => s.stepTs t
  | none => .next { s.pass with clock := s.pass.clock + 1 }

/-- Of each eight moves, most go to thread sets first, one to a program first and one to an event first. -/
def State.schedule (s : State) : Host.Outcome State Fault Refusal :=
  let pick := match s.fresh % 8 with
    | 3 => s.moveProg <|> s.moveTs <|> s.moveEvent
    | 7 => s.moveEvent <|> s.moveTs <|> s.moveProg
    | _ => s.moveTs <|> s.moveProg <|> s.moveEvent
  pick.getD s.idle

end Sys2Proof.Machine
end

