-- ==== Sys2Proof/Machine/Place.lean ====
section
/-!
DEFINITION. Where an instruction is placed so that the next step runs it (log 1): its bytes in memory behind a page table, and an activation
of a compute core, of a kernel core for the instructions of R183, or a READY program.
-/

namespace Sys2Proof.Machine

open Sys2Proof

/-- The virtual address of the placed code: that of the worked programs (R231). -/
def placeVa : Nat := 0x20000000

/-- Tables that map the 2 MiB at `placeVa` to physical 2 MiB, with every right. -/
def State.placeTables (s : State) : State :=
  let e := fun (n : Nat) (leaf : Bool) => at64 1 0 ||| at64 (if leaf then 1 else 0) 1 ||| at64 15 2 ||| at64 n 16
  ((s.wr64 0x10000 (e 2 false)).wr64 0x20000 (e 3 false)).wr64 (0x30000 + 8 * 256) (e 32 true)

/-- A window over the placed code. -/
def placeWin : Thimble := BitVec.ofNat 256 (1 + 15 * 4 + placeVa * 2 ^ 64 + 2 ^ 21 * 2 ^ 128)

/-- The context that owns the placed code. -/
def placeCtx : NCtx := { ptroot := 0x10000, save := 0, grant := 0, sizes := at64 1 0 ||| at64 1 16 ||| at64 1 32, hostGranted := true, wins := [placeWin] }

/-- The launch of a placed compute-core activation: DEQ, level 5, on bundle 0. -/
def placeLaunchRec : Launch :=
  { lid := 1, ctx := 0, src := .queue 0, words := [at64 5 4 ||| at64 4 10, at64 placeVa 0, 0, 0, 0, 0, 0, 0], queued := none, state := .running, order := 0, bundles := [0],
    areaLow := [], lists := [], groups := [], kb := List.replicate 8 0, tol := 0, rlist := 0, rcap := 0, fpa := 0, root := 0,
    accst := { sec := 0, ns := 0, seq := 1 }, startst := some { sec := 0, ns := 0, seq := 2 }, acts := 0, disc := 0, discRec := 0, mappl := 0, msupp := 0,
    markold := 0, traps := 0, skips := 0, counts := [], stains := [], steals := [], stealOut := [], deques := [],
    token := { started := true, at_ := 0, sum := 0, stain := false }, lend := false, conv := false, epochs := [], arrivals := [], done := [], resid := 0 }

def placeMsg (lid : Half) : Msg := { w0 := at64 placeVa 0 ||| at64 5 48, w1 := header1 0x3FFF 0 0 lid 4 2 false false, pay := 0 }

/-- A thread set about to issue at an address. -/
def placeTs (pc : Nat) (lid : Option Half) (ctx : Half) : ThreadSet :=
  { ThreadSet.reset with
    pc := BitVec.ofNat 64 pc, wbudget := 0x100000, sreg := [(1, (placeMsg (lid.getD 0)).w0), (2, (placeMsg (lid.getD 0)).w1)], vreg := [(0, 0)],
    act := some { origin := .message, msg := placeMsg (lid.getD 0), lid := lid, ctx := ctx, cls := 5, fetchTrap := none } }

/-- A program about to issue its first word. -/
def placeProg : Prog :=
  { slot := 0, pimg := BitVec.ofNat 64 placeVa, pc := 0, state := .ready, level := 9, fault := 0, retstk := [], kreq := false, retn := 0, scratch := 0,
    p0 := 0, p1 := 0, a := List.replicate 16 0, c := List.replicate 16 0, t := List.replicate 16 [], codeLen := 1, imgLen := 65536, deadline := 0,
    sblk := 0x1000000, sring := 0x1100000, hmbx := 0x1200000, nctx := 0, mbox := [], hseq := 0, notices := [], await := .none, park := [], since := 0,
    long := none, samp := none, resume := false, steps := 0, place := 0, qy := 0, marks := [] }

/-- The physical address of the placed code. -/
def placePhys : Nat := 0x200000

/-- The word is one of a program's: it has more than 32 bits and the Livik decoder takes it. -/
def isLivikWord (nbits w : Nat) : Bool := decide (32 < nbits) && (match decodeLivik (BitVec.ofNat 64 w) with | .ok _ => true | .error _ => false)

/-- Place an instruction for the next step. -/
def State.placed (s : State) (nbits w : Nat) : State :=
  let w := w % 2 ^ nbits
  let s : State := { s.wr placePhys (leBytes 8 w) with devstat := 1, agenda := [], cur := .none }
  if isLivikWord nbits w then
    { s.placeTables with ctxs := Assoc.set s.ctxs 0 placeCtx, progs := [placeProg], ts := [] }
  else if w % 2 ^ 32 / 2 ^ 26 = 0x3C then
    let t : TsId := { core := kc 0, ts := 0 }
    { s with ts := [(t, placeTs placePhys none Config.edoiny)], progs := [] }
  else
    let t : TsId := { core := cc 0, ts := 0 }
    { s.placeTables with ctxs := Assoc.set s.ctxs 0 placeCtx, launches := [placeLaunchRec], progs := [], ts := [(t, placeTs placeVa (some 1) 0)],
                         cores := Assoc.set s.cores (cc 0) { CoreSt.reset with thimble := [(0, placeWin)] } }

end Sys2Proof.Machine
end

