-- ==== Sys2Proof/Machine/Step.lean ====
section
/-!
DEFINITION. One step: the move at the head of the agenda, or the scheduler's; a device that is halted or held in boot moves only by a power-on
reset and host loads (R211, R214).
-/

namespace Sys2Proof.Machine

open Sys2Proof

def step (s : State) : Host.Outcome State Fault Refusal :=
  match s.agenda with
  | i :: rest => if s.mayMove i then exec i { s with agenda := rest } else .next { s with agenda := rest }
  | [] =>
    if s.devstat = 3 then .fault .halted
    else if s.devstat = 2 then .fault .bootHold
    else s.schedule

/-- The state whose next step fetches and runs a table word (log 1). -/
def State.withFetchWord (s : State) (nbits w : Nat) : State := s.placed nbits w

end Sys2Proof.Machine
end

