-- ==== Sys2Proof/Safety.lean ====
section
/-!
DEFINITION. What the statements are written in: whose turn it is, what an instruction leaves unchanged, and the invariants of a run.
-/

namespace Sys2Proof.Machine

open Sys2Proof

/-! ## Turns -/

/-- It is the turn of thread set `t`, which runs activation `a`. -/
def Turn (s : State) (t : TsId) (a : Activation) : Prop := s.cur = .ts t ∧ (s.tsGet t).act = some a

/-- The instruction of that thread set before it has read anything. -/
def exeOf (s : State) (t : TsId) (a : Activation) : Exe := { s := s, t := t, x := s.tsGet t, a := a, after := none }

/-- It is the turn of a READY program with no kill request (R50). -/
def ProgTurn (s : State) (p : Prog) : Prop :=
  s.cur = .prog p.slot ∧ s.prog p.slot = some p ∧ p.state = .ready ∧ p.doomed = false

/-! ## Frames -/

/-- Nothing but thread set `t`, its core's turn, CYCLE, the clock and the model's counter of moments differs: every other thread set, all
memory, every core, bundle, launch, program, context, queue and device register is as before. -/
def OthersKept (s u : State) (t : TsId) : Prop :=
  u = { s with ts := u.ts, cycle := u.cycle, clock := u.clock, fresh := u.fresh, turns := u.turns } ∧ ∀ t', t' ≠ t → u.tsGet t' = s.tsGet t'

/-- Every byte that the manual defines reads as before; the destination of an outstanding block read is undefined (R279). -/
def SameBytes (s u : State) : Prop := ∀ a, s.inBrd a = false → u.rdByte a = s.rdByte a

/-- The instruction `e` has completed towards its thread set and goes on at `pc`: its registers stand, the thread set stalls no longer
and is the one that its core has turned to last (R84), WBUDGET has run (R88), and everything else stands as the instruction left it. -/
def Went (e : Exe) (pc : Word) (u : State) : Prop :=
  OthersKept e.s u e.t ∧
  u.tsGet e.t = { e.x with pc := pc, stall := none, run := e.s.runOf e.t e.x.run + 1, wbudget := (u.tsGet e.t).wbudget } ∧
  u.turns = Assoc.set e.s.turns e.t.core e.t.ts ∧
  (u.tsGet e.t).wbudget.toNat ≤ e.x.wbudget.toNat - 1

/-- It has completed and goes on `n` bytes further. -/
def Retired (e : Exe) (n : Nat) (u : State) : Prop := Went e (e.x.pc + BitVec.ofNat 64 n) u

/-! ## Invariants -/

/-- The memories stand in canonical form: addresses rise, and no byte of stack or host memory is listed that reads as an unlisted one. -/
def MemInv (s : State) : Prop := Memory.wf s.mem = true ∧ Memory.wf s.hostMem = true ∧ Cells.rising s.scratch = true

end Sys2Proof.Machine
end

