-- ==== Sys2Proof/Certificates/Slice0/Obligations.lean ====
section
/-!
DEFINITION. The statements about the machine, from the rules of spec/: first rows and helpers, then the parts of the statements
that have several, then the statements. A thread-set statement starts where it is that thread set's turn, with the values that its
sources have (srcS and srcV say which); a program statement where it is that program's turn; an event's statement at any state that
shows what the event needs. The values that logs mark DESIGN CHOICE or PRESUMED are the model's, not the manual's.
-/

namespace Sys2Proof.Claims

open Sys2Proof Sys2Proof.Machine

/-! ## Rows: constructors of one shape with the result that the manual gives each -/

/-- A two-source ALU function: its forms, whether it divides, and its result at 64 and at 32 bits (R257, R258). -/
structure AluRow where
  reg : Reg → Reg → Reg → Bool → Instr
  con : Reg → Reg → Bool → KOp → Instr
  divides : Bool
  full : Word → Word → Word
  low : Word32 → Word32 → Word32

def aluRows : List AluRow :=
  [ ⟨.add, .addK, false, (· + ·), (· + ·)⟩,
    ⟨.sub, .subK, false, (· - ·), (· - ·)⟩,
    ⟨.mul, .mulK, false, (· * ·), (· * ·)⟩,
    ⟨.div, .divK, true, fun x y => if y = 0 then BitVec.allOnes 64 else x.sdiv y, fun x y => if y = 0 then BitVec.allOnes 32 else x.sdiv y⟩,
    ⟨.divu, .divuK, true, fun x y => if y = 0 then BitVec.allOnes 64 else x / y, fun x y => if y = 0 then BitVec.allOnes 32 else x / y⟩,
    ⟨.rem, .remK, true, fun x y => if y = 0 then x else x.srem y, fun x y => if y = 0 then x else x.srem y⟩,
    ⟨.remu, .remuK, true, fun x y => if y = 0 then x else x % y, fun x y => if y = 0 then x else x % y⟩,
    ⟨.and, .andK, false, (· &&& ·), (· &&& ·)⟩,
    ⟨.or, .orK, false, (· ||| ·), (· ||| ·)⟩,
    ⟨.xor, .xorK, false, (· ^^^ ·), (· ^^^ ·)⟩ ] ++
  [ ⟨.shl, .shlK, false, fun x y => x <<< (y.toNat % 64), fun x y => x <<< (y.toNat % 32)⟩,
    ⟨.shr, .shrK, false, fun x y => x >>> (y.toNat % 64), fun x y => x >>> (y.toNat % 32)⟩,
    ⟨.sar, .sarK, false, fun x y => x.sshiftRight (y.toNat % 64), fun x y => x.sshiftRight (y.toNat % 32)⟩,
    ⟨.slt, .sltK, false, fun x y => if x.toInt < y.toInt then 1 else 0, fun x y => if x.toInt < y.toInt then 1 else 0⟩,
    ⟨.sltu, .sltuK, false, fun x y => if x.toNat < y.toNat then 1 else 0, fun x y => if x.toNat < y.toNat then 1 else 0⟩,
    ⟨.min, .minK, false, fun x y => if y.toInt < x.toInt then y else x, fun x y => if y.toInt < x.toInt then y else x⟩,
    ⟨.max, .maxK, false, fun x y => if x.toInt < y.toInt then y else x, fun x y => if x.toInt < y.toInt then y else x⟩,
    ⟨.minu, .minuK, false, fun x y => if y.toNat < x.toNat then y else x, fun x y => if y.toNat < x.toNat then y else x⟩,
    ⟨.maxu, .maxuK, false, fun x y => if x.toNat < y.toNat then y else x, fun x y => if x.toNat < y.toNat then y else x⟩ ]

/-- The result of a row: with .w the low 32 bits of the sources, and the 32-bit result sign-extended. -/
def AluRow.val (r : AluRow) (w : Bool) (x y : Word) : Word :=
  if w then (r.low (x.setWidth 32) (y.setWidth 32)).signExtend 64 else r.full x y

/-- The second source is zero at the form's width. -/
def zeroDivisor (w : Bool) (y : Word) : Prop := if w then y.setWidth 32 = 0#32 else y = 0

/-- An instruction of one source and one result. -/
structure OneRow where
  form : Reg → Reg → Instr
  val : Word → Word

/-- The immediates, for every immediate value, and the counts (R258, R260, R343, R355, R385). -/
def oneRows (i : Half) (n : BitVec 6) : List OneRow :=
  [ ⟨fun d a => .addi d a i, fun x => x + i.signExtend 64⟩,
    ⟨fun d a => .andi d a i, fun x => x &&& i.setWidth 64⟩,
    ⟨fun d a => .ori d a i, fun x => x ||| i.setWidth 64⟩,
    ⟨fun d a => .xori d a i, fun x => x ^^^ i.setWidth 64⟩,
    ⟨fun d a => .slti d a i, fun x => if x.toInt < i.toInt then 1 else 0⟩,
    ⟨fun d a => .shiShl d a n, fun x => x <<< n.toNat⟩,
    ⟨fun d a => .shiShr d a n, fun x => x >>> n.toNat⟩,
    ⟨fun d a => .shiSar d a n, fun x => x.sshiftRight n.toNat⟩ ]

/-! ## Helpers of the statements -/

/-- The flags of R89 set as sticky bits of FPCSR. -/
def withFlags (e : Exe) (fl : FFlags) : Exe := { e with x := { e.x with fpcsr := e.x.fpcsr ||| (fl.setWidth 64 <<< 2) } }
/-- No enabled exception is among the flags (R89). -/
def fpQuiet (e : Exe) (fl : FFlags) : Prop := e.x.trapen.extractLsb' 1 5 &&& fl = 0#5
/-- Operation `o` handed to the access half: it is the youngest operation, and OSEQ has advanced (R190). -/
def issued (e : Exe) (o : Op) : Exe :=
  { e with s := { e.s with ops := e.s.ops ++ [o], nextId := e.s.nextId + 1 }, x := { e.x with oseq := e.x.oseq + 1 } }
/-- What names an operation: the thread set, the kind, the sequence number before the advance, a fresh id (R190). -/
def Names (e : Exe) (o : Op) (k : OpKind) : Prop :=
  o.t = e.t ∧ o.kind = k ∧ o.seq = e.x.oseq ∧ o.id = e.s.nextId ∧ o.ctx = e.a.ctx ∧ o.lid = e.a.lid
/-- The `which`-th value of the operation is awaited at the tail of the scalar load queue (R91). -/
def awaitS (e : Exe) (id which : Nat) : Exe := { e with x := { e.x with slq := e.x.slq ++ [.wait id which] } }
/-- The operation's value is awaited at the tail of the vector load queue. -/
def awaitV (e : Exe) (id : Nat) : Exe := { e with x := { e.x with vlq := e.x.vlq ++ [.wait id 0] } }
/-- A scalar value stands at the tail of the scalar load queue at once. -/
def pushed (e : Exe) (v : Word) : Exe := { e with x := { e.x with slq := e.x.slq ++ [.ready v] } }
/-- Bit `a` of memory lies in none of the pieces. -/
def outside (l : List Seg) (a : Nat) : Prop := ∀ g ∈ l, a < g.bus ∨ g.bus + g.len ≤ a
/-- Lane `i` of a vector of `w`-bit lanes. -/
def lane (w : Nat) (v : Vec) (i : Nat) : Nat := v.toNat / 2 ^ (w * i) % 2 ^ w
/-- The machine after a trap of the instruction at PC: one issue, then the entry of R177 to R179. -/
def trapped (s : State) (t : TsId) (c : Cause) (addr : Word) : State := (s.tick t false).takeTrap t c.code addr

/-! ## Rows of scalar FP, branches, vectors and atomics -/

structure FpRow where
  form : Reg → Reg → Reg → Instr
  val : Nat → Nat → Nat × FFlags

/-- Two-source FP (R222, R304 to R306): `e` tells FP64, `m` is the rounding mode. -/
def fpRows (e : Bool) (m : BitVec 2) : List FpRow :=
  let f := fmtD e
  let nan := fun (x y : Nat) => (f.decode x).isNan || (f.decode y).isNan
  [ ⟨fun d a b => .fadd d a b e m, f.add m.toNat⟩, ⟨fun d a b => .fsub d a b e m, f.sub m.toNat⟩,
    ⟨fun d a b => .fmul d a b e m, f.mul m.toNat⟩, ⟨fun d a b => .fdiv d a b e m, f.div m.toNat⟩,
    ⟨fun d a b => .fmin d a b e, f.minmax false⟩, ⟨fun d a b => .fmax d a b e, f.minmax true⟩,
    ⟨fun d a b => .fcmpEq d a b e, fun x y => (if FV.eq (f.decode x) (f.decode y) then 1 else 0, snanFlag [f.decode x, f.decode y])⟩,
    ⟨fun d a b => .fcmpLt d a b e, fun x y => (if FV.lt (f.decode x) (f.decode y) then 1 else 0, if nan x y then flInvalid else 0#5)⟩,
    ⟨fun d a b => .fcmpLe d a b e, fun x y =>
      (if FV.lt (f.decode x) (f.decode y) || FV.eq (f.decode x) (f.decode y) then 1 else 0, if nan x y then flInvalid else 0#5)⟩,
    ⟨fun d a b => .fcmpUn d a b e, fun x y => (if nan x y then 1 else 0, snanFlag [f.decode x, f.decode y])⟩ ]

structure FpOneRow where
  form : Reg → Reg → Instr
  val : Word → Nat × FFlags

/-- One-source FP (R305): square root and the conversions. Conversions to integers clamp, and the bit pattern is two's complement. -/
def fpOneRows (e : Bool) (m : BitVec 2) : List FpOneRow :=
  let f := fmtD e
  let wrap := fun (r : Int × FFlags) => ((r.1 % 2 ^ 64).toNat, r.2)
  [ ⟨fun d a => .fsqrt d a e m, fun x => f.sqrt m.toNat (fpArg e x)⟩,
    ⟨fun d a => .fcvtF d a e m, fun x => if e then fFP64.convert fFP32 m.toNat x.toNat else fFP32.convert fFP64 m.toNat (x.toNat % 2 ^ 32)⟩,
    ⟨fun d a => .fcvtF2i d a e m, fun x => wrap (f.toIntClamp m.toNat (-(2 ^ 63)) (2 ^ 63 - 1) (fpArg e x))⟩,
    ⟨fun d a => .fcvtF2u d a e m, fun x => wrap (f.toIntClamp m.toNat 0 (2 ^ 64 - 1) (fpArg e x))⟩,
    ⟨fun d a => .fcvtI2f d a e m, fun x => f.ofInt m.toNat x.toInt⟩,
    ⟨fun d a => .fcvtU2f d a e m, fun x => f.ofInt m.toNat x.toNat⟩ ]

structure BranchRow where
  form : Reg → Reg → BitVec 13 → Instr
  rel : Word → Word → Bool

/-- The branches on two scalars (R226, R276, R277). -/
def branchRows : List BranchRow :=
  [ ⟨.beq, fun x y => decide (x = y)⟩, ⟨.bne, fun x y => decide (x ≠ y)⟩,
    ⟨.blt, fun x y => decide (x.toInt < y.toInt)⟩, ⟨.bge, fun x y => decide (y.toInt ≤ x.toInt)⟩,
    ⟨.bltu, fun x y => decide (x.toNat < y.toNat)⟩, ⟨.bgeu, fun x y => decide (y.toNat ≤ x.toNat)⟩ ]

structure AmoRow where
  form : Reg → Reg → Bool → Bool → Bool → BitVec 2 → Instr
  code : Nat

/-- The atomics of two sources with their operation codes (R225). -/
def amoRows : List AmoRow :=
  [ ⟨.amoAdd, 0⟩, ⟨.amoFadd, 1⟩, ⟨.amoMin, 2⟩, ⟨.amoMax, 3⟩, ⟨.amoMinu, 4⟩, ⟨.amoMaxu, 5⟩, ⟨.amoAnd, 6⟩, ⟨.amoOr, 7⟩, ⟨.amoXor, 8⟩, ⟨.amoSwap, 9⟩ ]

structure VecRow where
  form : Reg → Reg → Reg → BitVec 3 → BitVec 3 → Instr
  reads : Bool
  val : BitVec 3 → Nat → Nat → Nat → Nat → Nat × FFlags

/-- A signed lane. -/
def sLane (w x : Nat) : Int := if 2 ^ (w - 1) ≤ x then (x : Int) - 2 ^ w else x

/-- The lane-wise operations (R227, R376, R377): type, rounding mode, the two source lanes and the old destination lane. -/
def vecRows : List VecRow :=
  let fl := fun (n : Nat) => ((n, 0#5) : Nat × FFlags)
  [ ⟨.vadd, false, fun t rm a b _ => if tyInt t then fl ((a + b) % 2 ^ tyW t) else (tyFmt t).add rm a b⟩,
    ⟨.vsub, false, fun t rm a b _ => if tyInt t then fl ((a + 2 ^ tyW t - b) % 2 ^ tyW t) else (tyFmt t).sub rm a b⟩,
    ⟨.vmul, false, fun t rm a b _ => if tyInt t then fl ((a * b) % 2 ^ tyW t) else (tyFmt t).mul rm a b⟩,
    ⟨.vfma, true, fun t rm a b d => (tyFmt t).fma rm a b d⟩,
    ⟨.vmin, false, fun t _ a b _ => if tyInt t then fl (if sLane (tyW t) b < sLane (tyW t) a then b else a) else (tyFmt t).minmax false a b⟩,
    ⟨.vmax, false, fun t _ a b _ => if tyInt t then fl (if sLane (tyW t) a < sLane (tyW t) b then b else a) else (tyFmt t).minmax true a b⟩,
    ⟨.vand, false, fun _ _ a b _ => fl (a &&& b)⟩, ⟨.vor, false, fun _ _ a b _ => fl (a ||| b)⟩, ⟨.vxor, false, fun _ _ a b _ => fl (a ^^^ b)⟩,
    ⟨.vshl, false, fun t _ a b _ => fl (a * 2 ^ (b % tyW t) % 2 ^ tyW t)⟩, ⟨.vshr, false, fun t _ a b _ => fl (a / 2 ^ (b % tyW t))⟩,
    ⟨.vsar, false, fun t _ a b _ => fl ((sLane (tyW t) a / 2 ^ (b % tyW t)) % 2 ^ tyW t).toNat⟩ ]

/-- The flags of the on lanes together. -/
def allFlags (n : Nat) (on : Nat → Bool) (f : Nat → FFlags) : FFlags :=
  (List.range n).foldl (fun a i => a ||| if on i then f i else 0#5) 0#5

/-! ## Programs -/

/-- The program has retired one instruction and stands as `q`, at `pc`, with RETN one more (R33); no other program differs. -/
def Ran (s u : State) (p q : Prog) (pc : Nat) : Prop :=
  u.prog p.slot = some { q with retn := q.retn + 1, pc := pc, since := u.clock } ∧ ∀ n, n ≠ p.slot → u.prog n = s.prog n
/-- Nothing but programs, the clock and the model's counter of moments differs. -/
def OnlyPrograms (s u : State) : Prop := u = { s with progs := u.progs, clock := u.clock, fresh := u.fresh }
/-- An agent fault with a code: what the program's next state is (R46, R49). -/
def agentFault (s : State) (p : Prog) (code : Nat) : Host.Outcome State Fault Refusal := .next (s.pass.agentKill p.slot code)
/-- The program as its own fields stand, apart from how it runs: registers, queues and the mailbox. -/
def SameRegs (p q : Prog) : Prop := q.a = p.a ∧ q.c = p.c ∧ q.t = p.t ∧ q.retstk = p.retstk ∧ q.slot = p.slot

structure CalcRow where
  form : LIdx → LIdx → LIdx → Instr
  val : Word → Word → Word

/-- ACALC (R256). -/
def calcRows : List CalcRow :=
  [ ⟨.acalcAdd, (· + ·)⟩, ⟨.acalcSub, (· - ·)⟩, ⟨.acalcMul, (· * ·)⟩,
    ⟨.acalcDiv, fun x y => if y = 0 then BitVec.allOnes 64 else x.sdiv y⟩, ⟨.acalcRem, fun x y => if y = 0 then x else x.srem y⟩,
    ⟨.acalcAnd, (· &&& ·)⟩, ⟨.acalcOr, (· ||| ·)⟩, ⟨.acalcXor, (· ^^^ ·)⟩,
    ⟨.acalcShl, fun x y => x <<< (y.toNat % 64)⟩, ⟨.acalcShr, fun x y => x >>> (y.toNat % 64)⟩,
    ⟨.acalcMin, fun x y => if y.toInt < x.toInt then y else x⟩, ⟨.acalcMax, fun x y => if x.toInt < y.toInt then y else x⟩,
    ⟨.acalcEq, fun x y => if x = y then 1 else 0⟩, ⟨.acalcLt, fun x y => if x.toInt < y.toInt then 1 else 0⟩,
    ⟨.acalcLtu, fun x y => if x.toNat < y.toNat then 1 else 0⟩ ]

/-- The least place from `n` on where `k` stands in `m`. -/
def FirstAt (k m : List Word32) (n i : Nat) : Prop :=
  n ≤ i ∧ i + k.length ≤ m.length ∧ (m.drop i).take k.length = k ∧ ∀ j, n ≤ j → j < i → (m.drop j).take k.length ≠ k

/-! ## Memory as the device's agents write it -/

/-- The bytes lie in stack memory of present channels. -/
def inRam (s : State) (a n : Nat) : Prop := a + n ≤ scratchBase ∧ ∀ i, i < n → s.noChannel (a + i) = false
/-- No byte of stack memory outside a range reads otherwise than before. -/
def onlyBytes (s u : State) (a n : Nat) : Prop := ∀ x, (x < a ∨ a + n ≤ x) → s.inBrd x = false → u.rdByte x = s.rdByte x
/-- The oldest pending request has been answered: it leaves the list, and its block holds status, reply and DONE (R202). -/
def answered (s u : State) (a : Nat) (rest : List Nat) (status : Nat) (reply : Word) : Prop :=
  u.services = rest ∧ (inRam s a 256 → u.rd64 (a + 0x80) = BitVec.ofNat 64 status ∧ u.rd64 (a + 0x88) = reply ∧ u.rd64 (a + 0xF8) = 1)

/-- Bytes of the bus that hold what is stored: stack memory of present channels, or scratchpad that no block read is about to write. -/
def plain (s : State) (a n : Nat) : Prop := ∀ i, i < n → s.inBrd (a + i) = false ∧ (a + i < scratchBase → s.noChannel (a + i) = false)
/-- No byte of the range is one that its owner alone writes (R7, R70, R109). -/
def unowned (s : State) (a n : Nat) : Prop := ∀ i, i < n → s.readOnly (a + i) = false
/-- Bytes that a store of any agent reaches. -/
def writable (s : State) (a n : Nat) : Prop := plain s a n ∧ unowned s a n
/-- The only bytes that may differ lie in the range, and its owner alone writes none of them (R7). -/
def storedOnly (s u : State) (a n : Nat) : Prop :=
  ∀ x, s.inBrd x = false → (x < a ∨ a + n ≤ x ∨ s.readOnly x = true) → u.rdByte x = s.rdByte x
/-- The bytes at an address. -/
def holds (u : State) (a : Nat) (d : List Byte) : Prop := u.rd a d.length = d
/-- A message for a core finds a free on-chip slot, and its launch (R103). -/
def roomy (s : State) (c : CoreId) (ctx : Half) (lid : Option Half) : Prop :=
  (∀ l, lid = some l → s.launch l ≠ none) ∧ s.frozenImg c ctx = none ∧ s.freezingOn c ctx = false ∧
  (s.core c).basket.length < 64 ∧ (s.core c).membk = [] ∧ (s.core c).ring = []
/-- A message has entered the basket, behind the others. -/
def entered (s u : State) (c : CoreId) (m : Msg) : Prop := (u.core c).basket = (s.core c).basket ++ [m]
/-- The entry that waits for value `which` of operation `id` has become `v`; no other entry of the queue differs. -/
def filled {α : Type} (id which : Nat) (v : LdE α) (q q' : List (LdE α)) : Prop :=
  ∀ pre post, q = pre ++ .wait id which :: post → LdE.wait id which ∉ pre → q' = pre ++ v :: post
/-- The operation is outstanding no more, and the others stand. -/
def opGone (s u : State) (id : Nat) : Prop := u.ops = s.ops.filter (fun o => decide (o.id ≠ id))

/-- Op of R262 on n-bit values; none writes nothing. -/
def amoSpec (n code : Nat) (x b c : BitVec n) : Option (BitVec n) :=
  match code with
  | 0 => some (x + b)
  | 1 => some (BitVec.ofNat n ((fmtD (decide (n = 64))).add 0 x.toNat b.toNat).1)
  | 2 => some (if b.toInt < x.toInt then b else x)
  | 3 => some (if x.toInt < b.toInt then b else x)
  | 4 => some (if b.toNat < x.toNat then b else x)
  | 5 => some (if x.toNat < b.toNat then b else x)
  | 6 => some (x &&& b) | 7 => some (x ||| b) | 8 => some (x ^^^ b) | 9 => some b
  | _ => if x = c then some b else none

/-- A loaded value: the bytes, sign-extended or zero-extended to 64 bits (R326). -/
def loaded (signed : Bool) (n : Nat) (d : List Byte) : Word :=
  if signed then (BitVec.ofNat (8 * n) (leNat d)).signExtend 64 else BitVec.ofNat 64 (leNat d)

/-- The messages that a send buffer releases, in its order: destination, other device if any, and the message, whose MSEQ counts up from `n` (R100,
R105, R208). -/
def sendsOf (t : TsId) (a : Activation) : List Buffered → Word32 → List (CoreId × Option Nat × Msg)
  | [], _ => []
  | .send dst _ w0 kind scope pay dev :: b, n =>
    (dst, dev, { w0 := deliverW0 w0, w1 := header1 t.core.idx t.ts (n.toNat % 65536) (a.lid.getD 0) scope kind false t.core.kernel, pay := pay }) ::
      sendsOf t a b (n + 1)
  | .spawn _ :: b, n | .bara _ _ _ _ :: b, n | .lend :: b, n => sendsOf t a b n
/-- The task records of a send buffer, in its order (R115). -/
def spawnsOf : List Buffered → List (List Byte)
  | [] => []
  | .spawn d :: b => d :: spawnsOf b
  | .send _ _ _ _ _ _ _ :: b | .bara _ _ _ _ :: b | .lend :: b => spawnsOf b
/-- The barrier arrivals of a send buffer, in its order: group, reduction, header, vector (R273). -/
def barasOf : List Buffered → List (Nat × Nat × Word × Vec)
  | [] => []
  | .bara g r h v :: b => (g, r, h, v) :: barasOf b
  | .send _ _ _ _ _ _ _ :: b | .spawn _ :: b | .lend :: b => barasOf b
/-- What the release of the send buffer does (R105, R119, R121, R162): its messages leave in its order; its records go to their home engines in PILE
mode, and else, while there is room, behind the deque's others (`back` is what a retry puts back behind them); its arrivals are outstanding; LEND
has acted. -/
def Released (s u : State) (t : TsId) (a : Activation) (back : List (List Byte)) : Prop :=
  let b := (s.tsGet t).sbuf
  let mine := fun (l : Launch) => a.lid = some l.lid ∧ s.launch l.lid = some l
  let room := fun (l : Launch) => (l.deque ((l.ordinal t.core).getD 0)).2.length + (spawnsOf b).length ≤ 256
  ((spawnsOf b = [] ∨ ∃ l, mine l ∧ (l.pile = true ∨ room l)) →
    ∃ fs, u.net = s.net ++ fs ∧ fs.map (fun f => (f.dst, f.dev, f.msg)) = sendsOf t a b (s.tsGet t).mseq) ∧
  ∀ l, mine l →
    (l.pile = true → ∃ es, u.pnet = s.pnet ++ es ∧
      es.filterMap (fun e => match e.2 with | .spawn lid home r _ _ _ => some (lid, home, r) | _ => none) =
        (spawnsOf b).map (fun d => let r := pileRecOf d (taskW1 t l.lid)
          (l.lid, (l.bundles[r.index.toNat % max 1 l.bundles.length]?).getD 0, r))) ∧
    ∃ l', u.launch l.lid = some l' ∧ (.lend ∈ b → l'.lend = true) ∧
      (l.pile = false → room l → (l'.deque ((l.ordinal t.core).getD 0)).2.map DqRec.bytes =
        (l.deque ((l.ordinal t.core).getD 0)).2.map DqRec.bytes ++ spawnsOf b ++ back) ∧
      (u.ops.drop s.ops.length).map (fun o => (o.kind, o.n, o.width, o.hdr, o.vec)) = (barasOf b).map (fun x => (.bara, x.1, x.2.1, x.2.2.1, x.2.2.2))
/-- No write of the launch is still to come: none of its operations is outstanding, frozen, or left by an earlier end (R122, R237). -/
def settled (s : State) (l : Launch) : Prop :=
  (∀ o ∈ s.ops, o.lid ≠ some l.lid) ∧ (∀ b ∈ s.bundles, ∀ f ∈ b.2.frozen, ∀ o ∈ f.ops, o.lid ≠ some l.lid) ∧ ∀ e ∈ s.ending, e.l.lid ≠ l.lid
/-- The program whose INVOKE waits for the launch is told its status (R122, R320). -/
def told (s u : State) (l : Launch) (status : Nat) : Prop :=
  settled s l → ∀ slot, l.src = .invoke slot → ∀ p a, s.prog slot = some p → p.await = .launch a none (some l.lid) none →
    ∃ q, u.prog slot = some q ∧ q.await = .launch a none (some l.lid) (some (statusWord status l.lid))
/-- The area of thread set `t` of core `i` of a save block (R185). -/
def tsArea (blk i t : Nat) : Nat := blk + 0x100000 + 0x80000 * i + 0x3A000 + 0x8000 * t
/-- The instructions of the press (R229). -/
def pressInstr : Instr → Bool
  | .mma _ _ _ _ _ _ _ _ _ | .mst _ _ _ _ _ | .mring _ _ _ | .mradv _ _ | .mzero _ => true
  | _ => false

/-- What a kernel instruction may change besides its thread set: the outstanding operations and the bundles' units. -/
def kernelFrame (s u : State) (t : TsId) : Prop :=
  u = { s with ts := u.ts, ops := u.ops, bundles := u.bundles, nextId := u.nextId, cycle := u.cycle, clock := u.clock, fresh := u.fresh,
                   turns := u.turns } ∧
  ∀ t', t' ≠ t → u.tsGet t' = s.tsGet t'
/-- No store and no kernel instruction of the thread set is outstanding. -/
def kernelQuiet (s : State) (t : TsId) : Prop :=
  ∀ o ∈ s.ops, o.t = t → o.kind.writes = false ∧ o.kind ≠ .ktlb ∧ o.kind ≠ .freeze ∧ o.kind ≠ .thaw
/-- The thread set has gone on past its instruction, and awaits the status of operation `o` at the tail of its load queue. -/
def awaits (s u : State) (e : Exe) (o : Op) : Prop :=
  u.ops = s.ops ++ [o] ∧ o.id = s.nextId ∧ o.t = e.t ∧ o.q = 1 ∧ (u.tsGet e.t).slq = e.x.slq ++ [.wait o.id 0] ∧ (u.tsGet e.t).pc = e.x.pc + 4

/-- C of the issuing core is one more for the activation's launch (R119). -/
def countedOnce (s u : State) (t : TsId) (act : Activation) : Prop :=
  ∀ l o, act.lid = some l.lid → s.launch l.lid = some l → l.ordinal t.core = some o →
    ∃ l', u.launch l.lid = some l' ∧ Assoc.getD l'.counts o 0 = Assoc.getD l.counts o 0 + 1

/-! ## Parts of statements -/

/-- Reading a scalar source (R85, R91, R92, R176): s0 is zero; s1 to s29 give their value; s30 pops the oldest entry of the load queue,
waits while that entry's load is outstanding, and raises QDEAD when the queue holds nothing. The store queue is no source. -/
def ScalarSourceForms : Prop :=
  ∀ (e : Exe) (r : Reg),
    (r = 0#5 → e.srcS r = .ok (0, e)) ∧
    (r ≠ 0#5 → r ≠ 30#5 → r ≠ 31#5 → r.toNat ∉ e.x.softS → e.srcS r = .ok (e.x.sval r, e)) ∧
    (r ≠ 0#5 → r ≠ 30#5 → r ≠ 31#5 → r.toNat ∈ e.x.softS → e.srcS r = trap .soft 0) ∧
    (r = 30#5 → e.x.slq = [] → e.srcS r = trap .qdead 0) ∧
    (∀ v q, r = 30#5 → e.x.slq = .ready v :: q → 0 ∉ e.x.softQ → e.srcS r = .ok (v, { e with x := { e.x with slq := q } })) ∧
    (∀ id k q, r = 30#5 → e.x.slq = .wait id k :: q → e.srcS r = stall (.value false)) ∧
    (∀ c va q, r = 30#5 → e.x.slq = .bad c va :: q → e.srcS r = trap c va) ∧
    (r = 31#5 → e.srcS r = trap .illop 0)

/-- Writing a scalar destination (R85): s0 discards, s31 pushes at the tail of the store queue, s1 to s29 take the value, and no
other register of the thread set changes. -/
def ScalarDestinationForms : Prop :=
  ∀ (x : ThreadSet) (r : Reg) (v : Word),
    (r = 0#5 → x.putS r v = x) ∧
    (r = 31#5 → x.putS r v = { x with ssq := x.ssq ++ [v] }) ∧
    (r ≠ 0#5 → r ≠ 31#5 → (x.putS r v).sval r = v ∧ x.putS r v = { x with sreg := (x.putS r v).sreg, softS := (x.putS r v).softS }) ∧
    ∀ q, q ≠ r → (x.putS r v).sval q = x.sval q

/-- A vector register: v0 to v29 read as their value, v30 pops, v31 pushes; a write changes no other vector register (R85). -/
def VectorRegisterForms : Prop :=
  ∀ (e : Exe) (r : Reg) (v : Vec),
    (r ≠ 30#5 → r ≠ 31#5 → e.pendingFill r = false → r.toNat ∉ e.x.softV → e.srcV r = .ok (Assoc.getD e.x.vreg r.toNat 0, e)) ∧
    (∀ y q, r = 30#5 → e.x.vlq = .ready y :: q → 2 ∉ e.x.softQ → e.srcV r = .ok (y, { e with x := { e.x with vlq := q } })) ∧
    (r = 30#5 → e.x.vlq = [] → e.srcV r = trap .qdead 0) ∧
    (r ≠ 30#5 → r ≠ 31#5 → e.pendingFill r = true → e.srcV r = stall .fill) ∧
    (r = 31#5 → e.x.putV r v = { e.x with vsq := e.x.vsq ++ [v] }) ∧
    (r ≠ 31#5 → Assoc.getD (e.x.putV r v).vreg r.toNat 0 = v ∧ ∀ k, k ≠ r.toNat → Assoc.getD (e.x.putV r v).vreg k 0 = Assoc.getD e.x.vreg k 0)

/-- The ALU-K forms, whose second source is the literal, sign-extended, or the window operand (R218, R258); they are two words long. -/
def AluConstantResult : Prop :=
  ∀ r ∈ aluRows, ∀ (s : State) (t : TsId) (act : Activation), Turn s t act →
  ∀ (d a : Reg) (w : Bool) (k : KOp) (x y : Word) (e1 e2 : Exe),
    (exeOf s t act).srcS a = .ok (x, e1) → e1.roomS d = .ok () → e1.kop k w = .ok (y, e2) →
    (∀ v, k = .lit v → y = v.signExtend 64 ∧ e2 = e1) ∧
    (¬(r.divides = true ∧ e2.x.trapen.getLsbD 0 = true ∧ zeroDivisor w y) →
      ∃ u, exec (r.con d a w k) s = .next u ∧ Retired (e2.putS d (r.val w x y)) 8 u ∧ SameBytes s u)

/-- The high half of a product, of both forms (R258). -/
def MultiplyHighResult : Prop :=
  ∀ (s : State) (t : TsId) (act : Activation), Turn s t act →
  ∀ (d a b : Reg) (k : KOp) (x y z : Word) (e1 e2 e3 : Exe),
    (exeOf s t act).srcS a = .ok (x, e1) →
    (e1.srcS b = .ok (y, e2) → e2.roomS d = .ok () →
      (∃ u, exec (.mulh d a b) s = .next u ∧ Retired (e2.putS d ((x.signExtend 128 * y.signExtend 128).extractLsb' 64 64)) 4 u ∧ SameBytes s u) ∧
      ∃ u, exec (.mulhu d a b) s = .next u ∧ Retired (e2.putS d ((x.setWidth 128 * y.setWidth 128).extractLsb' 64 64)) 4 u ∧ SameBytes s u) ∧
    (e1.roomS d = .ok () → e1.kop k false = .ok (z, e3) →
      (∃ u, exec (.mulhK d a k) s = .next u ∧ Retired (e3.putS d ((x.signExtend 128 * z.signExtend 128).extractLsb' 64 64)) 8 u) ∧
      ∃ u, exec (.mulhuK d a k) s = .next u ∧ Retired (e3.putS d ((x.setWidth 128 * z.setWidth 128).extractLsb' 64 64)) 8 u)

/-- The immediates and the bit counts (R258, R260, R343, R355, R385). -/
def ImmediateResult : Prop :=
  ∀ (s : State) (t : TsId) (act : Activation), Turn s t act →
  ∀ (d a : Reg) (x : Word) (e1 : Exe), (exeOf s t act).srcS a = .ok (x, e1) → e1.roomS d = .ok () →
    (∀ (i : Half) (n : BitVec 6), ∀ r ∈ oneRows i n,
      ∃ u, exec (r.form d a) s = .next u ∧ Retired (e1.putS d (r.val x)) 4 u ∧ SameBytes s u) ∧
    (∀ w : Bool, ∃ u k, exec (.clz d a w) s = .next u ∧ Retired (e1.putS d (BitVec.ofNat 64 k)) 4 u ∧ SameBytes s u ∧
      let m := if w then 32 else 64
      let v := if w then x.toNat % 2 ^ 32 else x.toNat
      k ≤ m ∧ v < 2 ^ (m - k) ∧ (k < m → 2 ^ (m - k - 1) ≤ v)) ∧
    (∀ w : Bool, ∃ u, exec (.popc d a w) s = .next u ∧ SameBytes s u ∧
      Retired (e1.putS d (BitVec.ofNat 64 (((List.range (if w then 32 else 64)).filter (fun i => x.getLsbD i)).length))) 4 u)

/-- LIH replaces sixteen bits of sD, bits 16k to 16k + 15, and keeps the others (R330). -/
def LihResult : Prop :=
  ∀ (s : State) (t : TsId) (act : Activation), Turn s t act →
  ∀ (d : Reg) (k : BitVec 2) (i : Half) (x : Word) (e1 : Exe), (exeOf s t act).srcS d = .ok (x, e1) → e1.roomS d = .ok () →
    ∃ u v, exec (.lih d k i) s = .next u ∧ Retired (e1.putS d v) 4 u ∧ SameBytes s u ∧
      ∀ j, j < 64 → v.getLsbD j = if j / 16 = k.toNat then i.getLsbD (j % 16) else x.getLsbD j

/-- Scalar FP of two sources, and FFMA, which reads sD last and rounds once (R222, R304 to R306): result, sticky flags, and nothing else. -/
def ScalarFpResult : Prop :=
  ∀ (e64 : Bool) (m : BitVec 2) (s : State) (t : TsId) (act : Activation), Turn s t act →
  ∀ (d a b : Reg) (x y : Word) (e1 e2 : Exe), (exeOf s t act).srcS a = .ok (x, e1) → e1.srcS b = .ok (y, e2) →
    (∀ r ∈ fpRows e64 m, e2.roomS d = .ok () →
      let v := r.val (fpArg e64 x) (fpArg e64 y)
      fpQuiet e2 v.2 → ∃ u, exec (r.form d a b) s = .next u ∧ Retired ((withFlags e2 v.2).putS d (BitVec.ofNat 64 v.1)) 4 u ∧ SameBytes s u) ∧
    (∀ z e3, e2.srcS d = .ok (z, e3) → e3.roomS d = .ok () →
      let v := (fmtD e64).fma m.toNat (fpArg e64 x) (fpArg e64 y) (fpArg e64 z)
      fpQuiet e3 v.2 → ∃ u, exec (.ffma d a b e64 m) s = .next u ∧
        Retired ((withFlags e3 v.2).putS d (BitVec.ofNat 64 v.1)) 4 u ∧ SameBytes s u)

/-- Square root and the scalar conversions (R305). -/
def ScalarFpConversionResult : Prop :=
  ∀ (e64 : Bool) (m : BitVec 2), ∀ r ∈ fpOneRows e64 m, ∀ (s : State) (t : TsId) (act : Activation), Turn s t act →
  ∀ (d a : Reg) (x : Word) (e1 : Exe), (exeOf s t act).srcS a = .ok (x, e1) → e1.roomS d = .ok () → fpQuiet e1 (r.val x).2 →
    ∃ u, exec (r.form d a) s = .next u ∧ Retired ((withFlags e1 (r.val x).2).putS d (BitVec.ofNat 64 (r.val x).1)) 4 u ∧ SameBytes s u

/-- FP specials (R136, R305, R306), in FP32 and FP64 and every rounding mode: an operand that is a NaN gives the canonical quiet NaN, with
the invalid flag only for a signaling one; Inf - Inf, 0 * Inf, 0 / 0, Inf / Inf and the square root of a negative number are invalid and
give it too; a finite nonzero number divided by zero is Inf with the divide-by-zero flag; a minimum or maximum with one NaN is the other operand. -/
def FpSpecialResults : Prop :=
  ∀ (e64 : Bool) (rm x y : Nat),
    let f := fmtD e64
    let a := f.decode x
    let b := f.decode y
    let nan := if a = .nan true ∨ b = .nan true then flInvalid else 0#5
    ((a.isNan = true ∨ b.isNan = true) → f.add rm x y = (f.qnan, nan) ∧ f.sub rm x y = (f.qnan, nan) ∧ f.mul rm x y = (f.qnan, nan) ∧
      f.div rm x y = (f.qnan, nan)) ∧
    (∀ n, a = .inf n → (b = .inf (!n) → f.add rm x y = (f.qnan, flInvalid)) ∧ (b = .inf n → f.sub rm x y = (f.qnan, flInvalid)) ∧
      ((∃ k, b = .inf k) → f.div rm x y = (f.qnan, flInvalid)) ∧ ((∃ k q, b = .num k 0 q) → f.mul rm x y = (f.qnan, flInvalid))) ∧
    (∀ n m q k q', a = .num n m q → m ≠ 0 → b = .num k 0 q' → f.div rm x y = (f.inf (n != k), flDivz)) ∧
    ((∃ n k q q', a = .num n 0 q ∧ b = .num k 0 q') → f.div rm x y = (f.qnan, flInvalid)) ∧
    (∀ m q, a = .num true m q → m ≠ 0 → f.sqrt rm x = (f.qnan, flInvalid)) ∧
    (a = .nan false → b.isNan = false → ∀ big, f.minmax big x y = (y, 0#5)) ∧
    (b = .nan false → a.isNan = false → ∀ big, f.minmax big x y = (x, 0#5))

/-- An enabled FP exception, of the two-source operations, FFMA, the square root and the conversions: no result, no flag, the trap FPX (R89, R306). -/
def FpExceptionTraps : Prop :=
  ∀ (e64 : Bool) (m : BitVec 2) (s : State) (t : TsId) (act : Activation), Turn s t act →
  ∀ (d a b : Reg) (x y z : Word) (e1 e2 e3 : Exe), (exeOf s t act).srcS a = .ok (x, e1) →
    (∀ r ∈ fpOneRows e64 m, e1.roomS d = .ok () → ¬ fpQuiet e1 (r.val x).2 → exec (r.form d a) s = .next (trapped s t .fpx 0)) ∧
    (e1.srcS b = .ok (y, e2) →
      (∀ r ∈ fpRows e64 m, e2.roomS d = .ok () → ¬ fpQuiet e2 (r.val (fpArg e64 x) (fpArg e64 y)).2 →
        exec (r.form d a b) s = .next (trapped s t .fpx 0)) ∧
      (e2.srcS d = .ok (z, e3) → e3.roomS d = .ok () →
        ¬ fpQuiet e3 ((fmtD e64).fma m.toNat (fpArg e64 x) (fpArg e64 y) (fpArg e64 z)).2 →
        exec (.ffma d a b e64 m) s = .next (trapped s t .fpx 0)))

/-- The branches (R226, R276, R277): a taken one goes to PC + 4 * SignExt(off), another to the next word; registers are read, none written. -/
def BranchResult : Prop :=
  ∀ (s : State) (t : TsId) (act : Activation), Turn s t act → ∀ (o : BitVec 13),
    let there := fun (e : Exe) (take : Bool) => if take then e.x.pc + 4 * o.signExtend 64 else e.x.pc + 4
    (∀ r ∈ branchRows, ∀ (a b : Reg) (x y : Word) (e1 e2 : Exe), (exeOf s t act).srcS a = .ok (x, e1) → e1.srcS b = .ok (y, e2) →
      ∃ u, exec (r.form a b o) s = .next u ∧ Went e2 (there e2 (r.rel x y)) u ∧ SameBytes s u) ∧
    ∀ (p : BitVec 3) (v : Word), (exeOf s t act).srcP p = .ok v →
      (∃ u, exec (.bpa p o) s = .next u ∧ Went (exeOf s t act) (there (exeOf s t act) (v != 0)) u ∧ SameBytes s u) ∧
      ∃ u, exec (.bpn p o) s = .next u ∧ Went (exeOf s t act) (there (exeOf s t act) (v == 0)) u ∧ SameBytes s u

/-- JAL and JR write PC + 4 and jump; a JR target that is not a multiple of 4 raises ALIGN with the target (R321, R322). -/
def JumpResult : Prop :=
  ∀ (s : State) (t : TsId) (act : Activation), Turn s t act → ∀ (d : Reg),
    let e := exeOf s t act
    (∀ o : BitVec 21, e.roomS d = .ok () →
      ∃ u, exec (.jal d o) s = .next u ∧ Went (e.putS d (e.x.pc + 4)) (e.x.pc + 4 * o.signExtend 64) u ∧ SameBytes s u) ∧
    ∀ (a : Reg) (o : Half) (b : Word) (e1 : Exe), e.srcS a = .ok (b, e1) → e1.roomS d = .ok () →
      let target := b + o.signExtend 64 * 4
      (target.toNat % 4 = 0 → ∃ u, exec (.jr d a o) s = .next u ∧ Went (e1.putS d (e1.x.pc + 4)) target u ∧ SameBytes s u) ∧
      (target.toNat % 4 ≠ 0 → exec (.jr d a o) s = .next (trapped s t .align target))

/-- A load or store whose address is not a multiple of its width raises ALIGN with that address, before any check (R82, R326 to R328). -/
def MisalignedAccessTraps : Prop :=
  ∀ (s : State) (t : TsId) (act : Activation), Turn s t act →
  ∀ (a : Reg) (b : Word) (e1 : Exe), (exeOf s t act).srcS a = .ok (b, e1) → ∀ (z : BitVec 2) (sx : Bool) (h : BitVec 2) (i : Half),
    let va := b + i.signExtend 64 * BitVec.ofNat 64 (2 ^ z.toNat)
    va.toNat % 2 ^ z.toNat ≠ 0 →
    (e1.x.slq.length < 16 → exec (.ld z sx h a i) s = .next (trapped s t .align va)) ∧
    (e1.x.ssq ≠ [] → exec (.st z h a i) s = .next (trapped s t .align va))

/-- The queues raise QDEAD, and nothing is issued: a load into a full load queue, a store from an empty store queue (R92). -/
def QueueDeadTraps : Prop :=
  ∀ (s : State) (t : TsId) (act : Activation), Turn s t act →
  ∀ (a : Reg) (b : Word) (e1 : Exe), (exeOf s t act).srcS a = .ok (b, e1) → ∀ (z : BitVec 2) (sx : Bool) (h : BitVec 2) (i : Half),
    (16 ≤ e1.x.slq.length → exec (.ld z sx h a i) s = .next (trapped s t .qdead 0)) ∧
    (8 ≤ e1.x.vlq.length → exec (.vld h a i) s = .next (trapped s t .qdead 0)) ∧
    (e1.x.ssq = [] → exec (.st z h a i) s = .next (trapped s t .qdead 0)) ∧
    (e1.x.vsq = [] → exec (.vst h a i) s = .next (trapped s t .qdead 0))

/-- BRD and BWR: 64-byte aligned, one side local and the other not (R278, R279, R283); C of the core rises by one for the launch (R119). A wrong
source side raises BOUND with the source, and else a wrong destination side BOUND with the destination. -/
def BlockIssue : Prop :=
  ∀ (s : State) (t : TsId) (act : Activation), Turn s t act →
  ∀ (rd : Bool) (d a b : Reg) (n : BitVec 11) (src dst h : Word) (e1 e2 e3 : Exe) (sb db : List Block),
    (exeOf s t act).srcS a = .ok (src, e1) → e1.srcS b = .ok (dst, e2) → e2.srcS d = .ok (h, e3) →
    src.toNat % 64 = 0 → dst.toNat % 64 = 0 →
    let i : Instr := if rd then .brd d a b n else .bwr d a b n
    let len := 64 * (n.toNat + 1)
    (e3.local src = rd → exec i s = .next (trapped s t .bound src)) ∧
    (e3.local src = !rd → e3.local dst = !rd → exec i s = .next (trapped s t .bound dst)) ∧
    (e3.local src = !rd → e3.local dst = rd → e3.check src len rRD = .ok sb → e3.check dst len rWR = .ok db → e3.roomRecord = .ok () →
      ∃ u o, exec i s = .next u ∧ Names e3 o (if rd then .brd else .bwr) ∧ o.addr = src ∧ o.operand = dst ∧ o.hdr = h ∧ o.width = len ∧
        o.segs = wholeSegs sb ∧ o.dst = wholeSegs db ∧ u.ops = s.ops ++ [o] ∧ u.mem = s.mem ∧
        (u.tsGet t).pc = e3.x.pc + 4 ∧ (u.tsGet t).oseq = e3.x.oseq + 1 ∧ (u.tsGet t).sreg = e3.x.sreg ∧
        countedOnce s u t act ∧ (rd = false → SameBytes s u) ∧ (∀ x, outside (wholeSegs db) x → s.inBrd x = false → u.rdByte x = s.rdByte x))

/-- COPY enters its descriptor at the tail of the context's virtual queue of its level (R149, R150, R287), and C rises (R119); a descriptor out of range
raises BOUND (R288). -/
def CopyIssue : Prop :=
  ∀ (s : State) (t : TsId) (act : Activation), Turn s t act →
  ∀ (d a : Reg) (h : Word) (v : Vec) (e1 e2 : Exe), (exeOf s t act).srcS a = .ok (h, e1) → e1.srcV d = .ok (v, e2) →
    (copyDescOk v = false → exec (.copy d a) s = .next (trapped s t .bound 0)) ∧
    (copyDescOk v = true → e2.checkRows (dRowLen v) (dSstr v) rRD (dRows v) (dSrc v) = .ok () →
      e2.checkRows (dRowLen v) (dDstr v) rWR (dRows v) (dDst v) = .ok () → (s.copyQ act.ctx act.cls).ents.length < 256 → e2.roomRecord = .ok () →
      ∃ u c, exec (.copy d a) s = .next u ∧ c.desc = v ∧ c.hdr = h ∧ c.prog = 0 ∧
        countedOnce s u t act ∧ (u.copyQ act.ctx act.cls).ents = (s.copyQ act.ctx act.cls).ents ++ [c] ∧ (u.copyQ act.ctx act.cls).head = (s.copyQ act.ctx act.cls).head ∧
        (u.tsGet t).pc = e2.x.pc + 4 ∧ (u.tsGet t).oseq = e2.x.oseq + 1 ∧ (u.tsGet t).sreg = e2.x.sreg)

/-- SEND, SENDO, SPAWN, BARA and LEND enter the send buffer, in program order, and do nothing else until DONE or TRET (R105 to R107, R115, R118,
R121, R273, R329, R351, R356). SEND and SENDO keep the low 48 bytes of the vector, and what an endpoint of another device takes is bound for
that device (R208). A full buffer of 32 raises BOUND. That a kernel core needs no endpoint is the model's choice (log 29, DEDUCED), and so is that the
first endpoint entry names the device, and that one which names this device keeps the message here (log 39, DEDUCED and DESIGN CHOICE). -/
def SendBufferResult : Prop :=
  ∀ (s : State) (t : TsId) (act : Activation), Turn s t act →
    let out := fun (i : Instr) (e : Exe) (b : Buffered) =>
      (e.x.sbuf.length < 32 → ∃ u, exec i s = .next u ∧ SameBytes s u ∧ Retired { e with x := { e.x with sbuf := e.x.sbuf ++ [b] } } 4 u) ∧
      (32 ≤ e.x.sbuf.length → exec i s = .next (trapped s t .bound 0))
    (∀ (v a b : Reg) (sc : BitVec 3) (h d : Word) (p : Vec) (e1 e2 e3 : Exe),
      (exeOf s t act).srcS a = .ok (h, e1) → e1.srcS b = .ok (d, e2) → e2.srcV v = .ok (p, e3) →
      let kept : Vec := BitVec.ofNat 512 (p.toNat % 2 ^ 384)
      let inside := fun (c : CoreId) => s.inLaunch (exeOf s t act).view c = true ∨ t.core.kernel = true
      let granted := fun (c : CoreId) => inside c ∨ (s.endpoint? t.core c.idx).isSome = true
      let Far := fun (c : CoreId) (k : Option Nat) => (inside c → k = none) ∧
        (¬ inside c → ∀ j, s.endpoint? t.core c.idx = some j → k = if j = s.device then none else some j)
      (d.toNat < 2 ^ 14 → granted (cc d.toNat) → ∀ k, Far (cc d.toNat) k → (s.coreAbsent (cc d.toNat) = false ∨ k ≠ none) →
        out (.send v a b sc) e3 (.send (cc d.toNat) (!(s.inLaunch (exeOf s t act).view (cc d.toNat))) h 0 sc.toNat kept k)) ∧
      (∀ c : CoreId, e3.owner d = .ok c → granted c → ∀ k, Far c k →
        out (.sendo v a b sc) e3 (.send c (!(s.inLaunch (exeOf s t act).view c)) h 1 sc.toNat kept k))) ∧
    (∀ (v : Reg) (x : Vec) (e1 : Exe), (exeOf s t act).srcV v = .ok (x, e1) →
      (∀ l, e1.launch = some l → l.pile = true → e1.spawnCheck l (pileRecOf (leBytes 32 x.toNat) 0) = .ok ()) →
      out (.spawn v) e1 (.spawn (leBytes 32 x.toNat))) ∧
    (∀ (v a : Reg) (g : Byte) (r : BitVec 3) (h : Word) (x : Vec) (e1 e2 : Exe) (l : Launch),
      (exeOf s t act).srcS a = .ok (h, e1) → e1.srcV v = .ok (x, e2) → e2.launch = some l → l.member g.toNat t.core = true →
      out (.bara v a g r) e2 (.bara g.toNat r.toNat h x)) ∧
    out .lend (exeOf s t act) .lend

/-- A SEND whose destination is neither in the launch nor granted by a thimble endpoint raises GATE; an absent core or a core number
beyond 14 bits raises XLATE with the operand (R106, R107, R209). -/
def SendDestinationTraps : Prop :=
  ∀ (s : State) (t : TsId) (act : Activation), Turn s t act →
  ∀ (v a b : Reg) (sc : BitVec 3) (h d : Word) (p : Vec) (e1 e2 e3 : Exe),
    (exeOf s t act).srcS a = .ok (h, e1) → e1.srcS b = .ok (d, e2) → e2.srcV v = .ok (p, e3) →
    (2 ^ 14 ≤ d.toNat ∨ (s.coreAbsent (cc d.toNat) = true ∧ ∀ j, s.endpoint? t.core d.toNat = some j → j = s.device) →
      exec (.send v a b sc) s = .next (trapped s t .xlate d)) ∧
    (d.toNat < 2 ^ 14 → s.coreAbsent (cc d.toNat) = false → t.core.kernel = false → s.inLaunch (exeOf s t act).view (cc d.toNat) = false →
      s.endpoint? t.core d.toNat = none → exec (.send v a b sc) s = .next (trapped s t .gate d))

/-- DONE ends the activation (R105, R299): the thread set is free, and its send buffer has been released in program order. In a trap handler it
raises ILLOP, and with a value left in a store queue QDEAD. -/
def DoneResult : Prop :=
  ∀ (s : State) (t : TsId) (act : Activation), Turn s t act →
    let e := exeOf s t act
    (e.x.tlev ≠ 0 → exec .done s = .next (trapped s t .illop 0)) ∧
    (e.x.tlev = 0 → (e.x.ssq ≠ [] ∨ e.x.vsq ≠ []) → exec .done s = .next (trapped s t .qdead 0)) ∧
    (e.x.tlev = 0 → e.x.ssq = [] → e.x.vsq = [] → e.waitTokens = .ok () → e.waitReplay = .ok () → e.waitGains = .ok () → e.roomArrivals = .ok () →
      e.x.lost = none → ∃ u, exec .done s = .next u ∧ (u.tsGet t).act = none ∧ (u.tsGet t).sbuf = [] ∧ (u.tsGet t).slq = [] ∧ (u.tsGet t).vlq = [] ∧
        Released s u t act [] ∧ ∀ t', t' ≠ t → u.tsGet t' = s.tsGet t')

/-- LNCH (R114, R331): status 1 for a descriptor that is not granted, 2 when the die's pending-launch store holds 256 child launches (R111, R388),
else 0 with the child queued behind the others; the packet's level is the less urgent of the descriptor's and the granted one. What that store counts
is the model's choice (log 44, DESIGN CHOICE), and that levels 12 to 15 count as 11 too (log 35, DEDUCED). -/
def ChildLaunchResult : Prop :=
  ∀ (s : State) (t : TsId) (act : Activation), Turn s t act →
  ∀ (v a : Reg) (d : Word) (x : Vec) (e1 e2 : Exe), (exeOf s t act).srcS a = .ok (d, e1) → e1.srcV v = .ok (x, e2) → e2.x.slq.length < 16 →
    e2.waitReplay = .ok () → e2.waitTokens = .ok () → e2.waitRelease = .ok () →
    let held := (s.children.filter (fun c => decide (c.die = dieOf t.core))).length +
      (s.launches.filter (fun l => decide (l.src = .child (dieOf t.core)) && decide (l.state ≠ .running))).length
    (e2.descriptor d = none → ∃ u, exec (.lnch v a) s = .next u ∧ Retired (pushed e2 1) 4 u ∧ SameBytes s u) ∧
    ∀ bs, e2.descriptor d = some bs → anyNr bs = false →
      (256 ≤ held → ∃ u, exec (.lnch v a) s = .next u ∧ Retired (pushed e2 2) 4 u ∧ SameBytes s u) ∧
      (held < 256 → ∃ u c, exec (.lnch v a) s = .next u ∧ SameBytes s u ∧ u.children = s.children ++ [c] ∧ c.die = dieOf t.core ∧ c.t = t ∧
        c.ctx = act.ctx ∧ c.words.drop 1 = [8, 16, 24, 32, 40, 48, 56].map (vWord x) ∧
        bits ((c.words[0]?).getD 0) 7 4 = max (levelOf (fieldB (s.rdBlocks bs) 0x28 8)) (levelOf (s.grantLevel act.ctx)) ∧ (u.tsGet t).slq = e2.x.slq ++ [.ready 0] ∧
        (u.tsGet t).pc = e2.x.pc + 4 ∧ (u.tsGet t).sreg = e2.x.sreg ∧ ∀ t', t' ≠ t → u.tsGet t' = s.tsGet t')

/-- VSEL, VPERM, VBCAST and VCMP (R227, R377): a select writes every lane; a permute takes lane `vs2 mod lanes` and a broadcast the scalar on the
on lanes; a compare writes one bit for each on lane and 0 elsewhere. -/
def VectorMoveResult : Prop :=
  ∀ (s : State) (t : TsId) (act : Activation), Turn s t act →
  ∀ (d a b : Reg) (p ty : BitVec 3) (pm : Word),
    let w := tyW ty
    let n := 512 / w
    (∀ (x y : Vec) (e1 e2 : Exe), (exeOf s t act).srcV a = .ok (x, e1) → e1.srcV b = .ok (y, e2) → e2.srcP p = .ok pm →
      (e2.roomV d = .ok () →
        (∃ u v, exec (.vsel d a b p ty) s = .next u ∧ Retired (e2.putV d v) 4 u ∧ SameBytes s u ∧
          ∀ i, i < n → lane w v i = if pm.getLsbD i then lane w x i else lane w y i) ∧
        ∀ old, e2.oldV d = .ok old → ∃ u v, exec (.vperm d a b p ty) s = .next u ∧ Retired (e2.putV d v) 4 u ∧ SameBytes s u ∧
          ∀ i, i < n → lane w v i = if pm.getLsbD i then lane w x (lane w y i % n) else lane w old i) ∧
      ∀ (c : BitVec 2) (q : BitVec 3),
        let r := fun i => laneCmp ty c (lane w x i) (lane w y i)
        let fl := allFlags n pm.getLsbD (fun i => (r i).2)
        fpQuiet e2 fl → ∃ u v, exec (.vcmp c q a b p ty) s = .next u ∧ Retired ((withFlags e2 fl).putP q v) 4 u ∧ SameBytes s u ∧
          ∀ i, i < 64 → v.getLsbD i = (decide (i < n) && pm.getLsbD i && (r i).1)) ∧
    ∀ (x : Word) (e1 : Exe) (old : Vec), (exeOf s t act).srcS a = .ok (x, e1) → e1.srcP p = .ok pm → e1.oldV d = .ok old → e1.roomV d = .ok () →
      ∃ u v, exec (.vbcast d a p ty) s = .next u ∧ Retired (e1.putV d v) 4 u ∧ SameBytes s u ∧
        ∀ i, i < n → lane w v i = if pm.getLsbD i then x.toNat % 2 ^ w else lane w old i

/-- VRED and the three forms of VCVT complete (R377, R379, R380): the reduction writes a scalar; a conversion by lanes keeps off lanes and clears the
lanes beyond; ToMX puts elements from bit 0, the scale in byte 32, zeros elsewhere; FromMX rounds X * P of each element. -/
def VectorReduceConvertResult : Prop :=
  ∀ (s : State) (t : TsId) (act : Activation), Turn s t act → ∀ (d a : Reg) (p : BitVec 3) (pm : Word),
    (∀ (ty : BitVec 3) (o : BitVec 2) (x : Vec) (e1 : Exe), (exeOf s t act).srcV a = .ok (x, e1) → e1.srcP p = .ok pm → e1.roomS d = .ok () →
      let r := vredVal ty o e1.x.vrm (((List.range (512 / tyW ty)).filter (fun i => pm.getLsbD i)).map (lane (tyW ty) x))
      fpQuiet e1 r.2 → ∃ u, exec (.vred d a o p ty) s = .next u ∧ Retired ((withFlags e1 r.2).putS d (BitVec.ofNat 64 r.1)) 4 u ∧ SameBytes s u) ∧
    (∀ (dt st : BitVec 3) (x old : Vec) (e1 : Exe), (exeOf s t act).srcV a = .ok (x, e1) → e1.srcP p = .ok pm → e1.oldV d = .ok old → e1.roomV d = .ok () →
      let n := 512 / max (tyW st) (tyW dt)
      let val := fun i => cvtLane st dt e1.x.vrm (lane (tyW st) x i)
      let fl := allFlags n pm.getLsbD (fun i => (val i).2)
      fpQuiet e1 fl → ∃ u v, exec (.vcvtConvert d a dt p st) s = .next u ∧ Retired ((withFlags e1 fl).putV d v) 4 u ∧ SameBytes s u ∧
        ∀ i, i < 512 / tyW dt → lane (tyW dt) v i = if n ≤ i then 0 else if pm.getLsbD i then (val i).1 % 2 ^ tyW dt else lane (tyW dt) old i) ∧
    (∀ (nr : Bool) (f : BitVec 4) (st : BitVec 3) (xs : List Nat) (e1 : Exe), (exeOf s t act).mxSource a st = .ok (xs, e1) → e1.roomV d = .ok () →
      let r := toMX f.toNat nr (xs.map (tyFmt st).decode)
      fpQuiet e1 r.2.2 → ∃ u v, exec (.vcvtTomx d a nr f st) s = .next u ∧ Retired ((withFlags e1 r.2.2).putV d v) 4 u ∧ SameBytes s u ∧
        v = BitVec.ofNat 512 (packBits (mxWidth f.toNat) r.2.1 + r.1 * 2 ^ 256)) ∧
    ∀ (f : BitVec 4) (st : BitVec 3) (x : Vec) (e1 : Exe), (exeOf s t act).srcV a = .ok (x, e1) → e1.roomV d = .ok () →
      (st = 6#3 → e1.roomV (d + 1) = .ok ()) →
      let val := fun i => (tyFmt st).ofFV e1.x.vrm (mxValue f.toNat (lane 8 x 32) (x.toNat / 2 ^ (mxWidth f.toNat * i) % 2 ^ mxWidth f.toNat))
      let fl := allFlags 32 (fun _ => true) (fun i => (val i).2)
      fpQuiet e1 fl → ∃ u v z, exec (.vcvtFrommx d a f st) s = .next u ∧ SameBytes s u ∧
        Retired (if st = 6#3 then ((withFlags e1 fl).putV d v).putV (d + 1) z else (withFlags e1 fl).putV d v) 4 u ∧
        (st = 6#3 → ∀ i, i < 16 → lane 32 v i = (val i).1 % 2 ^ 32 ∧ lane 32 z i = (val (16 + i)).1 % 2 ^ 32) ∧
        (st ≠ 6#3 → ∀ i, i < 32 → lane 16 v i = (val i).1 % 2 ^ 16)

/-- MMA, MZERO and MST enter the core's press queue of 8 at its tail, with the activation's CLASS, and MST moves OSEQ and C (R143 to R145, R335,
R339, R341). On a kernel core every instruction of the press is ILLOP (R229). -/
def PressIssue : Prop :=
  ∀ (s : State) (t : TsId) (act : Activation), Turn s t act →
    let e := exeOf s t act
    let queued := fun (u : State) (c : PressCmd) => (u.core t.core).pressQ = (s.core t.core).pressQ ++ [c] ∧ c.t = t ∧ c.cls = act.cls
    (t.core.kernel = true → ∀ i, pressInstr i = true → exec i s = .next (trapped s t .illop 0)) ∧
    (t.core.kernel = false → (s.core t.core).pressQ.length < 8 →
      (∀ sl : BitVec 2, ∃ u c, exec (.mzero sl) s = .next u ∧ queued u c ∧ c.word = .mzero sl ∧ SameBytes s u ∧
        (u.tsGet t).pc = e.x.pc + 4 ∧ (u.tsGet t).sreg = e.x.sreg) ∧
      (∀ (a b sl : BitVec 3) (f g : BitVec 4) (z k j : Bool) (n : BitVec 3) (ra rb : Ring), e.ring a.toNat = some ra → e.ring b.toNat = some rb →
        ra.fmt = f.toNat → rb.fmt = g.toNat → n.toNat + 1 ≤ ra.count → n.toNat + 1 ≤ rb.count →
        ∃ u c, exec (.mma a b sl f g z k j n) s = .next u ∧ queued u c ∧ c.word = .mma a b sl f g z k j n ∧ SameBytes s u ∧
          (u.tsGet t).pc = e.x.pc + 4 ∧ (u.tsGet t).sreg = e.x.sreg) ∧
      ∀ (d a b : Reg) (m : BitVec 3) (sl : BitVec 2) (va st h : Word) (e1 e2 e3 : Exe) (bs : List Block),
        e.srcS a = .ok (va, e1) → e1.srcS b = .ok (st, e2) → e2.srcS d = .ok (h, e3) → va.toNat % 64 = 0 → st.toNat % 64 = 0 →
        st.toNat < 2 ^ 32 → mstRowBytes m.toNat ≤ st.toNat → e3.mstRows st (mstRowBytes m.toNat) 32 va = .ok bs →
        ∃ u c, exec (.mst d a b m sl) s = .next u ∧ queued u c ∧ c.word = .mst d a b m sl ∧ c.addr = va ∧ c.stride = st.toNat ∧ c.hdr = h ∧
          countedOnce s u t act ∧ SameBytes s u ∧ (u.tsGet t).pc = e.x.pc + 4 ∧ (u.tsGet t).oseq = e.x.oseq + 1 ∧ (u.tsGet t).sreg = e.x.sreg)

/-- MRING binds a ring at a checked place and zeroes its control line, HEAD and TAIL among it, where it overlaps nothing; MRADV moves TAIL by the low 16 bits of its source (R140, R142, R338).
A ring that does not end within the scratchpad raises BOUND with its first byte beyond; an advance of 2^16 or more, or beyond the ring's count,
raises BOUND with the ring's base. That a named region which holds the whole ring is no overlap is
the model's choice (log 30, DEDUCED). -/
def RingResult : Prop :=
  ∀ (s : State) (t : TsId) (act : Activation), Turn s t act → t.core.kernel = false →
    (∀ (a b : Reg) (n : BitVec 3) (base v : Word) (e1 e2 : Exe), (exeOf s t act).srcS a = .ok (base, e1) → e1.srcS b = .ok (v, e2) →
      let count := v.toNat % 256
      let fmt := v.toNat / 256 % 16
      v.toNat < 2 ^ 12 → count ≠ 0 → fmt ≤ 7 → base.toNat % 64 = 0 →
      (s.scratchSize t.core ≤ base.toNat → exec (.mring a b n) s = .next (trapped s t .bound base)) ∧
      (base.toNat < s.scratchSize t.core → s.scratchSize t.core < base.toNat + 64 + slotSize fmt * count →
        exec (.mring a b n) s = .next (trapped s t .bound (BitVec.ofNat 64 (s.scratchSize t.core)))) ∧
      (base.toNat + 64 + slotSize fmt * count ≤ s.scratchSize t.core → (s.core t.core).pressQ.all (fun c => !c.names n.toNat) = true →
        ∃ u, exec (.mring a b n) s = .next u ∧
          Assoc.get (u.core t.core).rings n.toNat = some { base := base.toNat, count := count, fmt := fmt, lid := act.lid } ∧
          (∀ m, m ≠ n.toNat → Assoc.get (u.core t.core).rings m = Assoc.get (s.core t.core).rings m) ∧
          ((∀ p ∈ s.reserved4 t.core n.toNat base.toNat (64 + slotSize fmt * count), base.toNat + 64 + slotSize fmt * count ≤ p.1 ∨ p.1 + p.2 ≤ base.toNat) →
            let line := scratchBus t.core base.toNat
            (∀ j, j < 64 → s.inBrd (line + j) = false → u.rdByte (line + j) = 0) ∧
            ∀ x, (x < line ∨ line + 64 ≤ x) → s.inBrd x = false → u.inBrd x = false → u.rdByte x = s.rdByte x) ∧
          (u.tsGet t).pc = e2.x.pc + 4 ∧ (u.tsGet t).sreg = e2.x.sreg)) ∧
    ∀ (a : Reg) (n : BitVec 3) (v : Word) (e1 : Exe) (r : Ring), (exeOf s t act).srcS a = .ok (v, e1) → e1.ring n.toNat = some r →
      let used := (s.ringTail t.core r - s.ringHead t.core r).toNat
      (v.toNat < 2 ^ 16 → used + v.toNat ≤ r.count → e1.waitScratch = .ok () →
        ∃ u, exec (.mradv a n) s = .next u ∧ (u.tsGet t).pc = e1.x.pc + 4 ∧ (u.tsGet t).sreg = e1.x.sreg ∧
          (∀ x, (x < scratchBus t.core (r.base + 4) ∨ scratchBus t.core (r.base + 4) + 4 ≤ x) → s.inBrd x = false → u.rdByte x = s.rdByte x) ∧
          ((∀ j, j < 4 → s.inBrd (scratchBus t.core (r.base + 4) + j) = false) → u.ringTail t.core r = s.ringTail t.core r + v.setWidth 32)) ∧
      (2 ^ 16 ≤ v.toNat ∨ r.count < used + v.toNat → exec (.mradv a n) s = .next (trapped s t .bound (BitVec.ofNat 64 r.base)))

/-- The fences complete when what they wait for is done, and change nothing else (R160). -/
def FenceResult : Prop :=
  ∀ (s : State) (t : TsId) (act : Activation), Turn s t act → ∀ sc : BitVec 3,
    let e := exeOf s t act
    let loads := ∀ o ∈ s.ops, o.t = t → o.kind.loads = false ∧ o.kind ≠ .fill ∧ o.kind ≠ .amo ∧ o.kind ≠ .gget
    let rel := s.replay t = [] ∧ (∀ o ∈ s.ops, o.t = t → o.kind ≠ .spill ∧ o.kind ≠ .fill) ∧ s.cumulative t = []
    (loads → ∃ u, exec (.fenceAcq sc) s = .next u ∧ Retired e 4 u ∧ SameBytes s u) ∧
    (rel → ∃ u, exec (.fenceRel sc) s = .next u ∧ Retired e 4 u ∧ SameBytes s u) ∧
    (rel → loads → ∃ u, exec (.fenceFull sc) s = .next u ∧ Retired e 4 u ∧ SameBytes s u)

/-- SPILL and FILL issue 64 aligned bytes of the core's own scratchpad and raise their token; TOKW goes on when the token is zero (R95 to R97). -/
def SpillFillResult : Prop :=
  ∀ (s : State) (t : TsId) (act : Activation), Turn s t act → ∀ (d a : Reg) (n : BitVec 3) (b : Word) (e1 : Exe),
    (exeOf s t act).srcS a = .ok (b, e1) →
    (b.toNat % 64 = 0 → b.toNat + 64 ≤ s.scratchSize t.core → s.tokCount t n.toNat < 15 →
      (∀ (v : Vec) (e2 : Exe), e1.srcV d = .ok (v, e2) → ∃ u o, exec (.spill d a n) s = .next u ∧ SameBytes s u ∧ o.kind = .spill ∧ o.t = t ∧
        o.data = leBytes 64 v.toNat ∧ o.addr = b ∧ o.width = n.toNat ∧ u.ops = s.ops ++ [o] ∧ u.tokCount t n.toNat = s.tokCount t n.toNat + 1 ∧
        (u.tsGet t).pc = e2.x.pc + 4 ∧ (u.tsGet t).sreg = e2.x.sreg ∧ (u.tsGet t).vreg = e2.x.vreg) ∧
      ∃ u o, exec (.fill d a n) s = .next u ∧ SameBytes s u ∧ o.kind = .fill ∧ o.t = t ∧ o.n = d.toNat ∧ o.addr = b ∧ o.width = n.toNat ∧
        u.ops = s.ops ++ [o] ∧ u.tokCount t n.toNat = s.tokCount t n.toNat + 1 ∧
        (u.tsGet t).pc = e1.x.pc + 4 ∧ (u.tsGet t).sreg = e1.x.sreg ∧ (u.tsGet t).vreg = e1.x.vreg) ∧
    (b.toNat % 64 ≠ 0 → exec (.spill d a n) s = .next (trapped s t .align b) ∧ exec (.fill d a n) s = .next (trapped s t .align b)) ∧
    (s.tokCount t n.toNat = 0 → ∃ u, exec (.tokw n) s = .next u ∧ Retired (exeOf s t act) 4 u ∧ SameBytes s u)

/-- GETSR reads every special register of R88, each by its number: the value of its field of the thread set, the core, the launch or the clock, and
ILLOP for a number that is no register's. That LAUNCH, RESID and TOL read 0 where the activation has no launch, and RESID and TOL where its launch has no
Pile, is the model's choice (log 44, DESIGN CHOICE, on R88). -/
def GetSpecialRegisterResult : Prop :=
  ∀ (s : State) (t : TsId) (act : Activation), Turn s t act → ∀ (d : Reg) (n : BitVec 12) (v : Word),
    let e := exeOf s t act
    let x := s.tsGet t
    let regs : List (Nat × Word) :=
      [ (0x001, (act.lid.getD 0).setWidth 64), (0x002, BitVec.ofNat 64 (Assoc.getD s.cycle (islandOf t.core) 0)),
        (0x003, BitVec.ofNat 64 (s.clock % 1000000000 + s.clock / 1000000000 % 2 ^ 32 * 2 ^ 32) ), (0x007, x.fpcsr), (0x008, x.trapen), (0x009, x.wbudget),
        (0x020, BitVec.ofNat 64 x.tlev), (0x021, x.bank1.cause), (0x022, x.bank1.epc), (0x023, x.bank1.addr), (0x024, x.bank1.msg), (0x025, x.tvec1),
        (0x029, x.bank2.cause), (0x02A, x.bank2.epc), (0x02B, x.bank2.addr), (0x02C, x.bank2.msg), (0x02D, x.tvec2),
        (0x000, BitVec.ofNat 64 (t.core.idx + 2 ^ 14 * t.ts + if t.core.kernel then 2 ^ 16 else 0)),
        (0x004, BitVec.ofNat 64 (s.scratchSize t.core + 2 ^ 20 * if t.core.kernel then 128 else (s.core t.core).l1)),
        (0x005, BitVec.ofNat 64 (x.slq.length + 2 ^ 5 * x.ssq.length + 2 ^ 9 * x.vlq.length + 2 ^ 13 * x.vsq.length)) ]
    let mine := act.lid.bind s.launch
    let byLaunch : List (Nat × Word) :=
      (List.range 8).map (fun i => (0x010 + i, (mine.map (fun l => ((l.kbAt t.core)[i]?).getD 0)).getD 0)) ++
      [ (0x030, ((mine.filter Launch.pile).map Launch.resid).getD 0), (0x031, ((mine.filter Launch.pile).map Launch.tol).getD 0) ]
    t.core.idx < 2 ^ 14 → t.ts < 4 → x.slq.length < 2 ^ 5 → x.ssq.length < 2 ^ 4 → x.vlq.length < 2 ^ 4 →
    e.roomS d = .ok () →
    ((n.toNat, v) ∈ byLaunch → ∃ u, exec (.getsr d n) s = .next u ∧ Retired (e.putS d v) 4 u ∧ SameBytes s u) ∧
    (n.toNat = 0x006 → (∀ i, i < 8 → s.tokCount t i < 16) → ∃ u w, exec (.getsr d n) s = .next u ∧ Retired (e.putS d w) 4 u ∧ SameBytes s u ∧
      w.toNat < 2 ^ 32 ∧ ∀ i, i < 8 → w.extractLsb' (4 * i) 4 = BitVec.ofNat 4 (s.tokCount t i)) ∧
    ((n.toNat, v) ∈ regs → ∃ u, exec (.getsr d n) s = .next u ∧ Retired (e.putS d v) 4 u ∧ SameBytes s u) ∧
    (srOk n = true → ∃ u w, exec (.getsr d n) s = .next u ∧ Retired (e.putS d w) 4 u ∧ SameBytes s u) ∧
    (srOk n = false → exec (.getsr d n) s = .next (trapped s t .illop 0))

/-- SETSR writes the fields that can be written: VRM and, by a one, the clearing of sticky flags in FPCSR; TRAPEN bits [5:0]; both TVECs. Writes to
every other special register are discarded (R88, R89, R353). -/
def SetSpecialRegisterResult : Prop :=
  ∀ (s : State) (t : TsId) (act : Activation), Turn s t act → ∀ (a : Reg) (n : BitVec 12) (v : Word) (e1 : Exe), srOk n = true →
    (exeOf s t act).srcS a = .ok (v, e1) →
    ∃ u x, exec (.setsr a n) s = .next u ∧ SameBytes s u ∧ Retired { e1 with x := x } 4 u ∧
      (n.toNat = 0x007 → x = { e1.x with fpcsr := x.fpcsr } ∧ (∀ i, i < 2 → x.fpcsr.getLsbD i = v.getLsbD i) ∧
        (∀ i, 2 ≤ i → i < 7 → x.fpcsr.getLsbD i = (e1.x.fpcsr.getLsbD i && !v.getLsbD i)) ∧ ∀ i, 7 ≤ i → x.fpcsr.getLsbD i = e1.x.fpcsr.getLsbD i) ∧
      (n.toNat = 0x008 → x = { e1.x with trapen := v &&& 0x3F#64 }) ∧ (n.toNat = 0x025 → x = { e1.x with tvec1 := v }) ∧
      (n.toNat = 0x02D → x = { e1.x with tvec2 := v }) ∧ (n.toNat ∉ [0x007, 0x008, 0x025, 0x02D] → x = e1.x)

/-- NOP does nothing, YIELD ends the issue run, BRK reports to Edoiny when its context has the break enable, or counts the report that finds the
debug endpoint full, and goes on (R84, R281, R386; how full the endpoint is stays free, log 34). -/
def NopYieldBrkResult : Prop :=
  ∀ (s : State) (t : TsId) (act : Activation), Turn s t act →
    let e := exeOf s t act
    (∃ u, exec .nop s = .next u ∧ Retired e 4 u ∧ SameBytes s u) ∧
    (∃ u v, exec .yield s = .next v ∧ Retired e 4 u ∧ v = u.tsSet t { u.tsGet t with run := 0 } ∧ SameBytes s v) ∧
    ∀ (a : Reg) (c : BitVec 4) (v : Word) (e1 : Exe), e.srcS a = .ok (v, e1) →
      (s.breakOn act.ctx = false → ∃ u, exec (.brk a c) s = .next u ∧ Retired e1 4 u ∧ SameBytes s u) ∧
      (s.breakOn act.ctx = true → ∃ u, exec (.brk a c) s = .next u ∧ SameBytes s u ∧ (u.tsGet t).pc = e1.x.pc + 4 ∧ (u.tsGet t).sreg = e1.x.sreg ∧
        (s.debugFull = false → ∃ bs, u.reports = .brk bs :: s.reports ∧ u.ctxs = s.ctxs ∧ sliceB bs 0 8 = leBytes 8 (coreWord t).toNat ∧
          sliceB bs 8 8 = leBytes 8 e.x.pc.toNat ∧ sliceB bs 16 8 = leBytes 8 v.toNat ∧ sliceB bs 24 4 = leBytes 4 c.toNat) ∧
        (s.debugFull = true → u.reports = s.reports ∧
          ∀ n, (u.ctx n).map NCtx.brkDrops = (s.ctx n).map (fun k => if n = act.ctx then k.brkDrops + 1 else k.brkDrops)))

/-- TRAP takes the trap of its code with its source as TADDR (R180, R375). -/
def TrapInstructionResult : Prop :=
  ∀ (s : State) (t : TsId) (act : Activation), Turn s t act → ∀ (a : Reg) (c : BitVec 4) (v : Word) (e1 : Exe),
    (exeOf s t act).srcS a = .ok (v, e1) → exec (.trap a c) s = .next ((s.tick t false).takeTrap t c.toNat v)

/-- TRET retry and skip end the trap and the activation (R180, R374): TLEV is 0, both banks are zero, the thread set is free, and the send buffer has
been released in program order (R105). A retry puts the message back, before the first of its class, with MARK 1, or the deque record behind the
deque's others; a skip drops it and counts it in SKIPS; a Pile record goes back to its engine in both, with MARK on a retry. TRET outside a trap
raises ILLOP. TRET kill ends the context: every activation of it is gone, and the kill report holds the banks and WHO (R181). That a skip returns
nothing, the place of a returned message among the other classes, and a deque's 257th record are the model's choices (log 44). -/
def TrapReturnResult : Prop :=
  ∀ (s : State) (t : TsId) (act : Activation), Turn s t act →
    let e := exeOf s t act
    let mine := fun (l : Launch) => act.lid = some l.lid ∧ s.launch l.lid = some l
    (e.x.tlev = 0 → ∀ i ∈ ([.tretRetry, .tretSkip, .tretKill] : List Instr), exec i s = .next (trapped s t .illop 0)) ∧
    (e.x.tlev ≠ 0 → e.x.ssq = [] → e.x.vsq = [] →
      (e.waitTokens = .ok () → e.waitReplay = .ok () → e.waitGains = .ok () → e.roomArrivals = .ok () → e.x.lost = none →
        ∀ r ∈ ([(.tretRetry, true), (.tretSkip, false)] : List (Instr × Bool)), ∃ u, exec r.1 s = .next u ∧
          (u.tsGet t).act = none ∧ (u.tsGet t).tlev = 0 ∧ (u.tsGet t).bank1 = {} ∧ (u.tsGet t).bank2 = {} ∧ (u.tsGet t).sbuf = [] ∧
          Released s u t act (match act.origin with | .deque k => if r.2 then [k.bytes] else [] | _ => []) ∧
          (r.2 = false → u.core t.core = s.core t.core) ∧
          (r.2 = true → act.origin = .message → ∃ pre post, (s.core t.core).basket ++ (s.core t.core).membk = pre ++ post ∧
            (∀ m ∈ pre, msgClass m.w0 ≠ msgClass act.msg.w0) ∧
            (u.core t.core).basket ++ (u.core t.core).membk = pre ++ { act.msg with w1 := act.msg.w1 ||| at64 1 55 } :: post) ∧
          (∀ k home run lid, act.origin = .pile k home run → act.lid = some lid →
            ∃ id k', (id, .retire lid home k' true t run) ∈ u.pnet ∧ k'.s2.getLsbD 55 = r.2 ∧ { k' with s2 := k.s2 } = k) ∧
          (∀ l, mine l → ∃ l', u.launch l.lid = some l' ∧ l'.skips = l.skips + if r.2 then 0 else 1) ∧
          ∀ t', t' ≠ t → u.tsGet t' = s.tsGet t') ∧
      ∃ u, exec .tretKill s = .next u ∧ (u.tsGet t).act = none ∧ (∀ t' a', (u.tsGet t').act = some a' → a'.ctx ≠ act.ctx) ∧
        .kill (killReport e.x.bankCauses e.x.bank1.msg (whoWord t act.lid act.ctx e.x.tlev true) s.stamp) ∈ u.reports)

/-- ASET and ACALC (R256, R269): one register A is written. -/
def LivikArithmeticResult : Prop :=
  ∀ (s : State) (p : Prog), ProgTurn s p → ∀ (a b c : LIdx),
    (∀ i : Word32, ∃ u, exec (.aset a i) s = .next u ∧ Ran s u p { p with a := p.a.set a.toNat (i.signExtend 64) } (p.pc + 1) ∧ OnlyPrograms s u) ∧
    ∀ r ∈ calcRows, ∃ u, exec (r.form a b c) s = .next u ∧ OnlyPrograms s u ∧
      Ran s u p { p with a := p.a.set a.toNat (r.val (p.ga b) (p.ga c)) } (p.pc + 1)

/-- GOTO, GOIF, GOSUB and GORET change PC and the return stack of 16 only; GOSUB writes the word of RETSTK at the depth, and GORET leaves every word
of it (R24, R318); a full or empty stack is agent fault 9. -/
def LivikControlResult : Prop :=
  ∀ (s : State) (p : Prog), ProgTurn s p → ∀ (a : LIdx) (i : Word32),
    (∃ u, exec (.goto i) s = .next u ∧ Ran s u p p i.toNat ∧ OnlyPrograms s u) ∧
    (∃ u, exec (.goif a i) s = .next u ∧ Ran s u p p (if p.ga a = 0 then p.pc + 1 else i.toNat) ∧ OnlyPrograms s u) ∧
    (p.retstk.length < 16 → ∃ u w, exec (.gosub i) s = .next u ∧ Ran s u p { p with retstk := (p.pc + 1) :: p.retstk, retw := w } i.toNat ∧
      OnlyPrograms s u ∧ w[p.retstk.length]? = some (p.pc + 1) ∧
      ∀ j, j < 16 → j ≠ p.retstk.length → w[j]? = some ((p.retw[j]?).getD 0)) ∧
    (16 ≤ p.retstk.length → exec (.gosub i) s = agentFault s p 9) ∧
    (∀ r rest, p.retstk = r :: rest → ∃ u, exec .goret s = .next u ∧ Ran s u p { p with retstk := rest } r ∧ OnlyPrograms s u) ∧
    (p.retstk = [] → exec .goret s = agentFault s p 9)

/-- END (R301): the program is DONE, PC keeps its index, RETN has counted the END, and its registers stand. -/
def LivikEndResult : Prop :=
  ∀ (s : State) (p : Prog), ProgTurn s p →
    ∃ u q, exec .endp s = .next u ∧ u.prog p.slot = some q ∧ q.state = .done ∧ q.pc = p.pc ∧ q.retn = p.retn + 1 ∧ SameRegs p q

/-- CTXNEW, CTXFORK and CTXLEN (R293, R291, R292): a new context id that was not live, empty or with its source's length and page list; the handle
names it with its generation. -/
def ContextCreateResult : Prop :=
  ∀ (s : State) (p : Prog), ProgTurn s p → p.repeated ownerTable = none → ∀ (a b : LIdx),
    let made := fun (i : Instr) (img : Half) (src : LCtx) => ∃ u g h, exec i s = .next u ∧ h = handle g (s.lc g).gen ∧ (s.lc g).live = false ∧
      Ran s u p ({ p with c := p.c.set a.toNat h }.remember ownerTable p.mark h) (p.pc + 1) ∧ (u.lc g).live = true ∧ (u.lc g).img = img ∧
      (u.lc g).len = src.len ∧ (u.lc g).list = src.list ∧ (u.lc g).pin = false ∧ ∀ c, c ≠ g → u.lc c = s.lc c
    (∀ m, (p.ga b).toNat < 2 ^ 16 → s.image ((p.ga b).setWidth 16) = some m → m.ctx = p.nctx → s.pass.freeCid ≠ none → made (.ctxnew a b) m.id LCtx.empty) ∧
    (∀ c, s.named (p.gc b) = some c → (s.lc c).busy = none → s.pass.freeCid ≠ none → made (.ctxfork a b) (s.lc c).img (s.lc c)) ∧
    (∀ c, s.named (p.gc b) = some c → ∃ u, exec (.ctxlen a b) s = .next u ∧ OnlyPrograms s u ∧
      Ran s u p ({ p with a := p.a.set a.toNat (BitVec.ofNat 64 (s.lc c).len) }.remember ownerTable p.mark (BitVec.ofNat 64 (s.lc c).len)) (p.pc + 1)) ∧
    (s.named (p.gc b) = none → exec (.ctxfork a b) s = agentFault s p 2 ∧ exec (.ctxlen a b) s = agentFault s p 2)

/-- CTXDROP, CTXTRIM and CTXPIN (R290, R297, R298, R295, R296): the context is no longer live and the register reads 0; a trim to the length or more changes
nothing; a pin sets or clears PIN and nothing else of the context. A trim to less is ContextTrimResult. -/
def ContextChangeResult : Prop :=
  ∀ (s : State) (p : Prog), ProgTurn s p → p.repeated ownerTable = none → ∀ (a b : LIdx) (c : Nat), s.named (p.gc a) = some c →
    ((s.lc c).busy = none → (s.lc c).gen < 0xFFFF →
      ∃ u q, exec (.ctxdrop a) s = .next u ∧ u.prog p.slot = some q ∧ q.c = p.c.set a.toNat 0 ∧ q.a = p.a ∧ q.t = p.t ∧ q.pc = p.pc + 1 ∧
        q.retn = p.retn + 1 ∧ (u.lc c).live = false ∧ (u.lc c).gen = (s.lc c).gen + 1) ∧
    ((s.lc c).busy = none → (s.lc c).len ≤ (p.ga b).toNat →
      ∃ u q, exec (.ctxtrim a b) s = .next u ∧ u.prog p.slot = some q ∧ SameRegs p q ∧ q.pc = p.pc + 1 ∧ q.retn = p.retn + 1 ∧ u.lc c = s.lc c) ∧
    ((s.lc c).pin = false → (∀ i ∈ (s.lc c).list, s.pins i < 254) →
      ∃ u, exec (.ctxpinHold a) s = .next u ∧ Ran s u p (p.remember ownerTable p.mark 0) (p.pc + 1) ∧ u.lc c = { s.lc c with pin := true } ∧
        ∀ k, k ≠ c → u.lc k = s.lc k) ∧
    ((s.lc c).pin = true →
      ∃ u, exec (.ctxpinRelease a) s = .next u ∧ Ran s u p (p.remember ownerTable p.mark 0) (p.pc + 1) ∧ u.lc c = { s.lc c with pin := false } ∧
        ∀ k, k ≠ c → u.lc k = s.lc k)

/-- CTXTRIM to a shorter length (R73, R74, R297, R298): it retires where the page that holds the new TAIL is resident and, for a last page that is cut and
shared, a frame and an entry are there for its copy. L, TAIL and the page list are those of the new length, and the registers stand; a last page that is
cut in place has the new FILL and a new MGEN, and one that is shared is replaced by a copy of its first lines. -/
def ContextTrimResult : Prop :=
  ∀ (s : State) (p : Prog), ProgTurn s p → p.repeated ownerTable = none → ∀ (a b : LIdx) (c : Nat), s.named (p.gc a) = some c →
    (s.lc c).busy = none → (p.ga b).toNat < (s.lc c).len →
    let x := s.lc c
    let len := (p.ga b).toNat
    let keep := (len + 14) / 16
    let tailPage := s.page ((x.list[(len - 1) / 16]?).getD 0)
    let last := (x.list[keep - 1]?).getD 0
    let f := len - 1 - 16 * (keep - 1)
    let cut := 2 ≤ len ∧ f < (s.page last).fill
    (1 ≤ len → tailPage.res = 0) →
    (cut → 2 ≤ (s.page last).refc → (s.page last).res = 0 ∧ s.framesOf p.slot (s.pageUnits x.img) ≠ [] ∧ 1 ≤ s.freeEntries) →
    ∃ u q, exec (.ctxtrim a b) s = .next u ∧ u.prog p.slot = some q ∧ SameRegs p q ∧ q.pc = p.pc + 1 ∧ q.retn = p.retn + 1 ∧
      (u.lc c).len = len ∧ (u.lc c).tail = (if len = 0 then 0 else s.pass.rd32 (s.idWord tailPage (len - 1))) ∧
      (u.lc c).live = true ∧ (u.lc c).gen = x.gen ∧ (u.lc c).pin = x.pin ∧ (∀ k, k ≠ c → u.lc k = s.lc k) ∧
      (¬(cut ∧ 2 ≤ (s.page last).refc) → (u.lc c).list = x.list.take keep) ∧
      (x.list.Nodup → keep ≤ x.list.length → (∀ i ∈ x.list, (s.page i).used = true) → cut →
        ((s.page last).refc < 2 → u.page last = { s.page last with fill := f, mgen := ((s.page last).mgen + 1) % 65536, lines := 0 }) ∧
        ∀ n, 2 ≤ (s.page last).refc → s.pass.allocPti = some n →
          (u.lc c).list = (x.list.take keep).set (keep - 1) n ∧ (u.page n).fill = f ∧ (u.page n).refc = 1 ∧ (u.page n).used = true ∧
          (u.page last).refc = (s.page last).refc - 1)

/-- A repeated agent mark applies nothing: the remembered result is written and the instruction retires (R47, R272). An INVOKE waits for the launch that
the front end remembers, with its status where it has one, and an END posts no second notice. -/
def RepeatedMarkResult : Prop :=
  ∀ (s : State) (p : Prog), ProgTurn s p → ∀ (r : AgentMark) (a b : LIdx) (c : LReg) (i : Word32),
    let ran := fun (i : Instr) (q : Prog) => ∃ u, exec i s = .next u ∧ Ran s u p q (p.pc + 1) ∧ OnlyPrograms s u
    (p.repeated ownerTable = some r →
      ran (.ctxnew a b) { p with c := p.c.set a.toNat r.res } ∧ ran (.ctxfork a b) { p with c := p.c.set a.toNat r.res } ∧
      ran (.ctxlen a b) { p with a := p.a.set a.toNat r.res } ∧ ran (.ctxpinHold a) p ∧ ran (.ctxpinRelease a) p ∧
      (∃ u q, exec (.ctxdrop a) s = .next u ∧ u.prog p.slot = some q ∧ q.c = p.c.set a.toNat 0 ∧ q.pc = p.pc + 1 ∧ q.retn = p.retn + 1 ∧ u.lctx = s.lctx) ∧
      ∃ u q, exec (.ctxtrim a b) s = .next u ∧ u.prog p.slot = some q ∧ SameRegs p q ∧ q.pc = p.pc + 1 ∧ q.retn = p.retn + 1 ∧ u.lctx = s.lctx) ∧
    (p.repeated (if (p.ga b).toNat % 2 ^ 16 = 0xFFFF then ownerHost else ownerMail ((p.ga b).toNat % 2 ^ 16)) = some r →
      ran (.post a b c i) { p with a := p.a.set a.toNat r.res }) ∧
    (p.repeated (ownerMail p.slot) = some r → ran (.await c b i) (match r.entry with
      | some e => p.take c b e
      | none => { p with a := p.a.set b.toNat r.res })) ∧
    (∀ h w, p.repeated ownerImage = some r → i.toNat % 8 = 0 → i.toNat + 4 + 4 * r.res.toNat ≤ p.imgLen → r.res.toNat ≤ 4096 →
      s.pass.imageRead p i.toNat 4 = .ok h → s.pass.imageRead p (i.toNat + 4) (4 * r.res.toNat) = .ok w →
      ran (.tlit a i) ({ p with t := p.t.set a.toNat (idsOf r.res.toNat w) }.remember ownerImage p.mark (BitVec.ofNat 64 r.res.toNat))) ∧
    (∀ bs, p.repeated ownerFront = some r → (p.ga b).toNat % 64 = 0 → s.pass.granted p.nctx (p.ga b) 64 rRD true = .ok bs → anyNr bs = false →
      ∃ u q, exec (.invoke a b) s = .next u ∧ u.prog p.slot = some q ∧ q.state = .awaiting ∧
        q.await = .launch a none (some (r.res.setWidth 16)) r.status ∧ q.pc = p.pc ∧ q.retn = p.retn ∧ SameRegs p q) ∧
    (p.repeated ownerHost = some r → ∃ u q, exec .endp s = .next u ∧ u.prog p.slot = some q ∧ q.state = .done ∧ q.hseq = p.hseq ∧ q.notices = p.notices)

/-- The long instructions at their first start (R38 to R40, R267, R285, R314, R348): with nothing to step over APPEND and GENU retire at once,
and else P0 shows the kind and the base length, and the instruction is in progress and its program READY. -/
def LongInstructionStart : Prop :=
  ∀ (s : State) (p : Prog), ProgTurn s p → p.kind = 0 → p.long = none →
  ∀ (a b c d : LIdx) (i : Word32) (x : Nat), (s.lc x).busy = none →
    let free := fun (n : Nat) => (s.lc x).len < Config.maxLength ∧ s.pass.missing p.slot x 1 Config.maxContexts = [] ∧ (s.lc x).len = n
    let began := fun (u : State) (ins : Instr) (kind : Nat) => ∃ q, u.prog p.slot = some q ∧ q.state = .ready ∧ q.long = some ins ∧ q.kind = kind ∧
      q.phase = 0 ∧ q.k = 0 ∧ q.pc = p.pc ∧ q.retn = p.retn
    let ended := fun (u : State) => ∃ q, u.prog p.slot = some q ∧ q.long = none ∧ q.p0 = 0 ∧ q.p1 = 0 ∧ q.pc = p.pc + 1 ∧ q.retn = p.retn + 1
    (s.named (p.gc a) = some x → valid (s.vocab x) (p.gt b) = true →
      (p.gt b = [] → ∃ u, exec (.append a b) s = .next u ∧ ended u) ∧
      (∀ n, p.gt b ≠ [] → free n → ∃ u, exec (.append a b) s = .next u ∧ began u (.append a b) 1)) ∧
    (∀ m qs, s.named (p.gc b) = some x → (s.lc x).len ≠ 0 → stopSeqs (s.vocab x) (p.gt c) = some qs → s.pass.sampler p i.toNat = .ok m →
      (p.ga d = 0 → ∃ u, exec (.genu a b c d i) s = .next u ∧ ended u) ∧
      (∀ n, p.ga d ≠ 0 → free n → ∃ u, exec (.genu a b c d i) s = .next u ∧ began u (.genu a b c d i) 2))

/-- SCORE and CHOOSE at their first start (R27, R35, R36, R285, R348). They step on a scratch context forked from cB, whose handle stands in SCRATCH: P0
shows the kind and the base length, P1 is 0, and the program is READY with the instruction in progress. SCORE of an empty string retires with the score 0.
CHOOSE starts with the score -Inf in A and its first candidate; where every candidate is empty, it retires with A 0, in both forms. -/
def ForkingInstructionStart : Prop :=
  ∀ (s : State) (p : Prog), ProgTurn s p → p.kind = 0 → p.long = none →
  ∀ (a b c : LIdx) (x : Nat), s.named (p.gc b) = some x → (s.lc x).len ≠ 0 →
    let began := fun (u : State) (ins : Instr) (kind : Nat) (h : Word) (r : List Word) => ∃ q, u.prog p.slot = some q ∧ q.state = .ready ∧
      q.long = some ins ∧ q.p0 = progress kind 0 0 (s.lc x).len 0 0 ∧ q.p1 = 0 ∧ q.scratch = h ∧ q.a = r ∧ q.c = p.c ∧ q.t = p.t ∧
      q.pc = p.pc ∧ q.retn = p.retn ∧ (u.lc (bits h 17 0)).len = (s.lc x).len ∧ (u.lc (bits h 17 0)).list = (s.lc x).list
    let ended := fun (u : State) => ∃ q, u.prog p.slot = some q ∧ q.long = none ∧ q.p0 = 0 ∧ q.p1 = 0 ∧ q.scratch = 0 ∧ q.a = p.a.set a.toNat 0 ∧
      q.c = p.c ∧ q.t = p.t ∧ q.pc = p.pc + 1 ∧ q.retn = p.retn + 1
    let ready := fun (r : State) (t : State) (h : Word) => r.ctxFork x p.slot = some (t, h) ∧ t.missing p.slot (bits h 17 0) 1 Config.maxContexts = []
    (p.gt c = [] → ∃ u, exec (.score a b c) s = .next u ∧ ended u) ∧
    (∀ t h, p.gt c ≠ [] → valid (s.vocab x) (p.gt c) = true → (s.lc x).len < Config.maxLength → ready s.pass t h →
      ∃ u, exec (.score a b c) s = .next u ∧ began u (.score a b c) 3 h p.a) ∧
    ∀ (app : Bool) (sep : BitVec 24), (app = true → (s.lc x).busy = none) →
      ((p.gt c).length ≤ 255 → (∀ y ∈ p.gt c, y = sep.setWidth 32) → ∃ u, exec (.choose a b c app sep) s = .next u ∧ ended u) ∧
      (∀ t h w rest, candidates sep (p.gt c) = w :: rest → w ≠ [] → rest.length ≤ 255 →
        (∀ v ∈ candidates sep (p.gt c), valid (s.vocab x) v = true) → (s.lc x).len < Config.maxLength →
        ready (if app then s.pass.onLc x (fun k => { k with busy := some p.slot }) else s.pass) t h →
        ∃ u, exec (.choose a b c app sep) s = .next u ∧ began u (.choose a b c app sep) 4 h (p.a.set a.toNat 0xFFF0000000000000))

/-- The checks of the long instructions (R27, R267, R285, R314, R348): a name that is not live is agent fault 2, an empty context 7, an id outside the
vocabulary 4, a malformed stop set 5. -/
def LongInstructionFaults : Prop :=
  ∀ (s : State) (p : Prog), ProgTurn s p → p.kind = 0 → ∀ (a b c d : LIdx) (i : Word32) (app : Bool) (sep : BitVec 24),
    (s.named (p.gc a) = none → exec (.append a b) s = agentFault s p 2) ∧
    (s.named (p.gc b) = none → exec (.genu a b c d i) s = agentFault s p 2 ∧ exec (.score a b c) s = agentFault s p 2 ∧
      exec (.choose a b c app sep) s = agentFault s p 2) ∧
    ∀ x, (s.named (p.gc b) = some x → (s.lc x).len = 0 → exec (.genu a b c d i) s = agentFault s p 7 ∧ exec (.score a b c) s = agentFault s p 7 ∧
        exec (.choose a b c app sep) s = agentFault s p 7) ∧
      (s.named (p.gc b) = some x → (s.lc x).len ≠ 0 → stopSeqs (s.vocab x) (p.gt c) = none → exec (.genu a b c d i) s = agentFault s p 5) ∧
      (s.named (p.gc b) = some x → (s.lc x).len ≠ 0 → valid (s.vocab x) (p.gt c) = false → exec (.score a b c) s = agentFault s p 4) ∧
      (s.named (p.gc a) = some x → valid (s.vocab x) (p.gt b) = false → exec (.append a b) s = agentFault s p 4)

/-- POST (R62, R200, R270, R344). To a program's mailbox: 0 and the entry at its tail with sender, RETN, tag and value; 1 when it holds 64 entries; 2 for a
slot that cannot take entries. To the host, slot 0xFFFF: 1 when the next entry of the program's host mailbox is FULL, else 0, the header, the ids, and
FULL 1 in that entry, and no other byte of memory changes. -/
def PostResult : Prop :=
  ∀ (s : State) (p : Prog), ProgTurn s p → ∀ (a b : LIdx) (c : LReg) (i : Word32),
    let dst := (p.ga b).toNat % 2 ^ 16
    let ran := fun (u : State) (r : Word) => ∃ q, u.prog p.slot = some q ∧ q.a = p.a.set a.toNat r ∧ q.c = p.c ∧ q.t = p.t ∧ q.pc = p.pc + 1 ∧ q.retn = p.retn + 1
    let h := p.hmbx + 64 * (p.hseq % 64)
    let ids := p.hmbx + 4096 + 16384 * (p.hseq % 64)
    let str := (p.payload c).2
    (∀ k, c = .c k → s.named (p.gc k) ≠ none) →
    (dst = 0xFFFF → p.repeated ownerHost = none →
      ((s.rd64 (h + 0x38)).getLsbD 0 = true → ∃ u, exec (.post a b c i) s = .next u ∧ ran u 1 ∧ OnlyPrograms s u) ∧
      ((s.rd64 (h + 0x38)).getLsbD 0 = false → p.slot < 2 ^ 16 → str.length ≤ 4096 → inRam s p.hmbx 0x101000 → ∃ u, exec (.post a b c i) s = .next u ∧ ran u 0 ∧
        (∃ q, u.prog p.slot = some q ∧ q.hseq = p.hseq + 1) ∧
        u.rd64 h = BitVec.ofNat 64 (p.slot + 2 ^ 16 * c.cls + 2 ^ 32 * i.toNat) ∧ u.rd64 (h + 8) = (p.payload c).1 ∧ u.rd64 (h + 0x10) = p.retn ∧
        u.rd64 (h + 0x18) = BitVec.ofNat 64 (p.hseq + 1) ∧ u.rd64 (h + 0x38) = 1 ∧ holds u ids (str.flatMap (fun w => leBytes 4 w.toNat)) ∧
        ∀ x, s.inBrd x = false → (x < h ∨ h + 64 ≤ x) → (x < ids ∨ ids + 4 * str.length ≤ x) → u.rdByte x = s.rdByte x)) ∧
    (dst ≠ 0xFFFF → p.repeated (ownerMail dst) = none →
      ((dst = 0xFFFE ∨ s.mailbox dst = none) → ∃ u, exec (.post a b c i) s = .next u ∧ ran u 2 ∧ OnlyPrograms s u) ∧
      ∀ q, dst ≠ 0xFFFE → dst ≠ p.slot → s.mailbox dst = some q →
        (64 ≤ q.mbox.length → ∃ u, exec (.post a b c i) s = .next u ∧ ran u 1 ∧ OnlyPrograms s u) ∧
        (q.mbox.length < 64 → q.state ≠ .awaiting → ∃ u e q', exec (.post a b c i) s = .next u ∧ ran u 0 ∧ u.prog dst = some q' ∧ q'.mbox = q.mbox ++ [e] ∧
          e.sender = BitVec.ofNat 16 p.slot ∧ e.retn = p.retn ∧ e.tag = i ∧ e.cls = c.cls ∧ e.val = (p.payload c).1 ∧ e.str = str))

/-- AWAIT takes the oldest entry of its class at once, or waits; INVOKE with a packet that cannot be read writes status 4, else its packet goes to the
front end and the program waits; STAMP reads the clock (R63, R64, R271, R320, R361). -/
def AwaitInvokeStampResult : Prop :=
  ∀ (s : State) (p : Prog), ProgTurn s p → ∀ (a b : LIdx) (r : LReg) (i : Word32),
    (∀ e rest, p.repeated (ownerMail p.slot) = none → takeClass r.cls p.mbox = some (e, rest) →
      let org : Word := BitVec.ofNat 64 (e.tag.toNat * 2 ^ 32 + e.sender.toNat)
      ∃ u, exec (.await r b i) s = .next u ∧ OnlyPrograms s u ∧
        Ran s u p { (p.take r b e).remember (ownerMail p.slot) p.mark org (some e) with mbox := rest, await := .none } (p.pc + 1)) ∧
    (p.repeated (ownerMail p.slot) = none → takeClass r.cls p.mbox = none → ∃ u q t0, exec (.await r b i) s = .next u ∧ u.prog p.slot = some q ∧ q.state = .awaiting ∧
      q.await = .mbox r b t0 (1000 * i.toNat) ∧ q.pc = p.pc ∧ q.retn = p.retn ∧ SameRegs p q) ∧
    ((p.ga b).toNat % 64 ≠ 0 → ∃ u, exec (.invoke a b) s = .next u ∧ Ran s u p { p with a := p.a.set a.toNat (statusWord 4 0) } (p.pc + 1) ∧ OnlyPrograms s u) ∧
    (∀ bs, p.repeated ownerFront = none → (p.ga b).toNat % 64 = 0 → s.pass.granted p.nctx (p.ga b) 64 rRD true = .ok bs → anyNr bs = false →
      ∃ u q ws, exec (.invoke a b) s = .next u ∧ u.prog p.slot = some q ∧ q.state = .awaiting ∧ q.await = .launch a (some ws) none none ∧
        ws.drop 1 = (wordsOf (vec512 (s.pass.rdBlocks bs))).drop 1 ∧ q.pc = p.pc ∧ q.retn = p.retn ∧ SameRegs p q) ∧
    ∃ u, exec (.stamp a) s = .next u ∧ OnlyPrograms s u ∧ Ran s u p { p with a := p.a.set a.toNat (BitVec.ofNat 64 u.clock) } (p.pc + 1)

/-- Doorbells and host mailboxes (R197, R199 to R201, R203): a queue's doorbell writes TAIL; an admitted submission makes a READY program at PC 0 with
empty registers C and T; a post enters a program's mailbox; a freed entry reads FULL 0 and a deferred notice takes it. Each doorbell counts. -/
def HostDoorbellResult : Prop :=
  ∀ (s : State),
    (∀ q b data, Assoc.get s.qbind q = some b → 8 ≤ data.length → inRam s (b.qdesc + 0x18) 8 →
      ∃ u, exec (.qdoor q data) s = .next u ∧ u.hostseq = s.hostseq + 1 ∧ u.rd64 (b.qdesc + 0x18) = w64 (data.take 8) ∧ onlyBytes s u (b.qdesc + 0x18) 8) ∧
    (∀ data hint, 64 ≤ data.length → allZero (sliceB data 8 56) = true →
      let pa := fieldB data 0 8
      let d := s.rd pa 128
      inRam s (pa + 0x40) 8 →
      (s.submitStatus pa d ≠ 0 → ∃ u, exec (.lsub data hint) s = .next u ∧ u.hostseq = s.hostseq + 1 ∧ u.progs = s.progs ∧
        u.rd64 (pa + 0x40) = BitVec.ofNat 64 (s.submitStatus pa d * 2 ^ 16 + 2 ^ 63) ∧ onlyBytes s u (pa + 0x40) 8) ∧
      ∀ slot, s.submitStatus pa d = 0 → firstFree 0xFFFE (fun i => (s.prog i).isSome) 0xFFFE hint = some slot →
        ∃ u q, exec (.lsub data hint) s = .next u ∧ u.hostseq = s.hostseq + 1 ∧ u.prog slot = some q ∧ q.state = .ready ∧ q.pc = 0 ∧ q.retn = 0 ∧
          q.level = fieldB d 0x08 8 / 2 ^ 32 ∧ q.c = List.replicate 16 0 ∧ q.t = List.replicate 16 [] ∧ q.mbox = [] ∧ q.retstk = [] ∧
          (∀ n, n ≠ slot → u.prog n = s.prog n) ∧ u.rd64 (pa + 0x40) = BitVec.ofNat 64 (slot + 2 ^ 63)) ∧
    (∀ slot data p, 64 ≤ data.length → s.mailbox slot = some p → p.mbox.length < 64 → p.state ≠ .awaiting → fieldB data 20 1 = 0 →
      allZero (sliceB data 21 3) = true → allZero (sliceB data 32 32) = true → fieldB data 0 8 = 0 → fieldB data 24 8 = 0 →
      ∃ u q e, exec (.mbox slot data) s = .next u ∧ u.hostseq = s.hostseq + 1 ∧ u.prog slot = some q ∧ q.mbox = p.mbox ++ [e] ∧ e.sender = 0xFFFF ∧
        e.tag = w32 (sliceB data 16 4) ∧ e.cls = 0 ∧ e.val = BitVec.ofNat 64 (fieldB data 8 8)) ∧
    (∀ slot e p, s.prog slot = some p → inRam s (p.hmbx + 64 * (e % 64) + 0x38) 8 →
      ∃ u, exec (.fullFree slot e) s = .next u ∧ u.rd64 (p.hmbx + 64 * (e % 64) + 0x38) = 0 ∧ onlyBytes s u (p.hmbx + 64 * (e % 64) + 0x38) 8) ∧
    (∀ slot p tag retn rec r, s.prog slot = some p → p.notices = (tag, retn, rec) :: r → s.hostFull p = false →
      ∃ u q, exec (.deferredNoticePost slot) s = .next u ∧ u.prog slot = some q ∧ q.notices = r ∧ q.hseq = p.hseq + 1)

/-- Kills (R49, R50, R202): a request against a BATCHED program waits for its boundary, a program that has ended stays as it is, and any other is
KILLED with KILLREQ. An INVOKE whose packet the front end has still to take keeps it (R49). -/
def KillRequestResult : Prop :=
  ∀ (s : State) (slot : Nat) (p : Prog), s.prog slot = some p →
    (p.state = .batched → ∃ u, exec (.kreq slot) s = .next u ∧ u.prog slot = some { p with kreq := true } ∧ ∀ n, n ≠ slot → u.prog n = s.prog n) ∧
    (p.state = .done ∨ p.state = .killed → exec (.kreq slot) s = .next s) ∧
    (p.state = .ready ∨ p.state = .parked ∨ p.state = .awaiting →
      ∃ u q, exec (.kreq slot) s = .next u ∧ u.prog slot = some q ∧ q.state = .killed ∧ q.fault = 0x0D ∧ q.pc = p.pc ∧ q.retn = p.retn ∧
        q.await = (if p.packetLeft then p.await else .none) ∧ q.park = []) ∧
    ∀ a rest, s.services = a :: rest → fieldB (s.rd a 256) 0 4 = 6 → svcClean 6 (s.rd a 256) = true → fieldB (s.rd a 256) 0x08 8 = slot →
      ∃ u, exec .killProgram s = .next u ∧ answered s u a rest 0 0 ∧
        (p.state = .ready → ∃ q, u.prog slot = some q ∧ q.state = .killed)

/-- Host loads read, and host stores write byte by byte, where the host may, and leave a byte that its owner alone writes (R7, R24, R65, R198, R200); a service doorbell queues a request, and a write
of QB keeps it within 1 to 256 (R60, R202). An island's frequency stays within the limits that Edoiny has set (R20; the places of these registers are the
model's, log 32). -/
def HostAccessResult : Prop :=
  ∀ (s : State),
    (∀ addr n, ∃ u d, exec (.hostLoad addr n) s = .next u ∧ u = { s with hostOut := s.hostOut ++ [d] } ∧ d.length = n ∧
      (addr + n ≤ 2 ^ 40 → d = s.rd addr n)) ∧
    (∀ addr data, (∀ i, i < data.length → ∀ p ∈ s.progs, addr + i ≠ p.sblk + 0x18) →
      ∃ u, exec (.hostStore addr data) s = .next u ∧ u.progs = s.progs ∧ storedOnly s u addr data.length ∧
        (addr + data.length ≤ 2 ^ 40 → inRam s addr data.length → unowned s addr data.length → u.rd addr data.length = data)) ∧
    (∀ data, 64 ≤ data.length → allZero (sliceB data 8 56) = true →
      ∃ u, exec (.registerWrite 0x400000 data) s = .next u ∧ u = { s with hostseq := s.hostseq + 1, services := s.services ++ [fieldB data 0 8] }) ∧
    (∀ i data, i < Config.islands → (s.mhzLimits i).1 ≤ (s.mhzLimits i).2 →
      ∃ u, exec (.registerWrite (2 ^ 37 + 16 * i) data) s = .next u ∧ (s.mhzLimits i).1 ≤ u.mhz i ∧ u.mhz i ≤ (s.mhzLimits i).2 ∧
        ((s.mhzLimits i).1 ≤ fieldB data 0 8 → fieldB data 0 8 ≤ (s.mhzLimits i).2 → u.mhz i = fieldB data 0 8) ∧ ∀ j, j ≠ i → u.mhz j = s.mhz j) ∧
    ∀ data, (1 ≤ fieldB data 0 8 → fieldB data 0 8 ≤ 256 → exec (.registerWrite (2 ^ 34) data) s = .next { s with qb := fieldB data 0 8 }) ∧
      (fieldB data 0 8 = 0 ∨ 256 < fieldB data 0 8 → exec (.registerWrite (2 ^ 34) data) s = .next s)

/-- Steals, the rinse token and the group barrier (R116, R118 to R121, R274): a steal takes the record at the far end of the victim's deque, and C of the
victim rises; the token adds the counts it visits, and after a clean last visit, with no held atomic to come (R122), a DEQ launch ends, and an INVOKE
that waits for it is told COMPLETE, or 1 after LEND; the last arrival of an epoch sends
every member its message. -/
def StealTokenBarrier : Prop :=
  ∀ (s : State),
    (∀ id lid thief victim l r rest far, s.snet.find? (fun e => decide (e.1 = id)) = some (id, .request lid thief victim) → s.launch lid = some l →
      l.deque victim = (far, r :: rest) → s.open l (l.coreAt victim) = true →
      ∃ u f, exec (.stealRequest id) s = .next u ∧ f ∈ u.net ∧ f.dst = l.coreAt thief ∧ f.counted = true ∧ msgKind f.msg.w1 = msgKind (taskMsg 0 r.s2 (l.coreAt thief) 0).w1 ∧
        f.msg.pay = argPay r.bytes ∧ ∃ l', u.launch lid = some l' ∧ l'.deque victim = ((far + 1) % 256, rest) ∧
          ∀ o, l.ordinal (l.coreAt victim) = some o → Assoc.getD l'.counts o 0 = Assoc.getD l.counts o 0 + 1) ∧
    (∀ id lid thief, s.snet.find? (fun e => decide (e.1 = id)) = some (id, .reply lid thief) →
      ∃ u, exec (.emptyStealReply id) s = .next u ∧ (∀ e ∈ u.snet, e.1 = id → s.nextId ≤ id) ∧
        ∀ l, s.launch lid = some l → ∃ l', u.launch lid = some l' ∧ l'.deques = l.deques) ∧
    (∀ lid l, s.launch lid = some l → l.state = .running → l.token.started = true → l.pile = false → s.idleForToken l l.token.at_ = true →
      let sum := l.token.sum + Assoc.getD l.counts l.token.at_ 0
      let stain := l.token.stain || l.stains.contains l.token.at_
      let still := (∀ o ∈ s.ops, o.lid = some lid → o.kind = .amo → o.held = false) ∧
        ∀ b ∈ s.bundles, ∀ f ∈ b.2.frozen, ∀ o ∈ f.ops, o.lid = some lid → o.kind = .amo → o.held = false
      (l.token.at_ + 1 < l.n → ∃ u l', exec (.rinseTokenVisit lid) s = .next u ∧ u.launch lid = some l' ∧
        l'.token = { started := true, at_ := l.token.at_ + 1, sum := sum, stain := stain } ∧ l.token.at_ ∉ l'.stains ∧ l'.counts = l.counts) ∧
      (l.n ≤ l.token.at_ + 1 → still → (stain = true ∨ sum ≠ 0) → ∃ u l', exec (.rinseTokenVisit lid) s = .next u ∧ u.launch lid = some l' ∧
        l'.token = { started := true, at_ := 0, sum := 0, stain := false }) ∧
      (l.n ≤ l.token.at_ + 1 → still → stain = false → sum = 0 → ∃ u, exec (.rinseTokenVisit lid) s = .next u ∧ u.launch lid = none ∧
        told s u l (if l.lend then 1 else 0))) ∧
    ∀ id o l, s.op id = some o → o.kind = .bara → o.lid = some l.lid → s.launch l.lid = some l → (∀ d ∈ o.deps, s.pending d = false) →
      s.remembered (groupOwner l.lid o.n) o.mark = none → (o.replay = true → s.markOld (groupOwner l.lid o.n) o.mark = false) →
      ∃ u l' a, exec (.baraArrival id) s = .next u ∧ u.launch l.lid = some l' ∧ s.op id ≠ none ∧ u.op id = none ∧
        (l'.arrivals = l.arrivals ++ [a] ∨ ∃ k, 256 ≤ k ∧ l'.arrivals = (l.arrivals ++ [a]).filter (fun x => !(decide (x.group = o.n) && decide (x.epoch + 256 ≤ k)))) ∧
        a.group = o.n ∧ a.epoch = o.operand.toNat ∧ a.vec = o.vec ∧ a.hdr = o.hdr ∧ a.ordinal = (l.ordinal o.t.core).getD 0 ∧
        ∀ k, (∀ e ∈ l.done, e.group = o.n → e.epoch < k) → (k = 1 ∨ ∃ e ∈ l.done, e.group = o.n ∧ e.epoch + 1 = k) → l.members o.n ≠ [] →
          (∀ m ∈ l.members o.n, ∃ x ∈ l.arrivals ++ [a], x.group = o.n ∧ x.epoch = k ∧ x.ordinal = m) →
          ∀ m ∈ l.members o.n, ∃ f ∈ u.net, f.dst = l.coreAt m ∧ f.counted = true ∧ f.lid = some l.lid ∧ vWord f.msg.pay 32 = BitVec.ofNat 64 k ∧
            vWord f.msg.pay 40 = BitVec.ofNat 64 (l.members o.n).length

/-- The completion record (R113, R122), for a DEQ launch that runs alone and whose token ends a clean round, with no work outstanding and a CREC that
its context may write: STATUS with the launch id and the valid bit, the three stamps, and ACTS. -/
def CompletionRecordResult : Prop :=
  ∀ (s : State) (l : Launch) (b : Block), s.launches = [l] → l.state = .running → l.token.started = true → l.pile = false →
    s.idleForToken l l.token.at_ = true → l.n ≤ l.token.at_ + 1 → (l.token.stain || l.stains.contains l.token.at_) = false →
    l.token.sum + Assoc.getD l.counts l.token.at_ 0 = 0 → s.ops = [] → (∀ k ∈ s.bundles, k.2.frozen = []) → s.copyQs = [] → s.ending = [] → l.sslot = 0 →
    l.crec.toNat % 128 = 0 → s.granted l.ctx l.crec 128 rWR false = .ok [b] → inRam s b.bus 128 → unowned s b.bus 128 →
    ∃ u, exec (.rinseTokenVisit l.lid) s = .next u ∧ u.launches = [] ∧ u.rd64 b.bus = statusWord (if l.lend then 1 else 0) l.lid ∧
      holds u (b.bus + 8) (l.accst.bytes ++ (l.startst.getD { sec := 0, ns := 0, seq := 0 }).bytes ++ s.stamp.bytes ++ leBytes 8 l.acts)

/-- GATEW, FREEZE, THAW and KTLB (R183, R210, R325): a compute core raises PRIV. On a kernel core GATEW writes one thimble entry of a present core, or
pushes why it did not; FREEZE and THAW push their status at once where there is nothing to do, and otherwise begin, their status awaited; KTLB
drops every translation of its range in every bundle. Of an image that a seam bundle's firewall drops, the drops are counted (R212). That BOUND of GATEW
reports TADDR 0 is the model's choice (log 29, DEDUCED), and so is what a dropped read returns (log 43, PRESUMED). -/
def KernelInstructionResult : Prop :=
  ∀ (s : State) (t : TsId) (act : Activation), Turn s t act → ∀ (a b : Reg),
    (t.core.kernel = false → exec (.gatew a b) s = .next (trapped s t .priv 0) ∧ exec (.freeze a b) s = .next (trapped s t .priv 0) ∧
      exec (.thaw a b) s = .next (trapped s t .priv 0) ∧ exec (.ktlb a b) s = .next (trapped s t .priv 0)) ∧
    ∀ (x y : Word) (e1 e2 : Exe), t.core.kernel = true → (exeOf s t act).srcS a = .ok (x, e1) → e1.srcS b = .ok (y, e2) → e2.x.slq.length < 16 →
      kernelQuiet s t →
      let pushes := fun (i : Instr) (v : Word) => ∃ u, exec i s = .next u ∧ Retired (pushed e2 v) 4 u ∧ SameBytes s u
      let n := bits x 10 0
      let ctx : Half := BitVec.ofNat 16 (bits x 63 48)
      let k := s.bundle n
      let free := k.busy ctx = false ∧ bits x 47 11 = 0 ∧ y.toNat % 2 ^ 21 = 0
      (bits x 63 19 ≠ 0 → exec (.gatew a b) s = .next (trapped s t .bound 0)) ∧
      (∀ bs, bits x 63 19 = 0 → y.toNat % 32 = 0 → e2.check y 32 rRD = .ok bs →
        let c := cc (bits x 13 0)
        let v : Thimble := BitVec.ofNat 256 (leNat (s.rdBlocks bs))
        (∃ u, exec (.gatew a b) s = .next u ∧ SameBytes s u ∧ (u.tsGet t).pc = e2.x.pc + 4 ∧
          u.fwDrops = s.fwDrops + ((segsOf bs).filter (fun g => s.barred g.bus)).length) ∧
        ((∀ g ∈ segsOf bs, s.barred g.bus = false) →
        (s.coreAbsent c = true → pushes (.gatew a b) 1) ∧
        (s.coreAbsent c = false → thimbleImageOk v (decide (16 ≤ bits x 18 14)) = false → pushes (.gatew a b) 2) ∧
        (s.coreAbsent c = false → thimbleImageOk v (decide (16 ≤ bits x 18 14)) = true →
          ∃ u, exec (.gatew a b) s = .next u ∧ SameBytes s u ∧
            Retired { pushed e2 0 with s := s.setCore c { s.core c with thimble := Assoc.set (s.core c).thimble (bits x 18 14) v } } 4 u))) ∧
      (∀ bs, free → e2.check y (2 ^ 23) rWR = .ok bs →
        (s.bundleUsable n = false → pushes (.freeze a b) 2) ∧
        (s.bundleUsable n = true → (∃ f ∈ k.frozen, f.ctx = ctx) → pushes (.freeze a b) 3) ∧
        (s.bundleUsable n = true → (∀ f ∈ k.frozen, f.ctx ≠ ctx) → s.runsOn n ctx = false → pushes (.freeze a b) 1) ∧
        (s.bundleUsable n = true → (∀ f ∈ k.frozen, f.ctx ≠ ctx) → s.runsOn n ctx = true → k.freezing = none →
          ∃ u o, exec (.freeze a b) s = .next u ∧ awaits s u e2 o ∧ o.kind = .freeze ∧ kernelFrame s u t ∧
            u.bundle n = { k with freezing := some (ctx, y.toNat, o.id) } ∧ ∀ m, m ≠ n → u.bundle m = s.bundle m)) ∧
      (∀ bs, free → e2.check y (2 ^ 23) rRD = .ok bs →
        (s.bundleUsable n = false → pushes (.thaw a b) 2) ∧
        (s.bundleUsable n = true → (∀ c ∈ s.runningCtxs n, c = ctx) → s.runsOn n ctx = true → pushes (.thaw a b) 3) ∧
        (s.bundleUsable n = true → (∀ c ∈ s.runningCtxs n, c = ctx) → s.runsOn n ctx = false →
          ((s.rd64 y.toNat).getLsbD 0 = false ∨ s.rd64 (y.toNat + 8) ≠ at64 ctx.toNat 0 ||| at64 n 16 → pushes (.thaw a b) 1) ∧
          ((s.rd64 y.toNat).getLsbD 0 = true → s.rd64 (y.toNat + 8) = at64 ctx.toNat 0 ||| at64 n 16 →
            ∃ u o, exec (.thaw a b) s = .next u ∧ awaits s u e2 o ∧ o.kind = .thaw ∧ kernelFrame s u t ∧
              u.bundle n = { k with thawing := some (ctx, y.toNat, o.id) } ∧ ∀ m, m ≠ n → u.bundle m = s.bundle m))) ∧
      (bits x 15 0 ≠ 0 → exec (.ktlb a b) s = .next (trapped s t .align x)) ∧
      (bits x 15 0 = 0 → bits y 15 0 = 0 → bits x 47 0 + y.toNat ≤ 2 ^ 48 →
        ∃ u o, exec (.ktlb a b) s = .next u ∧ awaits s u e2 o ∧ o.kind = .ktlb ∧ kernelFrame s u t ∧
          ∀ m (w : TcEntry), w.page < 2 ^ 32 → (w ∈ (u.bundle m).tc ↔ w ∈ (s.bundle m).tc ∧
            ¬(w.ctx = ctx ∧ (y = 0 ∨ (w.page * 65536 < bits x 47 0 + y.toNat ∧ bits x 47 0 < w.page * 65536 + 65536)))))

/-- MARKQ (R194, R334): a mark of another context raises GATE; otherwise the query is on its way and two values are awaited. -/
def MarkQueryIssue : Prop :=
  ∀ (s : State) (t : TsId) (act : Activation), Turn s t act →
  ∀ (a b : Reg) (g : Bool) (m x : Word) (e1 e2 : Exe), (exeOf s t act).srcS a = .ok (m, e1) → e1.srcS b = .ok (x, e2) → e2.x.slq.length < 15 →
    let own := if t.core.kernel then Config.edoiny else act.ctx
    (bits m 63 48 ≠ own.toNat → exec (.markq a b g) s = .next (trapped s t .gate m)) ∧
    (bits m 63 48 = own.toNat → e2.roomRecord = .ok () → ∀ bs, (g = true → e2.inPile (low32 x) = .ok () ∧ bs = []) → (g = false → e2.check x 1 rRD = .ok bs) →
      ∃ u o, exec (.markq a b g) s = .next u ∧ Names e2 o .markq ∧ o.mark = m ∧ o.segs = wholeSegs bs ∧ o.n = (if g then 1 else 0) ∧ SameBytes s u ∧
        Retired (awaitS (awaitS (issued e2 o) o.id 0) o.id 1) 4 u)

/-- The arbiter and the four kinds of work (R144 to R148): the head of the core that the arbiter stands at is next while its credit lasts; an MMA starts
on a resident bank; MZERO clears its slot; MST's rows become outstanding; a launch without a bank is given one, its saved one where there is one, the
older bank making way to the image that the save area's directory names (R148, R189; log 18). -/
def PressCommandResult : Prop :=
  ∀ (s : State) (b : Nat),
    (∀ h r, (s.bundle b).exec = none → (s.bundle b).arb < 8 → (s.core (cc (8 * b + (s.bundle b).arb))).pressQ = h :: r →
      s.headReady b (cc (8 * b + (s.bundle b).arb)) h = true → (s.bundle b).credit < pressWeight h.cls →
      s.pressNext b = some ((s.bundle b).arb, h, (s.bundle b).credit)) ∧
    (∀ h r, (s.bundle b).exec = none → (s.bundle b).arb < 8 → (s.core (cc (8 * b + (s.bundle b).arb))).pressQ = h :: r →
      s.headStart b (cc (8 * b + (s.bundle b).arb)) h = true → (s.bundle b).credit < pressWeight h.cls →
      s.swapNext b = some ((s.bundle b).arb, h, (s.bundle b).credit)) ∧
    (∀ c cmd n, s.pressNext b = some (c, cmd, n) →
      let popped := fun (u : State) => (u.core (cc (8 * b + c))).pressQ = (s.core (cc (8 * b + c))).pressQ.drop 1 ∧ (u.bundle b).arb = c ∧ (u.bundle b).credit = n + 1
      (∀ ra rb sl f g z kb ka m, cmd.word = .mma ra rb sl f g z kb ka m → s.bankReady b cmd.lid = true →
        ∃ u, exec (.pressCommandStart b) s = .next u ∧ (u.bundle b).exec = some (c, cmd) ∧ u.cores = s.cores ∧ SameBytes s u) ∧
      (∀ sl, cmd.word = .mzero sl → s.bankReady b cmd.lid = true → ∃ u, exec (.mzeroExecute b) s = .next u ∧ popped u ∧ SameBytes s u ∧
        u.slotPairs b cmd.lid (4 * c + sl.toNat) = List.replicate 1024 (0, 0) ∧
        ∀ key, key ≠ 4 * c + sl.toNat → u.slotPairs b cmd.lid key = s.slotPairs b cmd.lid key) ∧
      (∀ d a e m sl, cmd.word = .mst d a e m sl → s.bankReady b cmd.lid = true → ∃ u o, exec (.mstExecute b) s = .next u ∧ popped u ∧ SameBytes s u ∧
        u.ops = s.ops ++ [o] ∧ o.kind = .mst ∧ o.t = cmd.t ∧ o.addr = cmd.addr ∧ o.hdr = cmd.hdr ∧ o.seq = cmd.oseq ∧
        o.segs.map (fun g => (g.bus, g.len)) = cmd.segs.map (fun g => (g.bus, g.len)) ∧
        o.data = (List.range 32).flatMap (fun i => mstRow m.toNat (((s.slotPairs b cmd.lid (4 * c + sl.toNat)).drop (32 * i)).take 32)))) ∧
    ∀ c cmd n, s.swapNext b = some (c, cmd, n) → s.bankReady b cmd.lid = false →
      let k := s.bundle b
      ∃ u, exec (.accumulatorBankSwap b) s = .next u ∧ u.bankReady b cmd.lid = true ∧ u.cores = s.cores ∧
        u.launches = s.launches ∧ u.ops = s.ops ∧ (k.banks.length < 2 → SameBytes s u) ∧
        (∀ x ∈ k.saved, x.lid = cmd.lid → (∀ y ∈ k.saved, y.lid = cmd.lid → y = x) → (x.image = none → x ∈ (u.bundle b).banks) ∧
          ∀ n a, k.banks.length < 2 → x.image = some n → s.bankImage b cmd.lid n = some a → ∀ key i, key < 32 → i < 1024 →
            (u.slotPairs b cmd.lid key)[i]? = some (s.rd32 (a + 8192 * key + 8 * i), s.rd32 (a + 8192 * key + 8 * i + 4))) ∧
        ∀ x y r, k.banks = x :: y :: r → (s.queued b x.lid = false ∨ s.queued b y.lid = true) →
          (s.bankImage b x.lid (s.bankEntry b x.lid) = none → { x with image := none } ∈ (u.bundle b).saved) ∧
          ∀ a, s.bankImage b x.lid (s.bankEntry b x.lid) = some a → plain s a 262144 → holds u a (s.bankBytes b x.lid) ∧
            ∃ z ∈ (u.bundle b).saved, z.lid = x.lid ∧ z.image = some (s.bankEntry b x.lid)

/-- An MMA retires (R144): every output of the slot is the accumulation over the blocks in order; HEAD of each ring that is not kept advances; the
command leaves its queue and the press is free. -/
def MmaRetireResult : Prop :=
  ∀ (s : State) (b c : Nat) (cmd : PressCmd) (ra rb : BitVec 3) (sl : BitVec 3) (f g : BitVec 4) (z kb ka : Bool) (n : BitVec 3) (x y : Ring),
    (s.bundle b).exec = some (c, cmd) → cmd.word = .mma ra rb sl f g z kb ka n →
    s.cmdRing (cc (8 * b + c)) cmd ra.toNat = some x → s.cmdRing (cc (8 * b + c)) cmd rb.toNat = some y →
    let core := cc (8 * b + c)
    let key := 4 * c + sl.toNat
    let pa := s.panels core x (n.toNat + 1)
    let pb := s.panels core y (n.toNat + 1)
    ∃ u, exec (.mmaRetire b) s = .next u ∧ (u.bundle b).exec = none ∧ (u.core core).pressQ = (s.core core).pressQ.drop 1 ∧
      (z = true → ∀ i j, i < 32 → j < 32 → (u.slotPairs b cmd.lid key)[32 * i + j]? = some (mmaOut i j pa pb (0, 0))) ∧
      (z = false → ∀ m p, (s.slotPairs b cmd.lid key)[m]? = some p → (u.slotPairs b cmd.lid key)[m]? = some (mmaOut (m / 32) (m % 32) pa pb p)) ∧
      (∀ key', key' ≠ key → u.slotPairs b cmd.lid key' = s.slotPairs b cmd.lid key') ∧
      (plain s (scratchBus core x.base) 4 → plain s (scratchBus core y.base) 4 → (x.base + 4 ≤ y.base ∨ y.base + 4 ≤ x.base) →
        u.ringHead core x = s.ringHead core x + (if ka then 0 else BitVec.ofNat 32 (n.toNat + 1)) ∧
        u.ringHead core y = s.ringHead core y + (if kb then 0 else BitVec.ofNat 32 (n.toNat + 1))) ∧
      ∀ a, s.inBrd a = false → (a < scratchBus core x.base ∨ scratchBus core x.base + 4 ≤ a) → (a < scratchBus core y.base ∨ scratchBus core y.base + 4 ≤ a) →
        u.rdByte a = s.rdByte a

/-- The capture point of a core that is being frozen (R182, R184): where its thread sets stand at freeze points and its stores, SPILLs and FILLs are done,
it is captured under the stamp of that time. Its thread sets are free, its basket and its outstanding class I and M operations stand in the image, and a
completion of one of them that is held in the network is discarded. That the image stands in a record beside the block until the block is written is the
model's choice (log 17, DESIGN CHOICE). -/
def FreezeCaptureResult : Prop :=
  ∀ (s : State) (b : Nat) (ctx : Half) (blk id : Nat) (core : Nat), core / 8 = b → core < 16384 → (s.bundle b).freezing = some (ctx, blk, id) →
    s.frozenImg (cc core) ctx = none → (∀ t ∈ threadsOf (cc core), s.freezePoint t ≠ none) →
    (∀ o ∈ s.ops, o.t.core = cc core → ¬((o.kind.isStore = true ∧ o.parked = false) ∨ o.kind = .spill ∨ o.kind = .fill)) →
    ∃ u f, exec (.freezeCapturePoint core) s = .next u ∧ u.frozenImg (cc core) ctx = some f ∧
      ((s.bundle b).frozen = [] → f.cores = [(cc core, s.core (cc core))] ∧ f.ts = (threadsOf (cc core)).map (fun t => (t, s.tsGet t)) ∧
        f.ops = s.ops.filter (fun o => decide (o.t.core = cc core) && o.basted)) ∧ f.stamp = s.stamp0 ∧
      u.ops = s.ops.filter (fun o => !(decide (o.t.core = cc core) && o.basted)) ∧ (u.core (cc core)).basket = [] ∧ (u.core (cc core)).captured = true ∧
      (∀ g ∈ u.net, ∀ i, g.op = some i → ∀ o ∈ s.ops, o.t.core = cc core → o.basted = true → o.id ≠ i) ∧
      (∀ t ∈ threadsOf (cc core), (u.tsGet t).act = none) ∧ (∀ t, t.core ≠ cc core → u.tsGet t = s.tsGet t)

/-- The end of FREEZE (R184 to R186, R190): with every core captured the save block is written, BSTATE last, and status 0 is pushed; no translation of the
context stays, and the cores' press queues and rings are empty. In the block stand IDENT and FRZST; for each core its scratchpad, its basket and their
number; for each thread set the fields of R186, its scalar and vector registers, p0 all ones, and its basting entries with KIND, SEQ, address, operand,
and the mark of class M. (Said of the bytes where no accumulator bank and no state block is written after them.) -/
def FreezeCompleteResult : Prop :=
  ∀ (s : State) (b : Nat) (ctx : Half) (blk id : Nat) (f : Frozen) (rest : List Frozen) (o : Op),
    (s.bundle b).freezing = some (ctx, blk, id) → (s.bundle b).frozen = f :: rest → f.ctx = ctx → (s.bundle b).exec = none →
    (∀ i, i < 8 → (s.frozenImg (cc (8 * b + i)) ctx).isSome = true) → s.ops = [o] → o.id = id → o.kind = .freeze → o.q = 1 → s.pnet = [] →
    ∃ u, exec (.freezeComplete b) s = .next u ∧ (u.bundle b).freezing = none ∧ (u.bundle b).piles = [] ∧ u.op id = none ∧
      filled id 0 (.ready 0) (s.tsGet o.t).slq (u.tsGet o.t).slq ∧ (∀ w ∈ (u.bundle b).tc, w.ctx ≠ ctx) ∧
      (∀ i, i < 8 → (u.core (cc (8 * b + i))).pressQ = [] ∧ (u.core (cc (8 * b + i))).rings = []) ∧
      ((s.bundle b).banks = [] → (∀ p ∈ s.progs, p.nctx ≠ ctx) → inRam s f.blk 0x800000 →
        (u.rd64 f.blk).getLsbD 0 = true ∧ (u.rd64 f.blk).extractLsb' 1 8 = 255#8 ∧
        u.rd64 (f.blk + 8) = BitVec.ofNat 64 (ctx.toNat + 65536 * b) ∧ holds u (f.blk + 0x10) f.stamp.bytes ∧
        ∀ i, i < 8 →
          let c := cc (8 * b + i)
          let base := f.blk + 0x100000 + 0x80000 * i
          let x := Assoc.getD f.cores c CoreSt.reset
          (s.scratchSize c ≤ 0x38000 → ∀ j, j < s.scratchSize c → u.rdByte (base + j) = s.rdByte (scratchBus c j)) ∧
          u.rd64 (base + 0x39000) = BitVec.ofNat 64 x.basket.length ∧
          (x.basket.length ≤ 64 → holds u (base + 0x38000) (x.basket.flatMap (fun m => leBytes 8 m.w0.toNat ++ leBytes 8 m.w1.toNat ++ leBytes 48 m.pay.toNat))) ∧
          ∀ t ∈ threadsOf c,
            let a := tsArea f.blk i t.ts
            let y := Assoc.getD f.ts t ThreadSet.reset
            u.rd64 (a + 8) = y.pc ∧ u.rd64 (a + 0x28) = y.wbudget ∧ u.rd64 (a + 0x30) = y.fpcsr ∧ u.rd64 (a + 0x38) = y.trapen ∧
            u.rd64 (a + 0x40) = y.tvec1 ∧ u.rd64 (a + 0x48) = y.tvec2 ∧ u.rd64 (a + 0x50) = BitVec.ofNat 64 y.sbuf.length ∧
            u.rd64 (a + 0x58) = y.oseq.setWidth 64 ∧ u.rd64 (a + 0x60) = y.mseq.setWidth 64 ∧
            (∀ n, n < 32 → u.rd64 (a + 0x100 + 8 * n) = Assoc.getD y.sreg n 0) ∧ u.rd64 (a + 0x200) = BitVec.allOnes 64 ∧
            (∀ n, n < 32 → holds u (a + 0x400 + 64 * n) (leBytes 64 (Assoc.getD y.vreg n 0).toNat)) ∧
            ∀ k p, k < 64 → (f.record t)[k]? = some p →
              let e := a + 0x2000 + 32 * k
              (u.rd32 e).toNat % 256 = p.kindCode ∧ u.rd32 (e + 4) = p.seq ∧ u.rd64 (e + 8) = p.addr ∧ u.rd64 (e + 16) = p.operand ∧
              (p.classCode = 2 → u.rd64 (e + 24) = p.mark))

/-- THAW (R187, R195), of a block with at most one basting entry for each thread set, of a kind that names no memory (a gain update, GGET or a barrier
arrival), where the context has no PILE launch on the bundle: the bundle is open again and holds no image, BSTATE[0] reads 0, and status 0 is pushed. For
each core that BSTATE names, the scratchpad has the block's bytes; a thread set whose FRZPT is 0 is free; one whose activation a message of a running
launch has started stalls at its point with PC, WBUDGET, FPCSR, TRAPEN and the valid scalar registers of its image; its entry is outstanding again, as a
replay. Where the activation stands in the block is the model's layout (log 17, DESIGN CHOICE). -/
def ThawResult : Prop :=
  ∀ (s : State) (b : Nat) (ctx : Half) (blk id : Nat) (f : Frozen) (o : Op), MemInv s →
    (s.bundle b).thawing = some (ctx, blk, id) → (s.bundle b).frozen = [f] → f.ctx = ctx →
    s.op id = some o → o.q = 1 → o.t.core.kernel = true → id < s.nextId → (∀ p ∈ f.ops, p.id ≠ id) →
    (∀ l ∈ s.launches, l.ctx = ctx → l.state = .running → b ∈ l.bundles → l.pile = false) →
    let mine := fun (l : Launch) => l ∈ s.launches ∧ l.ctx = ctx ∧ l.state = .running ∧ b ∈ l.bundles ∧ ∀ x ∈ s.launches, x.lid = l.lid → x = l
    let entries := fun (i t : Nat) => leNat (s.rd (tsArea blk i t) 2) / 4 % 128
    let kind := fun (i t : Nat) => kindOf (leNat (s.rd (tsArea blk i t + 0x2000) 1))
    let owner := fun (i t : Nat) => lidBack (leNat (s.rd (tsArea blk i t + 0x7000 + 56) 4))
    (∀ i t, i < 8 → t < 4 → entries i t = 0 ∨ (entries i t = 1 ∧ (kind i t = some .gain ∨ kind i t = some .gget ∨ kind i t = some .bara) ∧
      (owner i t = none ∨ ∃ l, mine l ∧ owner i t = some l.lid))) →
    ∃ u, exec (.thawComplete b) s = .next u ∧ (u.bundle b).thawing = none ∧ (u.bundle b).frozen = [] ∧ u.op id = none ∧
      filled id 0 (.ready 0) (s.tsGet o.t).slq (u.tsGet o.t).slq ∧ (inRam s blk 8 → u.rd64 blk = s.rd64 blk &&& ~~~1#64) ∧
      ∀ i, i < 8 → (s.rd64 blk).getLsbD (i + 1) = true →
        let c := cc (8 * b + i)
        (∀ j, j < u.scratchSize c → s.inBrd (scratchBus c j) = false → u.inBrd (scratchBus c j) = false → u.rdByte (scratchBus c j) = s.rdByte (blk + 0x100000 + 0x80000 * i + j)) ∧
        ∀ t, t < 4 →
          let a := tsArea blk i t
          let y := u.tsGet { core := c, ts := t }
          let point := (s.rdByte a).toNat % 4
          (point = 0 → y.act = none) ∧
          (∀ v l, point ≠ 0 → activationBack ctx (s.rd (a + 0x6000) 256) = some v → v.origin = .message → mine l → v.lid = some l.lid →
            y.act = some v ∧ y.stall = some (if point = 1 then .done else .held) ∧ y.pc = s.rd64 (a + 8) ∧ y.wbudget = s.rd64 (a + 0x28) ∧
            y.fpcsr = s.rd64 (a + 0x30) ∧ y.trapen = s.rd64 (a + 0x38) ∧
            ∀ n, n < 32 → (s.rd64 (a + 0x10)).getLsbD n = true → Assoc.getD y.sreg n 0 = s.rd64 (a + 0x100 + 8 * n)) ∧
          (entries i t = 1 → ∃ p ∈ u.ops, p.t = { core := c, ts := t } ∧ some p.kind = kind i t ∧ p.replay = true ∧ p.ctx = ctx ∧ p.lid = owner i t ∧
            p.seq = s.rd32 (a + 0x2000 + 4) ∧ p.addr = s.rd64 (a + 0x2000 + 8))

/-- A replay that is older than everything its owner's window holds kills the context (R187, R193). -/
def OldReplayKills : Prop :=
  ∀ (s : State) (opid : Nat) (o : Op) (own : Nat), s.op opid = some o → s.ownerOf o = some own → o.classCode = 2 → o.replay = true → o.orphan = false → o.sent = false →
    o.held = false → o.deps = [] → s.remembered own o.mark = none → s.markOld own o.mark = true →
    ∃ u, exec (.markedReplayArrival opid) s = .next u ∧ ∀ l ∈ u.launches, l.ctx ≠ o.ctx

/-- After reset (R211; the zeros that log 4 and log 5 name are the model's choice, and that stack memory reads 0 is log 2's, DESIGN CHOICE): no thread set runs, no launch, program, message or queue is there, DEVSTAT is 0,
every byte of stack memory reads 0 and the memories stand in canonical form. -/
def ResetState : Prop :=
  let s := State.reset
  MemInv s ∧ s.devstat = 0 ∧ s.launches = [] ∧ s.progs = [] ∧ s.qbind = [] ∧ s.net = [] ∧ s.peerHeld = [] ∧ (∀ t, (s.tsGet t).act = none ∧ (s.tsGet t).tlev = 0) ∧
  (∀ a, a < Config.channels * Config.channelBytes → a < scratchBase → s.rdByte a = 0) ∧ ∀ c, (s.core c).thimble = []

/-- A device that is halted or held in boot does nothing of its own (R211, R214). -/
def HaltedDeviceStops : Prop :=
  ∀ s : State, s.agenda = [] → (s.devstat = 3 → step s = .fault .halted) ∧ (s.devstat = 2 → step s = .fault .bootHold)

end Sys2Proof.Claims

section Statements

open Sys2Proof Sys2Proof.Machine Sys2Proof.Claims

/-- Reading and writing registers: zero, queues, values: ScalarSourceForms, ScalarDestinationForms, VectorRegisterForms of Claims, together. -/
def Obligations.RegisterForms : Prop := Claims.ScalarSourceForms ∧ Claims.ScalarDestinationForms ∧ Claims.VectorRegisterForms

/-- The register forms of the ALU (R257, R258): every source form, every destination form; .w at 32 bits with its result sign-extended. -/
def Obligations.AluRegisterResult : Prop :=
  ∀ r ∈ aluRows, ∀ (s : State) (t : TsId) (act : Activation), Turn s t act →
  ∀ (d a b : Reg) (w : Bool) (x y : Word) (e1 e2 : Exe),
    (exeOf s t act).srcS a = .ok (x, e1) → e1.srcS b = .ok (y, e2) → e2.roomS d = .ok () →
    ¬(r.divides = true ∧ e2.x.trapen.getLsbD 0 = true ∧ zeroDivisor w y) →
    ∃ u, exec (r.reg d a b w) s = .next u ∧ Retired (e2.putS d (r.val w x y)) 4 u ∧ SameBytes s u

/-- ALU-K forms and high products: result and frame: AluConstantResult, MultiplyHighResult of Claims, together. -/
def Obligations.AluConstantAndHighResult : Prop := Claims.AluConstantResult ∧ Claims.MultiplyHighResult

/-- With DIVZ enabled a division by zero writes nothing and takes the trap, in the register forms and in the ALU-K forms, whose second source is the
literal or the window operand (R218, R259). -/
def Obligations.DivideByZeroTraps : Prop :=
  ∀ r ∈ aluRows, r.divides = true → ∀ (s : State) (t : TsId) (act : Activation), Turn s t act →
  ∀ (d a : Reg) (w : Bool) (x y : Word) (e1 e2 : Exe), (exeOf s t act).srcS a = .ok (x, e1) → e2.x.trapen.getLsbD 0 = true → zeroDivisor w y →
    (∀ b : Reg, e1.srcS b = .ok (y, e2) → e2.roomS d = .ok () → exec (r.reg d a b w) s = .next (trapped s t .divz 0)) ∧
    ∀ k : KOp, e1.roomS d = .ok () → e1.kop k w = .ok (y, e2) → exec (r.con d a w k) s = .next (trapped s t .divz 0)

/-- Immediates, shifts, counts and LIH: result and frame: ImmediateResult, LihResult of Claims, together. -/
def Obligations.ImmediateAndCountResult : Prop := Claims.ImmediateResult ∧ Claims.LihResult

/-- ADDI, ANDI and XORI (R260, R265, R385). Their words are major 2, 3 and 5 in format I: such a word with rd = s30 or rs1 = s31 is no instruction and
raises ILLOP, and every other one is the instruction. sD takes (sA + SignExt(imm16, 16)) modulo 2^64, sA AND ZeroExt(imm16, 16), sA XOR
ZeroExt(imm16, 16); AND clears bits [63:16]. QDEAD is raised for a source s30 of an empty queue and for s31 at full depth (R92). Retired says that no
operation is added, so that none of them waits for another, is ordered, or comes to stand in a basting record (R192). -/
def Obligations.ImmediateWordAndEffect : Prop :=
  ∀ (form : Reg → Reg → Half → Instr) (major : BitVec 6) (val : Word → Half → Word),
    (form, major, val) ∈ [((.addi, 0x02#6, fun x i => BitVec.ofInt 64 (x.toNat + i.toInt)) : (Reg → Reg → Half → Instr) × BitVec 6 × (Word → Half → Word)),
      (.andi, 0x03#6, fun x i => x &&& i.setWidth 64), (.xori, 0x05#6, fun x i => x ^^^ i.setWidth 64)] →
    (∀ (w w2 : Word32) (d a : Reg) (i : Half), decodeNorson w w2 = .ok (form d a i) ↔ w = major ++ d ++ a ++ i ∧ d ≠ 30#5 ∧ a ≠ 31#5) ∧
    (∀ (w w2 : Word32), w.extractLsb' 26 6 = major → (∃ d a i, decodeNorson w w2 = .ok (form d a i)) ∨ ∃ e, decodeNorson w w2 = .error e) ∧
    ∀ (s : State) (t : TsId) (act : Activation), Turn s t act →
      (∀ w, exec (.reservedEncoding w) s = .next (trapped s t .illop 0)) ∧
      ∀ (d a : Reg) (i : Half),
        (a = 30#5 → (s.tsGet t).slq = [] → exec (form d a i) s = .next (trapped s t .qdead 0)) ∧
        ∀ (x : Word) (e1 : Exe), (exeOf s t act).srcS a = .ok (x, e1) →
          (d = 31#5 → 8 ≤ e1.x.ssq.length → exec (form d a i) s = .next (trapped s t .qdead 0)) ∧
          (e1.roomS d = .ok () → ∃ u, exec (form d a i) s = .next u ∧ Retired (e1.putS d (val x i)) 4 u ∧ SameBytes s u ∧ u.ops = s.ops) ∧
          ∀ k, 16 ≤ k → (x &&& i.setWidth 64).getLsbD k = false

/-- Scalar FP: result, flags and frame: ScalarFpResult, ScalarFpConversionResult of Claims, together. -/
def Obligations.ScalarFloatResult : Prop := Claims.ScalarFpResult ∧ Claims.ScalarFpConversionResult

/-- FP special values and the trap FPX: FpSpecialResults, FpExceptionTraps of Claims, together. -/
def Obligations.FloatSpecialsAndTraps : Prop := Claims.FpSpecialResults ∧ Claims.FpExceptionTraps

/-- Branches and jumps: where PC goes: BranchResult, JumpResult of Claims, together. -/
def Obligations.ControlTransferResult : Prop := Claims.BranchResult ∧ Claims.JumpResult

/-- LD, VLD, PREF and VGATH issue their access and read no memory yet (R190, R223, R326, R346, R381, R383): the operation has its address,
its pieces and OSEQ, and the value is awaited at the tail of the load queue. PREF traps never: where it is dropped (no paged memory, no RD, a page
that is not resident), OSEQ advances and nothing else happens. -/
def Obligations.LoadIssue : Prop :=
  ∀ (s : State) (t : TsId) (act : Activation), Turn s t act →
  ∀ (a : Reg) (b : Word) (e1 : Exe), (exeOf s t act).srcS a = .ok (b, e1) → e1.roomRecord = .ok () → ∀ (h : BitVec 2) (i : Half),
    (∀ (z : BitVec 2) (sx : Bool) (bs : List Block),
      let n := 2 ^ z.toNat
      let va := b + i.signExtend 64 * BitVec.ofNat 64 n
      e1.x.slq.length < 16 → va.toNat % n = 0 → e1.check va n rRD = .ok bs →
      ∃ u o, exec (.ld z sx h a i) s = .next u ∧ SameBytes s u ∧ Names e1 o .ld ∧ o.addr = va ∧ o.width = n ∧ o.signed = sx ∧
        o.segs = segsOf bs ∧ o.held = anyNr bs ∧ Retired (awaitS (issued e1 o) o.id 0) 4 u) ∧
    (∀ bs : List Block,
      let va := b + i.signExtend 64 * 64
      e1.x.vlq.length < 8 → e1.check va 64 rRD = .ok bs →
      ∃ u o, exec (.vld h a i) s = .next u ∧ SameBytes s u ∧ Names e1 o .vld ∧ o.addr = va ∧ o.width = 64 ∧ o.segs = segsOf bs ∧
        o.held = anyNr bs ∧ Retired (awaitV (issued e1 o) o.id) 4 u) ∧
    (let here := b + i.signExtend 64 * 64
      let taken := fun (bs : List Block) => prefPaged e1 here = true ∧ s.check e1.view here 1 rRD = .ok bs ∧ anyNr bs = false
      (∀ bs, taken bs → ∃ u o, exec (.pref h a i) s = .next u ∧ SameBytes s u ∧ Names e1 o .pref ∧ o.addr = here &&& ~~~63#64 ∧ o.q = 0 ∧
        o.segs = wholeSegs bs ∧ Retired (issued e1 o) 4 u) ∧
      ((∀ bs, ¬ taken bs) → ∃ u, exec (.pref h a i) s = .next u ∧ SameBytes s u ∧ Retired { e1 with x := { e1.x with oseq := e1.x.oseq + 1 } } 4 u)) ∧
    ∀ (v : Reg) (p ty : BitVec 3) (x : Vec) (e2 : Exe) (pm : Word) (cs : List (Nat × List Block)),
      e1.srcV v = .ok (x, e2) → e2.x.vlq.length < 8 → e2.roomRecord = .ok () → e2.srcP p = .ok pm →
      e2.lanesOk (tyW ty / 8) rRD (laneAddrs b ty x pm) = .ok cs →
      ∃ u o, exec (.vgath a v p ty) s = .next u ∧ SameBytes s u ∧ Names e2 o .vgath ∧ o.addr = b ∧ o.width = 64 ∧
        o.segs = laneSegs (tyW ty / 8) (laneAddrs b ty x pm) cs ∧ Retired (awaitV (issued e2 o) o.id) 4 u

/-- ST, VST and VSCAT take the oldest value of their store queue (R91, R223, R328, R359, R381). The store goes to the checked address: every byte
outside its pieces reads as before. One with a piece in stack memory is outstanding with the value's low bytes. One whose pieces all lie in
scratchpads, in bytes that stores reach, is taken at once and its bytes stand, unless an older access of the core must come before its first piece;
it is outstanding then too. -/
def Obligations.StoreIssue : Prop :=
  ∀ (s : State) (t : TsId) (act : Activation), Turn s t act →
  ∀ (a : Reg) (b : Word) (e1 : Exe), (exeOf s t act).srcS a = .ok (b, e1) → s.replay t = [] →
    let out := fun (i : Instr) (e : Exe) (k : OpKind) (segs : List Seg) (d : List Byte) (u : State) =>
      exec i s = .next u ∧ (u.tsGet t).pc = e.x.pc + 4 ∧ (u.tsGet t).ssq = e.x.ssq ∧ (u.tsGet t).vsq = e.x.vsq ∧ (u.tsGet t).sreg = e.x.sreg ∧
      (∀ x, outside segs x → s.inBrd x = false → u.rdByte x = s.rdByte x) ∧
      ∃ o : Op, o.t = t ∧ o.kind = k ∧ o.segs = segs ∧ o.data = d ∧ o.id = s.nextId ∧ o.deps = e.x.rel.filter (fun j => s.pending j) ∧
        let v : State := { s with ops := s.ops ++ [o], nextId := s.nextId + 1 }
        ((∃ g ∈ segs, g.bus < scratchBase) → SameBytes s u ∧ u.ops = v.ops) ∧
        ((∀ g ∈ segs, scratchBase ≤ g.bus) →
          (∀ g r, segs = g :: r → v.clear o [g] false = false → SameBytes s u ∧ u.ops = v.ops) ∧
          (segs ≠ [] → (∀ g ∈ segs, v.clear o [g] false = true ∧ s.barred g.bus = false ∧ writable s g.bus g.len) →
            segs.Pairwise (fun p q => p.bus + p.len ≤ q.bus ∨ q.bus + q.len ≤ p.bus) →
            opGone v u o.id ∧ ∀ g ∈ segs, holds u g.bus (sliceB d g.off g.len)))
    ∀ (h : BitVec 2) (i : Half),
    (∀ (z : BitVec 2) (bs : List Block) (v : Word) (q : List Word),
      let n := 2 ^ z.toNat
      let va := b + i.signExtend 64 * BitVec.ofNat 64 n
      e1.x.ssq = v :: q → 1 ∉ e1.x.softQ → va.toNat % n = 0 → e1.check va n rWR = .ok bs → anyNr bs = false →
      ∃ u, out (.st z h a i) { e1 with x := { e1.x with ssq := q } } .st (segsOf bs) (leBytes n v.toNat) u) ∧
    ∀ (v : Vec) (q : List Vec), e1.x.vsq = v :: q → 3 ∉ e1.x.softQ →
    (∀ bs : List Block, e1.check (b + i.signExtend 64 * 64) 64 rWR = .ok bs → anyNr bs = false →
      ∃ u, out (.vst h a i) { e1 with x := { e1.x with vsq := q } } .vst (segsOf bs) (leBytes 64 v.toNat) u) ∧
    ∀ (w : Reg) (p ty : BitVec 3) (x : Vec) (e2 : Exe) (pm : Word) (cs : List (Nat × List Block)),
      e1.srcV w = .ok (x, e2) → e2.srcP p = .ok pm → e2.lanesOk (tyW ty / 8) rWR (laneAddrs b ty x pm) = .ok cs →
      anyNr (cs.flatMap Prod.snd) = false →
      ∃ u, out (.vscat a w p ty) { e2 with x := { e2.x with vsq := q } } .vscat (laneSegs (tyW ty / 8) (laneAddrs b ty x pm) cs) (leBytes 64 v.toNat) u

/-- Misaligned accesses and dead queues trap: MisalignedAccessTraps, QueueDeadTraps of Claims, together. -/
def Obligations.AccessTraps : Prop := Claims.MisalignedAccessTraps ∧ Claims.QueueDeadTraps

/-- An AMO at issue (R161, R225, R261 to R264): its address, operand, compare value and mark, in program order by OSEQ; with R set no queue
entry; with the release bit it waits first; with the acquire bit every later access of the thread set waits for it. No memory changes yet. -/
def Obligations.AmoIssue : Prop :=
  ∀ (s : State) (t : TsId) (act : Activation), Turn s t act →
  ∀ (a b c : Reg) (w r m : Bool) (o : BitVec 2) (va v k : Word) (e1 e2 e3 : Exe) (bs : List Block),
    (exeOf s t act).srcS a = .ok (va, e1) → e1.srcS b = .ok (v, e2) →
    let n := if w then 4 else 8
    let ready := fun (e : Exe) => (r = false → e.x.slq.length < 16) ∧ va.toNat % n = 0 ∧ e.check va n rAM = .ok bs ∧
      (o.getLsbD 1 = true → e.waitReplay = .ok () ∧ e.waitTokens = .ok ()) ∧ e.roomRecord = .ok ()
    let out := fun (i : Instr) (e : Exe) (code : Nat) (cmp : Word) => ∃ u p, exec i s = .next u ∧ SameBytes s u ∧ Names e p .amo ∧ p.addr = va ∧
      p.operand = v ∧ p.cmp = cmp ∧ p.n = code ∧ p.width = n ∧ p.mark = e.mark ∧ p.held = anyNr bs ∧ p.segs = wholeSegs bs ∧
      u.ops = s.ops ++ [p] ∧ (u.tsGet t).pc = e.x.pc + 4 ∧ (u.tsGet t).oseq = e.x.oseq + 1 ∧ (u.tsGet t).sreg = e.x.sreg ∧
      (u.tsGet t).slq = e.x.slq ++ (if r then [] else [.wait p.id 0]) ∧ (o.getLsbD 0 = true → p.id ∈ (u.tsGet t).rel) ∧
      (o.getLsbD 1 = true → ∀ x ∈ e.s.cumulative t, x ∈ p.deps)
    (∀ row ∈ amoRows, ready e2 → out (row.form a b w r m o) e2 row.code 0) ∧
    (e2.srcS c = .ok (k, e3) → ready e3 → out (.amoCas c a b w r m o) e3 10 k)

/-- Block transfers and copies at issue: BlockIssue, CopyIssue of Claims, together. -/
def Obligations.TransferIssue : Prop := Claims.BlockIssue ∧ Claims.CopyIssue

/-- The send buffer and the destinations of messages: SendBufferResult, SendDestinationTraps of Claims, together. -/
def Obligations.SendResult : Prop := Claims.SendBufferResult ∧ Claims.SendDestinationTraps

/-- DONE ends an activation, LNCH queues a child: DoneResult, ChildLaunchResult of Claims, together. -/
def Obligations.DoneAndChildResult : Prop := Claims.DoneResult ∧ Claims.ChildLaunchResult

/-- GSET, GADD, GMAX and GGET at issue (R129, R309 to R311): the operation goes to the home engine of the index, bits [31:0] of the first source;
GGET awaits a value. Outside PILE mode they raise GATE with the index; that a kernel core, which has no launch, is outside it is the model's reading
(log 29, DEDUCED). -/
def Obligations.GainIssue : Prop :=
  ∀ (s : State) (t : TsId) (act : Activation), Turn s t act →
  ∀ (a b : Reg) (m : Bool) (x v : Word) (e1 e2 : Exe), (exeOf s t act).srcS a = .ok (x, e1) →
    let idx : Word := BitVec.ofNat 64 (x.toNat % 2 ^ 32)
    let pile := fun (e : Exe) => ∃ l, e.launch = some l ∧ l.pile = true
    (∀ r ∈ ([(fun a b m => .gset a b m, 0), (fun a b m => .gadd a b m, 1), (fun a b m => .gmax a b m, 2)] : List ((Reg → Reg → Bool → Instr) × Nat)),
      e1.srcS b = .ok (v, e2) →
      (pile e2 → e2.roomRecord = .ok () → ∃ u o, exec (r.1 a b m) s = .next u ∧ SameBytes s u ∧ Names e2 o .gain ∧ o.addr = idx ∧ o.operand = v ∧
        o.n = r.2 ∧ o.mark = e2.mark ∧ Retired (issued e2 o) 4 u) ∧
      (¬ pile e2 → exec (r.1 a b m) s = .next (trapped s t .gate idx))) ∧
    (e1.x.slq.length < 16 → pile e1 → e1.roomRecord = .ok () →
      ∃ u o, exec (.gget a) s = .next u ∧ SameBytes s u ∧ Names e1 o .gget ∧ o.addr = idx ∧ o.q = 1 ∧ Retired (awaitS (issued e1 o) o.id 0) 4 u) ∧
    (e1.x.slq.length < 16 → ¬ pile e1 → exec (.gget a) s = .next (trapped s t .gate idx))

/-- The lane-wise vector operations (R227, R376, R377): an on lane takes the operation, another keeps the old destination; the flags of the on
lanes are sticky. -/
def Obligations.VectorLaneResult : Prop :=
  ∀ r ∈ vecRows, ∀ (s : State) (t : TsId) (act : Activation), Turn s t act →
  ∀ (d a b : Reg) (p ty : BitVec 3) (x y old : Vec) (pm : Word) (e1 e2 : Exe),
    (exeOf s t act).srcV a = .ok (x, e1) → e1.srcV b = .ok (y, e2) → e2.srcP p = .ok pm → e2.oldV d = .ok old → e2.roomV d = .ok () →
    let w := tyW ty
    let val := fun i => r.val ty e2.x.vrm (lane w x i) (lane w y i) (lane w old i)
    let fl := allFlags (512 / w) pm.getLsbD (fun i => (val i).2)
    fpQuiet e2 fl →
    ∃ u v, exec (r.form d a b p ty) s = .next u ∧ Retired ((withFlags e2 fl).putV d v) 4 u ∧ SameBytes s u ∧
      ∀ i, i < 512 / w → lane w v i = if pm.getLsbD i then (val i).1 % 2 ^ w else lane w old i

/-- Vector selects, compares, reductions, conversions: VectorMoveResult, VectorReduceConvertResult of Claims, together. -/
def Obligations.VectorMoveReduceResult : Prop := Claims.VectorMoveResult ∧ Claims.VectorReduceConvertResult

/-- Press commands and rings at issue: PressIssue, RingResult of Claims, together. -/
def Obligations.PressIssueAndRings : Prop := Claims.PressIssue ∧ Claims.RingResult

/-- Fences, SPILL, FILL and TOKW: FenceResult, SpillFillResult of Claims, together. -/
def Obligations.OrderingAndSpill : Prop := Claims.FenceResult ∧ Claims.SpillFillResult

/-- Special registers read and written; NOP, YIELD, BRK: GetSpecialRegisterResult, SetSpecialRegisterResult, NopYieldBrkResult of Claims, together. -/
def Obligations.SystemRegisterResult : Prop := Claims.GetSpecialRegisterResult ∧ Claims.SetSpecialRegisterResult ∧ Claims.NopYieldBrkResult

/-- Taking a trap (R177 to R179): with a handler of the next level, TCAUSE, TEPC, TADDR and TMSG of that level are written, TLEV rises, PC goes to
the level's TVEC with bits [1:0] zero, WBUDGET to the trap budget, and send buffer and queues are emptied; the other bank, the registers, FPCSR,
TRAPEN and every other thread set stay, and so does every byte of memory unless a SPILL of the thread set is outstanding, which completes (R96). -/
def Obligations.TrapEntry : Prop :=
  ∀ (s : State) (t : TsId) (act : Activation) (c : Cause) (addr : Word), (s.tsGet t).act = some act →
    let x := s.tsGet t
    let vec := if x.tlev = 0 then x.tvec1 else x.tvec2
    x.tlev < 2 → vec &&& ~~~3#64 ≠ 0 → lostEntries (dropHead c.code addr x.slq) = none → lostEntries (dropHead c.code addr x.vlq) = none →
    let y := (s.takeTrap t c.code addr).tsGet t
    y.pc = vec &&& ~~~3#64 ∧ y.tlev = x.tlev + 1 ∧
    (x.tlev = 0 → y.bank1 = { cause := BitVec.ofNat 64 c.code, epc := BitVec.ofNat 64 (x.pc.toNat % 2 ^ 48), addr := addr, msg := act.msg.w1 } ∧ y.bank2 = x.bank2) ∧
    (x.tlev = 1 → y.bank2 = { cause := BitVec.ofNat 64 c.code, epc := BitVec.ofNat 64 (x.pc.toNat % 2 ^ 48), addr := addr, msg := act.msg.w1 } ∧ y.bank1 = x.bank1) ∧
    y.wbudget = BitVec.ofNat 64 (s.trapBudget act.ctx) ∧ y.sbuf = [] ∧ y.slq = [] ∧ y.ssq = [] ∧ y.vlq = [] ∧ y.vsq = [] ∧ y.softQ = [] ∧
    y.sreg = x.sreg ∧ y.vreg = x.vreg ∧ y.preg = x.preg ∧ y.fpcsr = x.fpcsr ∧ y.trapen = x.trapen ∧ y.act = x.act ∧
    (∀ t', t' ≠ t → (s.takeTrap t c.code addr).tsGet t' = s.tsGet t') ∧
    ((∀ o ∈ s.ops, o.t = t → o.kind ≠ .spill) → SameBytes s (s.takeTrap t c.code addr))

/-- TRAP and the three returns: TrapInstructionResult, TrapReturnResult of Claims, together. -/
def Obligations.TrapInstructionAndReturn : Prop := Claims.TrapInstructionResult ∧ Claims.TrapReturnResult

/-- Programs: arithmetic, control and END: LivikArithmeticResult, LivikControlResult, LivikEndResult of Claims, together. -/
def Obligations.LivikBasicResult : Prop := Claims.LivikArithmeticResult ∧ Claims.LivikControlResult ∧ Claims.LivikEndResult

/-- ASET (R269): opcode 0x01, A of class a, B, C and D zero, imm32 in [31:0]; aA takes SignExt(imm32, 32), in one step. A word of opcode 0x01 of another
shape is no instruction and raises ILLOP; no other fault arises. It carries no agent mark: no remembered result changes, and a repeated mark changes nothing. -/
def Obligations.AsetWordAndEffect : Prop :=
  (∀ (w : Word) (a : LIdx) (i : Word32), decodeLivik w = .ok (.aset a i) ↔ w = 0x01#8 ++ 0#2 ++ a ++ 0#18 ++ i) ∧
  (∀ w : Word, w.extractLsb' 56 8 = 0x01#8 → (∃ a i, decodeLivik w = .ok (.aset a i)) ∨ ∃ e, decodeLivik w = .error e) ∧
  ∀ (s : State) (p : Prog), ProgTurn s p →
    (∀ w, exec (.livikIllopWord w) s = agentFault s p 1) ∧
    ∀ (a : LIdx) (i : Word32), ∃ u, exec (.aset a i) s = .next u ∧ OnlyPrograms s u ∧
      Ran s u p { p with a := p.a.set a.toNat (BitVec.ofInt 64 i.toInt) } (p.pc + 1)

/-- Strings (R362 to R372): TLIT reads an image literal; TCAT, TCUT, TLEN, TFIND, TCMP, TADD and TGET compute on registers T and A; a result of more
than 4,096 ids is agent fault 3. -/
def Obligations.LivikStringResult : Prop :=
  ∀ (s : State) (p : Prog), ProgTurn s p → ∀ (a b c d : LIdx),
    let ran := fun (i : Instr) (q : Prog) => ∃ u, exec i s = .next u ∧ Ran s u p q (p.pc + 1) ∧ OnlyPrograms s u
    ((p.gt b).length + (p.gt c).length ≤ 4096 → ran (.tcat a b c) { p with t := p.t.set a.toNat (p.gt b ++ p.gt c) }) ∧
    (4096 < (p.gt b).length + (p.gt c).length → exec (.tcat a b c) s = agentFault s p 3) ∧
    ran (.tcut a b c d) { p with t := p.t.set a.toNat (((p.gt b).drop (p.ga c).toNat).take (p.ga d).toNat) } ∧
    ran (.tlen a b) { p with a := p.a.set a.toNat (BitVec.ofNat 64 (p.gt b).length) } ∧
    (∀ i, FirstAt (p.gt c) (p.gt b) (p.ga d).toNat i → ran (.tfind a b c d) { p with a := p.a.set a.toNat (BitVec.ofNat 64 i) }) ∧
    ((∀ i, ¬ FirstAt (p.gt c) (p.gt b) (p.ga d).toNat i) → ran (.tfind a b c d) { p with a := p.a.set a.toNat (BitVec.allOnes 64) }) ∧
    (p.gt b = p.gt c → ran (.tcmp a b c) { p with a := p.a.set a.toNat 0 }) ∧
    (∀ n x y, (p.gt b).take n = (p.gt c).take n → (p.gt b)[n]? = some x → (p.gt c)[n]? = some y → x.toNat < y.toNat →
      ran (.tcmp a b c) { p with a := p.a.set a.toNat (BitVec.allOnes 64) }) ∧
    (∀ n x y, (p.gt b).take n = (p.gt c).take n → (p.gt b)[n]? = some x → (p.gt c)[n]? = some y → y.toNat < x.toNat →
      ran (.tcmp a b c) { p with a := p.a.set a.toNat 1 }) ∧
    (∀ x r, p.gt c = p.gt b ++ x :: r → ran (.tcmp a b c) { p with a := p.a.set a.toNat (BitVec.allOnes 64) }) ∧
    (∀ x r, p.gt b = p.gt c ++ x :: r → ran (.tcmp a b c) { p with a := p.a.set a.toNat 1 }) ∧
    ((p.gt a).length < 4096 → ran (.tadd a b) { p with t := p.t.set a.toNat (p.gt a ++ [(p.ga b).setWidth 32]) }) ∧
    (4096 ≤ (p.gt a).length → exec (.tadd a b) s = agentFault s p 3) ∧
    (∀ x, (p.gt b)[(p.ga c).toNat]? = some x → ran (.tget a b c) { p with a := p.a.set a.toNat (x.setWidth 64) }) ∧
    ((p.gt b).length ≤ (p.ga c).toNat → ran (.tget a b c) { p with a := p.a.set a.toNat (BitVec.allOnes 64) }) ∧
    ∀ (i : Word32) (h w : List Byte), p.repeated ownerImage = none → i.toNat % 8 = 0 → i.toNat + 4 + 4 * leNat h ≤ p.imgLen → leNat h ≤ 4096 →
      s.pass.imageRead p i.toNat 4 = .ok h → s.pass.imageRead p (i.toNat + 4) (4 * leNat h) = .ok w →
      ran (.tlit a i) ({ p with t := p.t.set a.toNat (idsOf (leNat h) w) }.remember ownerImage p.mark (BitVec.ofNat 64 (leNat h)))

/-- TADD, TCAT, TCUT and TGET (R363, R364, R366, R368): the word of each, and its effect. A string of 4,096 ids raises STRLEN (agent fault 3) in TADD, and so
does a result of more in TCAT; TCUT and TGET raise nothing. -/
def Obligations.StringWordAndEffect : Prop :=
  (∀ (w : Word) (a b c d : LIdx),
    (decodeLivik w = .ok (.tadd a b) ↔ w = 0x36#8 ++ 2#2 ++ a ++ 0#2 ++ b ++ 0#44) ∧
    (decodeLivik w = .ok (.tcat a b c) ↔ w = 0x31#8 ++ 2#2 ++ a ++ 2#2 ++ b ++ 2#2 ++ c ++ 0#38) ∧
    (decodeLivik w = .ok (.tcut a b c d) ↔ w = 0x32#8 ++ 2#2 ++ a ++ 2#2 ++ b ++ 0#2 ++ c ++ 0#2 ++ d ++ 0#32) ∧
    (decodeLivik w = .ok (.tget a b c) ↔ w = 0x37#8 ++ 0#2 ++ a ++ 2#2 ++ b ++ 0#2 ++ c ++ 0#38)) ∧
  ∀ (s : State) (p : Prog), ProgTurn s p → ∀ (a b c d : LIdx),
    let ran := fun (i : Instr) (q : Prog) => ∃ u, exec i s = .next u ∧ Ran s u p q (p.pc + 1) ∧ OnlyPrograms s u
    ((p.gt a).length = 4096 → exec (.tadd a b) s = agentFault s p 3) ∧
    ((p.gt a).length < 4096 → ran (.tadd a b) { p with t := p.t.set a.toNat (p.gt a ++ [(p.ga b).extractLsb' 0 32]) }) ∧
    (4096 < (p.gt b).length + (p.gt c).length → exec (.tcat a b c) s = agentFault s p 3) ∧
    ((p.gt b).length + (p.gt c).length ≤ 4096 → ran (.tcat a b c) { p with t := p.t.set a.toNat (p.gt b ++ p.gt c) }) ∧
    ((p.gt b).length ≤ (p.ga c).toNat → ran (.tcut a b c d) { p with t := p.t.set a.toNat [] }) ∧
    ((p.ga c).toNat < (p.gt b).length → ran (.tcut a b c d)
      { p with t := p.t.set a.toNat (((p.gt b).take (min ((p.ga c).toNat + (p.ga d).toNat) (p.gt b).length)).drop (p.ga c).toNat) }) ∧
    (∀ x, (p.gt b)[(p.ga c).toNat]? = some x → ran (.tget a b c) { p with a := p.a.set a.toNat (BitVec.ofNat 64 x.toNat) }) ∧
    ((p.gt b).length ≤ (p.ga c).toNat → ran (.tget a b c) { p with a := p.a.set a.toNat 0xFFFF_FFFF_FFFF_FFFF#64 })

/-- Programs: contexts and repeated marks: ContextCreateResult, ContextChangeResult, ContextTrimResult, RepeatedMarkResult of Claims, together. -/
def Obligations.LivikContextResult : Prop := Claims.ContextCreateResult ∧ Claims.ContextChangeResult ∧ Claims.ContextTrimResult ∧ Claims.RepeatedMarkResult

/-- Long instructions: first start and faults: LongInstructionStart, ForkingInstructionStart, LongInstructionFaults of Claims, together. -/
def Obligations.LongInstructionResult : Prop := Claims.LongInstructionStart ∧ Claims.ForkingInstructionStart ∧ Claims.LongInstructionFaults

/-- Programs: POST, AWAIT, INVOKE, STAMP: PostResult, AwaitInvokeStampResult of Claims, together. -/
def Obligations.LivikMessagingResult : Prop := Claims.PostResult ∧ Claims.AwaitInvokeStampResult

/-- Doorbells, kills, and what the host may access: HostDoorbellResult, KillRequestResult, HostAccessResult of Claims, together. -/
def Obligations.HostInterfaceResult : Prop := Claims.HostDoorbellResult ∧ Claims.KillRequestResult ∧ Claims.HostAccessResult

/-- The service requests of Edoiny (R202), answered oldest first: bind, unbind and its drain, release of a slot, registration and withdrawal of a
model image, more host memory, and status 3 for an unknown code. A block with a reserved byte set is answered 1. A release waits for the drops
that it brings (R31, R294) and for an INVOKE's packet (R49; log 44). -/
def Obligations.ServiceRequestResult : Prop :=
  ∀ (s : State) (a : Nat) (rest : List Nat), s.services = a :: rest →
    let d := s.rd a 256
    let code := fieldB d 0 4
    (∀ hint, ∀ i ∈ ([(1, .bindQueue), (2, .unbindQueue), (3, .releaseSlot), (4, .registerModelImage hint), (5, .extendHostMemory), (6, .killProgram),
      (7, .withdrawModelImage)] : List (Nat × Instr)), code = i.1 → svcClean i.1 d = false → ∃ u, exec i.2 s = .next u ∧ answered s u a rest 1 0) ∧
    (svcClean code d = true →
      (code = 1 → fieldB d 0x08 8 < 4096 → Assoc.get s.qbind (fieldB d 0x08 8) = none → fieldB d 0x10 8 % 64 = 0 → fieldB d 0x10 8 < 2 ^ 48 →
        fieldB d 0x18 8 / 65536 ≤ 11 → (∃ c, s.ctx (BitVec.ofNat 16 (fieldB d 0x18 8)) = some c ∧ c.hostGranted = true) →
        ∃ u, exec .bindQueue s = .next u ∧ answered s u a rest 0 0 ∧ Assoc.get u.qbind (fieldB d 0x08 8) =
          some { qdesc := fieldB d 0x10 8, nctx := BitVec.ofNat 16 (fieldB d 0x18 8), lcap := fieldB d 0x18 8 / 65536, unbind := none }) ∧
      (code = 2 → ∀ b, Assoc.get s.qbind (fieldB d 0x08 8) = some b →
        (b.unbind = none → ∃ u, exec .unbindQueue s = .next u ∧ u.services = s.services ∧
          Assoc.get u.qbind (fieldB d 0x08 8) = some { b with unbind := some (s.rd64 (b.qdesc + 0x18)) }) ∧
        (s.drained b = true → ∃ u, exec .unbindQueueDrained s = .next u ∧ answered s u a rest 0 0 ∧ Assoc.get u.qbind (fieldB d 0x08 8) = none)) ∧
      (code = 3 → ∀ p, s.prog (fieldB d 0x08 8) = some p →
        let waits := p.packetLeft = true ∨ ∃ k ∈ s.createdBy (fieldB d 0x08 8), s.dropWaits k = true
        (p.state = .done ∨ p.state = .killed → ¬ waits → ∃ u, exec .releaseSlot s = .next u ∧ answered s u a rest 0 0 ∧ u.prog (fieldB d 0x08 8) = none) ∧
        (p.state = .done ∨ p.state = .killed → waits → exec .releaseSlot s = .next s) ∧
        (p.state = .ready → ∃ u, exec .releaseSlot s = .next u ∧ answered s u a rest 1 0 ∧ u.progs = s.progs)) ∧
      (code = 4 → ∀ (hint : Nat) (c : NCtx) (id : Nat), fieldB d 0x08 8 < 65536 → s.ctx (BitVec.ofNat 16 (fieldB d 0x08 8)) = some c →
        s.imageOk (BitVec.ofNat 16 (fieldB d 0x08 8)) (s.rd (fieldB d 0x10 8) 64) = true →
        firstFree 65536 (fun i => (s.image (BitVec.ofNat 16 i)).isSome) (s.images.length + 1) hint = some id →
        ∃ u m, exec (.registerModelImage hint) s = .next u ∧ answered s u a rest 0 (BitVec.ofNat 64 id) ∧ u.images = s.images ++ [m] ∧
          m.id = BitVec.ofNat 16 id ∧ m.ctx = BitVec.ofNat 16 (fieldB d 0x08 8)) ∧
      (code = 5 → fieldB d 0x08 8 % 2 ^ 21 = 0 → fieldB d 0x10 8 % 2 ^ 21 = 0 →
        ∃ u, exec .extendHostMemory s = .next u ∧ answered s u a rest 0 0 ∧ u.hostRegions = s.hostRegions ++ [(fieldB d 0x08 8, fieldB d 0x10 8)] ∧
          u.hostSlots = s.hostSlots + fieldB d 0x10 8 / 65536) ∧
      (code = 7 → fieldB d 0x08 8 < 65536 → (s.image (BitVec.ofNat 16 (fieldB d 0x08 8))).isSome →
        (∀ c ∈ s.lctx, c.2.live = true → c.2.img ≠ BitVec.ofNat 16 (fieldB d 0x08 8)) →
        ∃ u, exec .withdrawModelImage s = .next u ∧ answered s u a rest 0 0 ∧ u.image (BitVec.ofNat 16 (fieldB d 0x08 8)) = none)) ∧
    (code = 0 ∨ 7 < code → ∃ u, exec .serviceRequestUnknownCode s = .next u ∧ answered s u a rest 3 0)

/-- Packets (R109 to R113, R388). A launch that fails a check of R113 ends with that status: in its completion record, where CREC is granted, and told to
the program whose INVOKE waits for it, with launch id 0 where CREC is not (R320). One with a wait slot that can be reached waits and NEEDED is published;
that one which cannot be reached is accepted at once is the model's choice (log 44, DESIGN CHOICE). One with too few eligible bundles waits for them, and so does one of another level behind a waiting launch of level 0 (R66); else it runs on the bundles chosen,
and its root message with the root payload is on its way to ordinal 0. That a packet of another level waits behind one of level 0, and that a launch takes
its place in acceptance order then, are the model's choices (log 35, DEDUCED). -/
def Obligations.LaunchPacketResult : Prop :=
  ∀ (s : State) (src : PacketSrc) (hint : Nat) (p : Packet) (lid : Half), s.packet src = some p → s.freeLid hint = some lid → launchKind src p.kind = true →
    let l := newLaunch lid p s.stamp
    (∀ n, s.checkLaunch l = .error (.status n) → ∃ u i, exec (.launchPacket src hint) s = .next u ∧ u.launch lid = none ∧ u.launches = s.launches ∧ (i = lid ∨ i = 0) ∧
      (∀ slot pr a ws x, src = .invoke slot → s.prog slot = some pr → pr.await = .launch a (some ws) x none →
        ∃ q, u.prog slot = some q ∧ q.await = .launch a none (some lid) (some (statusWord n i))) ∧
      let v := s.takePacket src (some lid)
      ∀ b, l.crec.toNat % 128 = 0 → v.granted l.ctx l.crec 128 rWR true = .ok [b] → i = lid ∧
        (l.sslot = 0 → inRam v b.bus 128 → unowned v b.bus 128 → u.rd64 b.bus = statusWord n lid ∧ holds u (b.bus + 8) (s.stamp.bytes ++ List.replicate 104 0))) ∧
    ∀ t, s.checkLaunch l = .ok t →
      (∀ a, l.wslot ≠ 0 → s.slotAddr l l.wslot = some a → ∃ u, exec (.launchPacket src hint) s = .next u ∧ u.launches = s.launches ++ [l] ∧ l.state = .waitSlot ∧
        (inRam s (a + 8) 8 → unowned s (a + 8) 8 → u.rd64 (a + 8) = BitVec.ofNat 64 (bits (l.w 0) 63 48 + 2 ^ 63))) ∧
      ((l.wslot = 0 ∨ s.slotAddr l l.wslot = none) → (s.wanted l).2 ≤ s.usable.length →
        let behind := l.level ≠ 0 ∧ ∃ x ∈ s.launches, x.state = .waitBundles ∧ x.level = 0
        (behind ∨ s.choose (l.keep t) = none → ∃ u, exec (.launchPacket src hint) s = .next u ∧ u.orderNext = s.orderNext + 1 ∧
          u.launches = s.launches ++ [{ l.keep t with order := s.orderNext, state := .waitBundles }]) ∧
        ∀ bs, ¬ behind → s.choose (l.keep t) = some bs → t.lists = [] → ∃ u l', exec (.launchPacket src hint) s = .next u ∧ u.launch lid = some l' ∧
          l'.state = .running ∧ l'.bundles = bs ∧ l'.kb = t.kb ∧ l'.ctx = p.ctx ∧ l'.order = s.orderNext ∧
          ∃ f ∈ u.net, f.dst = l'.coreAt 0 ∧ f.msg.pay = t.root ∧ f.lid = some lid ∧ msgKind f.msg.w1 = 2)

/-- The other packets and the dependence slots (R109, R111, R112): DEPEND publishes NEEDED and holds its queue; SIGNAL adds 1 to DONECNT of its slot;
FETCH-FENCE holds its queue for the launches taken before and, when they are gone, discards the prefetched packets; STAMP writes the stamp;
a slot whose counts are equal fires: both its words become zero and a DEPEND's queue goes on. A waiting launch of level 0 is placed first (log 35,
DEDUCED). -/
def Obligations.QueuePacketResult : Prop :=
  ∀ (s : State),
    (∀ q b p, Assoc.get s.qbind q = some b → s.packet (.host q) = some p → p.kind = 3 → inRam s (b.qdesc + 0x10) 8 →
      ∃ u, exec (.fetchFencePacket q) s = .next u ∧ (u.qwait q).fence = some (s.qwait q).launched ∧
        u.rd64 (b.qdesc + 0x10) = s.rd64 (b.qdesc + 0x10) + 1 ∧ onlyBytes s u (b.qdesc + 0x10) 8) ∧
    (∀ q, (s.qwait q).fence = some [] → ∃ u, exec (.fetchFenceRelease q) s = .next u ∧ (u.qwait q).fence = none ∧ (u.qwait q).fetched = []) ∧
    (∀ q b p a, Assoc.get s.qbind q = some b → s.packet (.host q) = some p → p.kind = 1 → (newLaunch 0 p s.stamp0).wslot ≠ 0 →
      p.slots = some (a, 0) → let at_ := a + 16 * (newLaunch 0 p s.stamp0).wslot
      inRam s at_ 16 → unowned s at_ 16 → ∃ u, exec (.dependPacket q) s = .next u ∧ (u.qwait q).depend = some at_ ∧
        u.rd64 (at_ + 8) = BitVec.ofNat 64 (bits (p.w 0) 63 48 + 2 ^ 63)) ∧
    (∀ q b p a, Assoc.get s.qbind q = some b → s.packet (.host q) = some p → p.kind = 2 → (newLaunch 0 p s.stamp0).sslot ≠ 0 →
      p.slots = some (a, 0) → let at_ := a + 16 * (newLaunch 0 p s.stamp0).sslot
      inRam s at_ 16 → unowned s at_ 16 → (at_ + 8 ≤ b.qdesc + 0x10 ∨ b.qdesc + 0x18 ≤ at_) →
      ∃ u, exec (.signalPacket (.host q)) s = .next u ∧ u.rd64 at_ = s.rd64 at_ + 1) ∧
    (∀ q p bs, s.packet (.host q) = some p → p.kind = 4 → ((s.takePacket (.host q)).stamped).granted p.ctx (p.w 6) 16 rWR true = .ok bs →
      ∃ u, exec (.stampPacket (.host q)) s = .next u ∧ u.fseq = s.fseq + 1 ∧
        ((∀ b ∈ bs, inRam s b.bus b.len ∧ unowned s b.bus b.len) → bs.length = 1 → u.rdBlocks bs = s.stamp.bytes)) ∧
    (∀ addr x, (s.rd64 (addr + 8)).getLsbD 63 = true → (s.rd64 addr).toNat = bits (s.rd64 (addr + 8)) 15 0 →
      (∀ l ∈ s.launches, l.state = .waitSlot → s.slotAddr l l.wslot ≠ some addr) → s.qwaits.find? (fun x => decide (x.depend = some addr)) = some x →
      inRam s addr 16 → unowned s addr 16 → ∃ u, exec (.slotFire addr) s = .next u ∧ u.rd64 addr = 0 ∧ u.rd64 (addr + 8) = 0 ∧ (u.qwait x.q).depend = none ∧
        onlyBytes s u addr 16) ∧
    ∀ lid l bs, s.launch lid = some l → l.state = .waitBundles → (l.level = 0 ∨ ∀ x ∈ s.launches, x.state = .waitBundles → x.level ≠ 0) →
      (s.wanted l).2 ≤ s.usable.length → s.choose l = some bs → l.lists = [] →
      ∃ u l', exec (.pendingLaunchPlace lid) s = .next u ∧ u.launch lid = some l' ∧ l'.state = .running ∧ l'.bundles = bs

/-- Arrival and start (R86, R103, R104, R119): a message on a core of its launch with room enters the basket and is counted once; a message whose launch is
gone is discarded; so is one for a core that is absent or that no launch holds, a seam core among them, whose firewall counts what it drops (R212); one for another device leaves on a link that
is routed to it (R208); one held for too long ends its launch, and an INVOKE that waits for it is told OVERFLOW. An activation begins on an idle thread set with the most urgent startable
message: s1, s2 and v0 are the message, every other register is zero, PC is the handler. What a firewall judges a message by, and a seam bundle with no
set, are the model's choices (log 43, PRESUMED), and so are the link that a message leaves on (log 44) and the on-chip slots as the only candidates
(log 34). -/
def Obligations.MessageResult : Prop :=
  ∀ (s : State),
    (∀ id f lid l, s.net.find? (fun f => decide (f.id = id)) = some f → s.mayArrive f = true → f.outside = false → f.lid = some lid →
      f.dev = none → s.coreAbsent f.dst = false → f.dst.kernel = false → s.launch lid = some l → s.frozenImg f.dst f.ctx = none → s.freezingOn f.dst f.ctx = false →
      (s.core f.dst).dup f.msg = false → (s.core f.dst).basket.length < 64 → (s.core f.dst).membk = [] → (s.core f.dst).ring = [] →
      ∃ u, exec (.messageArrival id) s = .next u ∧ (u.core f.dst).basket = (s.core f.dst).basket ++ [f.msg] ∧
        (∀ g ∈ u.net, g.id ≠ id) ∧ (∀ o, f.counted = true → l.ordinal f.dst = some o → ∃ l', u.launch lid = some l' ∧
          Assoc.getD l'.counts o 0 = Assoc.getD l.counts o 0 - 1 ∧ o ∈ l'.stains)) ∧
    (∀ id f, s.net.find? (fun f => decide (f.id = id)) = some f → s.mayArrive f = true → f.dev = none →
      (s.coreAbsent f.dst = true ∨ (f.dst.kernel = false ∧ ((f.outside = true ∧ ∀ l ∈ s.launches, l.holds f.dst = false) ∨
        (f.outside = false ∧ ∀ l, f.lid = some l → s.launch l = none)))) →
      ∃ u, exec (.messageArrival id) s = .next u ∧ (∀ g ∈ u.net, g.id ≠ id) ∧ u.cores = s.cores ∧ u.launches = s.launches ∧ u.mem = s.mem ∧
        u.scratch = s.scratch ∧ (f.dst.kernel = false → bundleOf f.dst ∈ s.seam → Assoc.get s.firewall (bundleOf f.dst) = none → u.fwDrops = s.fwDrops + 1) ∧
        (∀ w, f.dst.kernel = false → bundleOf f.dst ∈ s.seam → Assoc.get s.firewall (bundleOf f.dst) = some w →
          u.fwDrops = if (f.msg.w1.getLsbD 56, bits f.msg.w1 13 0) ∈ w.sources then s.fwDrops else s.fwDrops + 1)) ∧
    (∀ id f d link, s.net.find? (fun f => decide (f.id = id)) = some f → s.mayArrive f = true → f.dev = some d → s.linkTo d = some link →
      ∃ u bs, exec (.messageArrival id) s = .next u ∧ (∀ g ∈ u.net, g.id ≠ id) ∧ u.cores = s.cores ∧ u.peerOut = s.peerOut ++ [(link, bs)]) ∧
    (∀ id f lid m c, s.net.find? (fun f => decide (f.id = id)) = some f → s.joins f = some (c, some lid, m) → f.held = true →
      f.since + holdLimit < s.clock → s.frozenFor f.dst c = false → ∃ u, exec (.messageHoldTimeout id) s = .next u ∧ u.launch lid = none ∧
        ∀ l, s.launch lid = some l → told s u l 8) ∧
    ∀ t m, s.idleTs t = true → s.coreAbsent t.core = false → s.taskLaunch t.core = none →
      urgentMsg ((s.core t.core).basket.filter (s.startable t.core)) = some m →
      ∃ u x, exec (.activationStart t) s = .next u ∧ u.tsGet t = x ∧ x.sreg = [(1, m.w0), (2, m.w1)] ∧ x.vreg = [(0, m.pay)] ∧ x.preg = [] ∧
        x.slq = [] ∧ x.ssq = [] ∧ x.vlq = [] ∧ x.vsq = [] ∧ x.pc = m.w0 &&& 0xFFFFFFFFFFFC#64 ∧ x.fpcsr = 0 ∧ x.trapen = 0 ∧ x.tlev = 0 ∧
        (∃ a, x.act = some a ∧ a.msg = m ∧ a.origin = .message) ∧ ∀ t', t' ≠ t → u.tsGet t' = s.tsGet t'

/-- Steals, the rinse token, group barriers, the completion record: StealTokenBarrier, CompletionRecordResult of Claims, together. -/
def Obligations.StealTokenBarrierResult : Prop := Claims.StealTokenBarrier ∧ Claims.CompletionRecordResult

/-- Kernel instructions and MARKQ at issue: KernelInstructionResult, MarkQueryIssue of Claims, together. -/
def Obligations.KernelResult : Prop := Claims.KernelInstructionResult ∧ Claims.MarkQueryIssue

/-- A load performs its pieces in turn: each gives its bytes, or those of the one untaken store of its own thread set that covers it (R157), at their
place in the value; with the last one the value enters the load queue, of LD extended as it says (R326), of VLD and VGATH as the 64 bytes of a vector
(R346, R381); no byte of memory changes. A piece that a seam bundle's firewall drops is counted (R212; the model's choice, log 43, PRESUMED). A PREF ends
with no effect. MARKQ tells remembered (0), absent (1), or unknown (2): accepted with M clear, or older than everything in the window (R194, R334).
KTLB gives status 0 (R325). -/
def Obligations.LoadValue : Prop :=
  ∀ (s : State) (id : Nat) (o : Op), s.op id = some o → o.held = false →
    (∀ g r, o.kind ∈ [.ld, .vld, .vgath] → o.segs = g :: r → s.clear o [g] true = true →
      let gives := fun (x : List Byte) => let d := patch o.data g.off x
        ∃ u, exec (.loadPerformed id) s = .next u ∧ u = { s with ts := u.ts, ops := u.ops } ∧ (∀ t, t ≠ o.t → u.tsGet t = s.tsGet t) ∧
          (r ≠ [] → u.op id = some { o with segs := r, got := g :: o.got, data := d } ∧ u.tsGet o.t = s.tsGet o.t) ∧
          (r = [] → opGone s u id ∧ u.tsGet o.t = { s.tsGet o.t with slq := (u.tsGet o.t).slq, vlq := (u.tsGet o.t).vlq } ∧
            (o.kind = .ld → o.q = 1 → o.width ∈ [1, 2, 4, 8] → d.length = o.width →
              filled id 0 (.ready (loaded o.signed o.width d)) (s.tsGet o.t).slq (u.tsGet o.t).slq) ∧
            (o.kind ≠ .ld → o.q = 2 → filled id 0 (.ready (vec512 d)) (s.tsGet o.t).vlq (u.tsGet o.t).vlq))
      let store := fun (w : Op) => w.kind.isStore = true ∧ w.parked = false ∧ ∃ x ∈ w.segs, x.overlaps g = true
      ((∀ w ∈ s.ops, ¬ store w) → s.damage g = none → s.barred g.bus = false → gives (s.rd g.bus g.len)) ∧
      ((∀ w ∈ s.ops, ¬ store w) → s.damage g = none → s.barred g.bus = true →
        ∃ u, exec (.loadPerformed id) s = .next u ∧ (r = [] → opGone s u id) ∧ u.fwDrops = s.fwDrops + 1 ∧ SameBytes s u) ∧
      (∀ w x, w ∈ s.older id → w.t = o.t → store w → w.segs = [x] → x.covers g = true → (∀ v ∈ s.ops, v ≠ w → ¬ store v) →
        gives (sliceB w.data (x.off + (g.bus - x.bus)) g.len))) ∧
    (o.kind = .pref → exec (.loadPerformed id) s = .next (s.dropOp id)) ∧
    (∀ own, o.kind = .markq → o.q = 1 → o.n = 0 → s.ownerOf o = some own → o.deps = [] → s.older id = [] →
      let gives := fun (st res : Word) => ∃ u, exec (.loadPerformed id) s = .next u ∧ opGone s u id ∧ SameBytes s u ∧
        ∀ post, (s.tsGet o.t).slq = .wait id 0 :: .wait id 1 :: post → (u.tsGet o.t).slq = .ready st :: .ready res :: post
      (∀ r, (s.window? own o.mark).find? (fun e => decide (e.1 = o.mark.setWidth 32)) = some (o.mark.setWidth 32, true, r) → gives 0 r) ∧
      (∀ r, (s.window? own o.mark).find? (fun e => decide (e.1 = o.mark.setWidth 32)) = some (o.mark.setWidth 32, false, r) → gives 2 0) ∧
      (s.window? own o.mark ≠ [] → (∀ e ∈ s.window? own o.mark, e.1 ≠ o.mark.setWidth 32 ∧ seqOlder (o.mark.setWidth 32) e.1 = true) → gives 2 0) ∧
      ((∀ e ∈ s.window? own o.mark, e.1 ≠ o.mark.setWidth 32 ∧ seqOlder (o.mark.setWidth 32) e.1 = false) → gives 1 0)) ∧
    (o.kind = .ktlb → o.q = 1 → (∀ d ∈ o.deps, s.pending d = false) → ∃ u, exec (.loadPerformed id) s = .next u ∧ opGone s u id ∧
      filled id 0 (.ready 0) (s.tsGet o.t).slq (u.tsGet o.t).slq ∧ SameBytes s u)

/-- The next piece of a store is taken (R154, R156): its bytes stand in memory, no other byte changes, and the store is done with its last piece.
One that a seam bundle's firewall drops is counted, piece by piece, and changes no byte (R212; the model's choice, log 43, PRESUMED). A SPILL's 64 bytes, and a FILL's register (R96). -/
def Obligations.StoreTaken : Prop :=
  ∀ (s : State) (id : Nat) (o : Op), s.op id = some o →
    (∀ g r, o.kind.isStore = true → o.parked = false → o.segs = g :: r → s.clear o [g] false = true → s.barred g.bus = true →
      ∃ u, exec (.storeTaken id) s = .next u ∧ u.fwDrops = s.fwDrops + 1 ∧ SameBytes s u ∧ (r = [] → opGone s u id)) ∧
    (∀ g r, o.kind.isStore = true → o.parked = false → o.segs = g :: r → s.clear o [g] false = true → s.barred g.bus = false → writable s g.bus g.len →
      ∃ u, exec (.storeTaken id) s = .next u ∧ holds u g.bus (sliceB o.data g.off g.len) ∧
        storedOnly s u g.bus g.len ∧
        (r = [] → opGone s u id) ∧ (r ≠ [] → u.op id = some { o with segs := r })) ∧
    (∀ g, o.kind = .spill → o.segs = [g] → s.clear o o.segs false = true → s.barred g.bus = false → writable s g.bus g.len →
      ∃ u, exec (.spillComplete id) s = .next u ∧ holds u g.bus (sliceB o.data g.off g.len) ∧ opGone s u id ∧
        storedOnly s u g.bus g.len) ∧
    (o.kind = .fill → s.clear o o.segs false = true → (∀ x ∈ s.older id, ¬(x.t = o.t ∧ x.kind = .fill ∧ x.n = o.n)) →
      ∃ u, exec (.fillDeliver id) s = .next u ∧ opGone s u id ∧ SameBytes s u ∧
        Assoc.getD (u.tsGet o.t).vreg o.n 0 = vec512 (o.segs.flatMap (fun g => s.rd g.bus g.len)) ∧
        (∀ n, n ≠ o.n → Assoc.getD (u.tsGet o.t).vreg n 0 = Assoc.getD (s.tsGet o.t).vreg n 0) ∧ ∀ t, t ≠ o.t → u.tsGet t = s.tsGet t)

/-- An atomic reads and writes in one step (R154, R262): memory takes the new value, the old one is pushed, and the owner remembers it
under the mark (R193). A replay under a remembered mark changes nothing and returns the remembered value. -/
def Obligations.AtomicValue : Prop :=
  ∀ (s : State) (id : Nat) (o : Op) (g : Seg) (n : Nat), s.op id = some o → o.kind = .amo → o.segs = [g] → o.width ∈ [4, 8] → n = 8 * o.width →
    o.held = false → o.sent = false → o.orphan = false →
    let own := memOwner g.bus
    ((o.replay = true → s.remembered own o.mark = none ∧ s.markOld own o.mark = false) → s.clear o o.segs false = true → s.damage g = none →
      s.barred g.bus = false → s.freezingOn o.t.core o.ctx = false →
      writable s g.bus o.width →
      let old := BitVec.ofNat n (leNat (s.rd g.bus o.width))
      let push := if o.n = 1 then old.setWidth 64 else old.signExtend 64
      ∃ u, exec (.amoPerform id) s = .next u ∧ opGone s u id ∧ u.remembered own o.mark = some push ∧
        (o.q = 1 → filled id 0 (.ready push) (s.tsGet o.t).slq (u.tsGet o.t).slq) ∧
        (∀ v, amoSpec n o.n old (o.operand.setWidth n) (o.cmp.setWidth n) = some v → holds u g.bus (leBytes o.width v.toNat)) ∧
        (amoSpec n o.n old (o.operand.setWidth n) (o.cmp.setWidth n) = none → SameBytes s u) ∧
        storedOnly s u g.bus o.width) ∧
    (∀ r, s.remembered own o.mark = some r → (∀ d ∈ o.deps, s.pending d = false) → ∃ u, exec (.markedReplayArrival id) s = .next u ∧ opGone s u id ∧ SameBytes s u ∧
      (o.q = 1 → filled id 0 (.ready r) (s.tsGet o.t).slq (u.tsGet o.t).slq))

/-- The page of a held or parked access (R81, R167, R187). Resident, a held access goes on, and a parked store is performed, behind older parked stores
that share a page with it and behind what program order puts first. Gone, a load's entry becomes a failure at its first byte, a parked store keeps
its failure for PARKED, and a block operation or an MST, or any replay, kills its context: the report names XLATE for a block operation, the cause for an
MST (R340), and the cause with REPLAY for a replay (R187). That a page which has lost the right counts as gone is the model's choice (log 44). -/
def Obligations.HeldAccessResult : Prop :=
  ∀ (s : State) (id : Nat) (o : Op), s.op id = some o → (o.held = true ∨ o.parked = true) → o.dead = none → o.orphan = false →
    let first := ∀ x ∈ s.older id, x.t = o.t → x.parked = true → ∀ p ∈ x.pages, p ∉ o.pages
    (∀ o', o.parked = false → s.recheckOp o = .ok (o', false) →
      ∃ u, exec (.heldAccessResume id) s = .next u ∧ u.op id = some { o' with held := false } ∧ o'.data = o.data ∧ u = { s with ops := u.ops }) ∧
    (∀ o' g, o.parked = true → first → s.recheckOp o = .ok (o', false) → s.clear o' o'.segs false = true → o'.segs = [g] → s.barred g.bus = false →
      writable s g.bus g.len → ∃ u, exec (.heldAccessResume id) s = .next u ∧ opGone s u id ∧ holds u g.bus (sliceB o.data g.off g.len) ∧
        storedOnly s u g.bus g.len) ∧
    (o.parked = true → ¬ first → exec (.heldAccessResume id) s = .next s) ∧
    (∀ o', s.recheckOp o = .ok (o', true) → exec (.heldAccessResume id) s = .next s ∧ exec (.heldAccessFail id) s = .next s) ∧
    (∀ c a, s.recheckOp o = .error (c, a) →
      (o.parked = true → o.replay = false → ∃ u, exec (.heldAccessFail id) s = .next u ∧ u.op id = some { o with dead := some (c, a) } ∧ u = { s with ops := u.ops }) ∧
      (∀ g r, o.parked = false → o.replay = false → o.kind = .ld → o.q = 1 → o.segs = g :: r →
        ∃ u, exec (.heldAccessFail id) s = .next u ∧ opGone s u id ∧ SameBytes s u ∧
          filled id 0 (.bad .xlate g.va) (s.tsGet o.t).slq (u.tsGet o.t).slq) ∧
      ((o.replay = true ∨ (o.parked = false ∧ (o.kind = .brd ∨ o.kind = .bwr ∨ o.kind = .mst))) →
        ∃ u d, exec (.heldAccessFail id) s = .next u ∧ (∀ l ∈ u.launches, l.ctx ≠ o.ctx) ∧ .kill d ∈ u.reports ∧
          sliceB d 0 8 = leBytes 8 (if o.replay then c.code + 256 else if o.kind = .mst then c.code else 5)))

/-- The block operations, MST and copies end (R101, R108, R145, R151, R283, R288): the destination takes the source's bytes, and the completion
message enters the issuer's basket. That a block operation reads its source at its completion, and that one event moves a whole chunk of a copy, are the
model's choices (log 13, DESIGN CHOICE). -/
def Obligations.TransferCompletes : Prop :=
  ∀ (s : State) (id : Nat) (o : Op), s.op id = some o → o.t.ts < 4 → o.orphan = false → roomy s o.t.core o.ctx o.lid →
    (∀ d, o.kind = .brd ∨ o.kind = .bwr → o.held = false → o.sent = false → s.clear o (o.segs ++ o.dst) false = true → s.blockDamage o = none →
      o.dst = [d] → (∀ g ∈ d :: o.segs, s.barred g.bus = false) →
      (∀ g ∈ o.segs, g.overlaps d = false) → (o.segs.flatMap (fun g => s.rd g.bus g.len)).length = d.len →
      ∃ u m, exec (if o.kind = .brd then .brdComplete id else .bwrComplete id) s = .next u ∧ opGone s u id ∧
        (plain u d.bus d.len → unowned s d.bus d.len → holds u d.bus (o.segs.flatMap (fun g => s.rd g.bus g.len))) ∧
        storedOnly s u d.bus d.len ∧
        entered s u o.t.core m ∧ m.w0 = deliverW0 o.hdr ∧
        m.w1 = header1 o.t.core.idx o.t.ts (o.seq.toNat % 65536) (o.lid.getD 0) (if o.kind = .brd then 1 else 4) (if o.kind = .brd then 4 else 5) false o.t.core.kernel ∧
        m.pay = vec512 (leBytes 8 o.addr.toNat ++ leBytes 8 o.operand.toNat ++ leBytes 4 o.n ++ List.replicate 28 0)) ∧
    (∀ o' g, o.kind = .mst → o.held = false → (∀ d ∈ o.deps, s.pending d = false) → s.recheckOp o = .ok (o', false) → o'.segs = [g] →
      s.barred g.bus = false → writable s g.bus g.len →
      ∃ u m, exec (.mstComplete id) s = .next u ∧ opGone s u id ∧ holds u g.bus (sliceB o.data g.off g.len) ∧
        storedOnly s u g.bus g.len ∧
        entered s u o.t.core m ∧ m.w0 = deliverW0 o.hdr ∧
        m.w1 = header1 o.t.core.idx o.t.ts (o.seq.toNat % 65536) (o.lid.getD 0) 1 8 false o.t.core.kernel) ∧
    (∀ level e, s.copyHead (s.copyQ o.ctx level) = some (e, o) → s.copyTurnOk (s.copyQ o.ctx level) = true →
      (dRowLen e.desc * dRows e.desc ≤ e.prog → ∃ u, exec (.copyEngineChunk o.ctx level) s = .next u ∧ opGone s u id ∧ entered s u o.t.core (copyMsg o e 0) ∧
        (u.copyQ o.ctx level).ents = (s.copyQ o.ctx level).ents.drop 1 ∧ (u.copyQ o.ctx level).head = (s.copyQ o.ctx level).head + 1) ∧
      (∀ a b k, k = min 4096 (dRowLen e.desc - e.prog % dRowLen e.desc) → e.prog + k < dRowLen e.desc * dRows e.desc → s.copyOverlaps o.view e.desc = false →
        s.eccMem = [] → s.softMem = [] → a.nr = false → b.nr = false → a.len = k → b.len = k →
        (∀ i, i < k → s.barred (a.bus + i) = false ∧ s.barred (b.bus + i) = false) →
        s.check o.view (dSrc e.desc + BitVec.ofNat 64 (e.prog / dRowLen e.desc) * dSstr e.desc + BitVec.ofNat 64 (e.prog % dRowLen e.desc)) k rRD = .ok [a] →
        s.check o.view (dDst e.desc + BitVec.ofNat 64 (e.prog / dRowLen e.desc) * dDstr e.desc + BitVec.ofNat 64 (e.prog % dRowLen e.desc)) k rWR = .ok [b] →
        ∃ u, exec (.copyEngineChunk o.ctx level) s = .next u ∧
          (u.copyQ o.ctx level).ents = { e with prog := e.prog + k } :: (s.copyQ o.ctx level).ents.drop 1 ∧
          (writable s b.bus k → (∀ at_, s.copyQBase o.ctx level = some at_ → b.bus + k ≤ at_ ∨ at_ + 0x9000 ≤ b.bus) → holds u b.bus (s.rd a.bus k))))

/-- A walk's leaf is kept for its page (R80), the watchdog's expiry is the trap WDOG (R66, R176), a soft error marks what it strikes (R176), and a word of
no instruction is ILLOP in both codes (R229, R32). -/
def Obligations.WalkWatchdogErrorResult : Prop :=
  (∀ (s : State) (b : Nat) (ctx : Half) (va : Word) (l : Leaf), va.toNat < 2 ^ 48 → s.lookup ctx va.toNat = some l → (s.bundle b).tc.length < 2048 →
    ∃ u, exec (.translationWalkComplete b ctx va) s = .next u ∧
      (∀ w, w ∈ (u.bundle b).tc ↔ w = { ctx := ctx, page := va.toNat / 65536, phys := l.phys, rights := l.rights, nr := l.nr, aff := l.aff, large := l.large } ∨
        (w ∈ (s.bundle b).tc ∧ ¬(w.ctx = ctx ∧ w.page = va.toNat / 65536))) ∧ u = { s with bundles := u.bundles } ∧ ∀ m, m ≠ b → u.bundle m = s.bundle m) ∧
  (∀ (s : State) (t : TsId) (a : Activation), (s.tsGet t).act = some a → (s.tsGet t).wbudget = 0 → exec (.watchdogExpiry t) s = .next (trapped s t .wdog 0)) ∧
  (∀ (s : State) (t : TsId) (n a : Nat),
    (∃ u, exec (.softError (.sreg t n)) s = .next u ∧ u.tsGet t = { s.tsGet t with softS := n :: (s.tsGet t).softS } ∧ u = { s with ts := u.ts }) ∧
    (∃ u, exec (.softError (.vreg t n)) s = .next u ∧ u.tsGet t = { s.tsGet t with softV := n :: (s.tsGet t).softV } ∧ u = { s with ts := u.ts }) ∧
    (∃ u, exec (.softError (.scratch a)) s = .next u ∧ SameBytes s u ∧ ∀ g : Seg, g.bus ≤ a → a < g.bus + g.len → g.bus + g.len ≤ scratchBase ∨ scratchBase ≤ g.bus →
      s.barred g.bus = false → u.damage g ≠ none)) ∧
  (∀ (s : State) (t : TsId) (act : Activation) (w : Word32), Turn s t act → exec (.reservedEncoding w) s = .next (trapped s t .illop 0)) ∧
  ∀ (s : State) (p : Prog) (w : Word), ProgTurn s p → exec (.livikIllopWord w) s = agentFault s p 1

/-- The press runs its commands: PressCommandResult, MmaRetireResult of Claims, together. -/
def Obligations.PressResult : Prop := Claims.PressCommandResult ∧ Claims.MmaRetireResult

/-- Records, updates and samples (R126, R127, R129, R130, R240, R241): a record that arrives is new, or adds its gain to the waiting one, or to P of the running
one; an update writes gain or P with saturation and its result is remembered; an index without a record answers all ones; GGET tells gain,
running and found; a sample publishes RESID and broadcasts the largest ready gain. That no sample counts against TOL before the root activation has begun
is the model's choice (log 44, DESIGN CHOICE). -/
def Obligations.PileRecordResult : Prop :=
  ∀ (s : State),
    (∀ id lid home r grp since, s.pnet.find? (fun e => decide (e.1 = id)) = some (id, .spawn lid home r [] grp since) →
      s.pnet.filter (fun e => match e.2 with | .spawn _ h _ _ g _ => decide (h = home) && decide (g = grp) | _ => false) = [(id, .spawn lid home r [] grp since)] →
      (s.launch lid).isSome = true → s.frozenPile home lid = none →
      let p := s.pileOf home lid
      let comes := fun (q : List PileRec) => ∃ u, exec (.spawnArrive id) s = .next u ∧ (u.pileOf home lid).recs = q ∧
        (u.pileOf home lid).count = p.count - 1 ∧ (u.pileOf home lid).stain = true ∧ ∀ e ∈ u.pnet, e.1 ≠ id
      (p.find r.index = none → p.recs.length < 8192 → comes (p.recs ++ [r])) ∧
      (∀ x, p.find r.index = some x → x.running = false →
        comes (p.recs.map (fun y => if y.index = r.index then { y with gain := min (y.gain + r.gain) 0xFFFFFFFF } else y))) ∧
      (∀ x, p.find r.index = some x → x.running = true →
        comes (p.recs.map (fun y => if y.index = r.index then { y with p := min (y.p + r.gain) 0xFFFFFFFF, touched := true } else y)))) ∧
    (∀ id o l, s.op id = some o → o.lid = some l.lid → s.launch l.lid = some l → s.older id = [] → o.deps = [] →
      let i : Word32 := o.addr.setWidth 32
      let home := l.home i
      let own := pileOwner home
      let p := s.pileOf home l.lid
      let v := fun (old : Nat) => match o.n with
        | 0 => bits o.operand 31 0
        | 1 => min ((old : Int) + o.operand.toInt).toNat 0xFFFFFFFF
        | _ => max old (bits o.operand 31 0)
      s.frozenPile home l.lid = none →
      (o.kind = .gain → o.sent = false → s.remembered own o.mark = none → (o.replay = true → s.markOld own o.mark = false) → s.poolOk o.ctx own o.mark = true →
        s.freezingOn o.t.core o.ctx = false →
        (∀ x, p.find i = some x → x.running = false → ∃ u, exec (.gainUpdateApply id) s = .next u ∧ opGone s u id ∧
          (u.pileOf home l.lid).recs = p.recs.map (fun y => if y.index = i then { y with gain := v x.gain } else y) ∧
          u.remembered own o.mark = some (BitVec.ofNat 64 (v x.gain))) ∧
        (∀ x, p.find i = some x → x.running = true → ∃ u, exec (.gainUpdateApply id) s = .next u ∧ opGone s u id ∧
          (u.pileOf home l.lid).recs = p.recs.map (fun y => if y.index = i then { y with p := v x.p, touched := true } else y) ∧
          u.remembered own o.mark = some (BitVec.ofNat 64 (v x.p))) ∧
        (p.find i = none → ∃ u, exec (.gainUpdateApply id) s = .next u ∧ opGone s u id ∧ (u.pileOf home l.lid).recs = p.recs ∧
          u.remembered own o.mark = some (BitVec.allOnes 64))) ∧
      (o.kind = .gget → o.q = 1 →
        let answers := fun (w : Word) => ∃ u, exec (.gainUpdateApply id) s = .next u ∧ opGone s u id ∧
          filled id 0 (.ready w) (s.tsGet o.t).slq (u.tsGet o.t).slq ∧ u.bundles = s.bundles
        (p.find i = none → answers 0) ∧
        ∀ x, p.find i = some x → answers (at64 x.gain 0 ||| at64 (if x.running then 1 else 0) 32 ||| at64 1 33))) ∧
    (∀ lid l, s.launch lid = some l → l.state = .running → l.pile = true → ∃ u l', exec (.pileSample lid) s = .next u ∧ u.launch lid = some l' ∧
      l'.resid = s.exactResid l ∧ (l'.conv = true ↔ l.conv = true ∨ (l.token.started = true ∧ (s.exactResid l).toNat < l.tol.toNat)) ∧
      ∀ b, l.bundles = [b] → s.frozenPile b lid = none → (u.pileOf b lid).coming = (s.pileOf b lid).coming ++ [s.sampleTop l] ∧ (u.pileOf b lid).recs = (s.pileOf b lid).recs) ∧
    ∀ lid b p x r, Assoc.get (s.bundle b).piles lid = some p → p.coming = x :: r → ∃ u, exec (.pileBroadcastReceive lid b) s = .next u ∧
      u.pileOf b lid = { p with bcast := x, coming := r }

/-- Dispatch, steals and retirement (R127, R133): a free thread set takes the engine's top record, which runs with P clear, and its footprint is fetched; a victim
answers with its top record; the fetched footprint starts the activation in its run, or under LEND its record goes back (R121); a retired record goes,
its writable footprint written back, but for one that was touched, which waits again with P as its gain. -/
def Obligations.PileDispatchResult : Prop :=
  ∀ (s : State) (t : TsId) (l : Launch),
    let b := bundleOf t.core
    let p := s.pileOf b l.lid
    let taken := fun (q : Pile) (r : PileRec) => q.recs.map (fun y => if y.index = r.index then { y with running := true, p := 0, touched := false } else y)
    let run := fun (r : PileRec) => ({ r with running := true, p := 0, touched := false } : PileRec)
    (∀ r, s.launches = [l] → l.pile = true → s.dispatches l t.core = true → s.idleTs t = true → s.coreAbsent t.core = false → (s.core t.core).basket = [] →
      p.top = some r → (p.bcast.2 = none ∨ p.bcast.1 ≤ r.gain) →
      ∃ u, exec (.pileOffer t) s = .next u ∧ (u.pileOf b l.lid).recs = taken p r ∧ u.pnet = s.pnet ++ [(s.nextId, .fetch l.lid t (run r) b)]) ∧
    (∀ id home thief own r, s.pnet.find? (fun e => decide (e.1 = id)) = some (id, .stealReq l.lid home thief t own) → s.launch l.lid = some l →
      (s.pileOf home l.lid).top = some r → s.dispatches l (cc (8 * home)) = true →
      ∃ u e, exec (.pileStealRequest id) s = .next u ∧ (u.pileOf home l.lid).recs = taken (s.pileOf home l.lid) r ∧ e ∈ u.pnet ∧
        e.2 = .stealReply l.lid thief t (some r) home own) ∧
    (∀ id home thief own, s.pnet.find? (fun e => decide (e.1 = id)) = some (id, .stealReq l.lid home thief t own) → s.launch l.lid = some l →
      (s.pileOf home l.lid).top = none → ∃ u e, exec (.pileStealRequest id) s = .next u ∧ u.bundles = s.bundles ∧ e ∈ u.pnet ∧
        e.2 = .stealReply l.lid thief t none home own) ∧
    (∀ id thief r home own, s.pnet.find? (fun e => decide (e.1 = id)) = some (id, .stealReply l.lid thief t (some r) home own) → s.launch l.lid = some l →
      l.lend = false → s.frozenFor t.core l.ctx = false → ∃ u e, exec (.pileStealReply id) s = .next u ∧ (u.pileOf thief l.lid).stealOut = false ∧ e ∈ u.pnet ∧
        e.2 = .fetch l.lid t (run r) home) ∧
    (∀ id r home a, s.pnet.find? (fun e => decide (e.1 = id)) = some (id, .fetch l.lid t r home) → s.launch l.lid = some l →
      freeRun (s.areaBase l b) (s.areaBase l b + l.area) r.fplen (s.pinned t.core) = some a → l.lend = false → s.frozenFor t.core l.ctx = false →
      (∀ bs, s.check { core := t.core, ctx := l.ctx, lid := some l.lid } r.fpbase r.fplen rRD = .ok bs → anyNr bs = false →
        ∃ u act, exec (.footprintFetchComplete id) s = .next u ∧ (u.tsGet t).act = some act ∧ act.origin = .pile r home a ∧ act.fetchTrap = none ∧
          (u.tsGet t).sreg = [(1, act.msg.w0), (2, act.msg.w1)] ∧ act.msg.w0 = at64 (bits r.hdr 51 0) 0 ∧ (u.tsGet t).vreg = [(0, pilePay t.core r a)]) ∧
      (∀ c x, s.check { core := t.core, ctx := l.ctx, lid := some l.lid } r.fpbase r.fplen rRD = .error (c, x) →
        ∃ u act, exec (.footprintFetchComplete id) s = .next u ∧ (u.tsGet t).act = some act ∧ act.fetchTrap = some (c, x))) ∧
    (∀ id r home, s.pnet.find? (fun e => decide (e.1 = id)) = some (id, .fetch l.lid t r home) → s.launch l.lid = some l → l.lend = true →
      ∃ u, exec (.footprintFetchComplete id) s = .next u ∧ u.ts = s.ts ∧ ∃ e ∈ u.pnet, e.2 = .retire l.lid home { r with fplen := 0 } true t 0) ∧
    ∀ id home r a, s.pnet.find? (fun e => decide (e.1 = id)) = some (id, .retire l.lid home r false t a) → s.launch l.lid = some l →
      s.ops = [] → s.frozenPile home l.lid = none → s.frozenImg t.core l.ctx = none →
      let q := s.pileOf home l.lid
      let leaves := fun (u : State) => (∀ e ∈ u.pnet, e.1 ≠ id) ∧
        ∀ x, q.find r.index = some x →
          ((x.touched = false ∨ x.p = 0) → (u.pileOf home l.lid).recs = q.recs.filter (fun y => decide (y.index ≠ r.index))) ∧
          (x.touched = true → 0 < x.p → (u.pileOf home l.lid).recs =
            q.recs.map (fun y => if y.index = r.index then { y with running := false, gain := y.p, p := 0, touched := false, s2 := r.s2 } else y))
      (r.hdr.getLsbD 52 = false → ∃ u, exec (.pileRetire id) s = .next u ∧ SameBytes s u ∧ leaves u) ∧
      ∀ k, r.hdr.getLsbD 52 = true → s.check { core := t.core, ctx := l.ctx, lid := some l.lid } r.fpbase r.fplen rWR = .ok [k] → k.nr = false → k.off = 0 →
        k.len = r.fplen → writable s k.bus k.len → ∃ u, exec (.pileRetire id) s = .next u ∧ leaves u ∧
          holds u k.bus (s.rd (scratchBus t.core a) r.fplen) ∧ storedOnly s u k.bus k.len

/-- Freeze and thaw: FreezeCaptureResult, FreezeCompleteResult, ThawResult, OldReplayKills of Claims, together. -/
def Obligations.FreezeThawResult : Prop := Claims.FreezeCaptureResult ∧ Claims.FreezeCompleteResult ∧ Claims.ThawResult ∧ Claims.OldReplayKills

/-- Ends of waits (R63, R64, R271, R320): an AWAIT whose time has passed with no entry retires with all ones in register B; an INVOKE whose launch
has completed retires with the status word. A token mark (R37) is applied once: line by line, and FILL rises when every line of the position has come; a stale or repeated one changes nothing. -/
def Obligations.WaitEndResult : Prop :=
  (∀ (s : State) (p : Prog), s.prog p.slot = some p → p.state = .awaiting →
    (∀ a b t0 n, p.await = .mbox a b t0 n → n ≠ 0 → t0 + n ≤ s.clock → (∀ e ∈ p.mbox, e.cls ≠ a.cls) →
      ∃ u q, exec (.awaitTimeout p.slot) s = .next u ∧ u.prog p.slot = some q ∧ q.state = .ready ∧ q.pc = p.pc + 1 ∧ q.retn = p.retn + 1 ∧
        q.a = p.a.set b.toNat (BitVec.allOnes 64) ∧ q.c = p.c ∧ q.t = p.t ∧ q.await = .none ∧ ∀ n, n ≠ p.slot → u.prog n = s.prog n) ∧
    (∀ a l w, p.await = .launch a none l (some w) →
      ∃ u q, exec (.invokeComplete p.slot) s = .next u ∧ u.prog p.slot = some q ∧ q.state = .ready ∧ q.pc = p.pc + 1 ∧ q.retn = p.retn + 1 ∧
        q.a = p.a.set a.toNat w ∧ q.c = p.c ∧ q.t = p.t ∧ q.await = .none ∧ ∀ n, n ≠ p.slot → u.prog n = s.prog n)) ∧
    ∀ (s : State) (cid pos : Nat) (line : Nat) (data : List Byte) (token : Word32) (pti : Nat), cid < 2 ^ 18 → pos < 2 ^ 20 → (s.page pti).mgen < 2 ^ 16 →
      (s.lc cid).list[pos / 16]? = some pti → (s.page pti).used = true → (s.page pti).res = 0 →
      let e := s.page pti
      let a := e.frame + 64 * (s.kvl e.img * (pos % 16) + line)
      let got := e.lines ||| 2 ^ line
      (s.kvl e.img ≤ line → exec (.tokenMarkWrite (tokenMark cid pos e.mgen) line data token) s = .next s) ∧
      (pos % 16 < e.fill → exec (.tokenMarkWrite (tokenMark cid pos e.mgen) line data token) s = .next s) ∧
      (∀ g, g < 2 ^ 16 → g ≠ e.mgen → exec (.tokenMarkWrite (tokenMark cid pos g) line data token) s = .next s) ∧
      (pos % 16 = e.fill → data.length = 64 → line < s.kvl e.img → got % 2 ^ s.kvl e.img ≠ 2 ^ s.kvl e.img - 1 →
        ∃ u, exec (.tokenMarkWrite (tokenMark cid pos e.mgen) line data token) s = .next u ∧ u.page pti = { e with lines := got } ∧
          ((a + 64 ≤ s.ptBase + 16 * pti ∨ s.ptBase + 16 * pti + 16 ≤ a) → inRam s a 64 → holds u a data)) ∧
      (pos % 16 = e.fill → line < s.kvl e.img → got % 2 ^ s.kvl e.img = 2 ^ s.kvl e.img - 1 →
        ∃ u, exec (.tokenMarkWrite (tokenMark cid pos e.mgen) line data token) s = .next u ∧ u.page pti = { e with fill := e.fill + 1, lines := 0 })

/-- Step launches (R55 to R58, R243, R244): the first strict program, with nothing missing and room for it, is placed alone; a batching window that closes forms
at most one step launch, of at most 4,096 members, and where one program waits on the image, with nothing missing and room for it, the step launch of that
program; a step launch whose status is an error changes no context; one whose step stood on an empty context
gives it its first token. The sequencer's rebuild leaves no program BATCHED (R68). -/
def Obligations.StepLaunchResult : Prop :=
  ∀ (s : State),
    (∀ p c m, s.strictFirst = some p → s.prog p.slot = some p → p.stepCid = some c → (s.lc c).detach = none → s.image (s.lc c).img = some m → p.resume = false → p.appending = false →
      s.missing p.slot c 1 1 = [] → (s.need c 1 1).detach = false → areaHead + memberBytes m 1 true ≤ (s.areaFree m).2 →
      ∃ u x, exec (.strictStepPlace p.slot) s = .next u ∧ u.steps = s.steps ++ [x] ∧ x.id = s.nextId + 1 ∧ x.img = m.id ∧ x.taken = false ∧ x.status = none ∧
        x.level = p.level ∧ ∃ y, x.members = [y] ∧ y.slot = p.slot ∧ y.kin = [] ∧ y.n = 1 ∧ ∃ q, u.prog p.slot = some q ∧ q.state = .batched) ∧
    (∀ img m, s.image img = some m → (s.mangle img).window = true → s.strictFirst = none →
      (s.steps.filter (fun x => decide (x.img = img) && decide (3 ≤ x.level))).length < 8 → (s.mangle img).opened + 1000 * s.window ≤ s.clock →
      (∃ u, exec (.batchingWindowClose img) s = .next u ∧ (u.steps = s.steps ∨ ∃ x, u.steps = s.steps ++ [x] ∧ x.img = m.id ∧ x.members.length ≤ 4096 ∧ x.taken = false)) ∧
      ∀ p c, s.progs.filter (fun q => q.waiting && decide (s.stepImg q = some img)) = [p] → s.prog p.slot = some p → 3 ≤ p.level → p.level ≤ 11 →
        p.stepCid = some c → p.resume = false → p.appending = false → (s.lc c).detach = none → s.missing p.slot c 1 1 = [] →
        (s.need c 1 1).detach = false → areaHead + memberBytes m 1 true ≤ (s.areaFree m).2 → 0 < s.qb → 3 ≤ (s.mangle img).start → (s.mangle img).start ≤ 11 →
        ∃ u x, exec (.batchingWindowClose img) s = .next u ∧ u.steps = s.steps ++ [x] ∧ x.id = s.nextId + 1 ∧ x.img = m.id ∧ x.taken = false ∧
          x.status = none ∧ x.level = p.level ∧ ∃ y, x.members = [y] ∧ y.slot = p.slot ∧ y.cid = c ∧ y.kin = [] ∧ y.n = 1 ∧
          ∃ q, u.prog p.slot = some q ∧ q.state = .batched) ∧
    (∀ id l w m, s.steps.find? (fun x => decide (x.id = id)) = some l → l.status = some w → s.image l.img = some m →
      (∀ x p c, bits w 15 0 ≠ 0 → l.members = [x] → x.kin = [] → s.prog x.slot = some p → p.doomed = false → p.stepCid = some c → (s.lc c).len < Config.maxLength →
          (∀ i ∈ (s.lc c).list, s.lostPage i = false) →
        ∃ u q, exec (.stepLaunchComplete id) s = .next u ∧ u.steps = s.steps.filter (fun x => decide (x.id ≠ id)) ∧ u.lctx = s.lctx ∧
          u.prog x.slot = some q ∧ (q.state = .ready ∨ q.state = .parked) ∧ q.pc = p.pc ∧ q.p0 = p.p0 ∧ q.p1 = p.p1) ∧
      (∀ x p a b tok, bits w 15 0 = 0 → l.members = [x] → x.kin = [] → x.n = 1 → s.prog x.slot = some p → p.long = some (.append a b) → p.doomed = false →
        p.rest = [tok] → bits (p.gc a) 17 0 = x.cid → (s.lc x.cid).len = 0 → p.k < 4096 →
        ∃ u, exec (.stepLaunchComplete id) s = .next u ∧ u.steps = s.steps.filter (fun x => decide (x.id ≠ id)) ∧ (u.lc x.cid).len = 1 ∧ (u.lc x.cid).tail = tok ∧
          ∃ q, u.prog x.slot = some q ∧ q.pc = p.pc + 1 ∧ q.retn = p.retn + 1 ∧ q.long = none)) ∧
    ∃ u, exec .sequencerRebuild s = .next u ∧ (∀ p ∈ u.progs, p.state ≠ .batched) ∧ ∀ x ∈ u.steps, x.members = []

/-- Context pages move and go (R52, R53, R72, R74, R76, R77, R245): a frame is reserved for the program that the plan names next; the oldest foldable page
begins to fold while no frame is free, or none of a size that is needed; the oldest shelvable one is shelved while host storage is full for the page
that is to be folded; the page that the plan names next is brought in; a finished fold leaves the page in host memory with its bytes, a finished unfold in its frame; a page that
nothing names is released and its MGEN rises; an NVMe read is tried again once, and then the page's bytes are lost. -/
def Obligations.PageMoveResult : Prop :=
  ∀ (s : State) (i : Nat),
    let e := s.page i
    let units := s.pageUnits e.img
    (∀ slot frame n, s.nextFrame = some (slot, n) → 0 < n → s.freeRun frame n = true →
      ∃ u, exec (.residencyPlan (.reserve slot frame)) s = .next u ∧ (slot, frame, n) ∈ u.reserved ∧ frame ∉ u.freeFrames) ∧
    (∀ h, (s.freeFrames = [] ∨ (∃ slot n, s.nextFrame = some (slot, n) ∧ s.frameFree n = false) ∨
        (∃ k, s.nextPage = some k ∧ s.frameFree (s.pageUnits (s.page k).img) = false)) → s.foldable i = true → s.oldest s.foldable i = true → (∀ k, k < units → h + k ∉ s.usedHost) → h + units ≤ s.hostSlots →
      ∃ u, exec (.residencyPlan (.fold i h)) s = .next u ∧ u.page i = { e with res := 3, move := 0, target := h } ∧ ∀ k, k < units → h + k ∈ u.usedHost) ∧
    (∀ k, s.slotsFull s.foldUnits = true → s.shelvable i = true → s.oldest s.shelvable i = true → k ∉ s.usedBlocks → k < 2 ^ 40 →
      ∃ u, exec (.residencyPlan (.shelve i k)) s = .next u ∧ u.page i = { e with res := 3, move := 1, target := k } ∧ k ∈ u.usedBlocks) ∧
    (∀ f, s.nextPage = some i → s.freeRun f units = true →
      ∃ u, exec (.residencyPlan (.unfold i f)) s = .next u ∧ u.page i = { e with res := 3, move := e.res + 1, target := f, retried := false }) ∧
    (e.used = true → e.res = 3 → 0 < e.refc →
      (e.move = 0 → ∃ u, exec (.pageFoldComplete i) s = .next u ∧ u.page i = { e with res := 1, loc := e.target } ∧
        ∀ a, units = 1 → hostSlotAddr s.hostRegions e.target = some a → u.hostRd a 65536 = s.rd (e.loc * 65536) 65536) ∧
      (e.move = 1 → ∃ u, exec (.pageShelveComplete i) s = .next u ∧ u.page i = { e with res := 2, loc := e.target } ∧
        Assoc.get u.shelf e.target = some (s.hostBytes e.loc units)) ∧
      (e.move = 2 → ∃ u, exec (.pageUnfoldComplete i) s = .next u ∧ u.page i = { e with res := 0, loc := e.target } ∧
        (units = 1 → inRam s (e.target * 65536) 65536 → ((e.target + 1) * 65536 ≤ s.ptBase + 16 * i ∨ s.ptBase + 16 * i + 16 ≤ e.target * 65536) →
          u.rd (e.target * 65536) 65536 = s.hostBytes e.loc 1)) ∧
      (e.move = 3 → e.retried = false → ∃ u, exec (.nvmeReadFail i) s = .next u ∧ u.page i = { e with retried := true }) ∧
      (e.move = 3 → e.retried = true → s.progs = [] → ∃ u, exec (.nvmeReadFail i) s = .next u ∧ (u.page i).res = 2 ∧ .lostPage i ∈ u.reports)) ∧
    (e.used = true → e.refc = 0 → e.hold = 0 → e.infl = 0 → e.res = 0 →
      ∃ u, exec (.pageRelease i) s = .next u ∧ (u.page i).used = false ∧ (u.page i).mgen = (e.mgen + 1) % 65536 ∧
        (s.progs = [] → s.noChannel (e.loc * 65536) = false → u.freeFrames = s.freeFrames ++ (List.range units).map (fun k => e.loc + k))) ∧
    (∀ c d, (s.lc c).detach = some d → d.word < (s.lc c).list.length → (s.lc c).pin = false → s.allocPti.isSome = true →
      ∃ u new, exec (.detachCopyComplete c) s = .next u ∧ (u.lc c).detach = none ∧ (u.lc c).list = (s.lc c).list.set d.word new ∧ (u.page new).loc = d.frame ∧
        (u.page new).refc = 1 ∧ (u.page new).fill = d.f)

/-- Ethernet and NVMe (R204 to R207): every frame of a port takes a number; a frame that no rule matches goes to Edoiny; the first rule that matches deposits it,
in a basket with its descriptor and bytes in the rule's ring, or in a program's mailbox, or drops it, or keeps it while its deposits wait; a lease
forwards what it permits and refuses the rest with the status of R205. The NVMe opcodes and the zero-based count are the model's (log 33, PRESUMED), and
so is that every frame of a port takes a number (log 40, DEDUCED). -/
def Obligations.AttachmentResult : Prop :=
  (∀ (s : State) (port r : Nat) (frame : List Byte), port < Config.ports →
    let b := (s.rule port r).bits
    let c := cc (ruleF b 192 14)
    let hits := r < 128 ∧ ruleHits b frame = true ∧ (∀ q, q < r → ruleHits (s.rule port q).bits frame = false) ∧ (s.rule port r).held = []
    let a := ruleF b 256 64 + 64 * ruleF b 328 8 * ((s.port port).seq % ruleF b 320 8)
    let goes := fun (u : State) => exec (.ethernetFrameIngress port frame) s = .next u ∧ (u.port port).seq = ((s.port port).seq + 1) % 2 ^ 64
    ((∀ q, q < 128 → ruleHits (s.rule port q).bits frame = false) → ∃ u, goes u ∧ u.reports = .frame frame :: s.reports) ∧
    (∀ l, hits → b.getLsbD 1 = false → s.depositTarget c (BitVec.ofNat 16 (ruleF b 206 16)) = some l → s.depositWaits (s.rule port r) c l = false →
      ∃ u f, goes u ∧ u.net = s.net ++ [f] ∧ f.dst = c ∧ f.ctx = l.ctx ∧ f.lid = some l.lid ∧ f.msg.w0 = deliverW0 (b.extractLsb' 128 64) ∧
        f.msg.w1 = header1 (0x3FF0 + port) 0 ((s.port port).seq % 65536) l.lid 5 10 false false ∧ f.msg.pay = vec512 (sliceB frame 0 48) ∧
        (scratchBus c 0 ≤ a → a + 64 * ruleF b 328 8 ≤ scratchBus c (s.scratchSize c) → plain s a (64 * ruleF b 328 8) →
          holds u a (s.stamp0.bytes ++ leBytes 8 (s.port port).seq ++ leBytes 4 frame.length) ∧
          holds u (a + 64) ((frame.drop 48).take (64 * (ruleF b 328 8 - 1))))) ∧
    (hits → b.getLsbD 1 = false → s.depositTarget c (BitVec.ofNat 16 (ruleF b 206 16)) = none →
      ∃ u, goes u ∧ (u.rule port r).bits.extractLsb' 336 64 = b.extractLsb' 336 64 + 1 ∧ u.net = s.net) ∧
    (∀ l, hits → b.getLsbD 1 = false → s.depositTarget c (BitVec.ofNat 16 (ruleF b 206 16)) = some l → s.depositWaits (s.rule port r) c l = true →
      (s.port port).used + frame.length ≤ 2 ^ 22 →
      ∃ u, goes u ∧ (u.rule port r).held = [((s.port port).seq, frame, s.stamp0, b)] ∧ u.net = s.net) ∧
    (∀ q, hits → b.getLsbD 1 = true → s.mailbox (ruleF b 128 16) = some q → q.mbox.length < 64 → q.await = .none →
      ∃ u q' e, goes u ∧ u.prog (ruleF b 128 16) = some q' ∧ q'.mbox = q.mbox ++ [e] ∧ e.cls = 2 ∧ e.sender = 0xFFFE#16 ∧
        e.tag = BitVec.ofNat 32 (256 * port + r)) ∧
    (∀ x seq f st b rest l, (s.port port).rules = [(r, x)] → x.held = (seq, f, st, b) :: rest → b.getLsbD 1 = false →
      s.depositTarget (cc (ruleF b 192 14)) (BitVec.ofNat 16 (ruleF b 206 16)) = some l → s.depositWaits x (cc (ruleF b 192 14)) l = false →
      ∃ u f', exec (.heldDepositIssue port) s = .next u ∧ (u.rule port r).held = rest ∧ u.net = s.net ++ [f'] ∧ f'.dst = cc (ruleF b 192 14) ∧
        f'.msg.pay = vec512 (sliceB f 0 48))) ∧
  ∀ (s : State) (n : Nat) (l : Lease) (cmd : NvmeCmd), Assoc.get s.leases n = some l →
    let lba0 := (l.bits.extractLsb' 64 64).toNat
    let lban := (l.bits.extractLsb' 128 64).toNat
    let refuses := fun (st : Nat) => ∃ u, exec (.nvmeSubmissionCheck n cmd) s = .next u ∧ Assoc.get u.leases n = some { l with refused := l.refused ++ [st] }
    (0x80 ≤ cmd.opcode → refuses 0x01) ∧
    ((cmd.opcode = 1 ∨ cmd.opcode = 8) → l.bits.getLsbD 36 = false → refuses 0x01) ∧
    (cmd.opcode = 2 → (cmd.nsid ≠ (l.bits.extractLsb' 32 4).toNat ∨ lban = 0 ∨ cmd.lba < lba0 ∨ lba0 + lban ≤ cmd.lba + cmd.nlb) → refuses 0x80) ∧
    ((cmd.opcode = 2 ∨ (cmd.opcode = 1 ∧ l.bits.getLsbD 36 = true)) → cmd.nsid = (l.bits.extractLsb' 32 4).toNat → lban ≠ 0 → lba0 ≤ cmd.lba →
      cmd.lba + cmd.nlb < lba0 + lban →
      ∃ u, exec (.nvmeSubmissionCheck n cmd) s = .next u ∧ Assoc.get u.leases n = some { l with forwarded := l.forwarded ++ [cmd] })

/-- Failing parts (R22, R48, R68, R196, R208): a link trains at half its lanes; a failing slice, engine or kernel core leaves the map and no memory changes; a bundle or
island that fails takes its thread sets with it, and a launch on it that is not REPLAYABLE ends; a channel that fails reads all ones, and a launch whose
record lies in it ends. Which addresses a channel holds is the model's choice (log 6, PRESUMED), and so is that the record's place ends a launch (log 41,
DEDUCED). -/
def Obligations.FailingPartResult : Prop :=
  ∀ (s : State) (n : Nat),
    (n < Config.links → ∃ u, exec (.linkLaneFault n) s = .next u ∧ u.lanesOf n = s.lanesOf n / 2 ∧ u = { s with lanes := u.lanes } ∧
      ∀ m, m ≠ n → u.lanesOf m = s.lanesOf m) ∧
    (n < Config.l2Slices → n ∉ s.absentL2 → ∃ u, exec (.l2SliceFault n) s = .next u ∧ u = { s with absentL2 := n :: s.absentL2 }) ∧
    (n < Config.copyEngines → n ∉ s.absentCE → ∃ u, exec (.copyEngineFault n) s = .next u ∧ u = { s with absentCE := n :: s.absentCE }) ∧
    (n < Config.kernelCores → n ∉ s.absentK → ∃ u, exec (.kernelCoreFault n) s = .next u ∧ u.coreAbsent (kc n) = true ∧
      ((∀ q ∈ s.copyQs, ∀ e ∈ q.ents, ∀ o ∈ s.ops, o.t.core = kc n → o.id ≠ e.op) → SameBytes s u) ∧
      (∀ t, t.core = kc n → (u.tsGet t).act = none) ∧ (∀ t, t.core ≠ kc n → u.tsGet t = s.tsGet t) ∧ u.launches = s.launches) ∧
    (n < Config.bundles → n ∉ s.absent → ∃ u, exec (.bundleFault n) s = .next u ∧ (∀ i, i / 8 = n → u.coreAbsent (cc i) = true ∧
      ∀ k, (u.tsGet { core := cc i, ts := k }).act = none) ∧
      ∀ l ∈ s.launches, l.state = .running → n ∈ l.bundles → l.repl = false → u.launch l.lid = none) ∧
    (n < 32 → n ∉ s.absentIsl → ∃ u, exec (.islandFault n) s = .next u ∧ (∀ i, islandOf (cc i) = n → u.coreAbsent (cc i) = true) ∧
      ∀ l ∈ s.launches, l.state = .running → (∃ b ∈ l.bundles, b / 64 = n ∧ b ∉ s.absent) → l.repl = false → u.launch l.lid = none) ∧
    (n < Config.channels → n ∉ s.absentCh → ∃ u, exec (.channelFault n) s = .next u ∧
      (∀ a, a < scratchBase → a / Config.channelBytes = n → u.rdByte a = 0xFF#8) ∧
      ∀ l ∈ s.launches, ∀ bs b, s.granted l.ctx l.crec 128 rWR false = .ok bs → b ∈ bs → inChannel n b.bus b.len = true → u.launch l.lid = none)

/-- Boot, heat, peers and attestation (R20, R208, R211 to R214): the boot ROM stops at its failing step with DEVSTAT 2 and its code, or the device runs, as after
reset, with the seam bundles, absent parts and lanes of its configuration (every role held, one role a bundle, 1 to 4 seam bundles a die); at 115 degrees it halts; a throttle
lowers the islands of one die within their limits; a peer's access reads or writes stack memory, its message goes to the core that it names, and what no
link can carry is held; an attestation report holds the digests and the nonce, and a signature. The order of the report's bytes, and that step 4 fails
for a die without 1 to 4 seam bundles, are the model's choices (log 21, DESIGN CHOICE), and so is the range of a peer's addresses (log 41, DEDUCED). -/
def Obligations.BootPeerReportResult : Prop :=
  (∀ (s : State) (boot : BootInput), ∃ u, exec (.powerOnReset boot) s = .next u ∧ u.mem = [] ∧ u.scratch = [] ∧ u.ts = [] ∧ u.launches = [] ∧ u.progs = [] ∧
    let held := (∀ r, r < 5 → ∃ x ∈ boot.roles, x.2 = r ∧ x.1 ∈ boot.seam) ∧ (∀ x ∈ boot.roles, ∀ y ∈ boot.roles, x.1 = y.1 → x.2 = y.2) ∧
      ∀ d, d < Config.dies → ∃ n, 1 ≤ n ∧ n ≤ 4 ∧ (boot.seam.eraseDups.filter (fun b => decide (b / Config.bundlesPerDie = d))).length = n
    (boot.fail = 0 → held → u.devstat = 1 ∧ u.bootCode = 0 ∧ u.seam = boot.seam ∧ u.absent = boot.absentBundles ∧ u.absentCh = boot.absentChannels ∧ u.absentL2 = boot.absentL2 ∧ u.absentCE = boot.absentCopy ∧
      u.absentIsl = boot.absentIslands ∧ (∀ l, l < Config.links → u.lanesOf l ∈ [8, 4, 2, 1, 0]) ∧ u.ptSize ≤ 2 ^ 24 ∧ u.locked = true ∧
      u.digests = [boot.cfgDigest, boot.seamDigest, boot.osDigest]) ∧
    (0 < boot.fail → boot.fail ≤ 4 → u.devstat = 2 ∧ u.bootCode = boot.fail ∧ u.seam = []) ∧
    (boot.fail = 0 → ¬ held → u.devstat = 2 ∧ u.bootCode = 4)) ∧
  (∀ s : State, ∃ u, exec .thermalReset s = .next u ∧ u.devstat = 3 ∧ u.bootCode = 0x0F ∧ u.mem = [] ∧ u.scratch = [] ∧ u.ts = []) ∧
  (∀ (s : State) (die mhz : Nat), ∃ u, exec (.thermalThrottle die mhz) s = .next u ∧ u = { s with islandMHz := u.islandMHz } ∧
    ∀ i, u.mhz i = if i ∈ islandsOf die then max (s.mhzLimits i).1 (min (s.mhzLimits i).2 (min mhz (s.mhz i))) else s.mhz i) ∧
  (∀ (s : State) (link a n : Nat) (d : List Byte), s.peerHeld = [] → s.lanesOf link ≠ 0 →
    (physOk a n = true → ∃ u, exec (.tlarriudPeerAccess link (.read a n)) s = .next u ∧ u.peerOut = s.peerOut ++ [(link, s.rd a n)] ∧ SameBytes s u ∧ u.peerHeld = []) ∧
    (∀ core w0 w1 pay, core < 16384 → msgKind w1 ≤ 1 → ∃ u f, exec (.tlarriudPeerAccess link (.msg core w0 w1 pay)) s = .next u ∧ u.net = s.net ++ [f] ∧
      f.dst = cc core ∧ f.outside = true ∧ f.lid = none ∧ f.msg = { w0 := deliverW0 w0, w1 := w1, pay := pay } ∧ SameBytes s u) ∧
    (physOk a d.length = true → inRam s a d.length → unowned s a d.length → ∃ u, exec (.tlarriudPeerAccess link (.write a d)) s = .next u ∧ holds u a d ∧ onlyBytes s u a d.length) ∧
    (∀ op b cmp, op ≤ 10 → a % 8 = 0 → physOk a 8 = true → inRam s a 8 → unowned s a 8 → ∃ u, exec (.tlarriudPeerAccess link (.amo op false a b cmp)) s = .next u ∧
      u.peerOut = s.peerOut ++ [(link, leBytes 8 (s.rd64 a).toNat)] ∧ onlyBytes s u a 8 ∧
      u.rd64 a = (amoSpec 64 op (s.rd64 a) b cmp).getD (s.rd64 a))) ∧
  (∀ (s : State) (link : Nat) (acc : PeerAccess), s.peerHeld = [] → s.lanesOf link = 0 →
    (Assoc.get s.routes link = none ∨ ∀ l, s.lanesOf l ≠ 0 → Assoc.get s.routes l ≠ Assoc.get s.routes link) →
    ∃ u, exec (.tlarriudPeerAccess link acc) s = .next u ∧ u = { s with peerHeld := [(link, acc)] }) ∧
  ∀ (s : State) (nonce : List Byte), ∃ u d sig, exec (.attestationReport nonce) s = .next u ∧ u.reports = .attest (d ++ sig) :: s.reports ∧
    d = s.digests.flatMap id ++ sliceB nonce 0 32 ++ s.present.flatMap (leBytes 8) ∧ u = { s with reports := u.reports }

/-- A step runs the decoded instruction: a thread set whose turn it is issues exec of the words at its PC, a program exec of the word at its PC, and the move at
the head of the agenda is exec of that move; a word that decodes to nothing is the ILLOP of R229 (the order of moves is the model's, log 7; what a firewall drops of a fetch is counted first, log 43). -/
def Obligations.StepRunsDecoded : Prop :=
  (∀ (s : State) (t : TsId) (a : Activation) (r : List TsId) (w w2 : Word32), s.agenda = [] → s.devstat = 1 → s.fresh % 8 ≠ 3 → s.fresh % 8 ≠ 7 →
    s.threadOrder = t :: r → (s.tsGet t).act = some a → a.fetchTrap = none → (s.tsGet t).pend = none → (s.tsGet t).wbudget ≠ 0 → (s.tsGet t).stall = none →
    ({ s with cur := .ts t } : State).fetchWords { core := t.core, ctx := a.ctx, lid := a.lid } (s.tsGet t).pc = .words w w2 →
    let v : View := { core := t.core, ctx := a.ctx, lid := a.lid }
    let z := ({ s with cur := .ts t } : State).noteFetch v (s.tsGet t).pc w
    (∀ i, decodeNorson w w2 = .ok i → step s = exec i z) ∧
    (∀ e, decodeNorson w w2 = .error e → step s = exec (.reservedEncoding w) z) ∧
    ((∀ x, s.barred x = false) → z = { s with cur := .ts t })) ∧
  (∀ (s : State) (p : Prog) (r : List Nat) (d : List Byte) (u : State), s.agenda = [] → s.devstat = 1 → s.fresh % 8 = 3 → s.progOrder = p.slot :: r →
    s.prog p.slot = some p → p.state = .ready → p.doomed = false → p.long = none → p.pc < p.codeLen →
    ({ s with cur := .prog p.slot } : State).imageRead p (8 * p.pc) 8 = .ok d → u ≠ { s with cur := .prog p.slot } →
    (∀ i, decodeLivik (w64 d) = .ok i → exec i { s with cur := .prog p.slot } = .next u → step s = .next u) ∧
    (∀ e, decodeLivik (w64 d) = .error e → exec (.livikIllopWord (w64 d)) { s with cur := .prog p.slot } = .next u → step s = .next u)) ∧
  ∀ (s : State) (i : Instr) (r : List Instr), s.agenda = i :: r →
    (s.mayMove i = true → step s = exec i { s with agenda := r }) ∧ (s.mayMove i = false → step s = .next { s with agenda := r })

/-- Decoding undoes encoding: for every well-formed Norson and Livik instruction, with every operand at every value that its fields hold
(R215 to R228), the decoder reads the words that the encoder gives it as that instruction. -/
def Obligations.DecodeUndoesEncode : Prop :=
  (∀ (i : Instr) (w : Word32) (r : List Word32), i.wf = true → encodeNorson i = some (w :: r) → r.length ≤ 1 ∧ decodeNorson w (r.headD 0) = .ok i) ∧
  ∀ (i : Instr) (w : Word), i.wf = true → encodeLivik i = some w → decodeLivik w = .ok i

/-- Every step keeps the memories in canonical form. -/
def Obligations.StepKeepsMemories : Prop := ∀ (s u : State), MemInv s → step s = .next u → MemInv u

/-- After reset; the halted and the held device: ResetState, HaltedDeviceStops of Claims, together. -/
def Obligations.ResetAndHalt : Prop := Claims.ResetState ∧ Claims.HaltedDeviceStops

/-- Words that the manual writes out, one or more of every family, are the instructions that it says (R218, R258, R260 to R262, R276, R278, R307, R312, R326,
R355, R361 to R368, R376; `bne s5, s6` by R226). -/
def Obligations.DecodingIsRight : Prop :=
  decodeNorson 0x04C52000#32 0 = .ok (.add 6 5 4 false) ∧ decodeNorson 0x051EF405#32 0 = .ok (.div 8 30 30 true) ∧
  decodeNorson 0x24C50400#32 0x601F0000#32 = .ok (.addK 6 5 false (.win 3 0x1F0)) ∧ decodeNorson 0x0AC00080#32 0 = .ok (.addi 22 0 128) ∧
  decodeNorson 0x20A30005#32 0 = .ok (.lih 5 3 5) ∧ decodeNorson 0x28A60529#32 0 = .ok (.fcvtF2i 5 6 true 1) ∧
  decodeNorson 0x42A6FFFE#32 0 = .ok (.ld 2 true 1 6 0xFFFE) ∧ decodeNorson 0x68C4282A#32 0 = .ok (.amoCas 6 4 5 false false false 1) ∧
  decodeNorson 0x80A62001#32 0 = .ok (.bne 5 6 1) ∧ decodeNorson 0x90653004#32 0 = .ok (.send 3 5 6 4) ∧
  decodeNorson 0xA4A81180#32 0 = .ok (.bara 5 8 17 4) ∧ decodeNorson 0xC0853040#32 0 = .ok (.vadd 4 5 6 0 2) ∧
  decodeNorson 0xD156022B#32 0 = .ok (.mma 2 5 3 0 1 true false true 3) ∧ decodeNorson 0xE1400000#32 0 = .ok (.fenceFull 2) ∧
  decodeNorson 0xE8A00000#32 0 = .ok (.getsr 5 0) ∧ decodeNorson 0xEC04003B#32 0 = .ok (.trap 4 7) ∧ decodeNorson 0xF4053001#32 0 = .ok (.markq 5 6 true) ∧
  decodeLivik 0x01080000FFFFFFFF#64 = .ok (.aset 2 0xFFFFFFFF) ∧ decodeLivik 0x1049100000000000#64 ≠ .ok (.ctxfork 2 1) ∧
  decodeLivik 0x1149100000000000#64 = .ok (.ctxfork 2 1) ∧ decodeLivik 0x230D19008000001F#64 = .ok (.choose 3 1 4 true 31) ∧
  decodeLivik 0x3292108300000000#64 = .ok (.tcut 4 1 2 3) ∧ decodeLivik 0x41942000000003E8#64 = .ok (.await (.t 5) 2 1000)

/-- Words in memory are little-endian (R3): a written word reads back, its byte k at address a + k, and no other byte changes. -/
def Obligations.LittleEndianWords : Prop :=
  ∀ (s : State) (a : Nat) (x : Word), plain s a 8 →
    (s.wr64 a x).rd64 a = x ∧ (∀ k, k < 8 → (s.wr64 a x).rdByte (a + k) = x.extractLsb' (8 * k) 8) ∧
    ∀ b, (b < a ∨ a + 8 ≤ b) → s.inBrd b = false → (s.wr64 a x).rdByte b = s.rdByte b

end Statements
end

