-- ==== Sys2Proof/Laws/State.lean ====
section
/-!
SUPPORT. One lemma for each field under each named update of State, all true by unfolding, and the lookups after an update.
-/

namespace Sys2Proof.Machine

open Sys2Proof

/-! ## Fields -/

@[simp] theorem State.tsSet_mem (s : State) (t : TsId) (x : ThreadSet) : (s.tsSet t x).mem = s.mem := rfl
@[simp] theorem State.tsSet_scratch (s : State) (t : TsId) (x : ThreadSet) : (s.tsSet t x).scratch = s.scratch := rfl
@[simp] theorem State.tsSet_undef (s : State) (t : TsId) (x : ThreadSet) : (s.tsSet t x).undef = s.undef := rfl
@[simp] theorem State.tsSet_softMem (s : State) (t : TsId) (x : ThreadSet) : (s.tsSet t x).softMem = s.softMem := rfl
@[simp] theorem State.tsSet_eccMem (s : State) (t : TsId) (x : ThreadSet) : (s.tsSet t x).eccMem = s.eccMem := rfl
@[simp] theorem State.tsSet_hostMem (s : State) (t : TsId) (x : ThreadSet) : (s.tsSet t x).hostMem = s.hostMem := rfl
@[simp] theorem State.tsSet_cores (s : State) (t : TsId) (x : ThreadSet) : (s.tsSet t x).cores = s.cores := rfl
@[simp] theorem State.tsSet_bundles (s : State) (t : TsId) (x : ThreadSet) : (s.tsSet t x).bundles = s.bundles := rfl
@[simp] theorem State.tsSet_ops (s : State) (t : TsId) (x : ThreadSet) : (s.tsSet t x).ops = s.ops := rfl
@[simp] theorem State.tsSet_launches (s : State) (t : TsId) (x : ThreadSet) : (s.tsSet t x).launches = s.launches := rfl
@[simp] theorem State.tsSet_children (s : State) (t : TsId) (x : ThreadSet) : (s.tsSet t x).children = s.children := rfl
@[simp] theorem State.tsSet_qwaits (s : State) (t : TsId) (x : ThreadSet) : (s.tsSet t x).qwaits = s.qwaits := rfl
@[simp] theorem State.tsSet_net (s : State) (t : TsId) (x : ThreadSet) : (s.tsSet t x).net = s.net := rfl
@[simp] theorem State.tsSet_pnet (s : State) (t : TsId) (x : ThreadSet) : (s.tsSet t x).pnet = s.pnet := rfl
@[simp] theorem State.tsSet_snet (s : State) (t : TsId) (x : ThreadSet) : (s.tsSet t x).snet = s.snet := rfl
@[simp] theorem State.tsSet_windows (s : State) (t : TsId) (x : ThreadSet) : (s.tsSet t x).windows = s.windows := rfl
@[simp] theorem State.tsSet_ctxs (s : State) (t : TsId) (x : ThreadSet) : (s.tsSet t x).ctxs = s.ctxs := rfl
@[simp] theorem State.tsSet_copyQs (s : State) (t : TsId) (x : ThreadSet) : (s.tsSet t x).copyQs = s.copyQs := rfl
@[simp] theorem State.tsSet_copyTurn (s : State) (t : TsId) (x : ThreadSet) : (s.tsSet t x).copyTurn = s.copyTurn := rfl
@[simp] theorem State.tsSet_turns (s : State) (t : TsId) (x : ThreadSet) : (s.tsSet t x).turns = s.turns := rfl
@[simp] theorem State.tsSet_orderNext (s : State) (t : TsId) (x : ThreadSet) : (s.tsSet t x).orderNext = s.orderNext := rfl
@[simp] theorem State.tsSet_progs (s : State) (t : TsId) (x : ThreadSet) : (s.tsSet t x).progs = s.progs := rfl
@[simp] theorem State.tsSet_lctx (s : State) (t : TsId) (x : ThreadSet) : (s.tsSet t x).lctx = s.lctx := rfl
@[simp] theorem State.tsSet_pages (s : State) (t : TsId) (x : ThreadSet) : (s.tsSet t x).pages = s.pages := rfl
@[simp] theorem State.tsSet_ptBase (s : State) (t : TsId) (x : ThreadSet) : (s.tsSet t x).ptBase = s.ptBase := rfl
@[simp] theorem State.tsSet_ptSize (s : State) (t : TsId) (x : ThreadSet) : (s.tsSet t x).ptSize = s.ptSize := rfl
@[simp] theorem State.tsSet_listBase (s : State) (t : TsId) (x : ThreadSet) : (s.tsSet t x).listBase = s.listBase := rfl
@[simp] theorem State.tsSet_freeFrames (s : State) (t : TsId) (x : ThreadSet) : (s.tsSet t x).freeFrames = s.freeFrames := rfl
@[simp] theorem State.tsSet_reserved (s : State) (t : TsId) (x : ThreadSet) : (s.tsSet t x).reserved = s.reserved := rfl
@[simp] theorem State.tsSet_hostSlots (s : State) (t : TsId) (x : ThreadSet) : (s.tsSet t x).hostSlots = s.hostSlots := rfl
@[simp] theorem State.tsSet_usedHost (s : State) (t : TsId) (x : ThreadSet) : (s.tsSet t x).usedHost = s.usedHost := rfl
@[simp] theorem State.tsSet_usedBlocks (s : State) (t : TsId) (x : ThreadSet) : (s.tsSet t x).usedBlocks = s.usedBlocks := rfl
@[simp] theorem State.tsSet_shelf (s : State) (t : TsId) (x : ThreadSet) : (s.tsSet t x).shelf = s.shelf := rfl
@[simp] theorem State.tsSet_images (s : State) (t : TsId) (x : ThreadSet) : (s.tsSet t x).images = s.images := rfl
@[simp] theorem State.tsSet_mangles (s : State) (t : TsId) (x : ThreadSet) : (s.tsSet t x).mangles = s.mangles := rfl
@[simp] theorem State.tsSet_steps (s : State) (t : TsId) (x : ThreadSet) : (s.tsSet t x).steps = s.steps := rfl
@[simp] theorem State.tsSet_qb (s : State) (t : TsId) (x : ThreadSet) : (s.tsSet t x).qb = s.qb := rfl
@[simp] theorem State.tsSet_window (s : State) (t : TsId) (x : ThreadSet) : (s.tsSet t x).window = s.window := rfl
@[simp] theorem State.tsSet_rseq (s : State) (t : TsId) (x : ThreadSet) : (s.tsSet t x).rseq = s.rseq := rfl
@[simp] theorem State.tsSet_devstat (s : State) (t : TsId) (x : ThreadSet) : (s.tsSet t x).devstat = s.devstat := rfl
@[simp] theorem State.tsSet_bootCode (s : State) (t : TsId) (x : ThreadSet) : (s.tsSet t x).bootCode = s.bootCode := rfl
@[simp] theorem State.tsSet_hostseq (s : State) (t : TsId) (x : ThreadSet) : (s.tsSet t x).hostseq = s.hostseq := rfl
@[simp] theorem State.tsSet_qbind (s : State) (t : TsId) (x : ThreadSet) : (s.tsSet t x).qbind = s.qbind := rfl
@[simp] theorem State.tsSet_services (s : State) (t : TsId) (x : ThreadSet) : (s.tsSet t x).services = s.services := rfl
@[simp] theorem State.tsSet_hostRegions (s : State) (t : TsId) (x : ThreadSet) : (s.tsSet t x).hostRegions = s.hostRegions := rfl
@[simp] theorem State.tsSet_fseq (s : State) (t : TsId) (x : ThreadSet) : (s.tsSet t x).fseq = s.fseq := rfl
@[simp] theorem State.tsSet_cycle (s : State) (t : TsId) (x : ThreadSet) : (s.tsSet t x).cycle = s.cycle := rfl
@[simp] theorem State.tsSet_clock (s : State) (t : TsId) (x : ThreadSet) : (s.tsSet t x).clock = s.clock := rfl
@[simp] theorem State.tsSet_absent (s : State) (t : TsId) (x : ThreadSet) : (s.tsSet t x).absent = s.absent := rfl
@[simp] theorem State.tsSet_seam (s : State) (t : TsId) (x : ThreadSet) : (s.tsSet t x).seam = s.seam := rfl
@[simp] theorem State.tsSet_roles (s : State) (t : TsId) (x : ThreadSet) : (s.tsSet t x).roles = s.roles := rfl
@[simp] theorem State.tsSet_firewall (s : State) (t : TsId) (x : ThreadSet) : (s.tsSet t x).firewall = s.firewall := rfl
@[simp] theorem State.tsSet_locked (s : State) (t : TsId) (x : ThreadSet) : (s.tsSet t x).locked = s.locked := rfl
@[simp] theorem State.tsSet_fwDrops (s : State) (t : TsId) (x : ThreadSet) : (s.tsSet t x).fwDrops = s.fwDrops := rfl
@[simp] theorem State.tsSet_absentCh (s : State) (t : TsId) (x : ThreadSet) : (s.tsSet t x).absentCh = s.absentCh := rfl
@[simp] theorem State.tsSet_absentK (s : State) (t : TsId) (x : ThreadSet) : (s.tsSet t x).absentK = s.absentK := rfl
@[simp] theorem State.tsSet_absentL2 (s : State) (t : TsId) (x : ThreadSet) : (s.tsSet t x).absentL2 = s.absentL2 := rfl
@[simp] theorem State.tsSet_absentCE (s : State) (t : TsId) (x : ThreadSet) : (s.tsSet t x).absentCE = s.absentCE := rfl
@[simp] theorem State.tsSet_absentIsl (s : State) (t : TsId) (x : ThreadSet) : (s.tsSet t x).absentIsl = s.absentIsl := rfl
@[simp] theorem State.tsSet_islandMHz (s : State) (t : TsId) (x : ThreadSet) : (s.tsSet t x).islandMHz = s.islandMHz := rfl
@[simp] theorem State.tsSet_ending (s : State) (t : TsId) (x : ThreadSet) : (s.tsSet t x).ending = s.ending := rfl
@[simp] theorem State.tsSet_limits (s : State) (t : TsId) (x : ThreadSet) : (s.tsSet t x).limits = s.limits := rfl
@[simp] theorem State.tsSet_lanes (s : State) (t : TsId) (x : ThreadSet) : (s.tsSet t x).lanes = s.lanes := rfl
@[simp] theorem State.tsSet_routes (s : State) (t : TsId) (x : ThreadSet) : (s.tsSet t x).routes = s.routes := rfl
@[simp] theorem State.tsSet_device (s : State) (t : TsId) (x : ThreadSet) : (s.tsSet t x).device = s.device := rfl
@[simp] theorem State.tsSet_peerHeld (s : State) (t : TsId) (x : ThreadSet) : (s.tsSet t x).peerHeld = s.peerHeld := rfl
@[simp] theorem State.tsSet_hostX1 (s : State) (t : TsId) (x : ThreadSet) : (s.tsSet t x).hostX1 = s.hostX1 := rfl
@[simp] theorem State.tsSet_digests (s : State) (t : TsId) (x : ThreadSet) : (s.tsSet t x).digests = s.digests := rfl
@[simp] theorem State.tsSet_ports (s : State) (t : TsId) (x : ThreadSet) : (s.tsSet t x).ports = s.ports := rfl
@[simp] theorem State.tsSet_leases (s : State) (t : TsId) (x : ThreadSet) : (s.tsSet t x).leases = s.leases := rfl
@[simp] theorem State.tsSet_reports (s : State) (t : TsId) (x : ThreadSet) : (s.tsSet t x).reports = s.reports := rfl
@[simp] theorem State.tsSet_peerOut (s : State) (t : TsId) (x : ThreadSet) : (s.tsSet t x).peerOut = s.peerOut := rfl
@[simp] theorem State.tsSet_hostOut (s : State) (t : TsId) (x : ThreadSet) : (s.tsSet t x).hostOut = s.hostOut := rfl
@[simp] theorem State.tsSet_regions (s : State) (t : TsId) (x : ThreadSet) : (s.tsSet t x).regions = s.regions := rfl
@[simp] theorem State.tsSet_agenda (s : State) (t : TsId) (x : ThreadSet) : (s.tsSet t x).agenda = s.agenda := rfl
@[simp] theorem State.tsSet_cur (s : State) (t : TsId) (x : ThreadSet) : (s.tsSet t x).cur = s.cur := rfl
@[simp] theorem State.tsSet_fresh (s : State) (t : TsId) (x : ThreadSet) : (s.tsSet t x).fresh = s.fresh := rfl
@[simp] theorem State.tsSet_nextId (s : State) (t : TsId) (x : ThreadSet) : (s.tsSet t x).nextId = s.nextId := rfl

@[simp] theorem State.setCore_mem (s : State) (c : CoreId) (x : CoreSt) : (s.setCore c x).mem = s.mem := rfl
@[simp] theorem State.setCore_scratch (s : State) (c : CoreId) (x : CoreSt) : (s.setCore c x).scratch = s.scratch := rfl
@[simp] theorem State.setCore_undef (s : State) (c : CoreId) (x : CoreSt) : (s.setCore c x).undef = s.undef := rfl
@[simp] theorem State.setCore_softMem (s : State) (c : CoreId) (x : CoreSt) : (s.setCore c x).softMem = s.softMem := rfl
@[simp] theorem State.setCore_eccMem (s : State) (c : CoreId) (x : CoreSt) : (s.setCore c x).eccMem = s.eccMem := rfl
@[simp] theorem State.setCore_hostMem (s : State) (c : CoreId) (x : CoreSt) : (s.setCore c x).hostMem = s.hostMem := rfl
@[simp] theorem State.setCore_ts (s : State) (c : CoreId) (x : CoreSt) : (s.setCore c x).ts = s.ts := rfl
@[simp] theorem State.setCore_bundles (s : State) (c : CoreId) (x : CoreSt) : (s.setCore c x).bundles = s.bundles := rfl
@[simp] theorem State.setCore_ops (s : State) (c : CoreId) (x : CoreSt) : (s.setCore c x).ops = s.ops := rfl
@[simp] theorem State.setCore_launches (s : State) (c : CoreId) (x : CoreSt) : (s.setCore c x).launches = s.launches := rfl
@[simp] theorem State.setCore_children (s : State) (c : CoreId) (x : CoreSt) : (s.setCore c x).children = s.children := rfl
@[simp] theorem State.setCore_qwaits (s : State) (c : CoreId) (x : CoreSt) : (s.setCore c x).qwaits = s.qwaits := rfl
@[simp] theorem State.setCore_net (s : State) (c : CoreId) (x : CoreSt) : (s.setCore c x).net = s.net := rfl
@[simp] theorem State.setCore_pnet (s : State) (c : CoreId) (x : CoreSt) : (s.setCore c x).pnet = s.pnet := rfl
@[simp] theorem State.setCore_snet (s : State) (c : CoreId) (x : CoreSt) : (s.setCore c x).snet = s.snet := rfl
@[simp] theorem State.setCore_windows (s : State) (c : CoreId) (x : CoreSt) : (s.setCore c x).windows = s.windows := rfl
@[simp] theorem State.setCore_ctxs (s : State) (c : CoreId) (x : CoreSt) : (s.setCore c x).ctxs = s.ctxs := rfl
@[simp] theorem State.setCore_copyQs (s : State) (c : CoreId) (x : CoreSt) : (s.setCore c x).copyQs = s.copyQs := rfl
@[simp] theorem State.setCore_copyTurn (s : State) (c : CoreId) (x : CoreSt) : (s.setCore c x).copyTurn = s.copyTurn := rfl
@[simp] theorem State.setCore_turns (s : State) (c : CoreId) (x : CoreSt) : (s.setCore c x).turns = s.turns := rfl
@[simp] theorem State.setCore_orderNext (s : State) (c : CoreId) (x : CoreSt) : (s.setCore c x).orderNext = s.orderNext := rfl
@[simp] theorem State.setCore_progs (s : State) (c : CoreId) (x : CoreSt) : (s.setCore c x).progs = s.progs := rfl
@[simp] theorem State.setCore_lctx (s : State) (c : CoreId) (x : CoreSt) : (s.setCore c x).lctx = s.lctx := rfl
@[simp] theorem State.setCore_pages (s : State) (c : CoreId) (x : CoreSt) : (s.setCore c x).pages = s.pages := rfl
@[simp] theorem State.setCore_ptBase (s : State) (c : CoreId) (x : CoreSt) : (s.setCore c x).ptBase = s.ptBase := rfl
@[simp] theorem State.setCore_ptSize (s : State) (c : CoreId) (x : CoreSt) : (s.setCore c x).ptSize = s.ptSize := rfl
@[simp] theorem State.setCore_listBase (s : State) (c : CoreId) (x : CoreSt) : (s.setCore c x).listBase = s.listBase := rfl
@[simp] theorem State.setCore_freeFrames (s : State) (c : CoreId) (x : CoreSt) : (s.setCore c x).freeFrames = s.freeFrames := rfl
@[simp] theorem State.setCore_reserved (s : State) (c : CoreId) (x : CoreSt) : (s.setCore c x).reserved = s.reserved := rfl
@[simp] theorem State.setCore_hostSlots (s : State) (c : CoreId) (x : CoreSt) : (s.setCore c x).hostSlots = s.hostSlots := rfl
@[simp] theorem State.setCore_usedHost (s : State) (c : CoreId) (x : CoreSt) : (s.setCore c x).usedHost = s.usedHost := rfl
@[simp] theorem State.setCore_usedBlocks (s : State) (c : CoreId) (x : CoreSt) : (s.setCore c x).usedBlocks = s.usedBlocks := rfl
@[simp] theorem State.setCore_shelf (s : State) (c : CoreId) (x : CoreSt) : (s.setCore c x).shelf = s.shelf := rfl
@[simp] theorem State.setCore_images (s : State) (c : CoreId) (x : CoreSt) : (s.setCore c x).images = s.images := rfl
@[simp] theorem State.setCore_mangles (s : State) (c : CoreId) (x : CoreSt) : (s.setCore c x).mangles = s.mangles := rfl
@[simp] theorem State.setCore_steps (s : State) (c : CoreId) (x : CoreSt) : (s.setCore c x).steps = s.steps := rfl
@[simp] theorem State.setCore_qb (s : State) (c : CoreId) (x : CoreSt) : (s.setCore c x).qb = s.qb := rfl
@[simp] theorem State.setCore_window (s : State) (c : CoreId) (x : CoreSt) : (s.setCore c x).window = s.window := rfl
@[simp] theorem State.setCore_rseq (s : State) (c : CoreId) (x : CoreSt) : (s.setCore c x).rseq = s.rseq := rfl
@[simp] theorem State.setCore_devstat (s : State) (c : CoreId) (x : CoreSt) : (s.setCore c x).devstat = s.devstat := rfl
@[simp] theorem State.setCore_bootCode (s : State) (c : CoreId) (x : CoreSt) : (s.setCore c x).bootCode = s.bootCode := rfl
@[simp] theorem State.setCore_hostseq (s : State) (c : CoreId) (x : CoreSt) : (s.setCore c x).hostseq = s.hostseq := rfl
@[simp] theorem State.setCore_qbind (s : State) (c : CoreId) (x : CoreSt) : (s.setCore c x).qbind = s.qbind := rfl
@[simp] theorem State.setCore_services (s : State) (c : CoreId) (x : CoreSt) : (s.setCore c x).services = s.services := rfl
@[simp] theorem State.setCore_hostRegions (s : State) (c : CoreId) (x : CoreSt) : (s.setCore c x).hostRegions = s.hostRegions := rfl
@[simp] theorem State.setCore_fseq (s : State) (c : CoreId) (x : CoreSt) : (s.setCore c x).fseq = s.fseq := rfl
@[simp] theorem State.setCore_cycle (s : State) (c : CoreId) (x : CoreSt) : (s.setCore c x).cycle = s.cycle := rfl
@[simp] theorem State.setCore_clock (s : State) (c : CoreId) (x : CoreSt) : (s.setCore c x).clock = s.clock := rfl
@[simp] theorem State.setCore_absent (s : State) (c : CoreId) (x : CoreSt) : (s.setCore c x).absent = s.absent := rfl
@[simp] theorem State.setCore_seam (s : State) (c : CoreId) (x : CoreSt) : (s.setCore c x).seam = s.seam := rfl
@[simp] theorem State.setCore_roles (s : State) (c : CoreId) (x : CoreSt) : (s.setCore c x).roles = s.roles := rfl
@[simp] theorem State.setCore_firewall (s : State) (c : CoreId) (x : CoreSt) : (s.setCore c x).firewall = s.firewall := rfl
@[simp] theorem State.setCore_locked (s : State) (c : CoreId) (x : CoreSt) : (s.setCore c x).locked = s.locked := rfl
@[simp] theorem State.setCore_fwDrops (s : State) (c : CoreId) (x : CoreSt) : (s.setCore c x).fwDrops = s.fwDrops := rfl
@[simp] theorem State.setCore_absentCh (s : State) (c : CoreId) (x : CoreSt) : (s.setCore c x).absentCh = s.absentCh := rfl
@[simp] theorem State.setCore_absentK (s : State) (c : CoreId) (x : CoreSt) : (s.setCore c x).absentK = s.absentK := rfl
@[simp] theorem State.setCore_absentL2 (s : State) (c : CoreId) (x : CoreSt) : (s.setCore c x).absentL2 = s.absentL2 := rfl
@[simp] theorem State.setCore_absentCE (s : State) (c : CoreId) (x : CoreSt) : (s.setCore c x).absentCE = s.absentCE := rfl
@[simp] theorem State.setCore_absentIsl (s : State) (c : CoreId) (x : CoreSt) : (s.setCore c x).absentIsl = s.absentIsl := rfl
@[simp] theorem State.setCore_islandMHz (s : State) (c : CoreId) (x : CoreSt) : (s.setCore c x).islandMHz = s.islandMHz := rfl
@[simp] theorem State.setCore_ending (s : State) (c : CoreId) (x : CoreSt) : (s.setCore c x).ending = s.ending := rfl
@[simp] theorem State.setCore_limits (s : State) (c : CoreId) (x : CoreSt) : (s.setCore c x).limits = s.limits := rfl
@[simp] theorem State.setCore_lanes (s : State) (c : CoreId) (x : CoreSt) : (s.setCore c x).lanes = s.lanes := rfl
@[simp] theorem State.setCore_routes (s : State) (c : CoreId) (x : CoreSt) : (s.setCore c x).routes = s.routes := rfl
@[simp] theorem State.setCore_device (s : State) (c : CoreId) (x : CoreSt) : (s.setCore c x).device = s.device := rfl
@[simp] theorem State.setCore_peerHeld (s : State) (c : CoreId) (x : CoreSt) : (s.setCore c x).peerHeld = s.peerHeld := rfl
@[simp] theorem State.setCore_hostX1 (s : State) (c : CoreId) (x : CoreSt) : (s.setCore c x).hostX1 = s.hostX1 := rfl
@[simp] theorem State.setCore_digests (s : State) (c : CoreId) (x : CoreSt) : (s.setCore c x).digests = s.digests := rfl
@[simp] theorem State.setCore_ports (s : State) (c : CoreId) (x : CoreSt) : (s.setCore c x).ports = s.ports := rfl
@[simp] theorem State.setCore_leases (s : State) (c : CoreId) (x : CoreSt) : (s.setCore c x).leases = s.leases := rfl
@[simp] theorem State.setCore_reports (s : State) (c : CoreId) (x : CoreSt) : (s.setCore c x).reports = s.reports := rfl
@[simp] theorem State.setCore_peerOut (s : State) (c : CoreId) (x : CoreSt) : (s.setCore c x).peerOut = s.peerOut := rfl
@[simp] theorem State.setCore_hostOut (s : State) (c : CoreId) (x : CoreSt) : (s.setCore c x).hostOut = s.hostOut := rfl
@[simp] theorem State.setCore_regions (s : State) (c : CoreId) (x : CoreSt) : (s.setCore c x).regions = s.regions := rfl
@[simp] theorem State.setCore_agenda (s : State) (c : CoreId) (x : CoreSt) : (s.setCore c x).agenda = s.agenda := rfl
@[simp] theorem State.setCore_cur (s : State) (c : CoreId) (x : CoreSt) : (s.setCore c x).cur = s.cur := rfl
@[simp] theorem State.setCore_fresh (s : State) (c : CoreId) (x : CoreSt) : (s.setCore c x).fresh = s.fresh := rfl
@[simp] theorem State.setCore_nextId (s : State) (c : CoreId) (x : CoreSt) : (s.setCore c x).nextId = s.nextId := rfl

@[simp] theorem State.setBundle_mem (s : State) (b : Nat) (x : Bundle) : (s.setBundle b x).mem = s.mem := rfl
@[simp] theorem State.setBundle_scratch (s : State) (b : Nat) (x : Bundle) : (s.setBundle b x).scratch = s.scratch := rfl
@[simp] theorem State.setBundle_undef (s : State) (b : Nat) (x : Bundle) : (s.setBundle b x).undef = s.undef := rfl
@[simp] theorem State.setBundle_softMem (s : State) (b : Nat) (x : Bundle) : (s.setBundle b x).softMem = s.softMem := rfl
@[simp] theorem State.setBundle_eccMem (s : State) (b : Nat) (x : Bundle) : (s.setBundle b x).eccMem = s.eccMem := rfl
@[simp] theorem State.setBundle_hostMem (s : State) (b : Nat) (x : Bundle) : (s.setBundle b x).hostMem = s.hostMem := rfl
@[simp] theorem State.setBundle_ts (s : State) (b : Nat) (x : Bundle) : (s.setBundle b x).ts = s.ts := rfl
@[simp] theorem State.setBundle_cores (s : State) (b : Nat) (x : Bundle) : (s.setBundle b x).cores = s.cores := rfl
@[simp] theorem State.setBundle_ops (s : State) (b : Nat) (x : Bundle) : (s.setBundle b x).ops = s.ops := rfl
@[simp] theorem State.setBundle_launches (s : State) (b : Nat) (x : Bundle) : (s.setBundle b x).launches = s.launches := rfl
@[simp] theorem State.setBundle_children (s : State) (b : Nat) (x : Bundle) : (s.setBundle b x).children = s.children := rfl
@[simp] theorem State.setBundle_qwaits (s : State) (b : Nat) (x : Bundle) : (s.setBundle b x).qwaits = s.qwaits := rfl
@[simp] theorem State.setBundle_net (s : State) (b : Nat) (x : Bundle) : (s.setBundle b x).net = s.net := rfl
@[simp] theorem State.setBundle_pnet (s : State) (b : Nat) (x : Bundle) : (s.setBundle b x).pnet = s.pnet := rfl
@[simp] theorem State.setBundle_snet (s : State) (b : Nat) (x : Bundle) : (s.setBundle b x).snet = s.snet := rfl
@[simp] theorem State.setBundle_windows (s : State) (b : Nat) (x : Bundle) : (s.setBundle b x).windows = s.windows := rfl
@[simp] theorem State.setBundle_ctxs (s : State) (b : Nat) (x : Bundle) : (s.setBundle b x).ctxs = s.ctxs := rfl
@[simp] theorem State.setBundle_copyQs (s : State) (b : Nat) (x : Bundle) : (s.setBundle b x).copyQs = s.copyQs := rfl
@[simp] theorem State.setBundle_copyTurn (s : State) (b : Nat) (x : Bundle) : (s.setBundle b x).copyTurn = s.copyTurn := rfl
@[simp] theorem State.setBundle_turns (s : State) (b : Nat) (x : Bundle) : (s.setBundle b x).turns = s.turns := rfl
@[simp] theorem State.setBundle_orderNext (s : State) (b : Nat) (x : Bundle) : (s.setBundle b x).orderNext = s.orderNext := rfl
@[simp] theorem State.setBundle_progs (s : State) (b : Nat) (x : Bundle) : (s.setBundle b x).progs = s.progs := rfl
@[simp] theorem State.setBundle_lctx (s : State) (b : Nat) (x : Bundle) : (s.setBundle b x).lctx = s.lctx := rfl
@[simp] theorem State.setBundle_pages (s : State) (b : Nat) (x : Bundle) : (s.setBundle b x).pages = s.pages := rfl
@[simp] theorem State.setBundle_ptBase (s : State) (b : Nat) (x : Bundle) : (s.setBundle b x).ptBase = s.ptBase := rfl
@[simp] theorem State.setBundle_ptSize (s : State) (b : Nat) (x : Bundle) : (s.setBundle b x).ptSize = s.ptSize := rfl
@[simp] theorem State.setBundle_listBase (s : State) (b : Nat) (x : Bundle) : (s.setBundle b x).listBase = s.listBase := rfl
@[simp] theorem State.setBundle_freeFrames (s : State) (b : Nat) (x : Bundle) : (s.setBundle b x).freeFrames = s.freeFrames := rfl
@[simp] theorem State.setBundle_reserved (s : State) (b : Nat) (x : Bundle) : (s.setBundle b x).reserved = s.reserved := rfl
@[simp] theorem State.setBundle_hostSlots (s : State) (b : Nat) (x : Bundle) : (s.setBundle b x).hostSlots = s.hostSlots := rfl
@[simp] theorem State.setBundle_usedHost (s : State) (b : Nat) (x : Bundle) : (s.setBundle b x).usedHost = s.usedHost := rfl
@[simp] theorem State.setBundle_usedBlocks (s : State) (b : Nat) (x : Bundle) : (s.setBundle b x).usedBlocks = s.usedBlocks := rfl
@[simp] theorem State.setBundle_shelf (s : State) (b : Nat) (x : Bundle) : (s.setBundle b x).shelf = s.shelf := rfl
@[simp] theorem State.setBundle_images (s : State) (b : Nat) (x : Bundle) : (s.setBundle b x).images = s.images := rfl
@[simp] theorem State.setBundle_mangles (s : State) (b : Nat) (x : Bundle) : (s.setBundle b x).mangles = s.mangles := rfl
@[simp] theorem State.setBundle_steps (s : State) (b : Nat) (x : Bundle) : (s.setBundle b x).steps = s.steps := rfl
@[simp] theorem State.setBundle_qb (s : State) (b : Nat) (x : Bundle) : (s.setBundle b x).qb = s.qb := rfl
@[simp] theorem State.setBundle_window (s : State) (b : Nat) (x : Bundle) : (s.setBundle b x).window = s.window := rfl
@[simp] theorem State.setBundle_rseq (s : State) (b : Nat) (x : Bundle) : (s.setBundle b x).rseq = s.rseq := rfl
@[simp] theorem State.setBundle_devstat (s : State) (b : Nat) (x : Bundle) : (s.setBundle b x).devstat = s.devstat := rfl
@[simp] theorem State.setBundle_bootCode (s : State) (b : Nat) (x : Bundle) : (s.setBundle b x).bootCode = s.bootCode := rfl
@[simp] theorem State.setBundle_hostseq (s : State) (b : Nat) (x : Bundle) : (s.setBundle b x).hostseq = s.hostseq := rfl
@[simp] theorem State.setBundle_qbind (s : State) (b : Nat) (x : Bundle) : (s.setBundle b x).qbind = s.qbind := rfl
@[simp] theorem State.setBundle_services (s : State) (b : Nat) (x : Bundle) : (s.setBundle b x).services = s.services := rfl
@[simp] theorem State.setBundle_hostRegions (s : State) (b : Nat) (x : Bundle) : (s.setBundle b x).hostRegions = s.hostRegions := rfl
@[simp] theorem State.setBundle_fseq (s : State) (b : Nat) (x : Bundle) : (s.setBundle b x).fseq = s.fseq := rfl
@[simp] theorem State.setBundle_cycle (s : State) (b : Nat) (x : Bundle) : (s.setBundle b x).cycle = s.cycle := rfl
@[simp] theorem State.setBundle_clock (s : State) (b : Nat) (x : Bundle) : (s.setBundle b x).clock = s.clock := rfl
@[simp] theorem State.setBundle_absent (s : State) (b : Nat) (x : Bundle) : (s.setBundle b x).absent = s.absent := rfl
@[simp] theorem State.setBundle_seam (s : State) (b : Nat) (x : Bundle) : (s.setBundle b x).seam = s.seam := rfl
@[simp] theorem State.setBundle_roles (s : State) (b : Nat) (x : Bundle) : (s.setBundle b x).roles = s.roles := rfl
@[simp] theorem State.setBundle_firewall (s : State) (b : Nat) (x : Bundle) : (s.setBundle b x).firewall = s.firewall := rfl
@[simp] theorem State.setBundle_locked (s : State) (b : Nat) (x : Bundle) : (s.setBundle b x).locked = s.locked := rfl
@[simp] theorem State.setBundle_fwDrops (s : State) (b : Nat) (x : Bundle) : (s.setBundle b x).fwDrops = s.fwDrops := rfl
@[simp] theorem State.setBundle_absentCh (s : State) (b : Nat) (x : Bundle) : (s.setBundle b x).absentCh = s.absentCh := rfl
@[simp] theorem State.setBundle_absentK (s : State) (b : Nat) (x : Bundle) : (s.setBundle b x).absentK = s.absentK := rfl
@[simp] theorem State.setBundle_absentL2 (s : State) (b : Nat) (x : Bundle) : (s.setBundle b x).absentL2 = s.absentL2 := rfl
@[simp] theorem State.setBundle_absentCE (s : State) (b : Nat) (x : Bundle) : (s.setBundle b x).absentCE = s.absentCE := rfl
@[simp] theorem State.setBundle_absentIsl (s : State) (b : Nat) (x : Bundle) : (s.setBundle b x).absentIsl = s.absentIsl := rfl
@[simp] theorem State.setBundle_islandMHz (s : State) (b : Nat) (x : Bundle) : (s.setBundle b x).islandMHz = s.islandMHz := rfl
@[simp] theorem State.setBundle_ending (s : State) (b : Nat) (x : Bundle) : (s.setBundle b x).ending = s.ending := rfl
@[simp] theorem State.setBundle_limits (s : State) (b : Nat) (x : Bundle) : (s.setBundle b x).limits = s.limits := rfl
@[simp] theorem State.setBundle_lanes (s : State) (b : Nat) (x : Bundle) : (s.setBundle b x).lanes = s.lanes := rfl
@[simp] theorem State.setBundle_routes (s : State) (b : Nat) (x : Bundle) : (s.setBundle b x).routes = s.routes := rfl
@[simp] theorem State.setBundle_device (s : State) (b : Nat) (x : Bundle) : (s.setBundle b x).device = s.device := rfl
@[simp] theorem State.setBundle_peerHeld (s : State) (b : Nat) (x : Bundle) : (s.setBundle b x).peerHeld = s.peerHeld := rfl
@[simp] theorem State.setBundle_hostX1 (s : State) (b : Nat) (x : Bundle) : (s.setBundle b x).hostX1 = s.hostX1 := rfl
@[simp] theorem State.setBundle_digests (s : State) (b : Nat) (x : Bundle) : (s.setBundle b x).digests = s.digests := rfl
@[simp] theorem State.setBundle_ports (s : State) (b : Nat) (x : Bundle) : (s.setBundle b x).ports = s.ports := rfl
@[simp] theorem State.setBundle_leases (s : State) (b : Nat) (x : Bundle) : (s.setBundle b x).leases = s.leases := rfl
@[simp] theorem State.setBundle_reports (s : State) (b : Nat) (x : Bundle) : (s.setBundle b x).reports = s.reports := rfl
@[simp] theorem State.setBundle_peerOut (s : State) (b : Nat) (x : Bundle) : (s.setBundle b x).peerOut = s.peerOut := rfl
@[simp] theorem State.setBundle_hostOut (s : State) (b : Nat) (x : Bundle) : (s.setBundle b x).hostOut = s.hostOut := rfl
@[simp] theorem State.setBundle_regions (s : State) (b : Nat) (x : Bundle) : (s.setBundle b x).regions = s.regions := rfl
@[simp] theorem State.setBundle_agenda (s : State) (b : Nat) (x : Bundle) : (s.setBundle b x).agenda = s.agenda := rfl
@[simp] theorem State.setBundle_cur (s : State) (b : Nat) (x : Bundle) : (s.setBundle b x).cur = s.cur := rfl
@[simp] theorem State.setBundle_fresh (s : State) (b : Nat) (x : Bundle) : (s.setBundle b x).fresh = s.fresh := rfl
@[simp] theorem State.setBundle_nextId (s : State) (b : Nat) (x : Bundle) : (s.setBundle b x).nextId = s.nextId := rfl

@[simp] theorem State.setLaunch_mem (s : State) (l : Launch) : (s.setLaunch l).mem = s.mem := rfl
@[simp] theorem State.setLaunch_scratch (s : State) (l : Launch) : (s.setLaunch l).scratch = s.scratch := rfl
@[simp] theorem State.setLaunch_undef (s : State) (l : Launch) : (s.setLaunch l).undef = s.undef := rfl
@[simp] theorem State.setLaunch_softMem (s : State) (l : Launch) : (s.setLaunch l).softMem = s.softMem := rfl
@[simp] theorem State.setLaunch_eccMem (s : State) (l : Launch) : (s.setLaunch l).eccMem = s.eccMem := rfl
@[simp] theorem State.setLaunch_hostMem (s : State) (l : Launch) : (s.setLaunch l).hostMem = s.hostMem := rfl
@[simp] theorem State.setLaunch_ts (s : State) (l : Launch) : (s.setLaunch l).ts = s.ts := rfl
@[simp] theorem State.setLaunch_cores (s : State) (l : Launch) : (s.setLaunch l).cores = s.cores := rfl
@[simp] theorem State.setLaunch_bundles (s : State) (l : Launch) : (s.setLaunch l).bundles = s.bundles := rfl
@[simp] theorem State.setLaunch_ops (s : State) (l : Launch) : (s.setLaunch l).ops = s.ops := rfl
@[simp] theorem State.setLaunch_children (s : State) (l : Launch) : (s.setLaunch l).children = s.children := rfl
@[simp] theorem State.setLaunch_qwaits (s : State) (l : Launch) : (s.setLaunch l).qwaits = s.qwaits := rfl
@[simp] theorem State.setLaunch_net (s : State) (l : Launch) : (s.setLaunch l).net = s.net := rfl
@[simp] theorem State.setLaunch_pnet (s : State) (l : Launch) : (s.setLaunch l).pnet = s.pnet := rfl
@[simp] theorem State.setLaunch_snet (s : State) (l : Launch) : (s.setLaunch l).snet = s.snet := rfl
@[simp] theorem State.setLaunch_windows (s : State) (l : Launch) : (s.setLaunch l).windows = s.windows := rfl
@[simp] theorem State.setLaunch_ctxs (s : State) (l : Launch) : (s.setLaunch l).ctxs = s.ctxs := rfl
@[simp] theorem State.setLaunch_copyQs (s : State) (l : Launch) : (s.setLaunch l).copyQs = s.copyQs := rfl
@[simp] theorem State.setLaunch_copyTurn (s : State) (l : Launch) : (s.setLaunch l).copyTurn = s.copyTurn := rfl
@[simp] theorem State.setLaunch_turns (s : State) (l : Launch) : (s.setLaunch l).turns = s.turns := rfl
@[simp] theorem State.setLaunch_orderNext (s : State) (l : Launch) : (s.setLaunch l).orderNext = s.orderNext := rfl
@[simp] theorem State.setLaunch_progs (s : State) (l : Launch) : (s.setLaunch l).progs = s.progs := rfl
@[simp] theorem State.setLaunch_lctx (s : State) (l : Launch) : (s.setLaunch l).lctx = s.lctx := rfl
@[simp] theorem State.setLaunch_pages (s : State) (l : Launch) : (s.setLaunch l).pages = s.pages := rfl
@[simp] theorem State.setLaunch_ptBase (s : State) (l : Launch) : (s.setLaunch l).ptBase = s.ptBase := rfl
@[simp] theorem State.setLaunch_ptSize (s : State) (l : Launch) : (s.setLaunch l).ptSize = s.ptSize := rfl
@[simp] theorem State.setLaunch_listBase (s : State) (l : Launch) : (s.setLaunch l).listBase = s.listBase := rfl
@[simp] theorem State.setLaunch_freeFrames (s : State) (l : Launch) : (s.setLaunch l).freeFrames = s.freeFrames := rfl
@[simp] theorem State.setLaunch_reserved (s : State) (l : Launch) : (s.setLaunch l).reserved = s.reserved := rfl
@[simp] theorem State.setLaunch_hostSlots (s : State) (l : Launch) : (s.setLaunch l).hostSlots = s.hostSlots := rfl
@[simp] theorem State.setLaunch_usedHost (s : State) (l : Launch) : (s.setLaunch l).usedHost = s.usedHost := rfl
@[simp] theorem State.setLaunch_usedBlocks (s : State) (l : Launch) : (s.setLaunch l).usedBlocks = s.usedBlocks := rfl
@[simp] theorem State.setLaunch_shelf (s : State) (l : Launch) : (s.setLaunch l).shelf = s.shelf := rfl
@[simp] theorem State.setLaunch_images (s : State) (l : Launch) : (s.setLaunch l).images = s.images := rfl
@[simp] theorem State.setLaunch_mangles (s : State) (l : Launch) : (s.setLaunch l).mangles = s.mangles := rfl
@[simp] theorem State.setLaunch_steps (s : State) (l : Launch) : (s.setLaunch l).steps = s.steps := rfl
@[simp] theorem State.setLaunch_qb (s : State) (l : Launch) : (s.setLaunch l).qb = s.qb := rfl
@[simp] theorem State.setLaunch_window (s : State) (l : Launch) : (s.setLaunch l).window = s.window := rfl
@[simp] theorem State.setLaunch_rseq (s : State) (l : Launch) : (s.setLaunch l).rseq = s.rseq := rfl
@[simp] theorem State.setLaunch_devstat (s : State) (l : Launch) : (s.setLaunch l).devstat = s.devstat := rfl
@[simp] theorem State.setLaunch_bootCode (s : State) (l : Launch) : (s.setLaunch l).bootCode = s.bootCode := rfl
@[simp] theorem State.setLaunch_hostseq (s : State) (l : Launch) : (s.setLaunch l).hostseq = s.hostseq := rfl
@[simp] theorem State.setLaunch_qbind (s : State) (l : Launch) : (s.setLaunch l).qbind = s.qbind := rfl
@[simp] theorem State.setLaunch_services (s : State) (l : Launch) : (s.setLaunch l).services = s.services := rfl
@[simp] theorem State.setLaunch_hostRegions (s : State) (l : Launch) : (s.setLaunch l).hostRegions = s.hostRegions := rfl
@[simp] theorem State.setLaunch_fseq (s : State) (l : Launch) : (s.setLaunch l).fseq = s.fseq := rfl
@[simp] theorem State.setLaunch_cycle (s : State) (l : Launch) : (s.setLaunch l).cycle = s.cycle := rfl
@[simp] theorem State.setLaunch_clock (s : State) (l : Launch) : (s.setLaunch l).clock = s.clock := rfl
@[simp] theorem State.setLaunch_absent (s : State) (l : Launch) : (s.setLaunch l).absent = s.absent := rfl
@[simp] theorem State.setLaunch_seam (s : State) (l : Launch) : (s.setLaunch l).seam = s.seam := rfl
@[simp] theorem State.setLaunch_roles (s : State) (l : Launch) : (s.setLaunch l).roles = s.roles := rfl
@[simp] theorem State.setLaunch_firewall (s : State) (l : Launch) : (s.setLaunch l).firewall = s.firewall := rfl
@[simp] theorem State.setLaunch_locked (s : State) (l : Launch) : (s.setLaunch l).locked = s.locked := rfl
@[simp] theorem State.setLaunch_fwDrops (s : State) (l : Launch) : (s.setLaunch l).fwDrops = s.fwDrops := rfl
@[simp] theorem State.setLaunch_absentCh (s : State) (l : Launch) : (s.setLaunch l).absentCh = s.absentCh := rfl
@[simp] theorem State.setLaunch_absentK (s : State) (l : Launch) : (s.setLaunch l).absentK = s.absentK := rfl
@[simp] theorem State.setLaunch_absentL2 (s : State) (l : Launch) : (s.setLaunch l).absentL2 = s.absentL2 := rfl
@[simp] theorem State.setLaunch_absentCE (s : State) (l : Launch) : (s.setLaunch l).absentCE = s.absentCE := rfl
@[simp] theorem State.setLaunch_absentIsl (s : State) (l : Launch) : (s.setLaunch l).absentIsl = s.absentIsl := rfl
@[simp] theorem State.setLaunch_islandMHz (s : State) (l : Launch) : (s.setLaunch l).islandMHz = s.islandMHz := rfl
@[simp] theorem State.setLaunch_ending (s : State) (l : Launch) : (s.setLaunch l).ending = s.ending := rfl
@[simp] theorem State.setLaunch_limits (s : State) (l : Launch) : (s.setLaunch l).limits = s.limits := rfl
@[simp] theorem State.setLaunch_lanes (s : State) (l : Launch) : (s.setLaunch l).lanes = s.lanes := rfl
@[simp] theorem State.setLaunch_routes (s : State) (l : Launch) : (s.setLaunch l).routes = s.routes := rfl
@[simp] theorem State.setLaunch_device (s : State) (l : Launch) : (s.setLaunch l).device = s.device := rfl
@[simp] theorem State.setLaunch_peerHeld (s : State) (l : Launch) : (s.setLaunch l).peerHeld = s.peerHeld := rfl
@[simp] theorem State.setLaunch_hostX1 (s : State) (l : Launch) : (s.setLaunch l).hostX1 = s.hostX1 := rfl
@[simp] theorem State.setLaunch_digests (s : State) (l : Launch) : (s.setLaunch l).digests = s.digests := rfl
@[simp] theorem State.setLaunch_ports (s : State) (l : Launch) : (s.setLaunch l).ports = s.ports := rfl
@[simp] theorem State.setLaunch_leases (s : State) (l : Launch) : (s.setLaunch l).leases = s.leases := rfl
@[simp] theorem State.setLaunch_reports (s : State) (l : Launch) : (s.setLaunch l).reports = s.reports := rfl
@[simp] theorem State.setLaunch_peerOut (s : State) (l : Launch) : (s.setLaunch l).peerOut = s.peerOut := rfl
@[simp] theorem State.setLaunch_hostOut (s : State) (l : Launch) : (s.setLaunch l).hostOut = s.hostOut := rfl
@[simp] theorem State.setLaunch_regions (s : State) (l : Launch) : (s.setLaunch l).regions = s.regions := rfl
@[simp] theorem State.setLaunch_agenda (s : State) (l : Launch) : (s.setLaunch l).agenda = s.agenda := rfl
@[simp] theorem State.setLaunch_cur (s : State) (l : Launch) : (s.setLaunch l).cur = s.cur := rfl
@[simp] theorem State.setLaunch_fresh (s : State) (l : Launch) : (s.setLaunch l).fresh = s.fresh := rfl
@[simp] theorem State.setLaunch_nextId (s : State) (l : Launch) : (s.setLaunch l).nextId = s.nextId := rfl

@[simp] theorem State.dropOp_mem (s : State) (id : Nat) : (s.dropOp id).mem = s.mem := rfl
@[simp] theorem State.dropOp_scratch (s : State) (id : Nat) : (s.dropOp id).scratch = s.scratch := rfl
@[simp] theorem State.dropOp_undef (s : State) (id : Nat) : (s.dropOp id).undef = s.undef := rfl
@[simp] theorem State.dropOp_softMem (s : State) (id : Nat) : (s.dropOp id).softMem = s.softMem := rfl
@[simp] theorem State.dropOp_eccMem (s : State) (id : Nat) : (s.dropOp id).eccMem = s.eccMem := rfl
@[simp] theorem State.dropOp_hostMem (s : State) (id : Nat) : (s.dropOp id).hostMem = s.hostMem := rfl
@[simp] theorem State.dropOp_ts (s : State) (id : Nat) : (s.dropOp id).ts = s.ts := rfl
@[simp] theorem State.dropOp_cores (s : State) (id : Nat) : (s.dropOp id).cores = s.cores := rfl
@[simp] theorem State.dropOp_bundles (s : State) (id : Nat) : (s.dropOp id).bundles = s.bundles := rfl
@[simp] theorem State.dropOp_launches (s : State) (id : Nat) : (s.dropOp id).launches = s.launches := rfl
@[simp] theorem State.dropOp_children (s : State) (id : Nat) : (s.dropOp id).children = s.children := rfl
@[simp] theorem State.dropOp_qwaits (s : State) (id : Nat) : (s.dropOp id).qwaits = s.qwaits := rfl
@[simp] theorem State.dropOp_net (s : State) (id : Nat) : (s.dropOp id).net = s.net := rfl
@[simp] theorem State.dropOp_pnet (s : State) (id : Nat) : (s.dropOp id).pnet = s.pnet := rfl
@[simp] theorem State.dropOp_snet (s : State) (id : Nat) : (s.dropOp id).snet = s.snet := rfl
@[simp] theorem State.dropOp_windows (s : State) (id : Nat) : (s.dropOp id).windows = s.windows := rfl
@[simp] theorem State.dropOp_ctxs (s : State) (id : Nat) : (s.dropOp id).ctxs = s.ctxs := rfl
@[simp] theorem State.dropOp_copyQs (s : State) (id : Nat) : (s.dropOp id).copyQs = s.copyQs := rfl
@[simp] theorem State.dropOp_copyTurn (s : State) (id : Nat) : (s.dropOp id).copyTurn = s.copyTurn := rfl
@[simp] theorem State.dropOp_turns (s : State) (id : Nat) : (s.dropOp id).turns = s.turns := rfl
@[simp] theorem State.dropOp_orderNext (s : State) (id : Nat) : (s.dropOp id).orderNext = s.orderNext := rfl
@[simp] theorem State.dropOp_progs (s : State) (id : Nat) : (s.dropOp id).progs = s.progs := rfl
@[simp] theorem State.dropOp_lctx (s : State) (id : Nat) : (s.dropOp id).lctx = s.lctx := rfl
@[simp] theorem State.dropOp_pages (s : State) (id : Nat) : (s.dropOp id).pages = s.pages := rfl
@[simp] theorem State.dropOp_ptBase (s : State) (id : Nat) : (s.dropOp id).ptBase = s.ptBase := rfl
@[simp] theorem State.dropOp_ptSize (s : State) (id : Nat) : (s.dropOp id).ptSize = s.ptSize := rfl
@[simp] theorem State.dropOp_listBase (s : State) (id : Nat) : (s.dropOp id).listBase = s.listBase := rfl
@[simp] theorem State.dropOp_freeFrames (s : State) (id : Nat) : (s.dropOp id).freeFrames = s.freeFrames := rfl
@[simp] theorem State.dropOp_reserved (s : State) (id : Nat) : (s.dropOp id).reserved = s.reserved := rfl
@[simp] theorem State.dropOp_hostSlots (s : State) (id : Nat) : (s.dropOp id).hostSlots = s.hostSlots := rfl
@[simp] theorem State.dropOp_usedHost (s : State) (id : Nat) : (s.dropOp id).usedHost = s.usedHost := rfl
@[simp] theorem State.dropOp_usedBlocks (s : State) (id : Nat) : (s.dropOp id).usedBlocks = s.usedBlocks := rfl
@[simp] theorem State.dropOp_shelf (s : State) (id : Nat) : (s.dropOp id).shelf = s.shelf := rfl
@[simp] theorem State.dropOp_images (s : State) (id : Nat) : (s.dropOp id).images = s.images := rfl
@[simp] theorem State.dropOp_mangles (s : State) (id : Nat) : (s.dropOp id).mangles = s.mangles := rfl
@[simp] theorem State.dropOp_steps (s : State) (id : Nat) : (s.dropOp id).steps = s.steps := rfl
@[simp] theorem State.dropOp_qb (s : State) (id : Nat) : (s.dropOp id).qb = s.qb := rfl
@[simp] theorem State.dropOp_window (s : State) (id : Nat) : (s.dropOp id).window = s.window := rfl
@[simp] theorem State.dropOp_rseq (s : State) (id : Nat) : (s.dropOp id).rseq = s.rseq := rfl
@[simp] theorem State.dropOp_devstat (s : State) (id : Nat) : (s.dropOp id).devstat = s.devstat := rfl
@[simp] theorem State.dropOp_bootCode (s : State) (id : Nat) : (s.dropOp id).bootCode = s.bootCode := rfl
@[simp] theorem State.dropOp_hostseq (s : State) (id : Nat) : (s.dropOp id).hostseq = s.hostseq := rfl
@[simp] theorem State.dropOp_qbind (s : State) (id : Nat) : (s.dropOp id).qbind = s.qbind := rfl
@[simp] theorem State.dropOp_services (s : State) (id : Nat) : (s.dropOp id).services = s.services := rfl
@[simp] theorem State.dropOp_hostRegions (s : State) (id : Nat) : (s.dropOp id).hostRegions = s.hostRegions := rfl
@[simp] theorem State.dropOp_fseq (s : State) (id : Nat) : (s.dropOp id).fseq = s.fseq := rfl
@[simp] theorem State.dropOp_cycle (s : State) (id : Nat) : (s.dropOp id).cycle = s.cycle := rfl
@[simp] theorem State.dropOp_clock (s : State) (id : Nat) : (s.dropOp id).clock = s.clock := rfl
@[simp] theorem State.dropOp_absent (s : State) (id : Nat) : (s.dropOp id).absent = s.absent := rfl
@[simp] theorem State.dropOp_seam (s : State) (id : Nat) : (s.dropOp id).seam = s.seam := rfl
@[simp] theorem State.dropOp_roles (s : State) (id : Nat) : (s.dropOp id).roles = s.roles := rfl
@[simp] theorem State.dropOp_firewall (s : State) (id : Nat) : (s.dropOp id).firewall = s.firewall := rfl
@[simp] theorem State.dropOp_locked (s : State) (id : Nat) : (s.dropOp id).locked = s.locked := rfl
@[simp] theorem State.dropOp_fwDrops (s : State) (id : Nat) : (s.dropOp id).fwDrops = s.fwDrops := rfl
@[simp] theorem State.dropOp_absentCh (s : State) (id : Nat) : (s.dropOp id).absentCh = s.absentCh := rfl
@[simp] theorem State.dropOp_absentK (s : State) (id : Nat) : (s.dropOp id).absentK = s.absentK := rfl
@[simp] theorem State.dropOp_absentL2 (s : State) (id : Nat) : (s.dropOp id).absentL2 = s.absentL2 := rfl
@[simp] theorem State.dropOp_absentCE (s : State) (id : Nat) : (s.dropOp id).absentCE = s.absentCE := rfl
@[simp] theorem State.dropOp_absentIsl (s : State) (id : Nat) : (s.dropOp id).absentIsl = s.absentIsl := rfl
@[simp] theorem State.dropOp_islandMHz (s : State) (id : Nat) : (s.dropOp id).islandMHz = s.islandMHz := rfl
@[simp] theorem State.dropOp_ending (s : State) (id : Nat) : (s.dropOp id).ending = s.ending := rfl
@[simp] theorem State.dropOp_limits (s : State) (id : Nat) : (s.dropOp id).limits = s.limits := rfl
@[simp] theorem State.dropOp_lanes (s : State) (id : Nat) : (s.dropOp id).lanes = s.lanes := rfl
@[simp] theorem State.dropOp_routes (s : State) (id : Nat) : (s.dropOp id).routes = s.routes := rfl
@[simp] theorem State.dropOp_device (s : State) (id : Nat) : (s.dropOp id).device = s.device := rfl
@[simp] theorem State.dropOp_peerHeld (s : State) (id : Nat) : (s.dropOp id).peerHeld = s.peerHeld := rfl
@[simp] theorem State.dropOp_hostX1 (s : State) (id : Nat) : (s.dropOp id).hostX1 = s.hostX1 := rfl
@[simp] theorem State.dropOp_digests (s : State) (id : Nat) : (s.dropOp id).digests = s.digests := rfl
@[simp] theorem State.dropOp_ports (s : State) (id : Nat) : (s.dropOp id).ports = s.ports := rfl
@[simp] theorem State.dropOp_leases (s : State) (id : Nat) : (s.dropOp id).leases = s.leases := rfl
@[simp] theorem State.dropOp_reports (s : State) (id : Nat) : (s.dropOp id).reports = s.reports := rfl
@[simp] theorem State.dropOp_peerOut (s : State) (id : Nat) : (s.dropOp id).peerOut = s.peerOut := rfl
@[simp] theorem State.dropOp_hostOut (s : State) (id : Nat) : (s.dropOp id).hostOut = s.hostOut := rfl
@[simp] theorem State.dropOp_regions (s : State) (id : Nat) : (s.dropOp id).regions = s.regions := rfl
@[simp] theorem State.dropOp_agenda (s : State) (id : Nat) : (s.dropOp id).agenda = s.agenda := rfl
@[simp] theorem State.dropOp_cur (s : State) (id : Nat) : (s.dropOp id).cur = s.cur := rfl
@[simp] theorem State.dropOp_fresh (s : State) (id : Nat) : (s.dropOp id).fresh = s.fresh := rfl
@[simp] theorem State.dropOp_nextId (s : State) (id : Nat) : (s.dropOp id).nextId = s.nextId := rfl

@[simp] theorem State.setOp_mem (s : State) (o : Op) : (s.setOp o).mem = s.mem := rfl
@[simp] theorem State.setOp_scratch (s : State) (o : Op) : (s.setOp o).scratch = s.scratch := rfl
@[simp] theorem State.setOp_undef (s : State) (o : Op) : (s.setOp o).undef = s.undef := rfl
@[simp] theorem State.setOp_softMem (s : State) (o : Op) : (s.setOp o).softMem = s.softMem := rfl
@[simp] theorem State.setOp_eccMem (s : State) (o : Op) : (s.setOp o).eccMem = s.eccMem := rfl
@[simp] theorem State.setOp_hostMem (s : State) (o : Op) : (s.setOp o).hostMem = s.hostMem := rfl
@[simp] theorem State.setOp_ts (s : State) (o : Op) : (s.setOp o).ts = s.ts := rfl
@[simp] theorem State.setOp_cores (s : State) (o : Op) : (s.setOp o).cores = s.cores := rfl
@[simp] theorem State.setOp_bundles (s : State) (o : Op) : (s.setOp o).bundles = s.bundles := rfl
@[simp] theorem State.setOp_launches (s : State) (o : Op) : (s.setOp o).launches = s.launches := rfl
@[simp] theorem State.setOp_children (s : State) (o : Op) : (s.setOp o).children = s.children := rfl
@[simp] theorem State.setOp_qwaits (s : State) (o : Op) : (s.setOp o).qwaits = s.qwaits := rfl
@[simp] theorem State.setOp_net (s : State) (o : Op) : (s.setOp o).net = s.net := rfl
@[simp] theorem State.setOp_pnet (s : State) (o : Op) : (s.setOp o).pnet = s.pnet := rfl
@[simp] theorem State.setOp_snet (s : State) (o : Op) : (s.setOp o).snet = s.snet := rfl
@[simp] theorem State.setOp_windows (s : State) (o : Op) : (s.setOp o).windows = s.windows := rfl
@[simp] theorem State.setOp_ctxs (s : State) (o : Op) : (s.setOp o).ctxs = s.ctxs := rfl
@[simp] theorem State.setOp_copyQs (s : State) (o : Op) : (s.setOp o).copyQs = s.copyQs := rfl
@[simp] theorem State.setOp_copyTurn (s : State) (o : Op) : (s.setOp o).copyTurn = s.copyTurn := rfl
@[simp] theorem State.setOp_turns (s : State) (o : Op) : (s.setOp o).turns = s.turns := rfl
@[simp] theorem State.setOp_orderNext (s : State) (o : Op) : (s.setOp o).orderNext = s.orderNext := rfl
@[simp] theorem State.setOp_progs (s : State) (o : Op) : (s.setOp o).progs = s.progs := rfl
@[simp] theorem State.setOp_lctx (s : State) (o : Op) : (s.setOp o).lctx = s.lctx := rfl
@[simp] theorem State.setOp_pages (s : State) (o : Op) : (s.setOp o).pages = s.pages := rfl
@[simp] theorem State.setOp_ptBase (s : State) (o : Op) : (s.setOp o).ptBase = s.ptBase := rfl
@[simp] theorem State.setOp_ptSize (s : State) (o : Op) : (s.setOp o).ptSize = s.ptSize := rfl
@[simp] theorem State.setOp_listBase (s : State) (o : Op) : (s.setOp o).listBase = s.listBase := rfl
@[simp] theorem State.setOp_freeFrames (s : State) (o : Op) : (s.setOp o).freeFrames = s.freeFrames := rfl
@[simp] theorem State.setOp_reserved (s : State) (o : Op) : (s.setOp o).reserved = s.reserved := rfl
@[simp] theorem State.setOp_hostSlots (s : State) (o : Op) : (s.setOp o).hostSlots = s.hostSlots := rfl
@[simp] theorem State.setOp_usedHost (s : State) (o : Op) : (s.setOp o).usedHost = s.usedHost := rfl
@[simp] theorem State.setOp_usedBlocks (s : State) (o : Op) : (s.setOp o).usedBlocks = s.usedBlocks := rfl
@[simp] theorem State.setOp_shelf (s : State) (o : Op) : (s.setOp o).shelf = s.shelf := rfl
@[simp] theorem State.setOp_images (s : State) (o : Op) : (s.setOp o).images = s.images := rfl
@[simp] theorem State.setOp_mangles (s : State) (o : Op) : (s.setOp o).mangles = s.mangles := rfl
@[simp] theorem State.setOp_steps (s : State) (o : Op) : (s.setOp o).steps = s.steps := rfl
@[simp] theorem State.setOp_qb (s : State) (o : Op) : (s.setOp o).qb = s.qb := rfl
@[simp] theorem State.setOp_window (s : State) (o : Op) : (s.setOp o).window = s.window := rfl
@[simp] theorem State.setOp_rseq (s : State) (o : Op) : (s.setOp o).rseq = s.rseq := rfl
@[simp] theorem State.setOp_devstat (s : State) (o : Op) : (s.setOp o).devstat = s.devstat := rfl
@[simp] theorem State.setOp_bootCode (s : State) (o : Op) : (s.setOp o).bootCode = s.bootCode := rfl
@[simp] theorem State.setOp_hostseq (s : State) (o : Op) : (s.setOp o).hostseq = s.hostseq := rfl
@[simp] theorem State.setOp_qbind (s : State) (o : Op) : (s.setOp o).qbind = s.qbind := rfl
@[simp] theorem State.setOp_services (s : State) (o : Op) : (s.setOp o).services = s.services := rfl
@[simp] theorem State.setOp_hostRegions (s : State) (o : Op) : (s.setOp o).hostRegions = s.hostRegions := rfl
@[simp] theorem State.setOp_fseq (s : State) (o : Op) : (s.setOp o).fseq = s.fseq := rfl
@[simp] theorem State.setOp_cycle (s : State) (o : Op) : (s.setOp o).cycle = s.cycle := rfl
@[simp] theorem State.setOp_clock (s : State) (o : Op) : (s.setOp o).clock = s.clock := rfl
@[simp] theorem State.setOp_absent (s : State) (o : Op) : (s.setOp o).absent = s.absent := rfl
@[simp] theorem State.setOp_seam (s : State) (o : Op) : (s.setOp o).seam = s.seam := rfl
@[simp] theorem State.setOp_roles (s : State) (o : Op) : (s.setOp o).roles = s.roles := rfl
@[simp] theorem State.setOp_firewall (s : State) (o : Op) : (s.setOp o).firewall = s.firewall := rfl
@[simp] theorem State.setOp_locked (s : State) (o : Op) : (s.setOp o).locked = s.locked := rfl
@[simp] theorem State.setOp_fwDrops (s : State) (o : Op) : (s.setOp o).fwDrops = s.fwDrops := rfl
@[simp] theorem State.setOp_absentCh (s : State) (o : Op) : (s.setOp o).absentCh = s.absentCh := rfl
@[simp] theorem State.setOp_absentK (s : State) (o : Op) : (s.setOp o).absentK = s.absentK := rfl
@[simp] theorem State.setOp_absentL2 (s : State) (o : Op) : (s.setOp o).absentL2 = s.absentL2 := rfl
@[simp] theorem State.setOp_absentCE (s : State) (o : Op) : (s.setOp o).absentCE = s.absentCE := rfl
@[simp] theorem State.setOp_absentIsl (s : State) (o : Op) : (s.setOp o).absentIsl = s.absentIsl := rfl
@[simp] theorem State.setOp_islandMHz (s : State) (o : Op) : (s.setOp o).islandMHz = s.islandMHz := rfl
@[simp] theorem State.setOp_ending (s : State) (o : Op) : (s.setOp o).ending = s.ending := rfl
@[simp] theorem State.setOp_limits (s : State) (o : Op) : (s.setOp o).limits = s.limits := rfl
@[simp] theorem State.setOp_lanes (s : State) (o : Op) : (s.setOp o).lanes = s.lanes := rfl
@[simp] theorem State.setOp_routes (s : State) (o : Op) : (s.setOp o).routes = s.routes := rfl
@[simp] theorem State.setOp_device (s : State) (o : Op) : (s.setOp o).device = s.device := rfl
@[simp] theorem State.setOp_peerHeld (s : State) (o : Op) : (s.setOp o).peerHeld = s.peerHeld := rfl
@[simp] theorem State.setOp_hostX1 (s : State) (o : Op) : (s.setOp o).hostX1 = s.hostX1 := rfl
@[simp] theorem State.setOp_digests (s : State) (o : Op) : (s.setOp o).digests = s.digests := rfl
@[simp] theorem State.setOp_ports (s : State) (o : Op) : (s.setOp o).ports = s.ports := rfl
@[simp] theorem State.setOp_leases (s : State) (o : Op) : (s.setOp o).leases = s.leases := rfl
@[simp] theorem State.setOp_reports (s : State) (o : Op) : (s.setOp o).reports = s.reports := rfl
@[simp] theorem State.setOp_peerOut (s : State) (o : Op) : (s.setOp o).peerOut = s.peerOut := rfl
@[simp] theorem State.setOp_hostOut (s : State) (o : Op) : (s.setOp o).hostOut = s.hostOut := rfl
@[simp] theorem State.setOp_regions (s : State) (o : Op) : (s.setOp o).regions = s.regions := rfl
@[simp] theorem State.setOp_agenda (s : State) (o : Op) : (s.setOp o).agenda = s.agenda := rfl
@[simp] theorem State.setOp_cur (s : State) (o : Op) : (s.setOp o).cur = s.cur := rfl
@[simp] theorem State.setOp_fresh (s : State) (o : Op) : (s.setOp o).fresh = s.fresh := rfl
@[simp] theorem State.setOp_nextId (s : State) (o : Op) : (s.setOp o).nextId = s.nextId := rfl

@[simp] theorem State.post_mem (s : State) (f : Flight) : (s.post f).mem = s.mem := rfl
@[simp] theorem State.post_scratch (s : State) (f : Flight) : (s.post f).scratch = s.scratch := rfl
@[simp] theorem State.post_undef (s : State) (f : Flight) : (s.post f).undef = s.undef := rfl
@[simp] theorem State.post_softMem (s : State) (f : Flight) : (s.post f).softMem = s.softMem := rfl
@[simp] theorem State.post_eccMem (s : State) (f : Flight) : (s.post f).eccMem = s.eccMem := rfl
@[simp] theorem State.post_hostMem (s : State) (f : Flight) : (s.post f).hostMem = s.hostMem := rfl
@[simp] theorem State.post_ts (s : State) (f : Flight) : (s.post f).ts = s.ts := rfl
@[simp] theorem State.post_cores (s : State) (f : Flight) : (s.post f).cores = s.cores := rfl
@[simp] theorem State.post_bundles (s : State) (f : Flight) : (s.post f).bundles = s.bundles := rfl
@[simp] theorem State.post_ops (s : State) (f : Flight) : (s.post f).ops = s.ops := rfl
@[simp] theorem State.post_launches (s : State) (f : Flight) : (s.post f).launches = s.launches := rfl
@[simp] theorem State.post_children (s : State) (f : Flight) : (s.post f).children = s.children := rfl
@[simp] theorem State.post_qwaits (s : State) (f : Flight) : (s.post f).qwaits = s.qwaits := rfl
@[simp] theorem State.post_pnet (s : State) (f : Flight) : (s.post f).pnet = s.pnet := rfl
@[simp] theorem State.post_snet (s : State) (f : Flight) : (s.post f).snet = s.snet := rfl
@[simp] theorem State.post_windows (s : State) (f : Flight) : (s.post f).windows = s.windows := rfl
@[simp] theorem State.post_ctxs (s : State) (f : Flight) : (s.post f).ctxs = s.ctxs := rfl
@[simp] theorem State.post_copyQs (s : State) (f : Flight) : (s.post f).copyQs = s.copyQs := rfl
@[simp] theorem State.post_copyTurn (s : State) (f : Flight) : (s.post f).copyTurn = s.copyTurn := rfl
@[simp] theorem State.post_turns (s : State) (f : Flight) : (s.post f).turns = s.turns := rfl
@[simp] theorem State.post_orderNext (s : State) (f : Flight) : (s.post f).orderNext = s.orderNext := rfl
@[simp] theorem State.post_progs (s : State) (f : Flight) : (s.post f).progs = s.progs := rfl
@[simp] theorem State.post_lctx (s : State) (f : Flight) : (s.post f).lctx = s.lctx := rfl
@[simp] theorem State.post_pages (s : State) (f : Flight) : (s.post f).pages = s.pages := rfl
@[simp] theorem State.post_ptBase (s : State) (f : Flight) : (s.post f).ptBase = s.ptBase := rfl
@[simp] theorem State.post_ptSize (s : State) (f : Flight) : (s.post f).ptSize = s.ptSize := rfl
@[simp] theorem State.post_listBase (s : State) (f : Flight) : (s.post f).listBase = s.listBase := rfl
@[simp] theorem State.post_freeFrames (s : State) (f : Flight) : (s.post f).freeFrames = s.freeFrames := rfl
@[simp] theorem State.post_reserved (s : State) (f : Flight) : (s.post f).reserved = s.reserved := rfl
@[simp] theorem State.post_hostSlots (s : State) (f : Flight) : (s.post f).hostSlots = s.hostSlots := rfl
@[simp] theorem State.post_usedHost (s : State) (f : Flight) : (s.post f).usedHost = s.usedHost := rfl
@[simp] theorem State.post_usedBlocks (s : State) (f : Flight) : (s.post f).usedBlocks = s.usedBlocks := rfl
@[simp] theorem State.post_shelf (s : State) (f : Flight) : (s.post f).shelf = s.shelf := rfl
@[simp] theorem State.post_images (s : State) (f : Flight) : (s.post f).images = s.images := rfl
@[simp] theorem State.post_mangles (s : State) (f : Flight) : (s.post f).mangles = s.mangles := rfl
@[simp] theorem State.post_steps (s : State) (f : Flight) : (s.post f).steps = s.steps := rfl
@[simp] theorem State.post_qb (s : State) (f : Flight) : (s.post f).qb = s.qb := rfl
@[simp] theorem State.post_window (s : State) (f : Flight) : (s.post f).window = s.window := rfl
@[simp] theorem State.post_rseq (s : State) (f : Flight) : (s.post f).rseq = s.rseq := rfl
@[simp] theorem State.post_devstat (s : State) (f : Flight) : (s.post f).devstat = s.devstat := rfl
@[simp] theorem State.post_bootCode (s : State) (f : Flight) : (s.post f).bootCode = s.bootCode := rfl
@[simp] theorem State.post_hostseq (s : State) (f : Flight) : (s.post f).hostseq = s.hostseq := rfl
@[simp] theorem State.post_qbind (s : State) (f : Flight) : (s.post f).qbind = s.qbind := rfl
@[simp] theorem State.post_services (s : State) (f : Flight) : (s.post f).services = s.services := rfl
@[simp] theorem State.post_hostRegions (s : State) (f : Flight) : (s.post f).hostRegions = s.hostRegions := rfl
@[simp] theorem State.post_fseq (s : State) (f : Flight) : (s.post f).fseq = s.fseq := rfl
@[simp] theorem State.post_cycle (s : State) (f : Flight) : (s.post f).cycle = s.cycle := rfl
@[simp] theorem State.post_clock (s : State) (f : Flight) : (s.post f).clock = s.clock := rfl
@[simp] theorem State.post_absent (s : State) (f : Flight) : (s.post f).absent = s.absent := rfl
@[simp] theorem State.post_seam (s : State) (f : Flight) : (s.post f).seam = s.seam := rfl
@[simp] theorem State.post_roles (s : State) (f : Flight) : (s.post f).roles = s.roles := rfl
@[simp] theorem State.post_firewall (s : State) (f : Flight) : (s.post f).firewall = s.firewall := rfl
@[simp] theorem State.post_locked (s : State) (f : Flight) : (s.post f).locked = s.locked := rfl
@[simp] theorem State.post_fwDrops (s : State) (f : Flight) : (s.post f).fwDrops = s.fwDrops := rfl
@[simp] theorem State.post_absentCh (s : State) (f : Flight) : (s.post f).absentCh = s.absentCh := rfl
@[simp] theorem State.post_absentK (s : State) (f : Flight) : (s.post f).absentK = s.absentK := rfl
@[simp] theorem State.post_absentL2 (s : State) (f : Flight) : (s.post f).absentL2 = s.absentL2 := rfl
@[simp] theorem State.post_absentCE (s : State) (f : Flight) : (s.post f).absentCE = s.absentCE := rfl
@[simp] theorem State.post_absentIsl (s : State) (f : Flight) : (s.post f).absentIsl = s.absentIsl := rfl
@[simp] theorem State.post_islandMHz (s : State) (f : Flight) : (s.post f).islandMHz = s.islandMHz := rfl
@[simp] theorem State.post_ending (s : State) (f : Flight) : (s.post f).ending = s.ending := rfl
@[simp] theorem State.post_limits (s : State) (f : Flight) : (s.post f).limits = s.limits := rfl
@[simp] theorem State.post_lanes (s : State) (f : Flight) : (s.post f).lanes = s.lanes := rfl
@[simp] theorem State.post_routes (s : State) (f : Flight) : (s.post f).routes = s.routes := rfl
@[simp] theorem State.post_device (s : State) (f : Flight) : (s.post f).device = s.device := rfl
@[simp] theorem State.post_peerHeld (s : State) (f : Flight) : (s.post f).peerHeld = s.peerHeld := rfl
@[simp] theorem State.post_hostX1 (s : State) (f : Flight) : (s.post f).hostX1 = s.hostX1 := rfl
@[simp] theorem State.post_digests (s : State) (f : Flight) : (s.post f).digests = s.digests := rfl
@[simp] theorem State.post_ports (s : State) (f : Flight) : (s.post f).ports = s.ports := rfl
@[simp] theorem State.post_leases (s : State) (f : Flight) : (s.post f).leases = s.leases := rfl
@[simp] theorem State.post_reports (s : State) (f : Flight) : (s.post f).reports = s.reports := rfl
@[simp] theorem State.post_peerOut (s : State) (f : Flight) : (s.post f).peerOut = s.peerOut := rfl
@[simp] theorem State.post_hostOut (s : State) (f : Flight) : (s.post f).hostOut = s.hostOut := rfl
@[simp] theorem State.post_regions (s : State) (f : Flight) : (s.post f).regions = s.regions := rfl
@[simp] theorem State.post_agenda (s : State) (f : Flight) : (s.post f).agenda = s.agenda := rfl
@[simp] theorem State.post_cur (s : State) (f : Flight) : (s.post f).cur = s.cur := rfl
@[simp] theorem State.post_fresh (s : State) (f : Flight) : (s.post f).fresh = s.fresh := rfl

@[simp] theorem State.stamped_mem (s : State) : (s.stamped).mem = s.mem := rfl
@[simp] theorem State.stamped_scratch (s : State) : (s.stamped).scratch = s.scratch := rfl
@[simp] theorem State.stamped_undef (s : State) : (s.stamped).undef = s.undef := rfl
@[simp] theorem State.stamped_softMem (s : State) : (s.stamped).softMem = s.softMem := rfl
@[simp] theorem State.stamped_eccMem (s : State) : (s.stamped).eccMem = s.eccMem := rfl
@[simp] theorem State.stamped_hostMem (s : State) : (s.stamped).hostMem = s.hostMem := rfl
@[simp] theorem State.stamped_ts (s : State) : (s.stamped).ts = s.ts := rfl
@[simp] theorem State.stamped_cores (s : State) : (s.stamped).cores = s.cores := rfl
@[simp] theorem State.stamped_bundles (s : State) : (s.stamped).bundles = s.bundles := rfl
@[simp] theorem State.stamped_ops (s : State) : (s.stamped).ops = s.ops := rfl
@[simp] theorem State.stamped_launches (s : State) : (s.stamped).launches = s.launches := rfl
@[simp] theorem State.stamped_children (s : State) : (s.stamped).children = s.children := rfl
@[simp] theorem State.stamped_qwaits (s : State) : (s.stamped).qwaits = s.qwaits := rfl
@[simp] theorem State.stamped_net (s : State) : (s.stamped).net = s.net := rfl
@[simp] theorem State.stamped_pnet (s : State) : (s.stamped).pnet = s.pnet := rfl
@[simp] theorem State.stamped_snet (s : State) : (s.stamped).snet = s.snet := rfl
@[simp] theorem State.stamped_windows (s : State) : (s.stamped).windows = s.windows := rfl
@[simp] theorem State.stamped_ctxs (s : State) : (s.stamped).ctxs = s.ctxs := rfl
@[simp] theorem State.stamped_copyQs (s : State) : (s.stamped).copyQs = s.copyQs := rfl
@[simp] theorem State.stamped_copyTurn (s : State) : (s.stamped).copyTurn = s.copyTurn := rfl
@[simp] theorem State.stamped_turns (s : State) : (s.stamped).turns = s.turns := rfl
@[simp] theorem State.stamped_orderNext (s : State) : (s.stamped).orderNext = s.orderNext := rfl
@[simp] theorem State.stamped_progs (s : State) : (s.stamped).progs = s.progs := rfl
@[simp] theorem State.stamped_lctx (s : State) : (s.stamped).lctx = s.lctx := rfl
@[simp] theorem State.stamped_pages (s : State) : (s.stamped).pages = s.pages := rfl
@[simp] theorem State.stamped_ptBase (s : State) : (s.stamped).ptBase = s.ptBase := rfl
@[simp] theorem State.stamped_ptSize (s : State) : (s.stamped).ptSize = s.ptSize := rfl
@[simp] theorem State.stamped_listBase (s : State) : (s.stamped).listBase = s.listBase := rfl
@[simp] theorem State.stamped_freeFrames (s : State) : (s.stamped).freeFrames = s.freeFrames := rfl
@[simp] theorem State.stamped_reserved (s : State) : (s.stamped).reserved = s.reserved := rfl
@[simp] theorem State.stamped_hostSlots (s : State) : (s.stamped).hostSlots = s.hostSlots := rfl
@[simp] theorem State.stamped_usedHost (s : State) : (s.stamped).usedHost = s.usedHost := rfl
@[simp] theorem State.stamped_usedBlocks (s : State) : (s.stamped).usedBlocks = s.usedBlocks := rfl
@[simp] theorem State.stamped_shelf (s : State) : (s.stamped).shelf = s.shelf := rfl
@[simp] theorem State.stamped_images (s : State) : (s.stamped).images = s.images := rfl
@[simp] theorem State.stamped_mangles (s : State) : (s.stamped).mangles = s.mangles := rfl
@[simp] theorem State.stamped_steps (s : State) : (s.stamped).steps = s.steps := rfl
@[simp] theorem State.stamped_qb (s : State) : (s.stamped).qb = s.qb := rfl
@[simp] theorem State.stamped_window (s : State) : (s.stamped).window = s.window := rfl
@[simp] theorem State.stamped_devstat (s : State) : (s.stamped).devstat = s.devstat := rfl
@[simp] theorem State.stamped_bootCode (s : State) : (s.stamped).bootCode = s.bootCode := rfl
@[simp] theorem State.stamped_rseq (s : State) : (s.stamped).rseq = s.rseq := rfl
@[simp] theorem State.stamped_hostseq (s : State) : (s.stamped).hostseq = s.hostseq := rfl
@[simp] theorem State.stamped_qbind (s : State) : (s.stamped).qbind = s.qbind := rfl
@[simp] theorem State.stamped_services (s : State) : (s.stamped).services = s.services := rfl
@[simp] theorem State.stamped_hostRegions (s : State) : (s.stamped).hostRegions = s.hostRegions := rfl
@[simp] theorem State.stamped_cycle (s : State) : (s.stamped).cycle = s.cycle := rfl
@[simp] theorem State.stamped_clock (s : State) : (s.stamped).clock = s.clock := rfl
@[simp] theorem State.stamped_absent (s : State) : (s.stamped).absent = s.absent := rfl
@[simp] theorem State.stamped_seam (s : State) : (s.stamped).seam = s.seam := rfl
@[simp] theorem State.stamped_roles (s : State) : (s.stamped).roles = s.roles := rfl
@[simp] theorem State.stamped_firewall (s : State) : (s.stamped).firewall = s.firewall := rfl
@[simp] theorem State.stamped_locked (s : State) : (s.stamped).locked = s.locked := rfl
@[simp] theorem State.stamped_fwDrops (s : State) : (s.stamped).fwDrops = s.fwDrops := rfl
@[simp] theorem State.stamped_absentCh (s : State) : (s.stamped).absentCh = s.absentCh := rfl
@[simp] theorem State.stamped_absentK (s : State) : (s.stamped).absentK = s.absentK := rfl
@[simp] theorem State.stamped_absentL2 (s : State) : (s.stamped).absentL2 = s.absentL2 := rfl
@[simp] theorem State.stamped_absentCE (s : State) : (s.stamped).absentCE = s.absentCE := rfl
@[simp] theorem State.stamped_absentIsl (s : State) : (s.stamped).absentIsl = s.absentIsl := rfl
@[simp] theorem State.stamped_islandMHz (s : State) : (s.stamped).islandMHz = s.islandMHz := rfl
@[simp] theorem State.stamped_ending (s : State) : (s.stamped).ending = s.ending := rfl
@[simp] theorem State.stamped_limits (s : State) : (s.stamped).limits = s.limits := rfl
@[simp] theorem State.stamped_lanes (s : State) : (s.stamped).lanes = s.lanes := rfl
@[simp] theorem State.stamped_routes (s : State) : (s.stamped).routes = s.routes := rfl
@[simp] theorem State.stamped_device (s : State) : (s.stamped).device = s.device := rfl
@[simp] theorem State.stamped_peerHeld (s : State) : (s.stamped).peerHeld = s.peerHeld := rfl
@[simp] theorem State.stamped_hostX1 (s : State) : (s.stamped).hostX1 = s.hostX1 := rfl
@[simp] theorem State.stamped_digests (s : State) : (s.stamped).digests = s.digests := rfl
@[simp] theorem State.stamped_ports (s : State) : (s.stamped).ports = s.ports := rfl
@[simp] theorem State.stamped_leases (s : State) : (s.stamped).leases = s.leases := rfl
@[simp] theorem State.stamped_reports (s : State) : (s.stamped).reports = s.reports := rfl
@[simp] theorem State.stamped_peerOut (s : State) : (s.stamped).peerOut = s.peerOut := rfl
@[simp] theorem State.stamped_hostOut (s : State) : (s.stamped).hostOut = s.hostOut := rfl
@[simp] theorem State.stamped_regions (s : State) : (s.stamped).regions = s.regions := rfl
@[simp] theorem State.stamped_agenda (s : State) : (s.stamped).agenda = s.agenda := rfl
@[simp] theorem State.stamped_cur (s : State) : (s.stamped).cur = s.cur := rfl
@[simp] theorem State.stamped_fresh (s : State) : (s.stamped).fresh = s.fresh := rfl
@[simp] theorem State.stamped_nextId (s : State) : (s.stamped).nextId = s.nextId := rfl

@[simp] theorem State.onLaunch_mem (s : State) (l : Option Half) (f : Launch → Launch) : (s.onLaunch l f).mem = s.mem := by cases l <;> rfl
@[simp] theorem State.onLaunch_scratch (s : State) (l : Option Half) (f : Launch → Launch) : (s.onLaunch l f).scratch = s.scratch := by cases l <;> rfl
@[simp] theorem State.onLaunch_undef (s : State) (l : Option Half) (f : Launch → Launch) : (s.onLaunch l f).undef = s.undef := by cases l <;> rfl
@[simp] theorem State.onLaunch_softMem (s : State) (l : Option Half) (f : Launch → Launch) : (s.onLaunch l f).softMem = s.softMem := by cases l <;> rfl
@[simp] theorem State.onLaunch_eccMem (s : State) (l : Option Half) (f : Launch → Launch) : (s.onLaunch l f).eccMem = s.eccMem := by cases l <;> rfl
@[simp] theorem State.onLaunch_hostMem (s : State) (l : Option Half) (f : Launch → Launch) : (s.onLaunch l f).hostMem = s.hostMem := by cases l <;> rfl
@[simp] theorem State.onLaunch_ts (s : State) (l : Option Half) (f : Launch → Launch) : (s.onLaunch l f).ts = s.ts := by cases l <;> rfl
@[simp] theorem State.onLaunch_cores (s : State) (l : Option Half) (f : Launch → Launch) : (s.onLaunch l f).cores = s.cores := by cases l <;> rfl
@[simp] theorem State.onLaunch_bundles (s : State) (l : Option Half) (f : Launch → Launch) : (s.onLaunch l f).bundles = s.bundles := by cases l <;> rfl
@[simp] theorem State.onLaunch_ops (s : State) (l : Option Half) (f : Launch → Launch) : (s.onLaunch l f).ops = s.ops := by cases l <;> rfl
@[simp] theorem State.onLaunch_children (s : State) (l : Option Half) (f : Launch → Launch) : (s.onLaunch l f).children = s.children := by cases l <;> rfl
@[simp] theorem State.onLaunch_qwaits (s : State) (l : Option Half) (f : Launch → Launch) : (s.onLaunch l f).qwaits = s.qwaits := by cases l <;> rfl
@[simp] theorem State.onLaunch_net (s : State) (l : Option Half) (f : Launch → Launch) : (s.onLaunch l f).net = s.net := by cases l <;> rfl
@[simp] theorem State.onLaunch_pnet (s : State) (l : Option Half) (f : Launch → Launch) : (s.onLaunch l f).pnet = s.pnet := by cases l <;> rfl
@[simp] theorem State.onLaunch_snet (s : State) (l : Option Half) (f : Launch → Launch) : (s.onLaunch l f).snet = s.snet := by cases l <;> rfl
@[simp] theorem State.onLaunch_windows (s : State) (l : Option Half) (f : Launch → Launch) : (s.onLaunch l f).windows = s.windows := by cases l <;> rfl
@[simp] theorem State.onLaunch_ctxs (s : State) (l : Option Half) (f : Launch → Launch) : (s.onLaunch l f).ctxs = s.ctxs := by cases l <;> rfl
@[simp] theorem State.onLaunch_copyQs (s : State) (l : Option Half) (f : Launch → Launch) : (s.onLaunch l f).copyQs = s.copyQs := by cases l <;> rfl
@[simp] theorem State.onLaunch_copyTurn (s : State) (l : Option Half) (f : Launch → Launch) : (s.onLaunch l f).copyTurn = s.copyTurn := by cases l <;> rfl
@[simp] theorem State.onLaunch_turns (s : State) (l : Option Half) (f : Launch → Launch) : (s.onLaunch l f).turns = s.turns := by cases l <;> rfl
@[simp] theorem State.onLaunch_orderNext (s : State) (l : Option Half) (f : Launch → Launch) : (s.onLaunch l f).orderNext = s.orderNext := by cases l <;> rfl
@[simp] theorem State.onLaunch_progs (s : State) (l : Option Half) (f : Launch → Launch) : (s.onLaunch l f).progs = s.progs := by cases l <;> rfl
@[simp] theorem State.onLaunch_lctx (s : State) (l : Option Half) (f : Launch → Launch) : (s.onLaunch l f).lctx = s.lctx := by cases l <;> rfl
@[simp] theorem State.onLaunch_pages (s : State) (l : Option Half) (f : Launch → Launch) : (s.onLaunch l f).pages = s.pages := by cases l <;> rfl
@[simp] theorem State.onLaunch_ptBase (s : State) (l : Option Half) (f : Launch → Launch) : (s.onLaunch l f).ptBase = s.ptBase := by cases l <;> rfl
@[simp] theorem State.onLaunch_ptSize (s : State) (l : Option Half) (f : Launch → Launch) : (s.onLaunch l f).ptSize = s.ptSize := by cases l <;> rfl
@[simp] theorem State.onLaunch_listBase (s : State) (l : Option Half) (f : Launch → Launch) : (s.onLaunch l f).listBase = s.listBase := by cases l <;> rfl
@[simp] theorem State.onLaunch_freeFrames (s : State) (l : Option Half) (f : Launch → Launch) : (s.onLaunch l f).freeFrames = s.freeFrames := by cases l <;> rfl
@[simp] theorem State.onLaunch_reserved (s : State) (l : Option Half) (f : Launch → Launch) : (s.onLaunch l f).reserved = s.reserved := by cases l <;> rfl
@[simp] theorem State.onLaunch_hostSlots (s : State) (l : Option Half) (f : Launch → Launch) : (s.onLaunch l f).hostSlots = s.hostSlots := by cases l <;> rfl
@[simp] theorem State.onLaunch_usedHost (s : State) (l : Option Half) (f : Launch → Launch) : (s.onLaunch l f).usedHost = s.usedHost := by cases l <;> rfl
@[simp] theorem State.onLaunch_usedBlocks (s : State) (l : Option Half) (f : Launch → Launch) : (s.onLaunch l f).usedBlocks = s.usedBlocks := by cases l <;> rfl
@[simp] theorem State.onLaunch_shelf (s : State) (l : Option Half) (f : Launch → Launch) : (s.onLaunch l f).shelf = s.shelf := by cases l <;> rfl
@[simp] theorem State.onLaunch_images (s : State) (l : Option Half) (f : Launch → Launch) : (s.onLaunch l f).images = s.images := by cases l <;> rfl
@[simp] theorem State.onLaunch_mangles (s : State) (l : Option Half) (f : Launch → Launch) : (s.onLaunch l f).mangles = s.mangles := by cases l <;> rfl
@[simp] theorem State.onLaunch_steps (s : State) (l : Option Half) (f : Launch → Launch) : (s.onLaunch l f).steps = s.steps := by cases l <;> rfl
@[simp] theorem State.onLaunch_qb (s : State) (l : Option Half) (f : Launch → Launch) : (s.onLaunch l f).qb = s.qb := by cases l <;> rfl
@[simp] theorem State.onLaunch_window (s : State) (l : Option Half) (f : Launch → Launch) : (s.onLaunch l f).window = s.window := by cases l <;> rfl
@[simp] theorem State.onLaunch_rseq (s : State) (l : Option Half) (f : Launch → Launch) : (s.onLaunch l f).rseq = s.rseq := by cases l <;> rfl
@[simp] theorem State.onLaunch_devstat (s : State) (l : Option Half) (f : Launch → Launch) : (s.onLaunch l f).devstat = s.devstat := by cases l <;> rfl
@[simp] theorem State.onLaunch_bootCode (s : State) (l : Option Half) (f : Launch → Launch) : (s.onLaunch l f).bootCode = s.bootCode := by cases l <;> rfl
@[simp] theorem State.onLaunch_hostseq (s : State) (l : Option Half) (f : Launch → Launch) : (s.onLaunch l f).hostseq = s.hostseq := by cases l <;> rfl
@[simp] theorem State.onLaunch_qbind (s : State) (l : Option Half) (f : Launch → Launch) : (s.onLaunch l f).qbind = s.qbind := by cases l <;> rfl
@[simp] theorem State.onLaunch_services (s : State) (l : Option Half) (f : Launch → Launch) : (s.onLaunch l f).services = s.services := by cases l <;> rfl
@[simp] theorem State.onLaunch_hostRegions (s : State) (l : Option Half) (f : Launch → Launch) : (s.onLaunch l f).hostRegions = s.hostRegions := by cases l <;> rfl
@[simp] theorem State.onLaunch_fseq (s : State) (l : Option Half) (f : Launch → Launch) : (s.onLaunch l f).fseq = s.fseq := by cases l <;> rfl
@[simp] theorem State.onLaunch_cycle (s : State) (l : Option Half) (f : Launch → Launch) : (s.onLaunch l f).cycle = s.cycle := by cases l <;> rfl
@[simp] theorem State.onLaunch_clock (s : State) (l : Option Half) (f : Launch → Launch) : (s.onLaunch l f).clock = s.clock := by cases l <;> rfl
@[simp] theorem State.onLaunch_absent (s : State) (l : Option Half) (f : Launch → Launch) : (s.onLaunch l f).absent = s.absent := by cases l <;> rfl
@[simp] theorem State.onLaunch_seam (s : State) (l : Option Half) (f : Launch → Launch) : (s.onLaunch l f).seam = s.seam := by cases l <;> rfl
@[simp] theorem State.onLaunch_roles (s : State) (l : Option Half) (f : Launch → Launch) : (s.onLaunch l f).roles = s.roles := by cases l <;> rfl
@[simp] theorem State.onLaunch_firewall (s : State) (l : Option Half) (f : Launch → Launch) : (s.onLaunch l f).firewall = s.firewall := by cases l <;> rfl
@[simp] theorem State.onLaunch_locked (s : State) (l : Option Half) (f : Launch → Launch) : (s.onLaunch l f).locked = s.locked := by cases l <;> rfl
@[simp] theorem State.onLaunch_fwDrops (s : State) (l : Option Half) (f : Launch → Launch) : (s.onLaunch l f).fwDrops = s.fwDrops := by cases l <;> rfl
@[simp] theorem State.onLaunch_absentCh (s : State) (l : Option Half) (f : Launch → Launch) : (s.onLaunch l f).absentCh = s.absentCh := by cases l <;> rfl
@[simp] theorem State.onLaunch_absentK (s : State) (l : Option Half) (f : Launch → Launch) : (s.onLaunch l f).absentK = s.absentK := by cases l <;> rfl
@[simp] theorem State.onLaunch_absentL2 (s : State) (l : Option Half) (f : Launch → Launch) : (s.onLaunch l f).absentL2 = s.absentL2 := by cases l <;> rfl
@[simp] theorem State.onLaunch_absentCE (s : State) (l : Option Half) (f : Launch → Launch) : (s.onLaunch l f).absentCE = s.absentCE := by cases l <;> rfl
@[simp] theorem State.onLaunch_absentIsl (s : State) (l : Option Half) (f : Launch → Launch) : (s.onLaunch l f).absentIsl = s.absentIsl := by cases l <;> rfl
@[simp] theorem State.onLaunch_islandMHz (s : State) (l : Option Half) (f : Launch → Launch) : (s.onLaunch l f).islandMHz = s.islandMHz := by cases l <;> rfl
@[simp] theorem State.onLaunch_ending (s : State) (l : Option Half) (f : Launch → Launch) : (s.onLaunch l f).ending = s.ending := by cases l <;> rfl
@[simp] theorem State.onLaunch_limits (s : State) (l : Option Half) (f : Launch → Launch) : (s.onLaunch l f).limits = s.limits := by cases l <;> rfl
@[simp] theorem State.onLaunch_lanes (s : State) (l : Option Half) (f : Launch → Launch) : (s.onLaunch l f).lanes = s.lanes := by cases l <;> rfl
@[simp] theorem State.onLaunch_routes (s : State) (l : Option Half) (f : Launch → Launch) : (s.onLaunch l f).routes = s.routes := by cases l <;> rfl
@[simp] theorem State.onLaunch_device (s : State) (l : Option Half) (f : Launch → Launch) : (s.onLaunch l f).device = s.device := by cases l <;> rfl
@[simp] theorem State.onLaunch_peerHeld (s : State) (l : Option Half) (f : Launch → Launch) : (s.onLaunch l f).peerHeld = s.peerHeld := by cases l <;> rfl
@[simp] theorem State.onLaunch_hostX1 (s : State) (l : Option Half) (f : Launch → Launch) : (s.onLaunch l f).hostX1 = s.hostX1 := by cases l <;> rfl
@[simp] theorem State.onLaunch_digests (s : State) (l : Option Half) (f : Launch → Launch) : (s.onLaunch l f).digests = s.digests := by cases l <;> rfl
@[simp] theorem State.onLaunch_ports (s : State) (l : Option Half) (f : Launch → Launch) : (s.onLaunch l f).ports = s.ports := by cases l <;> rfl
@[simp] theorem State.onLaunch_leases (s : State) (l : Option Half) (f : Launch → Launch) : (s.onLaunch l f).leases = s.leases := by cases l <;> rfl
@[simp] theorem State.onLaunch_reports (s : State) (l : Option Half) (f : Launch → Launch) : (s.onLaunch l f).reports = s.reports := by cases l <;> rfl
@[simp] theorem State.onLaunch_peerOut (s : State) (l : Option Half) (f : Launch → Launch) : (s.onLaunch l f).peerOut = s.peerOut := by cases l <;> rfl
@[simp] theorem State.onLaunch_hostOut (s : State) (l : Option Half) (f : Launch → Launch) : (s.onLaunch l f).hostOut = s.hostOut := by cases l <;> rfl
@[simp] theorem State.onLaunch_regions (s : State) (l : Option Half) (f : Launch → Launch) : (s.onLaunch l f).regions = s.regions := by cases l <;> rfl
@[simp] theorem State.onLaunch_agenda (s : State) (l : Option Half) (f : Launch → Launch) : (s.onLaunch l f).agenda = s.agenda := by cases l <;> rfl
@[simp] theorem State.onLaunch_cur (s : State) (l : Option Half) (f : Launch → Launch) : (s.onLaunch l f).cur = s.cur := by cases l <;> rfl
@[simp] theorem State.onLaunch_fresh (s : State) (l : Option Half) (f : Launch → Launch) : (s.onLaunch l f).fresh = s.fresh := by cases l <;> rfl
@[simp] theorem State.onLaunch_nextId (s : State) (l : Option Half) (f : Launch → Launch) : (s.onLaunch l f).nextId = s.nextId := by cases l <;> rfl

/-! ## Lookups -/

theorem Assoc_get_set_self {κ α : Type} [DecidableEq κ] (l : List (κ × α)) (k : κ) (v : α) : Assoc.get (Assoc.set l k v) k = some v := by
  induction l with
  | nil => simp [Assoc.set, Assoc.get]
  | cons h r ih =>
    obtain ⟨k', w⟩ := h
    by_cases hk : k = k' <;> simp [Assoc.set, Assoc.get, hk, ih]

theorem Assoc_get_set_ne {κ α : Type} [DecidableEq κ] (l : List (κ × α)) (k j : κ) (v : α) (h : j ≠ k) :
    Assoc.get (Assoc.set l k v) j = Assoc.get l j := by
  induction l with
  | nil => simp [Assoc.set, Assoc.get, h]
  | cons x r ih =>
    obtain ⟨k', w⟩ := x
    by_cases hk : k = k'
    · subst hk; simp [Assoc.set, Assoc.get, h]
    · by_cases hj : j = k' <;> simp [Assoc.set, Assoc.get, hk, hj, ih]

@[simp] theorem Assoc_getD_set_self {κ α : Type} [DecidableEq κ] (l : List (κ × α)) (k : κ) (v d : α) : Assoc.getD (Assoc.set l k v) k d = v := by
  simp [Assoc.getD, Assoc_get_set_self]

theorem Assoc_getD_set_ne {κ α : Type} [DecidableEq κ] (l : List (κ × α)) (k j : κ) (v d : α) (h : j ≠ k) :
    Assoc.getD (Assoc.set l k v) j d = Assoc.getD l j d := by
  simp [Assoc.getD, Assoc_get_set_ne l k j v h]

theorem Assoc_set_set {κ α : Type} [DecidableEq κ] (l : List (κ × α)) (k : κ) (v w : α) : Assoc.set (Assoc.set l k v) k w = Assoc.set l k w := by
  induction l with
  | nil => simp [Assoc.set]
  | cons x r ih =>
    obtain ⟨k', u⟩ := x
    by_cases hk : k = k' <;> simp [Assoc.set, hk, ih]

@[simp] theorem State.tsGet_tsSet (s : State) (t : TsId) (x : ThreadSet) : (s.tsSet t x).tsGet t = x := Assoc_getD_set_self _ _ _ _
theorem State.tsGet_tsSet_ne (s : State) (t t' : TsId) (x : ThreadSet) (h : t' ≠ t) : (s.tsSet t x).tsGet t' = s.tsGet t' :=
  Assoc_getD_set_ne _ _ _ _ _ h
@[simp] theorem State.core_setCore (s : State) (c : CoreId) (x : CoreSt) : (s.setCore c x).core c = x := Assoc_getD_set_self _ _ _ _
theorem State.core_setCore_ne (s : State) (c c' : CoreId) (x : CoreSt) (h : c' ≠ c) : (s.setCore c x).core c' = s.core c' :=
  Assoc_getD_set_ne _ _ _ _ _ h
@[simp] theorem State.bundle_setBundle (s : State) (b : Nat) (x : Bundle) : (s.setBundle b x).bundle b = x := Assoc_getD_set_self _ _ _ _
theorem State.bundle_setBundle_ne (s : State) (b b' : Nat) (x : Bundle) (h : b' ≠ b) : (s.setBundle b x).bundle b' = s.bundle b' :=
  Assoc_getD_set_ne _ _ _ _ _ h

@[simp] theorem State.tsGet_setCore (s : State) (c : CoreId) (x : CoreSt) (t : TsId) : (s.setCore c x).tsGet t = s.tsGet t := rfl
@[simp] theorem State.tsGet_setBundle (s : State) (b : Nat) (x : Bundle) (t : TsId) : (s.setBundle b x).tsGet t = s.tsGet t := rfl
@[simp] theorem State.tsGet_setLaunch (s : State) (l : Launch) (t : TsId) : (s.setLaunch l).tsGet t = s.tsGet t := rfl
@[simp] theorem State.tsGet_dropOp (s : State) (id : Nat) (t : TsId) : (s.dropOp id).tsGet t = s.tsGet t := rfl
@[simp] theorem State.tsGet_setOp (s : State) (o : Op) (t : TsId) : (s.setOp o).tsGet t = s.tsGet t := rfl
@[simp] theorem State.tsGet_onLaunch (s : State) (l : Option Half) (f : Launch → Launch) (t : TsId) : (s.onLaunch l f).tsGet t = s.tsGet t := by
  cases l <;> rfl

/-- A dropped operation is gone. -/
theorem State.op_dropOp (s : State) (id : Nat) : (s.dropOp id).op id = none := by
  simp [State.op, State.dropOp, List.find?_filter]

end Sys2Proof.Machine
end

