-- ==== Sys2Proof/Laws/Memory.lean ====
section
/-!
SUPPORT. The canonical form of the memories, kept by every memory operation, and reading after writing.
-/

namespace Sys2Proof.Machine

open Sys2Proof

/-! ## Cells: an order that proofs can use -/

/-- Addresses rise strictly, as a relation of all pairs. -/
def Cells.Sorted (l : List Host.Cell) : Prop := l.Pairwise (fun c d => c.1 < d.1)

theorem Cells.rising_iff (l : List Host.Cell) : Cells.rising l = true ↔ Cells.Sorted l := by
  induction l with
  | nil => simp [Cells.rising, Cells.Sorted]
  | cons c r ih =>
    cases r with
    | nil => simp [Cells.rising, Cells.Sorted]
    | cons d r =>
      simp only [Cells.rising, Bool.and_eq_true, decide_eq_true_eq, ih, Cells.Sorted, List.pairwise_cons]
      constructor
      · rintro ⟨h, h1, h2⟩
        refine ⟨?_, h1, h2⟩
        intro x hx
        rcases List.mem_cons.mp hx with rfl | hx
        · exact h
        · exact Nat.lt_trans h (h1 x hx)
      · rintro ⟨h, h1, h2⟩
        exact ⟨h d (by simp), h1, h2⟩

theorem Cells.mem_ins {l : List Host.Cell} {x : Nat} {b : Byte} {c : Host.Cell} (h : c ∈ Cells.ins l x b) : c = (x, b) ∨ c ∈ l := by
  induction l with
  | nil => simpa [Cells.ins] using h
  | cons d r ih =>
    obtain ⟨a, v⟩ := d
    simp only [Cells.ins] at h
    split at h
    · simpa using h
    · split at h
      · rcases List.mem_cons.mp h with h | h
        · exact .inl h
        · exact .inr (List.mem_cons_of_mem _ h)
      · rcases List.mem_cons.mp h with h | h
        · exact .inr (by simp [h])
        · rcases ih h with h | h
          · exact .inl h
          · exact .inr (List.mem_cons_of_mem _ h)

theorem Cells.sorted_ins {l : List Host.Cell} (h : Cells.Sorted l) (x : Nat) (b : Byte) : Cells.Sorted (Cells.ins l x b) := by
  induction l with
  | nil => simp [Cells.ins, Cells.Sorted]
  | cons d r ih =>
    obtain ⟨a, v⟩ := d
    have ⟨h1, h2⟩ := List.pairwise_cons.mp h
    simp only [Cells.ins]
    split
    · rename_i hx
      refine List.pairwise_cons.mpr ⟨?_, h⟩
      intro c hc
      rcases List.mem_cons.mp hc with rfl | hc
      · exact hx
      · exact Nat.lt_trans hx (h1 c hc)
    · split
      · rename_i hx
        subst hx
        exact List.pairwise_cons.mpr ⟨h1, h2⟩
      · refine List.pairwise_cons.mpr ⟨?_, ih h2⟩
        intro c hc
        rcases Cells.mem_ins hc with rfl | hc
        · simp only; omega
        · exact h1 c hc

theorem Cells.rising_ins {l : List Host.Cell} (h : Cells.rising l = true) (x : Nat) (b : Byte) : Cells.rising (Cells.ins l x b) = true :=
  (Cells.rising_iff _).mpr (Cells.sorted_ins ((Cells.rising_iff _).mp h) x b)
theorem Cells.rising_filter {l : List Host.Cell} (h : Cells.rising l = true) (p : Host.Cell → Bool) : Cells.rising (l.filter p) = true :=
  (Cells.rising_iff _).mpr (List.Pairwise.filter p ((Cells.rising_iff _).mp h))
theorem Cells.rising_del {l : List Host.Cell} (h : Cells.rising l = true) (x : Nat) : Cells.rising (Cells.del l x) = true :=
  Cells.rising_filter h _
theorem Cells.rising_delRange {l : List Host.Cell} (h : Cells.rising l = true) (x n : Nat) : Cells.rising (Cells.delRange l x n) = true :=
  Cells.rising_filter h _

theorem Memory.wf_put {l : List Host.Cell} (h : Memory.wf l = true) (x : Nat) (b : Byte) : Memory.wf (Cells.put l x b) = true := by
  simp only [Memory.wf, Bool.and_eq_true, List.all_eq_true, decide_eq_true_eq] at h ⊢
  unfold Cells.put
  split
  · exact ⟨Cells.rising_del h.1 x, fun c hc => h.2 c ((List.mem_filter.mp hc).1)⟩
  · rename_i hb
    refine ⟨Cells.rising_ins h.1 x b, fun c hc => ?_⟩
    rcases Cells.mem_ins hc with rfl | hc
    · exact hb
    · exact h.2 c hc

theorem Memory.wf_delRange {l : List Host.Cell} (h : Memory.wf l = true) (x n : Nat) : Memory.wf (Cells.delRange l x n) = true := by
  simp only [Memory.wf, Bool.and_eq_true, List.all_eq_true, decide_eq_true_eq] at h ⊢
  exact ⟨Cells.rising_delRange h.1 x n, fun c hc => h.2 c ((List.mem_filter.mp hc).1)⟩

/-! ## Reading after writing -/

theorem Cells.get_none {l : List Host.Cell} {x : Nat} (h : ∀ c ∈ l, c.1 ≠ x) : Cells.get l x = none := by
  induction l with
  | nil => rfl
  | cons d r ih =>
    obtain ⟨a, v⟩ := d
    have : x ≠ a := fun e => h (a, v) (by simp) e.symm
    simp [Cells.get, this, ih (fun c hc => h c (List.mem_cons_of_mem _ hc))]

theorem Cells.get_ins_self {l : List Host.Cell} (x : Nat) (b : Byte) : Cells.get (Cells.ins l x b) x = some b := by
  induction l with
  | nil => simp [Cells.ins, Cells.get]
  | cons d r ih =>
    obtain ⟨a, v⟩ := d
    simp only [Cells.ins]
    split
    · simp [Cells.get]
    · split
      · simp [Cells.get]
      · rename_i h1 h2
        simp [Cells.get, h2, ih]

theorem Cells.get_ins_ne {l : List Host.Cell} (x y : Nat) (b : Byte) (h : y ≠ x) : Cells.get (Cells.ins l x b) y = Cells.get l y := by
  induction l with
  | nil => simp [Cells.ins, Cells.get, h]
  | cons d r ih =>
    obtain ⟨a, v⟩ := d
    simp only [Cells.ins]
    split
    · simp [Cells.get, h]
    · split
      · rename_i h2; subst h2; simp [Cells.get, h]
      · simp [Cells.get, ih]

theorem Cells.get_filter {l : List Host.Cell} (p : Nat → Bool) (y : Nat) :
    Cells.get (l.filter (fun c => p c.1)) y = if p y then Cells.get l y else none := by
  induction l with
  | nil => simp [Cells.get]
  | cons d r ih =>
    obtain ⟨a, v⟩ := d
    by_cases hy : y = a
    · subst hy
      cases hp : p y with
      | true => simp [List.filter, hp, Cells.get]
      | false => simp [List.filter, hp, ih]
    · cases hp : p a <;> simp [List.filter, hp, Cells.get, hy, ih]

theorem Cells.get_del_self {l : List Host.Cell} (x : Nat) : Cells.get (Cells.del l x) x = none := by
  have := Cells.get_filter (l := l) (fun a => decide (a ≠ x)) x
  simpa [Cells.del] using this
theorem Cells.get_del_ne {l : List Host.Cell} (x y : Nat) (h : y ≠ x) : Cells.get (Cells.del l x) y = Cells.get l y := by
  have := Cells.get_filter (l := l) (fun a => decide (a ≠ x)) y
  simpa [Cells.del, h] using this

theorem Cells.getD_put_self {l : List Host.Cell} (x : Nat) (b : Byte) : (Cells.get (Cells.put l x b) x).getD 0#8 = b := by
  unfold Cells.put
  split
  · rename_i h; simp [Cells.get_del_self, h]
  · simp [Cells.get_ins_self]
theorem Cells.get_put_ne {l : List Host.Cell} (x y : Nat) (b : Byte) (h : y ≠ x) : Cells.get (Cells.put l x b) y = Cells.get l y := by
  unfold Cells.put
  split
  · exact Cells.get_del_ne x y h
  · exact Cells.get_ins_ne x y b h

/-- A stored byte changes neither what owners alone write nor what block reads are to write. -/
theorem State.readOnly_wrByte (s : State) (a x : Nat) (b : Byte) : (s.wrByte a b).readOnly x = s.readOnly x := by
  unfold State.wrByte; split; rfl; split <;> rfl
theorem State.inBrd_wrByte (s : State) (a x : Nat) (b : Byte) : (s.wrByte a b).inBrd x = s.inBrd x := by
  unfold State.wrByte; split; rfl; split <;> rfl

/-- A byte that was just written reads as written, if it lies in a present channel or in a scratchpad and no block read is to write it. -/
theorem State.rdByte_wrByte_self (s : State) (a : Nat) (b : Byte) (h : scratchBase ≤ a ∨ s.noChannel a = false) (h' : s.inBrd a = false) :
    (s.wrByte a b).rdByte a = b := by
  by_cases ha : scratchBase ≤ a
  · have : (s.wrByte a b).inBrd a = false := (s.inBrd_wrByte a a b).trans h'
    simp [State.rdByte, ha, this]
    simp [State.wrByte, ha, Cells.get_ins_self]
  · have hn : s.noChannel a = false := h.resolve_left ha
    have hk : (s.wrByte a b).noChannel a = false := by
      have : s.wrByte a b = { s with mem := Cells.put s.mem a b, eccMem := s.eccMem.filter (fun x => decide (x ≠ a)) } := by
        simp [State.wrByte, ha, hn]
      rw [this]; exact hn
    simp only [State.rdByte, ha, hk]
    simp [State.wrByte, ha, hn, Cells.getD_put_self]

/-- A byte store leaves every other byte as it reads. -/
theorem State.rdByte_wrByte_ne (s : State) (a x : Nat) (b : Byte) (h : x ≠ a) : (s.wrByte a b).rdByte x = s.rdByte x := by
  unfold State.rdByte
  rw [State.inBrd_wrByte]
  by_cases ha : scratchBase ≤ a
  · simp [State.wrByte, ha, State.noChannel, Cells.get_ins_ne _ _ _ h]
  · by_cases hn : s.noChannel a = true
    · simp [State.wrByte, ha, hn]
    · have e : s.wrByte a b = { s with mem := Cells.put s.mem a b, eccMem := s.eccMem.filter (fun x => decide (x ≠ a)) } := by
        simp [State.wrByte, ha, hn]
      rw [e]
      simp [State.noChannel, Cells.get_put_ne _ _ _ h]

/-- A store leaves every byte outside its range as it reads. -/
theorem State.rdByte_wr_outside (d : List Byte) : ∀ (s : State) (a x : Nat), (x < a ∨ a + d.length ≤ x) → (s.wr a d).rdByte x = s.rdByte x := by
  induction d with
  | nil => intro s a x _; rfl
  | cons b r ih =>
    intro s a x h
    simp only [List.length_cons] at h
    rw [State.wr, ih _ _ _ (by omega), State.rdByte_wrByte_ne _ _ _ _ (by omega)]

/-- A byte store by an agent that does not own the byte leaves every other byte as it reads. -/
theorem State.rdByte_wrFree_ne (s : State) (a x : Nat) (b : Byte) (h : x ≠ a) : (s.wrFree a b).rdByte x = s.rdByte x := by
  unfold State.wrFree
  split
  · rfl
  · exact State.rdByte_wrByte_ne s a x b h

/-- So does a store of many bytes, for every byte outside its range. -/
theorem State.rdByte_wrRw_outside (d : List Byte) : ∀ (s : State) (a x : Nat), (x < a ∨ a + d.length ≤ x) → (s.wrRw a d).rdByte x = s.rdByte x := by
  induction d with
  | nil => intro s a x _; rfl
  | cons b r ih =>
    intro s a x h
    simp only [List.length_cons] at h
    rw [State.wrRw, ih _ _ _ (by omega), State.rdByte_wrFree_ne _ _ _ _ (by omega)]

/-- A byte that its owner alone writes ignores every other agent's store (R7, R70, R109). -/
theorem State.wrFree_readOnly (s : State) (a : Nat) (b : Byte) (h : s.readOnly a = true) : s.wrFree a b = s := by simp [State.wrFree, h]

/-! ## Every memory operation keeps the canonical form -/

theorem MemInv.reset : MemInv State.reset := ⟨by decide, by decide, by decide⟩

theorem MemInv.congr {s u : State} (h : MemInv s) (h1 : u.mem = s.mem) (h2 : u.hostMem = s.hostMem) (h3 : u.scratch = s.scratch) : MemInv u := by
  unfold MemInv; rw [h1, h2, h3]; exact h

theorem MemInv.wrByte {s : State} (h : MemInv s) (a : Nat) (b : Byte) : MemInv (s.wrByte a b) := by
  unfold State.wrByte
  split
  · exact ⟨h.1, h.2.1, Cells.rising_ins h.2.2 a b⟩
  · split
    · exact h
    · exact ⟨Memory.wf_put h.1 a b, h.2.1, h.2.2⟩

theorem MemInv.wr {d : List Byte} : ∀ {s : State}, MemInv s → ∀ a, MemInv (s.wr a d) := by
  induction d with
  | nil => intro s h a; exact h
  | cons b r ih => intro s h a; exact ih (h.wrByte a b) (a + 1)

theorem MemInv.wrRw {d : List Byte} : ∀ {s : State}, MemInv s → ∀ a, MemInv (s.wrRw a d) := by
  induction d with
  | nil => intro s h a; exact h
  | cons b r ih =>
    intro s h a
    refine ih ?_ (a + 1)
    unfold State.wrFree
    split
    · exact h
    · exact h.wrByte a b

theorem MemInv.wr64 {s : State} (h : MemInv s) (a : Nat) (x : Word) : MemInv (s.wr64 a x) := h.wr a
theorem MemInv.wr32 {s : State} (h : MemInv s) (a : Nat) (x : Word32) : MemInv (s.wr32 a x) := h.wr a
theorem MemInv.forget {s : State} (h : MemInv s) (a n : Nat) : MemInv (s.forget a n) := ⟨h.1, h.2.1, Cells.rising_delRange h.2.2 a n⟩
theorem MemInv.zeroRange {s : State} (h : MemInv s) (a n : Nat) : MemInv (s.zeroRange a n) := ⟨Memory.wf_delRange h.1 a n, h.2.1, h.2.2⟩
theorem MemInv.smear {s : State} (h : MemInv s) (a n : Nat) : MemInv (s.smear a n) :=
  MemInv.congr (h.wrRw (d := s.anyBytes a n) a) rfl rfl rfl
theorem MemInv.forgetRw {s : State} (h : MemInv s) (a n : Nat) : MemInv (s.forgetRw a n) := by
  have go : ∀ (l : List (Byte × Nat)) (w u : State), MemInv u → MemInv (l.foldl (fun u e => if w.readOnly (a + e.2) then u.wrByte (a + e.2) e.1 else u) u) := by
    intro l
    induction l with
    | nil => intro w u hu; exact hu
    | cons e r ih =>
      intro w u hu
      refine ih w _ ?_
      show MemInv (if _ then _ else _)
      split
      · exact hu.wrByte _ _
      · exact hu
  exact go _ _ _ (h.forget a n)
theorem Cells.mem_cellsOf {d : List Byte} : ∀ {a : Nat} {c : Host.Cell}, c ∈ cellsOf a d → a ≤ c.1 ∧ c.1 < a + d.length ∧ c.2 ≠ 0 := by
  induction d with
  | nil => intro a c h; simp [cellsOf] at h
  | cons b r ih =>
    intro a c h
    simp only [cellsOf] at h
    simp only [List.length_cons]
    split at h
    · obtain ⟨h1, h2, h3⟩ := ih h; exact ⟨by omega, by omega, h3⟩
    · rename_i hb
      rcases List.mem_cons.mp h with rfl | h
      · exact ⟨Nat.le_refl _, by simp only; omega, hb⟩
      · obtain ⟨h1, h2, h3⟩ := ih h; exact ⟨by omega, by omega, h3⟩

theorem Cells.sorted_cellsOf (d : List Byte) : ∀ (a : Nat), Cells.Sorted (cellsOf a d) := by
  induction d with
  | nil => intro a; simp [cellsOf, Cells.Sorted]
  | cons b r ih =>
    intro a
    simp only [cellsOf]
    split
    · exact ih (a + 1)
    · refine List.pairwise_cons.mpr ⟨fun c hc => ?_, ih (a + 1)⟩
      have := (Cells.mem_cellsOf hc).1
      simp only; omega

theorem Cells.sorted_around {l m : List Host.Cell} (hl : Cells.Sorted l) (hm : Cells.Sorted m) (a n : Nat) (h : ∀ c ∈ m, a ≤ c.1 ∧ c.1 < a + n) :
    Cells.Sorted (l.filter (fun c => decide (c.1 < a)) ++ m ++ l.filter (fun c => decide (a + n ≤ c.1))) := by
  refine List.pairwise_append.mpr ⟨List.pairwise_append.mpr ⟨hl.filter _, hm, ?_⟩, hl.filter _, ?_⟩
  · intro x hx y hy
    have hx := of_decide_eq_true (List.mem_filter.mp hx).2
    have := (h y hy).1; omega
  · intro x hx y hy
    have hy := of_decide_eq_true (List.mem_filter.mp hy).2
    rcases List.mem_append.mp hx with hx | hx
    · have := of_decide_eq_true (List.mem_filter.mp hx).2; omega
    · have := (h x hx).2; omega

theorem Memory.wf_splice {l : List Host.Cell} (h : Memory.wf l = true) (a : Nat) (d : List Byte) : Memory.wf (Cells.splice l a d) = true := by
  simp only [Memory.wf, Bool.and_eq_true, List.all_eq_true, decide_eq_true_eq] at h ⊢
  have hs := (Cells.rising_iff _).mp h.1
  refine ⟨(Cells.rising_iff _).mpr (Cells.sorted_around hs (Cells.sorted_cellsOf d a) a d.length
    (fun c hc => ⟨(Cells.mem_cellsOf hc).1, (Cells.mem_cellsOf hc).2.1⟩)), fun c hc => ?_⟩
  rcases List.mem_append.mp hc with hc | hc
  · rcases List.mem_append.mp hc with hc | hc
    · exact h.2 c (List.mem_filter.mp hc).1
    · exact (Cells.mem_cellsOf hc).2.2
  · exact h.2 c (List.mem_filter.mp hc).1

theorem MemInv.wrPhys {s : State} (h : MemInv s) (a : Nat) (d : List Byte) : MemInv (s.wrPhys a d) := by
  unfold State.wrPhys
  split
  · exact ⟨Memory.wf_splice h.1 a d, h.2.1, h.2.2⟩
  · exact h.wr a

theorem Cells.sorted_listed (u : List (Nat × Nat × Nat)) (d : List Byte) :
    ∀ (a : Nat), Cells.Sorted (listedFrom u a d) ∧ ∀ c ∈ listedFrom u a d, a ≤ c.1 ∧ c.1 < a + d.length := by
  induction d with
  | nil => intro a; simp [listedFrom, Cells.Sorted]
  | cons b r ih =>
    intro a
    obtain ⟨h1, h2⟩ := ih (a + 1)
    simp only [listedFrom, List.length_cons]
    split
    · exact ⟨h1, fun c hc => by have := h2 c hc; omega⟩
    · refine ⟨List.pairwise_cons.mpr ⟨fun c hc => ?_, h1⟩, fun c hc => ?_⟩
      · have := (h2 c hc).1; simp only; omega
      · rcases List.mem_cons.mp hc with rfl | hc
        · simp only; omega
        · have := h2 c hc; omega

theorem Cells.rising_spliceAll {u : List (Nat × Nat × Nat)} {l : List Host.Cell} (h : Cells.rising l = true) (a : Nat) (d : List Byte) :
    Cells.rising (Cells.spliceAll u l a d) = true :=
  (Cells.rising_iff _).mpr (Cells.sorted_around ((Cells.rising_iff _).mp h) (Cells.sorted_listed u d a).1 a d.length (Cells.sorted_listed u d a).2)

/-- Bytes put back into a scratchpad read as they were given, listed or not. -/
theorem Cells.getD_listed (u : List (Nat × Nat × Nat)) (d : List Byte) : ∀ (a i : Nat) (b : Byte), d[i]? = some b →
    (Cells.get (listedFrom u a d) (a + i)).getD (Config.freeByte (undefStamp u (a + i)) (a + i)) = b := by
  induction d with
  | nil => intro a i b h; simp at h
  | cons x r ih =>
    intro a i b h
    cases i with
    | zero =>
      simp only [List.getElem?_cons_zero, Option.some.injEq] at h
      subst h
      simp only [listedFrom]
      split
      · rename_i hx
        rw [Nat.add_zero, Cells.get_none (fun c hc => by have := ((Cells.sorted_listed u r (a + 1)).2 c hc).1; omega), Option.getD_none]
        exact hx.symm
      · simp [Cells.get]
    | succ i =>
      have e := ih (a + 1) i b (by simpa using h)
      rw [show a + 1 + i = a + (i + 1) by omega] at e
      simp only [listedFrom]
      split
      · exact e
      · simp only [Cells.get]
        rw [if_neg (by omega)]
        exact e

/-! ## Reading a block at once -/

theorem Cells.read_eq_rd {s : State} (h : s.absentCh.isEmpty = true) (n : Nat) : ∀ (l : List Host.Cell) (a : Nat), Cells.Sorted l → (∀ c ∈ l, a ≤ c.1) →
    (∀ x, a ≤ x → Cells.get l x = Cells.get s.mem x) → a + n ≤ Config.channels * Config.channelBytes → Cells.read l a n = s.rd a n := by
  induction n with
  | zero => intro l a _ _ _ _; cases l <;> rfl
  | succ n ih =>
    intro l a hs hl hg hn
    have hb : s.rdByte a = (Cells.get l a).getD 0 := by
      have h1 : ¬ scratchBase ≤ a := by
        simp only [Config.channels, Config.channelBytes] at hn
        unfold scratchBase; omega
      have h2 : s.noChannel a = false := by
        simp only [Config.channels, Config.channelBytes] at hn
        simp [State.noChannel, List.isEmpty_iff.mp h, Config.channels, Config.channelBytes]
        exact decide_eq_false (by omega)
      rw [State.rdByte, if_neg h1, if_neg (by simp [h2]), hg a (Nat.le_refl _)]
    rw [State.rd, hb]
    cases l with
    | nil =>
      rw [Cells.read, ih [] (a + 1) hs (by simp) (fun x hx => hg x (by omega)) (by omega)]
      rfl
    | cons c r =>
      obtain ⟨y, b⟩ := c
      have ⟨h1, h2⟩ := List.pairwise_cons.mp hs
      have hy := hl (y, b) (by simp)
      simp only at hy
      rw [Cells.read]
      split
      · rename_i e
        subst e
        rw [ih r (y + 1) h2 (fun c hc => h1 c hc) (fun x hx => ?_) (by omega)]
        · simp [Cells.get]
        · rw [← hg x (by omega)]
          simp only [Cells.get]
          rw [if_neg (by omega)]
      · rename_i e
        rw [ih ((y, b) :: r) (a + 1) hs (fun c hc => ?_) (fun x hx => hg x (by omega)) (by omega)]
        · rw [Cells.get_none (fun c hc => ?_)]
          · rfl
          · rcases List.mem_cons.mp hc with rfl | hc
            · exact e
            · have := h1 c hc; simp only at this; omega
        · rcases List.mem_cons.mp hc with rfl | hc
          · simp only; omega
          · have := h1 c hc; simp only at this; omega

/-- A block read at once is the block read byte by byte. -/
theorem State.rdPhys_eq {s : State} (h : MemInv s) (a n : Nat) : s.rdPhys a n = s.rd a n := by
  unfold State.rdPhys
  split
  · rename_i c
    have hs : Cells.rising s.mem = true := by
      have := h.1
      simp only [Memory.wf, Bool.and_eq_true] at this
      exact this.1
    refine Cells.read_eq_rd c.2 n _ a (((Cells.rising_iff _).mp hs).filter _) (fun x hx => of_decide_eq_true (List.mem_filter.mp hx).2) (fun x hx => ?_) c.1
    rw [Cells.get_filter (fun y => decide (a ≤ y)) x]
    simp [hx]
  · rfl

theorem MemInv.hostWr {d : List Byte} : ∀ {s : State}, MemInv s → ∀ a, MemInv (s.hostWr a d) := by
  induction d with
  | nil => intro s h a; exact h
  | cons b r ih => intro s h a; exact ih (s := { s with hostMem := Cells.put s.hostMem a b }) ⟨h.1, Memory.wf_put h.2.1 a b, h.2.2⟩ (a + 1)

/-- Writing bytes changes the memories and the marks of damage, and nothing else. -/
theorem State.wr_frame (d : List Byte) : ∀ (s : State) (a : Nat),
    s.wr a d = { s with mem := (s.wr a d).mem, scratch := (s.wr a d).scratch, eccMem := (s.wr a d).eccMem, softMem := (s.wr a d).softMem } := by
  induction d with
  | nil => intros; rfl
  | cons b r ih =>
    intro s a
    have h : s.wrByte a b = { s with mem := (s.wrByte a b).mem, scratch := (s.wrByte a b).scratch, eccMem := (s.wrByte a b).eccMem,
                                     softMem := (s.wrByte a b).softMem } := by
      unfold State.wrByte; split <;> first | rfl | (split <;> rfl)
    have k := ih (s.wrByte a b) (a + 1)
    rw [h] at k
    rw [State.wr, h]; exact k
theorem State.wrPhys_frame (s : State) (a : Nat) (d : List Byte) : s.wrPhys a d =
    { s with mem := (s.wrPhys a d).mem, scratch := (s.wrPhys a d).scratch, eccMem := (s.wrPhys a d).eccMem, softMem := (s.wrPhys a d).softMem } := by
  unfold State.wrPhys
  split
  · rfl
  · exact State.wr_frame d s a

@[simp] theorem State.wrPhys_lctx (s : State) (a : Nat) (d : List Byte) : (s.wrPhys a d).lctx = s.lctx := by rw [State.wrPhys_frame]
@[simp] theorem State.wrPhys_pages (s : State) (a : Nat) (d : List Byte) : (s.wrPhys a d).pages = s.pages := by rw [State.wrPhys_frame]
@[simp] theorem State.wrPhys_reserved (s : State) (a : Nat) (d : List Byte) : (s.wrPhys a d).reserved = s.reserved := by rw [State.wrPhys_frame]
@[simp] theorem State.wrPhys_ptSize (s : State) (a : Nat) (d : List Byte) : (s.wrPhys a d).ptSize = s.ptSize := by rw [State.wrPhys_frame]
@[simp] theorem State.wrPhys_progs (s : State) (a : Nat) (d : List Byte) : (s.wrPhys a d).progs = s.progs := by rw [State.wrPhys_frame]
@[simp] theorem State.wrPhys_launches (s : State) (a : Nat) (d : List Byte) : (s.wrPhys a d).launches = s.launches := by rw [State.wrPhys_frame]
@[simp] theorem State.wrPhys_ts (s : State) (a : Nat) (d : List Byte) : (s.wrPhys a d).ts = s.ts := by rw [State.wrPhys_frame]

end Sys2Proof.Machine
end

