-- ==== Sys2Proof/Laws/Issue.lean ====
section
/-!
SUPPORT. What the shared operations of an issue do: the turn of a thread set or of a program, retirement, the reading and writing of
registers, and the reservation of queue entries.
-/

namespace Sys2Proof.Machine

open Sys2Proof

/-! ## Turns -/

theorem issue_turn {s : State} {t : TsId} {a : Activation} (h : Turn s t a) (f : Exe → Except Stop Exe) :
    issue s f = .next (finish s t ((exeOf s t a).run f)) := by
  simp [issue, h.1, h.2, exeOf]

/-! What is no trap stands; a trap that the meaning raises whatever its damaged sources would read is raised (R252). -/

theorem Exe.run_ok {e e' : Exe} {f : Exe → Except Stop Exe} (h : f e = .ok e') : e.run f = .ok e' := by simp [Exe.run, h]
theorem Exe.run_stall {e : Exe} {f : Exe → Except Stop Exe} {r : Stall} (h : f e = .error (.stall r)) : e.run f = .error (.stall r) := by simp [Exe.run, h]
theorem Exe.run_parked {e : Exe} {f : Exe → Except Stop Exe} {a : Word} (h : f e = .error (.parked a)) : e.run f = .error (.parked a) := by
  simp [Exe.run, h]
theorem agreed_const {x : Nat × Word} {l : List (Option (Nat × Word))} (h : ∀ y ∈ l, y = some x) (h2 : 2 ≤ l.length) : agreed l = some x := by
  have k : l = List.replicate l.length (some x) := List.eq_replicate_iff.2 ⟨rfl, h⟩
  rw [k]
  obtain ⟨n, hn⟩ : ∃ n, l.length = n + 2 := ⟨l.length - 2, by omega⟩
  simp [agreed, hn, List.replicate_succ]

theorem State.samples_two (s : State) (t : TsId) : 2 ≤ (s.samples t).length := by simp [State.samples]

theorem Exe.run_trap {e : Exe} {f : Exe → Except Stop Exe} {c c' : Nat} {a a' : Word} (h : f e = .error (.trap c' a'))
    (k : ∀ v, f (e.sound v) = .error (.trap c a)) : e.run f = .error (.trap c a) := by
  have w : agreed ((e.s.samples e.t).map (e.ownTrap f)) = some (c, a) := by
    refine agreed_const (fun y hy => ?_) (by rw [List.length_map]; exact State.samples_two _ _)
    obtain ⟨v, -, rfl⟩ := List.mem_map.1 hy
    simp [Exe.ownTrap, k]
  simp [Exe.run, h, w]

theorem issue_ok {s : State} {t : TsId} {a : Activation} (ht : Turn s t a) {f : Exe → Except Stop Exe} {e : Exe} (h : f (exeOf s t a) = .ok e) :
    issue s f = .next e.commit := by rw [issue_turn ht, Exe.run_ok h]; rfl
theorem issue_stall {s : State} {t : TsId} {a : Activation} (ht : Turn s t a) {f : Exe → Except Stop Exe} {r : Stall}
    (h : f (exeOf s t a) = .error (.stall r)) : issue s f = .next (s.stallTs t r) := by rw [issue_turn ht, Exe.run_stall h]; rfl
theorem issue_trap {s : State} {t : TsId} {a : Activation} (ht : Turn s t a) {f : Exe → Except Stop Exe} {c c' : Nat} {x x' : Word}
    (h : f (exeOf s t a) = .error (.trap c' x')) (k : ∀ v, f ((exeOf s t a).sound v) = .error (.trap c x)) :
    issue s f = .next ((s.tick t false).takeTrap t c x) := by rw [issue_turn ht, Exe.run_trap h k]; rfl

theorem livik_turn {s : State} {p : Prog} (h : ProgTurn s p) (f : State → Prog → Except LStop State) :
    livik s f = match f s.pass p with
      | .ok t => .next t
      | .error (.fault c) => .next (s.pass.agentKill p.slot c)
      | .error (.park w) => .next (s.pass.parkProg p.slot w)
      | .error .wait => .next s := by
  obtain ⟨h1, h2, h3, h4⟩ := h
  simp only [livik, h1, h2, h3, h4]
  cases f s.pass p with
  | ok t => rfl
  | error e => cases e <;> rfl

/-! ## Retirement -/

theorem State.tick_others (s : State) (t : TsId) (held : Bool) : OthersKept s (s.tick t held) t := by
  refine ⟨rfl, fun t' h => ?_⟩
  simp only [State.tick, State.tsGet]
  exact Assoc_getD_set_ne _ _ _ _ _ h

theorem OthersKept.trans {s u v : State} {t : TsId} (h1 : OthersKept s u t) (h2 : OthersKept u v t) : OthersKept s v t := by
  refine ⟨h2.1.trans ?_, fun t' h => (h2.2 t' h).trans (h1.2 t' h)⟩
  exact (congrArg (fun z : State => ({ z with ts := v.ts, cycle := v.cycle, clock := v.clock, fresh := v.fresh, turns := v.turns } : State)) h1.1).trans rfl

theorem OthersKept.tsSet (s : State) (t : TsId) (x : ThreadSet) : OthersKept s (s.tsSet t x) t :=
  ⟨rfl, fun _ h => State.tsGet_tsSet_ne _ _ _ _ h⟩

theorem State.tick_tsGet (s : State) (t : TsId) :
    (s.tick t false).tsGet t = { s.tsGet t with run := s.runOf t (s.tsGet t).run + 1, wbudget := ((s.tick t false).tsGet t).wbudget } ∧
    ((s.tick t false).tsGet t).wbudget.toNat ≤ (s.tsGet t).wbudget.toNat - 1 := by
  have h : (s.tick t false).tsGet t = { s.tsGet t with run := s.runOf t (s.tsGet t).run + 1, wbudget := BitVec.ofNat 64 ((s.tsGet t).wbudget.toNat - (1 + Config.freeCycles (2 * s.fresh))) } := by
    show Assoc.getD (Assoc.set s.ts t _) t ThreadSet.reset = _
    simp
  refine ⟨by rw [h], ?_⟩
  rw [h]
  simp only [BitVec.toNat_ofNat]
  have := Nat.mod_le ((s.tsGet t).wbudget.toNat - (1 + Config.freeCycles (2 * s.fresh))) (2 ^ 64)
  omega

/-- What an instruction that completes at once leaves. -/
theorem Exe.commit_went (e : Exe) (pc : Word) (h : e.after = none) : Went e pc ({ e with x := { e.x with pc := pc } } : Exe).commit := by
  simp only [Exe.commit, h]
  obtain ⟨h1, h2⟩ := State.tick_tsGet (e.s.tsSet e.t { e.x with pc := pc, stall := none }) e.t
  refine ⟨(OthersKept.tsSet _ _ _).trans (State.tick_others _ _ _), ?_, rfl, ?_⟩
  · rw [h1]; simp only [State.tsGet_tsSet]; rfl
  · simpa using h2
theorem Exe.commit_retired (e : Exe) (n : Nat) (h : e.after = none) :
    Retired e n ({ e with x := { e.x with pc := e.x.pc + BitVec.ofNat 64 n } } : Exe).commit := Exe.commit_went e _ h

/-- An issue is its core's turn (R84). -/
theorem State.tick_turns (s : State) (t : TsId) (held : Bool) : (s.tick t held).turns = Assoc.set s.turns t.core t.ts := rfl

theorem OthersKept.bytes {s u : State} {t : TsId} (h : OthersKept s u t) : SameBytes s u := by
  intro a ha
  rw [h.1]
  simp only [State.rdByte, State.noChannel]
  have hb : ({ s with ts := u.ts, cycle := u.cycle, clock := u.clock, fresh := u.fresh, turns := u.turns } : State).inBrd a = s.inBrd a := rfl
  simp [hb, ha]

/-! ## Registers -/

/-! Reading sound state gives what reading gives, where that gives a value; a room check reads no data (R252). -/

theorem whole_getD {α : Type} (soft : List Nat) (v d : α) (l : List (Nat × α)) (n : Nat) (h : soft.contains n = false) :
    Assoc.getD (whole soft v l) n d = Assoc.getD l n d := by
  unfold Assoc.getD
  congr 1
  induction l with
  | nil => rfl
  | cons r l ih =>
    obtain ⟨k, w⟩ := r
    show Assoc.get ((if soft.contains k then (k, v) else (k, w)) :: whole soft v l) n = _
    by_cases hk : n = k
    · subst hk; rw [h]; simp [Assoc.get]
    · cases soft.contains k <;> simp [Assoc.get, hk, ih]

@[simp] theorem wholeQ_ready {α : Type} (soft : Bool) (v x : α) (q : List (LdE α)) :
    wholeQ soft v (.ready x :: q) = .ready (if soft then v else x) :: wholeQ soft v q := rfl

theorem Exe.srcS_sound {e e1 : Exe} {r : Reg} {x : Word} (h : e.srcS r = .ok (x, e1)) (v : Vec) : (e.sound v).srcS r = .ok (x, e1.sound v) := by
  unfold Exe.srcS at h ⊢
  split at h
  · cases h; simp [*]
  · split at h
    · rename_i h0 h30
      unfold Exe.popS Exe.softQ at h
      simp only [h30, if_true]
      split at h
      · cases h
      · cases h
      · cases h
      · rename_i w q hq
        split at h
        · cases h
        · rename_i h1
          have h1' : e.x.softQ.contains 0 = false := by simpa using h1
          cases h
          have k : (e.sound v).x.slq = .ready x :: wholeQ false (v.setWidth 64) q := by
            show wholeQ (e.x.softQ.contains 0) _ e.x.slq = _
            rw [hq, h1']; rfl
          rw [if_neg (by decide)]
          unfold Exe.popS
          rw [k]
          simp [Exe.softQ, Exe.sound, ThreadSet.sound, bind, Except.bind, show ¬ _ ∈ e.x.softQ by simpa using h1]
    · split at h
      · cases h
      · split at h
        · cases h
        · rename_i h0 h30 h31 hs
          have hs' : e.x.softS.contains r.toNat = false := by simpa using hs
          cases h
          rw [if_neg h0, if_neg h30, if_neg h31]
          simp [Exe.sound, ThreadSet.sound, whole_getD _ _ _ _ _ hs']
theorem Exe.srcV_sound {e e1 : Exe} {r : Reg} {x : Vec} (h : e.srcV r = .ok (x, e1)) (v : Vec) : (e.sound v).srcV r = .ok (x, e1.sound v) := by
  unfold Exe.srcV at h ⊢
  split at h
  · rename_i h30
    unfold Exe.popV Exe.softQ at h
    simp only [h30, if_true]
    split at h
    · cases h
    · cases h
    · cases h
    · rename_i w q hq
      split at h
      · cases h
      · rename_i h1
        have h1' : e.x.softQ.contains 2 = false := by simpa using h1
        cases h
        have k : (e.sound v).x.vlq = .ready x :: wholeQ false v q := by
          show wholeQ (e.x.softQ.contains 2) _ e.x.vlq = _
          rw [hq, h1']; rfl
        unfold Exe.popV
        rw [k]
        simp [Exe.softQ, Exe.sound, ThreadSet.sound, bind, Except.bind, show ¬ _ ∈ e.x.softQ by simpa using h1]
  · split at h
    · cases h
    · split at h
      · cases h
      · rename_i h1 h2 h3
        have h3' : (e.sound v).pendingFill r = false := by
          show e.pendingFill r = false
          simpa using h3
        split at h
        · cases h
        · rename_i hs
          have hs' : e.x.softV.contains r.toNat = false := by simpa using hs
          cases h
          rw [if_neg h1, if_neg h2, h3']
          simp [Exe.sound, ThreadSet.sound, whole_getD _ _ _ _ _ hs']
theorem Exe.srcP_sound {e : Exe} {p : BitVec 3} {x : Word} (h : e.srcP p = .ok x) (v : Vec) : (e.sound v).srcP p = .ok x := by
  unfold Exe.srcP at h ⊢
  split at h
  · rename_i h0; rw [if_pos h0]; exact h
  · split at h
    · cases h
    · rename_i h0 hs
      have hs' : e.x.softP.contains p.toNat = false := by simpa using hs
      cases h
      rw [if_neg h0]
      simp [Exe.sound, ThreadSet.sound, whole_getD _ _ _ _ _ hs']
@[simp] theorem Exe.roomS_sound (e : Exe) (v : Vec) (d : Reg) : (e.sound v).roomS d = e.roomS d := rfl
@[simp] theorem Exe.roomV_sound (e : Exe) (v : Vec) (d : Reg) : (e.sound v).roomV d = e.roomV d := rfl
@[simp] theorem Exe.roomRecord_sound (e : Exe) (v : Vec) : (e.sound v).roomRecord = e.roomRecord := rfl
@[simp] theorem Exe.check_sound (e : Exe) (v : Vec) (a : Word) (n : Nat) (r : BitVec 4) : (e.sound v).check a n r = e.check a n r := rfl
@[simp] theorem Exe.trapen_sound (e : Exe) (v : Vec) : (e.sound v).x.trapen = e.x.trapen := rfl
@[simp] theorem Exe.s_sound (e : Exe) (v : Vec) : (e.sound v).s = e.s := rfl
@[simp] theorem Exe.t_sound (e : Exe) (v : Vec) : (e.sound v).t = e.t := rfl
@[simp] theorem Exe.view_sound (e : Exe) (v : Vec) : (e.sound v).view = e.view := rfl

theorem ThreadSet.sval_putS (x : ThreadSet) (r : Reg) (v : Word) (h0 : r ≠ 0#5) (h31 : r ≠ 31#5) : (x.putS r v).sval r = v := by
  simp [ThreadSet.putS, ThreadSet.sval, h0, h31]

theorem ThreadSet.sval_putS_ne (x : ThreadSet) (r q : Reg) (v : Word) (h : q ≠ r) : (x.putS r v).sval q = x.sval q := by
  unfold ThreadSet.putS
  split
  · rfl
  · split
    · rfl
    · unfold ThreadSet.sval
      split
      · rfl
      · refine Assoc_getD_set_ne _ _ _ _ _ (fun e => h ?_)
        exact BitVec.eq_of_toNat_eq e

end Sys2Proof.Machine
end

