-- ==== Sys2Proof/Laws/Alu.lean ====
section
/-!
SUPPORT. The functions of the ALU as bit-vector arithmetic of 64 and of 32 bits (R258).
-/

namespace Sys2Proof.Machine

open Sys2Proof

theorem sgn64 (x : Word) : sgn 64 x.toNat = x.toInt := by
  have := x.isLt
  simp only [sgn, BitVec.toInt_eq_toNat_cond]
  split <;> split <;> omega
theorem sgn32 (x : Word32) : sgn 32 x.toNat = x.toInt := by
  have := x.isLt
  simp only [sgn, BitVec.toInt_eq_toNat_cond]
  split <;> split <;> omega

theorem aluArg_toNat (x : Word) : (aluArg true x).toNat = (x.setWidth 32).toNat := by
  simp only [aluArg, if_true, BitVec.toNat_setWidth]; omega
theorem aluArg_eq_zero (x : Word) : aluArg true x = 0 ↔ x.setWidth 32 = 0 := by
  constructor <;> intro h
  · apply BitVec.eq_of_toNat_eq
    rw [← aluArg_toNat, h]; rfl
  · simp only [aluArg, if_true, h]; rfl

/-- The two widths of an ALU function. -/
def AluIs (f : AluFn) (g : Word → Word → Word) (h : Word32 → Word32 → Word32) : Prop :=
  (∀ x y, f 64 x y = g x y) ∧
  ∀ x y : Word, (f 32 (aluArg true x) (aluArg true y)).setWidth 32 = h (x.setWidth 32) (y.setWidth 32)

theorem AluIs.res {f : AluFn} {g : Word → Word → Word} {h : Word32 → Word32 → Word32} (i : AluIs f g h) (w : Bool) (x y : Word) :
    aluRes w f x y = if w then (h (x.setWidth 32) (y.setWidth 32)).signExtend 64 else g x y := by
  cases w
  · simp [aluRes, i.1]
  · simp [aluRes, i.2]

theorem fnAdd_is : AluIs fnAdd (· + ·) (· + ·) := by
  refine ⟨fun x y => ?_, fun x y => ?_⟩
  · apply BitVec.eq_of_toNat_eq; simp [fnAdd]
  · apply BitVec.eq_of_toNat_eq; simp only [fnAdd, BitVec.toNat_setWidth, BitVec.toNat_ofNat, aluArg_toNat, BitVec.toNat_add]; omega
theorem fnSub_is : AluIs fnSub (· - ·) (· - ·) := by
  refine ⟨fun x y => ?_, fun x y => ?_⟩
  · apply BitVec.eq_of_toNat_eq; simp only [fnSub, BitVec.toNat_ofNat, BitVec.toNat_sub]; omega
  · apply BitVec.eq_of_toNat_eq; simp only [fnSub, BitVec.toNat_setWidth, BitVec.toNat_ofNat, aluArg_toNat, BitVec.toNat_sub]; omega
theorem fnMul_is : AluIs fnMul (· * ·) (· * ·) := by
  refine ⟨fun x y => ?_, fun x y => ?_⟩
  · apply BitVec.eq_of_toNat_eq; simp [fnMul]
  · apply BitVec.eq_of_toNat_eq; simp only [fnMul, BitVec.toNat_setWidth, BitVec.toNat_ofNat, aluArg_toNat, BitVec.toNat_mul]
    generalize x.toNat % 2 ^ 32 * (y.toNat % 2 ^ 32) = k; omega
theorem fnAnd_is : AluIs fnAnd (· &&& ·) (· &&& ·) := by
  refine ⟨fun _ _ => rfl, fun x y => ?_⟩
  ext i hi; simp [fnAnd, aluArg]
theorem fnOr_is : AluIs fnOr (· ||| ·) (· ||| ·) := by
  refine ⟨fun _ _ => rfl, fun x y => ?_⟩
  ext i hi; simp [fnOr, aluArg]
theorem fnXor_is : AluIs fnXor (· ^^^ ·) (· ^^^ ·) := by
  refine ⟨fun _ _ => rfl, fun x y => ?_⟩
  ext i hi; simp [fnXor, aluArg]

theorem ofNat_modN64 (z : Int) : BitVec.ofNat 64 (modN 64 z) = BitVec.ofInt 64 z := by
  apply BitVec.eq_of_toNat_eq
  simp only [BitVec.toNat_ofNat, BitVec.toNat_ofInt, modN]
  omega
theorem ofNat_modN32 (z : Int) : (BitVec.ofNat 64 (modN 32 z)).setWidth 32 = BitVec.ofInt 32 z := by
  apply BitVec.eq_of_toNat_eq
  simp only [BitVec.toNat_setWidth, BitVec.toNat_ofNat, BitVec.toNat_ofInt, modN]
  omega

theorem sdiv_ofInt {n : Nat} (x y : BitVec n) : x.sdiv y = BitVec.ofInt n (x.toInt.tdiv y.toInt) := by
  apply BitVec.eq_of_toInt_eq; rw [BitVec.toInt_sdiv, BitVec.toInt_ofInt]
theorem srem_ofInt {n : Nat} (x y : BitVec n) : x.srem y = BitVec.ofInt n (x.toInt.tmod y.toInt) := by
  rw [← BitVec.toInt_srem, BitVec.ofInt_toInt]

theorem fnDiv_is : AluIs fnDiv (fun x y => if y = 0 then BitVec.allOnes 64 else x.sdiv y) (fun x y => if y = 0 then BitVec.allOnes 32 else x.sdiv y) := by
  refine ⟨fun x y => ?_, fun x y => ?_⟩
  · simp only [fnDiv]; split
    · rfl
    · rw [ofNat_modN64, sgn64, sgn64, sdiv_ofInt]
  · simp only [fnDiv, aluArg_eq_zero, aluArg_toNat]; split
    · rfl
    · rw [ofNat_modN32, sgn32, sgn32, sdiv_ofInt]
theorem fnRem_is : AluIs fnRem (fun x y => if y = 0 then x else x.srem y) (fun x y => if y = 0 then x else x.srem y) := by
  refine ⟨fun x y => ?_, fun x y => ?_⟩
  · simp only [fnRem]; split
    · rfl
    · rw [ofNat_modN64, sgn64, sgn64, srem_ofInt]
  · simp only [fnRem, aluArg_eq_zero, aluArg_toNat]; split
    · apply BitVec.eq_of_toNat_eq; rw [BitVec.toNat_setWidth, aluArg_toNat]; simp
    · rw [ofNat_modN32, sgn32, sgn32, srem_ofInt]
theorem fnDivu_is : AluIs fnDivu (fun x y => if y = 0 then BitVec.allOnes 64 else x / y) (fun x y => if y = 0 then BitVec.allOnes 32 else x / y) := by
  refine ⟨fun x y => ?_, fun x y => ?_⟩
  · simp only [fnDivu]; split
    · rfl
    · apply BitVec.eq_of_toNat_eq; simp only [BitVec.toNat_ofNat, BitVec.toNat_udiv]
      exact Nat.mod_eq_of_lt (lt_of_le_of_lt (Nat.div_le_self _ _) x.isLt)
  · simp only [fnDivu, aluArg_eq_zero, aluArg_toNat]; split
    · rfl
    · apply BitVec.eq_of_toNat_eq; simp only [BitVec.toNat_setWidth, BitVec.toNat_ofNat, BitVec.toNat_udiv]
      have := Nat.div_le_self (x.toNat % 2 ^ 32) (y.toNat % 2 ^ 32)
      generalize x.toNat % 2 ^ 32 / (y.toNat % 2 ^ 32) = k at this ⊢
      omega
theorem fnRemu_is : AluIs fnRemu (fun x y => if y = 0 then x else x % y) (fun x y => if y = 0 then x else x % y) := by
  refine ⟨fun x y => ?_, fun x y => ?_⟩
  · simp only [fnRemu]; split
    · rfl
    · apply BitVec.eq_of_toNat_eq; simp only [BitVec.toNat_ofNat, BitVec.toNat_umod]
      exact Nat.mod_eq_of_lt (lt_of_le_of_lt (Nat.mod_le _ _) x.isLt)
  · simp only [fnRemu, aluArg_eq_zero, aluArg_toNat]; split
    · apply BitVec.eq_of_toNat_eq; rw [BitVec.toNat_setWidth, aluArg_toNat]; simp
    · apply BitVec.eq_of_toNat_eq; simp only [BitVec.toNat_setWidth, BitVec.toNat_ofNat, BitVec.toNat_umod]
      have := Nat.mod_le (x.toNat % 2 ^ 32) (y.toNat % 2 ^ 32)
      omega
theorem fnShl_is : AluIs fnShl (fun x y => x <<< (y.toNat % 64)) (fun x y => x <<< (y.toNat % 32)) := by
  refine ⟨fun x y => ?_, fun x y => ?_⟩
  · apply BitVec.eq_of_toNat_eq; simp [fnShl, BitVec.toNat_shiftLeft, Nat.shiftLeft_eq]
  · apply BitVec.eq_of_toNat_eq
    simp only [fnShl, aluArg_toNat, BitVec.toNat_setWidth, BitVec.toNat_ofNat, BitVec.toNat_shiftLeft, Nat.shiftLeft_eq]
    generalize x.toNat % 2 ^ 32 * 2 ^ (y.toNat % 2 ^ 32 % 32) = k; omega
theorem fnShr_is : AluIs fnShr (fun x y => x >>> (y.toNat % 64)) (fun x y => x >>> (y.toNat % 32)) := by
  refine ⟨fun x y => ?_, fun x y => ?_⟩
  · apply BitVec.eq_of_toNat_eq; simp only [fnShr, BitVec.toNat_ofNat, BitVec.toNat_ushiftRight, Nat.shiftRight_eq_div_pow]
    exact Nat.mod_eq_of_lt (lt_of_le_of_lt (Nat.div_le_self _ _) x.isLt)
  · apply BitVec.eq_of_toNat_eq
    simp only [fnShr, aluArg_toNat, BitVec.toNat_setWidth, BitVec.toNat_ofNat, BitVec.toNat_ushiftRight, Nat.shiftRight_eq_div_pow]
    have := Nat.div_le_self (x.toNat % 2 ^ 32) (2 ^ (y.toNat % 2 ^ 32 % 32))
    generalize x.toNat % 2 ^ 32 / 2 ^ (y.toNat % 2 ^ 32 % 32) = k at this ⊢
    omega
theorem fnSar_is : AluIs fnSar (fun x y => x.sshiftRight (y.toNat % 64)) (fun x y => x.sshiftRight (y.toNat % 32)) := by
  refine ⟨fun x y => ?_, fun x y => ?_⟩
  · simp only [fnSar, ofNat_modN64, sgn64, BitVec.sshiftRight_eq, Int.shiftRight_eq_div_pow]; norm_cast
  · simp only [fnSar, aluArg_toNat, ofNat_modN32, sgn32, BitVec.sshiftRight_eq, Int.shiftRight_eq_div_pow]
    rw [BitVec.toNat_setWidth, Nat.mod_mod_of_dvd _ (by norm_num)]; norm_cast
theorem fnSlt_is : AluIs fnSlt (fun x y => if x.toInt < y.toInt then 1 else 0) (fun x y => if x.toInt < y.toInt then 1 else 0) := by
  refine ⟨fun x y => ?_, fun x y => ?_⟩
  · simp only [fnSlt, sgn64]
  · simp only [fnSlt, aluArg_toNat, sgn32]; split <;> rfl
theorem fnSltu_is : AluIs fnSltu (fun x y => if x.toNat < y.toNat then 1 else 0) (fun x y => if x.toNat < y.toNat then 1 else 0) := by
  refine ⟨fun x y => ?_, fun x y => ?_⟩
  · simp only [fnSltu]
  · simp only [fnSltu, aluArg_toNat]; split <;> rfl
theorem aluArg_low (x : Word) : (aluArg true x).setWidth 32 = x.setWidth 32 := by
  apply BitVec.eq_of_toNat_eq; rw [BitVec.toNat_setWidth, aluArg_toNat]; simp
theorem fnMin_is : AluIs fnMin (fun x y => if y.toInt < x.toInt then y else x) (fun x y => if y.toInt < x.toInt then y else x) := by
  refine ⟨fun x y => ?_, fun x y => ?_⟩
  · simp only [fnMin, sgn64]
  · simp only [fnMin, aluArg_toNat, sgn32]; split <;> exact aluArg_low _
theorem fnMax_is : AluIs fnMax (fun x y => if x.toInt < y.toInt then y else x) (fun x y => if x.toInt < y.toInt then y else x) := by
  refine ⟨fun x y => ?_, fun x y => ?_⟩
  · simp only [fnMax, sgn64]
  · simp only [fnMax, aluArg_toNat, sgn32]; split <;> exact aluArg_low _
theorem fnMinu_is : AluIs fnMinu (fun x y => if y.toNat < x.toNat then y else x) (fun x y => if y.toNat < x.toNat then y else x) := by
  refine ⟨fun x y => ?_, fun x y => ?_⟩
  · simp only [fnMinu]
  · simp only [fnMinu, aluArg_toNat]; split <;> exact aluArg_low _
theorem fnMaxu_is : AluIs fnMaxu (fun x y => if x.toNat < y.toNat then y else x) (fun x y => if x.toNat < y.toNat then y else x) := by
  refine ⟨fun x y => ?_, fun x y => ?_⟩
  · simp only [fnMaxu]
  · simp only [fnMaxu, aluArg_toNat]; split <;> exact aluArg_low _

/-- The high halves of a 128-bit product (R258). -/
theorem fnMulh_eq (x y : Word) : fnMulh 64 x y = ((x.signExtend 128 * y.signExtend 128).extractLsb' 64 64) := by
  have h : x.signExtend 128 * y.signExtend 128 = BitVec.ofInt 128 (x.toInt * y.toInt) := by
    rw [← BitVec.ofInt_toInt (x := x.signExtend 128), ← BitVec.ofInt_toInt (x := y.signExtend 128), ← BitVec.ofInt_mul,
      BitVec.toInt_signExtend_of_le (by norm_num), BitVec.toInt_signExtend_of_le (by norm_num)]
  rw [h, fnMulh, ofNat_modN64]
  apply BitVec.eq_of_toNat_eq
  simp only [BitVec.extractLsb'_toNat, BitVec.toNat_ofInt, Nat.shiftRight_eq_div_pow]
  generalize x.toInt * y.toInt = p
  omega
theorem fnMulhu_eq (x y : Word) : fnMulhu 64 x y = ((x.setWidth 128 * y.setWidth 128).extractLsb' 64 64) := by
  apply BitVec.eq_of_toNat_eq
  simp only [fnMulhu, BitVec.toNat_ofNat, BitVec.extractLsb'_toNat, BitVec.toNat_mul, BitVec.toNat_setWidth, Nat.shiftRight_eq_div_pow]
  have hx := x.isLt; have hy := y.isLt
  rw [Nat.mod_eq_of_lt (show x.toNat < 2 ^ 128 by omega), Nat.mod_eq_of_lt (show y.toNat < 2 ^ 128 by omega)]
  rw [Nat.mod_eq_of_lt (show x.toNat * y.toNat < 2 ^ 128 by nlinarith)]

end Sys2Proof.Machine
end

