-- ==== Sys2Proof/Laws/Exec.lean ====
section
/-!
SUPPORT. From the pieces of a meaning to its outcome: what reading an operand leaves unchanged, and what an instruction that completes leaves.
-/

namespace Sys2Proof.Machine

open Sys2Proof

theorem bind_ok {α β : Type} (a : α) (f : α → Except Stop β) : (Except.ok a >>= f : Except Stop β) = f a := rfl
theorem bind_err {α β : Type} (a : Stop) (f : α → Except Stop β) : ((Except.error a : Except Stop α) >>= f : Except Stop β) = .error a := rfl

/-- Two executions of the same instruction that differ in their registers only. -/
def Exe.Same (e e' : Exe) : Prop := e'.s = e.s ∧ e'.t = e.t ∧ e'.a = e.a ∧ e'.after = e.after

theorem Exe.Same.rfl' (e : Exe) : e.Same e := ⟨rfl, rfl, rfl, rfl⟩
theorem Exe.Same.trans {a b c : Exe} (h : a.Same b) (k : b.Same c) : a.Same c :=
  ⟨k.1.trans h.1, k.2.1.trans h.2.1, k.2.2.1.trans h.2.2.1, k.2.2.2.trans h.2.2.2⟩

/-- Reading a scalar source changes the scalar load queue only. -/
theorem Exe.srcS_frame {e e' : Exe} {r : Reg} {v : Word} (h : e.srcS r = .ok (v, e')) : e.Same e' ∧ e'.x = { e.x with slq := e'.x.slq } := by
  unfold Exe.srcS at h
  split at h
  · cases h; exact ⟨.rfl' _, rfl⟩
  · split at h
    · unfold Exe.popS at h
      split at h
      · cases h
      · cases h
      · cases h
      · simp only [Exe.softQ] at h
        split at h
        · cases h
        · cases h; exact ⟨⟨rfl, rfl, rfl, rfl⟩, rfl⟩
    · split at h
      · cases h
      · split at h
        · cases h
        · cases h; exact ⟨.rfl' _, rfl⟩

/-- Reading a vector source changes the vector load queue only. -/
theorem Exe.srcV_frame {e e' : Exe} {r : Reg} {v : Vec} (h : e.srcV r = .ok (v, e')) : e.Same e' ∧ e'.x = { e.x with vlq := e'.x.vlq } := by
  unfold Exe.srcV at h
  split at h
  · unfold Exe.popV at h
    split at h
    · cases h
    · cases h
    · cases h
    · simp only [Exe.softQ] at h
      split at h
      · cases h
      · cases h; exact ⟨⟨rfl, rfl, rfl, rfl⟩, rfl⟩
  · split at h
    · cases h
    · split at h
      · cases h
      · split at h
        · cases h
        · cases h; exact ⟨.rfl' _, rfl⟩

/-- A meaning that ends at a program counter: the outcome of its issue. -/
theorem issue_went {s : State} {t : TsId} {a : Activation} (ht : Turn s t a) {f : Exe → Except Stop Exe} {e : Exe} {pc : Word}
    (h : f (exeOf s t a) = .ok { e with x := { e.x with pc := pc } }) (ha : e.after = none) :
    ∃ u, issue s f = .next u ∧ Went e pc u := by
  refine ⟨_, ?_, Exe.commit_went e pc ha⟩
  exact issue_ok ht h

/-- The same for a meaning that has touched nothing but registers. -/
theorem issue_went_same {s : State} {t : TsId} {a : Activation} (ht : Turn s t a) {f : Exe → Except Stop Exe} {e : Exe} {pc : Word}
    (h : f (exeOf s t a) = .ok { e with x := { e.x with pc := pc } }) (hs : (exeOf s t a).Same e) :
    ∃ u, issue s f = .next u ∧ Went e pc u ∧ SameBytes s u := by
  obtain ⟨u, h1, h2⟩ := issue_went ht h hs.2.2.2
  refine ⟨u, h1, h2, ?_⟩
  have := h2.1.bytes
  rw [hs.1] at this
  exact this

theorem issue_next_same {s : State} {t : TsId} {a : Activation} (ht : Turn s t a) {f : Exe → Except Stop Exe} {e : Exe}
    (h : f (exeOf s t a) = e.next) (hs : (exeOf s t a).Same e) : ∃ u, issue s f = .next u ∧ Retired e 4 u ∧ SameBytes s u :=
  issue_went_same ht h hs

/-! ## The ALU forms -/

theorem aluR_next {s : State} {t : TsId} {act : Activation} (ht : Turn s t act) {f : AluFn} {g : Word → Word → Word} {h' : Word32 → Word32 → Word32}
    (i : AluIs f g h') {dz : Bool} {d a b : Reg} {w : Bool} {x y : Word} {e1 e2 : Exe} (h1 : (exeOf s t act).srcS a = .ok (x, e1))
    (h2 : e1.srcS b = .ok (y, e2)) (h3 : e2.roomS d = .ok ()) (hz : ¬(dz = true ∧ e2.x.trapen.getLsbD 0 = true ∧ aluArg w y = 0)) :
    ∃ u, aluR f dz d a b w s = .next u ∧ Retired (e2.putS d (if w then (h' (x.setWidth 32) (y.setWidth 32)).signExtend 64 else g x y)) 4 u ∧
      SameBytes s u := by
  refine issue_next_same ht ?_ ((Exe.srcS_frame h1).1.trans (Exe.srcS_frame h2).1)
  have hz : (dz && e2.x.trapen.getLsbD 0 && decide (aluArg w y = 0)) = false := by
    by_contra hc
    simp only [Bool.not_eq_false, Bool.and_eq_true, decide_eq_true_eq] at hc
    exact hz ⟨hc.1.1, hc.1.2, hc.2⟩
  simp only [h1, h2, h3, hz, bind_ok, Bool.false_eq_true, if_false, ← i.res]

theorem aluR_trap {s : State} {t : TsId} {act : Activation} (ht : Turn s t act) {f : AluFn} {d a b : Reg} {w : Bool} {x y : Word} {e1 e2 : Exe}
    (h1 : (exeOf s t act).srcS a = .ok (x, e1)) (h2 : e1.srcS b = .ok (y, e2)) (h3 : e2.roomS d = .ok ()) (h4 : e2.x.trapen.getLsbD 0 = true)
    (h5 : aluArg w y = 0) : aluR f true d a b w s = .next ((s.tick t false).takeTrap t Cause.divz.code 0) := by
  refine issue_trap (c' := Cause.divz.code) (x' := 0) ht ?_ (fun v => ?_)
  · simp only [h1, h2, h3, h4, h5, bind_ok, Bool.true_and, decide_true, if_true]
    rfl
  · simp only [Exe.srcS_sound h1 v, Exe.srcS_sound h2 v, Exe.roomS_sound, Exe.trapen_sound, h3, h4, h5, bind_ok, Bool.true_and, decide_true, if_true]
    rfl

theorem aluI_next {s : State} {t : TsId} {act : Activation} (ht : Turn s t act) {f : Word → Word} {d a : Reg} {x : Word} {e1 : Exe}
    (h1 : (exeOf s t act).srcS a = .ok (x, e1)) (h3 : e1.roomS d = .ok ()) :
    ∃ u, aluI f d a s = .next u ∧ Retired (e1.putS d (f x)) 4 u ∧ SameBytes s u := by
  refine issue_next_same ht ?_ (Exe.srcS_frame h1).1
  simp only [h1, h3, bind_ok]

/-- Reading the second operand of an L-form changes nothing but the constant cache. -/
theorem Exe.kop_frame {e e' : Exe} {k : KOp} {w : Bool} {v : Word} (h : e.kop k w = .ok (v, e')) :
    e'.s = { e.s with bundles := e'.s.bundles } ∧ e'.t = e.t ∧ e'.a = e.a ∧ e'.after = e.after ∧ e'.x = e.x := by
  unfold Exe.kop at h
  split at h
  · cases h; exact ⟨rfl, rfl, rfl, rfl, rfl⟩
  · unfold Exe.window at h
    simp only at h
    split at h
    · cases h
    · split at h
      · cases h
      · revert h
        cases e.check _ _ _ with
        | error c => intro h; cases h
        | ok bs =>
          intro h
          simp only [bind_ok] at h
          split at h
          · cases h
          · split at h
            · cases h
            · split at h
              · cases h
              · cases h
                refine ⟨?_, rfl, rfl, rfl, rfl⟩
                simp only [State.cacheRead]
                repeat' split
                all_goals rfl

theorem aluK_next {s : State} {t : TsId} {act : Activation} (ht : Turn s t act) {f : AluFn} {g : Word → Word → Word} {h' : Word32 → Word32 → Word32}
    (i : AluIs f g h') {dz : Bool} {d a : Reg} {w : Bool} {k : KOp} {x y : Word} {e1 e2 : Exe} (h1 : (exeOf s t act).srcS a = .ok (x, e1))
    (h3 : e1.roomS d = .ok ()) (h2 : e1.kop k w = .ok (y, e2)) (hz : ¬(dz = true ∧ e2.x.trapen.getLsbD 0 = true ∧ aluArg w y = 0)) :
    ∃ u, aluK f dz d a w k s = .next u ∧ Retired (e2.putS d (if w then (h' (x.setWidth 32) (y.setWidth 32)).signExtend 64 else g x y)) 8 u ∧
      SameBytes s u := by
  obtain ⟨k1, k2, k3, k4, k5⟩ := Exe.kop_frame h2
  obtain ⟨⟨a1, a2, a3, a4⟩, -⟩ := Exe.srcS_frame h1
  have hz : (dz && e2.x.trapen.getLsbD 0 && decide (aluArg w y = 0)) = false := by
    by_contra hc
    simp only [Bool.not_eq_false, Bool.and_eq_true, decide_eq_true_eq] at hc
    exact hz ⟨hc.1.1, hc.1.2, hc.2⟩
  obtain ⟨u, h5, h6⟩ : ∃ u, aluK f dz d a w k s = .next u ∧
      Retired (e2.putS d (if w then (h' (x.setWidth 32) (y.setWidth 32)).signExtend 64 else g x y)) 8 u := by
    refine issue_went ht ?_ (k4.trans a4)
    simp only [h1, h2, h3, hz, bind_ok, Bool.false_eq_true, if_false, ← i.res]
    rfl
  refine ⟨u, h5, h6, fun x hx => ?_⟩
  have hb : e2.s.inBrd x = false := by
    rw [k1, a1]; exact hx
  rw [h6.1.bytes x hb]
  show e2.s.rdByte x = _
  rw [k1, a1]; rfl

/-! ## Operations -/

/-- An operation other than a block read leaves every byte as it reads. -/
theorem State.inBrd_push (s : State) (o : Op) (n x : Nat) (h : o.kind ≠ .brd) :
    ({ s with ops := s.ops ++ [o], nextId := n } : State).inBrd x = s.inBrd x := by
  have hr : ({ s with ops := s.ops ++ [o], nextId := n } : State).ringControl x = s.ringControl x := rfl
  simp [State.inBrd, hr, List.any_append, h]
theorem State.rdByte_push (s : State) (o : Op) (n x : Nat) (h : o.kind ≠ .brd) :
    ({ s with ops := s.ops ++ [o], nextId := n } : State).rdByte x = s.rdByte x := by
  have := State.inBrd_push s o n x h
  unfold State.rdByte
  rw [this]; rfl

/-- Bytes stay undefined by block reads only where they were before. -/
def BrdWithin (s u : State) : Prop := ∀ x, u.inBrd x = true → s.inBrd x = true
theorem State.inBrd_drop (s : State) (id : Nat) : BrdWithin s (s.dropOp id) := by
  intro x h
  have hr : (s.dropOp id).ringControl x = s.ringControl x := rfl
  simp only [State.inBrd, hr, Bool.and_eq_true, List.any_eq_true] at h ⊢
  obtain ⟨⟨o, h1, h2⟩, h3⟩ := h
  exact ⟨⟨o, List.mem_of_mem_filter h1, h2⟩, h3⟩
theorem State.inBrd_set (s : State) (o : Op) (h : o.kind ≠ .brd) : BrdWithin s (s.setOp o) := by
  intro x hx
  have hr : (s.setOp o).ringControl x = s.ringControl x := rfl
  simp only [State.inBrd, hr, Bool.and_eq_true, List.any_eq_true] at hx ⊢
  obtain ⟨⟨o', h1, h2⟩, h4⟩ := hx
  obtain ⟨z, hz, h3⟩ := List.mem_map.1 h1
  split at h3
  · subst h3; simp [h] at h2
  · subst h3; exact ⟨⟨_, hz, h2⟩, h4⟩
theorem State.inBrd_wr (d : List Byte) : ∀ (s : State) (a x : Nat), (s.wr a d).inBrd x = s.inBrd x := by
  induction d with
  | nil => intro s a x; rfl
  | cons b r ih =>
    intro s a x
    rw [State.wr, ih]
    unfold State.wrByte
    split
    · rfl
    · split <;> rfl

/-- Two states that differ in nothing that a defined byte depends on. -/
theorem State.rdByte_ops {s u : State} (h : u = { s with ops := u.ops }) (x : Nat) (h1 : s.inBrd x = false) (h2 : u.inBrd x = false) :
    u.rdByte x = s.rdByte x := by
  unfold State.rdByte
  rw [h1, h2, h]; rfl

theorem State.length_sliceB (l : List Byte) (o n : Nat) : (sliceB l o n).length = n := by
  simp only [sliceB, List.length_append, List.length_take, List.length_drop, List.length_replicate]; omega

theorem State.wr_ts (d : List Byte) : ∀ (s : State) (a : Nat), (s.wr a d).ts = s.ts := by
  induction d with
  | nil => intro s a; rfl
  | cons b r ih =>
    intro s a
    rw [State.wr, ih]
    unfold State.wrByte
    split
    · rfl
    · split <;> rfl

/-- A store by an agent that does not own the bytes changes no thread set and settles no block read. -/
theorem State.wrRw_kept (d : List Byte) : ∀ (s : State) (a : Nat), (s.wrRw a d).ts = s.ts ∧ ∀ x, (s.wrRw a d).inBrd x = s.inBrd x := by
  induction d with
  | nil => intro s a; exact ⟨rfl, fun _ => rfl⟩
  | cons b r ih =>
    intro s a
    have h : (s.wrFree a b).ts = s.ts ∧ ∀ x, (s.wrFree a b).inBrd x = s.inBrd x := by
      unfold State.wrFree
      split
      · exact ⟨rfl, fun _ => rfl⟩
      · exact ⟨State.wr_ts [b] s a, fun x => State.inBrd_wr [b] s a x⟩
    exact ⟨(ih _ _).1.trans h.1, fun x => ((ih _ _).2 x).trans (h.2 x)⟩

/-- What a piece put to memory, or dropped at a firewall, leaves unchanged. -/
theorem State.put_frame (s : State) (g : Seg) (d : List Byte) (h : d.length = g.len) :
    (s.put g d).ts = s.ts ∧ (∀ x, (s.put g d).inBrd x = s.inBrd x) ∧ ∀ x, (x < g.bus ∨ g.bus + g.len ≤ x) → (s.put g d).rdByte x = s.rdByte x := by
  unfold State.put
  split
  · exact ⟨rfl, fun _ => rfl, fun _ _ => rfl⟩
  · exact ⟨(State.wrRw_kept d s g.bus).1, (State.wrRw_kept d s g.bus).2, fun x hx => State.rdByte_wrRw_outside _ _ _ _ (by rw [h]; exact hx)⟩

/-- A piece of a store changes its own bytes only. -/
theorem State.storePiece_frame (s : State) (o : Op) (hk : o.kind ≠ .brd) :
    BrdWithin s (s.storePiece o) ∧ (s.storePiece o).ts = s.ts ∧
    ∀ x, s.inBrd x = false → (∀ g ∈ o.segs, x < g.bus ∨ g.bus + g.len ≤ x) → (s.storePiece o).rdByte x = s.rdByte x := by
  unfold State.storePiece
  split
  · exact ⟨State.inBrd_drop s o.id, rfl, fun x hx _ => State.rdByte_ops rfl x hx (by
      by_contra hc; have := State.inBrd_drop s o.id x (by simpa using hc); simp [hx] at this)⟩
  · rename_i g r hs
    split
    · exact ⟨fun _ h => h, rfl, fun _ _ _ => rfl⟩
    · obtain ⟨hts, hw, hr⟩ := State.put_frame s g (sliceB o.data g.off g.len) (State.length_sliceB _ _ _)
      have hg : ∀ x, (∀ g ∈ o.segs, x < g.bus ∨ g.bus + g.len ≤ x) → x < g.bus ∨ g.bus + g.len ≤ x := fun x ho => ho g (by rw [hs]; simp)
      simp only
      split
      · refine ⟨fun x h => ?_, hts, fun x hx ho => ?_⟩
        · rw [← hw]; exact State.inBrd_drop _ _ x h
        · rw [← hr x (hg x ho)]
          refine State.rdByte_ops rfl x (by rw [hw]; exact hx) ?_
          by_contra hc
          have := State.inBrd_drop _ _ x (by simpa using hc)
          rw [hw] at this; simp [hx] at this
      · refine ⟨fun x h => ?_, hts, fun x hx ho => ?_⟩
        · rw [← hw]; exact State.inBrd_set _ _ (by exact hk) x h
        · rw [← hr x (hg x ho)]
          refine State.rdByte_ops rfl x (by rw [hw]; exact hx) ?_
          by_contra hc
          have := State.inBrd_set _ { o with segs := r } (by exact hk) x (by simpa using hc)
          rw [hw] at this; simp [hx] at this

theorem State.storeSegs_frame (o : Op) (hk : o.kind ≠ .brd) : ∀ (l : List Seg) (s : State),
    BrdWithin s (s.storeSegs o l) ∧ (s.storeSegs o l).ts = s.ts ∧
    ∀ x, s.inBrd x = false → (∀ g ∈ l, x < g.bus ∨ g.bus + g.len ≤ x) → (s.storeSegs o l).rdByte x = s.rdByte x := by
  intro l
  induction l with
  | nil => intro s; exact ⟨fun _ h => h, rfl, fun _ _ _ => rfl⟩
  | cons g r ih =>
    intro s
    rw [State.storeSegs]
    split
    · obtain ⟨a1, a2, a3⟩ := State.storePiece_frame s { o with segs := g :: r } hk
      obtain ⟨b1, b2, b3⟩ := ih (s.storePiece { o with segs := g :: r })
      refine ⟨fun x h => a1 x (b1 x h), b2.trans a2, fun x hx ho => ?_⟩
      have h1 : (s.storePiece { o with segs := g :: r }).inBrd x = false := by
        by_contra hc; have := a1 x (by simpa using hc); simp [hx] at this
      exact (b3 x h1 (fun y hy => ho y (List.mem_cons_of_mem _ hy))).trans (a3 x hx ho)
    · exact ⟨fun _ h => h, rfl, fun _ _ _ => rfl⟩

/-- A store at issue: what it leaves, whether a scratchpad takes it at once or it stays outstanding (R81, R157). -/
theorem issue_store {s : State} {t : TsId} {act : Activation} (ht : Turn s t act) {e : Exe} {k : OpKind} {bs : List Block} {segs : List Seg} {d : List Byte}
    {f : Op → Op} {g : Exe → Except Stop Exe} (hs : (exeOf s t act).Same e) (hr : s.replay t = []) (hn : anyNr bs = false) (hk : k ≠ .brd)
    (hf : ∀ o, (f o).kind = o.kind ∧ (f o).segs = o.segs ∧ (f o).data = o.data ∧ (f o).t = o.t)
    (hg : g (exeOf s t act) = (e.store k bs segs d f >>= fun e => e.next)) :
    ∃ u, issue s g = .next u ∧ (u.tsGet t).pc = e.x.pc + 4 ∧ (u.tsGet t).ssq = e.x.ssq ∧ (u.tsGet t).vsq = e.x.vsq ∧ (u.tsGet t).sreg = e.x.sreg ∧
      (∀ x, (∀ g ∈ segs, x < g.bus ∨ g.bus + g.len ≤ x) → s.inBrd x = false → u.rdByte x = s.rdByte x) ∧
      ((∃ g ∈ segs, g.bus < scratchBase) → SameBytes s u ∧ ∃ o, o.t = t ∧ o.kind = k ∧ o.segs = segs ∧ o.data = d ∧ u.ops = s.ops ++ [o]) := by
  obtain ⟨a1, a2, a3, a4⟩ := hs
  have a1 : e.s = s := a1
  have a2 : e.t = t := a2
  have a4 : e.after = none := a4
  have hrep : e.s.replay e.t = [] := by rw [a1, a2]; exact hr
  set o0 := f { e.mkOp k with segs := segs, data := d, pages := pagesOf bs, width := d.length } with ho0
  obtain ⟨k1, k2, k3, k4⟩ := hf { e.mkOp k with segs := segs, data := d, pages := pagesOf bs, width := d.length }
  have hst : e.store k bs segs d f = .ok (if segs.all (fun g => decide (scratchBase ≤ g.bus)) then { e.send { o0 with seq := 0 } with after := some { o0 with seq := 0 } } else e.send { o0 with seq := 0 }) := by
    unfold Exe.store
    simp [hn, hrep]
    rfl
  rw [hst, bind_ok] at hg
  rw [issue_turn ht, show (exeOf s t act).run g = _ from Exe.run_ok hg, ← Exe.next]
  refine ⟨_, rfl, ?_⟩
  have hkb : ({ o0 with seq := 0 } : Op).kind ≠ .brd := by show o0.kind ≠ _; rw [ho0, k1]; exact hk
  have push := State.inBrd_push s { o0 with seq := 0 } (s.nextId + 1)
  have pushR := fun x => State.rdByte_push s { o0 with seq := 0 } (s.nextId + 1) x hkb
  split
  · rename_i hall
    set s1 := ((e.send { o0 with seq := 0 }).s.tsSet e.t { e.x with pc := e.x.pc + 4, stall := none }).tick e.t false with hs1
    obtain ⟨f1, f2, f3⟩ := State.storeSegs_frame { o0 with seq := 0 } hkb o0.segs s1
    have hu : (finish s t ((({ e.send { o0 with seq := 0 } with after := some { o0 with seq := 0 } } : Exe)).next)) = s1.storeSegs { o0 with seq := 0 } o0.segs := by
      rfl
    rw [hu]
    have hts : (s1.storeSegs { o0 with seq := 0 } o0.segs).tsGet t = s1.tsGet t := by simp only [State.tsGet, f2]
    have h1 := (State.tick_tsGet ((e.send { o0 with seq := 0 }).s.tsSet e.t { e.x with pc := e.x.pc + 4, stall := none }) e.t).1
    rw [hts]
    have hx1 : s1.tsGet t = { e.x with pc := e.x.pc + 4, stall := none, run := e.s.runOf e.t e.x.run + 1, wbudget := (s1.tsGet t).wbudget } := by
      rw [← a2]; rw [hs1, h1]; simp only [State.tsGet_tsSet]; rfl
    refine ⟨by rw [hx1], by rw [hx1], by rw [hx1], by rw [hx1], fun x hx hb => ?_, fun ⟨g, hg1, hg2⟩ => ?_⟩
    · rw [f3 x]
      · have hk : OthersKept (e.send { o0 with seq := 0 }).s s1 e.t := (OthersKept.tsSet (e.send { o0 with seq := 0 }).s e.t { e.x with pc := e.x.pc + 4, stall := none }).trans (State.tick_others _ _ false)
        rw [hk.bytes x (by show ({ e.s with ops := e.s.ops ++ [({ o0 with seq := 0 } : Op)], nextId := e.s.nextId + 1 } : State).inBrd x = _; rw [a1, push x hkb]; exact hb)]
        show ({ e.s with ops := e.s.ops ++ [({ o0 with seq := 0 } : Op)], nextId := e.s.nextId + 1 } : State).rdByte x = _
        rw [a1]; exact pushR x
      · show ({ e.s with ops := e.s.ops ++ [({ o0 with seq := 0 } : Op)], nextId := e.s.nextId + 1 } : State).inBrd x = _
        rw [a1, push x hkb]; exact hb
      · rw [ho0, k2]; exact hx
    · have := List.all_eq_true.mp hall g hg1
      have := of_decide_eq_true this
      omega
  · have hw := Exe.commit_retired (e.send { o0 with seq := 0 }) 4 (by exact a4)
    have hu : finish s t (e.send { o0 with seq := 0 }).next = ({ e.send { o0 with seq := 0 } with x := { e.x with pc := e.x.pc + BitVec.ofNat 64 4 } } : Exe).commit := rfl
    rw [hu]
    set u := ({ e.send { o0 with seq := 0 } with x := { e.x with pc := e.x.pc + BitVec.ofNat 64 4 } } : Exe).commit
    have hw : Retired (e.send { o0 with seq := 0 }) 4 u := hw
    have hx : u.tsGet t = { e.x with pc := e.x.pc + BitVec.ofNat 64 4, stall := none, run := e.s.runOf e.t e.x.run + 1, wbudget := (u.tsGet t).wbudget } := by
      rw [← a2]; exact hw.2.1
    have same : SameBytes s u := by
      intro x hb
      rw [hw.1.bytes x (by show ({ e.s with ops := e.s.ops ++ [({ o0 with seq := 0 } : Op)], nextId := e.s.nextId + 1 } : State).inBrd x = _; rw [a1, push x hkb]; exact hb)]
      show ({ e.s with ops := e.s.ops ++ [({ o0 with seq := 0 } : Op)], nextId := e.s.nextId + 1 } : State).rdByte x = _
      rw [a1]; exact pushR x
    refine ⟨by rw [hx]; rfl, by rw [hx], by rw [hx], by rw [hx], fun x _ hb => same x hb, fun _ => ⟨same, { o0 with seq := 0 }, ?_, ?_, ?_, ?_, ?_⟩⟩
    · show o0.t = t; rw [ho0, k4]; exact a2
    · show o0.kind = k; rw [ho0, k1]; rfl
    · show o0.segs = segs; rw [ho0, k2]
    · show o0.data = d; rw [ho0, k3]
    · have := congrArg State.ops hw.1.1
      simp only [Exe.send, a1] at this
      exact this

end Sys2Proof.Machine
end

