-- ==== Sys2Proof/Tests/Slice0.lean ====
section
/-!
SUPPORT. The model's own tests: words of every constructor, ill-formed terms, steps worked out by hand, and for every statement with hypotheses a
witness that they can hold together.
-/

namespace Sys2Proof.Tests

set_option Elab.async false
set_option maxRecDepth 100000
set_option exponentiation.threshold 2000

open Sys2Proof Sys2Proof.Machine Sys2Proof.Claims

/-! ## Decoding: a word of every constructor, from the encoding tables of the manual (R215 to R229; its fields beside spec/opcode_table.json's) -/

def readsN (l : List (Word32 × Word32 × Instr)) : Bool := l.all fun x => match decodeNorson x.1 x.2.1 with | .ok i => decide (i = x.2.2) | .error _ => false
def readsL (l : List (Word × Instr)) : Bool := l.all fun x => match decodeLivik x.1 with | .ok i => decide (i = x.2) | .error _ => false
theorem test_decode_norson0 : readsN [
    (0x04EC9C00, 0, .add 7 12 19 true), (0x04EC9C01, 0, .sub 7 12 19 true), (0x04EC9C02, 0, .mul 7 12 19 true),
    (0x04EC9803, 0, .mulh 7 12 19), (0x04EC9804, 0, .mulhu 7 12 19), (0x04EC9C05, 0, .div 7 12 19 true),
    (0x04EC9C06, 0, .divu 7 12 19 true), (0x04EC9C07, 0, .rem 7 12 19 true), (0x04EC9C08, 0, .remu 7 12 19 true),
    (0x04EC9C09, 0, .and 7 12 19 true), (0x04EC9C0A, 0, .or 7 12 19 true), (0x04EC9C0B, 0, .xor 7 12 19 true),
    (0x04EC9C0C, 0, .shl 7 12 19 true), (0x04EC9C0D, 0, .shr 7 12 19 true), (0x04EC9C0E, 0, .sar 7 12 19 true),
    (0x04EC9C0F, 0, .slt 7 12 19 true), (0x04EC9C10, 0, .sltu 7 12 19 true), (0x04EC9C11, 0, .min 7 12 19 true),
    (0x04EC9C12, 0, .max 7 12 19 true), (0x04EC9C13, 0, .minu 7 12 19 true), (0x04EC9C14, 0, .maxu 7 12 19 true),
    (0x04EC0415, 0, .clz 7 12 true), (0x04EC0416, 0, .popc 7 12 true), (0x08EC8123, 0, .addi 7 12 0x8123)] = true := by decide +kernel
theorem test_decode_norson1 : readsN [
    (0x0CEC8123, 0, .andi 7 12 0x8123), (0x10EC8123, 0, .ori 7 12 0x8123), (0x14EC8123, 0, .xori 7 12 0x8123),
    (0x1CEC8123, 0, .slti 7 12 0x8123), (0x18EC0021, 0, .shiShl 7 12 0x21), (0x18EC0070, 0, .shiShr 7 12 0x30),
    (0x18EC00BF, 0, .shiSar 7 12 0x3f), (0x20E28123, 0, .lih 7 2 0x8123), (0x28EC9E00, 0, .fadd 7 12 19 true 2),
    (0x28EC9E01, 0, .fsub 7 12 19 true 2), (0x28EC9E02, 0, .fmul 7 12 19 true 2), (0x28EC9E03, 0, .ffma 7 12 19 true 2),
    (0x28EC9E04, 0, .fdiv 7 12 19 true 2), (0x28EC0605, 0, .fsqrt 7 12 true 2), (0x28EC9C06, 0, .fmin 7 12 19 true),
    (0x28EC9C07, 0, .fmax 7 12 19 true), (0x28EC9C08, 0, .fcmpEq 7 12 19 true), (0x28EC9C28, 0, .fcmpLt 7 12 19 true),
    (0x28EC9C48, 0, .fcmpLe 7 12 19 true), (0x28EC9C68, 0, .fcmpUn 7 12 19 true), (0x28EC0609, 0, .fcvtF 7 12 true 2),
    (0x28EC0629, 0, .fcvtF2i 7 12 true 2), (0x28EC0649, 0, .fcvtF2u 7 12 true 2), (0x28EC0669, 0, .fcvtI2f 7 12 true 2)] = true := by decide +kernel
theorem test_decode_norson2 : readsN [
    (0x28EC0689, 0, .fcvtU2f 7 12 true 2), (0x41CC8123, 0, .ld 1 true 2 12 0x8123), (0x474C8123, 0, .st 3 2 12 0x8123),
    (0x482C8123, 0, .vld 1 12 0x8123), (0x4C2C8123, 0, .vst 1 12 0x8123), (0x582C8123, 0, .pref 1 12 0x8123),
    (0x500C9D40, 0, .vgath 12 19 5 2), (0x540C9D40, 0, .vscat 12 19 5 2), (0x5CEC9C01, 0, .brd 7 12 19 0x401),
    (0x60EC9FFF, 0, .bwr 7 12 19 0x7ff), (0x64EC0000, 0, .copy 7 12), (0x680C9B20, 0, .amoAdd 12 19 true true false 1),
    (0x680C9B21, 0, .amoFadd 12 19 true true false 1), (0x680C9B22, 0, .amoMin 12 19 true true false 1), (0x680C9B23, 0, .amoMax 12 19 true true false 1),
    (0x680C9B24, 0, .amoMinu 12 19 true true false 1), (0x680C9B25, 0, .amoMaxu 12 19 true true false 1), (0x680C9B26, 0, .amoAnd 12 19 true true false 1),
    (0x680C9B27, 0, .amoOr 12 19 true true false 1), (0x680C9B28, 0, .amoXor 12 19 true true false 1), (0x680C9B29, 0, .amoSwap 12 19 true true false 1),
    (0x6ACC9B2A, 0, .amoCas 22 12 19 true true false 1), (0x81931FFF, 0, .beq 12 19 0x1fff), (0x81933002, 0, .bne 12 19 0x1002)] = true := by decide +kernel
theorem test_decode_norson3 : readsN [
    (0x81935002, 0, .blt 12 19 0x1002), (0x81937002, 0, .bge 12 19 0x1002), (0x81939002, 0, .bltu 12 19 0x1002),
    (0x8193B002, 0, .bgeu 12 19 0x1002), (0x80A0D002, 0, .bpa 5 0x1002), (0x80A0F002, 0, .bpn 5 0x1002),
    (0x84F00001, 0, .jal 7 0x100001), (0x88EC8002, 0, .jr 7 12 0x8002), (0x912C9804, 0, .send 9 12 19 4),
    (0x952C9804, 0, .sendo 9 12 19 4), (0x99200000, 0, .spawn 9), (0x9C000000, 0, .done),
    (0xA00C9800, 0, .gset 12 19 false), (0xA00C9801, 0, .gadd 12 19 false), (0xA00C9802, 0, .gmax 12 19 false),
    (0xA00C0003, 0, .gget 12), (0xA52CA580, 0, .bara 9 12 0xa5 4), (0xA92C0000, 0, .lnch 9 12),
    (0xAC000000, 0, .lend), (0xC0EC9D40, 0, .vadd 7 12 19 5 2), (0xC0EC9D41, 0, .vsub 7 12 19 5 2),
    (0xC0EC9D42, 0, .vmul 7 12 19 5 2), (0xC0EC9DC3, 0, .vfma 7 12 19 5 6), (0xC0EC9D44, 0, .vmin 7 12 19 5 2)] = true := by decide +kernel
theorem test_decode_norson4 : readsN [
    (0xC0EC9D45, 0, .vmax 7 12 19 5 2), (0xC0EC9D46, 0, .vand 7 12 19 5 2), (0xC0EC9D47, 0, .vor 7 12 19 5 2),
    (0xC0EC9D48, 0, .vxor 7 12 19 5 2), (0xC0EC9D49, 0, .vshl 7 12 19 5 2), (0xC0EC9D4A, 0, .vshr 7 12 19 5 2),
    (0xC0EC9D4B, 0, .vsar 7 12 19 5 2), (0xC0EC9D4C, 0, .vsel 7 12 19 5 2), (0xC3CC9D2D, 0, .vcmp 3 6 12 19 5 1),
    (0xC0E4054E, 0, .vbcast 7 4 5 2), (0xC0EC9D4F, 0, .vperm 7 12 19 5 2), (0xC0EC0D70, 0, .vred 7 12 1 5 3),
    (0xC4EC3560, 0, .vcvtConvert 7 12 6 5 3), (0xC67C88C1, 0, .vcvtTomx 19 28 true 1 6), (0xC79328C2, 0, .vcvtFrommx 28 19 5 6),
    (0xD3568217, 0, .mma 6 5 3 4 1 false true false 7), (0xD40C9830, 0, .mring 12 19 6), (0xD40C0029, 0, .mradv 12 5),
    (0xD4000012, 0, .mzero 2), (0xD4EC990B, 0, .mst 7 12 19 4 1), (0xE2800000, 0, .fenceAcq 5),
    (0xE1A00000, 0, .fenceRel 3), (0xE0C00000, 0, .fenceFull 1), (0xE4EC0014, 0, .spill 7 12 5)] = true := by decide +kernel
theorem test_decode_norson5 : readsN [
    (0xE4EC0015, 0, .fill 7 12 5), (0xE400001E, 0, .tokw 7), (0xE8E0002D, 0, .getsr 7 0x2d),
    (0xE80C8017, 0, .setsr 12 23), (0xEC000000, 0, .nop), (0xEC000001, 0, .yield),
    (0xEC0C004A, 0, .brk 12 9), (0xEC0C0043, 0, .trap 12 8), (0xEC000004, 0, .tretRetry),
    (0xEC00000C, 0, .tretSkip), (0xEC000014, 0, .tretKill), (0xF00C9800, 0, .gatew 12 19),
    (0xF00C9801, 0, .freeze 12 19), (0xF00C9802, 0, .thaw 12 19), (0xF00C9803, 0, .ktlb 12 19),
    (0xF40C9801, 0, .markq 12 19 true), (0x24EC0800, 0x89ABCDEF, .addK 7 12 true (.lit 0x89ABCDEF)), (0x24EC0C01, 0xBF00F000, .subK 7 12 true (.win 5 0x1F00F)),
    (0x24EC0802, 0x89ABCDEF, .mulK 7 12 true (.lit 0x89ABCDEF)), (0x24EC0403, 0xBF00F000, .mulhK 7 12 (.win 5 0x1F00F)), (0x24EC0004, 0x89ABCDEF, .mulhuK 7 12 (.lit 0x89ABCDEF)),
    (0x24EC0C05, 0xBF00F000, .divK 7 12 true (.win 5 0x1F00F)), (0x24EC0806, 0x89ABCDEF, .divuK 7 12 true (.lit 0x89ABCDEF)), (0x24EC0C07, 0xBF00F000, .remK 7 12 true (.win 5 0x1F00F))] = true := by decide +kernel
theorem test_decode_norson6 : readsN [
    (0x24EC0808, 0x89ABCDEF, .remuK 7 12 true (.lit 0x89ABCDEF)), (0x24EC0C09, 0xBF00F000, .andK 7 12 true (.win 5 0x1F00F)), (0x24EC080A, 0x89ABCDEF, .orK 7 12 true (.lit 0x89ABCDEF)),
    (0x24EC0C0B, 0xBF00F000, .xorK 7 12 true (.win 5 0x1F00F)), (0x24EC080C, 0x89ABCDEF, .shlK 7 12 true (.lit 0x89ABCDEF)), (0x24EC0C0D, 0xBF00F000, .shrK 7 12 true (.win 5 0x1F00F)),
    (0x24EC080E, 0x89ABCDEF, .sarK 7 12 true (.lit 0x89ABCDEF)), (0x24EC0C0F, 0xBF00F000, .sltK 7 12 true (.win 5 0x1F00F)), (0x24EC0810, 0x89ABCDEF, .sltuK 7 12 true (.lit 0x89ABCDEF)),
    (0x24EC0C11, 0xBF00F000, .minK 7 12 true (.win 5 0x1F00F)), (0x24EC0812, 0x89ABCDEF, .maxK 7 12 true (.lit 0x89ABCDEF)), (0x24EC0C13, 0xBF00F000, .minuK 7 12 true (.win 5 0x1F00F)),
    (0x24EC0814, 0x89ABCDEF, .maxuK 7 12 true (.lit 0x89ABCDEF))] = true := by decide +kernel
theorem test_decode_livik0 : readsL [
    (0x012C0000FEDCBA98, .aset 11 0xfedcba98), (0x0400000080000001, .goto 0x80000001), (0x052C000080000002, .goif 11 0x80000002),
    (0x0600000080000003, .gosub 0x80000003), (0x0700000000000000, .goret), (0x0800000000000000, .endp),
    (0x106C600000000000, .ctxnew 11 6), (0x116D600000000000, .ctxfork 11 6), (0x126C000000000000, .ctxdrop 11),
    (0x136C600000000000, .ctxtrim 11 6), (0x142D600000000000, .ctxlen 11 6), (0x206E600000000000, .append 11 6),
    (0x21AD6B4980000040, .genu 11 6 13 9 0x80000040), (0x222D6B4000000000, .score 11 6 13), (0x30AC000080000048, .tlit 11 0x80000048),
    (0x31AE6B4000000000, .tcat 11 6 13), (0x32AE634900000000, .tcut 11 6 13 9), (0x332E600000000000, .tlen 11 6),
    (0x342E6B4900000000, .tfind 11 6 13 9), (0x352E6B4000000000, .tcmp 11 6 13), (0x36AC600000000000, .tadd 11 6),
    (0x372E634000000000, .tget 11 6 13), (0x422C600000000000, .invoke 11 6), (0x432C000000000000, .stamp 11)] = true := by decide +kernel
theorem test_decode_livik1 : readsL [
    (0x022C634000000000, .acalcAdd 11 6 13), (0x022C634000000001, .acalcSub 11 6 13), (0x022C634000000002, .acalcMul 11 6 13),
    (0x022C634000000003, .acalcDiv 11 6 13), (0x022C634000000004, .acalcRem 11 6 13), (0x022C634000000005, .acalcAnd 11 6 13),
    (0x022C634000000006, .acalcOr 11 6 13), (0x022C634000000007, .acalcXor 11 6 13), (0x022C634000000008, .acalcShl 11 6 13),
    (0x022C634000000009, .acalcShr 11 6 13), (0x022C63400000000A, .acalcMin 11 6 13), (0x022C63400000000B, .acalcMax 11 6 13),
    (0x022C63400000000C, .acalcEq 11 6 13), (0x022C63400000000D, .acalcLt 11 6 13), (0x022C63400000000E, .acalcLtu 11 6 13),
    (0x156C000000000001, .ctxpinHold 11), (0x156C000000000000, .ctxpinRelease 11), (0x232D6B4080FEDCBA, .choose 11 6 13 true 0xFEDCBA),
    (0x232D6B4000000001, .choose 11 6 13 false 1), (0x402C634000000009, .post 11 6 (.a 13) 9), (0x412C6000000003E8, .await (.a 11) 6 1000),
    (0x402C674000000009, .post 11 6 (.c 13) 9), (0x416C6000000003E8, .await (.c 11) 6 1000), (0x402C6B4000000009, .post 11 6 (.t 13) 9)] = true := by decide +kernel
theorem test_decode_livik2 : readsL [
    (0x41AC6000000003E8, .await (.t 11) 6 1000)] = true := by decide +kernel
/-- The words of the examples of the manual that DecodingIsRight does not name. -/
theorem test_manual_norson0 : readsN [
    (0xE4860008, 0, .spill 4 6 2), (0xA8490000, 0, .lnch 2 9), (0x98800000, 0, .spawn 4),
    (0xAC000000, 0, .lend), (0x64C90000, 0, .copy 6 9), (0xF0042800, 0, .gatew 4 5),
    (0x18A10070, 0, .shiShr 5 1 48), (0x19850003, 0, .shiShl 12 5 3), (0x43040002, 0, .ld 3 false 0 4 2),
    (0x68042940, 0, .amoAdd 4 5 false true false 2), (0x83C01FFF, 0, .beq 30 0 0x1FFF), (0x8060C005, 0, .bpa 3 5),
    (0xC0853040, 0, .vadd 4 5 6 0 2), (0x0CA53FFF, 0, .andi 5 5 0x3FFF), (0x5CE4300F, 0, .brd 7 4 6 15),
    (0xEC05001A, 0, .brk 5 3), (0x60E4300F, 0, .bwr 7 4 6 15), (0xE4860009, 0, .fill 4 6 2),
    (0x29283C04, 0, .fdiv 9 8 7 true 0), (0xF0042801, 0, .freeze 4 5), (0xA0074002, 0, .gmax 7 8 false),
    (0x87A00028, 0, .jal 29 40), (0x881D0000, 0, .jr 0 29 0), (0xF0042803, 0, .ktlb 4 5)] = true := by decide +kernel
theorem test_manual_norson1 : readsN [
    (0xD4060011, 0, .mradv 6 2), (0xD4042800, 0, .mring 4 5 0), (0xD4E42893, 0, .mst 7 4 5 2 2),
    (0xD400000A, 0, .mzero 1), (0x10A50010, 0, .ori 5 5 0x10), (0x58240002, 0, .pref 1 4 2),
    (0xE8068007, 0, .setsr 6 7), (0x1CA6FFFF, 0, .slti 5 6 0xFFFF), (0x4505FFFF, 0, .st 1 0 5 0xFFFF),
    (0xF0042802, 0, .thaw 4 5), (0xE400000E, 0, .tokw 3), (0xC50220C1, 0, .vcvtTomx 8 2 false 4 6),
    (0x50043140, 0, .vgath 4 6 1 2), (0x48000003, 0, .vld 0 0 3), (0x14A6FFFF, 0, .xori 5 6 0xFFFF)] = true := by decide +kernel
theorem test_manual_livik0 : readsL [
    (0x218918C400000040, .genu 2 1 3 4 0x40), (0x020420C00000000E, .acalcLtu 1 2 3), (0x2046100000000000, .append 1 1),
    (0x1244000000000000, .ctxdrop 1), (0x140D200000000000, .ctxlen 3 2), (0x1044100000000000, .ctxnew 1 1),
    (0x1544000000000001, .ctxpinHold 1), (0x1344400000000000, .ctxtrim 1 4), (0x0600000000000014, .gosub 20),
    (0x4204200000000000, .invoke 1 2), (0x400428C000000009, .post 1 2 (.t 3) 9), (0x2215188000000000, .score 5 1 2),
    (0x4318000000000000, .stamp 6), (0x3688500000000000, .tadd 2 5), (0x3186188000000000, .tcat 1 1 2),
    (0x350628C000000000, .tcmp 1 2 3), (0x340628C400000000, .tfind 1 2 3 4), (0x370620C000000000, .tget 1 2 3),
    (0x3306200000000000, .tlen 1 2), (0x3084000000000048, .tlit 1 0x48)] = true := by decide +kernel

/-- Every check of WellFormed refuses a term of its own. -/
def illFormed : List Instr := [
    .add 30 1 2 false, .add 1 31 2 false, .add 1 2 31 false, .clz 30 1 false, .popc 1 31 true, .addK 30 1 false (.lit 0), .mulhuK 1 31 (.lit 0), .addi 30 0 0,
    .slti 0 31 0, .shiSar 30 0 0, .lih 31 0 0, .lih 30 0 0, .fadd 30 1 2 true 0, .ffma 31 1 2 true 0, .ffma 30 1 2 true 0, .fmin 1 31 2 false,
    .fsqrt 1 31 true 0, .fcvtU2f 30 1 false 0, .ld 0 false 3 1 0, .ld 3 true 0 1 0, .ld 0 false 0 31 0, .st 0 3 1 0, .vld 3 1 0, .vst 0 31 0,
    .pref 2 1 0, .pref 0 31 0, .vgath 31 1 0 0, .vscat 1 31 0 0, .brd 31 1 2 0, .bwr 1 2 31 0, .copy 31 1, .copy 1 31,
    .amoAdd 31 1 false false false 0, .amoSwap 1 31 false false false 0, .amoCas 31 1 2 false false false 0, .beq 31 0 0, .bgeu 0 31 0, .jal 30 0, .jr 30 0 0, .jr 0 31 0,
    .send 31 1 2 0, .send 0 31 2 0, .send 0 1 2 6, .sendo 0 1 2 7, .sendo 0 1 31 0, .spawn 31, .gset 31 0 false, .gmax 0 31 true,
    .gget 31, .bara 0 0 0 5, .bara 31 0 0 0, .lnch 31 0, .lnch 0 31, .vadd 30 0 0 0 0, .vperm 0 31 0 0 0, .vsel 0 0 31 0 0,
    .vfma 0 1 2 0 3, .vfma 31 1 2 0 4, .vfma 30 1 2 0 4, .vshl 0 1 2 0 4, .vsar 30 1 2 0 0, .vcmp 3 0 1 2 0 4, .vcmp 0 0 31 2 0 0, .vbcast 30 0 0 0,
    .vbcast 0 31 0 0, .vred 0 1 3 0 0, .vred 30 1 0 0 0, .vcvtConvert 0 1 2 0 2, .vcvtConvert 30 1 2 0 3, .vcvtTomx 0 1 false 0 3, .vcvtTomx 0 1 false 6 4, .vcvtTomx 0 1 true 0 4,
    .vcvtTomx 30 1 false 0 4, .vcvtTomx 0 31 false 0 4, .vcvtTomx 0 3 false 0 6, .vcvtTomx 3 2 false 0 6, .vcvtTomx 0 30 false 0 6, .vcvtFrommx 1 0 0 6, .vcvtFrommx 2 3 0 6, .vcvtFrommx 30 0 0 4,
    .vcvtFrommx 0 31 0 4, .vcvtFrommx 0 1 6 4, .vcvtFrommx 0 1 0 7, .mma 1 1 0 0 0 false false false 0, .mma 0 1 4 0 0 false false false 0, .mma 0 1 0 8 0 false false false 0, .mma 0 1 0 0 8 false false false 0, .mma 0 1 0 5 6 false false false 0,
    .mring 31 0 0, .mring 0 31 0, .mradv 31 0, .mst 31 0 0 0 0, .mst 0 0 0 5 0, .fenceAcq 6, .fenceRel 7, .fenceFull 6,
    .spill 30 0 0, .fill 31 0 0, .spill 0 31 0, .getsr 30 0, .getsr 0 0x026, .setsr 31 7, .setsr 0 0x018, .brk 31 0,
    .trap 0 0, .trap 31 1, .gatew 31 0, .freeze 0 31, .thaw 31 0, .ktlb 0 31, .markq 31 0 false, .genu 1 0 1 0 0,
    .await (.a 1) 1 0]
theorem test_ill_formed : (illFormed.all fun i => !i.wf) = true := by decide +kernel
/-- The same at the limits: the largest values that the checks take. -/
theorem test_well_formed : ([.add 31 30 30 true, .lih 29 3 0xFFFF, .ld 3 false 2 30 0xFFFF, .ld 2 true 2 30 0, .pref 1 30 0, .send 30 30 30 5, .bara 30 30 255 4, .vfma 29 30 30 7 7, .vshl 31 30 30 7 3, .vcmp 3 7 30 30 7 3, .vcmp 2 7 30 30 7 7,
    .vred 31 30 2 7 7, .vcvtTomx 31 28 true 1 6, .vcvtTomx 31 30 false 5 4, .vcvtFrommx 28 30 5 6, .mma 7 6 3 5 5 true true true 7, .mma 7 6 3 6 7 true true true 7, .mst 30 30 30 4 3, .fenceFull 5, .spill 29 30 7, .getsr 31 0x031,
    .trap 30 15, .genu 1 1 2 2 0, .await (.a 1) 2 0, .await (.c 1) 1 0] : List Instr).all Instr.wf = true := by decide +kernel
/-- The encoder's words of a term that is not well formed are no instruction. -/
theorem test_ill_formed_words : (illFormed.all fun i => match encodeNorson i, encodeLivik i with
    | some (w :: r), _ => (match decodeNorson w (r.headD 0) with | .ok j => decide (j ≠ i) | .error _ => true)
    | _, some w => (match decodeLivik w with | .ok _ => false | .error _ => true)
    | _, none => false) = true := by decide +kernel

/-- Words that the manual calls illegal: unassigned codes, and reserved bits that are set (R215, R217 to R229). -/
theorem test_reserved_norson : ([(0x00000000, 0), (0xFFFFFFFF, 0), (0x04C52040, 0), (0x04C52017, 0), (0x04C50C15, 0), (0x04E70C03, 0), (0x24C50415, 0x601F0000), (0x24C51400, 0x601F0000), (0x24C50400, 0x601F0001), (0x24C50440, 0x601F0000), (0x18A100F0, 0), (0x20A70005, 0), (0x280000E9, 0), (0x28A608A9, 0), (0x58440002, 0), (0x64C90001, 0), (0x6804296B, 0), (0x8160C005, 0), (0x90653008, 0), (0x98800001, 0), (0x9C000001, 0), (0xA0074803, 0), (0xA4A81181, 0), (0xAC000001, 0), (0xC0853051, 0), (0xC085304E, 0), (0xC4853803, 0), (0xD15602EB, 0), (0xD4042804, 0), (0xE1600000, 0), (0xE5000003, 0), (0xE8A08000, 0), (0xE8A06000, 0), (0xEC00001C, 0), (0xEC000005, 0), (0xF0042804, 0), (0xF4053003, 0), (0x7C000000, 0)] : List (Word32 × Word32)).all (fun x => match decodeNorson x.1 x.2 with | .ok _ => false | .error _ => true) = true := by decide +kernel
theorem test_reserved_livik : ([0x0000000000000000, 0xFFFFFFFFFFFFFFFF, 0x0148000000000001, 0x01C8000000000000, 0x0108000100000000, 0x020420C00000000F, 0x020420C00000001E, 0x0700000000000001, 0x1049100000000000, 0x1544000000000002, 0x218918E500000040, 0x230D190040000001, 0x400428F000000009, 0x0300000000000000] : List Word).all (fun x => match decodeLivik x with | .ok _ => false | .error _ => true) = true := by decide +kernel

theorem ok_eq {ε : Type} {e : Except ε Instr} {i : Instr} (h : (match e with | .ok a => decide (a = i) | .error _ => false) = true) : e = .ok i := by
  cases e with
  | ok a => exact congrArg _ (of_decide_eq_true h)
  | error _ => cases h
theorem ok_ne {ε : Type} {e : Except ε Instr} {i : Instr} (h : (match e with | .ok a => !decide (a = i) | .error _ => true) = true) : e ≠ .ok i := by
  rintro rfl
  simp at h
theorem test_decode_manual : Obligations.DecodingIsRight := by
  unfold Obligations.DecodingIsRight
  refine ⟨?_, ?_, ?_, ?_, ?_, ?_, ?_, ?_, ?_, ?_, ?_, ?_, ?_, ?_, ?_, ?_, ?_, ?_, ?_, ?_, ?_, ?_, ?_⟩
  all_goals first | exact ok_eq (by decide +kernel) | exact ok_ne (by decide +kernel)
/-! ## Witnesses: the hypotheses of the statements can hold together, clause by clause, at the ends of their ranges -/

/-- A result that a computation gives. -/
theorem ok_of {ε α : Type} (e : Except ε α) (P : α → Bool) (h : (match e with | .ok a => P a | .error _ => false) = true) :
    ∃ a, e = .ok a ∧ P a = true := by
  cases e with
  | ok a => exact ⟨a, rfl, h⟩
  | error _ => cases h

theorem some_of {α : Type} (o : Option α) (P : α → Bool) (h : (match o with | some a => P a | none => false) = true) : ∃ a, o = some a ∧ P a = true := by
  cases o with
  | some a => exact ⟨a, rfl, h⟩
  | none => cases h
theorem err_of {ε α : Type} (e : Except ε α) (P : ε → Bool) (h : (match e with | .ok _ => false | .error a => P a) = true) :
    ∃ a, e = .error a ∧ P a = true := by
  cases e with
  | ok _ => cases h
  | error a => exact ⟨a, rfl, h⟩

/-- Thread set 0 of compute core 0 in launch 1 of context 0, with 2 MiB of stack memory mapped at `va`. -/
def t0 : TsId := { core := cc 0, ts := 0 }
def act0 : Activation := { origin := .message, msg := placeMsg 1, lid := some 1, ctx := 0, cls := 5, fetchTrap := none }
def base : State := { State.reset.withFetchWord 32 0x04C52000 with cur := .ts t0 }
/-- The same with its registers changed. -/
def on (f : ThreadSet → ThreadSet) : State := base.tsSet t0 (f (base.tsGet t0))
def ex (f : ThreadSet → ThreadSet) : Exe := exeOf (on f) t0 act0
def va : Word := 0x20000000
/-- s6 holds a value; a scalar and a vector load and store queue hold two entries. -/
def s6 (v : Word) (x : ThreadSet) : ThreadSet := { x with sreg := (6, v) :: x.sreg }
def q2 (x : ThreadSet) : ThreadSet := { x with slq := [.ready 7, .ready 5], vlq := [.ready 7, .ready 5], ssq := [9], vsq := [9] }
def b1 (f : ThreadSet → ThreadSet) : Except Stop (Word × Exe) := (ex f).srcS 6

theorem wit_turn : Turn base t0 act0 ∧ Turn (on q2) t0 act0 ∧ ∀ v, Turn (on (s6 v)) t0 act0 := ⟨⟨rfl, rfl⟩, ⟨rfl, rfl⟩, fun _ => ⟨rfl, rfl⟩⟩

theorem wit_ScalarSourceForms :
    (∀ r : Reg, r ∈ [1#5, 29#5] → r ≠ 0#5 ∧ r ≠ 30#5 ∧ r ≠ 31#5 ∧ r.toNat ∉ (ex id).x.softS) ∧ (29#5).toNat ∈ (ex fun x => { x with softS := [29] }).x.softS ∧
    (ex id).x.slq = [] ∧ (ex q2).x.slq = .ready 7 :: [.ready 5] ∧ 0 ∉ (ex q2).x.softQ ∧
    (ex fun x => { x with slq := [.wait 3 0] }).x.slq = .wait 3 0 :: [] ∧ (ex fun x => { x with slq := [.bad .xlate 8] }).x.slq = .bad .xlate 8 :: [] := by decide +kernel

theorem wit_ScalarDestinationForms : ∀ r : Reg, r ∈ [1#5, 29#5] → r ≠ 0#5 ∧ r ≠ 31#5 := by decide +kernel

theorem wit_VectorRegisterForms :
    (∀ r : Reg, r ∈ [0#5, 29#5] → r ≠ 30#5 ∧ r ≠ 31#5 ∧ (ex id).pendingFill r = false ∧ r.toNat ∉ (ex id).x.softV) ∧
    (ex q2).x.vlq = .ready 7 :: [.ready 5] ∧ 2 ∉ (ex q2).x.softQ ∧ (ex id).x.vlq = [] ∧
    ({ ex id with s := { base with ops := [{ (ex id).mkOp .fill with n := 29 }] } } : Exe).pendingFill 29 = true := by decide +kernel

/-- A pop of both sources and a push of the result; and a divisor of 0, with and without the trap enabled. -/
theorem wit_AluRegisterResult : ∃ e1 e2, Turn (on q2) t0 act0 ∧ (exeOf (on q2) t0 act0).srcS 30 = .ok (7, e1) ∧ e1.srcS 30 = .ok (5, e2) ∧ e2.roomS 31 = .ok () ∧
    ¬(e2.x.trapen.getLsbD 0 = true ∧ zeroDivisor false 5) := ⟨_, _, ⟨rfl, rfl⟩, rfl, rfl, rfl, fun h => absurd h.1 (by decide +kernel)⟩

theorem wit_AluConstantResult : ∃ e1 y e2, Turn (on q2) t0 act0 ∧ (exeOf (on q2) t0 act0).srcS 30 = .ok (7, e1) ∧ e1.roomS 31 = .ok () ∧
    e1.kop (.lit 0x80000000) true = .ok (y, e2) ∧ ¬(e2.x.trapen.getLsbD 0 = true) := ⟨_, _, _, ⟨rfl, rfl⟩, rfl, rfl, rfl, by decide +kernel⟩

/-- The window operand of a launch whose window 3 lies at `va`. -/
def windowed : State := { base with launches := [{ placeLaunchRec with kb := List.replicate 8 va }] }
theorem wit_AluConstantResult_window : Turn windowed t0 act0 ∧ ∃ p, (exeOf windowed t0 act0).kop (.win 3 0x1FFFE) false = .ok p ∧ true = true :=
  ⟨⟨rfl, rfl⟩, ok_of _ (fun _ => true) (by decide +kernel)⟩

theorem wit_MultiplyHighResult : ∃ e1 e2 z e3, Turn (on q2) t0 act0 ∧ (exeOf (on q2) t0 act0).srcS 30 = .ok (7, e1) ∧ e1.srcS 30 = .ok (5, e2) ∧
    e2.roomS 1 = .ok () ∧ e1.roomS 1 = .ok () ∧ e1.kop (.lit 0xFFFFFFFF) false = .ok (z, e3) := ⟨_, _, _, _, ⟨rfl, rfl⟩, rfl, rfl, rfl, rfl, rfl⟩

theorem wit_DivideByZeroTraps : ∃ e1 e2, let f := fun x => s6 0x100000000 { x with trapen := 1 }
    Turn (on f) t0 act0 ∧ (exeOf (on f) t0 act0).srcS 6 = .ok (0x100000000, e1) ∧ e1.srcS 6 = .ok (0x100000000, e2) ∧ e2.roomS 5 = .ok () ∧
    e2.x.trapen.getLsbD 0 = true ∧ zeroDivisor true 0x100000000 := ⟨_, _, ⟨rfl, rfl⟩, rfl, rfl, rfl, by decide +kernel, by unfold zeroDivisor; decide⟩

theorem wit_ImmediateResult : ∃ e1, Turn (on q2) t0 act0 ∧ (exeOf (on q2) t0 act0).srcS 30 = .ok (7, e1) ∧ e1.roomS 31 = .ok () := ⟨_, ⟨rfl, rfl⟩, rfl, rfl⟩
theorem wit_LihResult : ∃ x e1, Turn (on (s6 3)) t0 act0 ∧ (exeOf (on (s6 3)) t0 act0).srcS 6 = .ok (x, e1) ∧ e1.roomS 6 = .ok () := ⟨_, _, ⟨rfl, rfl⟩, rfl, rfl⟩

theorem wit_ImmediateWordAndEffect : (on id |>.tsGet t0).slq = [] ∧
    ∃ x e1, let f := fun x : ThreadSet => { x with ssq := List.replicate 8 0 }
      (exeOf (on f) t0 act0).srcS 6 = .ok (x, e1) ∧ 8 ≤ e1.x.ssq.length ∧ e1.roomS 29 = .ok () := ⟨by decide +kernel, _, _, rfl, by decide +kernel, rfl⟩

theorem wit_ScalarFpResult : ∃ e1 e2 z e3, let v := fFP64.fma 0 7 5 0
    Turn (on q2) t0 act0 ∧ (exeOf (on q2) t0 act0).srcS 30 = .ok (7, e1) ∧ e1.srcS 30 = .ok (5, e2) ∧ e2.roomS 31 = .ok () ∧ e2.srcS 6 = .ok (z, e3) ∧
    e3.roomS 6 = .ok () ∧ fpQuiet e2 v.2 ∧ fpQuiet e3 v.2 := ⟨_, _, _, _, ⟨rfl, rfl⟩, rfl, rfl, rfl, rfl, rfl, by unfold fpQuiet; decide, by unfold fpQuiet; decide⟩

theorem wit_ScalarFpConversionResult : ∃ e1, Turn (on q2) t0 act0 ∧ (exeOf (on q2) t0 act0).srcS 30 = .ok (7, e1) ∧ e1.roomS 31 = .ok () ∧
    fpQuiet e1 flInexact := ⟨_, ⟨rfl, rfl⟩, rfl, rfl, by unfold fpQuiet; decide⟩

theorem wit_FpSpecialResults :
    fFP32.decode 0x7F800001 = .nan true ∧ fFP32.decode 0x7FC00000 = .nan false ∧ fFP32.decode 0xFF800000 = .inf true ∧ fFP32.decode 0x7F800000 = .inf false ∧
    (∃ q, fFP32.decode 0x80000000 = .num true 0 q) ∧ (∃ m q, fFP32.decode 0x80000001 = .num true m q ∧ m ≠ 0) ∧
    fFP64.decode 0x7FF0000000000001 = .nan true ∧ fFP64.decode 0xFFF0000000000000 = .inf true := by
  refine ⟨by decide +kernel, by decide +kernel, by decide +kernel, by decide +kernel, ⟨_, rfl⟩, ⟨_, _, rfl, by decide +kernel⟩, by decide +kernel, by decide +kernel⟩

/-- 0 / 0 with every FP exception enabled. -/
theorem wit_FpExceptionTraps : ∃ e1 e2, let f := fun x : ThreadSet => { x with trapen := 0x3E }
    Turn (on f) t0 act0 ∧ (exeOf (on f) t0 act0).srcS 0 = .ok (0, e1) ∧ e1.srcS 0 = .ok (0, e2) ∧ e2.roomS 5 = .ok () ∧
    ¬ fpQuiet e2 (fFP32.div 0 0 0).2 := ⟨_, _, ⟨rfl, rfl⟩, rfl, rfl, rfl, by unfold fpQuiet; decide⟩

theorem wit_BranchResult : ∃ e1 e2, Turn (on q2) t0 act0 ∧ (exeOf (on q2) t0 act0).srcS 30 = .ok (7, e1) ∧ e1.srcS 30 = .ok (5, e2) ∧
    (exeOf (on q2) t0 act0).srcP 7 = .ok 0 := ⟨_, _, ⟨rfl, rfl⟩, rfl, rfl, rfl⟩

theorem wit_JumpResult : Turn (on (s6 va)) t0 act0 ∧ (ex (s6 va)).roomS 29 = .ok () ∧ (ex (s6 va)).srcS 6 = .ok (va, ex (s6 va)) ∧
    (va + (0xFFFF : Half).signExtend 64 * 4).toNat % 4 = 0 ∧ (va + 3 + (0 : Half).signExtend 64 * 4).toNat % 4 ≠ 0 := ⟨⟨rfl, rfl⟩, rfl, rfl, by decide +kernel, by decide +kernel⟩

/-- The last and the first double word of the mapped range, and the vector there; a gather of both lanes' ends. -/
theorem wit_LoadIssue : Turn (on (s6 va)) t0 act0 ∧ (ex (s6 va)).srcS 6 = .ok (va, ex (s6 va)) ∧ (ex (s6 va)).roomRecord = .ok () ∧ (ex (s6 va)).x.slq.length < 16 ∧
    (va + (0 : Half).signExtend 64 * BitVec.ofNat 64 8).toNat % 8 = 0 ∧
    (∃ bs, (ex (s6 va)).check (va + (0 : Half).signExtend 64 * BitVec.ofNat 64 8) 8 rRD = .ok bs ∧ true = true) ∧
    (ex (s6 va)).x.vlq.length < 8 ∧ (∃ bs, (ex (s6 va)).check (va + (0x7FFF : Half).signExtend 64 * 64) 64 rRD = .ok bs ∧ true = true) ∧
    (ex (s6 va)).srcV 7 = .ok (0, ex (s6 va)) ∧ (ex (s6 va)).srcP 0 = .ok (BitVec.allOnes 64) ∧
    ∃ cs, (ex (s6 va)).lanesOk 8 rRD (laneAddrs va 3 0 (BitVec.allOnes 64)) = .ok cs ∧ true = true :=
  ⟨⟨rfl, rfl⟩, rfl, rfl, by decide +kernel, by decide +kernel, ok_of _ (fun _ => true) (by decide +kernel), by decide +kernel, ok_of _ (fun _ => true) (by decide +kernel), rfl, rfl, ok_of _ (fun _ => true) (by decide +kernel)⟩

def stq (x : ThreadSet) : ThreadSet := s6 va { x with ssq := [1, 2], vsq := [3] }
theorem wit_StoreIssue : Turn (on stq) t0 act0 ∧ (ex stq).srcS 6 = .ok (va, ex stq) ∧ (on stq).replay t0 = [] ∧ (ex stq).x.ssq = 1 :: [2] ∧ (ex stq).x.vsq = 3 :: [] ∧
    1 ∉ (ex stq).x.softQ ∧ 3 ∉ (ex stq).x.softQ ∧ va.toNat % 8 = 0 ∧
    (∃ bs, (ex stq).check (va + (0 : Half).signExtend 64 * 8) 8 rWR = .ok bs ∧ (anyNr bs = false && (segsOf bs).any fun g => decide (g.bus < scratchBase)) = true) ∧
    (∃ bs, (ex stq).check (va + (1 : Half).signExtend 64 * 64) 64 rWR = .ok bs ∧ (!anyNr bs) = true) ∧
    (ex stq).srcV 7 = .ok (0, ex stq) ∧ (ex stq).srcP 0 = .ok (BitVec.allOnes 64) ∧
    ∃ cs, (ex stq).lanesOk 2 rWR (laneAddrs va 1 0 (BitVec.allOnes 64)) = .ok cs ∧ (!anyNr (cs.flatMap Prod.snd)) = true :=
  ⟨⟨rfl, rfl⟩, rfl, by decide +kernel, rfl, rfl, by decide +kernel, by decide +kernel, by decide +kernel, ok_of _ _ (by decide +kernel), ok_of _ _ (by decide +kernel), rfl, rfl, ok_of _ _ (by decide +kernel)⟩

theorem wit_MisalignedAccessTraps : Turn (on stq) t0 act0 ∧ (ex stq).srcS 6 = .ok (va, ex stq) ∧ (ex stq).x.slq.length < 16 ∧ (ex stq).x.ssq ≠ [] ∧
    let f := fun x => stq (s6 0 x)
    (ex (fun x => s6 (va + 1) (f x))).srcS 6 = .ok (va + 1, ex (fun x => s6 (va + 1) (f x))) ∧ (va + 1 + (0 : Half).signExtend 64 * BitVec.ofNat 64 2).toNat % 2 ≠ 0 :=
  ⟨⟨rfl, rfl⟩, rfl, by decide +kernel, by decide +kernel, rfl, by decide +kernel⟩

theorem wit_QueueDeadTraps : let f := fun x : ThreadSet => { x with slq := List.replicate 16 (.ready 0), vlq := List.replicate 8 (.ready 0) }
    ∃ b e1, Turn (on f) t0 act0 ∧ (ex f).srcS 6 = .ok (b, e1) ∧ 16 ≤ e1.x.slq.length ∧ 8 ≤ e1.x.vlq.length ∧ e1.x.ssq = [] ∧ e1.x.vsq = [] :=
  ⟨_, _, ⟨rfl, rfl⟩, rfl, by decide +kernel, by decide +kernel, rfl, rfl⟩

theorem wit_AmoIssue : let f := fun x => s6 va { x with slq := List.replicate 15 (.ready 0) }
    ∃ e1 e2 v k e3, Turn (on f) t0 act0 ∧ (ex f).srcS 6 = .ok (va, e1) ∧ e1.srcS 7 = .ok (v, e2) ∧ e2.srcS 8 = .ok (k, e3) ∧ e3.x.slq.length < 16 ∧ va.toNat % 4 = 0 ∧
      (∃ bs, e3.check va 4 rAM = .ok bs ∧ true = true) ∧ e3.waitReplay = .ok () ∧ e3.waitTokens = .ok () ∧ e3.roomRecord = .ok () :=
  ⟨_, _, _, _, _, ⟨rfl, rfl⟩, rfl, rfl, rfl, by decide +kernel, by decide +kernel, ok_of _ _ (by decide +kernel), rfl, rfl, rfl⟩

/-- 64 KiB + 64 bytes would be too long: the longest block, between the scratchpad and memory. -/
theorem wit_BlockIssue : let f := fun x => s6 va x
    ∃ h, (ex f).srcS 6 = .ok (va, ex f) ∧ (ex f).srcS 0 = .ok (0, ex f) ∧ (ex f).srcS 7 = .ok (h, ex f) ∧ va.toNat % 64 = 0 ∧ (0 : Word).toNat % 64 = 0 ∧
      (ex f).local va = false ∧ (ex f).local 0 = true ∧ (∃ bs, (ex f).check va (64 * ((0x7FF : BitVec 11).toNat + 1)) rRD = .ok bs ∧ true = true) ∧
      (∃ bs, (ex f).check 0 (64 * ((0x7FF : BitVec 11).toNat + 1)) rWR = .ok bs ∧ true = true) ∧
      (∃ bs, (ex f).check 0 64 rRD = .ok bs ∧ true = true) ∧ (∃ bs, (ex f).check va 64 rWR = .ok bs ∧ true = true) ∧ (ex f).roomRecord = .ok () :=
  ⟨_, rfl, rfl, rfl, by decide +kernel, by decide +kernel, by decide +kernel, by decide +kernel, ok_of _ _ (by decide +kernel), ok_of _ _ (by decide +kernel), ok_of _ _ (by decide +kernel), ok_of _ _ (by decide +kernel), rfl⟩

/-- Two rows of 64 bytes within the mapped range. -/
def copyDesc : Vec := BitVec.ofNat 512 (0x20000000 + 0x20001000 * 2 ^ 64 + 64 * 2 ^ 128 + 2 * 2 ^ 160 + 64 * 2 ^ 192 + 64 * 2 ^ 224)
theorem wit_CopyIssue : let f := fun x : ThreadSet => { x with vreg := [(5, copyDesc)] }
    ∃ h, Turn (on f) t0 act0 ∧ (ex f).srcS 6 = .ok (h, ex f) ∧ (ex f).srcV 5 = .ok (copyDesc, ex f) ∧ copyDescOk copyDesc = true ∧ copyDescOk 0 = false ∧
      (∃ u, (ex f).checkRows (dRowLen copyDesc) (dSstr copyDesc) rRD (dRows copyDesc) (dSrc copyDesc) = .ok u ∧ true = true) ∧
      (∃ u, (ex f).checkRows (dRowLen copyDesc) (dDstr copyDesc) rWR (dRows copyDesc) (dDst copyDesc) = .ok u ∧ true = true) ∧
      ((on f).copyQ act0.ctx act0.cls).ents.length < 256 ∧ (ex f).roomRecord = .ok () :=
  ⟨_, ⟨rfl, rfl⟩, rfl, rfl, by decide +kernel, by decide +kernel, ok_of _ _ (by decide +kernel), ok_of _ _ (by decide +kernel), by decide +kernel, rfl⟩

/-! ## One step of one instruction, with the result worked out by hand from its rule -/

/-- The thread set after one step of a placed word, its registers changed first. -/
def ran (w : Nat) (f : ThreadSet → ThreadSet) : Option ThreadSet :=
  let s := State.reset.withFetchWord 32 w
  match step (s.tsSet t0 (f (s.tsGet t0))) with
  | .next u => some (u.tsGet t0)
  | _ => none
def regs (l : List (Nat × Word)) (x : ThreadSet) : ThreadSet := { x with sreg := l }
/-- The step's result in a scalar register, and the PC relative to the word. -/
def gives (w : Nat) (f : ThreadSet → ThreadSet) (r : Nat) (v : Word) (n : Int) : Bool :=
  match ran w f with
  | some x => decide (Assoc.getD x.sreg r 0 = v) && decide (x.pc = BitVec.ofInt 64 (placeVa + n)) && x.act.isSome
  | none => false

/-- `add s6, s5, s4` wraps modulo 2^64 (R258). -/
theorem test_add_wraps : gives 0x04C52000 (regs [(5, 0xFFFFFFFFFFFFFFFF), (4, 3)]) 6 2 4 = true := by decide +kernel
/-- `add.w s6, s5, s4` is on 32 bits and sign-extends (R258). -/
theorem test_add_w : gives 0x04C52400 (regs [(5, 0x17FFFFFFF), (4, 1)]) 6 0xFFFFFFFF80000000 4 = true := by decide +kernel
/-- A destination that is s0 stays zero (R85). -/
theorem test_add_s0 : gives 0x04052000 (regs [(5, 1), (4, 1)]) 0 0 4 = true := by decide +kernel
/-- `div.w s8, s30, s30` pops the dividend first, then the divisor: -7 / 2 truncates to -3 (R92, R258). -/
theorem test_div_pops : gives 0x051EF405 (fun x => { x with slq := [.ready 0xFFFFFFF9, .ready 2] }) 8 0xFFFFFFFFFFFFFFFD 4 = true := by decide +kernel
/-- The most negative number divided by -1 wraps, with no trap (R258). -/
theorem test_div_edge : gives 0x04C52005 (regs [(5, 0x8000000000000000), (4, 0xFFFFFFFFFFFFFFFF)]) 6 0x8000000000000000 4 = true := by decide +kernel
/-- The high half of (2^64 - 1)^2 is 2^64 - 2 (R258). -/
theorem test_mulhu : gives 0x04C52004 (regs [(5, 0xFFFFFFFFFFFFFFFF), (4, 0xFFFFFFFFFFFFFFFF)]) 6 0xFFFFFFFFFFFFFFFE 4 = true := by decide +kernel
/-- `lih s5, 5, 3` replaces [63:48] (R221). -/
theorem test_lih : gives 0x20A30005 (regs [(5, 0x1111222233334444)]) 5 0x0005222233334444 4 = true := by decide +kernel
/-- `slti s5, s6, -1` compares as signed (R258). -/
theorem test_slti : gives 0x1CA6FFFF (regs [(6, 0x8000000000000000)]) 5 1 4 = true := by decide +kernel
/-- `jal s29, sub`, 40 words ahead, links the next word (R226). -/
theorem test_jal : gives 0x87A00028 id 29 (BitVec.ofNat 64 (placeVa + 4)) 160 = true := by decide +kernel
/-- `bne s5, s6` is taken, one word ahead, when they differ (R226). -/
theorem test_bne_taken : gives 0x80A62001 (regs [(5, 1)]) 5 1 4 = true ∧ gives 0x80A63FFF (regs [(5, 1)]) 5 1 (-4) = true := by decide +kernel
/-- 1 + 2^-53 is a tie, and rounds to even: 1, inexact (R89, R222). -/
theorem test_fadd_tie : gives 0x28C52400 (regs [(5, 0x3FF0000000000000), (4, 0x3CA0000000000000)]) 6 0x3FF0000000000000 4 = true := by decide +kernel
/-- `getsr s5, core` of core 0 (R88). -/
theorem test_getsr_core : gives 0xE8A00000 (regs [(5, 7)]) 5 0 4 = true := by decide +kernel
/-- A word of no instruction traps with ILLOP: TCAUSE, TEPC, and TLEV 1 (R177 to R179, R229). -/
theorem test_illop : (match ran 0xFFFFFFFF (fun x => { x with tvec1 := 0x20000100 }) with
    | some x => decide (x.pc = 0x20000100) && decide (x.tlev = 1) | none => false) = true := by decide +kernel
/-- `trap s4, 7` goes to TVEC1 as well (R180). -/
theorem test_trap : (match ran 0xEC04003B (fun x => { x with tvec1 := 0x20000200 }) with
    | some x => decide (x.pc = 0x20000200) && decide (x.tlev = 1) | none => false) = true := by decide +kernel
/-- `vadd.i32 v4, v5, v6` adds lane by lane, with no carry between lanes (R227). -/
theorem test_vadd : (match ran 0xC0853040 (fun x => { x with vreg := [(5, 0x1FFFFFFFF), (6, 0x300000001)] }) with
    | some x => decide (Assoc.getD x.vreg 4 0 = (0x400000000 : Vec)) | none => false) = true := by decide +kernel

/-- A program after one step of a placed word. -/
def ranL (w : Nat) (f : Prog → Prog) : Option Prog :=
  let s := State.reset.withFetchWord 64 w
  match step { s with progs := s.progs.map f } with
  | .next u => u.prog 0
  | _ => none
/-- `aset a2, -1` (R269). -/
theorem test_aset : (match ranL 0x01080000FFFFFFFF id with | some p => decide (p.ga 2 = 0xFFFFFFFFFFFFFFFF) && decide (p.pc = 1) && decide (p.retn = 1) | none => false) = true := by decide +kernel
/-- `tcut t4, t1, a2, a3`: two ids from index 1 (R366). -/
theorem test_tcut : (match ranL 0x3292108300000000 (fun p => { p with a := [0, 0, 1, 2] ++ List.replicate 12 0, t := [[], [5, 6, 7, 8]] ++ List.replicate 14 [] }) with
    | some p => decide (p.gt 4 = [6, 7]) | none => false) = true := by decide +kernel
/-- `goret` with an empty return stack is agent fault 9, and kills the program (R46, R318). -/
theorem test_goret_empty : (match exec .goret { State.reset.withFetchWord 64 0x0700000000000000 with cur := .prog 0 } with
    | .next u => (match u.prog 0 with | some p => decide (p.state = .killed) && decide (p.fault = 9) | none => false) | _ => false) = true := by decide +kernel

/-! ### Messages, vectors, press, special registers, traps -/

/-- A full and a nearly full send buffer. -/
def buf (n : Nat) (x : ThreadSet) : ThreadSet := { x with sbuf := List.replicate n .lend }

/-- Core 7 is the last of the launch; core 8 is reached through an endpoint entry. -/
def ep : State := { base with cores := Assoc.set base.cores (cc 0) { CoreSt.reset with thimble := [(16, BitVec.ofNat 256 (7 + 8 * 2 ^ 64))] } }
theorem wit_SendBufferResult :
    (ex (buf 31)).x.sbuf.length < 32 ∧ 32 ≤ (ex (buf 32)).x.sbuf.length ∧ (ex (s6 7)).srcS 6 = .ok (7, ex (s6 7)) ∧ (ex (s6 7)).srcV 5 = .ok (0, ex (s6 7)) ∧
    (7 : Word).toNat < 2 ^ 14 ∧ base.coreAbsent (cc 7) = false ∧ base.inLaunch (exeOf base t0 act0).view (cc 7) = true ∧
    Turn ep t0 act0 ∧ ep.inLaunch (exeOf ep t0 act0).view (cc 8) = false ∧ ep.endpointOk (cc 0) 8 = true ∧ ep.coreAbsent (cc 8) = false ∧
    (∃ c, (ex id).owner (0x3FFFF : Word) = .ok c ∧ decide (c = cc 0) = true) ∧
    (∃ l, (ex id).launch = some l ∧ l.pile = false ∧ l.member 0 (cc 0) = true) :=
  ⟨by decide +kernel, by decide +kernel, rfl, rfl, by decide +kernel, by decide +kernel, by decide +kernel, ⟨rfl, rfl⟩, by decide +kernel, by decide +kernel, by decide +kernel, ok_of _ _ (by decide +kernel), _, rfl, by decide +kernel, by decide +kernel⟩

/-- The launch in PILE mode. -/
def piled : State := { base with launches := [{ placeLaunchRec with words := [at64 5 4 ||| at64 1 8 ||| at64 4 10, at64 0x20000000 0, 0, 0, 0, 0, 0, 0], fpa := 1 }] }
theorem wit_SendBufferResult_pile : Turn piled t0 act0 ∧ ∃ l, (exeOf piled t0 act0).launch = some l ∧ l.pile = true ∧
    ∃ u, (exeOf piled t0 act0).spawnCheck l (pileRecOf (leBytes 32 (0x20000000 * 2 ^ 128 + 64 * 2 ^ 192)) 0) = .ok u ∧ true = true :=
  ⟨⟨rfl, rfl⟩, _, rfl, by decide +kernel, ok_of _ _ (by decide +kernel)⟩

theorem wit_SendDestinationTraps : Turn (on (s6 0x4000)) t0 act0 ∧ (ex (s6 0x4000)).srcS 6 = .ok (0x4000, ex (s6 0x4000)) ∧ (ex (s6 0x4000)).srcV 5 = .ok (0, ex (s6 0x4000)) ∧
    2 ^ 14 ≤ (0x4000 : Word).toNat ∧ ({ base with absent := [1] } : State).coreAbsent (cc 8) = true ∧ base.coreAbsent (cc 8) = false ∧ t0.core.kernel = false ∧
    base.inLaunch (exeOf base t0 act0).view (cc 8) = false ∧ base.endpointOk t0.core 8 = false :=
  ⟨⟨rfl, rfl⟩, rfl, rfl, by decide +kernel, by decide +kernel, by decide +kernel, rfl, by decide +kernel, by decide +kernel⟩

theorem wit_DoneResult : let f := fun x : ThreadSet => { x with tlev := 1 }
    (ex f).x.tlev ≠ 0 ∧ (ex q2).x.tlev = 0 ∧ (ex q2).x.ssq ≠ [] ∧ (ex id).x.tlev = 0 ∧ (ex id).x.ssq = [] ∧ (ex id).x.vsq = [] ∧ (ex id).waitTokens = .ok () ∧
    (ex id).waitReplay = .ok () ∧ (ex id).waitGains = .ok () ∧ (ex id).x.lost = none := by
  refine ⟨by decide +kernel, by decide +kernel, by decide +kernel, by decide +kernel, by decide +kernel, by decide +kernel, rfl, rfl, rfl, by decide +kernel⟩

def full256 : State := { base with children := List.replicate 256 { id := 0, die := dieOf (cc 0), t := t0, ctx := 0, words := [], slots := 0, deps := [] } }
theorem wit_ChildLaunchResult : (ex (s6 va)).srcS 6 = .ok (va, ex (s6 va)) ∧ (ex (s6 va)).srcV 5 = .ok (0, ex (s6 va)) ∧ (ex (s6 va)).x.slq.length < 16 ∧
    (ex (s6 va)).waitReplay = .ok () ∧ (ex (s6 va)).waitTokens = .ok () ∧ (ex (s6 va)).waitRelease = .ok () ∧ (ex id).descriptor 1 = none ∧
    (∃ bs, (ex (s6 va)).descriptor va = some bs ∧ anyNr bs = false) ∧
    (full256.children.filter (fun c => decide (c.die = dieOf t0.core))).length = 256 ∧ (base.children.filter (fun c => decide (c.die = dieOf t0.core))).length < 256 :=
  ⟨rfl, rfl, by decide +kernel, rfl, rfl, rfl, by decide +kernel, ⟨_, rfl, rfl⟩, by decide +kernel, by decide +kernel⟩

theorem wit_GainIssue : Turn piled t0 act0 ∧ (exeOf piled t0 act0).srcS 0 = .ok (0, exeOf piled t0 act0) ∧ (exeOf piled t0 act0).x.slq.length < 16 ∧
    (∃ l, (exeOf piled t0 act0).launch = some l ∧ l.pile = true) ∧ (exeOf piled t0 act0).roomRecord = .ok () ∧
    ¬ ∃ l, (exeOf base t0 act0).launch = some l ∧ l.pile = true :=
  ⟨⟨rfl, rfl⟩, rfl, by decide +kernel, ⟨_, rfl, by decide +kernel⟩, rfl, fun ⟨_, h, g⟩ => by cases h; exact absurd g (by decide +kernel)⟩

theorem wit_VectorLaneResult : ∃ e1 e2, Turn (on q2) t0 act0 ∧ (exeOf (on q2) t0 act0).srcV 30 = .ok (7, e1) ∧ e1.srcV 30 = .ok (5, e2) ∧ e2.srcP 0 = .ok (BitVec.allOnes 64) ∧
    e2.oldV 31 = .ok 0 ∧ e2.roomV 31 = .ok () ∧ fpQuiet e2 (allFlags 64 (BitVec.allOnes 64).getLsbD (fun _ => 0#5)) :=
  ⟨_, _, ⟨rfl, rfl⟩, rfl, rfl, rfl, rfl, rfl, by unfold fpQuiet; decide⟩

theorem wit_VectorMoveResult : ∃ e1 e2, Turn (on q2) t0 act0 ∧ (exeOf (on q2) t0 act0).srcV 30 = .ok (7, e1) ∧ e1.srcV 29 = .ok (0, e2) ∧ e2.srcP 7 = .ok 0 ∧
    e2.roomV 31 = .ok () ∧ e2.oldV 29 = .ok 0 ∧ fpQuiet e2 0#5 ∧ (ex q2).srcS 0 = .ok (0, ex q2) ∧ (ex q2).srcP 7 = .ok 0 ∧ (ex q2).oldV 0 = .ok 0 ∧ (ex q2).roomV 0 = .ok () :=
  ⟨_, _, ⟨rfl, rfl⟩, rfl, rfl, rfl, rfl, rfl, by unfold fpQuiet; decide, rfl, rfl, rfl, rfl⟩

theorem wit_VectorReduceConvertResult : ∃ e1 xs e2, Turn (on q2) t0 act0 ∧ (exeOf (on q2) t0 act0).srcV 30 = .ok (7, e1) ∧ e1.srcP 0 = .ok (BitVec.allOnes 64) ∧
    e1.roomS 31 = .ok () ∧ fpQuiet e1 0#5 ∧ e1.oldV 28 = .ok 0 ∧ e1.roomV 28 = .ok () ∧ e1.roomV (28 + 1) = .ok () ∧
    (exeOf (on q2) t0 act0).mxSource 28 6 = .ok (xs, e2) ∧ e2.roomV 0 = .ok () :=
  ⟨_, _, _, ⟨rfl, rfl⟩, rfl, rfl, rfl, by unfold fpQuiet; decide, rfl, rfl, rfl, rfl, rfl⟩

/-- Two rings of format 0 and one slot each, and a kernel core's thread set. -/
def ringed (f : ThreadSet → ThreadSet) : State :=
  { on f with cores := Assoc.set base.cores (cc 0) { CoreSt.reset with rings := [(0, ⟨0, 1, 0, some 1⟩), (7, ⟨0x8000, 255, 7, some 1⟩), (1, ⟨0x4000, 1, 0, some 1⟩)], thimble := [(0, placeWin)] },
              scratch := (List.range 8).map fun i => (scratchBus (cc 0) (0x8000 + i), 0) }
def tk : TsId := { core := kc 0, ts := 0 }
def kern : State := { State.reset.withFetchWord 32 0xF0042800 with cur := .ts tk }
def kact : Activation := { act0 with msg := placeMsg 0, lid := none, ctx := Config.edoiny }
theorem wit_PressIssue : Turn kern tk kact ∧ tk.core.kernel = true ∧ Turn (ringed (s6 va)) t0 act0 ∧ ((ringed (s6 va)).core t0.core).pressQ.length < 8 ∧
    (exeOf (ringed (s6 va)) t0 act0).ring 0 = some ⟨0, 1, 0, some 1⟩ ∧ (exeOf (ringed (s6 va)) t0 act0).ring 1 = some ⟨0x4000, 1, 0, some 1⟩ ∧
    (0 : BitVec 3).toNat + 1 ≤ (⟨0, 1, 0, some 1⟩ : Ring).count ∧
    (∃ bs, (exeOf (ringed (s6 va)) t0 act0).mstRows 128 (mstRowBytes 0) 32 va = .ok bs ∧ true = true) ∧ va.toNat % 64 = 0 ∧ (128 : Word).toNat % 64 = 0 ∧
    mstRowBytes 0 ≤ (128 : Word).toNat ∧ (exeOf (ringed (s6 va)) t0 act0).srcS 6 = .ok (va, exeOf (ringed (s6 va)) t0 act0) :=
  ⟨⟨rfl, rfl⟩, rfl, ⟨rfl, rfl⟩, by decide +kernel, by decide +kernel, by decide +kernel, by decide +kernel, ok_of _ _ (by decide +kernel), by decide +kernel, by decide +kernel, by decide +kernel, rfl⟩

/-- A place for a ring of 31 slots of format 0, and a base at the scratchpad's end; an advance to the last slot, and one beyond. -/
theorem wit_RingResult : ∃ e1 e2 : Exe, ((ringed id).core (cc 0)).pressQ.all (fun c => !c.names 7) = true ∧
    let f := fun x => s6 0x80FF { x with sreg := (7, 0x38000) :: x.sreg }
    (0x0FF : Word).toNat < 2 ^ 12 ∧ (0x0FF : Word).toNat % 256 ≠ 0 ∧ (0x0FF : Word).toNat / 256 % 16 ≤ 7 ∧ (0 : Word).toNat % 64 = 0 ∧
    0 + 64 + slotSize 0 * 31 ≤ base.scratchSize (cc 0) ∧ (0x37FC0 : Word).toNat < base.scratchSize (cc 0) ∧ (0x37FC0 : Word).toNat % 64 = 0 ∧
    base.scratchSize (cc 0) < (0x37FC0 : Word).toNat + 64 + slotSize 0 * 1 ∧ 2 ^ 16 ≤ (0x80FF : Word).toNat * 2 ∧ base.scratchSize (cc 0) ≤ (0x38000 : Word).toNat ∧
    (ex f).srcS 7 = .ok (0x38000, e1) ∧ (exeOf (ringed (s6 255)) t0 act0).srcS 6 = .ok (255, e2) ∧ e2.ring 7 = some ⟨0x8000, 255, 7, some 1⟩ ∧
    ((ringed (s6 255)).ringTail (cc 0) ⟨0x8000, 255, 7, some 1⟩ - (ringed (s6 255)).ringHead (cc 0) ⟨0x8000, 255, 7, some 1⟩).toNat + (255 : Word).toNat ≤ 255 ∧
    255 < ((ringed (s6 255)).ringTail (cc 0) ⟨0x8000, 255, 7, some 1⟩ - (ringed (s6 255)).ringHead (cc 0) ⟨0x8000, 255, 7, some 1⟩).toNat + (256 : Word).toNat ∧
    e2.waitScratch = .ok () :=
  ⟨_, _, by decide +kernel, by decide +kernel, by decide +kernel, by decide +kernel, by decide +kernel, by decide +kernel, by decide +kernel, by decide +kernel, by decide +kernel,
   by decide +kernel, by decide +kernel, rfl, rfl, by decide +kernel, by decide +kernel, by decide +kernel, rfl⟩

theorem wit_FenceResult : Turn base t0 act0 ∧ (∀ o ∈ base.ops, o.t = t0 → o.kind.loads = false ∧ o.kind ≠ .amo ∧ o.kind ≠ .gget) ∧ base.replay t0 = [] ∧
    (∀ o ∈ base.ops, o.t = t0 → o.kind ≠ .spill ∧ o.kind ≠ .fill) ∧ base.cumulative t0 = [] := by
  refine ⟨⟨rfl, rfl⟩, ?_, rfl, ?_, rfl⟩ <;> intro o h <;> cases h

/-- The last vector of the scratchpad, and a misaligned one; fourteen SPILLs under the token. -/
def spills (n : Nat) : State := { on (s6 0x37FC0) with ops := List.replicate n { (ex id).mkOp .spill with width := 7 } }
theorem wit_SpillFillResult : Turn (spills 14) t0 act0 ∧ (exeOf (spills 14) t0 act0).srcS 6 = .ok (0x37FC0, exeOf (spills 14) t0 act0) ∧ (0x37FC0 : Word).toNat % 64 = 0 ∧
    (0x37FC0 : Word).toNat + 64 = (spills 14).scratchSize (cc 0) ∧ (spills 14).tokCount t0 7 = 14 ∧
    (exeOf (spills 14) t0 act0).srcV 29 = .ok (0, exeOf (spills 14) t0 act0) ∧ (0x37FC1 : Word).toNat % 64 ≠ 0 ∧ base.tokCount t0 7 = 0 := by
  refine ⟨⟨rfl, rfl⟩, rfl, by decide +kernel, by decide +kernel, by decide +kernel, rfl, by decide +kernel, by decide +kernel⟩

theorem wit_GetSpecialRegisterResult : Turn base t0 act0 ∧ (ex id).roomS 31 = .ok () ∧ srOk 0x02D = true ∧ srOk 0x031 = true ∧ srOk 0xFFF = false := ⟨⟨rfl, rfl⟩, rfl, by decide +kernel, by decide +kernel, by decide +kernel⟩
theorem wit_SetSpecialRegisterResult : ∃ e1, Turn (on q2) t0 act0 ∧ srOk 0x007 = true ∧ (ex q2).srcS 30 = .ok (7, e1) ∧ srOk 0x000 = true ∧ 0 ∉ [0x007, 0x008, 0x025, 0x02D] :=
  ⟨_, ⟨rfl, rfl⟩, by decide +kernel, rfl, by decide +kernel, by decide +kernel⟩

/-- Context 0 with its break enable. -/
def broken : State := { base with ctxs := Assoc.set base.ctxs 0 { placeCtx with grant := 0x200 } }
theorem wit_NopYieldBrkResult : Turn broken t0 act0 ∧ broken.breakOn act0.ctx = true ∧ base.breakOn act0.ctx = false ∧ (exeOf broken t0 act0).srcS 0 = .ok (0, exeOf broken t0 act0) :=
  ⟨⟨rfl, rfl⟩, by decide +kernel, by decide +kernel, rfl⟩

theorem wit_TrapEntry : ∀ n : Nat, n ∈ [0, 1] → let x := (on fun x => { x with tlev := n, tvec1 := 0x20000001, tvec2 := 4, slq := [.ready 1, .wait 2 0] }).tsGet t0
    x.act = some act0 ∧ x.tlev < 2 ∧ (if x.tlev = 0 then x.tvec1 else x.tvec2) &&& ~~~3#64 ≠ 0 ∧ lostEntries (dropHead Cause.illop.code 0 x.slq) = none ∧
    lostEntries (dropHead Cause.illop.code 0 x.vlq) = none := by decide +kernel

theorem wit_TrapInstructionResult : ∃ e1, Turn (on q2) t0 act0 ∧ (ex q2).srcS 30 = .ok (7, e1) := ⟨_, ⟨rfl, rfl⟩, rfl⟩
theorem wit_TrapReturnResult : (ex id).x.tlev = 0 ∧ ∀ n : Nat, n ∈ [1, 2] → let e := ex fun x => { x with tlev := n }
    e.x.tlev ≠ 0 ∧ e.x.ssq = [] ∧ e.x.vsq = [] ∧ e.waitTokens = .ok () ∧ e.waitReplay = .ok () ∧ e.waitGains = .ok () ∧ e.x.lost = none := by
  refine ⟨by decide +kernel, fun n _ => ?_⟩
  have h : n = 1 ∨ n = 2 := by simpa using ‹n ∈ [1, 2]›
  rcases h with rfl | rfl <;> exact ⟨by decide +kernel, rfl, rfl, rfl, rfl, rfl, rfl⟩

/-! ### The host and the front end -/

/-- A device with one program, in slot 0, and nothing else that runs. -/
def dev : State := State.reset.withFetchWord 64 0x01080000FFFFFFFF
theorem inRam_of (s : State) (a n : Nat) (h : decide (a + n ≤ scratchBase ∧ ∀ i, i < n → s.noChannel (a + i) = false) = true) : inRam s a n := by
  unfold inRam; exact of_decide_eq_true h

/-- Queue 4095, bound to context 0, its descriptor in memory, holding one packet of the words given. -/
def qd : Nat := 0x40000
def bind5 : QBind := { qdesc := qd, nctx := 0, lcap := 0, unbind := none }
def queued (ws : List Word) : State :=
  let s := ((dev.wr64 qd 0x48000).wr64 (qd + 0x18) 1).wr64 (qd + 0x20) 0x4C000
  let s := (ws.zip (List.range 8)).foldl (fun s x => s.wr64 (0x48000 + 8 * x.2) x.1) s
  { s with qbind := [(4095, bind5)] }

/-- A submission for a program at `va` that lies beside the present one. -/
def submitted : State := ((((dev.wr64 0x50000 va).wr64 0x50008 (1 + 11 * 2 ^ 32)).wr64 0x50018 0x2000000).wr64 0x50020 0x2100000 |>.wr64 0x50028 0x2200000).wr64 0x50048 8
def bell (pa : Nat) : List Byte := leBytes 8 pa ++ List.replicate 56 0
theorem wit_HostDoorbellResult :
    Assoc.get (queued []).qbind 4095 = some bind5 ∧ 8 ≤ (leBytes 8 2).length ∧ inRam (queued []) (bind5.qdesc + 0x18) 8 ∧
    64 ≤ (bell 0x50000).length ∧ allZero (sliceB (bell 0x50000) 8 56) = true ∧ fieldB (bell 0x50000) 0 8 = 0x50000 ∧ inRam submitted (0x50000 + 0x40) 8 ∧
    dev.submitStatus 0x50000 (dev.rd 0x50000 128) ≠ 0 ∧ submitted.submitStatus 0x50000 (submitted.rd 0x50000 128) = 0 ∧
    firstFree 0xFFFE (fun i => (submitted.prog i).isSome) 0xFFFE 0 = some 1 ∧
    (∃ p, dev.mailbox 0 = some p ∧ p.mbox.length < 64 ∧ p.state ≠ .awaiting) ∧ fieldB (bell 0) 20 1 = 0 ∧ allZero (sliceB (bell 0) 21 3) = true ∧
    allZero (sliceB (bell 0) 32 32) = true ∧ fieldB (bell 0) 24 8 = 0 ∧
    dev.prog 0 = some placeProg ∧ inRam dev (placeProg.hmbx + 64 * (63 % 64) + 0x38) 8 ∧
    (let p := { placeProg with notices := [(1, 5, 0)] }
     ({ dev with progs := [p] } : State).prog 0 = some p ∧ p.notices = (1, 5, 0) :: [] ∧ ({ dev with progs := [p] } : State).hostFull p = false) :=
  ⟨by decide +kernel, by decide +kernel, inRam_of _ _ _ (by decide +kernel), by decide +kernel, by decide +kernel, by decide +kernel, inRam_of _ _ _ (by decide +kernel), by decide +kernel, by decide +kernel, by decide,
   ⟨_, rfl, by decide +kernel, by decide +kernel⟩, by decide +kernel, by decide +kernel, by decide +kernel, by decide +kernel, rfl, inRam_of _ _ _ (by decide +kernel), rfl, rfl, by decide +kernel⟩

def asked (a code arg arg2 arg3 : Nat) (s : State) : State :=
  { (((s.wr64 a (BitVec.ofNat 64 code)).wr64 (a + 8) (BitVec.ofNat 64 arg)).wr64 (a + 16) (BitVec.ofNat 64 arg2)).wr64 (a + 24) (BitVec.ofNat 64 arg3) with services := [a] }
theorem wit_KillRequestResult : (∀ x : PState, x ∈ [.batched, .done, .killed, .ready, .parked, .awaiting] →
      ({ dev with progs := [{ placeProg with state := x }] } : State).prog 0 = some { placeProg with state := x }) ∧
    (let s := asked 0x60000 6 0 0 0 dev
     s.services = 0x60000 :: [] ∧ s.prog 0 = some placeProg ∧ fieldB (s.rd 0x60000 256) 0 4 = 6 ∧ svcClean 6 (s.rd 0x60000 256) = true ∧ fieldB (s.rd 0x60000 256) 0x08 8 = 0) := by
  decide +kernel

theorem wit_ServiceRequestResult :
    (∀ i : Nat, i ∈ [1, 2, 3, 4, 5, 6, 7] → let s := (asked 0x60000 i 0 0 0 dev).wr64 0x60070 1
      fieldB (s.rd 0x60000 256) 0 4 = i ∧ svcClean i (s.rd 0x60000 256) = false) ∧
    (let s := asked 0x60000 1 4095 qd (11 * 65536) dev
     let d := s.rd 0x60000 256
     svcClean 1 d = true ∧ fieldB d 0x08 8 = 4095 ∧ Assoc.get s.qbind 4095 = none ∧ fieldB d 0x10 8 % 64 = 0 ∧ fieldB d 0x18 8 / 65536 = 11 ∧
       s.ctx (BitVec.ofNat 16 (fieldB d 0x18 8)) = some placeCtx ∧ placeCtx.hostGranted = true) ∧
    (let s := asked 0x60000 2 4095 0 0 (queued [])
     let b := { bind5 with unbind := some (0 : Word) }
     svcClean 2 (s.rd 0x60000 256) = true ∧ Assoc.get s.qbind (fieldB (s.rd 0x60000 256) 0x08 8) = some bind5 ∧ bind5.unbind = none ∧ s.drained b = true) ∧
    (let s := asked 0x60000 3 0 0 0 dev
     svcClean 3 (s.rd 0x60000 256) = true ∧ s.prog (fieldB (s.rd 0x60000 256) 0x08 8) = some placeProg ∧ placeProg.state = .ready ∧
       ({ s with progs := [{ placeProg with state := .done }] } : State).prog 0 = some { placeProg with state := .done }) ∧
    (let s := asked 0x60000 5 (2 ^ 21) (2 ^ 21) 0 dev
     let d := s.rd 0x60000 256
     svcClean 5 d = true ∧ fieldB d 0 4 = 5 ∧ fieldB d 0x08 8 % 2 ^ 21 = 0 ∧ fieldB d 0x10 8 % 2 ^ 21 = 0) ∧
    (fieldB ((asked 0x60000 0 0 0 0 dev).rd 0x60000 256) 0 4 = 0 ∧ 7 < fieldB ((asked 0x60000 8 0 0 0 dev).rd 0x60000 256) 0 4) := by decide +kernel

/-- A model image, and one registered. -/
def img0 : Image := { id := 3, ctx := 0, entry := va, vocab := 8, kvl := 1, repro := false, pages := 1, params := 0, wtab := 0, wbase := 0, wlen := 0, sbase := 0, slen := 2 ^ 27 }
def imaged : State := { dev with images := [img0] }
theorem wit_ServiceRequestResult_image :
    let s := asked 0x60000 7 3 0 0 imaged
    let d := s.rd 0x60000 256
    svcClean 7 d = true ∧ fieldB d 0x08 8 = 3 ∧ (s.image (BitVec.ofNat 16 3)).isSome = true ∧ (∀ c ∈ s.lctx, c.2.live = true → c.2.img ≠ 3) := by decide +kernel

/-- The device with a model image's descriptor at 0x61000, to be registered: its work area is 128 MiB of virtual addresses, in 64 large pages. -/
def bigWin : Thimble := BitVec.ofNat 256 (0x0D + 0x20200000 * 2 ^ 64 + 2 ^ 27 * 2 ^ 128)
def big : State :=
  let s := (List.range 64).foldl (fun s k => s.wr64 (0x30808 + 8 * k) 0x40000F) dev
  let s := (((s.wr64 0x61000 va).wr64 0x61008 0x100000008).wr64 0x61010 1).wr64 0x61030 0x20200000
  asked 0x60000 4 0 0x61000 0 { s.wr64 0x61038 0x8000000 with ctxs := [(0, { placeCtx with wins := [bigWin] })] }

theorem big_pte : big.pte 0x10000 0 = some 0x2003D#64 ∧ big.pte 0x20000 0 = some 0x3003D#64 ∧
    (∀ k, k < 64 → big.pte 0x30000 (257 + k) = some 0x40000F#64) ∧ big.ctx 0 = some { placeCtx with wins := [bigWin] } ∧ big.absentCh = [] := by
  decide +kernel

/-- Every byte of such a work area is mapped, granted and present. -/
theorem byte_ok (s : State) (c : NCtx) (a : Nat) (h : 0x20200000 ≤ a) (h' : a < 0x28200000) (hr : bits c.ptroot 39 0 = 0x10000)
    (p1 : s.pte 0x10000 0 = some 0x2003D#64) (p2 : s.pte 0x20000 0 = some 0x3003D#64) (p3 : ∀ k, k < 64 → s.pte 0x30000 (257 + k) = some 0x40000F#64)
    (p4 : s.ctx 0 = some c) (p5 : s.absentCh = []) (hc : winCovers bigWin a (rRD ||| rWR) = true) (hw : c.wins = [bigWin]) :
    ∃ x, s.grantByte 0 (BitVec.ofNat 64 a) (rRD ||| rWR) true = .ok x := by
  have hk : a / 2 ^ 21 % 512 = 257 + (a / 2 ^ 21 - 257) := by omega
  have p := p3 (a / 2 ^ 21 - 257) (by omega)
  rw [← hk] at p
  have h1 : a / 2 ^ 39 % 512 = 0 := by omega
  have h2 : a / 2 ^ 30 % 512 = 0 := by omega
  have r2 : pteFrame 0x2003D#64 = 0x20000 := by decide +kernel
  have r3 : pteFrame 0x3003D#64 = 0x30000 := by decide +kernel
  have hl : ∃ l, s.lookup 0 a = some l ∧ l.rights = 3#4 ∧ l.phys < 2 ^ 30 := by
    simp only [State.lookup, p4, hr, State.walk, h1, p1, r2, r3, h2, p2, p]
    refine ⟨_, rfl, by rfl, ?_⟩
    have r4 : pteFrame 0x40000F#64 = 0x400000 := by decide +kernel
    simp only [r4]; omega
  obtain ⟨l, hl, hlr, hlp⟩ := hl
  have ha : (BitVec.ofNat 64 a).toNat = a := by simp; omega
  have q : ¬(Config.channels * Config.channelBytes ≤ l.phys + a % 65536) := by simp only [Config.channels, Config.channelBytes]; omega
  have hn : s.noChannel (l.phys + a % 65536) = false := by simp only [State.noChannel, p5, decide_eq_false q, List.contains_nil, Bool.or_self]
  have e1 : ¬(2 ^ 48 ≤ a ∨ a < 2 ^ 18 ∨ (scratchBase ≤ a ∧ a < scratchEnd)) := by simp only [scratchBase, scratchEnd]; omega
  have e3 : ¬(3#4 &&& pageNeeds (rRD ||| rWR) ≠ pageNeeds (rRD ||| rWR)) := by decide
  refine ⟨{ bus := l.phys + a % 65536, nr := l.nr, page := a / 65536 }, ?_⟩
  simp only [State.grantByte, ha, hl, p4, if_neg e1, hlr, if_neg e3, Option.map, Option.getD, hw, List.any, hc, hn, Bool.and_false]
  rfl

theorem range_ok (s : State) (f : ∀ a, 0x20200000 ≤ a → a < 0x28200000 → ∃ x, s.grantByte 0 (BitVec.ofNat 64 a) (rRD ||| rWR) true = .ok x)
    (n a len off : Nat) (h : 0x20200000 ≤ a) (h' : a + len ≤ 0x28200000) :
    ∃ x, s.grantFrom 0 (rRD ||| rWR) true n (BitVec.ofNat 64 a) len off = .ok x := by
  induction n generalizing a len off with
  | zero => exact ⟨_, rfl⟩
  | succ n ih =>
    unfold State.grantFrom
    by_cases hl : len = 0
    · simp [hl]
    · obtain ⟨x, hx⟩ := f a h (by omega)
      have ha : (BitVec.ofNat 64 a).toNat = a := by simp; omega
      obtain ⟨y, hy⟩ := ih (a + min len (32768 - a % 32768)) (len - min len (32768 - a % 32768)) (off + min len (32768 - a % 32768)) (by omega) (by omega)
      rw [BitVec.ofNat_add] at hy
      simp only [if_neg hl, ha, hx, hy]
      exact ⟨_, rfl⟩

theorem imageOk_of (s : State) (d : List Byte) (h : ∃ x, s.grantFrom 0 (rRD ||| rWR) true (2 ^ 27 / 32768 + 2) (BitVec.ofNat 64 0x20200000) (2 ^ 27) 0 = .ok x)
    (he : (match s.granted 0 (BitVec.ofNat 64 (fieldB d 0 8 % 2 ^ 48 / 4 * 4)) 4 rEX false with | .ok _ => true | .error _ => false) = true)
    (hf : (fieldB d 0x08 4 = 8 ∧ fieldB d 0x0C 2 = 1 ∧ fieldB d 0x0E 1 = 0 ∧ fieldB d 0x0F 1 = 0 ∧ fieldB d 0x10 2 = 1) ∧
      fieldB d 0x12 2 = 0 ∧ fieldB d 0x14 4 = 0 ∧ fieldB d 0x20 8 = 0 ∧ fieldB d 0x28 8 = 0 ∧ fieldB d 0x30 8 = 0x20200000 ∧ fieldB d 0x38 8 = 2 ^ 27) :
    s.imageOk 0 d = true := by
  obtain ⟨x, h⟩ := h
  obtain ⟨⟨d8, dc, de, df, d10⟩, d12, d14, d20, d28, d30, d38⟩ := hf
  have hs : s.granted 0 (BitVec.ofNat 64 0x20200000) (2 ^ 27) (rRD ||| rWR) true = .ok x := by unfold State.granted; exact h
  have hz : s.granted 0 (BitVec.ofNat 64 0) 0 rRD false = .ok [] := rfl
  cases hg : s.granted 0 (BitVec.ofNat 64 (fieldB d 0 8 % 2 ^ 48 / 4 * 4)) 4 rEX false with
  | error y => rw [hg] at he; exact absurd he (by simp)
  | ok y =>
    unfold State.imageOk
    simp only [hg, d8, dc, de, df, d10, d12, d14, d20, d28, d30, d38, hs, hz]
    rfl

theorem wit_ServiceRequestResult_register :
    let d := big.rd 0x60000 256
    big.services = [0x60000] ∧ fieldB d 0 4 = 4 ∧ svcClean 4 d = true ∧ fieldB d 0x08 8 = 0 ∧ fieldB d 0x10 8 = 0x61000 ∧
      big.ctx 0 = some { placeCtx with wins := [bigWin] } ∧ big.imageOk 0 (big.rd 0x61000 64) = true ∧
      firstFree 65536 (fun i => (big.image (BitVec.ofNat 16 i)).isSome) (big.images.length + 1) 65535 = some 65535 := by
  obtain ⟨p1, p2, p3, p4, p5⟩ := big_pte
  refine ⟨rfl, by decide +kernel, by decide +kernel, by decide +kernel, by decide +kernel, p4, ?_, by decide +kernel⟩
  refine imageOk_of big _ (range_ok big (fun a h h' => byte_ok big _ a h h' (by decide +kernel) p1 p2 p3 p4 p5 ?_ rfl) _ _ _ _ (by omega) (by omega)) (by decide +kernel) (by decide +kernel)
  have b : (bigWin.extractLsb' 64 64).toNat = 0x20200000 ∧ (bigWin.extractLsb' 128 64).toNat = 2 ^ 27 ∧ bigWin.getLsbD 0 = true ∧ bigWin.getLsbD 1 = false ∧
      bigWin.extractLsb' 2 4 &&& (rRD ||| rWR) = rRD ||| rWR := by decide +kernel
  simp only [winCovers, b.1, b.2.1, b.2.2.1, b.2.2.2.1, b.2.2.2.2]
  simp only [decide_eq_true h, decide_eq_true (show a < 0x20200000 + 2 ^ 27 by omega), decide_true, Bool.not_false, Bool.and_self]

theorem wit_HostAccessResult : inRam dev 0x70000 2 ∧ 0x70000 + [1#8, 2#8].length ≤ 2 ^ 40 ∧
    (∀ i, i < 2 → dev.readOnly (0x70000 + i) = false ∧ ∀ p ∈ dev.progs, 0x70000 + i ≠ p.sblk + 0x18) ∧ 64 ≤ (bell 0).length ∧ allZero (sliceB (bell 0) 8 56) = true ∧
    1 ≤ fieldB (bell 256) 0 8 ∧ fieldB (bell 256) 0 8 ≤ 256 ∧ fieldB (bell 0) 0 8 = 0 ∧ 256 < fieldB (bell 257) 0 8 :=
  ⟨inRam_of _ _ _ (by decide +kernel), by decide +kernel, by decide +kernel, by decide +kernel, by decide +kernel, by decide +kernel, by decide +kernel, by decide +kernel, by decide +kernel⟩

/-- The words of a packet of a kind, at level 5, for one bundle, and their change in word 0. -/
def words (w0 : Word) : List Word := [at64 5 4 ||| at64 4 10 ||| w0, va, va, 0x1001, va + 0x10000, va + 0x200, va + 0x100, 0]
/-- Only the bundles of island 0 are present. -/
def few (s : State) : State := { s with absentIsl := (List.range 36).drop 1 }
def childOf (w0 : Word) : State := few { dev with children := [{ id := 3, die := 0, t := t0, ctx := 0, words := words w0, slots := va + 0x1000, deps := [] }] }
def pkt (w0 : Word) : Packet := { ctx := 0, words := words w0, slots := some (0x20001000, 1), src := .child 0 }
theorem wit_LaunchPacketResult :
    (∃ p, (childOf 0).packet (.child 3) = some p ∧ decide (p = pkt 0) = true) ∧ (childOf 0).freeLid 65535 = some 65535 ∧ launchKind (.child 3) (pkt 0).kind = true ∧
    (newLaunch 65535 (pkt 0) (childOf 0).stamp).wslot = 0 ∧ (newLaunch 65535 (pkt (at64 1 24)) (childOf 0).stamp).wslot ≠ 0 ∧ (pkt 0).slots.isSome = true :=
  ⟨some_of _ _ (by decide +kernel), by decide +kernel⟩

theorem get_none {x : Nat} : ∀ {l : List Host.Cell}, (∀ c ∈ l, c.1 < x) → Cells.get l x = none
  | [], _ => rfl
  | (a, b) :: r, h => by
    have := h (a, b) (List.mem_cons_self ..)
    rw [Cells.get, if_neg (by have : a < x := this; omega)]
    exact get_none fun c hc => h c (List.mem_cons_of_mem _ hc)
theorem rd_zero (s : State) (n : Nat) : ∀ a, s.absentCh = [] → (∀ c ∈ s.mem, c.1 < a) → a + n ≤ Config.channels * Config.channelBytes →
    s.rd a n = List.replicate n 0 := by
  induction n with
  | zero => intros; rfl
  | succ n ih =>
    intro a h0 h1 h2
    have hb : s.rdByte a = 0 := by
      unfold State.rdByte State.noChannel
      have l : ¬ scratchBase ≤ a := by have : Config.channels * Config.channelBytes ≤ scratchBase := by decide
                                       omega
      rw [if_neg l, h0, get_none h1]
      simp; omega
    rw [State.rd, hb, ih (a + 1) h0 (fun c h => by have := h1 c h; omega) (by omega)]; rfl

theorem leNat_zeros (n : Nat) : leNat (List.replicate n (0 : Byte)) = 0 := by
  induction n with
  | zero => rfl
  | succ n ih => show (0 : Byte).toNat + 256 * leNat (List.replicate n (0 : Byte)) = 0; rw [ih]; rfl
theorem fieldB_zeros (n o k : Nat) : fieldB (List.replicate n (0 : Byte)) o k = 0 := by
  unfold fieldB sliceB
  rw [List.drop_replicate, List.take_replicate, List.replicate_append_replicate]
  exact leNat_zeros _
theorem groupLists_zeros (s : State) (c : Half) (n : Nat) (l : List Nat) : s.groupLists c (List.replicate n (0 : Byte)) l = .ok [] := by
  induction l with
  | nil => rfl
  | cons g r ih => unfold State.groupLists; rw [if_pos (fieldB_zeros n (16 * g) 4)]; exact ih
theorem window_zeros (n : Nat) : ((List.range 8).map (fun i => w64 (sliceB (List.replicate n (0 : Byte)) (8 * i) 8))).any (fun b => decide (bits b 15 0 ≠ 0)) = false := by
  rw [List.any_map, List.any_eq_false]
  intro i _
  have h : w64 (sliceB (List.replicate n (0 : Byte)) (8 * i) 8) = 0#64 := congrArg (BitVec.ofNat 64) (fieldB_zeros n (8 * i) 8)
  show ¬ (decide (bits (w64 _) 15 0 ≠ 0) = true)
  rw [h]; decide
theorem counts_zeros (n : Nat) (L : List Nat) : L.any (fun g => decide (65536 < fieldB (List.replicate n (0 : Byte)) (16 * g) 4)) = false := by
  rw [List.any_eq_false]; intro g _; rw [fieldB_zeros]; decide
/-- A launch whose tables read as given passes the checks of R113 where its entry, root payload, window table and CREC are granted. -/
theorem checkLaunch_of {s : State} {l : Launch} {x r y z : List Byte} {c : Nat} (h0 : l.wordsOk = true) (h1 : l.src = .child c) (hp : l.pile = false)
    (go : s.groupTable l.ctx (l.w 4) = .ok z) (wo : s.mustGrant l.ctx (l.w 5) 64 rRD = .ok y)
    (hk : ((List.range 8).map (fun i => w64 (sliceB y (8 * i) 8))).any (fun b => decide (bits b 15 0 ≠ 0)) = false)
    (hn : ∀ L : List Nat, L.any (fun g => decide (65536 < fieldB z (16 * g) 4)) = false) (hl : ∀ L, s.groupLists l.ctx z L = .ok [])
    (hx : s.mustGrant l.ctx (at64 (bits (l.w 1) 47 2) 2) 4 rEX = .ok x) (hr : s.mustGrant l.ctx (l.w 2) 48 rRD = .ok r)
    (hc : s.crecOk l.ctx l.crec = .ok ()) : ∃ t, s.checkLaunch l = .ok t ∧ t.lists = [] := by
  unfold State.checkLaunch
  simp only [go, wo, h0, h1, hp, hx, hr, hc, bind, Except.bind, Bool.not_true, Bool.false_eq_true, if_false, hk, hn, hl, Bool.or_false, Bool.false_and, false_and]
  exact ⟨_, rfl, rfl⟩
/-- A group table in memory that nothing has written reads as zeros. -/
theorem groupTable_zeros (s : State) (h : s.ctxs = dev.ctxs ∧ s.absentCh = []) (hm : decide (∀ c ∈ s.mem, c.1 < 0x210000) = true)
    (hg : ∃ bs, s.granted 0 (va + 0x10000) 4096 rRD true = .ok bs ∧
      decide (bs = [{ va := va + 0x10000, bus := 0x210000, len := 4096, off := 0, nr := false, page := 0x2001 }]) = true) : s.groupTable 0 (va + 0x10000) = .ok (List.replicate 4096 0) := by
  obtain ⟨bs, hb, hq⟩ := hg
  have hq := of_decide_eq_true hq
  subst hq
  unfold State.groupTable State.mustGrant
  rw [hb]
  have hz : s.rd 0x210000 4096 = List.replicate 4096 0 := rd_zero s 4096 0x210000 h.2 (of_decide_eq_true hm) (by decide)
  simp only [anyNr, List.any_cons, List.any_nil, State.rdBlocks, List.flatMap_cons, List.flatMap_nil, List.append_nil, hz]
  rfl
theorem checkLaunch_zeros {s : State} {l : Launch} {x r y : List Byte} {c : Nat} (h0 : l.wordsOk = true) (h1 : l.src = .child c) (hp : l.pile = false)
    (hg : s.groupTable l.ctx (l.w 4) = .ok (List.replicate 4096 0)) (wo : s.mustGrant l.ctx (l.w 5) 64 rRD = .ok y)
    (hk : ((List.range 8).map (fun i => w64 (sliceB y (8 * i) 8))).any (fun b => decide (bits b 15 0 ≠ 0)) = false)
    (hx : s.mustGrant l.ctx (at64 (bits (l.w 1) 47 2) 2) 4 rEX = .ok x) (hr : s.mustGrant l.ctx (l.w 2) 48 rRD = .ok r)
    (hc : s.crecOk l.ctx l.crec = .ok ()) : ∃ t, s.checkLaunch l = .ok t ∧ t.lists = [] :=
  checkLaunch_of h0 h1 hp hg wo hk (counts_zeros 4096) (groupLists_zeros s l.ctx 4096) hx hr hc

theorem wit_LaunchPacketResult_ok : ∀ w : Word, w ∈ [0, at64 1 24] →
    ∃ t, (childOf w).checkLaunch (newLaunch 65535 (pkt w) (childOf w).stamp) = .ok t ∧ t.lists = [] := by
  intro w h
  have h' : w = 0 ∨ w = at64 1 24 := by simpa using h
  rcases h' with rfl | rfl
  · obtain ⟨x, hx, -⟩ := ok_of ((childOf 0).mustGrant 0 (at64 (bits va 47 2) 2) 4 rEX) (fun _ => true) (by decide +kernel)
    obtain ⟨r, hr, -⟩ := ok_of ((childOf 0).mustGrant 0 va 48 rRD) (fun _ => true) (by decide +kernel)
    obtain ⟨y, hy, k⟩ := ok_of ((childOf 0).mustGrant 0 (va + 0x200) 64 rRD)
      (fun y => !(((List.range 8).map (fun i => w64 (sliceB y (8 * i) 8))).any (fun b => decide (bits b 15 0 ≠ 0)))) (by decide +kernel)
    obtain ⟨⟨⟩, hc, -⟩ := ok_of ((childOf 0).crecOk 0 (va + 0x100)) (fun _ => true) (by decide +kernel)
    exact checkLaunch_zeros (by decide +kernel) rfl (by decide +kernel) (groupTable_zeros _ ⟨rfl, rfl⟩ (by decide +kernel) (ok_of _ _ (by decide +kernel))) hy (by simpa using k) hx hr hc
  · obtain ⟨x, hx, -⟩ := ok_of ((childOf (at64 1 24)).mustGrant 0 (at64 (bits va 47 2) 2) 4 rEX) (fun _ => true) (by decide +kernel)
    obtain ⟨r, hr, -⟩ := ok_of ((childOf (at64 1 24)).mustGrant 0 va 48 rRD) (fun _ => true) (by decide +kernel)
    obtain ⟨y, hy, k⟩ := ok_of ((childOf (at64 1 24)).mustGrant 0 (va + 0x200) 64 rRD)
      (fun y => !(((List.range 8).map (fun i => w64 (sliceB y (8 * i) 8))).any (fun b => decide (bits b 15 0 ≠ 0)))) (by decide +kernel)
    obtain ⟨⟨⟩, hc, -⟩ := ok_of ((childOf (at64 1 24)).crecOk 0 (va + 0x100)) (fun _ => true) (by decide +kernel)
    exact checkLaunch_zeros (by decide +kernel) rfl (by decide +kernel) (groupTable_zeros _ ⟨rfl, rfl⟩ (by decide +kernel) (ok_of _ _ (by decide +kernel))) hy (by simpa using k) hx hr hc
theorem wit_LaunchPacketResult_bad :
    ∃ x, (childOf 0).checkLaunch (newLaunch 65535 (pkt 1) (childOf 0).stamp) = .error x ∧ decide (x = .status 3) = true := err_of _ _ (by decide +kernel)

/-- A refused packet's record in stack memory that its context may write, and the program whose INVOKE waits for such a packet. -/
theorem wit_LaunchPacketResult_told : (let v := (childOf 0).takePacket (.child 3) (some 65535)
      let l := newLaunch 65535 (pkt 1) (childOf 0).stamp
      l.crec.toNat % 128 = 0 ∧ l.sslot = 0 ∧ ((∃ bs, v.granted l.ctx l.crec 128 rWR true = .ok bs ∧
        decide (bs = [{ va := va + 0x100, bus := 0x200100, len := 128, off := 0, nr := false, page := 0x2000 }]) = true)) ∧ inRam v 0x200100 128 ∧ unowned v 0x200100 128) ∧
    (let p : Prog := { placeProg with await := .launch 3 (some (words 1)) none none }
     let s : State := { dev with progs := [p] }
     s.prog 0 = some p ∧ (∃ k, s.packet (.invoke 0) = some k ∧ (launchKind (.invoke 0) k.kind && decide (k.src = .invoke 0)) = true) ∧ (s.freeLid 65535).isSome = true ∧
       ∃ x, s.checkLaunch (newLaunch 65535 { ctx := 0, words := words 1, slots := none, src := .invoke 0 } s.stamp) = .error x ∧ decide (x = .status 3) = true) :=
  ⟨⟨by decide +kernel, by decide +kernel, ok_of _ _ (by decide +kernel), inRam_of _ _ _ (by decide +kernel), by unfold unowned; decide +kernel⟩,
   rfl, some_of _ _ (by decide +kernel), by decide +kernel, err_of _ _ (by decide +kernel)⟩
theorem wit_LaunchPacketResult_slot : let l := newLaunch 65535 (pkt (at64 1 24)) (childOf 0).stamp
    l.wslot ≠ 0 ∧ (childOf 0).slotAddr l l.wslot = some 0x201010 ∧ inRam (childOf 0) 0x201018 8 ∧ unowned (childOf 0) 0x201018 8 ∧
    (childOf 0).slotAddr { l with queued := some (2 ^ 40, 0) } l.wslot = none :=
  ⟨by decide +kernel, by decide +kernel, inRam_of _ _ _ (by decide +kernel), by unfold unowned; decide +kernel, by decide +kernel⟩
/-- The launch that a block operation, a copy or an MST counts for. -/
theorem wit_countedOnce : ∃ l, (act0.lid.bind (on (s6 va)).launch) = some l ∧ (decide (act0.lid = some l.lid) && (l.ordinal t0.core).isSome) = true :=
  some_of _ _ (by decide +kernel)

theorem wit_LaunchPacketResult_place : ((childOf 0).wanted (newLaunch 65535 (pkt 0) (childOf 0).stamp)).2 ≤ (childOf 0).usable.length ∧
    ((childOf 0).choose (newLaunch 65535 (pkt 0) (childOf 0).stamp)).isSome = true := by decide +kernel

/-- Packets of the four other kinds at the head of queue 4095. -/
theorem wit_QueuePacketResult :
    Assoc.get (queued (words 3)).qbind 4095 = some bind5 ∧
    (∃ p, (queued (words (1 ||| at64 1 24))).packet (.host 4095) = some p ∧
      (decide (p.kind = 1) && decide ((newLaunch 0 p (queued []).stamp0).wslot = 1) && decide (p.slots = some (0x4C000, 0))) = true) ∧
    (∃ p, (queued (words (2 ||| at64 1 36))).packet (.host 4095) = some p ∧
      (decide (p.kind = 2) && decide ((newLaunch 0 p (queued []).stamp0).sslot = 1) && decide (p.slots = some (0x4C000, 0))) = true) ∧
    (∃ p, (queued (words 3)).packet (.host 4095) = some p ∧ decide (p.kind = 3) = true) ∧
    (0x4C000 + 16 + 8 ≤ bind5.qdesc + 0x10 ∨ bind5.qdesc + 0x18 ≤ 0x4C000 + 16) :=
  ⟨rfl, some_of _ _ (by decide +kernel), some_of _ _ (by decide +kernel), some_of _ _ (by decide +kernel), by decide +kernel⟩

theorem wit_QueuePacketResult_stamp : (∃ p, (queued (words 4)).packet (.host 4095) = some p ∧ (decide (p.kind = 4) && decide (p.ctx = 0)) = true) ∧
    ∃ bs, (((queued (words 4)).takePacket (.host 4095)).stamped).granted 0 (va + 0x100) 16 rWR true = .ok bs ∧ decide (bs.length = 1) = true :=
  ⟨some_of _ _ (by decide +kernel), ok_of _ _ (by decide +kernel)⟩

theorem wit_QueuePacketResult_more :
    inRam (queued []) (bind5.qdesc + 0x10) 8 ∧ inRam (queued []) (0x4C000 + 16) 16 ∧
    (let s : State := { dev.wr64 0x4C018 (at64 1 63) with qwaits := [{ q := 4095, depend := some 0x4C010, fence := some [], fetched := [], launched := [] }] }
     (s.qwait 4095).fence = some [] ∧ (s.rd64 (0x4C010 + 8)).getLsbD 63 = true ∧ (s.rd64 0x4C010).toNat = bits (s.rd64 (0x4C010 + 8)) 15 0 ∧
     s.launches = [] ∧ (s.qwaits.find? (fun x => decide (x.depend = some 0x4C010))).isSome = true) :=
  ⟨inRam_of _ _ _ (by decide +kernel), inRam_of _ _ _ (by decide +kernel), by decide +kernel⟩

theorem wit_QueuePacketResult_place : let l := { newLaunch 5 (pkt 0) (childOf 0).stamp with state := .waitBundles }
    let s : State := { childOf 0 with launches := [l] }
    s.launch 5 = some l ∧ (∀ x ∈ s.launches, x.state = .waitBundles → x.level ≠ 0) ∧ (s.wanted l).2 ≤ s.usable.length ∧ (s.choose l).isSome = true ∧ l.lists = [] := by decide +kernel

/-! ### Programs -/

/-- A device whose turn is a program's, with an image, a context 5 of three tokens, an empty context 6, and a literal and a sampler block in the program image. -/
def p0 : Prog := { placeProg with a := [5, 1, 0x8000000000000000] ++ List.replicate 13 0, c := [0, handle 5 1, handle 6 1] ++ List.replicate 13 0, t := [[], [7], [1, 7, 2], [9]] ++ List.replicate 12 [] }
def cx : LCtx := { LCtx.empty with live := true, img := 3, len := 3, tail := 7, list := [0] }
def pg : PageE := { PageE.none with used := true, refc := 1, fill := 2, img := 3, loc := 0x900, mgen := 1 }
def lv (p : Prog) : State :=
  { (dev.wr64 0x200008 0x700000002).wr64 0x200010 5 with progs := [p], cur := .prog p.slot, images := [img0], lctx := [(5, cx), (6, { cx with len := 0, list := [] })], pages := [(0, pg)], ptSize := 8 }
theorem lv_turn (p : Prog) (h : p.state = .ready) (k : p.doomed = false) : ProgTurn (lv p) p := ⟨rfl, by show List.find? _ _ = _; simp [lv], h, k⟩

theorem wit_ProgTurn : ProgTurn (lv p0) p0 ∧ ∀ l, ProgTurn (lv { p0 with retstk := l }) { p0 with retstk := l } := ⟨lv_turn _ rfl rfl, fun _ => lv_turn _ rfl rfl⟩

theorem wit_LivikControlResult : (List.replicate 15 3).length < 16 ∧ 16 ≤ (List.replicate 16 3).length ∧ (List.replicate 16 3) = 3 :: List.replicate 15 3 ∧
    (p0.ga 0 ≠ 0) ∧ (p0.ga 15 = 0) := by decide +kernel

/-- Strings of 4,095 and 4,096 ids. -/
def longT (n : Nat) : Prog := { p0 with t := List.replicate n 5 :: p0.t.drop 1 }
theorem wit_LivikStringResult :
    ((longT 4095).gt 0).length + ((longT 4095).gt 1).length ≤ 4096 ∧ 4096 < ((longT 4096).gt 0).length + ((longT 4096).gt 1).length ∧
    FirstAt (p0.gt 1) (p0.gt 2) (p0.ga 1).toNat 1 ∧ (∀ i, ¬ FirstAt (p0.gt 3) (p0.gt 0) (p0.ga 1).toNat i) ∧
    (p0.gt 2).take 0 = (p0.gt 1).take 0 ∧ (p0.gt 2)[0]? = some 1 ∧ (p0.gt 1)[0]? = some 7 ∧ (1#32).toNat < (7#32).toNat ∧ p0.gt 1 = p0.gt 0 ++ 7 :: [] ∧
    ((longT 4095).gt 0).length < 4096 ∧ 4096 ≤ ((longT 4096).gt 0).length ∧ (p0.gt 2)[(p0.ga 1).toNat]? = some 7 ∧ (p0.gt 2).length ≤ (p0.ga 2).toNat := by
  refine ⟨by decide +kernel, by decide +kernel, ⟨by decide +kernel, by decide +kernel, by decide +kernel, fun j h k => absurd (show j < 1 from k) (Nat.not_lt.mpr (show 1 ≤ j from h))⟩, fun i h => ?_, ?_⟩
  · have := h.2.1; revert this; show ¬ (i + 1 ≤ 0); omega
  · decide +kernel

theorem wit_LivikStringResult_literal : ∃ h w, (8#32).toNat % 8 = 0 ∧ (8#32).toNat + 4 + 4 * leNat h ≤ p0.imgLen ∧ leNat h ≤ 4096 ∧
    (lv p0).pass.imageRead p0 (8#32).toNat 4 = .ok h ∧ (lv p0).pass.imageRead p0 ((8#32).toNat + 4) (4 * leNat h) = .ok w ∧ idsOf (leNat h) w = [7#32, 5#32] := by
  obtain ⟨h, e, n⟩ := ok_of ((lv p0).pass.imageRead p0 (8#32).toNat 4) (fun h => decide (leNat h = 2)) (by decide +kernel)
  have n : leNat h = 2 := of_decide_eq_true n
  obtain ⟨w, e', m⟩ := ok_of ((lv p0).pass.imageRead p0 ((8#32).toNat + 4) (4 * 2)) (fun w => decide (idsOf 2 w = [7#32, 5#32])) (by decide +kernel)
  refine ⟨h, w, by decide, ?_, ?_, e, ?_, ?_⟩ <;> rw [n]
  · decide
  · decide
  · exact e'
  · exact of_decide_eq_true m

theorem firstFree_two (m : Nat) (bad : Nat → Bool) (i x y : Nat) (hm : 3 ≤ m) (h : ∀ k, k ≠ x → k ≠ y → bad k = false) : firstFree m bad 3 i ≠ none := by
  simp only [firstFree]
  split
  · split
    · split
      · rename_i h1 h2 h3
        have b : ∀ k, bad k = true → k = x ∨ k = y := fun k hk => by
          by_cases e : k = x
          · exact .inl e
          · by_cases f : k = y
            · exact .inr f
            · rw [h k e f] at hk; cases hk
        have a1 := b _ h1; have a2 := b _ h2; have a3 := b _ h3
        have l := Nat.mod_lt i (show 0 < m by omega)
        have e1 : (i + 1) % m = if i % m + 1 = m then 0 else i % m + 1 := by
          rw [Nat.add_mod, Nat.mod_eq_of_lt (show 1 < m by omega)]; split
          · rename_i e; rw [e, Nat.mod_self]
          · exact Nat.mod_eq_of_lt (by omega)
        have l1 := Nat.mod_lt (i + 1) (show 0 < m by omega)
        have e2 : (i + 1 + 1) % m = if (i + 1) % m + 1 = m then 0 else (i + 1) % m + 1 := by
          rw [Nat.add_mod, Nat.mod_eq_of_lt (show 1 < m by omega)]; split
          · rename_i e; rw [e, Nat.mod_self]
          · exact Nat.mod_eq_of_lt (by omega)
        split at e1 <;> split at e2 <;> omega
      · simp
    · simp
  · simp
theorem lv_lc (p : Prog) (k : Nat) (h : k ≠ 5) (h' : k ≠ 6) : (lv p).pass.lc k = LCtx.empty := by
  show Assoc.getD [(5, cx), (6, { cx with len := 0, list := [] })] k LCtx.empty = LCtx.empty
  simp [Assoc.getD, Assoc.get, h, h']
theorem lv_free (p : Prog) : (lv p).pass.freeCid ≠ none := by
  unfold State.freeCid
  rw [if_neg (by show ¬ (Config.maxContexts ≤ 2); decide)]
  refine firstFree_two _ _ _ 5 6 (by decide) fun k h h' => ?_
  rw [lv_lc p k h h']; rfl

theorem wit_ContextCreateResult : p0.repeated ownerTable = none ∧ (p0.ga 15).toNat < 2 ^ 16 ∧
    (let p := { p0 with a := [3] ++ List.replicate 15 0 }
     (lv p).image ((p.ga 0).setWidth 16) = some img0 ∧ img0.ctx = p.nctx) ∧
    (lv p0).named (p0.gc 1) = some 5 ∧ ((lv p0).lc 5).busy = none ∧ (lv p0).pass.freeCid ≠ none ∧ (lv p0).named (p0.gc 0) = none :=
  ⟨rfl, by decide +kernel, by decide +kernel, by decide +kernel, rfl, lv_free p0, by decide +kernel⟩

theorem wit_ContextChangeResult : ((lv p0).lc 5).gen < 0xFFFF ∧ ((lv p0).lc 5).len ≤ (p0.ga 0).toNat ∧ ((lv p0).lc 5).pin = false ∧ (∀ i ∈ ((lv p0).lc 5).list, (lv p0).pins i < 254) ∧
    (({ lv p0 with lctx := [(5, { cx with pin := true })] } : State).lc 5).pin = true ∧ ({ lv p0 with lctx := [(5, { cx with pin := true })] } : State).named (p0.gc 1) = some 5 := by decide +kernel

/-- A mailbox entry. -/
def entry : MboxE := { sender := 1, retn := 0, tag := 2, cls := 2, val := 1, str := [7] }
/-- A mark that an owner remembers, and what the conditions of each instruction need besides. -/
def marked (o : Nat) (e : Option MboxE) : Prog := { p0 with marks := [{ owner := o, mark := p0.mark, res := 4, entry := e }] }
theorem wit_RepeatedMarkResult : (∀ o : Nat, o ∈ [ownerTable, ownerFront, ownerHost, ownerImage, ownerMail 0, ownerMail 5] → ∀ e : Option MboxE, e ∈ [none, some entry] →
      (marked o e).repeated o = some { owner := o, mark := p0.mark, res := 4, entry := e }) ∧ ProgTurn (lv (marked 3 none)) (marked 3 none) ∧
    (p0.ga 0).toNat % 2 ^ 16 = 5 :=
  ⟨by decide +kernel, lv_turn _ rfl rfl, by decide +kernel⟩

theorem wit_LongInstructionStart : p0.kind = 0 ∧ p0.long = none ∧ (lv p0).named (p0.gc 1) = some 5 ∧ ((lv p0).lc 5).busy = none ∧ valid ((lv p0).vocab 5) (p0.gt 2) = true ∧
    p0.gt 0 = [] ∧ p0.gt 2 ≠ [] ∧ ((lv p0).lc 5).len < Config.maxLength ∧ (lv p0).pass.missing p0.slot 5 1 Config.maxContexts = [] ∧ ((lv p0).lc 5).len ≠ 0 ∧
    stopSeqs ((lv p0).vocab 5) (p0.gt 0) = some [] ∧ p0.ga 15 = 0 ∧ p0.ga 0 ≠ 0 ∧ (∃ m, (lv p0).pass.sampler p0 (64#32).toNat = .ok m ∧ decide (m.temp = 0) = true) ∧
    (let p := { p0 with t := [[7, 0xFFFFFFFF]] ++ p0.t.drop 1 }
     stopSeqs ((lv p).vocab 5) (p.gt 0) = some [[7]]) :=
  ⟨by decide +kernel, rfl, by decide +kernel, rfl, by decide +kernel, rfl, by decide +kernel, by decide +kernel, by decide +kernel, by decide +kernel, by decide +kernel, by decide +kernel, by decide +kernel,
    ok_of _ _ (by decide +kernel), by decide +kernel⟩

theorem wit_LongInstructionFaults : (lv p0).named (p0.gc 2) = some 6 ∧ ((lv p0).lc 6).len = 0 ∧ stopSeqs ((lv p0).vocab 5) (p0.gt 3) = none ∧
    valid ((lv p0).vocab 5) (p0.gt 3) = false := by decide +kernel

/-- Another program, in slot 5, with entries in its mailbox. -/
def mailed (n : Nat) : State := { lv p0 with progs := [p0, { placeProg with slot := 5, mbox := List.replicate n entry }] }
theorem wit_PostResult : (∀ n, ProgTurn (mailed n) p0) ∧ (∀ k : LIdx, LReg.c 1 = .c k → (lv p0).named (p0.gc k) ≠ none) ∧ (p0.ga 0).toNat % 2 ^ 16 = 5 ∧ (5 : Nat) ≠ 0xFFFF ∧ (5 : Nat) ≠ 0xFFFE ∧ 5 ≠ p0.slot ∧
    (p0.ga 1).toNat % 2 ^ 16 = 1 ∧ (mailed 0).mailbox 1 = none ∧
    (∃ q, (mailed 63).mailbox 5 = some q ∧ (decide (q.mbox.length < 64) && decide (q.state ≠ .awaiting)) = true) ∧ (∃ q, (mailed 64).mailbox 5 = some q ∧ decide (64 ≤ q.mbox.length) = true) :=
  ⟨fun _ => ⟨rfl, rfl, rfl, rfl⟩, fun k h => by cases h; decide +kernel, by decide +kernel, by decide, by decide, by decide, by decide +kernel, by decide +kernel, some_of _ _ (by decide +kernel), some_of _ _ (by decide +kernel)⟩

theorem wit_AwaitInvokeStampResult :
    (let p := { p0 with mbox := [{ entry with cls := 0 }, entry] }
     ProgTurn (lv p) p ∧ takeClass (LReg.t 3).cls p.mbox = some (entry, [{ entry with cls := 0 }]) ∧ takeClass (LReg.c 3).cls p.mbox = none) ∧
    (p0.ga 0).toNat % 64 ≠ 0 ∧
    (let p := { p0 with a := [va] ++ List.replicate 15 0 }
     ProgTurn (lv p) p ∧ (p.ga 0).toNat % 64 = 0 ∧ ∃ bs, (lv p).pass.granted p.nctx (p.ga 0) 64 rRD true = .ok bs ∧ (!anyNr bs) = true) :=
  ⟨⟨lv_turn _ rfl rfl, by decide +kernel, by decide +kernel⟩, by decide +kernel, lv_turn _ rfl rfl, by decide +kernel, ok_of _ _ (by decide +kernel)⟩

theorem wit_StringWordAndEffect : ((longT 4096).gt 0).length = 4096 ∧ (p0.ga 1).toNat < (p0.gt 2).length ∧ (p0.gt 2).length ≤ (p0.ga 0).toNat := by decide +kernel

/-! ### Messages in flight, barriers, outstanding operations -/

def launch1 : Launch := { placeLaunchRec with token := { started := true, at_ := 6, sum := 0, stain := false }, deques := [(1, 0, [{ bytes := List.replicate 32 0, s2 := 0, deps := [] }])] }
/-- Launch 1 with all its thread sets free, a message on its way to core 7, and a task in core 1's deque. -/
def flight : Flight := { id := 9, dst := cc 7, src := none, msg := placeMsg 1, ctx := 0, lid := some 1, counted := true, outside := false, deps := [], held := true }
def idle : State := { base with ts := [], launches := [launch1], net := [flight], clock := holdLimit + 1, snet := [(4, .request 1 2 1), (5, .reply 1 2)], cur := .none }
theorem wit_MessageResult :
    idle.net.find? (fun f => decide (f.id = 9)) = some flight ∧ idle.mayArrive flight = true ∧ flight.lid = some 1 ∧ idle.coreAbsent flight.dst = false ∧
    idle.launch 1 = some launch1 ∧ idle.frozenImg flight.dst flight.ctx = none ∧ idle.freezingOn flight.dst flight.ctx = false ∧
    (idle.core flight.dst).dup flight.msg = false ∧ (idle.core flight.dst).basket.length < 64 ∧ (idle.core flight.dst).membk = [] ∧ (idle.core flight.dst).ring = [] ∧
    (∃ o, launch1.ordinal flight.dst = some o ∧ decide (o = 7) = true) ∧ ({ idle with absent := [0] } : State).coreAbsent flight.dst = true ∧
    (∃ c, idle.joins flight = some c ∧ (decide (c.2.1 = some 1) && !idle.frozenFor flight.dst c.1) = true) ∧ flight.held = true ∧ flight.since + holdLimit < idle.clock := by
  refine ⟨rfl, by decide +kernel, rfl, by decide +kernel, rfl, by decide +kernel, by decide +kernel, by decide +kernel, by decide +kernel, by decide +kernel, by decide +kernel,
    some_of _ _ (by decide +kernel), by decide +kernel, some_of _ _ (by decide +kernel), rfl, by decide +kernel⟩

/-- Two messages of one class, one of a more urgent class, on an idle core. -/
def waiting : State := { idle with net := [], cores := [(cc 7, { CoreSt.reset with basket := [placeMsg 1, { placeMsg 1 with w0 := at64 0x20000000 0 ||| at64 2 48 }, placeMsg 1] })] }
theorem wit_MessageResult_start : waiting.idleTs { core := cc 7, ts := 3 } = true ∧ waiting.coreAbsent (cc 7) = false ∧ (waiting.taskLaunch (cc 7)).isNone = true ∧
    urgentMsg ((waiting.core (cc 7)).basket.filter (waiting.startable (cc 7))) = some { placeMsg 1 with w0 := at64 0x20000000 0 ||| at64 2 48 } := by decide +kernel

theorem wit_StealTokenBarrierResult :
    idle.snet.find? (fun e => decide (e.1 = 4)) = some (4, .request 1 2 1) ∧ launch1.deque 1 = (0, { bytes := List.replicate 32 0, s2 := 0, deps := [] } :: []) ∧
    idle.open launch1 (launch1.coreAt 1) = true ∧ idle.snet.find? (fun e => decide (e.1 = 5)) = some (5, .reply 1 2) ∧
    launch1.state = .running ∧ launch1.token.started = true ∧ launch1.pile = false ∧ idle.idleForToken launch1 launch1.token.at_ = true ∧ launch1.token.at_ + 1 < launch1.n ∧
    (let l := { launch1 with token := { launch1.token with at_ := 7 } }
     idle.idleForToken l 7 = true ∧ l.n ≤ 7 + 1 ∧ (l.token.stain || l.stains.contains 7) = false ∧ l.token.sum + Assoc.getD l.counts 7 0 = 0) ∧
    (let l := { launch1 with token := { launch1.token with at_ := 7 }, stains := [7] }
     idle.idleForToken l 7 = true ∧ l.n ≤ 7 + 1 ∧ (l.token.stain || l.stains.contains 7) = true) := by decide +kernel

/-- The last arrival at a group of one, in epoch 1. -/
def bop : Op := { (ex id).mkOp .bara with id := 0, n := 1, operand := 1, mark := 5 }
def grouped : Launch := { launch1 with groups := [(1, [0])] }
def barring : State := { base with launches := [grouped], ops := [bop] }
theorem wit_StealTokenBarrierResult_bara : barring.op 0 = some bop ∧ bop.kind = .bara ∧ bop.lid = some grouped.lid ∧ barring.launch grouped.lid = some grouped ∧
    (∀ d ∈ bop.deps, barring.op d = none) ∧ barring.remembered (groupOwner grouped.lid bop.n) bop.mark = none ∧ (∀ e ∈ grouped.done, e.group = bop.n → e.epoch < 1) ∧
    grouped.members bop.n ≠ [] ∧ (∀ m ∈ grouped.members bop.n, m = 0) ∧ grouped.ordinal bop.t.core = some 0 := by decide +kernel

/-- A kernel core's thread set with s6 and s7. -/
def kon (x y : Word) (f : State → State) : State := f { kern with ts := [(tk, { kern.tsGet tk with sreg := [(6, x), (7, y)] })] }
def kex (x y : Word) (f : State → State) : Exe := exeOf (kon x y f) tk kact
theorem plain_of (s : State) (a n : Nat) (h : decide (∀ i, i < n → s.inBrd (a + i) = false ∧ (a + i < scratchBase → s.noChannel (a + i) = false)) = true) : plain s a n :=
  fun i hi => of_decide_eq_true h i hi
theorem wit_kernelQuiet : kernelQuiet kern tk := by intro o h; cases h
theorem wit_KernelInstructionResult : Turn base t0 act0 ∧ t0.core.kernel = false ∧ (∀ x y f, (kex x y f).t.core.kernel = true) ∧ Turn (kon 0x7FFFF 0x40000 id) tk kact ∧
    (kex 0x7FFFF 0x40000 id).srcS 6 = .ok (0x7FFFF, kex 0x7FFFF 0x40000 id) ∧ (kex 0x7FFFF 0x40000 id).srcS 7 = .ok (0x40000, kex 0x7FFFF 0x40000 id) ∧
    (kex 0x7FFFF 0x40000 id).x.slq.length < 16 ∧ bits 0x80000 63 19 ≠ 0 ∧ bits 0x7FFFF 63 19 = 0 ∧ (0x40000 : Word).toNat % 32 = 0 ∧
    (∃ bs, (kex 0x7FFFF 0x40000 id).check 0x40000 32 rRD = .ok bs ∧
      (!thimbleImageOk (BitVec.ofNat 256 (leNat ((kon 0x7FFFF 0x40000 id).rdBlocks bs))) true && thimbleImageOk (BitVec.ofNat 256 (leNat ((kon 0x7FFFF 0x40000 id).rdBlocks bs))) false) = true) ∧
    kern.coreAbsent (cc 0x3FFF) = false ∧ ({ kern with absent := [2047] } : State).coreAbsent (cc 0x3FFF) = true ∧ bits 0x1FFFF 15 0 ≠ 0 :=
  ⟨⟨rfl, rfl⟩, rfl, fun _ _ _ => rfl, ⟨rfl, rfl⟩, rfl, rfl, by decide +kernel, by decide +kernel, by decide +kernel, by decide +kernel, ok_of _ _ (by decide +kernel),
    by decide +kernel, by decide +kernel, by decide +kernel⟩

/-- FREEZE and THAW of context 0 on bundle 0 with the block at 64 MiB, and a translation of a context to be dropped. -/
def running (s : State) : State := { s with launches := [placeLaunchRec], bundles := [] }
def frozen0 : Frozen := Frozen.bare 0 0x4000000
def stopped (s : State) : State :=
  { (s.wr64 0x4000000 1) with launches := [placeLaunchRec], bundles := [(0, { Bundle.reset with frozen := [frozen0] })] }
theorem wit_KernelInstructionResult_freeze :
    (∃ bs, (kex 0 0x4000000 running).check 0x4000000 (2 ^ 23) rWR = .ok bs ∧ true = true) ∧ ((kon 0 0x4000000 running).bundle 0).busy 0 = false ∧ bits 0 47 11 = 0 ∧
    (0x4000000 : Word).toNat % 2 ^ 21 = 0 ∧ (kon 0 0x4000000 running).bundleUsable 0 = true ∧ (kon 0 0x4000000 running).runsOn 0 0 = true ∧
    ({ kon 0 0x4000000 running with absent := [0] } : State).bundleUsable 0 = false ∧ (kon 0 0x4000000 id).runsOn 0 0 = false ∧
    (∃ f ∈ ((kon 0 0x4000000 stopped).bundle 0).frozen, f.ctx = 0) ∧ (∃ bs, (kex 0 0x4000000 stopped).check 0x4000000 (2 ^ 23) rRD = .ok bs ∧ true = true) ∧
    (∀ c ∈ (kon 0 0x4000000 stopped).runningCtxs 0, c = 0) ∧ (kon 0 0x4000000 stopped).runsOn 0 0 = false ∧ ((kon 0 0x4000000 stopped).rd64 0x4000000).getLsbD 0 = true ∧
    ((kon 0 0x4000000 id).rd64 0x4000000).getLsbD 0 = false ∧ (kon 0 0x4000000 stopped).rd64 0x4000008 = at64 0 0 ||| at64 0 16 :=
  ⟨ok_of _ _ (by decide +kernel), by decide +kernel, by decide +kernel, by decide +kernel, by decide +kernel, by decide +kernel, by decide +kernel, by decide +kernel,
    by decide +kernel, ok_of _ _ (by decide +kernel), by decide +kernel, by decide +kernel, by decide +kernel, by decide +kernel, by decide +kernel⟩
theorem wit_KernelInstructionResult_ktlb : bits 0x20000000 15 0 = 0 ∧ bits (0x10000 : Word) 15 0 = 0 ∧ bits (0xFFFFFFFF0000 : Word) 47 0 + (0x10000 : Word).toNat ≤ 2 ^ 48 := by decide

theorem wit_MarkQueryIssue : ∃ m x, (ex id).srcS 6 = .ok (m, ex id) ∧ (ex id).srcS 7 = .ok (x, ex id) ∧ (ex id).x.slq.length < 15 ∧ bits (at64 1 48) 63 48 ≠ act0.ctx.toNat ∧
    bits m 63 48 = act0.ctx.toNat ∧ (ex id).roomRecord = .ok () ∧ (exeOf piled t0 act0).inPile (low32 x) = .ok () ∧ ∃ bs, (ex id).check va 1 rRD = .ok bs ∧ true = true :=
  ⟨_, _, rfl, rfl, by decide, by decide, by decide, rfl, rfl, ok_of _ _ (by decide +kernel)⟩

/-- A vector load with two pieces to come, and one with its last. -/
def vop (k : OpKind) (l : List Nat) : Op := { (ex id).mkOp k with id := 7, q := 2, width := 64, data := List.replicate 64 0, segs := l.map (fun i => { va := va + BitVec.ofNat 64 (8 * i), bus := 0x200000 + 8 * i, len := 8, off := 8 * i }) }
def vout (o : Op) : State := { on (fun x => { x with vlq := [.wait 7 0] }) with ops := [o] }
theorem wit_LoadValue_vector : ∀ k : OpKind, k ∈ [.vld, .vgath] → ∀ l : List Nat, l ∈ [[6, 7], [7]] → (vout (vop k l)).op 7 = some (vop k l) ∧ (vop k l).held = false ∧
    ∃ g r, (vop k l).segs = g :: r ∧ (vout (vop k l)).clear (vop k l) [g] true = true ∧ (∀ w ∈ (vout (vop k l)).ops, ¬ (w.kind.isStore = true)) ∧
      (vout (vop k l)).damage g = none ∧ (vout (vop k l)).barred g.bus = false := by
  intro k hk l hl
  rcases (by simpa using hk : k = .vld ∨ k = .vgath) with rfl | rfl <;> rcases (by simpa using hl : l = [6, 7] ∨ l = [7]) with rfl | rfl <;>
    exact ⟨by decide +kernel, rfl, _, _, rfl, by decide +kernel, by decide +kernel, by decide +kernel, by decide +kernel⟩

/-- One piece of an access at `va`. -/
def piece (n : Nat) : Seg := { va := va, bus := 0x200000, len := n, off := 0 }
def opK (k : OpKind) : Op := { (ex id).mkOp k with id := 7, segs := [piece 8], width := 8, q := 1, pages := [1] }
def out (o : Op) : State := { on (fun x => { x with slq := [.wait 7 0, .wait 7 1] }) with ops := [o] }
/-- A store of the same thread set to the load's bytes, not yet taken. -/
def covered : State := { out (opK .ld) with ops := [{ opK .st with id := 6, data := List.replicate 8 1 }, opK .ld] }
theorem wit_LoadValue : (out (opK .ld)).op 7 = some (opK .ld) ∧ (opK .ld).held = false ∧ (opK .ld).segs = [piece 8] ∧ (piece 8).len ∈ [1, 2, 4, 8] ∧
    (out (opK .ld)).clear (opK .ld) [piece 8] true = true ∧ (out (opK .ld)).damage (piece 8) = none ∧
    (∀ w ∈ (out (opK .ld)).ops, ¬ (w.kind.isStore = true)) ∧ covered.clear (opK .ld) [piece 8] true = true ∧
    (∃ w ∈ covered.older 7, w.t = (opK .ld).t ∧ w.kind.isStore = true ∧ w.parked = false ∧ (∃ x ∈ w.segs, x.overlaps (piece 8) = true) ∧ (piece 8).covers (piece 8) = true) ∧
    (out (opK .pref)).op 7 = some (opK .pref) ∧ (out (opK .ktlb)).op 7 = some (opK .ktlb) ∧
    (out (opK .markq)).ownerOf (opK .markq) = some 0 ∧ (opK .markq).deps = [] ∧ (out (opK .markq)).older 7 = [] ∧ (out (opK .markq)).window? 0 (opK .markq).mark = [] ∧
    ((out (opK .markq)).tsGet t0).slq = .wait 7 0 :: .wait 7 1 :: [] ∧
    (let s : State := { out (opK .markq) with windows := [{ owner := 0, ctx := 0, core := 0, ts := 0, block := 0, marks := [(0, true, 9)] }] }
     (s.window? 0 (opK .markq).mark).find? (fun e => decide (e.1 = (opK .markq).mark.setWidth 32)) = some ((opK .markq).mark.setWidth 32, true, 9)) := by decide +kernel

theorem wit_StoreTaken : (∀ k : OpKind, k ∈ [.st, .spill, .fill] → (out (opK k)).op 7 = some (opK k) ∧ (out (opK k)).clear (opK k) (opK k).segs false = true) ∧
    OpKind.st.isStore = true ∧ (opK .st).parked = false ∧ plain (out (opK .st)) (piece 8).bus (piece 8).len ∧ plain (out (opK .spill)) (piece 8).bus (piece 8).len ∧
    (∀ x ∈ (out (opK .fill)).older 7, ¬(x.t = (opK .fill).t ∧ x.kind = .fill ∧ x.n = (opK .fill).n)) :=
  ⟨by decide +kernel, rfl, rfl, plain_of _ _ _ (by decide +kernel), plain_of _ _ _ (by decide +kernel), by decide +kernel⟩

theorem wit_AtomicValue : (out (opK .amo)).op 7 = some (opK .amo) ∧ (opK .amo).width ∈ [4, 8] ∧ (opK .amo).held = false ∧ (opK .amo).sent = false ∧
    (out (opK .amo)).remembered (memOwner (piece 8).bus) (opK .amo).mark = none ∧ (out (opK .amo)).markOld (memOwner (piece 8).bus) (opK .amo).mark = false ∧
    (out (opK .amo)).clear (opK .amo) (opK .amo).segs false = true ∧ (out (opK .amo)).damage (piece 8) = none ∧ (out (opK .amo)).freezingOn t0.core 0 = false ∧
    plain (out (opK .amo)) (piece 8).bus 8 ∧
    (let s : State := { out (opK .amo) with windows := [{ owner := 0, ctx := 0, core := 0, ts := 0, block := 0, marks := [(0, true, 9)] }] }
     s.remembered (memOwner (piece 8).bus) (opK .amo).mark = some 9) ∧ (opK .amo).deps = [] :=
  ⟨by decide +kernel, by decide, rfl, rfl, by decide +kernel, by decide +kernel, by decide +kernel, by decide +kernel, by decide +kernel, plain_of _ _ _ (by decide +kernel), by decide +kernel, rfl⟩

/-- A held load and a parked store, on their page and on one that is gone. -/
theorem wit_HeldAccessResult : (∀ o : Op, o ∈ [{ opK .ld with held := true }, { opK .st with parked := true }] → (out o).op 7 = some o ∧ (o.held = true ∨ o.parked = true) ∧ o.dead = none ∧
      (∀ x ∈ (out o).older 7, x.t = o.t → x.parked = true → ∀ p ∈ x.pages, p ∉ o.pages)) ∧
    (∃ p, (out { opK .ld with held := true }).recheckOp { opK .ld with held := true } = .ok p ∧ (!p.2) = true) ∧
    (∃ p, (out { opK .st with parked := true }).recheckOp { opK .st with parked := true } = .ok p ∧ (!p.2) = true) ∧
    ∀ k : OpKind, k ∈ [.ld, .st, .brd] → ∃ e, ({ out (opK k) with ctxs := [] } : State).recheckOp (opK k) = .error e ∧ true = true := by
  refine ⟨by decide +kernel, ok_of _ _ (by decide +kernel), ok_of _ _ (by decide +kernel), fun k h => err_of _ (fun _ => true) ?_⟩
  revert k; decide +kernel

theorem roomy_base (s : State) (h : s.launches = base.launches ∧ s.bundles = [] ∧ s.cores = base.cores) : roomy s (cc 0) 0 (some 1) := by
  obtain ⟨h1, h2, h3⟩ := h
  refine ⟨fun l hl => ?_, ?_, ?_, ?_, ?_, ?_⟩
  · cases hl; unfold State.launch; rw [h1]; decide +kernel
  · unfold State.frozenImg State.bundle; rw [h2]; rfl
  · unfold State.freezingOn State.bundle; rw [h2]; rfl
  all_goals (unfold State.core; rw [h3]; decide +kernel)

/-- A block operation from memory to the scratchpad. -/
def blk (k : OpKind) : Op := { opK k with dst := [{ va := 0, bus := scratchBus (cc 0) 0, len := 8, off := 0 }] }
theorem wit_TransferCompletes : (∀ k : OpKind, k ∈ [.brd, .bwr] → (out (blk k)).op 7 = some (blk k) ∧ (blk k).held = false ∧ (blk k).t.ts < 4 ∧
      (out (blk k)).clear (blk k) ((blk k).segs ++ (blk k).dst) false = true ∧ (out (blk k)).blockDamage (blk k) = none ∧
      (∀ g ∈ (blk k).segs, g.overlaps { va := 0, bus := scratchBus (cc 0) 0, len := 8, off := 0 } = false) ∧ ((blk k).segs.flatMap (fun g => (out (blk k)).rd g.bus g.len)).length = 8) ∧
    roomy (out (blk .brd)) t0.core 0 (some 1) ∧ plain (out (blk .bwr)) (scratchBus (cc 0) 0) 8 ∧
    (∃ p, (out (opK .mst)).recheckOp (opK .mst) = .ok p ∧ (!p.2 && decide (p.1.segs.length = 1)) = true) ∧ plain (out (opK .mst)) (piece 8).bus 8 :=
  ⟨by decide +kernel, roomy_base _ ⟨rfl, rfl, rfl⟩, plain_of _ _ _ (by decide +kernel), ok_of _ _ (by decide +kernel), plain_of _ _ _ (by decide +kernel)⟩

/-- A copy of two rows of 64 bytes, at its first byte and done. -/
def centry (n : Nat) : CopyE := { op := 7, desc := copyDesc, hdr := 0, issuer := 0, prog := n, mark := 0 }
def copying (n : Nat) : State := { out (opK .copy) with copyQs := [{ ctx := 0, level := 11, head := 3, ents := [centry n] }] }
theorem wit_TransferCompletes_copy : (∀ n : Nat, n ∈ [0, 128] → (copying n).copyHead ((copying n).copyQ 0 11) = some (centry n, opK .copy) ∧
      (copying n).copyTurnOk ((copying n).copyQ 0 11) = true) ∧ dRowLen copyDesc * dRows copyDesc ≤ (centry 128).prog ∧
    0 + 64 < dRowLen copyDesc * dRows copyDesc ∧ min 4096 (dRowLen copyDesc - 0 % dRowLen copyDesc) = 64 ∧ (copying 0).copyOverlaps (opK .copy).view copyDesc = false ∧ (copying 0).eccMem = [] ∧ (copying 0).softMem = [] := by decide +kernel
theorem wit_TransferCompletes_chunk : roomy (copying 0) t0.core 0 (some 1) ∧
    (∃ a, (copying 0).check (opK .copy).view (dSrc copyDesc) 64 rRD = .ok a ∧ (decide (a.length = 1) && a.all fun b => !b.nr && decide (b.len = 64)) = true) ∧
    (∃ b, (copying 0).check (opK .copy).view (dDst copyDesc) 64 rWR = .ok b ∧ (decide (b.length = 1) && b.all fun b => !b.nr && decide (b.len = 64)) = true) ∧
    plain (copying 0) 0x201000 64 ∧ (∀ at_, (copying 0).copyQBase 0 11 = some at_ → 0x201000 + 64 ≤ at_ ∨ at_ + 0x9000 ≤ 0x201000) :=
  ⟨roomy_base _ ⟨rfl, rfl, rfl⟩, ok_of _ _ (by decide +kernel), ok_of _ _ (by decide +kernel), plain_of _ _ _ (by decide +kernel), by intro a h; cases h; decide +kernel⟩

theorem wit_WalkWatchdogErrorResult : va.toNat < 2 ^ 48 ∧ (∃ l, base.lookup 0 va.toNat = some l ∧ true = true) ∧ (base.barred 0x200000 = false ∧ 0x200000 ≤ 0x200004 ∧ 0x200004 < 0x200000 + 8 ∧ 0x200000 + 8 ≤ scratchBase) ∧
    (let s := on fun x => { x with wbudget := 0 }
     (s.tsGet t0).act = some act0 ∧ (s.tsGet t0).wbudget = 0) ∧ ProgTurn { dev with cur := .prog 0 } placeProg :=
  ⟨by decide, some_of _ _ (by decide +kernel), by decide +kernel, by decide +kernel, rfl, rfl, rfl, rfl⟩

/-! ### The press and the Pile engines -/

/-- Core 0 of bundle 0 with rings 0 and 1 of one published slot, and a command of launch 1 at the head of its press queue. -/
def cmdOf (i : Instr) : PressCmd := { word := i, t := t0, cls := 5, lid := 1, addr := va, stride := 128, hdr := 0, segs := [piece 8, piece 8], held := false, oseq := 3, deps := [] }
def pressed (i : Instr) (b : Bundle) : State :=
  { ringed id with cores := Assoc.set base.cores (cc 0) { (ringed id).core (cc 0) with pressQ := [cmdOf i] }, bundles := [(0, b)], scratch := [0, 0x4000].flatMap fun o => (List.range 8).map fun i => (scratchBus (cc 0) (o + i), if i = 4 then 1 else 0) }
def bank (n : Half) : AccBank := { lid := n, slots := [] }
def mmaI : Instr := .mma 0 1 3 0 0 true false false 0
theorem wit_PressCommandResult : (∀ i : Instr, i ∈ [mmaI, .mzero 3, .mst 5 6 7 4 3] → let s := pressed i Bundle.reset
      (s.bundle 0).exec = none ∧ (s.bundle 0).arb < 8 ∧ (s.core (cc (8 * 0 + (s.bundle 0).arb))).pressQ = cmdOf i :: [] ∧ s.headReady 0 (cc 0) (cmdOf i) = true ∧
        (s.bundle 0).credit < pressWeight (cmdOf i).cls ∧ s.pressNext 0 = some (0, cmdOf i, 0) ∧ s.bankReady 0 (cmdOf i).lid = true) ∧
    (let s := pressed (.mzero 3) { Bundle.reset with banks := [bank 2, bank 3], saved := [bank 1], credit := 4 }
     s.swapNext 0 = some (0, cmdOf (.mzero 3), 4) ∧ s.bankReady 0 1 = false ∧ bank 1 ∈ (s.bundle 0).saved ∧ (∀ y ∈ (s.bundle 0).saved, y.lid = 1 → y = bank 1) ∧
       (s.bundle 0).banks = bank 2 :: bank 3 :: [] ∧ s.queued 0 2 = false) := by decide +kernel

theorem wit_MmaRetireResult : let s := pressed mmaI { Bundle.reset with exec := some (0, cmdOf mmaI), banks := [bank 1] }
    (s.bundle 0).exec = some (0, cmdOf mmaI) ∧ s.cmdRing (cc 0) (cmdOf mmaI) 0 = some ⟨0, 1, 0, some 1⟩ ∧ s.cmdRing (cc 0) (cmdOf mmaI) 1 = some ⟨0x4000, 1, 0, some 1⟩ ∧
    plain s (scratchBus (cc 0) 0) 4 ∧ plain s (scratchBus (cc 0) 0x4000) 4 ∧ (0 + 4 ≤ 0x4000 ∨ 0x4000 + 4 ≤ 0) :=
  ⟨rfl, by decide +kernel, by decide +kernel, plain_of _ _ _ (by decide +kernel), plain_of _ _ _ (by decide +kernel), by decide⟩

/-- Launch 1 as a Pile launch, with records 5 (gain 7, ready) and 6 (running) at the engine of bundle 0, and one thing on the way. -/
def rec5 : PileRec := { hdr := at64 0x20000000 0, index := 5, gain := 7, fpbase := va, fplen := 64, arg := 0, s2 := 0, running := false, p := 0, touched := false, deps := [] }
def rec6 : PileRec := { rec5 with index := 6, gain := 0xFFFFFFFF, running := true, p := 3, touched := true }
def plaunch : Launch := { placeLaunchRec with words := [at64 5 4 ||| at64 1 8 ||| at64 4 10, at64 0x20000000 0, 0, 0, 0, 0, 0, 0], fpa := 1, tol := 8 }
def engine : Pile := { recs := [rec5, rec6], partialSum := 7, count := 0, stain := false, bcast := (9, some 0), coming := [(4, none)], stealOut := false }
def engined (n : List (Nat × PileNet)) : State := { base with ts := [], launches := [plaunch], bundles := [(0, { Bundle.reset with piles := [(1, engine)] })], pnet := n, cur := .none }
def arrives (i : Word32) : PileNet := .spawn 1 0 { rec5 with index := i } [] 4 none
theorem wit_PileRecordResult : (∀ n : Nat, n ∈ [5, 6, 0xFFFFFFFF] → let i : Word32 := BitVec.ofNat 32 n
      let s := engined [(9, arrives i)]
      s.pnet.find? (fun e => decide (e.1 = 9)) = some (9, arrives i) ∧
      s.pnet.filter (fun e => match e.2 with | .spawn _ h _ _ g _ => decide (h = 0) && decide (g = 4) | _ => false) = [(9, arrives i)] ∧
      (s.launch 1).isSome = true ∧ s.frozenPile 0 1 = none ∧ s.pileOf 0 1 = engine) ∧
    engine.find 0xFFFFFFFF = none ∧ engine.recs.length < 8192 ∧ engine.find 5 = some rec5 ∧ engine.find 6 = some rec6 ∧
    (engined []).launch 1 = some plaunch ∧ plaunch.state = .running ∧ plaunch.pile = true ∧ plaunch.bundles = [0] ∧
    Assoc.get ((engined []).bundle 0).piles 1 = some engine ∧ engine.coming = (4, none) :: [] := by decide +kernel

theorem wit_PileRecordResult_update : (∀ n : Nat, n ∈ [5, 6, 0xFFFFFFFF] → ∀ k : OpKind, k ∈ [.gain, .gget] → let o := { opK k with addr := BitVec.ofNat 64 n, segs := [] }
      let s : State := { engined [] with ops := [o] }
      s.op 7 = some o ∧ o.lid = some plaunch.lid ∧ s.launch plaunch.lid = some plaunch ∧ s.older 7 = [] ∧ o.deps = [] ∧ s.frozenPile (plaunch.home (o.addr.setWidth 32)) plaunch.lid = none ∧
      o.sent = false ∧ s.remembered (pileOwner 0) o.mark = none ∧ s.markOld (pileOwner 0) o.mark = false ∧ s.poolOk o.ctx (pileOwner 0) o.mark = true ∧
      s.freezingOn o.t.core o.ctx = false ∧ s.pileOf (plaunch.home (o.addr.setWidth 32)) 1 = engine ∧ o.q = 1) := by decide +kernel

theorem wit_PileDispatchResult :
    (let s := engined []
     let e := { engine with bcast := (7, none) }
     s.launches = [plaunch] ∧ plaunch.pile = true ∧ s.dispatches plaunch t0.core = true ∧ s.idleTs t0 = true ∧ s.coreAbsent t0.core = false ∧ (s.core t0.core).basket = [] ∧
     engine.top = some rec5 ∧ ({ s with bundles := [(0, { Bundle.reset with piles := [(1, e)] })] } : State).pileOf 0 1 = e ∧ e.top = some rec5 ∧ e.bcast.2 = none) ∧
    (let s := engined [(9, .stealReq 1 0 1 t0 none)]
     s.pnet.find? (fun e => decide (e.1 = 9)) = some (9, .stealReq plaunch.lid 0 1 t0 none) ∧ s.launch plaunch.lid = some plaunch ∧ s.dispatches plaunch (cc (8 * 0)) = true ∧
     (s.pileOf 5 1).top = none) ∧
    (let s := engined [(9, .stealReply 1 0 t0 (some rec5) 1 none)]
     s.pnet.find? (fun e => decide (e.1 = 9)) = some (9, .stealReply plaunch.lid 0 t0 (some rec5) 1 none) ∧ s.frozenFor t0.core plaunch.ctx = false) ∧
    (let s := engined [(9, .fetch 1 t0 rec6 0)]
     s.pnet.find? (fun e => decide (e.1 = 9)) = some (9, .fetch plaunch.lid t0 rec6 0) ∧
     (freeRun (s.areaBase plaunch 0) (s.areaBase plaunch 0 + plaunch.area) rec6.fplen (s.pinned t0.core)).isSome = true ∧ s.frozenFor t0.core plaunch.ctx = false ∧
     (∃ bs, s.check { core := t0.core, ctx := plaunch.ctx, lid := some plaunch.lid } rec6.fpbase rec6.fplen rRD = .ok bs ∧ (!anyNr bs) = true) ∧
     (∃ x, s.check { core := t0.core, ctx := plaunch.ctx, lid := some plaunch.lid } 0x90000000 rec6.fplen rRD = .error x ∧ true = true)) ∧
    (let s := engined [(9, .retire 1 0 rec6 false t0 0)]
     s.pnet.find? (fun e => decide (e.1 = 9)) = some (9, .retire plaunch.lid 0 rec6 false t0 0) ∧ rec6.hdr.getLsbD 52 = false ∧ s.ops = [] ∧ s.frozenPile 0 plaunch.lid = none ∧
     s.frozenImg t0.core plaunch.ctx = none ∧ (s.pileOf 0 1).find rec6.index = some rec6 ∧ rec6.touched = true ∧ 0 < rec6.p ∧ rec5.touched = false) :=
  ⟨by decide +kernel, by decide +kernel, by decide +kernel,
   ⟨by decide +kernel, by decide +kernel, by decide +kernel, ok_of _ _ (by decide +kernel), err_of _ (fun _ => true) (by decide +kernel)⟩, by decide +kernel⟩

/-! ### Freeze and thaw, marks, steps, pages -/

/-- Core 7 of bundle 0, with no thread set busy, and core 0 at DONE, while context 0 is being frozen there under the FREEZE of a kernel core. -/
def fop (k : OpKind) : Op := { opK k with t := tk, segs := [] }
def stopping (fr : List Frozen) (o : List Op) : State :=
  { base with ts := [(t0, { base.tsGet t0 with stall := some .done }), (tk, { ThreadSet.reset with slq := [.wait 7 0] })], ops := o,
              bundles := [(0, { Bundle.reset with freezing := some (0, 0x4000000, 7), frozen := fr })] }
def img8 : Frozen := { frozen0 with cores := (List.range 8).map fun i => (cc i, CoreSt.reset) }
theorem wit_FreezeThawResult :
    (∀ core, core ∈ [0, 7] → core / 8 = 0 ∧ core < 16384 ∧ ((stopping [] [fop .freeze]).bundle 0).freezing = some (0, 0x4000000, 7) ∧ (stopping [] [fop .freeze]).frozenImg (cc core) 0 = none ∧
      (∀ t ∈ threadsOf (cc core), (stopping [] [fop .freeze]).freezePoint t ≠ none) ∧
      (∀ o ∈ (stopping [] [fop .freeze]).ops, o.t.core = cc core → ¬((o.kind.isStore = true ∧ o.parked = false) ∨ o.kind = .spill ∨ o.kind = .fill)) ∧
      ((stopping [] []).bundle 0).frozen = []) ∧
    (let s := stopping [img8] [fop .freeze]
     (s.bundle 0).frozen = img8 :: [] ∧ img8.ctx = 0 ∧ img8.blk = 0x4000000 ∧ (s.bundle 0).banks = [] ∧ (∀ p ∈ s.progs, p.nctx ≠ 0) ∧ (s.bundle 0).exec = none ∧ (∀ i, i < 8 → (s.frozenImg (cc (8 * 0 + i)) 0).isSome = true) ∧
       s.ops = [fop .freeze] ∧ (fop .freeze).id = 7 ∧ (fop .freeze).kind = .freeze ∧ (fop .freeze).q = 1 ∧ s.pnet = [] ∧ (s.tsGet tk).slq = .wait 7 0 :: []) ∧
    (∀ fr o, inRam (stopping fr o) 0x4000000 0x800000) := by
  refine ⟨by decide +kernel, by decide +kernel, fun fr o => ⟨by decide, fun i hi => ?_⟩⟩
  show (decide (Config.channels * Config.channelBytes ≤ 0x4000000 + i) || false) = false
  rw [Bool.or_false, decide_eq_false_iff_not]
  have : Config.channels * Config.channelBytes = 824633720832 := by decide
  omega

/-- An image whose first core has an AMO outstanding. -/
theorem wit_FreezeThawResult_record : let f := { img8 with ops := [opK .amo] }
    (f.record t0)[0]? = some (opK .amo) ∧ (opK .amo).classCode = 2 ∧ base.scratchSize (cc 0) ≤ 0x38000 ∧ (Assoc.getD f.cores (cc 0) CoreSt.reset).basket.length ≤ 64 := by decide +kernel

/-- The save block of a core whose thread set 0 stood at DONE with a GGET outstanding, its activation a message's. -/
def thawing : State :=
  let a := tsArea 0x4000000 0 0
  let m : State := (((base.wr64 0x4000000 3).wr64 a (1 + 4)).wr (a + 0x2000) [13]).wr (a + 0x6000) (act0.bytes)
  { stopping [] [fop .thaw] with mem := m.mem, nextId := 8, bundles := [(0, { Bundle.reset with thawing := some (0, 0x4000000, 7), frozen := [img8] })] }
theorem wit_FreezeThawResult_thaw : (thawing.bundle 0).thawing = some (0, 0x4000000, 7) ∧ (thawing.bundle 0).frozen = [img8] ∧ img8.ctx = 0 ∧ thawing.op 7 = some (fop .thaw) ∧
    (fop .thaw).q = 1 ∧ (fop .thaw).t.core.kernel = true ∧ 7 < thawing.nextId ∧ (∀ p ∈ img8.ops, p.id ≠ 7) ∧
    (∀ l ∈ thawing.launches, l.ctx = 0 → l.state = .running → 0 ∈ l.bundles → l.pile = false) ∧
    (placeLaunchRec ∈ thawing.launches ∧ placeLaunchRec.ctx = 0 ∧ placeLaunchRec.state = .running ∧ 0 ∈ placeLaunchRec.bundles ∧ ∀ x ∈ thawing.launches, x.lid = placeLaunchRec.lid → x = placeLaunchRec) ∧
    (thawing.rd64 0x4000000).getLsbD 1 = true ∧ thawing.inBrd (scratchBus (cc 0) 0) = false := by decide +kernel
theorem wit_FreezeThawResult_entries : MemInv thawing ∧
    (∀ i, i < 8 → ∀ t, t < 4 → (if i = 0 ∧ t = 0 then leNat (thawing.rd (tsArea 0x4000000 i t) 2) / 4 % 128 = 1 ∧
        kindOf (leNat (thawing.rd (tsArea 0x4000000 i t + 0x2000) 1)) = some .gget ∧ lidBack (leNat (thawing.rd (tsArea 0x4000000 i t + 0x7000 + 56) 4)) = none
      else leNat (thawing.rd (tsArea 0x4000000 i t) 2) / 4 % 128 = 0)) ∧
    (thawing.rdByte (tsArea 0x4000000 0 0)).toNat % 4 = 1 ∧ (thawing.rdByte (tsArea 0x4000000 0 1)).toNat % 4 = 0 ∧
    ∃ v, activationBack 0 (thawing.rd (tsArea 0x4000000 0 0 + 0x6000) 256) = some v ∧ (decide (v.origin = .message) && decide (v.lid = some placeLaunchRec.lid)) = true :=
  ⟨by unfold MemInv; decide +kernel, by decide +kernel, by decide +kernel, by decide +kernel, some_of _ _ (by decide +kernel)⟩

theorem wit_FreezeThawResult_replay : let s : State := { out { opK .amo with mark := 1, replay := true } with windows := [{ owner := 0, ctx := 0, core := 0, ts := 0, block := 0, marks := [(300, true, 9), (2, true, 9)] }] }
    s.op 7 = some { opK .amo with mark := 1, replay := true } ∧ s.ownerOf { opK .amo with mark := 1, replay := true } = some 0 ∧ (opK .amo).classCode = 2 ∧ (opK .amo).orphan = false ∧ (opK .amo).sent = false ∧ (opK .amo).held = false ∧
    (opK .amo).deps = [] ∧ s.remembered 0 1 = none ∧ s.markOld 0 1 = true := by decide +kernel

theorem wit_WaitEndResult :
    (let p := { p0 with state := .awaiting, await := .mbox (.c 3) 2 0 1000, mbox := [entry] }
     let s := { lv p with clock := 1000 }
     s.prog p.slot = some p ∧ p.state = .awaiting ∧ p.await = .mbox (.c 3) 2 0 1000 ∧ (1000 : Nat) ≠ 0 ∧ 0 + 1000 ≤ s.clock ∧ ∀ e ∈ p.mbox, e.cls ≠ (LReg.c 3).cls) ∧
    (let p := { p0 with state := .awaiting, await := .launch 3 none (some 2) (some 5) }
     (lv p).prog p.slot = some p ∧ p.await = .launch 3 none (some 2) (some 5)) := by decide +kernel

/-- Positions 1 (written before), 2 (due) of context 5; the image has one line a position, and another has two. -/
def lined (n : Nat) : State := { lv p0 with images := [{ img0 with kvl := n }] }
theorem wit_WaitEndResult_mark : (5 : Nat) < 2 ^ 18 ∧ (2 : Nat) < 2 ^ 20 ∧ ((lined 1).page 0).mgen < 2 ^ 16 ∧ ((lined 1).lc 5).list[2 / 16]? = some 0 ∧ ((lined 1).page 0).used = true ∧
    ((lined 1).page 0).res = 0 ∧ 1 % 16 < ((lined 1).page 0).fill ∧ (0xFFFF : Nat) < 2 ^ 16 ∧ (0xFFFF : Nat) ≠ ((lined 1).page 0).mgen ∧ 2 % 16 = ((lined 1).page 0).fill ∧
    (List.replicate 64 (0 : Byte)).length = 64 ∧ 1 < (lined 2).kvl ((lined 2).page 0).img ∧
    (((lined 2).page 0).lines ||| 2 ^ 1) % 2 ^ (lined 2).kvl ((lined 2).page 0).img ≠ 2 ^ (lined 2).kvl ((lined 2).page 0).img - 1 ∧
    (((lined 1).page 0).lines ||| 2 ^ 0) % 2 ^ (lined 1).kvl ((lined 1).page 0).img = 2 ^ (lined 1).kvl ((lined 1).page 0).img - 1 ∧
    (lined 1).kvl ((lined 1).page 0).img ≤ 1 := by decide +kernel

/-- A program with a GENU in progress on context 5, at level 2 (strict) or 9; a step launch of it, and one of an APPEND on the empty context 6. -/
def genu (l : Nat) : Prog := { p0 with level := l, long := some (.genu 3 1 0 0 64), p0 := progress 2 0 0 3 0 0 }
def member : Member := { slot := 0, cid := 6, n := 1, pos := 0, tokn := 0, toka := 0, kva := 0, loga := 0, kin := [] }
def sl (x : Member) (w : Option Word) : StepLaunch := { id := 9, img := 3, level := 9, members := [x], words := [], lo := 0, hi := 0, left := [], taken := true, status := w }
theorem wit_StepLaunchResult :
    (let s := lv (genu 2)
     s.strictFirst = some (genu 2) ∧ s.prog (genu 2).slot = some (genu 2) ∧ (genu 2).stepCid = some 5 ∧ (s.lc 5).detach = none ∧ s.image (s.lc 5).img = some img0 ∧ (genu 2).resume = false ∧
       (genu 2).appending = false ∧ s.missing (genu 2).slot 5 1 1 = [] ∧ (s.need 5 1 1).detach = false ∧ areaHead + memberBytes img0 1 true ≤ (s.areaFree img0).2) ∧
    (let s := { lv (genu 9) with mangles := [{ img := 3, start := 3, defs := [], window := true, opened := 0, place := [] }], window := 1, clock := 1000 }
     s.image 3 = some img0 ∧ (s.mangle 3).window = true ∧ s.strictFirst = none ∧ (s.steps.filter (fun x => decide (x.img = 3) && decide (3 ≤ x.level))).length < 8 ∧
       (s.mangle 3).opened + 1000 * s.window ≤ s.clock) ∧
    (let l := sl { member with cid := 5 } (some 4)
     let s := { lv { genu 9 with state := .batched } with steps := [l] }
     s.steps.find? (fun x => decide (x.id = 9)) = some l ∧ s.image l.img = some img0 ∧ bits 4 15 0 ≠ 0 ∧ s.prog 0 = some { genu 9 with state := .batched } ∧ (genu 9).kreq = false ∧
       (s.lc 5).len < Config.maxLength ∧ ∀ i ∈ (s.lc 5).list, s.lostPage i = false) ∧
    (let l := sl member (some 0)
     let p := { p0 with state := .batched, long := some (.append 2 1), p0 := progress 1 0 0 0 0 0 }
     let s := { lv p with steps := [l] }
     s.steps.find? (fun x => decide (x.id = 9)) = some l ∧ bits 0 15 0 = 0 ∧ member.kin = [] ∧ member.n = 1 ∧ s.prog member.slot = some p ∧ p.rest = [7] ∧ bits (p.gc 2) 17 0 = member.cid ∧
       (s.lc member.cid).len = 0 ∧ p.k < 4096) := by decide +kernel

/-- The page of context 5 in a state of its own, with frames, host slots and blocks as given. -/
def paged (e : PageE) (fr : List Nat) (h : Nat) (p : List Prog) : State :=
  { lv p0 with progs := p, pages := [(0, e)], freeFrames := fr, hostSlots := h, hostRegions := [(2 ^ 32, 65536 * 2)], ptBase := 0x3000000 }
theorem wit_PageMoveResult :
    (let p := { p0 with state := .parked, park := [.frames 5 1] }
     let s := paged pg [0x901] 0 [p]
     s.nextFrame = some (p.slot, 1) ∧ s.freeRun 0x901 1 = true) ∧
    (let s := paged pg [] 2 []
     s.frameFree (s.pageUnits pg.img) = false ∧ s.foldable 0 = true ∧ s.oldest s.foldable 0 = true ∧ (∀ k, k < 1 → 1 + k ∉ s.usedHost) ∧ 1 + 1 ≤ s.hostSlots) ∧
    (let s := paged { pg with res := 1 } [] 0 []
     s.hostSlots < s.usedHost.length + s.pageUnits pg.img ∧ s.shelvable 0 = true ∧ s.oldest s.shelvable 0 = true ∧ 3 ∉ s.usedBlocks ∧ 3 < 2 ^ 40) ∧
    (∀ r, r ∈ [1, 2] → let s : State := { paged { pg with res := r } [0x901] 0 [genu 9] with shelf := [(0x900, [])] }
     s.nextPage = some 0 ∧ s.freeRun 0x901 1 = true) ∧
    (∀ m, m ∈ [0, 1, 2, 3] → let s := paged { pg with res := 3, move := m, target := 1, retried := true } [] 2 []
     (s.page 0).used = true ∧ (s.page 0).res = 3 ∧ 0 < (s.page 0).refc ∧ (s.page 0).move = m ∧ s.pageUnits (s.page 0).img = 1 ∧ hostSlotAddr s.hostRegions 1 = some (2 ^ 32 + 65536) ∧
       (s.page 0).retried = true ∧ s.progs = [] ∧ (1 + 1) * 65536 ≤ s.ptBase) ∧
    (let s := paged { pg with refc := 0 } [] 0 []
     (s.page 0).refc = 0 ∧ (s.page 0).hold = 0 ∧ (s.page 0).infl = 0 ∧ (s.page 0).res = 0 ∧ s.noChannel ((s.page 0).loc * 65536) = false) := by decide +kernel
theorem wit_PageMoveResult_detach : let d : Detach := { pti := 0, word := 0, f := 2, frame := 0x901, copied := false, newPti := none }
    let s := { paged { pg with refc := 2 } [] 0 [] with lctx := [(5, { cx with detach := some d })] }
    (s.lc 5).detach = some d ∧ d.word < (s.lc 5).list.length ∧ (s.lc 5).pin = false := by decide +kernel
theorem allocPti_two (s : State) (h0 : s.ptSize = 8) (h : s.pages.length = 1) (hp : ∀ k, k ≠ 0 → ((s.page k).used || decide ((s.page k).infl ≠ 0)) = false) : s.allocPti.isSome = true := by
  unfold State.allocPti
  rw [h0, if_neg (by decide), h]
  simp only [firstFree]
  split
  · split
    · rename_i h1 h2
      have a1 : (Config.freeWord s.fresh).toNat % 8 = 0 := Decidable.byContradiction fun e => by rw [hp _ e] at h1; cases h1
      have a2 : ((Config.freeWord s.fresh).toNat + 1) % 8 = 0 := Decidable.byContradiction fun e => by rw [hp _ e] at h2; cases h2
      omega
    · rfl
  · rfl
theorem wit_PageMoveResult_room (e : PageE) : (paged e [] 0 []).allocPti.isSome = true := allocPti_two _ rfl rfl fun k h => by
  have : (paged e [] 0 []).page k = PageE.none := by
    show Assoc.getD [(0, e)] k PageE.none = PageE.none
    simp [Assoc.getD, Assoc.get, h]
  rw [this]; rfl

/-! ### Attachments, failing parts, boot -/

/-- Rule 127 of port 0 as its fields; the frame; the state of launch 1 on bundle 0 with the rule. -/
def ruleB (mail : Bool) (w2 ctx : Nat) : BitVec 512 :=
  BitVec.ofNat 512 (1 + (if mail then 2 else 0) + w2 * 2 ^ 128 + ctx * 2 ^ 206 + scratchBus (cc 0) 0x1000 * 2 ^ 256 + 2 * 2 ^ 320 + 160 * 2 ^ 328)
def frame : List Byte := List.replicate 60 7
def ruled (x : Rule) : State := { base with ports := [(0, { rules := [(127, x)], seq := 5 })], progs := [p0], net := [{ flight with id := 4 }] }
def rule (b : BitVec 512) : Rule := { bits := b, held := [], sent := none }
theorem wit_AttachmentResult : 0 < Config.ports ∧ (∀ q, q < 128 → ruleHits ((ruled (rule 0)).rule 0 q).bits frame = false) ∧
    (∀ b : Bool, let s := ruled (rule (ruleB b 0 0))
      127 < 128 ∧ ruleHits (s.rule 0 127).bits frame = true ∧ (∀ q, q < 127 → ruleHits (s.rule 0 q).bits frame = false) ∧ (s.rule 0 127).held = [] ∧
        ((s.rule 0 127).bits.getLsbD 1 = b)) ∧
    (let s := ruled (rule (ruleB false 0x20000000 0))
     let b := (s.rule 0 127).bits
     (∃ l, s.depositTarget (cc (ruleF b 192 14)) (BitVec.ofNat 16 (ruleF b 206 16)) = some l ∧ (!s.depositWaits (s.rule 0 127) (cc (ruleF b 192 14)) l) = true) ∧
     scratchBus (cc 0) 0 ≤ ruleF b 256 64 + 64 * ruleF b 328 8 * (5 % ruleF b 320 8) ∧
     ruleF b 256 64 + 64 * ruleF b 328 8 * (5 % ruleF b 320 8) + 64 * ruleF b 328 8 ≤ scratchBus (cc 0) (s.scratchSize (cc 0)) ∧ s.ops = []) ∧
    (let b := ruleB false 0x20000000 9
     (ruled (rule b)).depositTarget (cc (ruleF b 192 14)) (BitVec.ofNat 16 (ruleF b 206 16)) = none) ∧
    (let b := ruleB false 0x20000000 0
     let s := ruled { rule b with sent := some 4 }
     (∃ l, s.depositTarget (cc (ruleF b 192 14)) (BitVec.ofNat 16 (ruleF b 206 16)) = some l ∧ (s.depositWaits (s.rule 0 127) (cc (ruleF b 192 14)) l) = true) ∧
     (s.port 0).used + frame.length ≤ 2 ^ 22) ∧
    (let b := ruleB true 0 0
     (∃ q, (ruled (rule b)).mailbox (ruleF b 128 16) = some q ∧ (decide (q.mbox.length < 64) && decide (q.await = .none)) = true)) ∧
    (let b := ruleB false 0x20000000 0
     let x := { rule b with held := [(4, frame, { sec := 0, ns := 0, seq := 0 }, b)] }
     ((ruled x).port 0).rules = [(127, x)] ∧ b.getLsbD 1 = false ∧
     (∃ l, (ruled x).depositTarget (cc (ruleF b 192 14)) (BitVec.ofNat 16 (ruleF b 206 16)) = some l ∧ (!(ruled x).depositWaits x (cc (ruleF b 192 14)) l) = true)) :=
  ⟨by decide +kernel, by decide +kernel, by decide +kernel, ⟨some_of _ _ (by decide +kernel), by decide +kernel⟩, by decide +kernel, ⟨some_of _ _ (by decide +kernel), by decide +kernel⟩,
   some_of _ _ (by decide +kernel), by decide +kernel, by decide +kernel, some_of _ _ (by decide +kernel)⟩

/-- A lease of blocks 16 to 31 of namespace 1, with and without writes. -/
def lease (wok : Nat) : Lease := { bits := BitVec.ofNat 192 (1 * 2 ^ 32 + wok * 2 ^ 36 + 16 * 2 ^ 64 + 16 * 2 ^ 128), refused := [], forwarded := [] }
theorem wit_AttachmentResult_nvme : Assoc.get ({ base with leases := [(0, lease 1)] } : State).leases 0 = some (lease 1) ∧ (lease 0).bits.getLsbD 36 = false ∧ (lease 1).bits.getLsbD 36 = true ∧
    ((lease 1).bits.extractLsb' 32 4).toNat = 1 ∧ ((lease 1).bits.extractLsb' 64 64).toNat = 16 ∧ ((lease 1).bits.extractLsb' 128 64).toNat = 16 ∧ (15 : Nat) < 16 ∧ 16 + 16 ≤ 31 + 1 ∧ 31 + 0 < 16 + 16 := by decide +kernel

theorem wit_FailingPartResult : 0 < Config.links ∧ 0 < Config.l2Slices ∧ 0 ∉ base.absentL2 ∧ 0 < Config.copyEngines ∧ 0 ∉ base.absentCE ∧ 0 < Config.kernelCores ∧ 0 ∉ base.absentK ∧ base.copyQs = [] ∧
    2047 < Config.bundles ∧ 2047 ∉ base.absent ∧ placeLaunchRec ∈ base.launches ∧ placeLaunchRec.state = .running ∧ 0 ∈ placeLaunchRec.bundles ∧ placeLaunchRec.repl = false ∧
    31 < 32 ∧ 31 ∉ base.absentIsl ∧ 0 / 64 = 0 ∧ 0 ∉ base.absent ∧ 767 < Config.channels ∧ 0 ∉ base.absentCh := by decide +kernel
theorem wit_FailingPartResult_channel : let l := { placeLaunchRec with words := [at64 5 4 ||| at64 4 10, va, 0, 0, 0, 0, va, 0] }
    ∃ bs, ({ base with launches := [l] } : State).granted l.ctx l.crec 128 rWR false = .ok bs ∧ (bs.any fun b => inChannel 0 b.bus b.len) = true := ok_of _ _ (by decide +kernel)

/-- Every role on a seam bundle of its own, one seam bundle a die. -/
def boot0 : BootInput :=
  { fail := 0, hostX1 := false, absentBundles := [7], absentChannels := [], absentKernel := [], absentL2 := [3], absentCopy := [4], absentIslands := [35], lanes := [(3, 5)],
    cfgDigest := [1], seamDigest := [2], osDigest := [3], seam := (List.range 8).map (256 * ·), roles := (List.range 5).map fun i => (256 * i, i), frames := [], ptBase := 0, ptSize := 0,
    ctxs := [], firewall := [], routes := [(3, 1)], device := 2, listBase := 0, limits := [(0, 900, 1800)], hostRegions := [], regions := [] }
theorem wit_BootPeerReportResult : boot0.fail = 0 ∧ (∀ r, r < 5 → ∃ x ∈ boot0.roles, x.2 = r ∧ x.1 ∈ boot0.seam) ∧ (∀ x ∈ boot0.roles, ∀ y ∈ boot0.roles, x.1 = y.1 → x.2 = y.2) ∧
    (∀ d, d < Config.dies → ∃ n, n < 5 ∧ 1 ≤ n ∧ n ≤ 4 ∧ (boot0.seam.eraseDups.filter (fun b => decide (b / Config.bundlesPerDie = d))).length = n) ∧
    (∀ n, n ∈ [1, 4] → 0 < ({ boot0 with fail := n } : BootInput).fail ∧ ({ boot0 with fail := n } : BootInput).fail ≤ 4) ∧
    ¬(∀ r, r < 5 → ∃ x ∈ ({ boot0 with seam := [] } : BootInput).roles, x.2 = r ∧ x.1 ∈ ({ boot0 with seam := [] } : BootInput).seam) ∧
    ¬(∀ x ∈ ({ boot0 with roles := (0, 1) :: boot0.roles } : BootInput).roles, ∀ y ∈ ({ boot0 with roles := (0, 1) :: boot0.roles } : BootInput).roles, x.1 = y.1 → x.2 = y.2) ∧
    base.peerHeld = [] ∧ base.lanesOf 0 ≠ 0 ∧ physOk 0xBFFFFFFFF8 8 = true ∧ (0xBFFFFFFFF8 : Nat) % 8 = 0 ∧ msgKind 0 ≤ 1 ∧
    ({ base with lanes := [(0, 0)] } : State).lanesOf 0 = 0 ∧ Assoc.get ({ base with lanes := [(0, 0)] } : State).routes 0 = none := by decide +kernel
theorem wit_BootPeerReportResult_ram : inRam base 0xBFFFFFFFF8 8 := inRam_of _ _ _ (by decide +kernel)

/-! ### The whole machine -/

/-- A placed word that is an instruction, and one that is none. -/
def fetched (w : Nat) : State := State.reset.withFetchWord 32 w
theorem wit_StepRunsDecoded : (∀ w, w ∈ [0x04C52000, 0xFFFFFFFF] → (fetched w).agenda = [] ∧ (fetched w).devstat = 1 ∧ (fetched w).fresh % 8 ≠ 3 ∧ (fetched w).fresh % 8 ≠ 7 ∧
      (fetched w).threadOrder = t0 :: [] ∧ ((fetched w).tsGet t0).act = some act0 ∧ act0.fetchTrap = none ∧ ((fetched w).tsGet t0).pend = none ∧ ((fetched w).tsGet t0).wbudget ≠ 0 ∧
      ((fetched w).tsGet t0).stall = none) ∧ decodeNorson 0x04C52000#32 0 = .ok (.add 6 5 4 false) :=
  ⟨by decide +kernel, ok_eq (by decide +kernel)⟩
theorem wit_StepRunsDecoded_words :
    (match ({ fetched 0x04C52000 with cur := .ts t0 } : State).fetchWords { core := t0.core, ctx := act0.ctx, lid := act0.lid } ((fetched 0x04C52000).tsGet t0).pc with
      | .words w _ => decide (w = 0x04C52000#32) | _ => false) = true ∧
    (match ({ fetched 0xFFFFFFFF with cur := .ts t0 } : State).fetchWords { core := t0.core, ctx := act0.ctx, lid := act0.lid } ((fetched 0xFFFFFFFF).tsGet t0).pc with
      | .words w w2 => (match decodeNorson w w2 with | .error _ => true | .ok _ => false) | _ => false) = true := by decide +kernel

def turn (w : Nat) : State := { State.reset.withFetchWord 64 w with fresh := 3 }
theorem wit_StepRunsDecoded_program : (∀ w, w ∈ [0x01080000FFFFFFFF, 0x0108000100000000] → (turn w).agenda = [] ∧ (turn w).devstat = 1 ∧ (turn w).fresh % 8 = 3 ∧
      placeProg.kreq = false ∧ placeProg.long = none ∧ placeProg.state = .ready ∧ placeProg.pc < placeProg.codeLen) ∧
    ((turn 0x01080000FFFFFFFF).progOrder = 0 :: [] ∧ (turn 0x01080000FFFFFFFF).prog 0 = some placeProg) ∧
    (∃ d, ({ turn 0x01080000FFFFFFFF with cur := .prog 0 } : State).imageRead placeProg (8 * 0) 8 = .ok d ∧
      (match decodeLivik (w64 d) with | .ok i => decide (i = .aset 2 0xFFFFFFFF) | .error _ => false) = true) ∧
    (∃ u, exec (.aset 2 0xFFFFFFFF) { turn 0x01080000FFFFFFFF with cur := .prog 0 } = .next u ∧ u ≠ { turn 0x01080000FFFFFFFF with cur := .prog 0 }) :=
  ⟨by decide +kernel, by decide +kernel, ok_of _ _ (by decide +kernel), _, rfl, fun h => absurd (congrArg (fun s : State => s.progs.map Prog.pc) h) (by decide +kernel)⟩
/-- The same program with a word that is no instruction. -/
def turnBad : State := { (turn 0x01080000FFFFFFFF).wr64 placePhys 0x0000000000000001 with cur := .prog 0 }
theorem wit_StepRunsDecoded_illegal : turnBad.prog 0 = some placeProg ∧
    (∃ d, turnBad.imageRead placeProg (8 * 0) 8 = .ok d ∧ (match decodeLivik (w64 d) with | .ok _ => false | .error _ => true) = true) ∧
    (∃ u, exec (.livikIllopWord 1) turnBad = .next u ∧ u ≠ turnBad) :=
  ⟨by decide +kernel, ok_of _ _ (by decide +kernel), _, rfl, fun h => absurd (congrArg (fun s : State => s.progs.map Prog.state) h) (by decide +kernel)⟩
theorem wit_StepRunsDecoded_agenda : (let s : State := { fetched 0 with agenda := [.linkLaneFault 0] }
     s.agenda = .linkLaneFault 0 :: [] ∧ s.mayMove (.linkLaneFault 0) = true) ∧ ({ fetched 0 with agenda := [.nop] } : State).mayMove .nop = false := by decide +kernel

theorem wit_DecodeUndoesEncode : (Instr.add 29 0 0 true).wf = true ∧ encodeNorson (.add 29 0 0 true) = some [0x07A00400#32] ∧ (Instr.addK 6 5 false (.lit 1)).wf = true ∧
    (∃ l, encodeNorson (.addK 6 5 false (.lit 1)) = some l ∧ decide (l.length = 2) = true) ∧ (Instr.aset 15 0).wf = true ∧ (∃ w, encodeLivik (.aset 15 0) = some w ∧ decide (w = 0x013C000000000000#64) = true) :=
  ⟨by decide +kernel, by decide +kernel, by decide +kernel, some_of _ _ (by decide +kernel), by decide +kernel, some_of _ _ (by decide +kernel)⟩

theorem wit_StepKeepsMemories : MemInv (fetched 0x04C52000) ∧ (match step (fetched 0x04C52000) with | .next _ => true | _ => false) = true :=
  ⟨⟨by decide +kernel, by decide +kernel, by decide +kernel⟩, by decide +kernel⟩
theorem wit_HaltedDeviceStops : ∀ n, n ∈ [2, 3] → ({ State.reset with devstat := n } : State).agenda = [] ∧ ({ State.reset with devstat := n } : State).devstat = n := by decide +kernel
theorem wit_LittleEndianWords : plain base 0 8 ∧ plain base (824633720832 - 8) 8 ∧ plain base (scratchBus (cc 0) 0) 8 :=
  ⟨plain_of _ _ _ (by decide +kernel), plain_of _ _ _ (by decide +kernel), plain_of _ _ _ (by decide +kernel)⟩

/-! ### Forks, trims, posts, repeated marks -/

theorem firstFree_lt {m : Nat} {bad : Nat → Bool} (hm : 0 < m) : ∀ {n i x : Nat}, firstFree m bad n i = some x → x < m
  | 0, _, _, h => by simp [firstFree] at h
  | n + 1, i, x, h => by
    rw [firstFree] at h
    split at h
    · exact firstFree_lt hm h
    · cases h; exact Nat.mod_lt _ hm
theorem bits_handle (g n : Nat) (hg : g < 2 ^ 18) (hn : n < 2 ^ 16) : bits (handle g n) 17 0 = g := by
  have h : handle g n = BitVec.ofNat 64 (g + n * 2 ^ 32 + 2 ^ 63) := by
    apply BitVec.eq_of_toNat_eq
    simp only [handle, at64, BitVec.toNat_or, BitVec.toNat_ofNat, Nat.pow_zero, Nat.mul_one]
    rw [Nat.mod_eq_of_lt (show g < 2 ^ 64 by omega), Nat.mod_eq_of_lt (show n * 2 ^ 32 < 2 ^ 64 by omega), Nat.mod_eq_of_lt (show 1 * 2 ^ 63 < 2 ^ 64 by omega),
      Nat.mod_eq_of_lt (show g + n * 2 ^ 32 + 2 ^ 63 < 2 ^ 64 by omega)]
    have a : g ||| n * 2 ^ 32 = n * 2 ^ 32 + g := by
      rw [Nat.or_comm, Nat.mul_comm]; exact (Nat.two_pow_add_eq_or_of_lt (by omega) n).symm
    rw [a, Nat.or_comm, Nat.mul_comm 1, ← Nat.two_pow_add_eq_or_of_lt (show n * 2 ^ 32 + g < 2 ^ 63 by omega) 1]; omega
  rw [bits, h, BitVec.toNat_ofNat]; omega

theorem setLc_frame (s : State) (c : Nat) (x : LCtx) : (s.setLc c x).lc c = x ∧ (s.setLc c x).pages = s.pages ∧ (s.setLc c x).reserved = s.reserved ∧ (s.setLc c x).ptSize = s.ptSize := by
  unfold State.setLc
  split
  · exact ⟨Assoc_getD_set_self .., rfl, rfl, rfl⟩
  · simp [State.lc, Assoc_getD_set_self]
theorem setLc_lctx (s : State) (c : Nat) (x : LCtx) : (s.setLc c x).lctx = Assoc.set s.lctx c x := by
  unfold State.setLc
  split
  · rfl
  · simp
theorem onPage_frame (s : State) (i : Nat) (f : PageE → PageE) : (s.onPage i f).lctx = s.lctx ∧ (s.onPage i f).pages = Assoc.set s.pages i (f (s.page i)) ∧
    (s.onPage i f).reserved = s.reserved ∧ (s.onPage i f).ptSize = s.ptSize := by simp [State.onPage, State.setPage]

/-- A fork of context 5 is there, and its first step lacks nothing. -/
theorem fork_ready (s : State) (slot : Nat) (hf : s.freeCid ≠ none) (hg : ∀ k, (s.lc k).gen < 2 ^ 16) (hl : (s.lc 5).len = 3 ∧ (s.lc 5).list = [0]) (hp : s.pages = [(0, pg)]) : ∃ t h, s.ctxFork 5 slot = some (t, h) ∧ t.missing slot (bits h 17 0) 1 Config.maxContexts = [] := by
  cases h : s.freeCid with
  | none => exact absurd h hf
  | some g =>
    have hlt : g < 2 ^ 18 := by
      unfold State.freeCid at h
      split at h
      · cases h
      · exact firstFree_lt (by decide) h
    unfold State.ctxFork
    rw [h]
    refine ⟨_, _, rfl, ?_⟩
    rw [bits_handle g _ hlt (hg g)]
    generalize hu : State.setLc _ g _ = u
    obtain ⟨f1, f2, f3, f4⟩ := setLc_frame { s with fresh := s.fresh + 1 } g _
    rw [hu] at f1 f2 f3 f4
    obtain ⟨e1, e2, e3, e4⟩ := onPage_frame u 0 (fun e => { e with refc := e.refc + 1 })
    rw [hl.2]
    rw [List.foldl_cons, List.foldl_nil]
    generalize State.onPage u 0 _ = v at e1 e2 e3 e4 ⊢
    have c : v.lc g = u.lc g := by unfold State.lc; rw [e1]
    have p0 : u.page 0 = pg := by unfold State.page; rw [f2]; show Assoc.getD s.pages 0 PageE.none = pg; rw [hp]; rfl
    have q : v.page 0 = { pg with refc := 2 } := by unfold State.page; rw [e2, Assoc_getD_set_self, p0]; rfl
    have n : v.need g 1 Config.maxContexts = { absent := [], frames := 0, entries := 0, detach := false } := by
      unfold State.need
      rw [c, f1, hl.1, hl.2]
      simp only [writes, List.getElem?_cons_zero, Option.getD_some, q, List.filter, show (3 - 1) / 16 = 0 from rfl]
      rfl
    unfold State.missing
    simp only [Nat.min_self, n, if_false, List.isEmpty_nil, if_true, Nat.not_lt_zero, List.append_nil]

theorem free_two (s : State) (x y : LCtx) (h : s.lctx = [(5, x), (6, y)]) : s.freeCid ≠ none := by
  unfold State.freeCid
  rw [if_neg (by unfold State.liveCtxs; rw [h]; have := List.length_filter_le (fun c : Nat × LCtx => c.2.live) [(5, x), (6, y)]; simp only [Config.maxContexts]; simp at this; omega), h]
  refine firstFree_two _ _ _ 5 6 (by decide) fun k h1 h2 => ?_
  have : s.lc k = LCtx.empty := by unfold State.lc; rw [h]; simp [Assoc.getD, Assoc.get, h1, h2]
  rw [this]; rfl
theorem gen_two (s : State) (x y : LCtx) (h : s.lctx = [(5, x), (6, y)]) (hx : x.gen = 1) (hy : y.gen = 1) (k : Nat) : (s.lc k).gen < 2 ^ 16 := by
  unfold State.lc; rw [h]
  by_cases h1 : k = 5
  · subst h1; show x.gen < _; rw [hx]; decide
  · by_cases h2 : k = 6
    · subst h2; show y.gen < _; rw [hy]; decide
    · simp only [Assoc.getD, Assoc.get, h1, h2, if_false]; exact (by decide : LCtx.empty.gen < 2 ^ 16)

theorem wit_ForkingInstructionStart : ProgTurn (lv p0) p0 ∧ p0.kind = 0 ∧ p0.long = none ∧ (lv p0).named (p0.gc 1) = some 5 ∧ ((lv p0).lc 5).len ≠ 0 ∧ p0.gt 0 = [] ∧ p0.gt 2 ≠ [] ∧
    valid ((lv p0).vocab 5) (p0.gt 2) = true ∧ ((lv p0).lc 5).len < Config.maxLength ∧ ((lv p0).lc 5).busy = none ∧
    (p0.gt 1).length ≤ 255 ∧ (∀ y ∈ p0.gt 1, y = (7#24).setWidth 32) ∧ candidates 7 (p0.gt 2) = [1] :: [[2]] ∧ ([[2]] : List (List Word32)).length ≤ 255 ∧
    (∀ v ∈ candidates 7 (p0.gt 2), valid ((lv p0).vocab 5) v = true) ∧
    ∀ app : Bool, let r := if app then (lv p0).pass.onLc 5 (fun k => { k with busy := some p0.slot }) else (lv p0).pass
      ∃ t h, r.ctxFork 5 p0.slot = some (t, h) ∧ t.missing p0.slot (bits h 17 0) 1 Config.maxContexts = [] := by
  refine ⟨lv_turn _ rfl rfl, by decide +kernel, rfl, by decide +kernel, by decide +kernel, rfl, by decide +kernel, by decide +kernel, by decide +kernel, rfl, by decide +kernel, fun y h => List.eq_of_mem_singleton h,
    by decide +kernel, by decide +kernel, by decide +kernel, fun app => ?_⟩
  have h : (lv p0).pass.lctx = [(5, cx), (6, { cx with len := 0, list := [] })] := rfl
  cases app with
  | false => exact fork_ready (lv p0).pass _ (free_two _ _ _ h) (gen_two _ _ _ h rfl rfl) ⟨rfl, rfl⟩ rfl
  | true =>
    have h' : ((lv p0).pass.onLc 5 (fun k => { k with busy := some p0.slot })).lctx = [(5, { cx with busy := some p0.slot }), (6, { cx with len := 0, list := [] })] := by
      unfold State.onLc; rw [setLc_lctx, h]; rfl
    have hp : ((lv p0).pass.onLc 5 (fun k => { k with busy := some p0.slot })).pages = [(0, pg)] := (setLc_frame (lv p0).pass 5 _).2.1
    have hc : ((lv p0).pass.onLc 5 (fun k => { k with busy := some p0.slot })).lc 5 = { cx with busy := some p0.slot } := by unfold State.lc; rw [h']; rfl
    exact fork_ready ((lv p0).pass.onLc 5 (fun k => { k with busy := some p0.slot })) _ (free_two _ _ _ h') (gen_two _ _ _ h' rfl rfl) (by rw [hc]; exact ⟨rfl, rfl⟩) hp

/-- Trims of context 5, of three tokens on one page, to no token, to all but the last in place, and with the page shared. -/
def shared : State := { lv p0 with pages := [(0, { pg with refc := 2 })], reserved := [(0, 0x901, 1)] }
theorem wit_ContextTrimResult : p0.repeated ownerTable = none ∧ (lv p0).named (p0.gc 1) = some 5 ∧ ((lv p0).lc 5).busy = none ∧
    (∀ s : State, s ∈ [lv p0, shared] → s.named (p0.gc 1) = some 5 ∧ (s.lc 5).busy = none ∧ (p0.ga 1).toNat < (s.lc 5).len ∧ (p0.ga 3).toNat < (s.lc 5).len ∧
      (s.page (((s.lc 5).list[(2 - 1) / 16]?).getD 0)).res = 0 ∧ (s.lc 5).list.Nodup ∧ (2 + 14) / 16 ≤ (s.lc 5).list.length ∧ (∀ i ∈ (s.lc 5).list, (s.page i).used = true) ∧
      2 - 1 - 16 * ((2 + 14) / 16 - 1) < (s.page 0).fill) ∧
    ((lv p0).page 0).refc < 2 ∧ 2 ≤ (shared.page 0).refc ∧ shared.framesOf p0.slot (shared.pageUnits cx.img) ≠ [] ∧ 1 ≤ shared.freeEntries ∧
    (let p := { p0 with a := [2] ++ List.replicate 15 0 }
     (p.ga 0).toNat = 2 ∧ 2 < cx.len) := by decide +kernel
theorem wit_ContextTrimResult_entry : ∃ n, shared.pass.allocPti = some n :=
  Option.isSome_iff_exists.mp (allocPti_two _ rfl rfl fun k h => by
    have : shared.pass.page k = PageE.none := by
      show Assoc.getD [(0, { pg with refc := 2 })] k PageE.none = PageE.none
      simp [Assoc.getD, Assoc.get, h]
    rw [this]; rfl)

/-- A post to the host, whose host mailbox entry 0 is free, or FULL. -/
theorem wit_PostResult_host : let p := { p0 with a := [0xFFFF, 1] ++ List.replicate 14 0 }
    ProgTurn (lv p) p ∧ (p.ga 0).toNat % 2 ^ 16 = 0xFFFF ∧ p.repeated ownerHost = none ∧ ((lv p).rd64 (p.hmbx + 64 * (p.hseq % 64) + 0x38)).getLsbD 0 = false ∧ p.slot < 2 ^ 16 ∧
    (p.payload (.t 2)).2.length ≤ 4096 ∧ ((((lv p).wr64 (p.hmbx + 0x38) 1).rd64 (p.hmbx + 64 * (p.hseq % 64) + 0x38)).getLsbD 0 = true) ∧ p.repeated (ownerMail 5) = none :=
  ⟨lv_turn _ rfl rfl, by decide +kernel, rfl, by decide +kernel, by decide +kernel, by decide +kernel, by decide +kernel, rfl⟩
theorem wit_PostResult_ram : inRam (lv { p0 with a := [0xFFFF, 1] ++ List.replicate 14 0 }) p0.hmbx 0x101000 := by
  refine ⟨by decide +kernel, fun i hi => ?_⟩
  show (decide (Config.channels * Config.channelBytes ≤ p0.hmbx + i) || false) = false
  rw [Bool.or_false, decide_eq_false_iff_not]
  have : Config.channels * Config.channelBytes = 824633720832 := by decide
  have h : p0.hmbx < 0x10000000 := by decide +kernel
  omega

theorem wit_AwaitInvokeStampResult_first : (lv p0).prog 0 = some p0 ∧ p0.repeated (ownerMail p0.slot) = none ∧ p0.repeated ownerFront = none ∧ p0.repeated ownerImage = none := by decide +kernel

/-- The marks of the image, of the front end and of the host, with what their instructions need besides. -/
theorem wit_RepeatedMarkResult_image : let p : Prog := { marked ownerImage none with marks := [{ owner := ownerImage, mark := p0.mark, res := 2, entry := none }] }
    ∃ r h w, ProgTurn (lv p) p ∧ p.repeated ownerImage = some r ∧ r.res = 2 ∧ (8#32).toNat % 8 = 0 ∧ (8#32).toNat + 4 + 4 * r.res.toNat ≤ p.imgLen ∧ r.res.toNat ≤ 4096 ∧
      (lv p).pass.imageRead p (8#32).toNat 4 = .ok h ∧ (lv p).pass.imageRead p ((8#32).toNat + 4) (4 * r.res.toNat) = .ok w := by
  intro p
  obtain ⟨h, e, -⟩ := ok_of ((lv p).pass.imageRead p (8#32).toNat 4) (fun _ => true) (by decide +kernel)
  obtain ⟨w, e', -⟩ := ok_of ((lv p).pass.imageRead p ((8#32).toNat + 4) (4 * 2)) (fun _ => true) (by decide +kernel)
  exact ⟨{ owner := ownerImage, mark := p0.mark, res := 2, entry := none }, h, w, lv_turn _ rfl rfl, by decide +kernel, rfl, by decide, by decide, by decide, e, e'⟩
theorem wit_RepeatedMarkResult_front : let p : Prog := { marked ownerFront none with a := [va] ++ List.replicate 15 0 }
    ProgTurn (lv p) p ∧ (p.repeated ownerFront).isSome = true ∧ (p.ga 0).toNat % 64 = 0 ∧ (∃ bs, (lv p).pass.granted p.nctx (p.ga 0) 64 rRD true = .ok bs ∧ (!anyNr bs) = true) ∧
    (p.repeated (ownerMail p.slot)).isNone = true :=
  ⟨lv_turn _ rfl rfl, by decide +kernel, by decide +kernel, ok_of _ _ (by decide +kernel), by decide +kernel⟩

/-! ### Waits, attachments and units, clause by clause -/

theorem wit_KillRequestResult_packet : (∀ ws : Option (List Word), ws ∈ [none, some []] → let p := { placeProg with state := .awaiting, await := .launch 3 ws none none }
    ({ dev with progs := [p] } : State).prog 0 = some p ∧ p.packetLeft = ws.isSome) := by decide +kernel
/-- A release with a context of its program's that another program's long instruction holds, and one whose packet is still to be taken. -/
theorem wit_ServiceRequestResult_waits :
    (let s : State := { asked 0x60000 3 0 0 0 dev with progs := [{ placeProg with state := .done }], lctx := [(5, { cx with busy := some 1, creator := 0 })] }
     s.createdBy 0 = [5] ∧ s.dropWaits 5 = true ∧ svcClean 3 (s.rd 0x60000 256) = true ∧ s.prog (fieldB (s.rd 0x60000 256) 0x08 8) = some { placeProg with state := .done }) ∧
    (let p := { placeProg with state := .killed, await := .launch 3 (some []) none none }
     p.packetLeft = true ∧ ({ asked 0x60000 3 0 0 0 dev with progs := [p] } : State).prog 0 = some p) := by decide +kernel
theorem wit_HostAccessResult_frequency : 35 < Config.islands ∧ (dev.mhzLimits 35).1 ≤ (dev.mhzLimits 35).2 ∧ (dev.mhzLimits 35).1 ≤ fieldB (bell 900) 0 8 ∧ fieldB (bell 900) 0 8 ≤ (dev.mhzLimits 35).2 ∧
    fieldB (bell 0) 0 8 < (dev.mhzLimits 35).1 := by decide +kernel

/-- A message for a seam core, with no firewall set, one that names its source and one that does not; one for device 2, on the one link that is routed there. -/
theorem wit_MessageResult_away : (∀ w : List (Nat × FwSet), w ∈ [[], [(0, { ranges := [], sources := [(false, 0)] })], [(0, { ranges := [], sources := [] })]] →
      let f := { flight with outside := true }
      let s : State := { idle with seam := [0], firewall := w, net := [f], launches := [] }
      s.net.find? (fun f => decide (f.id = 9)) = some f ∧ s.mayArrive f = true ∧ f.dev = none ∧ s.coreAbsent f.dst = false ∧ f.dst.kernel = false ∧ bundleOf f.dst ∈ s.seam ∧ s.launch 1 = none ∧
        Assoc.get s.firewall (bundleOf f.dst) = Assoc.get w 0) ∧
    (let f := { flight with dev := some 2 }
     let s : State := { idle with net := [f], routes := [(15, 2)], lanes := [(15, 1)] }
     s.net.find? (fun f => decide (f.id = 9)) = some f ∧ s.mayArrive f = true ∧ f.dev = some 2 ∧ s.linkTo 2 = some 15) := by decide +kernel

/-- A packet of level 5 behind a waiting launch of level 0. -/
theorem wit_LaunchPacketResult_behind : let l : Launch := { newLaunch 7 (pkt 0) (childOf 0).stamp with state := .waitBundles, words := at64 4 10 :: (words 0).drop 1 }
    let s : State := { childOf 0 with launches := [l] }
    (newLaunch 65535 (pkt 0) s.stamp).level ≠ 0 ∧ l.state = .waitBundles ∧ l.level = 0 ∧ s.packet (.child 3) = some (pkt 0) ∧ s.freeLid 65535 = some 65535 ∧
      (s.wanted (newLaunch 65535 (pkt 0) s.stamp)).2 ≤ s.usable.length ∧ s.launch 7 = some l ∧ (s.choose l).isSome = true ∧ l.lists = [] := by decide +kernel

theorem wit_StealTokenBarrierResult_still : (∀ o ∈ idle.ops, o.lid = some 1 → o.kind = .amo → o.held = false) ∧ bop.replay = false ∧ bop.held = false ∧
    (let o := { bop with replay := true }
     ({ barring with ops := [o] } : State).op 0 = some o ∧ ({ barring with ops := [o] } : State).markOld (groupOwner grouped.lid o.n) o.mark = false) := by decide +kernel

/-- A kernel core's piece of a seam bundle's scratchpad, in no range of the bundle's firewall. -/
def seamPiece : Seg := { va := va, bus := scratchBus (cc 0) 0, len := 8, off := 0 }
def seamOp (k : OpKind) : Op := { opK k with segs := [seamPiece], t := tk }
def seamed (k : OpKind) : State := { out (seamOp k) with seam := [0], firewall := [(0, { ranges := [(scratchBus (cc 0) 8, 8)], sources := [] })] }
theorem wit_LoadValue_barred : (∀ k : OpKind, k ∈ [.ld, .st] → (seamed k).op 7 = some (seamOp k) ∧ (seamOp k).held = false ∧ (seamOp k).segs = [seamPiece] ∧ (seamOp k).data.length ≤ seamPiece.len ∧
      (seamed k).clear (seamOp k) [seamPiece] k.loads = true ∧ (seamed k).damage seamPiece = none ∧ (seamed k).barred seamPiece.bus = true ∧ (seamed k).barred (seamPiece.bus + 8) = false) ∧
    OpKind.ld.loads = true ∧ OpKind.st.loads = false ∧ (∀ w ∈ (seamed .ld).ops, ¬ (w.kind.isStore = true)) ∧
    (∀ k : OpKind, k ∈ [.ld, .st, .amo, .spill, .brd, .bwr, .mst] → (out (opK k)).barred (piece 8).bus = false ∧ (out (opK k)).barred (scratchBus (cc 0) 0) = false ∧
      (opK k).sent = false ∧ (opK k).orphan = false ∧ (opK k).replay = false) := by decide +kernel

/-- A parked store on its resident page, performed; a younger one behind an older parked store of a page that both touch. -/
theorem wit_HeldAccessResult_parked : let o := { opK .st with parked := true }
    (∃ p, (out o).recheckOp o = .ok p ∧ (!p.2 && decide (p.1.segs.length = 1) && p.1.segs.all (fun g => !(out o).barred g.bus && decide (g.bus = 0x200000) && decide (g.len ≤ 8)) && (out o).clear p.1 p.1.segs false) = true) ∧
    plain (out o) 0x200000 8 ∧ (∀ x ∈ (out o).older 7, x.t = o.t → x.parked = true → ∀ p ∈ x.pages, p ∉ o.pages) ∧
    (let s : State := { out o with ops := [{ o with id := 6 }, o] }
     s.op 7 = some o ∧ ¬ ∀ x ∈ s.older 7, x.t = o.t → x.parked = true → ∀ p ∈ x.pages, p ∉ o.pages) ∧
    (let r := { opK .ld with held := true, replay := true }
     (out r).op 7 = some r ∧ r.parked = false ∧ r.replay = true) :=
  ⟨ok_of _ _ (by decide +kernel), plain_of _ _ _ (by decide +kernel), by decide +kernel, by decide +kernel, by decide +kernel⟩

/-- A bank whose image the directory of the save area names, and one that makes way to such an image. -/
def banked (bs sv : List AccBank) : State :=
  { (pressed (.mzero 3) { Bundle.reset with banks := bs, saved := sv, credit := 4 }).wr64 0x6020000 0x7000000 with
    ctxs := [(0, { placeCtx with save := 0x6000000 })], launches := [placeLaunchRec, { placeLaunchRec with lid := 2 }] }
theorem wit_PressCommandResult_image :
    (let x := { bank 1 with image := some 0 }
     let s := banked [bank 2] [x]
     s.swapNext 0 = some (0, cmdOf (.mzero 3), 4) ∧ s.bankReady 0 1 = false ∧ (s.bundle 0).banks.length < 2 ∧ x ∈ (s.bundle 0).saved ∧ x.lid = (cmdOf (.mzero 3)).lid ∧
       (∀ y ∈ (s.bundle 0).saved, y.lid = 1 → y = x) ∧ s.bankImage 0 1 0 = some 0x7000000) ∧
    (let s := banked [bank 2, bank 3] []
     s.swapNext 0 = some (0, cmdOf (.mzero 3), 4) ∧ s.bankReady 0 1 = false ∧ (s.bundle 0).banks = bank 2 :: bank 3 :: [] ∧ s.queued 0 2 = false ∧ s.bankEntry 0 2 = 0 ∧
       s.bankImage 0 2 0 = some 0x7000000) ∧ (banked [bank 3, bank 2] []).bankImage 0 3 0 = none := by decide +kernel
theorem wit_PressCommandResult_ram : plain (banked [bank 2, bank 3] []) 0x7000000 262144 := by
  intro i hi
  refine ⟨rfl, fun _ => ?_⟩
  show (decide (Config.channels * Config.channelBytes ≤ 0x7000000 + i) || false) = false
  rw [Bool.or_false, decide_eq_false_iff_not]
  have : Config.channels * Config.channelBytes = 824633720832 := by decide
  omega

/-- Under LEND a fetched record goes back; a retirement whose footprint is writable. -/
theorem wit_PileDispatchResult_back :
    (let l := { plaunch with lend := true }
     let s : State := { engined [(9, .fetch 1 t0 rec6 0)] with launches := [l] }
     s.pnet.find? (fun e => decide (e.1 = 9)) = some (9, .fetch l.lid t0 rec6 0) ∧ s.launch l.lid = some l ∧ l.lend = true) ∧ plaunch.lend = false ∧
    (let r := { rec6 with hdr := rec6.hdr ||| at64 1 52 }
     let s := engined [(9, .retire 1 0 r false t0 0)]
     s.pnet.find? (fun e => decide (e.1 = 9)) = some (9, .retire plaunch.lid 0 r false t0 0) ∧ r.hdr.getLsbD 52 = true ∧
       (∃ bs, s.check { core := t0.core, ctx := plaunch.ctx, lid := some plaunch.lid } r.fpbase r.fplen rWR = .ok bs ∧
         (decide (bs.length = 1) && bs.all (fun k => !k.nr && decide (k.off = 0) && decide (k.len = 64) && decide (k.bus = 0x200000))) = true)) :=
  ⟨by decide +kernel, by decide +kernel, by decide +kernel, by decide +kernel, ok_of _ _ (by decide +kernel)⟩
theorem wit_PileDispatchResult_ram : plain (engined []) 0x200000 64 := plain_of _ _ _ (by decide +kernel)
/-- A sample before the root activation has begun, and with RESID under the tolerance. -/
theorem wit_PileRecordResult_sample : plaunch.token.started = true ∧ ((engined []).exactResid plaunch).toNat < ({ plaunch with tol := 0xFFFFFFFF } : Launch).tol.toNat ∧
    ¬ (((engined []).exactResid plaunch).toNat < ({ plaunch with tol := 0 } : Launch).tol.toNat) := by decide +kernel

theorem wit_NopYieldBrkResult_full : broken.debugFull = true ∨ broken.debugFull = false := by cases broken.debugFull <;> simp
theorem wit_SendBufferResult_far : let s : State := { base with device := 3, cores := Assoc.set base.cores (cc 0) { CoreSt.reset with thimble := [(31, BitVec.ofNat 256 (7 + 8 * 2 ^ 64 + 2 * 2 ^ 80))] } }
    s.endpoint? (cc 0) 8 = some 2 ∧ (2 : Nat) ≠ s.device ∧ s.inLaunch (exeOf s t0 act0).view (cc 8) = false ∧
    (let z : State := { s with device := 2, absent := [1] }
     z.endpoint? (cc 0) 8 = some z.device ∧ z.coreAbsent (cc 8) = true) := by decide +kernel
theorem wit_TrapReturnResult_room : ∀ n : Nat, n ∈ [0, 1, 2] → (ex fun x => { x with tlev := n }).roomArrivals = .ok () := fun _ _ => rfl
theorem wit_AttachmentResult_vendor : (0x80 : Nat) ≤ (⟨0x80, 1, 16, 0⟩ : NvmeCmd).opcode ∧ (⟨8, 1, 16, 0⟩ : NvmeCmd).opcode = 8 := by decide

/-! ### Clauses of traps, endings, stores, marks and pages -/

theorem wit_DivideByZeroTraps_constant : ∃ e1 e2, let f := fun x => s6 7 { x with trapen := 1 }
    Turn (on f) t0 act0 ∧ (exeOf (on f) t0 act0).srcS 6 = .ok (7, e1) ∧ e1.roomS 5 = .ok () ∧ e1.kop (.lit 0) false = .ok (0, e2) ∧
    e2.x.trapen.getLsbD 0 = true ∧ zeroDivisor false 0 := ⟨_, _, ⟨rfl, rfl⟩, rfl, rfl, rfl, by decide +kernel, by unfold zeroDivisor; decide⟩
/-- A signaling NaN as the operand of FFMA and of the square root. -/
theorem wit_FpExceptionTraps_more : ∃ e1, let f := fun x => s6 0x7F800001 { x with trapen := 0x3E }
    Turn (on f) t0 act0 ∧ (ex f).srcS 6 = .ok (0x7F800001, e1) ∧ e1.roomS 5 = .ok () ∧ ¬ fpQuiet e1 (fFP32.sqrt 0 0x7F800001).2 ∧ e1.srcS 0 = .ok (0, e1) ∧
    e1.roomS 0 = .ok () ∧ ¬ fpQuiet e1 (fFP32.fma 0 0x7F800001 0 0).2 :=
  ⟨_, ⟨rfl, rfl⟩, rfl, rfl, by unfold fpQuiet; decide +kernel, rfl, rfl, by unfold fpQuiet; decide +kernel⟩
/-- Both sides in memory, and both in the scratchpad. -/
theorem wit_BlockIssue_side : (ex (s6 va)).local va = !true ∧ (ex (s6 va)).local (va + 64) = !true ∧ (ex (s6 va)).local 0 = !false ∧ (ex (s6 va)).local 64 = !false := by decide +kernel

/-- A launch of its own with a buffered record, with room in the deque, and in PILE mode. -/
def buffered (s : State) : State := s.tsSet t0 { s.tsGet t0 with sbuf := [.lend, .spawn (List.replicate 32 1)] }
theorem wit_Released : act0.lid = some placeLaunchRec.lid ∧ (buffered base).launch placeLaunchRec.lid = some placeLaunchRec ∧ placeLaunchRec.pile = false ∧
    spawnsOf ((buffered base).tsGet t0).sbuf = [List.replicate 32 1] ∧ spawnsOf (base.tsGet t0).sbuf = [] ∧
    (placeLaunchRec.deque ((placeLaunchRec.ordinal t0.core).getD 0)).2.length + (spawnsOf ((buffered base).tsGet t0).sbuf).length ≤ 256 ∧
    (∃ l, (buffered piled).launch 1 = some l ∧ (l.pile && decide (l.lid = 1)) = true) ∧ Buffered.lend ∈ ((buffered base).tsGet t0).sbuf :=
  ⟨rfl, by decide +kernel, by decide +kernel, by decide +kernel, by decide +kernel, by decide +kernel, some_of _ _ (by decide +kernel), by decide +kernel⟩

theorem wit_PressIssue_kernel : ∀ i : Instr, i ∈ [mmaI, .mst 5 6 7 4 3, .mring 0 6 7, .mradv 0 6, .mzero 7] → pressInstr i = true := by decide +kernel
theorem wit_GetSpecialRegisterResult_values : t0.core.idx < 2 ^ 14 ∧ t0.ts < 4 ∧ (ex q2).x.slq.length < 2 ^ 5 ∧ (ex q2).x.ssq.length < 2 ^ 4 ∧ (ex q2).x.vlq.length < 2 ^ 4 ∧
    ∀ i, i < 8 → (spills 14).tokCount t0 i < 16 := by decide +kernel

/-- The traps of activations that a message, a deque record and a Pile record began. -/
def began (o : Origin) : State := base.tsSet t0 { base.tsGet t0 with tlev := 1, act := some { act0 with origin := o } }
theorem wit_TrapReturnResult_origin : ∀ o : Origin, o ∈ [.message, .deque { bytes := List.replicate 32 0, s2 := 0, deps := [] }, .pile rec6 0 0] →
    Turn (began o) t0 { act0 with origin := o } ∧ ((began o).tsGet t0).tlev ≠ 0 ∧ ({ act0 with origin := o } : Activation).lid = some placeLaunchRec.lid ∧
    (began o).launch placeLaunchRec.lid = some placeLaunchRec := by
  intro o _
  exact ⟨⟨rfl, rfl⟩, show (1 : Nat) ≠ 0 by decide, rfl, rfl⟩
theorem wit_TrapEntry_memory : ∀ o ∈ (on id).ops, o.t = t0 → o.kind ≠ .spill := by decide +kernel

theorem wit_StoreIssue_scratch : let g : Seg := { va := 0, bus := scratchBus (cc 0) 0, len := 8, off := 0 }
    (ex stq).srcS 0 = .ok (0, ex stq) ∧ (∃ bs, (ex stq).check (0 + (0 : Half).signExtend 64 * 8) 8 rWR = .ok bs ∧ (!anyNr bs && decide (segsOf bs = [g])) = true) ∧
    scratchBase ≤ g.bus ∧ (on stq).barred g.bus = false ∧ writable (on stq) g.bus g.len :=
  ⟨rfl, ok_of _ _ (by decide +kernel), by decide +kernel, by decide +kernel, plain_of _ _ _ (by decide +kernel), by unfold unowned; decide +kernel⟩
/-- The store with nothing before it, and behind an older load of its bytes. -/
theorem wit_StoreIssue_clear : let g : Seg := { va := 0, bus := scratchBus (cc 0) 0, len := 8, off := 0 }
    let o : Op := { (ex stq).mkOp .st with segs := [g], data := leBytes 8 1, id := 8, width := 8, seq := 0 }
    let r : Op := { (ex stq).mkOp .ld with segs := [g], id := 7, width := 8 }
    let v := fun (l : List Op) => ({ on stq with ops := l ++ [o], nextId := 9 } : State)
    (v []).clear o [g] false = true ∧ (v [r]).clear o [g] false = false := by decide +kernel
theorem wit_LoadIssue_prefetch : (∃ bs, (on (s6 va)).check (ex (s6 va)).view (va + (0 : Half).signExtend 64 * 64) 1 rRD = .ok bs ∧ (!anyNr bs) = true) ∧
    prefPaged (ex (s6 va)) (va + (0 : Half).signExtend 64 * 64) = true ∧ prefPaged (ex (s6 va)) 0 = false :=
  ⟨ok_of _ _ (by decide +kernel), by decide +kernel, by decide +kernel⟩

/-- Stack memory that no agent owns. -/
theorem wit_unowned : unowned dev 0x70000 2 ∧ unowned dev (0x4C000 + 16) 16 ∧ unowned base 0xBFFFFFFFF8 8 ∧ unowned (out (opK .amo)) (piece 8).bus 8 ∧
    unowned (out (opK .spill)) (piece 8).bus 8 ∧ unowned (out { opK .st with parked := true }) 0x200000 8 ∧ unowned (copying 0) 0x201000 64 ∧ unowned (engined []) 0x200000 64 ∧
    unowned (out (blk .bwr)) (scratchBus (cc 0) 0) 8 ∧ unowned (queued []) (0x4C000 + 16) 16 ∧ (lv p0).readOnly (p0.sblk + 8) = true := by
  unfold unowned; decide +kernel
theorem wit_TransferCompletes_open : ∀ i, i < 64 → (copying 0).barred (0x200000 + i) = false ∧ (copying 0).barred (0x201000 + i) = false := by decide +kernel
theorem wit_AtomicValue_live : (opK .amo).orphan = false := rfl

/-- MARKQ of a mark that is remembered with M clear, one older than the window, and one that is absent in it. -/
def asked1 (m : Word) (l : List (Word32 × Bool × Word)) : State :=
  { out { opK .markq with mark := m } with windows := [{ owner := 0, ctx := 0, core := 0, ts := 0, block := 0, marks := l }] }
theorem asked1_window (l : List (Word32 × Bool × Word)) : (asked1 5 l).window? 0 5 = l := by
  have h : 0 = bits 5#64 63 48 ∧ 0 = bits 5#64 47 34 ∧ 0 = bits 5#64 33 32 := by decide +kernel
  simp [State.window?, asked1, ← h.1, ← h.2.1, ← h.2.2]
theorem wit_LoadValue_marks : (((asked1 5 [(5, false, 9)]).window? 0 5).find? (fun e => decide (e.1 = (5 : Word).setWidth 32)) = some ((5 : Word).setWidth 32, false, 9)) ∧
    (asked1 5 [(7, true, 9)]).window? 0 5 ≠ [] ∧
    (∀ e ∈ (asked1 5 [(7, true, 9)]).window? 0 5, e.1 ≠ (5 : Word).setWidth 32 ∧ seqOlder ((5 : Word).setWidth 32) e.1 = true) ∧
    (∀ e ∈ (asked1 5 [(4, true, 9)]).window? 0 5, e.1 ≠ (5 : Word).setWidth 32 ∧ seqOlder ((5 : Word).setWidth 32) e.1 = false) := by
  simp only [asked1_window]
  refine ⟨by decide, by decide, ?_, ?_⟩ <;> intro e h <;> rw [List.mem_singleton] at h <;> subst h <;> exact ⟨by decide, by decide⟩

/-- A replay, and a parked one, whose page is gone. -/
theorem wit_HeldAccessResult_replay : ∀ o : Op, o ∈ [{ opK .ld with held := true, replay := true }, { opK .st with parked := true, replay := true }, { opK .mst with held := true }] →
    (out o).op 7 = some o ∧ (o.replay = true ∨ (o.parked = false ∧ o.kind = .mst)) ∧ ∃ e, ({ out o with ctxs := [] } : State).recheckOp o = .error e ∧ true = true := by
  intro o h
  refine ⟨?_, ?_, err_of _ (fun _ => true) ?_⟩ <;> revert o <;> decide +kernel

/-- A program that waits for a launch which ends, with no write of it to come; the victim's core has an ordinal. -/
def invoker : Prog := { p0 with state := .awaiting, await := .launch 3 none (some 1) none }
def invoked : Launch := { launch1 with src := .invoke invoker.slot, token := { launch1.token with at_ := 7 } }
def ending1 (l : Launch) : State := { idle with launches := [l], progs := [invoker], net := [] }
theorem wit_told : settled (ending1 invoked) invoked ∧ invoked.src = .invoke invoker.slot ∧ (ending1 invoked).prog invoker.slot = some invoker ∧
    invoker.await = .launch 3 none (some invoked.lid) none ∧ launch1.ordinal (launch1.coreAt 1) = some 1 := by
  refine ⟨⟨by decide +kernel, by decide +kernel, by decide +kernel⟩, rfl, by decide +kernel, rfl, by decide +kernel⟩
/-- A launch that runs alone, on the last visit of a clean round, with its record at `va + 0x8000`. -/
def lone : Launch := { launch1 with token := { launch1.token with at_ := 7 }, words := [at64 5 4 ||| at64 4 10, va, 0, 0, 0, 0, va + 0x8000, 0] }
def loneS : State := { idle with launches := [lone], net := [] }
theorem wit_CompletionRecordResult : loneS.launches = [lone] ∧ lone.state = .running ∧ lone.token.started = true ∧ lone.pile = false ∧ loneS.idleForToken lone lone.token.at_ = true ∧
    lone.n ≤ lone.token.at_ + 1 ∧ (lone.token.stain || lone.stains.contains lone.token.at_) = false ∧ lone.token.sum + Assoc.getD lone.counts lone.token.at_ 0 = 0 ∧
    loneS.ops = [] ∧ (∀ k ∈ loneS.bundles, k.2.frozen = []) ∧ loneS.copyQs = [] ∧ loneS.ending = [] ∧ lone.sslot = 0 ∧ lone.crec.toNat % 128 = 0 ∧
    (∃ bs, loneS.granted lone.ctx lone.crec 128 rWR false = .ok bs ∧
      decide (bs = [{ va := va + 0x8000, bus := 0x208000, len := 128, off := 0, nr := false, page := 0x2000 }]) = true) ∧
    inRam loneS 0x208000 128 ∧ unowned loneS 0x208000 128 :=
  ⟨rfl, rfl, rfl, by decide +kernel, by decide +kernel, by decide +kernel, by decide +kernel, by decide +kernel, rfl, by decide +kernel, rfl, rfl, by decide +kernel, by decide +kernel,
   ok_of _ _ (by decide +kernel), inRam_of _ _ _ (by decide +kernel), by unfold unowned; decide +kernel⟩

/-- An image in a seam bundle's scratchpad that its firewall drops, and one in stack memory. -/
def kseam : State := { kon 0x7FFFF (0x40000 : Word) id with seam := [0], firewall := [(0, { ranges := [], sources := [] })] }
theorem wit_KernelInstructionResult_barred : kseam.barred (scratchBus (cc 0) 0) = true ∧ kseam.barred 0x40000 = false ∧ kernelQuiet kseam tk :=
  ⟨by decide +kernel, by decide +kernel, by intro o h; cases h⟩

/-- The head of the core whose turn it is, with its bank away. -/
theorem wit_PressCommandResult_swap : ∀ i : Instr, i ∈ [mmaI, .mzero 3] → let s := pressed i { Bundle.reset with banks := [bank 2, bank 3], saved := [bank 1], credit := 4 }
    (s.bundle 0).exec = none ∧ (s.bundle 0).arb < 8 ∧ (s.core (cc (8 * 0 + (s.bundle 0).arb))).pressQ = cmdOf i :: [] ∧ s.headStart 0 (cc 0) (cmdOf i) = true ∧
    (s.bundle 0).credit < pressWeight (cmdOf i).cls ∧ s.swapNext 0 = some (0, cmdOf i, 4) ∧ s.bankReady 0 (cmdOf i).lid = false := by decide +kernel

/-- One program that waits on the image of an open window. -/
theorem wit_StepLaunchResult_one : let s := { lv (genu 9) with mangles := [{ img := 3, start := 3, defs := [], window := true, opened := 0, place := [] }], window := 1, clock := 1000 }
    s.progs.filter (fun q => q.waiting && decide (s.stepImg q = some 3)) = [genu 9] ∧ s.prog (genu 9).slot = some (genu 9) ∧ 3 ≤ (genu 9).level ∧ (genu 9).level ≤ 11 ∧
    (genu 9).stepCid = some 5 ∧ (genu 9).resume = false ∧ (genu 9).appending = false ∧ (s.lc 5).detach = none ∧ s.missing (genu 9).slot 5 1 1 = [] ∧ (s.need 5 1 1).detach = false ∧
    areaHead + memberBytes img0 1 true ≤ (s.areaFree img0).2 ∧ 0 < s.qb ∧ 3 ≤ (s.mangle 3).start ∧ (s.mangle 3).start ≤ 11 := by decide +kernel
theorem wit_StepLaunchResult_doomed : (genu 9).doomed = false ∧ ({ p0 with state := .batched, long := some (.append 2 1), p0 := progress 1 0 0 0 0 0 } : Prog).doomed = false := by decide +kernel
/-- A frame that is wanted while none is free, and host storage that is full. -/
theorem wit_PageMoveResult_fold : (paged pg [] 2 []).freeFrames = [] ∧
    (let p := { p0 with state := .parked, park := [.frames 5 1] }
     let s := paged pg [0x901] 2 [p]
     s.nextFrame = some (p.slot, 1) ∧ 0 < 1 ∧ s.frameFree 1 = true) ∧
    (let s := paged { pg with res := 1 } [] 0 []
     s.slotsFull s.foldUnits = true) := by decide +kernel

end Sys2Proof.Tests
end

section
/-!
What a step keeps of the memories (O57): vocabulary. `MemInv` holds of a state whose memories are in canonical form. A state operation `f` that
keeps it has the lemma `MemInv.f`; where `f` may stop (`Except`) or give nothing (`Option`), the lemma says so through `Gives` or `Yields`; an
instruction or event `execX` has `execX_keeps`, stated with `Kept`. The lemmas stand in the order of the model's files, and each cites those of
the operations that its own operation calls.
-/

namespace Sys2Proof.Machine

open Sys2Proof

/-- What an attempt gives, where it goes on, satisfies `P`. -/
def Gives {ε α : Type} (P : α → Prop) : Except ε α → Prop
  | .ok a => P a
  | .error _ => True

/-- A first attempt that gives `P`, and a second that gives `Q` from whatever satisfies `P`. -/
theorem Gives.bind {ε α β : Type} {P : α → Prop} {Q : β → Prop} {x : Except ε α} {f : α → Except ε β} (hx : Gives P x)
    (hf : ∀ a, P a → Gives Q (f a)) : Gives Q (x >>= f) := by
  cases x with
  | error _ => trivial
  | ok a => exact hf a hx

/-- A check whose value does not matter. -/
theorem Gives.skip {ε α β : Type} {Q : β → Prop} {x : Except ε α} {f : α → Except ε β} (hf : ∀ a, Gives Q (f a)) : Gives Q (x >>= f) :=
  Gives.bind (P := fun _ => True) (by cases x <;> trivial) fun a _ => hf a

theorem Gives.ite {ε α : Type} {P : α → Prop} {c : Prop} [Decidable c] {x y : Except ε α} (hx : Gives P x) (hy : Gives P y) :
    Gives P (if c then x else y) := by
  split
  · exact hx
  · exact hy

theorem Gives.ok {ε α : Type} {P : α → Prop} {a : α} (h : P a) : Gives P (.ok a : Except ε α) := h

theorem Gives.next {e : Exe} (h : MemInv e.s) : Gives (fun e => MemInv e.s) e.next := h

theorem Gives.next2 {e : Exe} (h : MemInv e.s) : Gives (fun e => MemInv e.s) e.next2 := h

/-- What an option holds, if anything, satisfies `P`. -/
def Yields {α : Type} (P : α → Prop) : Option α → Prop
  | some a => P a
  | none => True

theorem Yields.of_eq {α : Type} {P : α → Prop} {o : Option α} {a : α} (h : Yields P o) (he : o = some a) : P a := by
  subst he
  exact h

theorem Yields.map {α β : Type} {P : α → Prop} {Q : β → Prop} {o : Option α} {f : α → β} (h : Yields P o) (hf : ∀ a, P a → Q (f a)) :
    Yields Q (o.map f) := by
  cases o with
  | none => trivial
  | some a => exact hf a h

/-- The memories of the next state, where there is one, stand in canonical form. -/
def Kept : Host.Outcome State Fault Refusal → Prop
  | .next u => MemInv u
  | .fault _ => True
  | .refused _ => True

theorem Kept.next {u : State} (h : MemInv u) : Kept (.next u) := h

theorem Kept.ite {c : Prop} [Decidable c] {x y : Host.Outcome State Fault Refusal} (hx : Kept x) (hy : Kept y) : Kept (if c then x else y) := by
  split
  · exact hx
  · exact hy

theorem MemInv.ite {c : Prop} [Decidable c] {s u : State} (hs : MemInv s) (hu : MemInv u) : MemInv (if c then s else u) := by
  split
  · exact hs
  · exact hu

theorem MemInv.ite_exe {c : Prop} [Decidable c] {d e : Exe} (hd : MemInv d.s) (he : MemInv e.s) : MemInv (if c then d else e).s := by
  split
  · exact hd
  · exact he

theorem MemInv.getD {o : Option State} {s : State} (h : MemInv s) (ho : Yields MemInv o) : MemInv (o.getD s) := by
  cases o with
  | none => exact h
  | some u => exact ho

theorem MemInv.foldl {α : Type} {f : State → α → State} {s : State} {l : List α} (h : MemInv s) (hf : ∀ u x, MemInv u → MemInv (f u x)) :
    MemInv (l.foldl f s) := l.foldlRecOn f h fun u hu x _ => hf u x hu

theorem MemInv.foldl_fst {α β : Type} {f : State × β → α → State × β} {a : State × β} {l : List α} (h : MemInv a.1)
    (hf : ∀ a x, MemInv a.1 → MemInv (f a x).1) : MemInv (l.foldl f a).1 :=
  l.foldlRecOn f (motive := fun a => MemInv a.1) h fun a ha x _ => hf a x ha

theorem MemInv.ite_fst {α : Type} {c : Prop} [Decidable c] {x y : State × α} (hx : MemInv x.1) (hy : MemInv y.1) :
    MemInv (if c then x else y).1 := by
  split
  · exact hx
  · exact hy

theorem MemInv.withFresh {s : State} {n : ℕ} (h : MemInv s) : MemInv { s with fresh := n } := h

/-- An operation handed to the access half changes no memory. -/
theorem MemInv.pushOp {e : Exe} {o : Op} (h : MemInv e.s) : MemInv (e.send o).s := h

theorem MemInv.putP {e : Exe} {p : BitVec 3} {v : Word} (h : MemInv e.s) : MemInv (e.putP p v).s := by
  unfold Exe.putP
  split <;> exact h

theorem Yields.findSome {α β : Type} {P : β → Prop} {f : α → Option β} {l : List α} (h : ∀ a, Yields P (f a)) : Yields P (l.findSome? f) := by
  cases he : l.findSome? f with
  | none => trivial
  | some b =>
    obtain ⟨a, -, ha⟩ := List.exists_of_findSome?_eq_some he
    exact (h a).of_eq ha

end Sys2Proof.Machine
end

section
/-!
The memories stay canonical: what reads, writes and performs accesses (Machine/Mem, Access, Perform).
-/

namespace Sys2Proof.Machine

open Sys2Proof

theorem MemInv.wrFree {s : State} {a : ℕ} {b : Byte} (h : MemInv s) : MemInv (s.wrFree a b) := by
  unfold State.wrFree
  exact MemInv.ite h (h.wrByte _ _)

theorem MemInv.keepOwned {s : State} {a : ℕ} {old : List Byte} (h : MemInv s) : MemInv (s.keepOwned a old) :=
  MemInv.foldl h fun _ _ hu => (MemInv.ite (hu.wrByte _ _) hu)

theorem MemInv.clearPhys {s : State} {a n : ℕ} (h : MemInv s) : MemInv (s.clearPhys a n) := by
  unfold State.clearPhys
  exact MemInv.ite (h.zeroRange _ _) (h.wr _)

theorem MemInv.stamped {s : State} (h : MemInv s) : MemInv s.stamped :=
  h

theorem MemInv.tsSet {s : State} {t : TsId} {x : ThreadSet} (h : MemInv s) : MemInv (s.tsSet t x) :=
  h

theorem MemInv.setCore {s : State} {c : CoreId} {x : CoreSt} (h : MemInv s) : MemInv (s.setCore c x) :=
  h

theorem MemInv.setBundle {s : State} {b : ℕ} {x : Bundle} (h : MemInv s) : MemInv (s.setBundle b x) :=
  h

theorem MemInv.setLaunch {s : State} {l : Launch} (h : MemInv s) : MemInv (s.setLaunch l) :=
  h

theorem MemInv.onLaunch {s : State} {l : Option Half} {f : Launch → Launch} (h : MemInv s) : MemInv (s.onLaunch l f) := by
  unfold State.onLaunch
  split <;> exact h

theorem MemInv.wrBlocks {s : State} {bs : List Block} {d : List Byte} (h : MemInv s) : MemInv (s.wrBlocks bs d) := by
  induction bs generalizing s d with
  | nil => exact h
  | cons b r ih => exact ih (h.wrRw b.bus)

theorem MemInv.wrV {s : State} {ctx : Half} {va : Word} {d : List Byte} (h : MemInv s) : Yields MemInv (s.wrV ctx va d) := by
  unfold State.wrV
  split
  · exact h.wrBlocks
  · trivial

theorem MemInv.dropOp {s : State} {id : ℕ} (h : MemInv s) : MemInv (s.dropOp id) :=
  h

theorem MemInv.setOp {s : State} {o : Op} (h : MemInv s) : MemInv (s.setOp o) :=
  h

theorem MemInv.fillS {s : State} {t : TsId} {id which : ℕ} {v : LdE Word} (h : MemInv s) : MemInv (s.fillS t id which v) :=
  h.tsSet

theorem MemInv.endWith {s : State} {id : ℕ} {status : Word} (h : MemInv s) : MemInv (s.endWith id status) := by
  unfold State.endWith
  split
  · exact MemInv.dropOp (MemInv.ite h.fillS h)
  · exact h

theorem MemInv.fillV {s : State} {t : TsId} {id : ℕ} {v : LdE Vec} (h : MemInv s) : MemInv (s.fillV t id v) :=
  h.tsSet

theorem MemInv.fillBad {s : State} {o : Op} {c : Cause} {a : Word} (h : MemInv s) : MemInv (s.fillBad o c a) := by
  unfold State.fillBad
  exact MemInv.ite h.fillS (MemInv.ite h.fillV h)

theorem MemInv.loadDone {s : State} {o : Op} (h : MemInv s) : MemInv (s.loadDone o) := by
  unfold State.loadDone
  split
  · exact MemInv.ite h.dropOp.fillS h.dropOp
  · exact MemInv.ite h.dropOp.fillV h.dropOp

theorem MemInv.put {s : State} {g : Seg} {d : List Byte} (h : MemInv s) : MemInv (s.put g d) := by
  unfold State.put
  exact MemInv.ite h (h.wrRw _)

theorem MemInv.smearSeg {s : State} {g : Seg} (h : MemInv s) : MemInv (s.smearSeg g) := by
  unfold State.smearSeg
  exact MemInv.ite h (h.smear _ _)

theorem MemInv.noteBar {s : State} {g : Seg} (h : MemInv s) : MemInv (s.noteBar g) := by
  unfold State.noteBar
  split <;> exact h

theorem MemInv.loadRead {s : State} {o : Op} {g : Seg} {rest : List Seg} {d : List Byte} (h : MemInv s) : MemInv (s.loadRead o g rest d) := by
  unfold State.loadRead
  exact MemInv.ite h.loadDone h.setOp

theorem MemInv.loadPiece {s : State} {o : Op} (h : MemInv s) : MemInv (s.loadPiece o) := by
  unfold State.loadPiece
  split
  · exact h.loadDone
  · refine MemInv.ite h ?_
    split
    · exact h
    · split
      · exact h
      · exact MemInv.loadRead (MemInv.ite h h.tsSet)
    · split
      · exact h.fillBad.dropOp
      · exact h.noteBar.loadRead

theorem MemInv.storePiece {s : State} {o : Op} (h : MemInv s) : MemInv (s.storePiece o) := by
  unfold State.storePiece
  split
  · exact h.dropOp
  · exact MemInv.ite h (MemInv.ite h.put.dropOp h.put.setOp)

theorem MemInv.storeSegs {s : State} {o : Op} {l : List Seg} (h : MemInv s) : MemInv (s.storeSegs o l) := by
  induction l generalizing s with
  | nil => exact h
  | cons g r ih =>
    unfold State.storeSegs
    exact MemInv.ite (ih h.storePiece) h

theorem MemInv.storeNow {s : State} {o : Op} (h : MemInv s) : MemInv (s.storeNow o) :=
  (MemInv.foldl h fun _ _ hu => hu.put).dropOp

theorem MemInv.remember {s : State} {owner : ℕ} {mark : Word} {m : Bool} {res : Word} (h : MemInv s) : MemInv (s.remember owner mark m res) := by
  unfold State.remember
  dsimp only
  split <;> exact h

theorem MemInv.onEnding {s : State} {o : Op} {f : Launch → Launch} (h : MemInv s) : MemInv (s.onEnding o f) := by
  unfold State.onEnding
  split <;> exact h

theorem MemInv.amoNow {s : State} {o : Op} (h : MemInv s) : MemInv (s.amoNow o) := by
  unfold State.amoNow
  split
  · exact h.dropOp
  · extract_lets m old push bad s1 s2 s3 s4
    have h1 : MemInv s1 := by
      dsimp only [s1]
      split
      · exact h.noteBar
      · exact h.put
    have h3 : MemInv s3 := MemInv.ite h1.remember.onLaunch.onEnding h1.remember
    clear_value s3 bad
    have h4 : MemInv s4 := by
      refine MemInv.ite ?_ h3
      cases bad with
      | none => exact h3.fillS
      | some x => exact h3.fillS
    exact h4.dropOp

theorem MemInv.fillNow {s : State} {o : Op} (h : MemInv s) : MemInv (s.fillNow o) :=
  h.tsSet.dropOp

theorem MemInv.blockNow {s : State} {o : Op} (h : MemInv s) : MemInv (s.blockNow o) := by
  unfold State.blockNow
  extract_lets d s1 s2
  have h2 : MemInv s2 := MemInv.dropOp (MemInv.foldl_fst (MemInv.foldl h fun _ _ hu => hu.noteBar) fun _ _ ha => ha.put)
  exact MemInv.foldl h2 fun _ _ hu => hu.smearSeg

end Sys2Proof.Machine
end

section
/-!
The memories stay canonical: the ends of activations, launches and contexts, and traps (Machine/Ends).
-/

namespace Sys2Proof.Machine

open Sys2Proof

theorem MemInv.countAt {s : State} {lid : Option Half} {c : CoreId} {d : ℤ} (h : MemInv s) : MemInv (s.countAt lid c d) :=
  h.onLaunch

theorem MemInv.stainAt {s : State} {lid : Option Half} {c : CoreId} (h : MemInv s) : MemInv (s.stainAt lid c) :=
  h.onLaunch

theorem MemInv.setFrozen {s : State} {b : ℕ} {f : Frozen} (h : MemInv s) : MemInv (s.setFrozen b f) :=
  h.setBundle

theorem MemInv.mirrorMembk {s : State} {c : CoreId} {ctx : Half} {old k : CoreSt} (h : MemInv s) : MemInv (s.mirrorMembk c ctx old k) := by
  unfold State.mirrorMembk
  refine MemInv.ite h ?_
  split
  · exact h
  · exact MemInv.foldl h fun _ _ hu => (hu.wr _)

theorem MemInv.setCoreFor {s : State} {c : CoreId} {ctx : Half} {k : CoreSt} (h : MemInv s) : MemInv (s.setCoreFor c ctx k) := by
  unfold State.setCoreFor
  dsimp only
  split
  · exact h.mirrorMembk.setFrozen
  · exact h.mirrorMembk.setCore

theorem MemInv.mirrorRing {s : State} {ctx : Half} {m : Msg} (h : MemInv s) : MemInv (s.mirrorRing ctx m) := by
  unfold State.mirrorRing
  split
  · exact h
  · exact h.wr _

theorem MemInv.enter {s : State} {c : CoreId} {ctx : Half} {lid : Option Half} {counted stain : Bool} {m : Msg} (h : MemInv s) :
    Yields MemInv (s.enter c ctx lid counted stain m) := by
  unfold State.enter
  split
  · exact h
  · split
    · trivial
    · dsimp only
      refine MemInv.ite (MemInv.stainAt (MemInv.ite (MemInv.countAt (MemInv.setCoreFor (MemInv.ite h.mirrorRing h))) (MemInv.setCoreFor
          (MemInv.ite h.mirrorRing h)))) ?_
      exact MemInv.ite (MemInv.countAt (MemInv.setCoreFor (MemInv.ite h.mirrorRing h))) (MemInv.setCoreFor (MemInv.ite h.mirrorRing h))

theorem MemInv.post {s : State} {f : Flight} (h : MemInv s) : MemInv (s.post f) :=
  h

theorem MemInv.deliver {s : State} {c : CoreId} {ctx : Half} {lid : Option Half} {m : Msg} (h : MemInv s) : MemInv (s.deliver c ctx lid m) := by
  unfold State.deliver
  refine MemInv.ite h ?_
  split
  · rename_i he
    exact h.enter.of_eq he
  · exact h.post

theorem MemInv.signalAt {s : State} {a : Option ℕ} (h : MemInv s) : MemInv (s.signalAt a) := by
  unfold State.signalAt
  split
  · exact h
  · exact h.wrRw _

theorem MemInv.publish {s : State} {a : Option ℕ} {needed : ℕ} (h : MemInv s) : MemInv (s.publish a needed) := by
  unfold State.publish
  split
  · exact h
  · exact h.wrRw _

theorem MemInv.wrTarget {s : State} {ctx : Half} {va : Word} {d : List Byte} (h : MemInv s) : Yields MemInv (s.wrTarget ctx va d) := by
  unfold State.wrTarget
  split
  · rename_i he
    exact h.wrV.of_eq he
  · split
    · exact h.hostWr _
    · trivial

theorem MemInv.writeCrec {s : State} {ctx : Half} {crec : Word} {d : List Byte} (h : MemInv s) : Yields MemInv (s.writeCrec ctx crec d) := by
  unfold State.writeCrec
  split
  · trivial
  · exact h.wrTarget

theorem MemInv.setPile {s : State} {b : ℕ} {lid : Half} {p : Pile} (h : MemInv s) : MemInv (s.setPile b lid p) :=
  h.setBundle

theorem MemInv.onFrozen {s : State} {ctx : Half} {g : Frozen → Frozen} (h : MemInv s) : MemInv (s.onFrozen ctx g) :=
  h

theorem MemInv.writeResidue {s : State} {l : Launch} (h : MemInv s) : MemInv (s.writeResidue l) := by
  unfold State.writeResidue
  exact MemInv.ite h (MemInv.getD h h.wrV)

theorem MemInv.setCopyQ {s : State} {q : CopyQ} (h : MemInv s) : MemInv (s.setCopyQ q) := by
  unfold State.setCopyQ
  split <;> exact h

theorem MemInv.syncCopyQ {s : State} {q : CopyQ} {i : ℕ} (h : MemInv s) : MemInv (s.syncCopyQ q i) := by
  unfold State.syncCopyQ
  split
  · exact h
  · split
    · exact (h.wr64 _ _).wr64 _ _
    · exact ((h.wr64 _ _).wr64 _ _).wr _

theorem MemInv.syncWhole {s : State} {q : CopyQ} (h : MemInv s) : MemInv (s.syncWhole q) :=
  MemInv.foldl h fun _ _ hu => hu.syncCopyQ

theorem MemInv.copyMove {s : State} {src dst : List Seg} (h : MemInv s) : MemInv (s.copyMove src dst) :=
  MemInv.foldl (MemInv.foldl h fun _ _ hu => hu.noteBar) fun _ _ hu => hu.put

theorem MemInv.copyChunk {s : State} {f : ℕ → ℕ} {v : View} {d : Vec} {pos : ℕ} (h : MemInv s) : MemInv (s.copyChunk f v d pos).1 := by
  unfold State.copyChunk
  extract_lets n src dst move upTo
  have hmove : ∀ k, MemInv (move k).1 := by
    intro k
    dsimp only [move]
    split
    · refine MemInv.ite_fst h ?_
      split
      · split
        · exact h.copyMove
        · exact h
      · exact h.copyMove
    · exact h
  have hupTo : ∀ k c, MemInv (upTo k c).1 := by
    intro k c
    have hk := hmove k
    dsimp only [upTo]
    split
    · rename_i hm
      rw [hm] at hk
      exact hk
    · exact hk
  split
  · exact hmove n
  all_goals exact hupTo _ _

theorem MemInv.smearChunk {s : State} {f : ℕ → ℕ} {v : View} {d : Vec} {pos n : ℕ} (h : MemInv s) : MemInv (s.smearChunk f v d pos n) := by
  unfold State.smearChunk
  split
  · exact MemInv.foldl h fun _ _ hu => hu.smearSeg
  · exact h

theorem MemInv.mirrorWindow {s : State} {ctx : Half} {owner : ℕ} {mark : Word} (h : MemInv s) : MemInv (s.mirrorWindow ctx owner mark) := by
  unfold State.mirrorWindow
  split
  · exact h.wr _
  · exact h

theorem MemInv.setPileAny {s : State} {b : ℕ} {lid : Half} {p : Pile} (h : MemInv s) : MemInv (s.setPileAny b lid p) := by
  unfold State.setPileAny
  split
  · exact h.setFrozen
  · exact h.setPile

theorem MemInv.gainNow {s : State} {o : Op} (h : MemInv s) : MemInv (s.gainNow o) := by
  unfold State.gainNow
  split
  · exact h
  · extract_lets
    refine MemInv.ite h ?_
    split
    · exact MemInv.ite h.setPileAny.remember.mirrorWindow.onLaunch h.setPileAny.remember.mirrorWindow

theorem MemInv.outlive {s : State} {o : Op} (h : MemInv s) : MemInv (s.outlive o) := by
  unfold State.outlive
  dsimp only
  exact MemInv.ite h.setOp h

theorem MemInv.outliveNew {s : State} {o : Op} (h : MemInv s) : MemInv (s.outliveNew o) :=
  h

theorem MemInv.orphanChunk {s : State} {f : ℕ → ℕ} {o : Op} {d : Vec} {smeared : Bool} {pos n : ℕ} (h : MemInv s) :
    MemInv (s.orphanChunk f o d smeared pos n) := by
  unfold State.orphanChunk
  split
  · refine MemInv.ite (MemInv.outliveNew h) ?_
    exact MemInv.ite ((MemInv.foldl h fun _ _ hu => hu.noteBar).outliveNew) h.outliveNew
  · exact h

theorem MemInv.copyRest {s : State} {f : ℕ → ℕ} {o : Op} {d : Vec} {smeared : Bool} {fuel pos : ℕ} (h : MemInv s) :
    MemInv (State.copyRest f o d smeared fuel s pos) := by
  induction fuel generalizing s pos with
  | zero => exact h
  | succ n ih =>
    unfold State.copyRest
    extract_lets later
    have hlater : ∀ {u}, MemInv u → MemInv (later u) := fun hu => MemInv.ite hu.orphanChunk (ih hu.orphanChunk)
    have hchunk := h.copyChunk (f := f) (v := o.view) (d := d) (pos := pos)
    refine MemInv.ite h (MemInv.ite (hlater h) ?_)
    split
    all_goals
      rename_i hc
      rw [hc] at hchunk
    · exact ih (MemInv.ite hchunk.smearChunk hchunk)
    · exact hlater hchunk
    · exact MemInv.ite hchunk.smearChunk hchunk

theorem MemInv.finishOp {s : State} {f : ℕ → ℕ} {o : Op} (h : MemInv s) : MemInv (s.finishOp f o) := by
  have hd : MemInv (s.dropOp o.id) := h.dropOp
  have hlate : ∀ w, MemInv (s.outlive w) := fun _ => h.outlive
  have hst : ∀ w, MemInv (s.storeNow w) := fun _ => h.storeNow
  have hbl : ∀ w, MemInv (s.blockNow w) := fun _ => h.blockNow
  unfold State.finishOp
  dsimp only
  split
  · exact MemInv.ite hd (MemInv.ite (hst _) (hlate _))
  · exact MemInv.ite hd (MemInv.ite (hst _) (hlate _))
  · exact MemInv.ite hd (MemInv.ite (hst _) (hlate _))
  · exact hst _
  · exact MemInv.ite (hlate _) (hst _)
  · exact MemInv.ite hd (MemInv.ite h.amoNow (hlate _))
  · exact MemInv.ite hd (MemInv.ite (hlate _) (MemInv.ite hd (hbl _)))
  · exact MemInv.ite hd (MemInv.ite (hbl _) (MemInv.foldl h fun _ _ hu => hu.noteBar).outlive)
  · exact hd.gainNow
  · split
    · exact hd.copyRest
    · exact hd
  · exact MemInv.ite (hlate _) hd
  · exact MemInv.ite (hlate _) hd
  · exact MemInv.ite (hlate _) hd
  · exact hd

theorem MemInv.flushOps {s : State} {p : Op → Bool} (h : MemInv s) : MemInv (s.flushOps p) :=
  MemInv.foldl h fun _ _ hu => hu.finishOp

theorem MemInv.finishFrozen {s : State} {o : Op} (h : MemInv s) : MemInv (s.finishFrozen o) := by
  unfold State.finishFrozen
  refine MemInv.ite h ?_
  split
  · split <;> exact h.finishOp
  · split <;> exact h.finishOp
  · split <;> exact h.finishOp
  · split <;> exact h.finishOp
  · split <;> exact h.finishOp
  · exact h

theorem MemInv.dropMsgs {s : State} {l : Launch} {c : CoreId} (h : MemInv s) : MemInv (s.dropMsgs l c) := by
  unfold State.dropMsgs
  dsimp only
  exact MemInv.ite h h.mirrorMembk.setCore

theorem MemInv.discardWork {s : State} {l : Launch} (h : MemInv s) : MemInv (s.discardWork l) :=
  (MemInv.foldl (MemInv.foldl h fun _ _ hu => hu.dropMsgs).onFrozen fun _ _ hu => hu.finishFrozen).onLaunch

theorem MemInv.settle {s : State} {l : Launch} {status : Word} (h : MemInv s) : MemInv (s.settle l status) := by
  unfold State.settle
  dsimp only
  split <;> exact MemInv.ite h h.signalAt

theorem MemInv.sweep {s : State} {l : Launch} (h : MemInv s) : MemInv (s.sweep l) :=
  h

theorem MemInv.passEntries {s : State} {gone : CopyE → Bool} (h : MemInv s) : MemInv (s.passEntries gone) :=
  MemInv.foldl h fun _ _ hu => MemInv.ite hu hu.setCopyQ.syncWhole

theorem MemInv.sweepCopies {s : State} {l : Launch} (h : MemInv s) : MemInv (s.sweepCopies l) :=
  h.passEntries

theorem MemInv.moveScratch {s : State} {ctx : Half} {from_ to_ n : ℕ} (h : MemInv s) : MemInv (s.moveScratch ctx from_ to_ n) := by
  unfold State.moveScratch
  extract_lets a b
  split
  · obtain ⟨hm, hh, hs⟩ := h
    exact ⟨hm, hh, Cells.rising_spliceAll hs _ _⟩
  · exact h.wr _

theorem MemInv.raiseAreas {s : State} {l : Launch} (h : MemInv s) : MemInv (s.raiseAreas l) :=
  MemInv.foldl h fun _ _ hu => (MemInv.foldl hu fun _ _ hu1 => (MemInv.onLaunch (MemInv.ite hu1
      (MemInv.foldl hu1 fun _ _ hu2 => hu2.moveScratch))))

theorem MemInv.closeOne {s : State} {e : Ending} (h : MemInv s) : MemInv (s.closeOne e) := by
  unfold State.closeOne
  extract_lets s1 d s2
  have h1 : MemInv s1 := h
  have h2 : MemInv s2 := by
    dsimp only [s2]
    split
    · rename_i he
      exact h1.writeCrec.of_eq he
    · exact h1
  exact MemInv.ite h h2.settle

theorem MemInv.close {s : State} (h : MemInv s) : MemInv s.close :=
  MemInv.foldl h fun _ _ hu => hu.closeOne

theorem MemInv.loosen {s : State} {lid : Half} (h : MemInv s) : MemInv (s.loosen lid) := by
  unfold State.loosen
  dsimp only
  split <;> exact h

theorem MemInv.endLaunchAt {s : State} {lid : Half} {status : ℕ} {stamp : Stamp} (h : MemInv s) : MemInv (s.endLaunchAt lid status stamp) := by
  unfold State.endLaunchAt
  split
  · exact h
  · exact MemInv.close (MemInv.loosen (MemInv.raiseAreas (MemInv.sweepCopies (MemInv.sweep (MemInv.ite (MemInv.writeResidue
      (MemInv.discardWork h.flushOps)) (MemInv.discardWork h.flushOps))))))

theorem MemInv.endLaunch {s : State} {lid : Half} {status : ℕ} (h : MemInv s) : MemInv (s.endLaunch lid status) := by
  unfold State.endLaunch
  exact MemInv.ite h h.endLaunchAt.stamped

theorem MemInv.stopFreezes {s : State} {ctx : Half} (h : MemInv s) : MemInv (s.stopFreezes ctx) := by
  unfold State.stopFreezes
  refine MemInv.foldl h fun _ _ hu => ?_
  split
  · exact hu
  · exact MemInv.ite hu ((MemInv.foldl hu.setBundle fun _ _ hu1 => hu1.setCore).endWith)

theorem MemInv.killContext {s : State} {ctx : Half} {cs : List KillCause} {msg who : Word} {by_ : Option TsId} (h : MemInv s) :
    MemInv (s.killContext ctx cs msg who by_) :=
  MemInv.stopFreezes (MemInv.flushOps (MemInv.stamped (MemInv.foldl h fun _ _ hu => hu.onLaunch.endLaunchAt)))

theorem MemInv.killFor {s : State} {o : Op} {c a : Word} (h : MemInv s) : MemInv (s.killFor o c a) := by
  unfold State.killFor
  exact MemInv.ite (MemInv.close (MemInv.ite h.dropOp h.dropOp.killContext)) h.dropOp.killContext

end Sys2Proof.Machine
end

section
/-!
The memories stay canonical: the operands and the scalar and memory instructions of Norson (Machine/Ops to Branch).
-/

namespace Sys2Proof.Machine

open Sys2Proof

theorem MemInv.tick {s : State} {t : TsId} {held : Bool} (h : MemInv s) : MemInv (s.tick t held) :=
  h

theorem MemInv.trapAccess {s : State} {t : TsId} (h : MemInv s) : MemInv (s.trapAccess t) :=
  MemInv.foldl h fun _ _ hu => MemInv.ite hu.storeNow hu

theorem MemInv.killByTrap {s : State} {t : TsId} {code : ℕ} {addr : Word} (h : MemInv s) : MemInv (s.killByTrap t code addr) := by
  unfold State.killByTrap
  dsimp only
  split
  · exact h
  · exact h.killContext

theorem MemInv.takeTrap {s : State} {t : TsId} {code : ℕ} {addr : Word} (h : MemInv s) : MemInv (s.takeTrap t code addr) := by
  unfold State.takeTrap
  extract_lets
  split
  · exact h
  · split
    · exact h.onLaunch.killByTrap
    · exact MemInv.ite h.onLaunch.killByTrap h.onLaunch.trapAccess.tsSet

theorem MemInv.dropParked {s : State} {t : TsId} (h : MemInv s) : MemInv (s.dropParked t) :=
  h

theorem MemInv.stallTs {s : State} {t : TsId} {r : Stall} (h : MemInv s) : MemInv (s.stallTs t r) :=
  h

theorem MemInv.commit {e : Exe} (h : MemInv e.s) : MemInv e.commit := by
  unfold Exe.commit
  split
  · exact h.tsSet.tick
  · exact h.tsSet.tick.storeSegs

/-- The end of an issue, from an attempt that keeps the memories. -/
theorem finish_keeps {s : State} (h : MemInv s) {t : TsId} {r : Except Stop Exe} (hr : Gives (fun e => MemInv e.s) r) :
    MemInv (finish s t r) := by
  unfold finish
  split
  · exact MemInv.commit hr
  · exact h.tick.takeTrap
  · exact h.dropParked.tick.takeTrap
  · exact h.stallTs

/-- A wait of the press only stops an attempt. -/
theorem Exe.run_gives {e : Exe} {f : Exe → Except Stop Exe} {P : Exe → Prop} (h : Gives P (f e)) : Gives P (e.run f) := by
  unfold Exe.run
  split
  · split <;> trivial
  · exact h

/-- A Norson instruction keeps the memories where its body does. -/
theorem issue_keeps {s : State} (h : MemInv s) {f : Exe → Except Stop Exe} (hf : ∀ e, MemInv e.s → Gives (fun e => MemInv e.s) (f e)) :
    Kept (issue s f) := by
  unfold issue
  split
  · split
    · exact finish_keeps h (Exe.run_gives (hf _ h))
    · exact h
  · exact h

theorem MemInv.onState {e : Exe} (h : MemInv e.s) {f : State → State} (hf : ∀ s, MemInv s → MemInv (f s)) : MemInv (e.onState f).s :=
  hf _ h.tsSet

theorem MemInv.popS {e : Exe} (h : MemInv e.s) : Gives (fun r => MemInv r.2.s) (e.popS) := by
  unfold Exe.popS
  split
  · trivial
  · trivial
  · trivial
  · exact Gives.skip fun _ => Gives.ok h

theorem MemInv.srcS {e : Exe} {r : Reg} (h : MemInv e.s) : Gives (fun r => MemInv r.2.s) (e.srcS r) := by
  unfold Exe.srcS
  exact Gives.ite (Gives.ok h) (Gives.ite h.popS (Gives.ite trivial (Gives.ite trivial (Gives.ok h))))

theorem MemInv.takeSsq {e : Exe} (h : MemInv e.s) : Gives (fun r => MemInv r.2.s) (e.takeSsq) := by
  unfold Exe.takeSsq
  split
  · trivial
  · exact Gives.skip fun _ => Gives.ok h

theorem MemInv.popV {e : Exe} (h : MemInv e.s) : Gives (fun r => MemInv r.2.s) (e.popV) := by
  unfold Exe.popV
  split
  · trivial
  · trivial
  · trivial
  · exact Gives.skip fun _ => Gives.ok h

theorem MemInv.srcV {e : Exe} {r : Reg} (h : MemInv e.s) : Gives (fun r => MemInv r.2.s) (e.srcV r) := by
  unfold Exe.srcV
  exact Gives.ite h.popV (Gives.ite trivial (Gives.ite trivial (Gives.ite trivial (Gives.ok h))))

theorem MemInv.takeVsq {e : Exe} (h : MemInv e.s) : Gives (fun r => MemInv r.2.s) (e.takeVsq) := by
  unfold Exe.takeVsq
  split
  · trivial
  · exact Gives.skip fun _ => Gives.ok h

theorem MemInv.count {e : Exe} (h : MemInv e.s) : MemInv (e.count).s :=
  h.countAt

theorem MemInv.store {e : Exe} {k : OpKind} {bs : List Block} {segs : List Seg} {d : List Byte} {f : Op → Op} (h : MemInv e.s) :
    Gives (fun e => MemInv e.s) (e.store k bs segs d f) := by
  unfold Exe.store
  dsimp only
  exact Gives.ite (Gives.ite trivial (Gives.skip fun _ => Gives.ok h)) (Gives.ok (MemInv.ite_exe h h))

theorem MemInv.flags {e : Exe} {fl : FFlags} (h : MemInv e.s) : Gives (fun e => MemInv e.s) (e.flags fl) := by
  unfold Exe.flags
  exact Gives.ite trivial (Gives.ok h)

theorem MemInv.cacheRead {s : State} {b : ℕ} {lid : Half} {bus n : ℕ} (h : MemInv s) : MemInv (s.cacheRead b lid bus n).2 := by
  unfold State.cacheRead
  extract_lets line off k
  split
  · split
    · exact h.setBundle
    · exact h
  · exact h.setBundle

theorem MemInv.window {e : Exe} {k : BitVec 3} {w : BitVec 17} {w32 : Bool} (h : MemInv e.s) :
    Gives (fun r => MemInv r.2.s) (e.window k w w32) := by
  unfold Exe.window
  refine Gives.ite trivial (Gives.ite trivial (Gives.skip fun bs => ?_))
  split
  · trivial
  · exact Gives.ite trivial (Gives.ite trivial h.cacheRead)

theorem MemInv.kop {e : Exe} {k : KOp} {w : Bool} (h : MemInv e.s) : Gives (fun r => MemInv r.2.s) (e.kop k w) := by
  unfold Exe.kop
  split
  · exact Gives.ok h
  · exact h.window

theorem aluR_keeps {s : State} {f : AluFn} {dz : Bool} {d a b : Reg} {w : Bool} (h : MemInv s) : Kept (aluR f dz d a b w s) := by
  refine issue_keeps h fun e he => Gives.bind he.srcS fun ⟨x, e⟩ he => Gives.bind he.srcS fun ⟨y, e⟩ he => ?_
  exact Gives.skip fun _ => Gives.ite trivial (Gives.next he)

theorem aluK_keeps {s : State} {f : AluFn} {dz : Bool} {d a : Reg} {w : Bool} {k : KOp} (h : MemInv s) : Kept (aluK f dz d a w k s) := by
  refine issue_keeps h fun e he => Gives.bind he.srcS fun ⟨x, e⟩ he => Gives.skip fun _ => ?_
  exact Gives.bind he.kop fun ⟨y, e⟩ he => Gives.ite trivial (Gives.next2 he)

theorem aluI_keeps {s : State} {f : Word → Word} {d a : Reg} (h : MemInv s) : Kept (aluI f d a s) := by
  exact issue_keeps h fun e he => Gives.bind he.srcS fun ⟨x, e⟩ he => Gives.skip fun _ => Gives.next he

theorem execLih_keeps {s : State} {d : Reg} {k : BitVec 2} {i : Half} (h : MemInv s) : Kept (execLih d k i s) := by
  exact issue_keeps h fun e he => Gives.bind he.srcS fun ⟨x, e⟩ he => Gives.skip fun _ => Gives.next he

theorem MemInv.load {e : Exe} {k : OpKind} {bs : List Block} {segs : List Seg} {n : ℕ} {f : Op → Op} (h : MemInv e.s) :
    Gives (fun e => MemInv e.s) (e.load k bs segs n f) := by
  unfold Exe.load
  exact Gives.skip fun _ => Gives.ok h

theorem execLd_keeps {s : State} {z : BitVec 2} {x : Bool} {xh : BitVec 2} {a : Reg} {i : Half} (h : MemInv s) : Kept (execLd z x xh a i s) := by
  refine issue_keeps h fun e he => Gives.bind he.srcS fun ⟨b, e⟩ he => Gives.skip fun _ => Gives.skip fun _ => ?_
  exact Gives.skip fun _ => Gives.bind he.load fun e he => Gives.next he

theorem execSt_keeps {s : State} {z xh : BitVec 2} {a : Reg} {i : Half} (h : MemInv s) : Kept (execSt z xh a i s) := by
  refine issue_keeps h fun e he => Gives.bind he.srcS fun ⟨b, e⟩ he => Gives.ite trivial (Gives.skip fun _ => ?_)
  exact Gives.skip fun _ => Gives.bind he.takeSsq fun ⟨v, e⟩ he => Gives.bind he.store fun e he => Gives.next he

theorem execVld_keeps {s : State} {xh : BitVec 2} {a : Reg} {i : Half} (h : MemInv s) : Kept (execVld xh a i s) := by
  refine issue_keeps h fun e he => Gives.bind he.srcS fun ⟨b, e⟩ he => Gives.skip fun _ => Gives.skip fun _ => ?_
  exact Gives.bind he.load fun e he => Gives.next he

theorem execVst_keeps {s : State} {xh : BitVec 2} {a : Reg} {i : Half} (h : MemInv s) : Kept (execVst xh a i s) := by
  refine issue_keeps h fun e he => Gives.bind he.srcS fun ⟨b, e⟩ he => Gives.ite trivial (Gives.skip fun _ => ?_)
  exact Gives.bind he.takeVsq fun ⟨v, e⟩ he => Gives.bind he.store fun e he => Gives.next he

theorem execPref_keeps {s : State} {l : BitVec 2} {a : Reg} {i : Half} (h : MemInv s) : Kept (execPref l a i s) := by
  refine issue_keeps h fun e he => Gives.bind he.srcS fun ⟨b, e⟩ he => ?_
  dsimp only
  split
  · split
    · exact Gives.next he
    · split
      · exact Gives.next he
      · exact Gives.bind he.load fun e he => Gives.next he
  · exact Gives.next he

theorem execVgath_keeps {s : State} {a b : Reg} {p t : BitVec 3} (h : MemInv s) : Kept (execVgath a b p t s) := by
  refine issue_keeps h fun e he => Gives.bind he.srcS fun ⟨base, e⟩ he => Gives.bind he.srcV fun ⟨x, e⟩ he => ?_
  exact Gives.skip fun _ => Gives.skip fun _ => Gives.skip fun _ => Gives.bind he.load fun e he => Gives.next he

theorem execVscat_keeps {s : State} {a b : Reg} {p t : BitVec 3} (h : MemInv s) : Kept (execVscat a b p t s) := by
  refine issue_keeps h fun e he => Gives.bind he.srcS fun ⟨base, e⟩ he => Gives.bind he.srcV fun ⟨x, e⟩ he => ?_
  refine Gives.ite trivial (Gives.skip fun _ => Gives.skip fun _ => Gives.bind he.takeVsq fun ⟨v, e⟩ he => ?_)
  exact Gives.bind he.store fun e he => Gives.next he

theorem block_keeps {s : State} {k : OpKind} {rd : Bool} {d a b : Reg} {n : BitVec 11} (h : MemInv s) : Kept (block k rd d a b n s) := by
  refine issue_keeps h fun e he => Gives.bind he.srcS fun ⟨src, e⟩ he => Gives.bind he.srcS fun ⟨dst, e⟩ he => ?_
  refine Gives.bind he.srcS fun ⟨h, e⟩ he => Gives.skip fun _ => Gives.skip fun _ => ?_
  refine Gives.ite trivial (Gives.ite trivial ?_)
  extract_lets len
  refine Gives.skip fun sb => Gives.skip fun db => Gives.skip fun _ => ?_
  extract_lets o e1
  have h1 : MemInv e1.s := MemInv.count (MemInv.pushOp he)
  exact Gives.next (MemInv.ite_exe (h1.onState fun _ hs => MemInv.foldl hs fun _ _ hu => hu.forgetRw _ _) h1)

theorem execCopy_keeps {s : State} {d a : Reg} (h : MemInv s) : Kept (execCopy d a s) := by
  refine issue_keeps h fun e he => ?_
  refine Gives.bind he.srcS fun ⟨h, e⟩ he => ?_
  refine Gives.bind he.srcV fun ⟨v, e⟩ he => ?_
  refine Gives.ite trivial (Gives.skip fun _ => Gives.skip fun _ => ?_)
  extract_lets q
  refine Gives.ite trivial (Gives.skip fun _ => ?_)
  extract_lets
  refine Gives.next (MemInv.onState ?_ fun _ hs => hs.setCopyQ.syncCopyQ)
  exact MemInv.count (MemInv.pushOp he)

theorem amo_keeps {s : State} {code : ℕ} {c : Option Reg} {a b : Reg} {w r m : Bool} {o : BitVec 2} (h : MemInv s) :
    Kept (amo code c a b w r m o s) := by
  refine issue_keeps h fun e he => Gives.bind he.srcS fun ⟨va, e⟩ he => Gives.bind he.srcS fun ⟨v, e⟩ he => ?_
  refine Gives.bind (P := fun r => MemInv r.2.s) ?_ fun ⟨k, e⟩ he => ?_
  · cases c with
    | some c => exact he.srcS
    | none => exact Gives.ok he
  · have hend : ∀ {d : Exe} op, MemInv d.s → Gives (fun e : Exe => MemInv e.s) (Exe.next (
        let e := (d.send op).nextSeq
        let e := if r then e else e.pushS d.s.nextId 0
        if o.getLsbD 0 then { e with x := ThreadSet.behind e.s e.x [d.s.nextId] } else e)) := fun op hd =>
      MemInv.ite_exe (MemInv.ite_exe (MemInv.pushOp hd) (MemInv.pushOp hd)) (MemInv.ite_exe (MemInv.pushOp hd) (MemInv.pushOp hd))
    refine Gives.ite (Gives.skip fun _ => ?_) ?_
    all_goals refine Gives.skip fun _ => Gives.skip fun bs => ?_
    all_goals refine Gives.ite (Gives.skip fun _ => Gives.skip fun _ => ?_) ?_
    all_goals refine Gives.skip fun _ => ?_
    all_goals exact hend _ (MemInv.ite_exe he he)

theorem MemInv.branch {e : Exe} {take : Bool} {off : Word} (h : MemInv e.s) : Gives (fun e => MemInv e.s) (e.branch take off) := by
  unfold Exe.branch
  exact Gives.ite (Gives.ok h) (Gives.next h)

theorem branchCmp_keeps {s : State} {rel : Word → Word → Bool} {a b : Reg} {o : BitVec 13} (h : MemInv s) : Kept (branchCmp rel a b o s) := by
  exact issue_keeps h fun e he => Gives.bind he.srcS fun ⟨x, e⟩ he => Gives.bind he.srcS fun ⟨y, e⟩ he => he.branch

theorem execBpa_keeps {s : State} {p : BitVec 3} {o : BitVec 13} (h : MemInv s) : Kept (execBpa p o s) := by
  exact issue_keeps h fun e he => Gives.skip fun _ => he.branch

theorem execBpn_keeps {s : State} {p : BitVec 3} {o : BitVec 13} (h : MemInv s) : Kept (execBpn p o s) := by
  exact issue_keeps h fun e he => Gives.skip fun _ => he.branch

theorem execJal_keeps {s : State} {d : Reg} {o : BitVec 21} (h : MemInv s) : Kept (execJal d o s) := by
  exact issue_keeps h fun e he => Gives.skip fun _ => MemInv.branch he

theorem execJr_keeps {s : State} {d a : Reg} {o : Half} (h : MemInv s) : Kept (execJr d a o s) := by
  refine issue_keeps h fun e he => Gives.bind he.srcS fun ⟨b, e⟩ he => Gives.skip fun _ => Gives.skip fun _ => ?_
  exact Gives.ok he

end Sys2Proof.Machine
end

section
/-!
The memories stay canonical: messages, pages, gain updates and system instructions (Machine/Msg, Pages, Gain, Sys).
-/

namespace Sys2Proof.Machine

open Sys2Proof

theorem MemInv.buffer {e : Exe} {b : Buffered} (h : MemInv e.s) : Gives (fun e => MemInv e.s) (e.buffer b) := by
  unfold Exe.buffer
  exact Gives.ite trivial (Gives.ok h)

theorem MemInv.sendTo {e : Exe} {t : CoreId} {xh : Word} {kind : ℕ} {sc : BitVec 3} {v : Vec} (h : MemInv e.s) :
    Gives (fun e => MemInv e.s) (e.sendTo t xh kind sc v) := by
  unfold Exe.sendTo
  exact Gives.ite trivial (Gives.bind h.buffer fun e he => Gives.next he)

theorem execSend_keeps {s : State} {v a b : Reg} {sc : BitVec 3} (h : MemInv s) : Kept (execSend v a b sc s) := by
  refine issue_keeps h fun e he => Gives.bind he.srcS fun ⟨h, e⟩ he => Gives.bind he.srcS fun ⟨d, e⟩ he => ?_
  exact Gives.bind he.srcV fun ⟨p, e⟩ he => Gives.ite trivial (Gives.skip fun _ => he.sendTo)

theorem execSendo_keeps {s : State} {v a b : Reg} {sc : BitVec 3} (h : MemInv s) : Kept (execSendo v a b sc s) := by
  refine issue_keeps h fun e he => Gives.bind he.srcS fun ⟨h, e⟩ he => Gives.bind he.srcS fun ⟨d, e⟩ he => ?_
  exact Gives.bind he.srcV fun ⟨p, e⟩ he => Gives.skip fun _ => he.sendTo

theorem execSpawn_keeps {s : State} {v : Reg} (h : MemInv s) : Kept (execSpawn v s) := by
  refine issue_keeps h fun e he => Gives.bind he.srcV fun ⟨x, e⟩ he => ?_
  dsimp only
  generalize leBytes 32 x.toNat = d
  have hb : Gives (fun e => MemInv e.s) (do let e ← e.buffer (.spawn d); e.next) := Gives.bind he.buffer fun _ he => Gives.next he
  cases e.launch with
  | none => exact hb
  | some l => exact Gives.ite (Gives.skip fun _ => hb) hb

theorem execBara_keeps {s : State} {v a : Reg} {g : Byte} {r : BitVec 3} (h : MemInv s) : Kept (execBara v a g r s) := by
  refine issue_keeps h fun e he => Gives.bind he.srcS fun ⟨h, e⟩ he => Gives.bind he.srcV fun ⟨x, e⟩ he => ?_
  exact Gives.ite trivial (Gives.bind he.buffer fun e he => Gives.next he)

theorem execLend_keeps {s : State} (h : MemInv s) : Kept (execLend s) := by
  exact issue_keeps h fun e he => Gives.bind he.buffer fun e he => Gives.next he

theorem execLnch_keeps {s : State} {v a : Reg} (h : MemInv s) : Kept (execLnch v a s) := by
  refine issue_keeps h fun e he => Gives.bind he.srcS fun ⟨d, e⟩ he => Gives.bind he.srcV fun ⟨x, e⟩ he => ?_
  refine Gives.skip fun _ => Gives.skip fun _ => Gives.skip fun _ => Gives.skip fun _ => ?_
  split
  · exact Gives.next he
  · refine Gives.ite trivial ?_
    dsimp only
    split
    · exact Gives.next he
    · exact Gives.next (MemInv.onState he fun _ hu => hu)

theorem MemInv.spawnSelf {s : State} {t : TsId} {a : Activation} {deps : List ℕ} {d : List Byte} (h : MemInv s) :
    MemInv (s.spawnSelf t a deps d) :=
  h.countAt.post

theorem MemInv.dequePush {s : State} {l : Launch} {c : CoreId} {o : ℕ} {r : DqRec} (h : MemInv s) : MemInv (s.dequePush l c o r) := by
  unfold State.dequePush
  split
  exact (h.wr _).onLaunch

theorem MemInv.releaseOne {s : State} {t : TsId} {a : Activation} {deps : List ℕ} {grp : ℕ} {b : Buffered} (h : MemInv s) :
    MemInv (State.releaseOne t a deps grp s b) := by
  unfold State.releaseOne
  split
  · exact MemInv.post (MemInv.ite h.tsSet h.tsSet.countAt)
  · split
    · exact h.spawnSelf
    · exact MemInv.ite h.countAt (MemInv.ite h.spawnSelf h.dequePush)
  · split
    · exact h
    · exact h.tsSet.countAt.onLaunch
  · exact h.onLaunch

theorem MemInv.releaseAll {s : State} {t : TsId} {a : Activation} (h : MemInv s) : MemInv (s.releaseAll t a) :=
  MemInv.tsSet (MemInv.foldl h fun _ _ hu => hu.releaseOne)

theorem MemInv.retirePile {s : State} {t : TsId} {a : Activation} {back mark : Bool} (h : MemInv s) : MemInv (s.retirePile t a back mark) := by
  unfold State.retirePile
  split <;> exact h

theorem MemInv.freeTs {s : State} {t : TsId} (h : MemInv s) : MemInv (s.freeTs t) :=
  h

theorem MemInv.sendSteal {s : State} {lid : Half} {o : ℕ} (h : MemInv s) : MemInv (s.sendSteal lid o) := by
  unfold State.sendSteal
  split
  · exact h
  · refine MemInv.ite h ?_
    dsimp only
    split <;> exact h

theorem MemInv.sendSteals {s : State} {lid : Half} (h : MemInv s) : MemInv (s.sendSteals lid) := by
  unfold State.sendSteals
  split
  · exact h
  · exact MemInv.ite h (MemInv.foldl h fun _ _ hu => hu.sendSteal)

theorem MemInv.askAll {s : State} {c : CoreId} (h : MemInv s) : MemInv (s.askAll c) :=
  MemInv.foldl h fun _ _ hu => hu.sendSteals

theorem execDone_keeps {s : State} (h : MemInv s) : Kept (execDone s) := by
  refine issue_keeps h fun e he => Gives.ite trivial (Gives.ite trivial (Gives.skip fun _ => Gives.skip fun _ => ?_))
  refine Gives.skip fun _ => Gives.skip fun _ => ?_
  split
  · exact Gives.ok (he.onState fun _ hu => hu.killByTrap)
  · exact Gives.ok (he.onState fun _ hu => hu.releaseAll.retirePile.onLaunch.freeTs.askAll)

theorem MemInv.onProg {s : State} {slot : ℕ} {f : Prog → Prog} (h : MemInv s) : MemInv (s.onProg slot f) :=
  h

theorem MemInv.setPState {s : State} {slot : ℕ} {st : PState} {tail : Bool} (h : MemInv s) : MemInv (s.setPState slot st tail) := by
  unfold State.setPState
  split <;> exact h

theorem MemInv.syncBlock {s : State} {slot : ℕ} (h : MemInv s) : MemInv (s.syncBlock slot) := by
  unfold State.syncBlock
  split
  · exact h
  · exact MemInv.foldl ((h.wrPhys _ _).wrPhys _ _) fun _ _ hu => (MemInv.ite hu (hu.wrPhys _ _))

theorem MemInv.clearBlock {s : State} {slot : ℕ} (h : MemInv s) : MemInv (s.clearBlock slot) := by
  unfold State.clearBlock
  split
  · exact h
  · exact MemInv.syncBlock (MemInv.ite (h.zeroRange _ _) (h.wr _))

theorem MemInv.setPage {s : State} {pti : ℕ} {e : PageE} (h : MemInv s) : MemInv (s.setPage pti e) :=
  MemInv.wrPhys (s := { s with pages := Assoc.set s.pages pti e }) h _ _

theorem MemInv.newPage {s : State} {img : Half} {frame refc fill hold use : ℕ} (h : MemInv s) :
    Yields (fun r => MemInv r.1) (s.newPage img frame refc fill hold use) := by
  unfold State.newPage
  split
  · trivial
  · exact MemInv.setPage h

theorem MemInv.takeFrame {s : State} {slot units : ℕ} (h : MemInv s) : Yields (fun r => MemInv r.1) (s.takeFrame slot units) := by
  unfold State.takeFrame
  split
  · trivial
  · exact h

theorem MemInv.handFrame {s : State} {frame units : ℕ} (h : MemInv s) : MemInv (s.handFrame frame units) := by
  unfold State.handFrame
  refine MemInv.ite h ?_
  split <;> exact h

theorem MemInv.dropFrames {s : State} {slot : ℕ} (h : MemInv s) : MemInv (s.dropFrames slot) :=
  MemInv.foldl h fun _ _ hu => hu.handFrame

theorem MemInv.giveTier {s : State} {tier loc units : ℕ} (h : MemInv s) : MemInv (s.giveTier tier loc units) := by
  unfold State.giveTier
  split
  · exact h.handFrame
  · exact h
  · exact h

theorem MemInv.release {s : State} {pti : ℕ} (h : MemInv s) : MemInv (s.release pti) := by
  unfold State.release
  dsimp only
  exact MemInv.ite h (MemInv.ite h.setPage.giveTier.giveTier h.setPage.giveTier)

theorem MemInv.onPage {s : State} {pti : ℕ} {f : PageE → PageE} (h : MemInv s) : MemInv (s.onPage pti f) :=
  h.setPage

theorem MemInv.setLc {s : State} {cid : ℕ} {c : LCtx} (h : MemInv s) : MemInv (s.setLc cid c) := by
  unfold State.setLc
  extract_lets t
  have ht : MemInv t := h
  exact MemInv.ite ht (ht.wrPhys _ _)

theorem MemInv.onLc {s : State} {cid : ℕ} {f : LCtx → LCtx} (h : MemInv s) : MemInv (s.onLc cid f) :=
  h.setLc

theorem MemInv.ctxNew {s : State} {img : Half} {slot : ℕ} (h : MemInv s) : Yields (fun r => MemInv r.1) (s.ctxNew img slot) := by
  unfold State.ctxNew
  split
  · trivial
  · exact MemInv.setLc h

theorem MemInv.ctxFork {s : State} {src slot : ℕ} (h : MemInv s) : Yields (fun r => MemInv r.1) (s.ctxFork src slot) := by
  unfold State.ctxFork
  split
  · trivial
  · exact MemInv.foldl (MemInv.setLc h) fun _ _ hu => hu.onPage

theorem MemInv.quarantine {s : State} {cid : ℕ} (h : MemInv s) : MemInv (s.quarantine cid) :=
  MemInv.onLc h

theorem MemInv.ctxDrop {s : State} {cid : ℕ} (h : MemInv s) : MemInv (s.ctxDrop cid) := by
  unfold State.ctxDrop
  dsimp only
  exact MemInv.ite h (MemInv.foldl (MemInv.ite (MemInv.foldl h fun _ _ hu => hu.onPage).setLc.quarantine
      (MemInv.foldl h fun _ _ hu => hu.onPage).setLc) fun _ _ hu => hu.release)

theorem MemInv.copyLines {s : State} {img : Half} {src dst f : ℕ} (h : MemInv s) : MemInv (s.copyLines img src dst f) :=
  (h.wrPhys _ _).wrPhys _ _

theorem MemInv.relist {s : State} {cid i pti : ℕ} (h : MemInv s) : MemInv (s.relist cid i pti) :=
  MemInv.setLc (MemInv.ite h.onPage h)

theorem MemInv.detachBegin {s : State} {cid i f frame : ℕ} (h : MemInv s) : MemInv (s.detachBegin cid i f frame) := by
  unfold State.detachBegin
  exact h.onPage.onLc

theorem MemInv.detachEnd {s : State} {cids : List ℕ} {d : Detach} (h : MemInv s) : MemInv (s.detachEnd cids d) := by
  unfold State.detachEnd
  dsimp only
  split
  · exact h.copyLines
  · rename_i he
    exact (MemInv.foldl (h.copyLines.newPage.of_eq he) fun _ _ hu => hu.relist).onPage.release

theorem MemInv.detachWhole {s : State} {cids : List ℕ} {i f frame : ℕ} (h : MemInv s) : MemInv (s.detachWhole cids i f frame) := by
  unfold State.detachWhole
  split
  · exact h
  · exact h.onPage.detachEnd

theorem MemInv.detachUndo {s : State} {cid : ℕ} (h : MemInv s) : MemInv (s.detachUndo cid) := by
  unfold State.detachUndo
  split
  · exact h
  · refine (MemInv.onPage ?_).onLc.handFrame
    split
    · exact h
    · exact h.setPage

theorem MemInv.markWrite {s : State} {mark : Word} {line : ℕ} {d : List Byte} {token : Word32} (h : MemInv s) :
    MemInv (s.markWrite mark line d token).1 := by
  unfold State.markWrite
  dsimp only
  split
  · exact h
  · refine MemInv.ite_fst h (MemInv.ite_fst h (MemInv.ite_fst h ?_))
    exact MemInv.ite_fst ((h.wrPhys _ _).setPage) (((h.wrPhys _ _).wrPhys _ _).setPage)

theorem gain_keeps {s : State} {op : ℕ} {a b : Reg} {m : Bool} (h : MemInv s) : Kept (gain op a b m s) := by
  refine issue_keeps h fun e he => Gives.bind he.srcS fun ⟨x, e⟩ he => Gives.bind he.srcS fun ⟨v, e⟩ he => ?_
  exact Gives.skip fun _ => Gives.skip fun _ => Gives.next he

theorem execGget_keeps {s : State} {a : Reg} (h : MemInv s) : Kept (execGget a s) := by
  refine issue_keeps h fun e he => Gives.bind he.srcS fun ⟨x, e⟩ he => Gives.skip fun _ => Gives.skip fun _ => ?_
  exact Gives.skip fun _ => Gives.next he

theorem execFenceAcq_keeps {s : State} {sc : BitVec 3} (h : MemInv s) : Kept (execFenceAcq sc s) := by
  exact issue_keeps h fun e he => Gives.skip fun _ => Gives.next he

theorem execFenceRel_keeps {s : State} {sc : BitVec 3} (h : MemInv s) : Kept (execFenceRel sc s) := by
  exact issue_keeps h fun e he => Gives.skip fun _ => Gives.next he

theorem execFenceFull_keeps {s : State} {sc : BitVec 3} (h : MemInv s) : Kept (execFenceFull sc s) := by
  exact issue_keeps h fun e he => Gives.skip fun _ => Gives.skip fun _ => Gives.next he

theorem execSpill_keeps {s : State} {d a : Reg} {n : BitVec 3} (h : MemInv s) : Kept (execSpill d a n s) := by
  refine issue_keeps h fun e he => Gives.bind he.srcS fun ⟨b, e⟩ he => Gives.skip fun _ => Gives.skip fun _ => ?_
  exact Gives.bind he.srcV fun ⟨v, e⟩ he => Gives.next he

theorem execFill_keeps {s : State} {d a : Reg} {n : BitVec 3} (h : MemInv s) : Kept (execFill d a n s) := by
  refine issue_keeps h fun e he => Gives.bind he.srcS fun ⟨b, e⟩ he => Gives.skip fun _ => Gives.skip fun _ => ?_
  exact Gives.next he

theorem execTokw_keeps {s : State} {n : BitVec 3} (h : MemInv s) : Kept (execTokw n s) := by
  exact issue_keeps h fun e he => Gives.ite trivial (Gives.next he)

theorem execGetsr_keeps {s : State} {d : Reg} {n : BitVec 12} (h : MemInv s) : Kept (execGetsr d n s) := by
  refine issue_keeps h fun e he => ?_
  split
  · trivial
  · exact Gives.skip fun _ => Gives.next he

theorem execSetsr_keeps {s : State} {a : Reg} {n : BitVec 12} (h : MemInv s) : Kept (execSetsr a n s) := by
  refine issue_keeps h fun e he => ?_
  split
  · trivial
  · exact Gives.bind he.srcS fun ⟨v, e⟩ he => Gives.next he

theorem execNop_keeps {s : State} (h : MemInv s) : Kept (execNop s) := by
  exact issue_keeps h fun e he => Gives.next he

theorem MemInv.endRun {s : State} (h : MemInv s) : MemInv s.endRun := by
  unfold State.endRun
  split
  · exact MemInv.ite h.tsSet h
  · exact h

theorem execYield_keeps {s : State} (h : MemInv s) : Kept (execYield s) := by
  have hi : Kept (issue s fun e => e.next) := issue_keeps h fun e he => Gives.next he
  unfold execYield
  split
  · rename_i hu
    rw [hu] at hi
    exact MemInv.endRun hi
  · exact hi

theorem MemInv.breakRecord {s : State} {ctx : Half} {d : List Byte} (h : MemInv s) : MemInv (s.breakRecord ctx d) := by
  unfold State.breakRecord
  split <;> exact h

theorem execBrk_keeps {s : State} {a : Reg} {c : BitVec 4} (h : MemInv s) : Kept (execBrk a c s) := by
  exact issue_keeps h fun e he => Gives.bind he.srcS fun ⟨v, e⟩ he => Gives.next (MemInv.ite_exe he.breakRecord he)

theorem execTrap_keeps {s : State} {a : Reg} {c : BitVec 4} (h : MemInv s) : Kept (execTrap a c s) := by
  refine issue_keeps h fun e he => Gives.bind he.srcS fun ⟨v, _⟩ he => ?_
  trivial

theorem MemInv.returnWork {s : State} {t : TsId} {a : Activation} (h : MemInv s) : MemInv (s.returnWork t a) := by
  unfold State.returnWork
  split
  · exact h.setCore
  · split
    · exact h
    · exact h.dequePush
  · exact h

theorem MemInv.trapEnds {s : State} {t : TsId} (h : MemInv s) : MemInv (s.trapEnds t) :=
  h.freeTs.tsSet.askAll

theorem tret_keeps {s : State} {retry : Bool} (h : MemInv s) : Kept (tret retry s) := by
  refine issue_keeps h fun e he => Gives.ite trivial (Gives.ite trivial (Gives.skip fun _ => Gives.skip fun _ => ?_))
  refine Gives.skip fun _ => Gives.skip fun _ => ?_
  split
  · exact Gives.ok (he.onState fun _ hu => hu.killByTrap)
  · exact Gives.ok (he.onState fun _ hu => (MemInv.trapEnds (MemInv.ite hu.releaseAll.retirePile.returnWork
      hu.releaseAll.retirePile.onLaunch)))

theorem execTretKill_keeps {s : State} (h : MemInv s) : Kept (execTretKill s) := by
  refine issue_keeps h fun e he => Gives.ite trivial (Gives.ite trivial ?_)
  exact Gives.ok (he.onState fun _ hu => hu.killContext)

theorem execGatew_keeps {s : State} {a b : Reg} (h : MemInv s) : Kept (execGatew a b s) := by
  refine issue_keeps h fun e he => Gives.skip fun _ => Gives.bind he.srcS fun ⟨x, e⟩ he => ?_
  refine Gives.bind he.srcS fun ⟨va, e⟩ he => Gives.skip fun _ => Gives.ite trivial (Gives.skip fun _ => ?_)
  refine Gives.skip fun _ => Gives.skip fun _ => Gives.skip fun _ => ?_
  dsimp only
  split
  · exact Gives.next (MemInv.foldl he fun _ _ hu => hu.noteBar)
  · split <;> exact Gives.next (MemInv.foldl he fun _ _ hu => hu.noteBar)

theorem execFreeze_keeps {s : State} {a b : Reg} (h : MemInv s) : Kept (execFreeze a b s) := by
  refine issue_keeps h fun e he => ?_
  refine Gives.skip fun _ => Gives.bind he.srcS fun ⟨x, e⟩ he => Gives.bind he.srcS fun ⟨blk, e⟩ he => Gives.skip fun _ => ?_
  refine Gives.ite trivial (Gives.skip fun _ => Gives.skip fun _ => Gives.skip fun _ => ?_)
  extract_lets bn ctx k id
  refine Gives.ite trivial (Gives.ite (Gives.next he) (Gives.ite (Gives.next he) (Gives.ite (Gives.next he) (Gives.ite trivial ?_))))
  have hp : MemInv (e.pending .freeze fun o => { o with addr := blk, operand := x }).s := he
  exact Gives.next (hp.onState fun _ hs => hs)

theorem execThaw_keeps {s : State} {a b : Reg} (h : MemInv s) : Kept (execThaw a b s) := by
  refine issue_keeps h fun e he => ?_
  refine Gives.skip fun _ => Gives.bind he.srcS fun ⟨x, e⟩ he => Gives.bind he.srcS fun ⟨blk, e⟩ he => Gives.skip fun _ => ?_
  refine Gives.ite trivial (Gives.skip fun _ => Gives.skip fun _ => Gives.skip fun _ => Gives.skip fun _ => ?_)
  extract_lets bn ctx k ident id
  refine Gives.ite trivial (Gives.ite (Gives.next he) (Gives.ite (Gives.next he) (Gives.ite (Gives.next he) ?_)))
  have hp : MemInv (e.pending .thaw fun o => { o with addr := blk, operand := x }).s := he
  exact Gives.next (hp.onState fun _ hs => hs)

theorem execKtlb_keeps {s : State} {a b : Reg} (h : MemInv s) : Kept (execKtlb a b s) := by
  refine issue_keeps h fun e he => Gives.skip fun _ => Gives.bind he.srcS fun ⟨x, e⟩ he => ?_
  refine Gives.bind he.srcS fun ⟨n, e⟩ he => Gives.skip fun _ => Gives.ite trivial (Gives.ite trivial ?_)
  exact Gives.skip fun _ => Gives.skip fun _ => Gives.next (MemInv.onState he fun _ hu => hu)

theorem execMarkq_keeps {s : State} {a b : Reg} {g : Bool} (h : MemInv s) : Kept (execMarkq a b g s) := by
  refine issue_keeps h fun e he => Gives.bind he.srcS fun ⟨m, e⟩ he => Gives.bind he.srcS fun ⟨t, e⟩ he => ?_
  exact Gives.skip fun _ => Gives.ite trivial (Gives.skip fun _ => Gives.skip fun _ => Gives.next he)

end Sys2Proof.Machine
end

section
/-!
The memories stay canonical: the front end and the messages under way (Machine/FrontEnd, MsgEvents).
-/

namespace Sys2Proof.Machine

open Sys2Proof

theorem MemInv.setQwait {s : State} {x : QWait} (h : MemInv s) : MemInv (s.setQwait x) :=
  h

theorem MemInv.takePacket {s : State} {src : PacketSrc} {lid : Option Half} (h : MemInv s) : MemInv (s.takePacket src lid) := by
  unfold State.takePacket
  split
  · split
    · exact h
    · exact h.setQwait.wr64 _ _
  · exact h
  · exact h
  · exact h

theorem MemInv.refuseLaunch {s : State} {l : Launch} {status : ℕ} (h : MemInv s) : MemInv (s.refuseLaunch l status) :=
  MemInv.settle (MemInv.ite (MemInv.getD h h.writeCrec) (MemInv.ite h h))

theorem forgetBut_keeps {s : State} {c : CoreId} {l : List (ℕ × ℕ)} {lo hi : ℕ} (h : MemInv s) : MemInv (forgetBut c l lo hi s) := by
  induction l generalizing s lo hi with
  | nil => exact MemInv.ite (h.forget _ _) h
  | cons x r ih => exact MemInv.ite h (MemInv.ite (ih h) (ih (ih h)))

theorem MemInv.shareScratch {s : State} {l : Launch} {c : CoreId} (h : MemInv s) : MemInv (s.shareScratch l c) := by
  unfold State.shareScratch
  exact MemInv.ite h (forgetBut_keeps h)

theorem MemInv.startScratch {s : State} {l : Launch} {b : ℕ} {shared : Bool} (h : MemInv s) : MemInv (s.startScratch l b shared) := by
  unfold State.startScratch
  refine MemInv.foldl (MemInv.foldl (MemInv.ite (MemInv.foldl h fun _ _ hu => hu.shareScratch)
      (h.forget _ _)) fun _ _ hu => hu.setCore) fun _ _ hu => ?_
  split
  · exact hu
  · split
    · exact hu
    · exact MemInv.foldl hu fun _ _ hu1 => (hu1.wrRw _)

theorem MemInv.newVectors {s : State} {lid : Half} {bs : List ℕ} (h : MemInv s) : MemInv (s.newVectors lid bs) :=
  h

theorem MemInv.startLaunch {s : State} {l : Launch} {bs : List ℕ} (h : MemInv s) : MemInv (s.startLaunch l bs) := by
  unfold State.startLaunch
  dsimp only
  exact MemInv.ite h.refuseLaunch (MemInv.post (MemInv.ite (MemInv.foldl
      (MemInv.foldl h.setLaunch.newVectors fun _ _ hu => hu.startScratch) fun _ _ hu => hu.setPile)
      (MemInv.foldl h.setLaunch.newVectors fun _ _ hu => hu.startScratch)))

theorem MemInv.placeLaunch {s : State} {l : Launch} (h : MemInv s) : MemInv (s.placeLaunch l) := by
  unfold State.placeLaunch
  refine MemInv.ite h.refuseLaunch ?_
  split
  · exact h.startLaunch
  · exact h.setLaunch

theorem MemInv.admitLaunch {s : State} {l : Launch} {t : Tables} (h : MemInv s) : MemInv (s.admitLaunch l t) :=
  MemInv.placeLaunch h

theorem MemInv.acceptLaunch {s : State} {l : Launch} (h : MemInv s) : Yields MemInv (s.acceptLaunch l) := by
  unfold State.acceptLaunch
  split
  · exact h.refuseLaunch
  · trivial
  · exact h.admitLaunch

theorem execLaunchPacket_keeps {s : State} {src : PacketSrc} {hint : ℕ} (h : MemInv s) : Kept (execLaunchPacket src hint s) := by
  unfold execLaunchPacket
  split
  · refine Kept.ite h ?_
    extract_lets l s1 s2 s3
    have h1 : MemInv s1 := h.takePacket.stamped
    have h2 : MemInv s2 := by
      dsimp only [s2]
      split
      · exact h1
      · exact h1
    have h3 : MemInv s3 := h2
    clear_value s3
    split
    · exact h
    · split
      · exact Kept.next h3.refuseLaunch
      · exact h3
      · split
        · exact Kept.next h3.publish
        · exact Kept.next h3.admitLaunch
  · exact h

theorem execDependPacket_keeps {s : State} {q : ℕ} (h : MemInv s) : Kept (execDependPacket q s) := by
  unfold execDependPacket
  split
  · exact h
  · refine Kept.ite h ?_
    dsimp only
    exact Kept.ite h.takePacket h.takePacket.setQwait.publish

theorem execSignalPacket_keeps {s : State} {src : PacketSrc} (h : MemInv s) : Kept (execSignalPacket src s) := by
  unfold execSignalPacket
  split
  · exact h
  · refine Kept.ite h ?_
    dsimp only
    exact MemInv.ite h.takePacket h.takePacket.signalAt

theorem execFetchFencePacket_keeps {s : State} {q : ℕ} (h : MemInv s) : Kept (execFetchFencePacket q s) := by
  unfold execFetchFencePacket
  split
  · exact h
  · exact Kept.ite h h.takePacket.setQwait

theorem execFetchFenceRelease_keeps {s : State} {q : ℕ} (h : MemInv s) : Kept (execFetchFenceRelease q s) := by
  unfold execFetchFenceRelease
  exact Kept.ite h.setQwait h

theorem execStampPacket_keeps {s : State} {src : PacketSrc} (h : MemInv s) : Kept (execStampPacket src s) := by
  unfold execStampPacket
  split
  · exact h
  · refine Kept.ite h ?_
    dsimp only
    split
    · exact h.takePacket.stamped.wrBlocks
    · exact MemInv.getD h.takePacket.stamped h.takePacket.stamped.wrTarget

theorem MemInv.clearSlot {s : State} {a : ℕ} (h : MemInv s) : MemInv (s.clearSlot a) :=
  h.wrRw _

theorem execSlotFire_keeps {s : State} {addr : ℕ} (h : MemInv s) : Kept (execSlotFire addr s) := by
  have hc : MemInv (s.clearSlot addr) := h.clearSlot
  have hr : ∀ l, MemInv ((s.clearSlot addr).refuseLaunch l 7) := fun _ => hc.refuseLaunch
  have ha : ∀ l, MemInv (((s.clearSlot addr).acceptLaunch l).getD s) := fun _ => h.getD hc.acceptLaunch
  unfold execSlotFire
  generalize s.clearSlot addr = u at hc hr ha
  extract_lets done pub
  clear_value done pub
  refine Kept.ite h ?_
  split
  · split
    · exact h
    · rename_i l _ _
      refine Kept.ite (hr l) ?_
      cases s.acceptLaunch l with
      | none => exact h
      | some _ => exact ha l
  · split
    · exact h
    · exact Kept.ite hc h

theorem execPendingLaunchPlace_keeps {s : State} {lid : Half} (h : MemInv s) : Kept (execPendingLaunchPlace lid s) := by
  unfold execPendingLaunchPlace
  split
  · exact h
  · exact Kept.ite h (Kept.ite h h.placeLaunch)

theorem MemInv.dropFlight {s : State} {id : ℕ} (h : MemInv s) : MemInv (s.dropFlight id) :=
  h

theorem MemInv.stealEnds {s : State} {lid : Option Half} {f : Flight} (h : MemInv s) : MemInv (s.stealEnds lid f) := by
  unfold State.stealEnds
  exact MemInv.ite h.onLaunch h

theorem MemInv.atFirewall {s : State} {f : Flight} (h : MemInv s) : MemInv (s.atFirewall f) := by
  unfold State.atFirewall
  refine MemInv.ite h ?_
  extract_lets
  split <;> exact h

theorem MemInv.ackFlight {s : State} {f : Flight} (h : MemInv s) : MemInv (s.ackFlight f) := by
  unfold State.ackFlight
  split
  · exact h.dropOp
  · exact h

theorem MemInv.sendAway {s : State} {f : Flight} {d : ℕ} (h : MemInv s) : MemInv (s.sendAway f d) := by
  unfold State.sendAway
  split <;> exact h

theorem execMessageArrival_keeps {s : State} {id : ℕ} (h : MemInv s) : Kept (execMessageArrival id s) := by
  unfold execMessageArrival
  split
  · exact h
  · refine Kept.ite h ?_
    split
    · exact h.sendAway
    · split
      · exact h.dropFlight.atFirewall.ackFlight
      · split
        · rename_i he
          exact (h.enter.of_eq he).dropFlight.stealEnds.ackFlight
        · split
          · split
            · exact h.dropFlight.endLaunch
            · exact h
          · exact Kept.ite h (Kept.next h)

theorem execMessageHoldTimeout_keeps {s : State} {id : ℕ} (h : MemInv s) : Kept (execMessageHoldTimeout id s) := by
  unfold execMessageHoldTimeout
  split
  · split
    · exact Kept.ite h.endLaunch h
    · exact h
  · split
    · exact Kept.ite h.endLaunch h
    · exact h

theorem MemInv.forgetScratch {s : State} {c : CoreId} (h : MemInv s) : MemInv (s.forgetScratch c) :=
  forgetBut_keeps h

theorem MemInv.begin {s : State} {t : TsId} {a : Activation} (h : MemInv s) : MemInv (s.begin t a) := by
  unfold State.begin
  dsimp only
  split
  · exact h.forgetScratch.tsSet
  · exact MemInv.ite h.forgetScratch.tsSet.setLaunch.stamped h.forgetScratch.tsSet

theorem MemInv.startMsg {s : State} {t : TsId} {m : Msg} (h : MemInv s) : MemInv (s.startMsg t m) :=
  h.mirrorMembk.setCore.begin

theorem MemInv.startTask {s : State} {t : TsId} {l : Launch} (h : MemInv s) : MemInv (s.startTask t l) := by
  unfold State.startTask
  split
  · exact h
  · split
    · split
      · exact h
      · exact MemInv.ite h h.setLaunch.begin

theorem execActivationStart_keeps {s : State} {t : TsId} (h : MemInv s) : Kept (execActivationStart t s) := by
  unfold execActivationStart
  dsimp only
  refine Kept.ite h ?_
  split
  · split
    · exact h.startMsg
    · exact Kept.ite h h.startTask
  · split
    · exact h.startMsg
    · exact h

theorem execStealRequest_keeps {s : State} {id : ℕ} (h : MemInv s) : Kept (execStealRequest id s) := by
  unfold execStealRequest
  split
  · extract_lets
    split
    · exact Kept.next h
    · split
      · extract_lets
        split
        · exact Kept.ite (Kept.next (MemInv.sendSteal (MemInv.post (MemInv.countAt (MemInv.setLaunch h))))) (Kept.next h)
        · exact Kept.next h
  · exact h

theorem execEmptyStealReply_keeps {s : State} {id : ℕ} (h : MemInv s) : Kept (execEmptyStealReply id s) := by
  unfold execEmptyStealReply
  split
  · exact Kept.next (MemInv.sendSteal (MemInv.onLaunch h))
  · exact h

theorem MemInv.cleanRound {s : State} {l : Launch} (h : MemInv s) : MemInv (s.cleanRound l) := by
  unfold State.cleanRound
  refine MemInv.ite h.endLaunch (MemInv.ite h.endLaunch (MemInv.ite (MemInv.ite h.endLaunch h.setLaunch) ?_))
  exact MemInv.ite h.endLaunch h.setLaunch

theorem execRinseTokenVisit_keeps {s : State} {lid : Half} (h : MemInv s) : Kept (execRinseTokenVisit lid s) := by
  unfold execRinseTokenVisit
  split
  · exact h
  · extract_lets k b p own sum stain s1 l1
    have h1 : MemInv s1 := MemInv.ite h.setPile h
    exact Kept.ite h (Kept.ite h1.setLaunch (Kept.ite h1 (Kept.ite h1.setLaunch h1.setLaunch.cleanRound)))

theorem MemInv.baraComplete {s : State} {lid : Half} {g : ℕ} (h : MemInv s) : MemInv (s.baraComplete lid g) := by
  unfold State.baraComplete
  split
  · exact h
  · dsimp only
    exact MemInv.ite h (MemInv.foldl h.setLaunch fun _ _ hu => hu.post)

theorem MemInv.baraAll {s : State} {lid : Half} {g fuel : ℕ} (h : MemInv s) : MemInv (s.baraAll lid g fuel) := by
  induction fuel generalizing s with
  | zero => exact h
  | succ n ih => exact ih h.baraComplete

theorem execBaraArrival_keeps {s : State} {id : ℕ} (h : MemInv s) : Kept (execBaraArrival id s) := by
  unfold execBaraArrival
  split
  · exact h
  · split
    · exact h
    · dsimp only
      exact Kept.ite h h.dropOp.remember.setLaunch.baraAll

end Sys2Proof.Machine
end

section
/-!
The memories stay canonical: outstanding operations, the presses and the Pile engines (Machine/Press, MemEvents, PileEvents, PressEvents).
-/

namespace Sys2Proof.Machine

open Sys2Proof

theorem MemInv.press {e : Exe} {w : Instr} {f : PressCmd → PressCmd} (h : MemInv e.s) : Gives (fun e => MemInv e.s) (e.press w f) := by
  unfold Exe.press
  exact Gives.ite trivial (Gives.ok h)

theorem execMma_keeps {s : State} {a b sl : BitVec 3} {f g : BitVec 4} {z k j : Bool} {n : BitVec 3} (h : MemInv s) :
    Kept (execMma a b sl f g z k j n s) := by
  refine issue_keeps h fun e he => Gives.skip fun _ => ?_
  split
  · exact Gives.ite trivial (Gives.ite trivial (Gives.ite trivial (Gives.bind he.press fun e he => Gives.next he)))
  · trivial

theorem MemInv.forgetOverlaps {s : State} {c : CoreId} {base len : ℕ} {l : List (ℕ × ℕ)} (h : MemInv s) :
    MemInv (s.forgetOverlaps c base len l) := by
  induction l generalizing s with
  | nil => exact h
  | cons r rest ih => exact ih (MemInv.ite (h.forget _ _) h)

theorem execMring_keeps {s : State} {a b : Reg} {n : BitVec 3} (h : MemInv s) : Kept (execMring a b n s) := by
  refine issue_keeps h fun e he => Gives.skip fun _ => Gives.bind he.srcS fun ⟨base, e⟩ he => ?_
  refine Gives.bind he.srcS fun ⟨v, e⟩ he => Gives.ite trivial (Gives.skip fun _ => Gives.ite trivial ?_)
  exact Gives.ite trivial (Gives.ite trivial (Gives.next (he.onState fun _ hu => (hu.setCore.wr _).forgetOverlaps)))

theorem execMradv_keeps {s : State} {a : Reg} {n : BitVec 3} (h : MemInv s) : Kept (execMradv a n s) := by
  refine issue_keeps h fun e he => Gives.skip fun _ => Gives.bind he.srcS fun ⟨v, e⟩ he => ?_
  dsimp only
  split
  · trivial
  · exact Gives.ite trivial (Gives.skip fun _ => Gives.next (he.onState fun _ hs => hs.wr32 _ _))

theorem execMzero_keeps {s : State} {sl : BitVec 2} (h : MemInv s) : Kept (execMzero sl s) := by
  exact issue_keeps h fun e he => Gives.skip fun _ => Gives.bind he.press fun e he => Gives.next he

theorem execMst_keeps {s : State} {d a b : Reg} {m : BitVec 3} {sl : BitVec 2} (h : MemInv s) : Kept (execMst d a b m sl s) := by
  refine issue_keeps h fun e he => Gives.skip fun _ => Gives.bind he.srcS fun ⟨va, e⟩ he => ?_
  refine Gives.bind he.srcS fun ⟨st, e⟩ he => Gives.bind he.srcS fun ⟨h, e⟩ he => Gives.skip fun _ => ?_
  refine Gives.ite trivial (Gives.ite trivial (Gives.skip fun _ => Gives.bind he.press fun e he => ?_))
  exact Gives.next (MemInv.count he)

theorem MemInv.killReplay {s : State} {o : Op} {c : Cause} {a : Word} (h : MemInv s) : MemInv (s.killReplay o c a) :=
  h.killContext

theorem MemInv.markqNow {s : State} {o : Op} (h : MemInv s) : MemInv (s.markqNow o) := by
  unfold State.markqNow
  split
  · exact h
  · refine MemInv.ite h ?_
    split
    exact MemInv.dropOp (MemInv.ite h.fillS.fillS h)

theorem execLoadPerformed_keeps {s : State} {id : ℕ} (h : MemInv s) : Kept (execLoadPerformed id s) := by
  unfold execLoadPerformed
  split
  · exact h
  · refine Kept.ite h ?_
    split
    · split
      · exact h.dropOp.killReplay
      · exact h.loadPiece
    · split
      · exact h.dropOp.killReplay
      · exact h.loadPiece
    · split
      · exact h.dropOp.killReplay
      · exact h.loadPiece
    · exact h.dropOp
    · exact h.markqNow
    · exact Kept.ite h h.endWith
    · exact h

theorem execStoreTaken_keeps {s : State} {id : ℕ} (h : MemInv s) : Kept (execStoreTaken id s) := by
  unfold execStoreTaken
  split
  · exact h
  · exact Kept.ite (MemInv.ite h.storePiece.close h.storePiece) h

theorem MemInv.acked {t : State} {s : State} {o : Op} (h : MemInv t) : MemInv (t.acked s o) := by
  unfold State.acked
  split <;> exact h

theorem execAmoPerform_keeps {s : State} {id : ℕ} (h : MemInv s) : Kept (execAmoPerform id s) := by
  unfold execAmoPerform
  split
  · exact h
  · extract_lets bad
    clear_value bad
    refine Kept.ite (MemInv.dropOp (MemInv.ite h.fillS h)) (Kept.ite h (Kept.ite h.amoNow.close ?_))
    cases bad with
    | none => exact h.amoNow.acked
    | some x =>
      dsimp only
      exact Kept.ite h.dropOp.killReplay h.amoNow

theorem execSpillComplete_keeps {s : State} {id : ℕ} (h : MemInv s) : Kept (execSpillComplete id s) := by
  unfold execSpillComplete
  split
  · exact h
  · exact Kept.ite h.storeNow h

theorem execFillDeliver_keeps {s : State} {id : ℕ} (h : MemInv s) : Kept (execFillDeliver id s) := by
  unfold execFillDeliver
  split
  · exact h
  · exact Kept.ite h h.fillNow

theorem execHeldAccessResume_keeps {s : State} {id : ℕ} (h : MemInv s) : Kept (execHeldAccessResume id s) := by
  unfold execHeldAccessResume
  split
  · exact h
  · dsimp only
    refine Kept.ite h ?_
    split
    · exact Kept.ite (MemInv.ite h.storeNow h) h.setOp
    · exact h

theorem execHeldAccessFail_keeps {s : State} {id : ℕ} (h : MemInv s) : Kept (execHeldAccessFail id s) := by
  unfold execHeldAccessFail
  split
  · exact h
  · refine Kept.ite h ?_
    split
    · exact h
    · have hk : ∀ o c a, Kept (.next (s.killFor o c a)) := fun _ _ _ => h.killFor
      have hq : ∀ (o : Op) c a b, Kept (if o.q ≠ 0 then .next ((s.fillBad o .xlate a).dropOp id) else .next (s.killFor o c b)) :=
        fun _ _ _ _ => Kept.ite h.fillBad.dropOp (hk _ _ _)
      refine Kept.ite h.dropOp.killReplay (Kept.ite h.setOp ?_)
      split
      · exact hq _ _ _ _
      · exact hq _ _ _ _
      · exact hq _ _ _ _
      · exact hq _ _ _ _
      · exact hk _ _ _
      · exact hk _ _ _
      · exact hk _ _ _
      · exact h.dropOp

theorem MemInv.blockDone {s : State} {o : Op} {kind scope : ℕ} (h : MemInv s) : MemInv (s.blockDone o kind scope) := by
  unfold State.blockDone
  refine MemInv.ite h ?_
  split
  · exact MemInv.ite h.dropOp.close (MemInv.ite h.dropOp.killReplay h.tsSet.dropOp)
  · extract_lets
    refine MemInv.ite h.blockNow.close (MemInv.ite h.blockNow ?_)
    split
    · rename_i he
      exact h.blockNow.enter.of_eq he
    · exact MemInv.post h.blockNow

theorem execBrdComplete_keeps {s : State} {id : ℕ} (h : MemInv s) : Kept (execBrdComplete id s) := by
  unfold execBrdComplete
  split
  · exact Kept.ite h.blockDone h
  · exact h

theorem execBwrComplete_keeps {s : State} {id : ℕ} (h : MemInv s) : Kept (execBwrComplete id s) := by
  unfold execBwrComplete
  split
  · exact Kept.ite h.blockDone h
  · exact h

theorem MemInv.copyDone {s : State} {q : CopyQ} {e : CopyE} {o : Op} {status : ℕ} (h : MemInv s) : MemInv (s.copyDone q e o status) := by
  unfold State.copyDone
  split
  · exact h
  · rename_i he
    exact (h.enter.of_eq he).setCopyQ.syncCopyQ.dropOp

theorem execCopyEngineChunk_keeps {s : State} {ctx : Half} {level : ℕ} (h : MemInv s) : Kept (execCopyEngineChunk ctx level s) := by
  unfold execCopyEngineChunk
  extract_lets q
  split
  · exact h
  · rename_i e o _
    refine Kept.ite h ?_
    extract_lets captured x v f total put done smeared rest
    have hput : ∀ {u} n, MemInv u → MemInv (put u n).1 := fun n hu => hu.setCopyQ.syncCopyQ
    have hdone : ∀ {r} st, MemInv r.1 → MemInv (done r st) := fun st hr => MemInv.ite hr hr.copyDone
    refine Kept.ite (hdone 0 h) ?_
    have hrest : ∀ {u} n, MemInv u → MemInv (rest u n).1 := fun n hu => hput n (MemInv.ite hu.smearChunk hu)
    have hchunk : MemInv (s.copyChunk f v e.desc e.prog).1 := h.copyChunk
    split
    all_goals
      rename_i hc
      rw [hc] at hchunk
    · exact h
    · exact Kept.next (MemInv.ite (hdone 0 (hrest _ hchunk)) (hrest _ hchunk))
    · exact hdone _ (hrest _ hchunk)

theorem execMstComplete_keeps {s : State} {id : ℕ} (h : MemInv s) : Kept (execMstComplete id s) := by
  unfold execMstComplete
  split
  · exact h
  · refine Kept.ite h ?_
    split
    · exact h.killFor.close
    · exact h
    · exact MemInv.ite h.storeNow.close h.storeNow.deliver

theorem execTranslationWalkComplete_keeps {s : State} {b : ℕ} {ctx : Half} {va : Word} (h : MemInv s) :
    Kept (execTranslationWalkComplete b ctx va s) := by
  unfold execTranslationWalkComplete
  refine Kept.ite h ?_
  split
  · exact h
  · exact h.setBundle

theorem execWatchdogExpiry_keeps {s : State} {t : TsId} (h : MemInv s) : Kept (execWatchdogExpiry t s) := by
  unfold execWatchdogExpiry
  dsimp only
  exact Kept.ite h h.tick.takeTrap

theorem execSoftError_keeps {s : State} {x : SoftTarget} (h : MemInv s) : Kept (execSoftError x s) := by
  unfold execSoftError
  split
  · exact h.tsSet
  · exact h.tsSet
  · exact h.tsSet
  · exact h.tsSet
  · split <;> exact Kept.next h

theorem MemInv.logFor {s : State} {b : ℕ} {f : Frozen} {lid : Half} {e : ULogEntry} (h : MemInv s) : MemInv (s.logFor b f lid e) := by
  unfold State.logFor
  refine MemInv.ite ((h.setFrozen.wr _).wr _) (MemInv.ite h.endLaunch ?_)
  split
  · exact h.setFrozen.wr _
  · exact h.endLaunch

theorem MemInv.spawnAll {s : State} {lid : Half} {home grp : ℕ} (h : MemInv s) : MemInv (s.spawnAll lid home grp) := by
  unfold State.spawnAll
  dsimp only
  refine MemInv.ite h ?_
  split
  · refine MemInv.foldl h fun _ _ hu => ?_
    split
    · exact hu.logFor
    · exact hu
  · split
    · exact MemInv.setPile h
    · exact h

theorem execSpawnArrive_keeps {s : State} {id : ℕ} (h : MemInv s) : Kept (execSpawnArrive id s) := by
  unfold execSpawnArrive
  split
  · exact Kept.ite h h.spawnAll
  · exact h

theorem MemInv.applyGain {s : State} {lid : Half} {home : ℕ} {o : Op} (h : MemInv s) : MemInv (s.applyGain lid home o) := by
  unfold State.applyGain
  refine MemInv.ite h.endLaunch ?_
  split
  exact MemInv.dropOp (MemInv.ite h.setPile.remember.mirrorWindow.onLaunch h.setPile.remember.mirrorWindow)

theorem execGainUpdateApply_keeps {s : State} {id : ℕ} (h : MemInv s) : Kept (execGainUpdateApply id s) := by
  unfold execGainUpdateApply
  split
  · exact h
  · split
    · exact h
    · extract_lets home own before
      refine Kept.ite h ?_
      split
      · exact Kept.ite h h.logFor
      · exact Kept.ite h.dropOp (Kept.ite h h.applyGain.acked)
      · exact MemInv.dropOp (MemInv.ite h.fillS h)
      · exact h

theorem execPileSample_keeps {s : State} {lid : Half} (h : MemInv s) : Kept (execPileSample lid s) := by
  unfold execPileSample
  split
  · exact h
  · exact Kept.ite h (Kept.next (MemInv.foldl h.setLaunch fun _ _ hu => MemInv.ite hu hu.setPile))

theorem execPileBroadcastReceive_keeps {s : State} {lid : Half} {b : ℕ} (h : MemInv s) : Kept (execPileBroadcastReceive lid b s) := by
  unfold execPileBroadcastReceive
  split
  · exact h
  · split
    · exact h
    · exact h.setPile

theorem MemInv.fetch {s : State} {lid : Half} {t : TsId} {r : PileRec} {home : ℕ} (h : MemInv s) : MemInv (s.fetch lid t r home) :=
  h

theorem execPileOffer_keeps {s : State} {t : TsId} (h : MemInv s) : Kept (execPileOffer t s) := by
  unfold execPileOffer
  extract_lets c b
  split
  · exact h
  · rename_i l _
    extract_lets urgent other p m dispatch q steal fits
    have hd : ∀ r, MemInv (dispatch r) := fun _ => h
    have hs : ∀ n, MemInv (steal n) := fun _ => h
    refine Kept.ite h (Kept.ite h ?_)
    split
    · exact hd _
    · exact Kept.ite (hd _) (Kept.ite (hs _) (hd _))
    · exact Kept.ite (hs _) h
    · exact h

theorem execPileStealRequest_keeps {s : State} {id : ℕ} (h : MemInv s) : Kept (execPileStealRequest id s) := by
  unfold execPileStealRequest
  split
  · extract_lets s1 p
    have h1 : MemInv s1 := h
    split
    · exact h1
    · split
      · exact h1
      · exact Kept.ite h1 h1
  · exact h

theorem MemInv.giveBack {s : State} {id : ℕ} {lid : Half} {home : ℕ} {r : PileRec} {t : TsId} (h : MemInv s) :
    MemInv (s.giveBack id lid home r t) :=
  h

theorem execPileStealReply_keeps {s : State} {id : ℕ} (h : MemInv s) : Kept (execPileStealReply id s) := by
  unfold execPileStealReply
  split
  · split
    · exact Kept.next h
    · refine Kept.ite h ?_
      dsimp only
      split
      · exact MemInv.ite (Kept.next (MemInv.giveBack (MemInv.setPile h))) (Kept.next (MemInv.fetch (MemInv.setPile h)))
      · exact Kept.ite (Kept.next (MemInv.fetch (MemInv.setPile (MemInv.setPile h)))) (Kept.next (MemInv.setPile h))
      · exact Kept.next (MemInv.setPile h)
  · exact h

theorem execFootprintFetchComplete_keeps {s : State} {id : ℕ} (h : MemInv s) : Kept (execFootprintFetchComplete id s) := by
  unfold execFootprintFetchComplete
  split
  · split
    · exact h
    · extract_lets c base
      refine Kept.ite h.giveBack ?_
      split
      · exact h
      · have hd : MemInv { s with pnet := s.pnet.filter (fun e => decide (e.1 ≠ id)) } := h
        refine Kept.ite h ?_
        split
        · exact Kept.next hd.begin
        · exact Kept.ite h (Kept.next (hd.wr _).begin)
  · exact h

theorem execPileRetire_keeps {s : State} {id : ℕ} (h : MemInv s) : Kept (execPileRetire id s) := by
  unfold execPileRetire
  split
  · split
    · exact h
    · dsimp only
      refine Kept.ite h (Kept.ite (MemInv.ite (Kept.next h) (Kept.next (MemInv.setPile h))) ?_)
      split
      · exact h.killContext
      · exact Kept.ite h (MemInv.ite (Kept.next h.wrBlocks) (Kept.next (MemInv.setPile h.wrBlocks)))
  · exact h

theorem MemInv.useBank {s : State} {b : ℕ} {lid : Half} {f : AccBank → AccBank} (h : MemInv s) : MemInv (s.useBank b lid f) :=
  h.setBundle

theorem MemInv.popPress {s : State} {b c n : ℕ} (h : MemInv s) : MemInv (s.popPress b c n) :=
  h.setCore.setBundle

theorem execPressCommandStart_keeps {s : State} {b : ℕ} (h : MemInv s) : Kept (execPressCommandStart b s) := by
  unfold execPressCommandStart
  split
  · split
    · exact Kept.ite h.useBank.setBundle h
    · exact h
  · exact h

theorem MemInv.advance {s : State} {c : CoreId} {r : Ring} {n : ℕ} (h : MemInv s) : MemInv (s.advance c r n) :=
  h.wr32 _ _

theorem execMmaRetire_keeps {s : State} {b : ℕ} (h : MemInv s) : Kept (execMmaRetire b s) := by
  unfold execMmaRetire
  split
  · exact h
  · dsimp only
    split
    · split
      · exact Kept.next (MemInv.setBundle (MemInv.popPress (MemInv.ite (MemInv.ite h.useBank h.useBank.advance) (MemInv.advance
          (MemInv.ite h.useBank h.useBank.advance)))))
      · exact h
    · exact h

theorem execMzeroExecute_keeps {s : State} {b : ℕ} (h : MemInv s) : Kept (execMzeroExecute b s) := by
  unfold execMzeroExecute
  split
  · split
    · exact Kept.ite h.useBank.popPress h
    · exact h
  · exact h

theorem execMstExecute_keeps {s : State} {b : ℕ} (h : MemInv s) : Kept (execMstExecute b s) := by
  unfold execMstExecute
  split
  · split
    · split
      · extract_lets s1 ps d ctx a o
        have h1 : MemInv s1 := h.useBank
        have h2 : MemInv { s1 with ops := s1.ops ++ [o], nextId := s1.nextId + 1 } := h1
        exact Kept.next (MemInv.popPress h2)
      · exact h
    · exact h
  · exact h

theorem MemInv.saveBank {s : State} {b : ℕ} {x : AccBank} (h : MemInv s) : MemInv (s.saveBank b x) := by
  unfold State.saveBank
  dsimp only
  split
  · exact h.setBundle
  · exact (h.wrPhys _ _).setBundle

theorem MemInv.loadBank {s : State} {b : ℕ} {lid : Half} (h : MemInv s) : MemInv (s.loadBank b lid) :=
  h.setBundle

theorem execAccumulatorBankSwap_keeps {s : State} {b : ℕ} (h : MemInv s) : Kept (execAccumulatorBankSwap b s) := by
  unfold execAccumulatorBankSwap
  split
  · exact h
  · refine Kept.ite h (Kept.ite h.loadBank ?_)
    split
    · exact h
    · exact h.saveBank.loadBank

end Sys2Proof.Machine
end

section
/-!
The memories stay canonical: FREEZE and THAW (Machine/FreezeEvents).
-/

namespace Sys2Proof.Machine

open Sys2Proof

theorem MemInv.capture {s : State} {c : CoreId} {ctx : Half} {blk : ℕ} (h : MemInv s) : MemInv (s.capture c ctx blk) :=
  MemInv.foldl h fun _ _ hu => hu.tsSet

theorem execFreezeCapturePoint_keeps {s : State} {core : ℕ} (h : MemInv s) : Kept (execFreezeCapturePoint core s) := by
  unfold execFreezeCapturePoint
  dsimp only
  split
  · exact h
  · exact Kept.ite h h.capture

theorem MemInv.saveDeque {s : State} {l : Launch} {c : CoreId} {ps : List (ℕ × ℕ)} {at_ : ℕ} (h : MemInv s) :
    MemInv (s.saveDeque l c ps at_) := by
  unfold State.saveDeque
  split
  · exact h
  · split
    exact (h.wrPhys _ _).wrPhys _ _

theorem MemInv.saveCore {s : State} {f : Frozen} {c : CoreId} {base : ℕ} (h : MemInv s) : MemInv (s.saveCore f c base) :=
  MemInv.foldl (((h.wrPhys _ _).wrPhys _ _).wrPhys _ _) fun _ _ hu => ((((((hu.wrPhys _ _).wrPhys _ _).wrPhys _ _).wrPhys _ _).wrPhys _
      _).wrPhys _ _)

theorem MemInv.saveBundle {s : State} {b : ℕ} {f : Frozen} (h : MemInv s) : MemInv (s.saveBundle b f) := by
  unfold State.saveBundle
  extract_lets cores ls second s0 s1 s2 s3 s4 s5 s6 s7 s8 s9 s10 s11
  clear_value second
  have h2 : MemInv s2 := (h.clearPhys.wrPhys _ _).wrPhys _ _
  have h3 : MemInv s3 := by
    dsimp only [s3]
    split
    · exact h2
    · exact (h2.wrPhys _ _).wrPhys _ _
  have h4 : MemInv s4 := by
    dsimp only [s4]
    split
    · exact h3
    · exact (h3.wrPhys _ _).wrPhys _ _
  have h7 : MemInv s7 := ((h4.wrPhys _ _).wrPhys _ _).wrPhys _ _
  have h8 : MemInv s8 := MemInv.foldl h7 fun _ _ hu => MemInv.foldl hu fun _ _ ht => ht.saveDeque
  have h9 : MemInv s9 := by
    dsimp only [s9]
    split
    · exact h8
    · exact (h8.wrPhys _ _).clearPhys.wrPhys _ _
  exact (MemInv.foldl h9.clearPhys fun _ _ hu => hu.saveCore).wr64 _ _

theorem MemInv.clearRinse {s : State} {b : ℕ} {ctx : Half} (h : MemInv s) : MemInv (s.clearRinse b ctx) :=
  MemInv.foldl h fun _ _ hu => hu.setLaunch

theorem execFreezeComplete_keeps {s : State} {b : ℕ} (h : MemInv s) : Kept (execFreezeComplete b s) := by
  unfold execFreezeComplete
  dsimp only
  split
  · exact Kept.ite h ((MemInv.foldl (MemInv.foldl (MemInv.foldl h.saveBundle.setBundle fun _ _ hu => hu.saveBank) fun _ _ hu =>
      hu.syncBlock) fun _ _ hu => hu.setCore).clearRinse.endWith)
  · exact h

theorem MemInv.replayOne {s : State} {ctx : Half} {ls : List Launch} {t : TsId} {ps : List (ℕ × ℕ)} {p : ℕ} {d x m : List Byte}
    (h : MemInv s) :
    MemInv (s.replayOne ctx ls t ps p d x m).1 := by
  unfold State.replayOne
  split
  · exact h
  · extract_lets o src
    clear_value src
    refine MemInv.ite_fst h ?_
    have hend : ∀ {u : State} {y : ThreadSet} {o : Op}, MemInv u → MemInv
        (({ u with ops := u.ops ++ [o] } : State).tsSet t y) := fun hu => hu
    cases src with
    | none =>
      dsimp only
      split
      · exact h.killReplay
      · exact hend h
    | some r =>
      dsimp only
      split
      · exact MemInv.killReplay h.setCopyQ
      · exact hend h.setCopyQ

theorem thawTs_keeps {ctx : Half} {ls : List Launch} {base : ℕ} {ps : List (ℕ × ℕ)} {a : State × Bool} (h : MemInv a.1) {t : TsId} :
    MemInv (State.thawTs ctx ls base ps a t).1 := by
  unfold State.thawTs
  refine MemInv.ite_fst h ?_
  extract_lets s at_ d point x act x es
  have hs : MemInv s := h
  exact MemInv.foldl_fst (a := (s.tsSet t x, true)) hs.tsSet fun a _ ha => by
    exact MemInv.ite_fst ha.replayOne ha

theorem MemInv.bindsBack {s : State} {src : State} {ls : List Launch} {at_ i : ℕ} (h : MemInv s) : MemInv (State.bindsBack src ls at_ s i) := by
  unfold State.bindsBack
  split
  · exact h
  · split
    · exact h
    · exact h.onLaunch

theorem MemInv.rinseBack {s : State} {src : State} {ls : List Launch} {binds at_ i : ℕ} (h : MemInv s) :
    MemInv (State.rinseBack src ls binds at_ s i) := by
  unfold State.rinseBack
  split
  · exact h
  · split
    · exact h
    · exact h.onLaunch

theorem MemInv.dequeBack {s : State} {src : State} {ps : List (ℕ × ℕ)} {at_ : ℕ} {c : CoreId} {l : Launch} (h : MemInv s) :
    MemInv (State.dequeBack src ps at_ c s l) := by
  unfold State.dequeBack
  split
  · exact h
  · exact MemInv.ite h h.onLaunch

theorem MemInv.thawCore {s : State} {src : State} {b : ℕ} {f : Frozen} {ls : List Launch} {two : Bool} {i : ℕ} (h : MemInv s) :
    MemInv (State.thawCore b f ls two src s i) := by
  unfold State.thawCore
  extract_lets c base old ps bound k l1 rings pq bk s1 s2
  have h2 : MemInv s2 := ⟨h.1, h.2.1, Cells.rising_spliceAll h.2.2 _ _⟩
  refine MemInv.foldl h2 fun _ _ hu => ?_
  split
  · exact hu.dequeBack
  · exact hu

theorem MemInv.thawAbsent {s : State} {b : ℕ} {f : Frozen} {i : ℕ} (h : MemInv s) : MemInv (State.thawAbsent b f s i) := by
  unfold State.thawAbsent
  dsimp only
  split
  · exact h
  · exact h.setCore

theorem MemInv.applyLog {s : State} {b : ℕ} {g : List ULogEntry} (h : MemInv s) : MemInv (State.applyLog b s g) := by
  unfold State.applyLog
  split
  · exact h
  · dsimp only
    refine MemInv.ite h ?_
    split
    · exact h.setPile
    · exact MemInv.foldl h fun _ _ hu => hu
  · split
    · exact h
    · exact MemInv.ite h h.applyGain

theorem MemInv.thaw {s : State} {b : ℕ} {f : Frozen} (h : MemInv s) : MemInv (s.thaw b f) := by
  unfold State.thaw
  extract_lets ls src k st two here piles b0 s1 s2 s3 s4 s5 s6 s7 s8 held
  have h1 : MemInv s1 := h
  have h2 : MemInv s2 := MemInv.foldl h1 fun _ _ hu => hu.thawCore
  have h3 : MemInv s3 := MemInv.foldl h2 fun _ _ hu => hu.thawAbsent
  have h4 : MemInv s4 := MemInv.foldl h3 fun _ _ hu => hu.rinseBack
  have h5 : MemInv s5 := MemInv.foldl h4 fun _ _ hu => hu.bindsBack
  have h6 : MemInv s6 := MemInv.ite (MemInv.foldl (MemInv.foldl h5 fun _ _ hu => hu.rinseBack) fun _ _ hu => hu.bindsBack) h5
  have h7 : MemInv s7 := by
    dsimp only [s7]
    split
    · exact h6
    · exact MemInv.foldl h6 fun _ _ hu => hu.applyLog
  exact MemInv.foldl_fst (a := (s7, true)) h7 fun _ _ ha => MemInv.foldl_fst ha fun _ _ hb => thawTs_keeps hb

theorem execThawComplete_keeps {s : State} {b : ℕ} (h : MemInv s) : Kept (execThawComplete b s) := by
  unfold execThawComplete
  dsimp only
  split
  · exact h
  · exact MemInv.foldl (h.thaw.wr64 _ _).endWith fun _ _ hu => hu.sendSteals

theorem execMarkedReplayArrival_keeps {s : State} {id : ℕ} (h : MemInv s) : Kept (execMarkedReplayArrival id s) := by
  unfold execMarkedReplayArrival
  split
  · exact h
  · split
    · exact h
    · refine Kept.ite h (Kept.ite (MemInv.ite h.dropOp.close h) ?_)
      split
      · extract_lets m s1 s2
        have h1 : MemInv s1 := MemInv.ite h.onLaunch h
        have h2 : MemInv s2 := h1.dropOp
        split
        · exact MemInv.dropOp (MemInv.ite h1.fillS h1)
        · split
          · exact h1
          · split
            · exact Kept.next h2.post
            · exact h2
        · exact h2
      · exact Kept.ite h.onLaunch.dropOp.killReplay h

end Sys2Proof.Machine
end

section
/-!
The memories stay canonical: the instructions of Livik (Machine/Livik, LivikShort, LivikLong).
-/

namespace Sys2Proof.Machine

open Sys2Proof

theorem MemInv.hostPut {s : State} {p : Prog} {cls : ℕ} {tag val retn : Word} {pay : List Byte} (h : MemInv s) :
    MemInv (s.hostPut p cls tag val retn pay) :=
  MemInv.onProg (MemInv.wr64 (MemInv.wrPhys (MemInv.ite h (h.wrPhys _ _)) _ _) _ _)

theorem MemInv.notice {s : State} {slot : ℕ} {tag : Word} {rec : Vec} (h : MemInv s) : MemInv (s.notice slot tag rec) := by
  unfold State.notice
  split
  · exact h
  · exact MemInv.ite h.onProg h.hostPut

theorem MemInv.endNotice {s : State} {slot : ℕ} (h : MemInv s) : MemInv (s.endNotice slot) := by
  unfold State.endNotice
  split
  · exact h
  · exact h.notice

theorem MemInv.wrSys {s : State} {a : ℕ} {d : List Byte} (h : MemInv s) : MemInv (s.wrSys a d) := by
  unfold State.wrSys
  exact MemInv.ite (h.hostWr _) (h.wrPhys _ _)

theorem MemInv.unbusy {s : State} {slot : ℕ} (h : MemInv s) : MemInv (s.unbusy slot) :=
  h

theorem MemInv.setMangle {s : State} {m : Mangle} (h : MemInv s) : MemInv (s.setMangle m) :=
  h

theorem MemInv.openWindow {s : State} {slot : ℕ} (h : MemInv s) : MemInv (s.openWindow slot) := by
  unfold State.openWindow
  split
  · exact h
  · split
    · exact h
    · dsimp only
      exact MemInv.ite h h.setMangle

theorem MemInv.unpark {s : State} (h : MemInv s) : MemInv s.unpark := by
  unfold State.unpark
  refine MemInv.foldl h fun _ _ hu => ?_
  split
  · exact hu
  · exact MemInv.ite hu.onProg.setPState.openWindow hu

theorem MemInv.agentKill {s : State} {slot code : ℕ} (h : MemInv s) : MemInv (s.agentKill slot code) := by
  unfold State.agentKill
  split
  · exact h
  · refine MemInv.unpark (MemInv.syncBlock (MemInv.endNotice (MemInv.dropFrames (MemInv.unbusy (MemInv.ite ?_ (MemInv.ctxDrop ?_))))))
    · split
      · exact h.onProg.setPState.detachUndo
      · exact h.onProg.setPState
    · split
      · exact h.onProg.setPState.detachUndo
      · exact h.onProg.setPState

theorem MemInv.parkProg {s : State} {slot : ℕ} {w : List ParkWait} (h : MemInv s) : MemInv (s.parkProg slot w) := by
  unfold State.parkProg
  exact MemInv.ite h.agentKill h.onProg.setPState.syncBlock

theorem MemInv.pass {s : State} (h : MemInv s) : MemInv s.pass :=
  h

/-- A Livik instruction keeps the memories where its body does. -/
theorem livik_keeps {s : State} (h : MemInv s) {f : State → Prog → Except LStop State} (hf : ∀ s p, MemInv s → Gives MemInv (f s p)) :
    Kept (livik s f) := by
  unfold livik
  split
  · split
    · exact h
    · rename_i p _
      have hp := hf s.pass p h.pass
      refine Kept.ite h (Kept.ite h.pass.agentKill ?_)
      split
      · rename_i he
        rw [he] at hp
        exact hp
      · exact h.pass.agentKill
      · exact h.pass.parkProg
      · exact h
  · exact h

theorem MemInv.retireTo {s : State} {slot pc : ℕ} {f : Prog → Prog} (h : MemInv s) : MemInv (s.retireTo slot pc f) :=
  h.onProg

theorem MemInv.retire {s : State} {p : Prog} {f : Prog → Prog} (h : MemInv s) : MemInv (s.retire p f) :=
  h.retireTo

theorem MemInv.awaitTake {s : State} {p : Prog} {a : LReg} {b : LIdx} {e : MboxE} {rest : List MboxE} (h : MemInv s) :
    MemInv (s.awaitTake p a b e rest) :=
  h.retire

theorem MemInv.mailEnter {s : State} {slot : ℕ} {e : MboxE} (h : MemInv s) : MemInv (s.mailEnter slot e) := by
  unfold State.mailEnter
  dsimp only
  split
  · exact h.onProg
  · split
    · split
      · split
        · exact h.onProg.awaitTake.setPState
        · exact h.onProg
      · exact h.onProg
    · exact h.onProg

theorem execAset_keeps {s : State} {a : LIdx} {i : Word32} (h : MemInv s) : Kept (execAset a i s) := by
  exact livik_keeps h fun s p hs => Gives.ok hs.retire

theorem acalc_keeps {s : State} {a b c : LIdx} {f : Word → Word → Word} (h : MemInv s) : Kept (acalc a b c f s) := by
  exact livik_keeps h fun s p hs => Gives.ok hs.retire

theorem execGoto_keeps {s : State} {i : Word32} (h : MemInv s) : Kept (execGoto i s) := by
  exact livik_keeps h fun s p hs => Gives.ok hs.retireTo

theorem execGoif_keeps {s : State} {a : LIdx} {i : Word32} (h : MemInv s) : Kept (execGoif a i s) := by
  exact livik_keeps h fun s p hs => Gives.ok hs.retireTo

theorem execGosub_keeps {s : State} {i : Word32} (h : MemInv s) : Kept (execGosub i s) := by
  exact livik_keeps h fun s p hs => Gives.ite trivial (Gives.ok hs.retireTo)

theorem execGoret_keeps {s : State} (h : MemInv s) : Kept (execGoret s) := by
  refine livik_keeps h fun s p hs => ?_
  split
  · trivial
  · exact Gives.ok hs.retireTo

theorem execEndp_keeps {s : State} (h : MemInv s) : Kept (execEndp s) := by
  refine livik_keeps h fun s p hs => ?_
  exact Gives.ok (MemInv.syncBlock (MemInv.dropFrames (MemInv.ite hs.retireTo.setPState hs.retireTo.setPState.endNotice)))

/-- A short instruction that a program does once keeps the memories where its effect does. -/
theorem onceAt_keeps {s : State} (h : MemInv s) {owner : ℕ} {p : Prog} {g : Prog → Word → Prog} {f : State → Except LStop (State × Word)}
    (hf : Gives (fun r => MemInv r.1) (f s)) :
    Gives MemInv (onceAt owner p s g f) := by
  unfold onceAt
  split
  · exact Gives.ok h.retire
  · exact Gives.bind hf fun _ hr => Gives.ok (MemInv.retire hr)

theorem once_keeps {s : State} (h : MemInv s) {p : Prog} {g : Prog → Word → Prog} {f : State → Except LStop (State × Word)} (hf : Gives
    (fun r => MemInv r.1) (f s)) :
    Gives MemInv (once p s g f) :=
  onceAt_keeps h hf

theorem execCtxnew_keeps {s : State} {a b : LIdx} (h : MemInv s) : Kept (execCtxnew a b s) := by
  refine livik_keeps h fun s p hs => once_keeps hs (Gives.ite trivial ?_)
  split
  · trivial
  · refine Gives.ite trivial ?_
    split
    · trivial
    · rename_i he
      exact Gives.ok (hs.ctxNew.of_eq he)

theorem execCtxfork_keeps {s : State} {a b : LIdx} (h : MemInv s) : Kept (execCtxfork a b s) := by
  refine livik_keeps h fun s p hs => once_keeps hs (Gives.skip fun c => Gives.skip fun _ => ?_)
  split
  · trivial
  · rename_i he
    exact Gives.ok (hs.ctxFork.of_eq he)

theorem execCtxdrop_keeps {s : State} {a : LIdx} (h : MemInv s) : Kept (execCtxdrop a s) := by
  refine livik_keeps h fun s p hs => Gives.bind (P := MemInv) ?_ fun t hs => ?_
  · exact once_keeps hs (Gives.skip fun _ => Gives.skip fun _ => Gives.ok hs.ctxDrop)
  · exact Gives.ok hs.unpark

theorem MemInv.trim {s : State} {slot cid len : ℕ} (h : MemInv s) : Gives MemInv (s.trim slot cid len) := by
  unfold State.trim
  refine Gives.ite trivial (Gives.ite trivial (Gives.ite trivial (Gives.ite trivial ?_)))
  refine Gives.ok (MemInv.foldl (MemInv.ite ?_ (MemInv.ite (MemInv.foldl h.setLc fun _ _ hu => hu.onPage).onPage
      (MemInv.foldl h.setLc fun _ _ hu => hu.onPage))) fun _ _ hu => hu.release)
  split
  · rename_i he
    exact ((MemInv.foldl h.setLc fun _ _ hu => hu.onPage).takeFrame.of_eq he).detachWhole
  · exact MemInv.foldl h.setLc fun _ _ hu => hu.onPage

theorem execCtxtrim_keeps {s : State} {a b : LIdx} (h : MemInv s) : Kept (execCtxtrim a b s) := by
  refine livik_keeps h fun s p hs => Gives.bind (P := MemInv) ?_ fun t hs => ?_
  · refine once_keeps hs (Gives.skip fun _ => Gives.skip fun _ => ?_)
    split
    · exact Gives.ok hs
    · exact Gives.bind hs.trim fun t hs => Gives.ok hs.dropFrames
  · exact Gives.ok hs.unpark

theorem execCtxlen_keeps {s : State} {a b : LIdx} (h : MemInv s) : Kept (execCtxlen a b s) := by
  exact livik_keeps h fun s p hs => once_keeps hs (Gives.skip fun _ => Gives.ok hs)

theorem execCtxpinHold_keeps {s : State} {a : LIdx} (h : MemInv s) : Kept (execCtxpinHold a s) := by
  refine livik_keeps h fun s p hs => once_keeps hs (Gives.skip fun _ => ?_)
  dsimp only
  split
  · exact Gives.ok hs
  · exact Gives.ok (MemInv.foldl hs.setLc fun _ _ hu => hu.onPage)

theorem execCtxpinRelease_keeps {s : State} {a : LIdx} (h : MemInv s) : Kept (execCtxpinRelease a s) := by
  refine livik_keeps h fun s p hs => once_keeps hs (Gives.skip fun _ => ?_)
  dsimp only
  split
  · exact Gives.ok hs
  · exact Gives.ok (MemInv.foldl hs.setLc fun _ _ hu => hu.onPage)

theorem execTlit_keeps {s : State} {a : LIdx} {i : Word32} (h : MemInv s) : Kept (execTlit a i s) := by
  refine livik_keeps h fun s p hs => Gives.ite trivial (Gives.skip fun _ => Gives.ite trivial ?_)
  exact Gives.skip fun _ => Gives.ok hs.retire

theorem execTcat_keeps {s : State} {a b c : LIdx} (h : MemInv s) : Kept (execTcat a b c s) := by
  exact livik_keeps h fun s p hs => Gives.ite trivial (Gives.ok hs.retire)

theorem execTcut_keeps {s : State} {a b c d : LIdx} (h : MemInv s) : Kept (execTcut a b c d s) := by
  exact livik_keeps h fun s p hs => Gives.ok hs.retire

theorem execTlen_keeps {s : State} {a b : LIdx} (h : MemInv s) : Kept (execTlen a b s) := by
  exact livik_keeps h fun s p hs => Gives.ok hs.retire

theorem execTfind_keeps {s : State} {a b c d : LIdx} (h : MemInv s) : Kept (execTfind a b c d s) := by
  exact livik_keeps h fun s p hs => Gives.ok hs.retire

theorem execTcmp_keeps {s : State} {a b c : LIdx} (h : MemInv s) : Kept (execTcmp a b c s) := by
  exact livik_keeps h fun s p hs => Gives.ok hs.retire

theorem execTadd_keeps {s : State} {a b : LIdx} (h : MemInv s) : Kept (execTadd a b s) := by
  exact livik_keeps h fun s p hs => Gives.ite trivial (Gives.ok hs.retire)

theorem execTget_keeps {s : State} {a b c : LIdx} (h : MemInv s) : Kept (execTget a b c s) := by
  exact livik_keeps h fun s p hs => Gives.ok hs.retire

theorem execPost_keeps {s : State} {a b : LIdx} {c : LReg} {i : Word32} (h : MemInv s) : Kept (execPost a b c i s) := by
  refine livik_keeps h fun s p hs => onceAt_keeps hs (Gives.skip fun _ => ?_)
  split
  · dsimp only
    split
    · split
      · exact Gives.ok hs
      · exact Gives.ok hs.hostPut
    · split
      · exact Gives.ok hs
      · split
        · exact Gives.ok hs
        · exact Gives.ok hs.mailEnter

theorem execAwait_keeps {s : State} {a : LReg} {b : LIdx} {i : Word32} (h : MemInv s) : Kept (execAwait a b i s) := by
  refine livik_keeps h fun s p hs => ?_
  split
  · exact Gives.ok hs.retire
  · exact Gives.ok hs.awaitTake
  · exact Gives.ok hs.onProg.setPState.syncBlock

theorem execInvoke_keeps {s : State} {a b : LIdx} (h : MemInv s) : Kept (execInvoke a b s) := by
  refine livik_keeps h fun s p hs => ?_
  dsimp only
  split
  · exact Gives.ok hs.retire
  · split
    · exact Gives.ok hs.retire
    · exact Gives.ite trivial (Gives.ok hs.onProg.setPState.syncBlock)

theorem execStamp_keeps {s : State} {a : LIdx} (h : MemInv s) : Kept (execStamp a s) := by
  exact livik_keeps h fun s p hs => Gives.ok hs.retire

theorem MemInv.longRetire {s : State} {slot : ℕ} {f : Prog → Prog} (h : MemInv s) : MemInv (s.longRetire slot f) := by
  unfold State.longRetire
  split
  · exact h
  · exact MemInv.unpark (MemInv.dropFrames (MemInv.unbusy (MemInv.ite (MemInv.notice (MemInv.onProg h.wrSys)) (MemInv.onProg h.wrSys))))

theorem MemInv.boundary {s : State} {slot : ℕ} (h : MemInv s) : MemInv (s.boundary slot) := by
  unfold State.boundary
  split
  · exact h
  · refine MemInv.ite h.agentKill ?_
    split
    · exact h
    · refine MemInv.ite h.agentKill ?_
      dsimp only
      exact MemInv.ite h.openWindow h.parkProg.unpark

theorem MemInv.openCandidate {s : State} {slot : ℕ} {b : LIdx} {cands : List (List Word32)} {i : ℕ} (h : MemInv s) :
    Yields MemInv (s.openCandidate slot b cands i) := by
  unfold State.openCandidate
  split
  · trivial
  · split
    · exact h.onProg
    · dsimp only
      split
      · trivial
      · rename_i he
        exact (h.ctxFork.of_eq he).onProg

theorem MemInv.chooseOn {s : State} {slot : ℕ} {a b : LIdx} {app : Bool} {cands : List (List Word32)} {fuel : ℕ} (h : MemInv s) :
    MemInv (State.chooseOn slot a b app cands fuel s) := by
  induction fuel generalizing s with
  | zero => exact h
  | succ n ih =>
    unfold State.chooseOn
    split
    · exact h
    · refine MemInv.ite (MemInv.ite h.boundary h.longRetire) (MemInv.ite h.boundary ?_)
      extract_lets better s1 best s2 s3
      have h2 : MemInv s2 := (MemInv.ite h h.ctxDrop).onProg
      split
      · split
        · exact h2.onProg.agentKill
        · rename_i he
          exact ih (h2.onProg.openCandidate.of_eq he)
      · exact MemInv.ite (ih h2.onProg) h2.longRetire

theorem MemInv.resumption {s : State} {slot : ℕ} (h : MemInv s) : MemInv (s.resumption slot) := by
  unfold State.resumption
  dsimp only
  split
  · exact h.onProg
  · refine MemInv.ite h.onProg (MemInv.ite h.onProg.agentKill (MemInv.ite h.onProg.agentKill ?_))
    split
    · split
      · exact h.onProg.onProg
      · exact h.onProg.agentKill
      · exact h.onProg.parkProg
      · exact h.onProg
    · exact h.onProg.onProg

/-- A long Livik instruction keeps the memories where its first issue does. -/
theorem long_keeps {i : Instr} {s : State} (h : MemInv s) {f : State → Prog → Except LStop State} (hf : ∀ s p, MemInv s → Gives MemInv
    (f s p)) :
    Kept (long i s f) := by
  refine livik_keeps h fun s p hs => ?_
  split
  · exact hf _ _ hs.onProg
  · exact Gives.ite trivial (Gives.ok hs.onProg.resumption.boundary)

theorem MemInv.hold {s : State} {cid slot : ℕ} (h : MemInv s) : Gives MemInv (s.hold cid slot) := by
  unfold State.hold
  split
  · refine Gives.ite (Gives.ok h) ?_
    trivial
  · exact Gives.ok h.onLc

theorem execAppend_keeps {s : State} {a b : LIdx} (h : MemInv s) : Kept (execAppend a b s) := by
  refine long_keeps h fun s p hs => Gives.skip fun _ => Gives.ite trivial (Gives.bind hs.hold fun s hs => ?_)
  split
  · exact Gives.ok hs.longRetire
  · exact Gives.ok hs.onProg.boundary

theorem execGenu_keeps {s : State} {a b c d : LIdx} {i : Word32} (h : MemInv s) : Kept (execGenu a b c d i s) := by
  refine long_keeps h fun s p hs => Gives.skip fun _ => Gives.ite trivial ?_
  split
  · trivial
  · refine Gives.skip fun _ => Gives.bind hs.hold fun s hs => ?_
    split
    · exact Gives.ok hs.onProg.longRetire
    · exact Gives.ok hs.onProg.onProg.boundary

theorem execScore_keeps {s : State} {a b c : LIdx} (h : MemInv s) : Kept (execScore a b c s) := by
  refine long_keeps h fun s p hs => Gives.skip fun _ => Gives.ite trivial (Gives.ite trivial ?_)
  split
  · exact Gives.ok hs.longRetire
  · split
    · trivial
    · rename_i he
      exact Gives.ok (hs.ctxFork.of_eq he).onProg.boundary

theorem execChoose_keeps {s : State} {a b c : LIdx} {app : Bool} {sep : BitVec 24} (h : MemInv s) : Kept (execChoose a b c app sep s) := by
  refine long_keeps h fun s p hs => Gives.skip fun x => Gives.ite trivial (Gives.ite trivial (Gives.ite trivial ?_))
  refine Gives.bind (P := MemInv) (Gives.ite hs.hold hs) fun s hs => ?_
  dsimp only
  split
  · exact Gives.ok hs.onProg.agentKill
  · rename_i he
    exact Gives.ok (hs.onProg.openCandidate.of_eq he).chooseOn

end Sys2Proof.Machine
end

section
/-!
The memories stay canonical: the mangle and the planner of pages (Machine/Mangle, Planner).
-/

namespace Sys2Proof.Machine

open Sys2Proof

theorem MemInv.prepare {s : State} {g : Group} (h : MemInv s) : MemInv (s.prepare g).1 := by
  unfold State.prepare
  split
  · exact h
  · split
    · exact h
    · dsimp only
      refine MemInv.ite_fst h (MemInv.ite_fst (MemInv.foldl h fun _ _ hu => hu.parkProg) ?_)
      split
      · split
        · rename_i he
          exact (h.takeFrame.of_eq he).detachWhole
        · exact h
      · exact h

theorem MemInv.zeroV {s : State} {ctx : Half} {va n : ℕ} (h : MemInv s) : MemInv (s.zeroV ctx va n) := by
  unfold State.zeroV
  split
  · exact MemInv.foldl h fun _ _ hu => (hu.zeroRange _ _)
  · exact h

theorem MemInv.putV {s : State} {ctx : Half} {va : ℕ} {d : List Byte} (h : MemInv s) : MemInv (s.putV ctx va d) :=
  MemInv.getD h h.wrV

theorem MemInv.formLaunch {s : State} {m : Image} {gs : List Group} (h : MemInv s) : MemInv (s.formLaunch m gs) := by
  unfold State.formLaunch
  refine MemInv.ite h ?_
  dsimp only
  exact MemInv.foldl (MemInv.foldl h.zeroV.putV.putV fun _ _ hu => hu.putV) fun _ _ hu => hu.setPState

theorem execStrictStepPlace_keeps {s : State} {slot : ℕ} (h : MemInv s) : Kept (execStrictStepPlace slot s) := by
  unfold execStrictStepPlace
  split
  · exact h
  · refine Kept.ite h ?_
    extract_lets s1
    have h1 : MemInv s1 := h.resumption
    split
    · exact h1
    · split
      · exact h1
      · refine Kept.ite (Kept.next h1.unpark) ?_
        extract_lets g
        refine Kept.ite h1 ?_
        have hp : MemInv (s1.prepare g).1 := h1.prepare
        generalize s1.prepare g = r at hp
        exact MemInv.unpark (MemInv.ite hp.formLaunch hp)

theorem execBatchingWindowClose_keeps {s : State} {img : Half} (h : MemInv s) : Kept (execBatchingWindowClose img s) := by
  unfold execBatchingWindowClose
  extract_lets g flying here steps s1
  have h1 : MemInv s1 := MemInv.foldl h fun _ _ hu => hu.resumption
  clear_value s1
  split
  · exact h
  · rename_i m _
    refine Kept.ite h ?_
    extract_lets avail
    generalize s1.visit m avail 9 g.start g _ = v
    have hp : ∀ gs : List Group, MemInv (gs.foldl (fun (a : State × List Group) x =>
        ((a.1.prepare x).1, if (a.1.prepare x).2 then a.2 ++ [x] else a.2)) (s1, [])).1 := fun gs =>
      MemInv.foldl_fst (a := (s1, [])) h1 fun _ _ ha => ha.prepare
    refine MemInv.unpark ?_
    dsimp only
    split
    · exact MemInv.openWindow (MemInv.formLaunch (MemInv.setMangle (hp _)))
    · exact MemInv.formLaunch (MemInv.setMangle (hp _))

theorem MemInv.openPage {s : State} {cids : List ℕ} {slot q : ℕ} (h : MemInv s) : Yields MemInv (s.openPage cids slot q) := by
  unfold State.openPage
  split
  · trivial
  · extract_lets x pti
    split
    · split
      · exact h
      · split
        · trivial
        · exact h.takeFrame.map fun _ hu => hu.detachWhole
    · split
      · trivial
      · rename_i hf
        split
        · trivial
        · rename_i hp
          exact MemInv.foldl ((h.takeFrame.of_eq hf).newPage.of_eq hp) fun _ _ hu => hu.onLc

theorem MemInv.writeLines {s : State} {m : Image} {x : Member} {c q fuel i : ℕ} (h : MemInv s) : MemInv (s.writeLines m x c q fuel i).1 := by
  induction fuel generalizing s i with
  | zero => exact h
  | succ k ih =>
    unfold State.writeLines
    extract_lets pti d
    exact MemInv.ite_fst h.markWrite (ih h.markWrite)

theorem MemInv.extend {s : State} {c : ℕ} {tok : Word32} (h : MemInv s) : MemInv (s.extend c tok) :=
  h.onLc

theorem MemInv.commitProg {s : State} {m : Image} {loga slot : ℕ} (h : MemInv s) : MemInv (s.commitProg m loga slot) := by
  unfold State.commitProg
  split
  · exact h
  · split
    · exact h
    · split
      · exact h.onProg.onProg.extend
      · exact MemInv.extend (MemInv.ite h.onProg.onProg h.onProg.onProg)

theorem MemInv.commitSteps {s : State} {m : Image} {x : Member} {fuel : ℕ} (h : MemInv s) : MemInv (State.commitSteps m x fuel s).1 := by
  induction fuel generalizing s with
  | zero => exact h
  | succ n ih =>
    unfold State.commitSteps
    extract_lets slots cids len w
    have hw : Yields MemInv w := by
      dsimp only [w]
      split
      · exact h
      · split
        · trivial
        · rename_i u hu
          have hl := (h.openPage.of_eq hu).writeLines (m := m) (x := x) (c := x.cid) (q := len - 1) (fuel := m.kvl) (i := 0)
          split
          · rename_i he
            rw [he] at hl
            exact hl
          · trivial
    clear_value w
    refine MemInv.ite_fst h ?_
    cases w with
    | none => exact h
    | some u => exact ih (MemInv.foldl hw fun _ _ hu => hu.commitProg)

theorem MemInv.yieldTo {s : State} {slot : ℕ} {left : List ℕ} (h : MemInv s) : MemInv (s.yieldTo slot left) := by
  unfold State.yieldTo
  split
  · exact h
  · extract_lets
    exact MemInv.ite h.setPState h

theorem MemInv.stepFault {s : State} {p : Prog} (h : MemInv s) : MemInv (s.stepFault p) :=
  h.parkProg.unpark

theorem MemInv.afterSteps {s : State} {left : List ℕ} {ok : Bool} {slot : ℕ} (h : MemInv s) : MemInv (s.afterSteps left ok slot) := by
  unfold State.afterSteps
  split
  · exact h
  · rename_i p _
    have h1 : MemInv (s.setPState slot .ready false) := h.setPState
    refine MemInv.ite h1.agentKill ?_
    have hf : ∀ {u}, MemInv u → MemInv (if (!ok) = true then (s.setPState slot .ready false).stepFault p else u) := fun hu =>
      MemInv.ite h1.stepFault hu
    split
    · exact hf h1.chooseOn.yieldTo
    · exact MemInv.ite h1.ctxDrop.longRetire (hf h1.boundary.yieldTo)
    · exact MemInv.ite h1.longRetire (hf h1.boundary.yieldTo)
    · exact MemInv.ite h1.longRetire (hf h1.boundary.yieldTo)

theorem execStepLaunchComplete_keeps {s : State} {id : ℕ} (h : MemInv s) : Kept (execStepLaunchComplete id s) := by
  unfold execStepLaunchComplete
  split
  · exact h
  · split
    · extract_lets s1
      have h1 : MemInv s1 := h.pass
      refine Kept.ite ?_ ?_
      · exact MemInv.unpark (MemInv.foldl h1 fun _ _ hu => MemInv.foldl hu fun _ _ ht => ht.setPState.boundary)
      · exact MemInv.unpark (MemInv.foldl h1 fun _ _ hu => MemInv.foldl hu.commitSteps fun _ _ ht => ht.afterSteps)
    · exact h

theorem execTokenMarkWrite_keeps {s : State} {mark : Word} {line : ℕ} {data : List Byte} {token : Word32} (h : MemInv s) :
    Kept (execTokenMarkWrite mark line data token s) :=
  h.markWrite

theorem execAwaitTimeout_keeps {s : State} {slot : ℕ} (h : MemInv s) : Kept (execAwaitTimeout slot s) := by
  unfold execAwaitTimeout
  split
  · exact h
  · split
    · refine Kept.ite h ?_
      split
      · exact h.awaitTake.setPState
      · exact h.retire.setPState
    · exact h

theorem execInvokeComplete_keeps {s : State} {slot : ℕ} (h : MemInv s) : Kept (execInvokeComplete slot s) := by
  unfold execInvokeComplete
  split
  · exact h
  · split
    · exact Kept.ite h h.retire.setPState
    · exact h

theorem MemInv.takeRun {s : State} {frame units : ℕ} (h : MemInv s) : MemInv (s.takeRun frame units) :=
  h

theorem MemInv.toHost {s : State} {frame slot units : ℕ} (h : MemInv s) : MemInv (s.toHost frame slot units) := by
  unfold State.toHost
  refine MemInv.foldl h fun _ _ hu => ?_
  split
  · exact hu.hostWr _
  · exact hu

theorem execResidencyPlan_keeps {s : State} {op : PlanOp} (h : MemInv s) : Kept (execResidencyPlan op s) := by
  unfold execResidencyPlan
  split
  · split
    · exact h
    · exact Kept.ite (Kept.next (MemInv.unpark h)) h
  · extract_lets
    exact Kept.ite (Kept.next (MemInv.setPage h)) h
  · exact Kept.ite (Kept.next (MemInv.setPage h)) h
  · extract_lets
    exact Kept.ite h.takeRun.setPage h
  · split
    · exact h
    · extract_lets
      refine Kept.ite h ?_
      split
      · exact h
      · rename_i he
        exact (h.takeFrame.of_eq he).detachBegin

theorem execPageFoldComplete_keeps {s : State} {pti : ℕ} (h : MemInv s) : Kept (execPageFoldComplete pti s) := by
  unfold execPageFoldComplete
  dsimp only
  exact Kept.ite h h.toHost.setPage.handFrame.release.unpark

theorem execPageShelveComplete_keeps {s : State} {pti : ℕ} (h : MemInv s) : Kept (execPageShelveComplete pti s) := by
  unfold execPageShelveComplete
  dsimp only
  exact Kept.ite h (Kept.next (MemInv.unpark (MemInv.release (MemInv.setPage h))))

theorem execPageUnfoldComplete_keeps {s : State} {pti : ℕ} (h : MemInv s) : Kept (execPageUnfoldComplete pti s) := by
  unfold execPageUnfoldComplete
  extract_lets e units d s1
  have h1 : MemInv s1 := MemInv.ite h h
  exact Kept.ite h ((h1.wrPhys _ _).setPage.release.unpark)

theorem MemInv.killLost {s : State} {slot : ℕ} (h : MemInv s) : MemInv (s.killLost slot) := by
  unfold State.killLost
  split
  · exact h
  · exact MemInv.ite h.onProg h.agentKill

theorem execNvmeReadFail_keeps {s : State} {pti : ℕ} (h : MemInv s) : Kept (execNvmeReadFail pti s) := by
  unfold execNvmeReadFail
  dsimp only
  refine Kept.ite h ?_
  exact Kept.ite h.setPage (Kept.next (MemInv.unpark (MemInv.release (MemInv.foldl (MemInv.handFrame
      (MemInv.setPage h)) fun _ _ hu => hu.killLost))))

theorem execDetachCopyComplete_keeps {s : State} {cid : ℕ} (h : MemInv s) : Kept (execDetachCopyComplete cid s) := by
  unfold execDetachCopyComplete
  split
  · exact h
  · exact h.detachEnd.unpark

theorem execPageRelease_keeps {s : State} {pti : ℕ} (h : MemInv s) : Kept (execPageRelease pti s) :=
  h.release.unpark

theorem MemInv.rebuild {s : State} (h : MemInv s) : MemInv s.rebuild := by
  unfold State.rebuild
  refine MemInv.foldl (MemInv.foldl (MemInv.foldl h fun _ _ hu => ?_) fun _ _ hu => hu.syncBlock) fun _ _ hu =>
      (MemInv.ite hu.openWindow hu)
  split
  · exact hu.detachEnd
  · exact hu

theorem execSequencerRebuild_keeps {s : State} (h : MemInv s) : Kept (execSequencerRebuild s) :=
  h.rebuild.unpark

end Sys2Proof.Machine
end

section
/-!
The memories stay canonical: the host and the device around the machine (Machine/Host, Device).
-/

namespace Sys2Proof.Machine

open Sys2Proof

theorem MemInv.bell {s : State} (h : MemInv s) : MemInv s.bell :=
  h

theorem execQdoor_keeps {s : State} {q : ℕ} {data : List Byte} (h : MemInv s) : Kept (execQdoor q data s) := by
  unfold execQdoor
  split
  · exact h
  · exact Kept.ite h (h.bell.wr64 _ _)

theorem MemInv.enlist {s : State} {slot : ℕ} {d : List Byte} (h : MemInv s) : MemInv (s.enlist slot d) :=
  MemInv.clearBlock (MemInv.setPState h)

theorem execLsub_keeps {s : State} {data : List Byte} {hint : ℕ} (h : MemInv s) : Kept (execLsub data hint s) := by
  unfold execLsub
  refine Kept.ite h ?_
  dsimp only
  split
  · exact h.bell.wr64 _ _
  · exact h.bell.enlist.wr64 _ _

theorem execMbox_keeps {s : State} {slot : ℕ} {data : List Byte} (h : MemInv s) : Kept (execMbox slot data s) := by
  unfold execMbox
  refine Kept.ite h ?_
  dsimp only
  refine Kept.ite (MemInv.ite h.bell h.bell.wrSys) ?_
  split
  · exact MemInv.ite h.bell h.bell.wrSys
  · exact Kept.ite (MemInv.ite h.bell h.bell.wrSys) (MemInv.ite h.bell.mailEnter h.bell.mailEnter.wrSys)

theorem MemInv.requestKill {s : State} {slot : ℕ} (h : MemInv s) : MemInv (s.requestKill slot) := by
  unfold State.requestKill
  split
  · exact h
  · split
    · exact h
    · exact h
    · exact h.onProg
    · exact h.agentKill

theorem execKreq_keeps {s : State} {slot : ℕ} (h : MemInv s) : Kept (execKreq slot s) :=
  h.requestKill

theorem execFullFree_keeps {s : State} {slot e : ℕ} (h : MemInv s) : Kept (execFullFree slot e s) := by
  unfold execFullFree
  split
  · exact h
  · exact h.wr64 _ _

theorem execDeferredNoticePost_keeps {s : State} {slot : ℕ} (h : MemInv s) : Kept (execDeferredNoticePost slot s) := by
  unfold execDeferredNoticePost
  split
  · exact h
  · split
    · exact h
    · exact Kept.ite h h.hostPut.onProg

theorem MemInv.svcReply {s : State} {a status : ℕ} {reply : Word} (h : MemInv s) : MemInv (s.svcReply a status reply) :=
  ((h.wr64 _ _).wr64 _ _).wr64 _ _

/-- A service request keeps the memories where its effect does. -/
theorem MemInv.serve {s : State} (h : MemInv s) {op : ℕ} {f : State → List Byte → Option (State × ℕ × Word)} (hf : ∀ d, Yields
    (fun r => MemInv r.1) (f s d)) :
    MemInv (s.serve op f) := by
  unfold State.serve
  split
  · exact h
  · rename_i a rest _
    extract_lets d
    refine MemInv.ite h (MemInv.ite (MemInv.svcReply (s := { s with services := rest }) h) ?_)
    split
    · exact h
    · rename_i t st r he
      exact MemInv.svcReply (s := { t with services := rest }) ((hf d).of_eq he)

theorem MemInv.dropQwait {s : State} {q : ℕ} (h : MemInv s) : MemInv (s.dropQwait q) :=
  h

theorem execBindQueue_keeps {s : State} (h : MemInv s) : Kept (execBindQueue s) := by
  unfold execBindQueue
  refine MemInv.serve h fun d => ?_
  dsimp only
  split <;> exact h

theorem execUnbindQueue_keeps {s : State} (h : MemInv s) : Kept (execUnbindQueue s) := by
  unfold execUnbindQueue
  split
  · exact h
  · dsimp only
    split
    · refine Kept.ite (Kept.next h) (MemInv.serve h fun d => ?_)
      trivial
    · exact MemInv.serve h fun d => h

theorem execUnbindQueueDrained_keeps {s : State} (h : MemInv s) : Kept (execUnbindQueueDrained s) := by
  unfold execUnbindQueueDrained
  refine MemInv.serve h fun d => ?_
  dsimp only
  split
  · trivial
  · split
    · exact h
    · trivial

theorem MemInv.freeSlot {s : State} {slot : ℕ} (h : MemInv s) : MemInv (s.freeSlot slot) :=
  MemInv.unpark (MemInv.foldl h fun _ _ hu => hu.ctxDrop)

theorem execReleaseSlot_keeps {s : State} (h : MemInv s) : Kept (execReleaseSlot s) := by
  unfold execReleaseSlot
  refine MemInv.serve h fun d => ?_
  dsimp only
  split
  · exact h
  · split
    · exact h
    · split
      · trivial
      · exact h.freeSlot

theorem execRegisterModelImage_keeps {s : State} {hint : ℕ} (h : MemInv s) : Kept (execRegisterModelImage hint s) := by
  unfold execRegisterModelImage
  refine MemInv.serve h fun d => ?_
  dsimp only
  split
  · exact h
  · split <;> exact h

theorem execExtendHostMemory_keeps {s : State} (h : MemInv s) : Kept (execExtendHostMemory s) := by
  unfold execExtendHostMemory
  refine MemInv.serve h fun d => ?_
  dsimp only
  split <;> exact h

theorem execKillProgram_keeps {s : State} (h : MemInv s) : Kept (execKillProgram s) := by
  unfold execKillProgram
  refine MemInv.serve h fun d => ?_
  split
  · exact h
  · exact h.requestKill

theorem execWithdrawModelImage_keeps {s : State} (h : MemInv s) : Kept (execWithdrawModelImage s) := by
  unfold execWithdrawModelImage
  refine MemInv.serve h fun d => ?_
  dsimp only
  split <;> exact h

theorem execServiceRequestUnknownCode_keeps {s : State} (h : MemInv s) : Kept (execServiceRequestUnknownCode s) := by
  unfold execServiceRequestUnknownCode
  split
  · exact h
  · dsimp only
    exact Kept.ite h (Kept.next (MemInv.svcReply h))

theorem execHostLoad_keeps {s : State} {addr n : ℕ} (h : MemInv s) : Kept (execHostLoad addr n s) :=
  Kept.next h

theorem MemInv.hostByte {s : State} {a : ℕ} {b : Byte} (h : MemInv s) : MemInv (s.hostByte a b) := by
  unfold State.hostByte
  split
  · exact MemInv.ite h.requestKill h
  · exact MemInv.ite h h.wrFree

theorem MemInv.hostBytesTo {s : State} {a : ℕ} {d : List Byte} (h : MemInv s) : MemInv (s.hostBytesTo a d) := by
  induction d generalizing s a with
  | nil => exact h
  | cons b r ih => exact ih h.hostByte

theorem execHostStore_keeps {s : State} {addr : ℕ} {data : List Byte} (h : MemInv s) : Kept (execHostStore addr data s) :=
  h.hostBytesTo

theorem MemInv.setMHz {s : State} {i mhz : ℕ} (h : MemInv s) : MemInv (s.setMHz i mhz) :=
  h

theorem execRegisterWrite_keeps {s : State} {off : ℕ} {data : List Byte} (h : MemInv s) : Kept (execRegisterWrite off data s) := by
  unfold execRegisterWrite
  refine Kept.ite (Kept.ite h h) (Kept.ite (Kept.ite h h) (Kept.ite h (Kept.ite (MemInv.ite h h) (Kept.ite (MemInv.ite h h)
      (Kept.ite h ?_)))))
  refine Kept.ite ?_ (Kept.ite h (Kept.ite h h))
  dsimp only
  split
  · exact h
  · exact Kept.ite h (Kept.ite h h)

theorem execReservedEncoding_keeps {s : State} {w : Word32} (h : MemInv s) : Kept (execReservedEncoding w s) := by
  refine issue_keeps h fun e he => ?_
  trivial

theorem execLivikIllopWord_keeps {s : State} {w : Word} (h : MemInv s) : Kept (execLivikIllopWord w s) := by
  refine livik_keeps h fun s p hs => ?_
  trivial

theorem MemInv.setRule {s : State} {p r : ℕ} {x : Rule} (h : MemInv s) : MemInv (s.setRule p r x) :=
  h

theorem MemInv.dropFrame {s : State} {p r : ℕ} (h : MemInv s) : MemInv (s.dropFrame p r) :=
  h.setRule

theorem MemInv.ringWrite {s : State} {c : CoreId} {a : ℕ} {d : List Byte} (h : MemInv s) : MemInv (s.ringWrite c a d) :=
  MemInv.foldl h fun _ _ hu => (MemInv.ite (hu.wrByte _ _) hu)

theorem MemInv.deposit {s : State} {p r : ℕ} {b : BitVec 512} {seq : ℕ} {f : List Byte} {st : Stamp} {c : CoreId} {l : Launch}
    (h : MemInv s) :
    MemInv (s.deposit p r b seq f st c l) :=
  h.ringWrite.withFresh.setRule.post

theorem MemInv.mailDeposit {s : State} {p r : ℕ} {b : BitVec 512} {seq : ℕ} {f : List Byte} {st : Stamp} (h : MemInv s) :
    MemInv (s.mailDeposit p r b seq f st) := by
  unfold State.mailDeposit
  dsimp only
  split
  · exact h.dropFrame
  · exact MemInv.ite h.dropFrame h.mailEnter

theorem MemInv.steer {s : State} {p r : ℕ} {b : BitVec 512} {seq : ℕ} {f : List Byte} {st : Stamp} (h : MemInv s) :
    Yields MemInv (s.steer p r b seq f st) := by
  unfold State.steer
  split
  · exact h.mailDeposit
  · dsimp only
    split
    · exact h.dropFrame
    · split
      · trivial
      · exact h.deposit

theorem execEthernetFrameIngress_keeps {s : State} {port : ℕ} {frame : List Byte} (h : MemInv s) :
    Kept (execEthernetFrameIngress port frame s) := by
  unfold execEthernetFrameIngress
  refine Kept.ite h ?_
  extract_lets x seq s1
  have h1 : MemInv s1 := h
  split
  · exact h1
  · rename_i r _
    extract_lets y now
    have hn : Yields MemInv now := by
      by_cases hy : y.held.isEmpty
      · simp only [now, hy, if_true]
        exact h1.steer
      · simp only [now, hy]
        trivial
    clear_value now
    cases now with
    | some t => exact hn
    | none =>
      dsimp only
      exact Kept.ite h1 h1

theorem execHeldDepositIssue_keeps {s : State} {port : ℕ} (h : MemInv s) : Kept (execHeldDepositIssue port s) := by
  refine MemInv.getD h (Yields.findSome fun r => ?_)
  dsimp only
  split
  · trivial
  · exact h.setRule.steer

theorem execNvmeSubmissionCheck_keeps {s : State} {lease : ℕ} {cmd : NvmeCmd} (h : MemInv s) : Kept (execNvmeSubmissionCheck lease cmd s) := by
  unfold execNvmeSubmissionCheck
  split
  · exact h
  · exact Kept.next h

theorem MemInv.rerun {s : State} {lid : Half} (h : MemInv s) : MemInv (s.rerun lid) := by
  unfold State.rerun
  split
  · exact h
  · exact MemInv.placeLaunch (MemInv.setLaunch (MemInv.loosen (MemInv.raiseAreas (MemInv.sweepCopies (MemInv.sweep
      (MemInv.discardWork h.flushOps))))))

theorem MemInv.loseFreeze {s : State} {b : ℕ} (h : MemInv s) : MemInv (s.loseFreeze b) :=
  MemInv.foldl h fun _ _ hu => hu.endWith

theorem MemInv.loseBundles {s : State} {bs : List ℕ} (h : MemInv s) : MemInv (s.loseBundles bs) := by
  unfold State.loseBundles
  dsimp only
  exact MemInv.ite (MemInv.unpark (MemInv.rebuild (MemInv.foldl (MemInv.foldl (MemInv.foldl h fun _ _ hu => hu.loseFreeze) fun _ _ hu =>
      (MemInv.ite hu hu.endLaunch)) fun _ _ hu => MemInv.ite hu.rerun hu))) (MemInv.foldl (MemInv.foldl
      (MemInv.foldl h fun _ _ hu => hu.loseFreeze) fun _ _ hu => MemInv.ite hu hu.endLaunch) fun _ _ hu => MemInv.ite hu.rerun hu)

theorem execBundleFault_keeps {s : State} {b : ℕ} (h : MemInv s) : Kept (execBundleFault b s) := by
  unfold execBundleFault
  exact Kept.ite h h.loseBundles

theorem execIslandFault_keeps {s : State} {n : ℕ} (h : MemInv s) : Kept (execIslandFault n s) := by
  unfold execIslandFault
  exact Kept.ite h (Kept.next (MemInv.loseBundles h))

theorem MemInv.cancelMoves {s : State} {c : ℕ} (h : MemInv s) : MemInv (s.cancelMoves c) :=
  MemInv.foldl h fun _ _ hu => (MemInv.ite hu (MemInv.ite hu.giveTier.setPage (MemInv.ite hu.setPage hu)))

theorem MemInv.cancelDetaches {s : State} {c : ℕ} (h : MemInv s) : MemInv (s.cancelDetaches c) := by
  unfold State.cancelDetaches
  refine MemInv.foldl h fun _ _ hu => ?_
  split
  · exact hu
  · exact MemInv.ite hu.detachUndo hu

theorem execChannelFault_keeps {s : State} {c : ℕ} (h : MemInv s) : Kept (execChannelFault c s) := by
  unfold execChannelFault
  refine Kept.ite h ?_
  extract_lets hitCrec ls ps alive s1 s2
  have h1 : MemInv s1 := ⟨Memory.wf_delRange h.1 _ _, h.2⟩
  have h2 : MemInv s2 := MemInv.foldl h1 fun _ _ hu => hu.endLaunch
  exact MemInv.unpark (MemInv.foldl h2.cancelMoves.cancelDetaches fun _ _ hu => hu.killLost)

theorem execKernelCoreFault_keeps {s : State} {k : ℕ} (h : MemInv s) : Kept (execKernelCoreFault k s) := by
  unfold execKernelCoreFault
  exact Kept.ite h (Kept.next (MemInv.passEntries h))

theorem execL2SliceFault_keeps {s : State} {n : ℕ} (h : MemInv s) : Kept (execL2SliceFault n s) := by
  unfold execL2SliceFault
  exact Kept.ite h (Kept.next h)

theorem execCopyEngineFault_keeps {s : State} {n : ℕ} (h : MemInv s) : Kept (execCopyEngineFault n s) := by
  unfold execCopyEngineFault
  exact Kept.ite h (Kept.next h)

theorem execLinkLaneFault_keeps {s : State} {link : ℕ} (h : MemInv s) : Kept (execLinkLaneFault link s) := by
  unfold execLinkLaneFault
  exact Kept.ite h (Kept.next h)

theorem MemInv.servePeer {s : State} {link : ℕ} {acc : PeerAccess} (h : MemInv s) : MemInv (s.servePeer link acc) := by
  unfold State.servePeer
  split
  · exact MemInv.ite h h
  · exact MemInv.ite (h.wrRw _) h
  · extract_lets n m old s1
    have h1 : MemInv s1 := by
      dsimp only [s1]
      split
      · exact h
      · exact h.wrRw _
    exact MemInv.ite h h1
  · exact MemInv.ite h h.post

theorem MemInv.servePeers {s : State} (h : MemInv s) : MemInv s.servePeers := by
  unfold State.servePeers
  refine MemInv.foldl h fun _ _ hu => ?_
  split
  · exact hu.servePeer
  · exact hu

theorem execTlarriudPeerAccess_keeps {s : State} {link : ℕ} {acc : PeerAccess} (h : MemInv s) : Kept (execTlarriudPeerAccess link acc s) :=
  Kept.next (MemInv.servePeers h)

theorem execPowerOnReset_keeps {s : State} {boot : BootInput} (h : MemInv s) : Kept (execPowerOnReset boot s) := by
  unfold execPowerOnReset
  extract_lets n past r z0 z1 z2 z3 z4 fs
  have h0 : MemInv z0 := ⟨rfl, h.2.1, rfl⟩
  have h1 : MemInv z1 := MemInv.ite h0 h0
  have h2 : MemInv z2 := MemInv.ite h1 h1
  have h3 : MemInv z3 := MemInv.ite h2 h2
  have h4 : MemInv z4 := MemInv.ite h3 h3
  exact Kept.ite h4 h4

theorem execAttestationReport_keeps {s : State} {nonce : List Byte} (h : MemInv s) : Kept (execAttestationReport nonce s) :=
  Kept.next h

theorem execThermalThrottle_keeps {s : State} {die mhz : ℕ} (h : MemInv s) : Kept (execThermalThrottle die mhz s) :=
  MemInv.foldl h fun _ _ hu => hu.setMHz

theorem execThermalReset_keeps {s : State} (h : MemInv s) : Kept (execThermalReset s) :=
  ⟨rfl, h.2.1, rfl⟩

end Sys2Proof.Machine
end

section
/-!
The memories stay canonical: floating point, vectors, and the fetch of words (Machine/FpScalar, Vector, Fetch).
-/

namespace Sys2Proof.Machine

open Sys2Proof

theorem fp2_keeps {s : State} {f : ℕ → ℕ → ℕ × FFlags} {d a b : Reg} {e64 : Bool} (h : MemInv s) : Kept (fp2 f d a b e64 s) := by
  refine issue_keeps h fun e he => Gives.bind he.srcS fun ⟨x, e⟩ he => Gives.bind he.srcS fun ⟨y, e⟩ he => ?_
  exact Gives.skip fun _ => Gives.bind he.flags fun e he => Gives.next he

theorem fp1_keeps {s : State} {f : Word → ℕ × FFlags} {d a : Reg} (h : MemInv s) : Kept (fp1 f d a s) := by
  refine issue_keeps h fun e he => Gives.bind he.srcS fun ⟨x, e⟩ he => Gives.skip fun _ => ?_
  exact Gives.bind he.flags fun e he => Gives.next he

theorem execFfma_keeps {s : State} {d a b : Reg} {e64 : Bool} {m : BitVec 2} (h : MemInv s) : Kept (execFfma d a b e64 m s) := by
  refine issue_keeps h fun e he => Gives.bind he.srcS fun ⟨x, e⟩ he => Gives.bind he.srcS fun ⟨y, e⟩ he => ?_
  exact Gives.bind he.srcS fun ⟨z, e⟩ he => Gives.skip fun _ => Gives.bind he.flags fun e he => Gives.next he

theorem vop_keeps {s : State} {f : ℕ → LaneFn} {reads : Bool} {d a b : Reg} {p t : BitVec 3} (h : MemInv s) : Kept (vop f reads d a b p t s) := by
  refine issue_keeps h fun e he => Gives.bind he.srcV fun ⟨x, e⟩ he => Gives.bind he.srcV fun ⟨y, e⟩ he => ?_
  exact Gives.skip fun _ => Gives.skip fun _ => Gives.skip fun _ => Gives.bind he.flags fun e he => Gives.next he

theorem execVsel_keeps {s : State} {d a b : Reg} {p t : BitVec 3} (h : MemInv s) : Kept (execVsel d a b p t s) := by
  refine issue_keeps h fun e he => Gives.bind he.srcV fun ⟨x, e⟩ he => Gives.bind he.srcV fun ⟨y, e⟩ he => ?_
  exact Gives.skip fun _ => Gives.skip fun _ => Gives.next he

theorem execVcmp_keeps {s : State} {c : BitVec 2} {q : BitVec 3} {a b : Reg} {p t : BitVec 3} (h : MemInv s) : Kept (execVcmp c q a b p t s) := by
  refine issue_keeps h fun e he => ?_
  refine Gives.bind he.srcV fun ⟨x, e⟩ he => Gives.bind he.srcV fun ⟨y, e⟩ he => Gives.skip fun pm => ?_
  refine Gives.bind he.flags fun e he => Gives.next (MemInv.putP he)

theorem execVbcast_keeps {s : State} {d a : Reg} {p t : BitVec 3} (h : MemInv s) : Kept (execVbcast d a p t s) := by
  refine issue_keeps h fun e he => Gives.bind he.srcS fun ⟨x, e⟩ he => Gives.skip fun _ => Gives.skip fun _ => ?_
  exact Gives.skip fun _ => Gives.next he

theorem execVperm_keeps {s : State} {d a b : Reg} {p t : BitVec 3} (h : MemInv s) : Kept (execVperm d a b p t s) := by
  refine issue_keeps h fun e he => Gives.bind he.srcV fun ⟨x, e⟩ he => Gives.bind he.srcV fun ⟨y, e⟩ he => ?_
  exact Gives.skip fun _ => Gives.skip fun _ => Gives.skip fun _ => Gives.next he

theorem execVred_keeps {s : State} {d a : Reg} {o : BitVec 2} {p t : BitVec 3} (h : MemInv s) : Kept (execVred d a o p t s) := by
  refine issue_keeps h fun e he => Gives.bind he.srcV fun ⟨x, e⟩ he => Gives.skip fun _ => Gives.skip fun _ => ?_
  exact Gives.bind he.flags fun e he => Gives.next he

theorem execVcvtConvert_keeps {s : State} {d a : Reg} {x p st : BitVec 3} (h : MemInv s) : Kept (execVcvtConvert d a x p st s) := by
  refine issue_keeps h fun e he => Gives.bind he.srcV fun ⟨v, e⟩ he => Gives.skip fun _ => Gives.skip fun _ => ?_
  exact Gives.skip fun _ => Gives.bind he.flags fun e he => Gives.next he

theorem MemInv.mxSource {e : Exe} {a : Reg} {st : BitVec 3} (h : MemInv e.s) : Gives (fun r => MemInv r.2.s) (e.mxSource a st) := by
  unfold Exe.mxSource
  exact Gives.ite (Gives.bind h.srcV fun ⟨x, e⟩ he => Gives.bind he.srcV fun ⟨y, e⟩ he => Gives.ok he)
      (Gives.bind h.srcV fun ⟨x, e⟩ he => Gives.ok he)

theorem execVcvtTomx_keeps {s : State} {d a : Reg} {n : Bool} {f : BitVec 4} {st : BitVec 3} (h : MemInv s) :
    Kept (execVcvtTomx d a n f st s) := by
  refine issue_keeps h fun e he => Gives.bind he.mxSource fun ⟨xs, e⟩ he => Gives.skip fun _ => ?_
  split
  · exact Gives.bind he.flags fun e he => Gives.next he

theorem execVcvtFrommx_keeps {s : State} {d a : Reg} {f : BitVec 4} {st : BitVec 3} (h : MemInv s) : Kept (execVcvtFrommx d a f st s) := by
  refine issue_keeps h fun e he => Gives.bind he.srcV fun ⟨x, e⟩ he => Gives.skip fun _ => ?_
  extract_lets
  split
  · refine Gives.skip fun _ => Gives.bind he.flags fun e he => ?_
    split <;> exact Gives.next he
  · refine Gives.skip fun _ => Gives.bind he.flags fun e he => ?_
    split <;> exact Gives.next he

theorem MemInv.noteWord {s : State} {v : View} {pc : Word} (h : MemInv s) : MemInv (s.noteWord v pc) := by
  unfold State.noteWord
  split
  · exact h
  · exact MemInv.foldl h fun _ _ hu => hu.noteBar

theorem MemInv.noteFetch {s : State} {v : View} {pc : Word} {w : Word32} (h : MemInv s) : MemInv (s.noteFetch v pc w) := by
  unfold State.noteFetch
  exact MemInv.ite h.noteWord.noteWord h.noteWord

end Sys2Proof.Machine
end

section
/-!
The memories stay canonical (O57): every instruction and event, the order in which they come, and a step.
-/

namespace Sys2Proof.Machine

open Sys2Proof

theorem exec_keeps {i : Instr} {s : State} (h : MemInv s) : Kept (exec i s) := by
  unfold exec
  cases i with
  | add | sub | mul | mulh | mulhu | div | divu | rem | remu | and | or | xor | shl | shr | sar | slt | sltu |
  min | max | minu | maxu => exact aluR_keeps h
  | clz | popc | addi | andi | ori | xori | slti | shiShl | shiShr | shiSar => exact aluI_keeps h
  | addK | subK | mulK | mulhK | mulhuK | divK | divuK | remK | remuK | andK | orK | xorK | shlK | shrK | sarK |
  sltK | sltuK | minK | maxK | minuK | maxuK => exact aluK_keeps h
  | lih => exact execLih_keeps h
  | fadd | fsub | fmul | fdiv | fmin | fmax | fcmpEq | fcmpLt | fcmpLe | fcmpUn => exact fp2_keeps h
  | ffma => exact execFfma_keeps h
  | fsqrt | fcvtF | fcvtF2i | fcvtF2u | fcvtI2f | fcvtU2f => exact fp1_keeps h
  | ld => exact execLd_keeps h
  | st => exact execSt_keeps h
  | vld => exact execVld_keeps h
  | vst => exact execVst_keeps h
  | pref => exact execPref_keeps h
  | vgath => exact execVgath_keeps h
  | vscat => exact execVscat_keeps h
  | brd | bwr => exact block_keeps h
  | copy => exact execCopy_keeps h
  | amoAdd | amoFadd | amoMin | amoMax | amoMinu | amoMaxu | amoAnd | amoOr | amoXor | amoSwap | amoCas => exact amo_keeps h
  | beq | bne | blt | bge | bltu | bgeu => exact branchCmp_keeps h
  | bpa => exact execBpa_keeps h
  | bpn => exact execBpn_keeps h
  | jal => exact execJal_keeps h
  | jr => exact execJr_keeps h
  | send => exact execSend_keeps h
  | sendo => exact execSendo_keeps h
  | spawn => exact execSpawn_keeps h
  | done => exact execDone_keeps h
  | gset | gadd | gmax => exact gain_keeps h
  | gget => exact execGget_keeps h
  | bara => exact execBara_keeps h
  | lnch => exact execLnch_keeps h
  | lend => exact execLend_keeps h
  | vadd | vsub | vmul | vfma | vmin | vmax | vand | vor | vxor | vshl | vshr | vsar => exact vop_keeps h
  | vsel => exact execVsel_keeps h
  | vcmp => exact execVcmp_keeps h
  | vbcast => exact execVbcast_keeps h
  | vperm => exact execVperm_keeps h
  | vred => exact execVred_keeps h
  | vcvtConvert => exact execVcvtConvert_keeps h
  | vcvtTomx => exact execVcvtTomx_keeps h
  | vcvtFrommx => exact execVcvtFrommx_keeps h
  | mma => exact execMma_keeps h
  | mring => exact execMring_keeps h
  | mradv => exact execMradv_keeps h
  | mzero => exact execMzero_keeps h
  | mst => exact execMst_keeps h
  | fenceAcq => exact execFenceAcq_keeps h
  | fenceRel => exact execFenceRel_keeps h
  | fenceFull => exact execFenceFull_keeps h
  | spill => exact execSpill_keeps h
  | fill => exact execFill_keeps h
  | tokw => exact execTokw_keeps h
  | getsr => exact execGetsr_keeps h
  | setsr => exact execSetsr_keeps h
  | nop => exact execNop_keeps h
  | yield => exact execYield_keeps h
  | brk => exact execBrk_keeps h
  | trap => exact execTrap_keeps h
  | tretRetry | tretSkip => exact tret_keeps h
  | tretKill => exact execTretKill_keeps h
  | gatew => exact execGatew_keeps h
  | freeze => exact execFreeze_keeps h
  | thaw => exact execThaw_keeps h
  | ktlb => exact execKtlb_keeps h
  | markq => exact execMarkq_keeps h
  | aset => exact execAset_keeps h
  | acalcAdd | acalcSub | acalcMul | acalcDiv | acalcRem | acalcAnd | acalcOr | acalcXor | acalcShl | acalcShr |
  acalcMin | acalcMax | acalcEq | acalcLt | acalcLtu => exact acalc_keeps h
  | goto => exact execGoto_keeps h
  | goif => exact execGoif_keeps h
  | gosub => exact execGosub_keeps h
  | goret => exact execGoret_keeps h
  | endp => exact execEndp_keeps h
  | ctxnew => exact execCtxnew_keeps h
  | ctxfork => exact execCtxfork_keeps h
  | ctxdrop => exact execCtxdrop_keeps h
  | ctxtrim => exact execCtxtrim_keeps h
  | ctxlen => exact execCtxlen_keeps h
  | ctxpinHold => exact execCtxpinHold_keeps h
  | ctxpinRelease => exact execCtxpinRelease_keeps h
  | append => exact execAppend_keeps h
  | genu => exact execGenu_keeps h
  | score => exact execScore_keeps h
  | choose => exact execChoose_keeps h
  | tlit => exact execTlit_keeps h
  | tcat => exact execTcat_keeps h
  | tcut => exact execTcut_keeps h
  | tlen => exact execTlen_keeps h
  | tfind => exact execTfind_keeps h
  | tcmp => exact execTcmp_keeps h
  | tadd => exact execTadd_keeps h
  | tget => exact execTget_keeps h
  | post => exact execPost_keeps h
  | await => exact execAwait_keeps h
  | invoke => exact execInvoke_keeps h
  | stamp => exact execStamp_keeps h
  | qdoor => exact execQdoor_keeps h
  | lsub => exact execLsub_keeps h
  | mbox => exact execMbox_keeps h
  | bindQueue => exact execBindQueue_keeps h
  | unbindQueue => exact execUnbindQueue_keeps h
  | unbindQueueDrained => exact execUnbindQueueDrained_keeps h
  | releaseSlot => exact execReleaseSlot_keeps h
  | registerModelImage => exact execRegisterModelImage_keeps h
  | extendHostMemory => exact execExtendHostMemory_keeps h
  | killProgram => exact execKillProgram_keeps h
  | withdrawModelImage => exact execWithdrawModelImage_keeps h
  | kreq => exact execKreq_keeps h
  | fullFree => exact execFullFree_keeps h
  | deferredNoticePost => exact execDeferredNoticePost_keeps h
  | hostLoad => exact execHostLoad_keeps h
  | hostStore => exact execHostStore_keeps h
  | registerWrite => exact execRegisterWrite_keeps h
  | launchPacket => exact execLaunchPacket_keeps h
  | dependPacket => exact execDependPacket_keeps h
  | signalPacket => exact execSignalPacket_keeps h
  | fetchFencePacket => exact execFetchFencePacket_keeps h
  | fetchFenceRelease => exact execFetchFenceRelease_keeps h
  | stampPacket => exact execStampPacket_keeps h
  | slotFire => exact execSlotFire_keeps h
  | pendingLaunchPlace => exact execPendingLaunchPlace_keeps h
  | messageArrival => exact execMessageArrival_keeps h
  | messageHoldTimeout => exact execMessageHoldTimeout_keeps h
  | activationStart => exact execActivationStart_keeps h
  | stealRequest => exact execStealRequest_keeps h
  | emptyStealReply => exact execEmptyStealReply_keeps h
  | rinseTokenVisit => exact execRinseTokenVisit_keeps h
  | baraArrival => exact execBaraArrival_keeps h
  | brdComplete => exact execBrdComplete_keeps h
  | bwrComplete => exact execBwrComplete_keeps h
  | copyEngineChunk => exact execCopyEngineChunk_keeps h
  | pressCommandStart => exact execPressCommandStart_keeps h
  | mmaRetire => exact execMmaRetire_keeps h
  | mzeroExecute => exact execMzeroExecute_keeps h
  | mstExecute => exact execMstExecute_keeps h
  | mstComplete => exact execMstComplete_keeps h
  | accumulatorBankSwap => exact execAccumulatorBankSwap_keeps h
  | loadPerformed => exact execLoadPerformed_keeps h
  | storeTaken => exact execStoreTaken_keeps h
  | amoPerform => exact execAmoPerform_keeps h
  | spillComplete => exact execSpillComplete_keeps h
  | fillDeliver => exact execFillDeliver_keeps h
  | heldAccessResume => exact execHeldAccessResume_keeps h
  | heldAccessFail => exact execHeldAccessFail_keeps h
  | translationWalkComplete => exact execTranslationWalkComplete_keeps h
  | watchdogExpiry => exact execWatchdogExpiry_keeps h
  | softError => exact execSoftError_keeps h
  | spawnArrive => exact execSpawnArrive_keeps h
  | gainUpdateApply => exact execGainUpdateApply_keeps h
  | pileSample => exact execPileSample_keeps h
  | pileBroadcastReceive => exact execPileBroadcastReceive_keeps h
  | pileOffer => exact execPileOffer_keeps h
  | pileStealRequest => exact execPileStealRequest_keeps h
  | pileStealReply => exact execPileStealReply_keeps h
  | footprintFetchComplete => exact execFootprintFetchComplete_keeps h
  | pileRetire => exact execPileRetire_keeps h
  | freezeCapturePoint => exact execFreezeCapturePoint_keeps h
  | freezeComplete => exact execFreezeComplete_keeps h
  | thawComplete => exact execThawComplete_keeps h
  | markedReplayArrival => exact execMarkedReplayArrival_keeps h
  | batchingWindowClose => exact execBatchingWindowClose_keeps h
  | strictStepPlace => exact execStrictStepPlace_keeps h
  | stepLaunchComplete => exact execStepLaunchComplete_keeps h
  | tokenMarkWrite => exact execTokenMarkWrite_keeps h
  | awaitTimeout => exact execAwaitTimeout_keeps h
  | invokeComplete => exact execInvokeComplete_keeps h
  | residencyPlan => exact execResidencyPlan_keeps h
  | pageFoldComplete => exact execPageFoldComplete_keeps h
  | pageShelveComplete => exact execPageShelveComplete_keeps h
  | pageUnfoldComplete => exact execPageUnfoldComplete_keeps h
  | nvmeReadFail => exact execNvmeReadFail_keeps h
  | detachCopyComplete => exact execDetachCopyComplete_keeps h
  | pageRelease => exact execPageRelease_keeps h
  | sequencerRebuild => exact execSequencerRebuild_keeps h
  | ethernetFrameIngress => exact execEthernetFrameIngress_keeps h
  | heldDepositIssue => exact execHeldDepositIssue_keeps h
  | nvmeSubmissionCheck => exact execNvmeSubmissionCheck_keeps h
  | linkLaneFault => exact execLinkLaneFault_keeps h
  | bundleFault => exact execBundleFault_keeps h
  | channelFault => exact execChannelFault_keeps h
  | kernelCoreFault => exact execKernelCoreFault_keeps h
  | powerOnReset => exact execPowerOnReset_keeps h
  | thermalThrottle => exact execThermalThrottle_keeps h
  | thermalReset => exact execThermalReset_keeps h
  | reservedEncoding => exact execReservedEncoding_keeps h
  | livikIllopWord => exact execLivikIllopWord_keeps h
  | serviceRequestUnknownCode => exact execServiceRequestUnknownCode_keeps h
  | l2SliceFault => exact execL2SliceFault_keeps h
  | copyEngineFault => exact execCopyEngineFault_keeps h
  | islandFault => exact execIslandFault_keeps h
  | tlarriudPeerAccess => exact execTlarriudPeerAccess_keeps h
  | attestationReport => exact execAttestationReport_keeps h

theorem State.runWords_keeps {s : State} {w w2 : Word32} (h : MemInv s) : Kept (s.runWords w w2) := by
  unfold State.runWords
  split
  · exact exec_keeps h
  · exact execReservedEncoding_keeps h

/-- A trap that an issue takes before it decodes a word. -/
theorem MemInv.tickTrap {s : State} {t : TsId} {held : Bool} {code : ℕ} {addr : Word} (h : MemInv s) :
    MemInv ((s.tick t held).takeTrap t code addr) :=
  h.tick.takeTrap

theorem State.raiseWaiting_keeps {s : State} {t : TsId} {v : View} {pc : Word} {c : Cause} {addr : Word} (h : MemInv s) :
    Kept (s.raiseWaiting t v pc c addr) := by
  unfold State.raiseWaiting
  extract_lets raised
  have hraised : Kept raised := h.tickTrap
  split
  · exact h.tickTrap
  · exact hraised
  · rename_i w w2 _
    have hn : MemInv (s.noteFetch v pc w) := h.noteFetch
    have hrun : Kept ((s.noteFetch v pc w).runWords w w2) := State.runWords_keeps hn
    dsimp only
    split
    · rename_i hu
      rw [hu] at hrun
      refine Kept.ite hrun (Kept.ite hraised ?_)
      split
      · exact hn.tickTrap
      · exact hraised
    · exact hrun

theorem State.stepTs_keeps {s : State} {t : TsId} (h : MemInv s) : Kept (s.stepTs t) := by
  unfold State.stepTs
  extract_lets s1 x
  have h1 : MemInv s1 := h
  clear_value s1
  split
  · exact h1
  · split
    · exact State.raiseWaiting_keeps h1.tsSet
    · refine Kept.ite (execWatchdogExpiry_keeps h1) ?_
      split
      · exact h1.tickTrap
      · exact h1.stallTs
      · exact State.runWords_keeps h1.noteFetch

theorem State.stepProg_keeps {s : State} {slot : ℕ} (h : MemInv s) : Kept (s.stepProg slot) := by
  unfold State.stepProg
  extract_lets s1
  have h1 : MemInv s1 := h
  have hkill : ∀ c, MemInv (s1.pass.agentKill slot c) := fun _ => h1.pass.agentKill
  clear_value s1
  split
  · exact h1
  · refine Kept.ite h1 (Kept.ite (hkill _) (Kept.ite h1 (Kept.ite (hkill _) ?_)))
    split
    · exact hkill _
    · exact h1.pass.parkProg
    · exact h1
    · split
      · exact exec_keeps h1
      · exact execLivikIllopWord_keeps h1

/-- Every event of a list, done in a state with memories in canonical form, leaves them so. -/
def AllKeep (l : List Event) : Prop := ∀ e ∈ l, ∀ s, MemInv s → Kept (e s)

theorem AllKeep.nil : AllKeep [] := by
  intro e he
  cases he

theorem AllKeep.cons {e : Event} {l : List Event} (he : ∀ {s}, MemInv s → Kept (e s)) (hl : AllKeep l) : AllKeep (e :: l) := by
  intro d hd
  cases hd with
  | head => exact fun _ hs => he hs
  | tail _ hd => exact hl d hd

theorem AllKeep.one {e : Event} (he : ∀ {s}, MemInv s → Kept (e s)) : AllKeep [e] := AllKeep.cons he AllKeep.nil

theorem AllKeep.append {l r : List Event} (hl : AllKeep l) (hr : AllKeep r) : AllKeep (l ++ r) := by
  intro e he
  cases List.mem_append.mp he with
  | inl he => exact hl e he
  | inr he => exact hr e he

theorem AllKeep.map {α : Type} {f : α → Event} {l : List α} (hf : ∀ x {s}, MemInv s → Kept (f x s)) : AllKeep (l.map f) := by
  intro e he
  obtain ⟨x, -, rfl⟩ := List.mem_map.mp he
  exact fun _ hs => hf x hs

theorem AllKeep.flatMap {α : Type} {f : α → List Event} {l : List α} (hf : ∀ x, AllKeep (f x)) : AllKeep (l.flatMap f) := by
  intro e he
  obtain ⟨x, -, he⟩ := List.mem_flatMap.mp he
  exact hf x e he

theorem AllKeep.ite {c : Prop} [Decidable c] {l r : List Event} (hl : AllKeep l) (hr : AllKeep r) : AllKeep (if c then l else r) := by
  split
  · exact hl
  · exact hr

theorem AllKeep.rotate {n : ℕ} {l : List Event} (h : AllKeep l) : AllKeep (rotate n l) := by
  intro e he
  refine h e ?_
  cases List.mem_append.mp he with
  | inl he => exact List.mem_of_mem_drop he
  | inr he => exact List.mem_of_mem_take he

theorem opEvents_keep {o : Op} : AllKeep (opEvents o) := by
  unfold opEvents
  extract_lets id
  have hload : AllKeep [execLoadPerformed id] := .one execLoadPerformed_keeps
  have hstore : AllKeep [execStoreTaken id] := .one execStoreTaken_keeps
  have hgain : AllKeep [execMarkedReplayArrival id, execGainUpdateApply id] := .cons execMarkedReplayArrival_keeps
      (.one execGainUpdateApply_keeps)
  refine .append (.ite (.cons execHeldAccessResume_keeps (.one execHeldAccessFail_keeps)) .nil) ?_
  cases o.kind with
  | ld | vld | vgath | pref | ktlb | markq => exact hload
  | st | vst | vscat => exact hstore
  | amo => exact .cons execMarkedReplayArrival_keeps (.one execAmoPerform_keeps)
  | gain | gget => exact hgain
  | bara => exact .cons execMarkedReplayArrival_keeps (.one execBaraArrival_keeps)
  | brd => exact .one execBrdComplete_keeps
  | bwr => exact .one execBwrComplete_keeps
  | spill => exact .one execSpillComplete_keeps
  | fill => exact .one execFillDeliver_keeps
  | mst => exact .one execMstComplete_keeps
  | copy | freeze | thaw => exact .nil

theorem pnetEvents_keep {e : ℕ × PileNet} : AllKeep (pnetEvents e) := by
  unfold pnetEvents
  split
  · exact .cons execSpawnArrive_keeps (.one execMessageHoldTimeout_keeps)
  · exact .one execPileStealRequest_keeps
  · exact .one execPileStealReply_keeps
  · exact .one execFootprintFetchComplete_keeps
  · exact .one execPileRetire_keeps

theorem snetEvents_keep {e : ℕ × StealNet} : AllKeep (snetEvents e) := by
  unfold snetEvents
  split
  · exact .one execStealRequest_keeps
  · exact .one execEmptyStealReply_keeps

theorem packetEvents_keep {src : PacketSrc} {k : ℕ} : AllKeep (packetEvents src k) := by
  unfold packetEvents
  split
  · exact .one execDependPacket_keeps
  · exact .one execFetchFencePacket_keeps
  · exact .cons execSignalPacket_keeps (.one execLaunchPacket_keeps)
  · exact .cons execStampPacket_keeps (.one execLaunchPacket_keeps)
  · exact .one execLaunchPacket_keeps

theorem State.frontEvents_keep {s : State} : AllKeep s.frontEvents := by
  refine .append (.flatMap fun src => ?_) (.flatMap fun q => .append (.map fun _ => execSlotFire_keeps) (.ite
      (.one execFetchFenceRelease_keeps) .nil))
  split
  · exact packetEvents_keep
  · exact .nil

theorem State.launchEvents_keep {s : State} {l : Launch} : AllKeep (s.launchEvents l) := by
  unfold State.launchEvents
  split
  · exact .map fun _ => execSlotFire_keeps
  · exact .one execPendingLaunchPlace_keeps
  · extract_lets ts
    have hpile : AllKeep (ts.map execPileOffer ++ [execPileSample l.lid] ++ l.bundles.map fun b => execPileBroadcastReceive l.lid b) :=
      .append (.append (.map fun _ => execPileOffer_keeps) (.one execPileSample_keeps)) (.map fun _ => execPileBroadcastReceive_keeps)
    refine .append (.append (.append (.ite hpile .nil) (.map fun _ => execActivationStart_keeps)) (.one execRinseTokenVisit_keeps)) ?_
    exact .ite .nil (.one fun h => Kept.next h.sendSteals)

theorem State.bundleEvents_keep {s : State} {b : ℕ} : AllKeep (s.bundleEvents b) := by
  refine .append (.append (.ite ?_ .nil) (.ite ?_ .nil)) (.ite (.one execThawComplete_keeps) .nil)
  · exact .cons execMmaRetire_keeps (.cons execMzeroExecute_keeps (.cons execMstExecute_keeps
      (.cons execPressCommandStart_keeps (.one execAccumulatorBankSwap_keeps))))
  · exact .append (.map fun _ => execFreezeCapturePoint_keeps) (.one execFreezeComplete_keeps)

theorem progEvents_keep {p : Prog} : AllKeep (progEvents p) := by
  refine .append ?_ (.ite .nil (.one execDeferredNoticePost_keeps))
  split
  · exact .one execAwaitTimeout_keeps
  · exact .one execInvokeComplete_keeps
  · exact .nil

theorem State.planEvents_keep {s : State} : AllKeep s.planEvents := by
  have hplan : ∀ op {s}, MemInv s → Kept (execResidencyPlan op s) := fun _ _ => execResidencyPlan_keeps
  refine .append (.append (.flatMap fun _ => .map fun _ => hplan _) (.flatMap fun _ => .map fun _ => hplan _)) (.ite
      (.flatMap fun _ => ?_) .nil)
  exact .append (.map fun _ => hplan _) (.map fun _ => hplan _)

theorem State.pageEvents_keep {s : State} {i : ℕ} : AllKeep (s.pageEvents i) := by
  unfold State.pageEvents
  refine .ite ?_ (.ite (.one execPageRelease_keeps) .nil)
  split
  · exact .one execPageFoldComplete_keeps
  · exact .one execPageShelveComplete_keeps
  · exact .one execPageUnfoldComplete_keeps

theorem State.serviceEvents_keep {s : State} : AllKeep s.serviceEvents := by
  unfold State.serviceEvents
  split
  · exact .nil
  · split
    · exact .one execBindQueue_keeps
    · exact .cons execUnbindQueue_keeps (.one execUnbindQueueDrained_keeps)
    · exact .one execReleaseSlot_keeps
    · exact .one execRegisterModelImage_keeps
    · exact .one execExtendHostMemory_keeps
    · exact .one execKillProgram_keeps
    · exact .one execWithdrawModelImage_keeps
    · exact .one execServiceRequestUnknownCode_keeps

theorem State.events_keep {s : State} : AllKeep s.events := by
  unfold State.events
  refine .append (.append (.append (.append (.append (.append (.append (.append (.append (.append (.append (.append (.append (.append
      (.append
    (.append (.append (.append ?_ ?_) ?_) ?_) ?_) ?_) ?_) ?_) ?_) ?_) ?_) ?_) ?_) ?_) ?_) ?_) ?_) ?_) ?_
  · exact .flatMap fun _ => opEvents_keep
  · exact .map fun _ => execCopyEngineChunk_keeps
  · exact .flatMap fun _ => .cons execMessageArrival_keeps (.one execMessageHoldTimeout_keeps)
  · exact .flatMap fun _ => pnetEvents_keep
  · exact .flatMap fun _ => snetEvents_keep
  · exact State.frontEvents_keep
  · exact .flatMap fun _ => State.launchEvents_keep
  · exact .flatMap fun _ => State.bundleEvents_keep
  · exact .flatMap fun _ => .map fun _ => execActivationStart_keeps
  · exact State.serviceEvents_keep
  · exact .one fun h => Kept.next h.unpark
  · exact .map fun _ => execStepLaunchComplete_keeps
  · exact .flatMap fun _ => progEvents_keep
  · exact .map fun _ => execStrictStepPlace_keeps
  · exact .map fun _ => execBatchingWindowClose_keeps
  · exact .flatMap fun _ => State.pageEvents_keep
  · exact .map fun _ => execDetachCopyComplete_keeps
  · exact State.planEvents_keep
  · exact .map fun _ => execHeldDepositIssue_keeps

theorem State.moveTs_keeps {s : State} (h : MemInv s) : Yields Kept s.moveTs := by
  refine Yields.findSome fun t => ?_
  have ht : Kept (s.stepTs t) := State.stepTs_keeps h
  split
  · rename_i hu
    rw [hu] at ht
    split
    · exact ht
    · trivial
  · exact ht

theorem State.moveProg_keeps {s : State} (h : MemInv s) : Yields Kept s.moveProg := by
  refine Yields.findSome fun n => ?_
  have hn : Kept (s.stepProg n) := State.stepProg_keeps h
  split
  · rename_i hu
    rw [hu] at hn
    split
    · trivial
    · exact hn
  · exact hn

theorem State.moveEvent_keeps {s : State} (h : MemInv s) : Yields Kept s.moveEvent := by
  unfold State.moveEvent
  cases hf : (Sys2Proof.Machine.rotate (s.fresh / 8) s.events).findSome? _ with
  | none => trivial
  | some r =>
    obtain ⟨e, hmem, hr⟩ := List.exists_of_findSome?_eq_some hf
    have he : Kept (e s) := State.events_keep.rotate e hmem s h
    split at hr
    · rename_i hu
      rw [hu] at he
      split at hr
      · cases hr
      · cases hr
        exact he
    · cases hr
      exact he

theorem State.idle_keeps {s : State} (h : MemInv s) : Kept s.idle := by
  unfold State.idle
  split
  · exact State.stepTs_keeps h
  · exact h.pass

theorem Yields.orElse {α : Type} {P : α → Prop} {a b : Option α} (ha : Yields P a) (hb : Yields P b) : Yields P (a <|> b) := by
  cases a with
  | none => exact hb
  | some x => exact ha

theorem State.schedule_keeps {s : State} (h : MemInv s) : Kept s.schedule := by
  have ht : Yields Kept s.moveTs := State.moveTs_keeps h
  have hp : Yields Kept s.moveProg := State.moveProg_keeps h
  have he : Yields Kept s.moveEvent := State.moveEvent_keeps h
  unfold State.schedule
  extract_lets pick
  have hpick : Yields Kept pick := by
    dsimp only [pick]
    split
    · exact hp.orElse (ht.orElse he)
    · exact he.orElse (ht.orElse hp)
    · exact ht.orElse (hp.orElse he)
  clear_value pick
  cases pick with
  | none => exact State.idle_keeps h
  | some r => exact hpick

theorem step_keeps {s : State} (h : MemInv s) : Kept (step s) := by
  unfold step
  split
  · exact Kept.ite (exec_keeps h) h
  · exact Kept.ite trivial (Kept.ite trivial (State.schedule_keeps h))

/-- Settles O57: a step is an instruction's or an event's meaning, or a trap or a wait before it, and each of these touches the memories
only through the writes that keep them canonical. -/
theorem stepKeepsMemories : Obligations.StepKeepsMemories := by
  unfold Obligations.StepKeepsMemories
  intro s u h hu
  have hs : Kept (step s) := step_keeps h
  rw [hu] at hs
  exact hs

end Sys2Proof.Machine
end

section
/-!
Bytes of a word, and what a range of memory reads after it was written (R3).
-/

namespace Sys2Proof.Machine

open Sys2Proof Sys2Proof.Claims

@[simp] theorem length_leBytes (n x : Nat) : (leBytes n x).length = n := by
  induction n generalizing x with
  | zero => rfl
  | succ n ih => simp [leBytes, ih]

theorem leBytes_getElem? {n k : Nat} (h : k < n) (x : Nat) : (leBytes n x)[k]? = some (BitVec.ofNat 8 (x / 256 ^ k)) := by
  induction k generalizing n x with
  | zero =>
    obtain ⟨n, rfl⟩ := Nat.exists_eq_succ_of_ne_zero (Nat.ne_of_gt h)
    simp [leBytes]
  | succ k ih =>
    obtain ⟨n, rfl⟩ := Nat.exists_eq_succ_of_ne_zero (Nat.ne_of_gt (Nat.lt_of_le_of_lt (Nat.zero_le _) h))
    rw [leBytes, List.getElem?_cons_succ, ih (Nat.lt_of_succ_lt_succ h), Nat.div_div_eq_div_mul, Nat.pow_succ']

theorem leNat_leBytes (n x : Nat) : leNat (leBytes n x) = x % 256 ^ n := by
  induction n generalizing x with
  | zero => simp [leBytes, leNat, Nat.mod_one]
  | succ n ih => rw [leBytes, leNat, ih, BitVec.toNat_ofNat, show 256 ^ (n + 1) = 256 * 256 ^ n from Nat.pow_succ', Nat.mod_mul]

theorem w64_leBytes (x : Word) : w64 (leBytes 8 x.toNat) = x := by
  apply BitVec.eq_of_toNat_eq
  have hx : x.toNat < 2 ^ 64 := x.isLt
  rw [w64, leNat_leBytes, BitVec.toNat_ofNat]
  omega

@[simp] theorem State.length_rd (s : State) (a n : Nat) : (s.rd a n).length = n := by
  induction n generalizing a with
  | zero => rfl
  | succ n ih => simp [State.rd, ih]

theorem State.rd_getElem? (s : State) {n k : Nat} (h : k < n) (a : Nat) : (s.rd a n)[k]? = some (s.rdByte (a + k)) := by
  induction k generalizing n a with
  | zero =>
    obtain ⟨n, rfl⟩ := Nat.exists_eq_succ_of_ne_zero (Nat.ne_of_gt h)
    simp [State.rd]
  | succ k ih =>
    obtain ⟨n, rfl⟩ := Nat.exists_eq_succ_of_ne_zero (Nat.ne_of_gt (Nat.lt_of_le_of_lt (Nat.zero_le _) h))
    rw [State.rd, List.getElem?_cons_succ, ih (Nat.lt_of_succ_lt_succ h), Nat.add_right_comm, Nat.add_assoc]

theorem State.noChannel_wrByte (s : State) (a x : Nat) (b : Byte) : (s.wrByte a b).noChannel x = s.noChannel x := by
  unfold State.wrByte
  split
  · rfl
  · split
    · rfl
    · rfl

/-- Bytes that read as they are written: stack memory of present channels, and scratchpad that no block read is about to write. -/
def Lasting (s : State) (a n : Nat) : Prop := ∀ i, i < n → if scratchBase ≤ a + i then s.inBrd (a + i) = false else s.noChannel (a + i) = false

theorem Lasting.of_plain {s : State} {a n : Nat} (h : plain s a n) : Lasting s a n := by
  intro i hi
  obtain ⟨hbrd, hch⟩ := h i hi
  split
  · exact hbrd
  · rename_i ha
    exact hch (Nat.lt_of_not_le ha)

theorem Lasting.of_inRam {s : State} {a n : Nat} (h : inRam s a n) : Lasting s a n := by
  intro i hi
  obtain ⟨hend, hch⟩ := h
  rw [if_neg (by omega)]
  exact hch i hi

theorem Lasting.wrByte {s : State} {a n : Nat} (h : Lasting s a n) (x : Nat) (b : Byte) : Lasting (s.wrByte x b) a n := by
  intro i hi
  rw [State.inBrd_wrByte, State.noChannel_wrByte]
  exact h i hi

theorem Lasting.tail {s : State} {a n : Nat} (h : Lasting s a (n + 1)) : Lasting s (a + 1) n := by
  intro i hi
  rw [Nat.add_right_comm, Nat.add_assoc]
  exact h (i + 1) (Nat.succ_lt_succ hi)

theorem Lasting.rdByte_wrByte {s : State} {a n : Nat} (h : Lasting s a (n + 1)) (b : Byte) : (s.wrByte a b).rdByte a = b := by
  have h0 := h 0 (Nat.succ_pos n)
  rw [Nat.add_zero] at h0
  by_cases ha : scratchBase ≤ a
  · rw [if_pos ha] at h0
    exact State.rdByte_wrByte_self s a b (.inl ha) h0
  · rw [if_neg ha] at h0
    rw [State.rdByte, if_neg ha, State.noChannel_wrByte, h0]
    simp [State.wrByte, ha, h0, Cells.getD_put_self]

/-- A range that lasts reads as it was written. -/
theorem Lasting.rd_wr (d : List Byte) {s : State} {a : Nat} (h : Lasting s a d.length) : (s.wr a d).rd a d.length = d := by
  induction d generalizing s a with
  | nil => rfl
  | cons b r ih =>
    rw [List.length_cons, State.rd, State.wr, ih (h.wrByte a b).tail, State.rdByte_wr_outside _ _ _ _ (.inl (Nat.lt_succ_self a)), h.rdByte_wrByte]

theorem State.rd_congr {s u : State} {a n : Nat} (h : ∀ i, i < n → u.rdByte (a + i) = s.rdByte (a + i)) : u.rd a n = s.rd a n := by
  induction n generalizing a with
  | zero => rfl
  | succ n ih =>
    have htail : u.rd (a + 1) n = s.rd (a + 1) n := ih fun i hi => by
      rw [Nat.add_right_comm, Nat.add_assoc]
      exact h (i + 1) (Nat.succ_lt_succ hi)
    rw [State.rd, State.rd, htail, show u.rdByte a = s.rdByte a from h 0 (Nat.succ_pos n)]

theorem Lasting.rd_wr64 {s : State} {a : Nat} (h : Lasting s a 8) (x : Word) : (s.wr64 a x).rd a 8 = leBytes 8 x.toNat := by
  have hlen : (leBytes 8 x.toNat).length = 8 := length_leBytes 8 _
  have hrd := Lasting.rd_wr (leBytes 8 x.toNat) (hlen.symm ▸ h)
  rwa [hlen] at hrd

theorem Lasting.rd64_wr64 {s : State} {a : Nat} (h : Lasting s a 8) (x : Word) : (s.wr64 a x).rd64 a = x := by
  rw [State.rd64, h.rd_wr64, w64_leBytes]

theorem State.rdByte_wr64_outside (s : State) (x : Word) {a b : Nat} (h : b < a ∨ a + 8 ≤ b) : (s.wr64 a x).rdByte b = s.rdByte b :=
  State.rdByte_wr_outside _ s a b ((length_leBytes 8 _).symm ▸ h)

theorem State.rd64_wr64_outside (s : State) (x : Word) {a b : Nat} (h : b + 8 ≤ a ∨ a + 8 ≤ b) : (s.wr64 a x).rd64 b = s.rd64 b := by
  rw [State.rd64, State.rd64, State.rd_congr fun i hi => State.rdByte_wr64_outside s x (by omega)]

/-- Settles O60: a word reads back as written, byte by byte from the least significant, and nothing beside it changes. -/
theorem littleEndianWords : Obligations.LittleEndianWords := by
  unfold Obligations.LittleEndianWords
  intro s a x h
  refine ⟨(Lasting.of_plain h).rd64_wr64 x, fun k hk => ?_, fun b hb _ => State.rdByte_wr64_outside s x hb⟩
  have hbyte := State.rd_getElem? (s.wr64 a x) hk a
  rw [(Lasting.of_plain h).rd_wr64, leBytes_getElem? hk, Option.some.injEq] at hbyte
  rw [← hbyte]
  apply BitVec.eq_of_toNat_eq
  rw [BitVec.toNat_ofNat, BitVec.extractLsb'_toNat, Nat.shiftRight_eq_div_pow, Nat.pow_mul]

end Sys2Proof.Machine
end

section
/-!
What the operations of a program leave of the others and of itself, and what the host's doorbells, kills and accesses do (R24, R49, R197 to R203).
-/

namespace Sys2Proof.Machine

open Sys2Proof Sys2Proof.Claims

/-! ## Programs by slot -/

theorem State.prog_congr {s u : State} (h : u.progs = s.progs) (n : Nat) : u.prog n = s.prog n := by
  rw [State.prog, State.prog, h]

theorem State.slot_of_prog {s : State} {n : Nat} {p : Prog} (h : s.prog n = some p) : p.slot = n :=
  of_decide_eq_true (List.find?_some (p := fun p : Prog => decide (p.slot = n)) h)

theorem State.prog_of_map {s u : State} {g : Prog → Prog} (hg : ∀ p, (g p).slot = p.slot) (h : u.progs = s.progs.map g) (n : Nat) :
    u.prog n = (s.prog n).map g := by
  rw [State.prog, State.prog, h, List.find?_map]
  congr 2
  funext p
  simp [hg]

theorem State.prog_onProg {s : State} {slot : Nat} {f : Prog → Prog} (hf : ∀ p, (f p).slot = p.slot) (n : Nat) :
    (s.onProg slot f).prog n = (s.prog n).map fun p => if p.slot = slot then f p else p := by
  refine State.prog_of_map (fun p => ?_) rfl n
  split
  · exact hf p
  · rfl

theorem State.prog_onProg_self {s : State} {slot : Nat} {f : Prog → Prog} (hf : ∀ p, (f p).slot = p.slot) {p : Prog} (h : s.prog slot = some p) :
    (s.onProg slot f).prog slot = some (f p) := by
  rw [State.prog_onProg hf, h, Option.map_some, if_pos (State.slot_of_prog h)]

theorem State.prog_onProg_ne {s : State} {slot : Nat} {f : Prog → Prog} (hf : ∀ p, (f p).slot = p.slot) {n : Nat} (h : n ≠ slot) :
    (s.onProg slot f).prog n = s.prog n := by
  rw [State.prog_onProg hf]
  cases hp : s.prog n with
  | none => rfl
  | some p => rw [Option.map_some, if_neg fun e => h ((State.slot_of_prog hp).symm.trans e)]

/-- A state change moves a program to the end of the list, and changes its state and perhaps its place. -/
theorem State.prog_setPState_self {s : State} {slot : Nat} {st : PState} {tail : Bool} {p : Prog} (h : s.prog slot = some p) :
    ∃ place qy, (s.setPState slot st tail).prog slot = some { p with state := st, place := place, qy := qy } := by
  have hslot := State.slot_of_prog h
  have hgone : ∀ l : List Prog, (l.filter fun q => decide (q.slot ≠ slot)).find? (fun q => decide (q.slot = slot)) = none := fun l =>
    List.find?_eq_none.mpr fun q hq => by
      have := (List.mem_filter.mp hq).2
      simpa using this
  rw [State.setPState, h]
  cases tail with
  | true =>
    refine ⟨s.nextId, 0, ?_⟩
    simp only [State.prog, List.find?_append, hgone]
    simp [hslot]
  | false =>
    refine ⟨p.place, p.qy, ?_⟩
    simp only [State.prog, List.find?_append, hgone]
    simp [hslot]

theorem State.prog_setPState_ne {s : State} {slot : Nat} {st : PState} {tail : Bool} {n : Nat} (h : n ≠ slot) :
    (s.setPState slot st tail).prog n = s.prog n := by
  rw [State.setPState]
  split
  · rfl
  · rename_i p hp
    have hslot := State.slot_of_prog hp
    have hlast : ∀ q : Prog, q.slot = slot → ([q].find? fun q => decide (q.slot = n)) = none := fun q hq => by simp [hq, Ne.symm h]
    have hkeep : (s.progs.filter fun q => decide (q.slot ≠ slot)).find? (fun q => decide (q.slot = n)) = s.progs.find? fun q => decide (q.slot = n) := by
      rw [List.find?_filter]
      congr 1
      funext q
      by_cases hq : q.slot = n
      · simp [hq, h]
      · simp [hq]
    simp only [State.prog, List.find?_append, hkeep]
    rw [hlast _ (by split <;> exact hslot), Option.or_none]

/-! ## What an operation leaves of a program -/

/-- What a kill leaves of a program for others to see: its state, FAULT, PC, RETN, what its launch waits for, and its park. -/
structure SameEnd (p q : Prog) : Prop where
  state : q.state = p.state
  fault : q.fault = p.fault
  pc : q.pc = p.pc
  retn : q.retn = p.retn
  await : q.await = p.await
  park : q.park = p.park

theorem SameEnd.refl (p : Prog) : SameEnd p p := ⟨rfl, rfl, rfl, rfl, rfl, rfl⟩

theorem SameEnd.trans {p q r : Prog} (h : SameEnd p q) (k : SameEnd q r) : SameEnd p r :=
  ⟨k.state.trans h.state, k.fault.trans h.fault, k.pc.trans h.pc, k.retn.trans h.retn, k.await.trans h.await, k.park.trans h.park⟩

/-- From `s` to `u` the present channels stay, and so does program `n` but for what `SameEnd` leaves out. -/
def Follows (n : Nat) (s u : State) : Prop := u.absentCh = s.absentCh ∧ ∀ p, s.prog n = some p → ∃ q, u.prog n = some q ∧ SameEnd p q

section

variable {n : Nat} {s u w : State}

theorem Follows.refl : Follows n s s := ⟨rfl, fun p hp => ⟨p, hp, SameEnd.refl p⟩⟩

theorem Follows.trans (h : Follows n s u) (k : Follows n u w) : Follows n s w := by
  refine ⟨k.1.trans h.1, fun p hp => ?_⟩
  obtain ⟨q, hq, hpq⟩ := h.2 p hp
  obtain ⟨r, hr, hqr⟩ := k.2 q hq
  exact ⟨r, hr, hpq.trans hqr⟩

theorem Follows.same (h : Follows n s u) (hp : w.progs = u.progs) (ha : w.absentCh = u.absentCh) : Follows n s w :=
  h.trans ⟨ha, fun p hu => ⟨p, (State.prog_congr hp n).trans hu, SameEnd.refl p⟩⟩

theorem Follows.map {g : Prog → Prog} (h : Follows n s u) (hg : ∀ p, (g p).slot = p.slot) (he : ∀ p, SameEnd p (g p))
    (hp : w.progs = u.progs.map g) (ha : w.absentCh = u.absentCh) : Follows n s w := by
  refine h.trans ⟨ha, fun p hu => ⟨g p, ?_, he p⟩⟩
  rw [State.prog_of_map hg hp, hu, Option.map_some]

theorem Follows.onProg {slot : Nat} {f : Prog → Prog} (h : Follows n s u) (hf : ∀ p, (f p).slot = p.slot) (he : ∀ p, SameEnd p (f p)) :
    Follows n s (u.onProg slot f) := by
  refine h.map (g := fun p => if p.slot = slot then f p else p) (fun p => ?_) (fun p => ?_) rfl rfl
  · split
    · exact hf p
    · rfl
  · split
    · exact he p
    · exact SameEnd.refl p

theorem Follows.ite {c : Prop} [Decidable c] (h : Follows n s u) (k : Follows n s w) : Follows n s (if c then u else w) := by
  split
  · exact h
  · exact k

theorem Follows.foldl {α : Type} {f : State → α → State} {l : List α} (h : Follows n s u) (hf : ∀ v x, Follows n s v → Follows n s (f v x)) :
    Follows n s (l.foldl f u) := l.foldlRecOn f h fun v hv x _ => hf v x hv

theorem State.wr_progs (s : State) (a : Nat) (d : List Byte) : (s.wr a d).progs = s.progs := by rw [State.wr_frame]
theorem State.wr_absentCh (s : State) (a : Nat) (d : List Byte) : (s.wr a d).absentCh = s.absentCh := by rw [State.wr_frame]
theorem State.wr_services (s : State) (a : Nat) (d : List Byte) : (s.wr a d).services = s.services := by rw [State.wr_frame]
theorem State.wrPhys_absentCh (s : State) (a : Nat) (d : List Byte) : (s.wrPhys a d).absentCh = s.absentCh := by rw [State.wrPhys_frame]

theorem Follows.wr {a : Nat} {d : List Byte} (h : Follows n s u) : Follows n s (u.wr a d) := h.same (State.wr_progs u a d) (State.wr_absentCh u a d)
theorem Follows.wrPhys {a : Nat} {d : List Byte} (h : Follows n s u) : Follows n s (u.wrPhys a d) :=
  h.same (State.wrPhys_progs u a d) (State.wrPhys_absentCh u a d)

/-! ### Pages, contexts and frames -/

theorem Follows.setPage {i : Nat} {e : PageE} (h : Follows n s u) : Follows n s (u.setPage i e) :=
  (h.same (w := { u with pages := Assoc.set u.pages i e }) rfl rfl).wrPhys

theorem Follows.onPage {i : Nat} {f : PageE → PageE} (h : Follows n s u) : Follows n s (u.onPage i f) := h.setPage

theorem Follows.setLc {cid : Nat} {c : LCtx} (h : Follows n s u) : Follows n s (u.setLc cid c) := by
  have ht : Follows n s { u with lctx := Assoc.set u.lctx cid c } := h.same rfl rfl
  exact Follows.ite ht ht.wrPhys

theorem Follows.onLc {cid : Nat} {f : LCtx → LCtx} (h : Follows n s u) : Follows n s (u.onLc cid f) := h.setLc

theorem Follows.handFrame {frame units : Nat} (h : Follows n s u) : Follows n s (u.handFrame frame units) := by
  unfold State.handFrame
  refine Follows.ite h ?_
  split
  · exact h.same rfl rfl
  · exact h.same rfl rfl

theorem Follows.quarantine {cid : Nat} (h : Follows n s u) : Follows n s (u.quarantine cid) := by
  refine Follows.onLc (Follows.map h ?_ ?_ rfl rfl)
  · exact fun _ => rfl
  · exact fun _ => ⟨rfl, rfl, rfl, rfl, rfl, rfl⟩

theorem Follows.giveTier {res loc units : Nat} (h : Follows n s u) : Follows n s (u.giveTier res loc units) := by
  unfold State.giveTier
  split
  · exact h.handFrame
  · exact h.same rfl rfl
  · exact h.same rfl rfl

theorem Follows.release {i : Nat} (h : Follows n s u) : Follows n s (u.release i) :=
  Follows.ite h (Follows.ite h.setPage.giveTier.giveTier h.setPage.giveTier)

theorem Follows.detachUndo {cid : Nat} (h : Follows n s u) : Follows n s (u.detachUndo cid) := by
  unfold State.detachUndo
  split
  · exact h
  · refine Follows.handFrame (Follows.onLc (Follows.onPage ?_))
    split
    · exact h
    · exact h.setPage

theorem Follows.ctxDrop {cid : Nat} (h : Follows n s u) : Follows n s (u.ctxDrop cid) := by
  have hl : ∀ {v c}, Follows n s v → Follows n s (State.setLc v cid c) := fun hv => hv.setLc
  unfold State.ctxDrop
  refine Follows.ite h (Follows.foldl (Follows.ite (Follows.quarantine (hl ?_)) (hl ?_)) fun _ _ hv => hv.release)
  · exact Follows.foldl h fun _ _ hv => hv.onPage
  · exact Follows.foldl h fun _ _ hv => hv.onPage

theorem Follows.unbusy {slot : Nat} (h : Follows n s u) : Follows n s (u.unbusy slot) := h.same rfl rfl

theorem Follows.dropFrames {slot : Nat} (h : Follows n s u) : Follows n s (u.dropFrames slot) := by
  have hr : Follows n s { u with reserved := u.reserved.filter fun r => decide (r.1 ≠ slot) } := h.same rfl rfl
  exact hr.foldl fun _ _ hv => hv.handFrame

/-! ### Notices, state blocks, and the end of parks -/

theorem Follows.hostPut {p : Prog} {cls : Nat} {tag val retn : Word} {pay : List Byte} (h : Follows n s u) :
    Follows n s (u.hostPut p cls tag val retn pay) :=
  Follows.onProg (Follows.wr (Follows.wrPhys (Follows.ite h h.wrPhys))) (fun _ => rfl) fun _ => ⟨rfl, rfl, rfl, rfl, rfl, rfl⟩

theorem Follows.notice {slot : Nat} {tag : Word} {rec : Vec} (h : Follows n s u) : Follows n s (u.notice slot tag rec) := by
  unfold State.notice
  split
  · exact h
  · exact Follows.ite (h.onProg (fun _ => rfl) fun _ => ⟨rfl, rfl, rfl, rfl, rfl, rfl⟩) h.hostPut

theorem Follows.endNotice {slot : Nat} (h : Follows n s u) : Follows n s (u.endNotice slot) := by
  unfold State.endNotice
  split
  · exact h
  · exact h.notice

theorem Follows.syncBlock {slot : Nat} (h : Follows n s u) : Follows n s (u.syncBlock slot) := by
  unfold State.syncBlock
  split
  · exact h
  · exact Follows.foldl h.wrPhys.wrPhys fun _ _ hv => Follows.ite hv hv.wrPhys

theorem State.openWindow_progs (s : State) (slot : Nat) : (s.openWindow slot).progs = s.progs := by
  unfold State.openWindow
  split
  · rfl
  · split
    · rfl
    · dsimp only
      split
      · rfl
      · rfl
theorem State.openWindow_absentCh (s : State) (slot : Nat) : (s.openWindow slot).absentCh = s.absentCh := by
  unfold State.openWindow
  split
  · rfl
  · split
    · rfl
    · dsimp only
      split
      · rfl
      · rfl

theorem State.setPState_absentCh (s : State) (slot : Nat) (st : PState) (tail : Bool) : (s.setPState slot st tail).absentCh = s.absentCh := by
  unfold State.setPState
  split
  · rfl
  · rfl

theorem Follows.setPState {slot : Nat} {st : PState} {tail : Bool} (h : Follows n s u) (hn : n ≠ slot) : Follows n s (u.setPState slot st tail) :=
  h.trans ⟨State.setPState_absentCh u slot st tail, fun p hp => ⟨p, (State.prog_setPState_ne hn).trans hp, SameEnd.refl p⟩⟩

/-- The end of parks leaves a program as it is that is not parked. -/
theorem Follows.unpark {p : Prog} (h : Follows n s u) (hp : s.prog n = some p) (hs : p.state ≠ .parked) : Follows n s u.unpark := by
  refine h.foldl fun v q hv => ?_
  split
  · exact hv
  · rename_i r hr
    split
    · rename_i hpark
      have hne : n ≠ r.slot := by
        rintro rfl
        obtain ⟨t, ht, hpt⟩ := hv.2 p hp
        rw [State.slot_of_prog hr, hr, Option.some.injEq] at ht
        exact hs (by rw [← hpt.state, ← ht, hpark.1])
      have hopen : ∀ {x : State}, Follows n s x → Follows n s (x.openWindow r.slot) := fun hx =>
        hx.same (State.openWindow_progs _ _) (State.openWindow_absentCh _ _)
      refine hopen (Follows.setPState (hv.trans ⟨rfl, fun t ht => ⟨t, ?_, SameEnd.refl t⟩⟩) hne)
      refine (State.prog_onProg_ne ?_ hne).trans ht
      exact fun _ => rfl
    · exact hv

end

end Sys2Proof.Machine
end

section
/-!
Kills, doorbells, host mailboxes, and what the host reads and writes (R24, R49, R50, R197 to R203): the parts of O32.
-/

namespace Sys2Proof.Machine

open Sys2Proof Sys2Proof.Claims

/-! ## Kills -/

/-- The device's agents have ended program `p` with a code: `u` is `s` after that, the present channels the same. -/
def Ended (s : State) (slot code : Nat) (p : Prog) (u : State) : Prop :=
  u.absentCh = s.absentCh ∧ ∃ q, u.prog slot = some q ∧ q.state = .killed ∧ q.fault = code ∧ q.pc = p.pc ∧ q.retn = p.retn ∧
    q.await = (if p.packetLeft then p.await else .none) ∧ q.park = []

/-- What `agentKill` keeps of the wait for a launch is what `packetLeft` tells. -/
theorem packetLeft_await (p : Prog) : (match p.await with
    | .launch a (some ws) lid st => AwaitOn.launch a (some ws) lid st
    | _ => .none) = if p.packetLeft then p.await else .none := by
  unfold Prog.packetLeft
  cases p.await with
  | none => rfl
  | mbox => rfl
  | launch a packet lid st => cases packet <;> rfl

/-- A kill ends the program, and all else that it sets going leaves the program as the kill has made it. -/
theorem State.agentKill_ended {s : State} {slot code : Nat} {p : Prog} (h : s.prog slot = some p) : Ended s slot code p (s.agentKill slot code) := by
  unfold State.agentKill
  split
  · rename_i hn
    rw [hn] at h
    cases h
  rename_i r hr
  obtain rfl : r = p := by
    rw [hr] at h
    exact Option.some.inj h
  extract_lets await s1 s2 s3 s4 s5 s6
  have h1 : s1.prog slot = some
      { r with fault := code, scratch := 0, long := none, samp := none, await := await, park := [], kreq := false, lost := false } := by
    refine State.prog_onProg_self ?_ h
    exact fun _ => rfl
  obtain ⟨place, qy, h2⟩ := State.prog_setPState_self (st := .killed) (tail := false) h1
  have ha : s2.absentCh = s.absentCh := State.setPState_absentCh s1 slot .killed false
  have h3 : Follows slot s2 s3 := by
    dsimp only [s3]
    split
    · exact Follows.refl.detachUndo
    · exact Follows.refl
  have h4 : Follows slot s2 s4 := Follows.ite h3 h3.ctxDrop
  have h6 : Follows slot s2 s6 := h4.unbusy.dropFrames.same rfl rfl
  have hend : Follows slot s2 ((s6.endNotice slot).syncBlock slot).unpark := h6.endNotice.syncBlock.unpark h2 nofun
  obtain ⟨q, hq, he⟩ := hend.2 _ h2
  exact ⟨hend.1.trans ha, q, hq, he.state, he.fault, he.pc, he.retn, he.await.trans (packetLeft_await r), he.park⟩

theorem State.requestKill_batched {s : State} {slot : Nat} {p : Prog} (h : s.prog slot = some p) (hp : p.state = .batched) :
    s.requestKill slot = s.onProg slot fun p => { p with kreq := true } := by
  simp [State.requestKill, h, hp]

theorem State.requestKill_over {s : State} {slot : Nat} {p : Prog} (h : s.prog slot = some p) (hp : p.state = .done ∨ p.state = .killed) :
    s.requestKill slot = s := by
  rcases hp with hp | hp
  · simp [State.requestKill, h, hp]
  · simp [State.requestKill, h, hp]

theorem State.requestKill_live {s : State} {slot : Nat} {p : Prog} (h : s.prog slot = some p)
    (hp : p.state = .ready ∨ p.state = .parked ∨ p.state = .awaiting) : s.requestKill slot = s.agentKill slot 0x0D := by
  rcases hp with hp | hp | hp
  · simp [State.requestKill, h, hp]
  · simp [State.requestKill, h, hp]
  · simp [State.requestKill, h, hp]

theorem State.requestKill_absentCh (s : State) (slot : Nat) : (s.requestKill slot).absentCh = s.absentCh := by
  cases h : s.prog slot with
  | none => simp [State.requestKill, h]
  | some p =>
    cases hp : p.state with
    | batched => rw [State.requestKill_batched h hp]; rfl
    | done => rw [State.requestKill_over h (.inl hp)]
    | killed => rw [State.requestKill_over h (.inr hp)]
    | ready => rw [State.requestKill_live h (.inl hp)]; exact (State.agentKill_ended h).1
    | parked => rw [State.requestKill_live h (.inr (.inl hp))]; exact (State.agentKill_ended h).1
    | awaiting => rw [State.requestKill_live h (.inr (.inr hp))]; exact (State.agentKill_ended h).1

/-! ## Answers to service requests -/

theorem noChannel_congr {s u : State} (h : u.absentCh = s.absentCh) (x : Nat) : u.noChannel x = s.noChannel x := by
  rw [State.noChannel, State.noChannel, h]

theorem inRam_congr {s u : State} (h : u.absentCh = s.absentCh) {a n : Nat} (hr : inRam s a n) : inRam u a n :=
  ⟨hr.1, fun i hi => (noChannel_congr h (a + i)).trans (hr.2 i hi)⟩

theorem inRam_part {s : State} {a n : Nat} (h : inRam s a n) {k m : Nat} (hk : k + m ≤ n) : inRam s (a + k) m := by
  obtain ⟨hend, hch⟩ := h
  refine ⟨by omega, fun i hi => ?_⟩
  rw [Nat.add_assoc]
  exact hch (k + i) (by omega)

theorem svcReply_progs (s : State) (a status : Nat) (reply : Word) : (s.svcReply a status reply).progs = s.progs := by
  simp only [State.svcReply, State.wr64, State.wr_progs]

/-- A reply to the oldest request answers it, where the service has kept the present channels. -/
theorem svcReply_answered {s t : State} {rest : List Nat} (h : t.absentCh = s.absentCh) (ht : t.services = rest) (a status : Nat) (reply : Word) :
    answered s (t.svcReply a status reply) a rest status reply := by
  refine ⟨by simp only [State.svcReply, State.wr64, State.wr_services, ht], fun hr => ?_⟩
  have hlast : ∀ {u : State} k, u.absentCh = s.absentCh → k + 8 ≤ 256 → Lasting u (a + k) 8 := fun k hu hk =>
    Lasting.of_inRam (inRam_part (inRam_congr hu hr) hk)
  unfold State.svcReply
  refine ⟨?_, ?_, ?_⟩
  · rw [State.rd64_wr64_outside _ _ (by omega), State.rd64_wr64_outside _ _ (by omega)]
    exact (hlast 0x80 h (by omega)).rd64_wr64 _
  · rw [State.rd64_wr64_outside _ _ (by omega)]
    exact (hlast 0x88 ((State.wr_absentCh _ _ _).trans h) (by omega)).rd64_wr64 _
  · exact (hlast 0xF8 ((State.wr_absentCh _ _ _).trans ((State.wr_absentCh _ _ _).trans h)) (by omega)).rd64_wr64 _

theorem execKillProgram_eq {s : State} {a slot : Nat} {rest : List Nat} {p : Prog} (hs : s.services = a :: rest)
    (hop : fieldB (s.rd a 256) 0 4 = 6) (hclean : svcClean 6 (s.rd a 256) = true) (hslot : fieldB (s.rd a 256) 0x08 8 = slot)
    (hp : s.prog slot = some p) :
    execKillProgram s = .next (({ s.requestKill slot with services := rest } : State).svcReply a 0 0) := by
  simp [execKillProgram, State.serve, hs, hop, hclean, hslot, hp, State.slot_of_prog hp]

theorem killRequestResult : KillRequestResult := by
  intro s slot p hp
  refine ⟨fun hb => ?_, fun ho => ?_, fun hl => ?_, fun a rest hs hop hclean hslot => ?_⟩
  · refine ⟨_, congrArg Host.Outcome.next (State.requestKill_batched hp hb), ?_, fun n hn => ?_⟩
    · refine State.prog_onProg_self ?_ hp
      exact fun _ => rfl
    · refine State.prog_onProg_ne ?_ hn
      exact fun _ => rfl
  · exact congrArg Host.Outcome.next (State.requestKill_over hp ho)
  · obtain ⟨-, q, hq, hstate, hfault, hpc, hretn, hawait, hpark⟩ := State.agentKill_ended (code := 0x0D) hp
    exact ⟨_, q, congrArg Host.Outcome.next (State.requestKill_live hp hl), hq, hstate, hfault, hpc, hretn, hawait, hpark⟩
  · have ht : ({ s.requestKill slot with services := rest } : State).absentCh = s.absentCh := State.requestKill_absentCh s slot
    have hsv : ({ s.requestKill slot with services := rest } : State).services = rest := rfl
    refine ⟨_, execKillProgram_eq hs hop hclean hslot hp, svcReply_answered ht hsv a 0 0, fun hr => ?_⟩
    obtain ⟨-, q, hq, hstate, -⟩ := State.agentKill_ended (code := 0x0D) hp
    refine ⟨q, ?_, hstate⟩
    rw [State.prog_congr (svcReply_progs _ a 0 0), ← hq, State.requestKill_live hp (.inl hr)]
    rfl

/-! ## What the host reads and writes -/

theorem State.rd_eq_map (s : State) (a n : Nat) : s.rd a n = (List.range n).map fun i => s.rdByte (a + i) := by
  refine List.ext_getElem? fun k => ?_
  by_cases hk : k < n
  · rw [State.rd_getElem? s hk, List.getElem?_map, List.getElem?_range hk, Option.map_some]
  · rw [List.getElem?_eq_none (by simpa using hk), List.getElem?_eq_none (by simpa using hk)]

/-- From `s` to `u`, stores of the host to `n` bytes at `a` have changed no program, nor which bytes their owners alone write, nor a byte elsewhere
or of an owner. -/
structure HostWrote (s u : State) (a n : Nat) : Prop where
  progs : u.progs = s.progs
  readOnly : ∀ x, u.readOnly x = s.readOnly x
  rdByte : ∀ x, (x < a ∨ a + n ≤ x ∨ s.readOnly x = true) → u.rdByte x = s.rdByte x

theorem State.wrByte_progs (s : State) (a : Nat) (b : Byte) : (s.wrByte a b).progs = s.progs := State.wr_progs s a [b]

theorem State.wrFree_wrote (s : State) (a : Nat) (b : Byte) : HostWrote s (s.wrFree a b) a 1 := by
  unfold State.wrFree
  split
  · exact ⟨rfl, fun _ => rfl, fun _ _ => rfl⟩
  · rename_i ha
    refine ⟨State.wrByte_progs s a b, fun x => State.readOnly_wrByte s a x b, fun x hx => State.rdByte_wrByte_ne s a x b ?_⟩
    rintro rfl
    rcases hx with hx | hx | hx
    · omega
    · omega
    · exact ha hx

/-- A host store to no program's KREQ is a store through BAR2, as far as that reaches. -/
theorem State.hostByte_eq {s : State} {a : Nat} (h : ∀ p ∈ s.progs, a ≠ p.sblk + 0x18) (b : Byte) :
    s.hostByte a b = if 2 ^ 40 ≤ a then s else s.wrFree a b := by
  have hfind : s.progs.find? (fun p => decide (a = p.sblk + 0x18)) = none := List.find?_eq_none.mpr fun p hp => by simpa using h p hp
  rw [State.hostByte, hfind]

theorem State.hostByte_wrote {s : State} {a : Nat} (h : ∀ p ∈ s.progs, a ≠ p.sblk + 0x18) (b : Byte) : HostWrote s (s.hostByte a b) a 1 := by
  rw [State.hostByte_eq h]
  split
  · exact ⟨rfl, fun _ => rfl, fun _ _ => rfl⟩
  · exact State.wrFree_wrote s a b

theorem State.hostBytesTo_wrote (d : List Byte) {s : State} {a : Nat} (h : ∀ i, i < d.length → ∀ p ∈ s.progs, a + i ≠ p.sblk + 0x18) :
    HostWrote s (s.hostBytesTo a d) a d.length := by
  induction d generalizing s a with
  | nil => exact ⟨rfl, fun _ => rfl, fun _ _ => rfl⟩
  | cons b r ih =>
    have hb : HostWrote s (s.hostByte a b) a 1 := State.hostByte_wrote (h 0 (by simp)) b
    have hr : HostWrote (s.hostByte a b) ((s.hostByte a b).hostBytesTo (a + 1) r) (a + 1) r.length := ih fun i hi p hp => by
      rw [hb.progs] at hp
      have := h (i + 1) (by simpa using hi) p hp
      omega
    refine ⟨hr.progs.trans hb.progs, fun x => (hr.readOnly x).trans (hb.readOnly x), fun x hx => ?_⟩
    rw [List.length_cons] at hx
    have hfirst : x < a ∨ a + 1 ≤ x ∨ s.readOnly x = true := hx.imp_right (Or.imp_left fun h => by omega)
    have hrest : x < a + 1 ∨ a + 1 + r.length ≤ x ∨ s.readOnly x = true := hx.imp (fun h => by omega) (Or.imp_left fun h => by omega)
    rw [State.hostBytesTo, hr.rdByte x (by rwa [hb.readOnly]), hb.rdByte x hfirst]

/-- Where every byte is one that the host may write, its store is the plain store. -/
theorem State.hostBytesTo_eq (d : List Byte) {s : State} {a : Nat} (h : ∀ i, i < d.length → ∀ p ∈ s.progs, a + i ≠ p.sblk + 0x18)
    (hend : a + d.length ≤ 2 ^ 40) (hown : unowned s a d.length) : s.hostBytesTo a d = s.wr a d := by
  induction d generalizing s a with
  | nil => rfl
  | cons b r ih =>
    rw [List.length_cons] at hend
    have hfree : s.hostByte a b = s.wrByte a b := by
      have h0 : ∀ p ∈ s.progs, a ≠ p.sblk + 0x18 := h 0 (by simp)
      rw [State.hostByte_eq h0, if_neg (by omega), State.wrFree, if_neg (by simpa using hown 0 (by simp))]
    rw [State.hostBytesTo, State.wr, hfree]
    refine ih (fun i hi p hp => ?_) (by omega) fun i hi => ?_
    · rw [State.wrByte_progs] at hp
      have := h (i + 1) (by simpa using hi) p hp
      omega
    · rw [State.readOnly_wrByte, Nat.add_right_comm, Nat.add_assoc]
      exact hown (i + 1) (by simpa using hi)

theorem State.mhz_setMHz_self (s : State) (i v : Nat) : (s.setMHz i v).mhz i = s.mhzIn i v := by
  simp [State.mhz, State.setMHz, State.mhzIn, State.mhzLimits]
  omega

theorem State.mhz_setMHz_ne (s : State) {i j : Nat} (v : Nat) (h : j ≠ i) : (s.setMHz i v).mhz j = s.mhz j := by
  simp [State.mhz, State.setMHz, State.mhzIn, State.mhzLimits, Assoc_getD_set_ne _ _ _ _ _ h]

theorem execRegisterWrite_mhz (s : State) {i : Nat} (hi : i < Config.islands) (data : List Byte) :
    execRegisterWrite (2 ^ 37 + 16 * i) data s = .next (s.setMHz i (fieldB data 0 8)) := by
  have hislands : Config.islands = 36 := rfl
  have hports : Config.rootPorts = 8 := rfl
  unfold execRegisterWrite
  rw [if_neg (by omega), if_neg (by omega), if_neg (by omega), if_neg (by omega), if_neg (by omega), if_neg (by omega), if_neg (by omega),
    if_pos (by omega), show (2 ^ 37 + 16 * i - 2 ^ 37) / 16 = i by omega]

theorem hostAccessResult : HostAccessResult := by
  intro s
  refine ⟨fun addr n => ?_, fun addr data h => ?_, fun data hlen hz => ?_, fun i data hi hlim => ?_, fun data => ⟨fun h1 h2 => ?_, fun h => ?_⟩⟩
  · refine ⟨_, _, rfl, rfl, by simp, fun hend => ?_⟩
    rw [State.rd_eq_map]
    refine List.map_congr_left fun i hi => if_pos ?_
    have := List.mem_range.mp hi
    unfold bar0Base
    omega
  · have hw := State.hostBytesTo_wrote data h
    refine ⟨_, rfl, hw.progs, fun x _ hx => hw.rdByte x hx, fun hend hram hown => ?_⟩
    rw [State.hostBytesTo_eq data h hend hown]
    exact (Lasting.of_inRam hram).rd_wr
  · have hshort : ¬ (data.length < 64 ∨ (!(allZero (sliceB data 8 56))) = true) := by
      simp [hz]
      omega
    exact ⟨_, if_neg hshort, rfl⟩
  · refine ⟨_, execRegisterWrite_mhz s hi data, ?_⟩
    rw [State.mhz_setMHz_self]
    refine ⟨Nat.le_max_left _ _, ?_, fun h1 h2 => ?_, fun j hj => State.mhz_setMHz_ne s _ hj⟩
    · unfold State.mhzIn
      omega
    · unfold State.mhzIn
      omega
  · exact congrArg Host.Outcome.next (if_pos ⟨h1, h2⟩)
  · exact congrArg Host.Outcome.next (if_neg (by omega))

/-! ## Doorbells -/

theorem State.wr64_hostseq (s : State) (a : Nat) (x : Word) : (s.wr64 a x).hostseq = s.hostseq := by
  rw [State.wr64, State.wr_frame]

theorem State.wr64_progs (s : State) (a : Nat) (x : Word) : (s.wr64 a x).progs = s.progs := State.wr_progs s a _

theorem onlyBytes_wr64 (s : State) (a : Nat) (x : Word) : onlyBytes s (s.wr64 a x) a 8 :=
  fun _ hb _ => State.rdByte_wr64_outside s x hb

/-- A word whose top bit is set apart from the rest. -/
theorem ofNat_or_top {x : Nat} (h : x < 2 ^ 63) : BitVec.ofNat 64 x ||| BitVec.ofNat 64 (2 ^ 63) = (BitVec.ofNat 64 (x + 2 ^ 63) : Word) := by
  have hor := Nat.two_pow_add_eq_or_of_lt h 1
  apply BitVec.eq_of_toNat_eq
  simp only [BitVec.toNat_or, BitVec.toNat_ofNat]
  rw [Nat.mod_eq_of_lt (by omega), Nat.mod_eq_of_lt (by omega), Nat.mod_eq_of_lt (by omega), Nat.or_comm, ← Nat.mul_one (2 ^ 63), ← hor]
  omega

theorem firstFree_spec {m : Nat} {bad : Nat → Bool} (hm : 0 < m) {n i x : Nat} (h : firstFree m bad n i = some x) : x < m ∧ bad x = false := by
  induction n generalizing i with
  | zero => cases h
  | succ n ih =>
    rw [firstFree] at h
    split at h
    · exact ih h
    · rename_i hbad
      cases h
      exact ⟨Nat.mod_lt _ hm, by simpa using hbad⟩

theorem State.submitStatus_le (s : State) (pa : Nat) (d : List Byte) : s.submitStatus pa d ≤ 4 := by
  unfold State.submitStatus
  extract_lets f len lv ilen ok ctx mapped mine clash
  clear_value ok mapped clash
  split
  · omega
  · split
    · omega
    · split
      · omega
      · split
        · omega
        · omega

/-! The count of doorbells is looked at by no check of a submission. -/

theorem State.grantByte_bell (s : State) (ctx : Half) (va : Word) (r : BitVec 4) (win : Bool) :
    s.bell.grantByte ctx va r win = s.grantByte ctx va r win := rfl

theorem State.grantFrom_bell (s : State) (ctx : Half) (r : BitVec 4) (win : Bool) (fuel : Nat) (va : Word) (len off : Nat) :
    s.bell.grantFrom ctx r win fuel va len off = s.grantFrom ctx r win fuel va len off := by
  induction fuel generalizing va len off with
  | zero => rfl
  | succ fuel ih => simp only [State.grantFrom, State.grantByte_bell, ih]

theorem State.submitStatus_bell (s : State) (pa : Nat) (d : List Byte) : s.bell.submitStatus pa d = s.submitStatus pa d := by
  simp only [State.submitStatus, State.granted, State.grantFrom_bell]
  rfl

theorem State.rd_bell (s : State) (a n : Nat) : s.bell.rd a n = s.rd a n := State.rd_congr fun _ _ => rfl

theorem execLsub_refused {s : State} {data : List Byte} {hint : Nat} (hlen : 64 ≤ data.length) (hz : allZero (sliceB data 8 56) = true)
    (hst : s.submitStatus (fieldB data 0 8) (s.rd (fieldB data 0 8) 128) ≠ 0) :
    execLsub data hint s = .next (s.bell.wr64 (fieldB data 0 8 + 0x40)
      (BitVec.ofNat 64 (s.submitStatus (fieldB data 0 8) (s.rd (fieldB data 0 8) 128) * 2 ^ 16 + 2 ^ 63))) := by
  have hle := s.submitStatus_le (fieldB data 0 8) (s.rd (fieldB data 0 8) 128)
  unfold execLsub
  rw [if_neg (by simp [hz]; omega)]
  simp only [State.rd_bell, State.submitStatus_bell]
  rw [if_neg hst]
  simp only [if_neg hst, at64, Nat.one_mul]
  rw [ofNat_or_top (by omega)]

theorem execLsub_admitted {s : State} {data : List Byte} {hint slot : Nat} (hlen : 64 ≤ data.length) (hz : allZero (sliceB data 8 56) = true)
    (hst : s.submitStatus (fieldB data 0 8) (s.rd (fieldB data 0 8) 128) = 0)
    (hfree : firstFree 0xFFFE (fun i => (s.prog i).isSome) 0xFFFE hint = some slot) :
    execLsub data hint s = .next ((s.bell.enlist slot (s.rd (fieldB data 0 8) 128)).wr64 (fieldB data 0 8 + 0x40) (BitVec.ofNat 64 (slot + 2 ^ 63))) := by
  have hslot := (firstFree_spec (by omega) hfree).1
  have hfree' : firstFree 0xFFFE (fun i => (s.bell.prog i).isSome) 0xFFFE hint = some slot := hfree
  unfold execLsub
  rw [if_neg (by simp [hz]; omega)]
  simp only [State.rd_bell, State.submitStatus_bell]
  rw [if_pos hst, hfree']
  simp only [at64, Nat.one_mul, Nat.pow_zero, Nat.mul_one]
  rw [ofNat_or_top (by omega)]

/-! ### Admission -/

/-- Programs, present channels and the count of doorbells are in `u` what they are in `s`. -/
structure SameHead (s u : State) : Prop where
  progs : u.progs = s.progs
  absentCh : u.absentCh = s.absentCh
  hostseq : u.hostseq = s.hostseq

theorem SameHead.refl (s : State) : SameHead s s := ⟨rfl, rfl, rfl⟩

theorem SameHead.wr {s u : State} (h : SameHead s u) (a : Nat) (d : List Byte) : SameHead s (u.wr a d) := by
  rw [State.wr_frame]
  exact ⟨h.progs, h.absentCh, h.hostseq⟩

theorem SameHead.wrPhys {s u : State} (h : SameHead s u) (a : Nat) (d : List Byte) : SameHead s (u.wrPhys a d) := by
  rw [State.wrPhys_frame]
  exact ⟨h.progs, h.absentCh, h.hostseq⟩

theorem SameHead.syncBlock {s u : State} (h : SameHead s u) (slot : Nat) : SameHead s (u.syncBlock slot) := by
  unfold State.syncBlock
  split
  · exact h
  · refine List.foldlRecOn (motive := SameHead s) _ _ ((h.wrPhys _ _).wrPhys _ _) fun v hv x _ => ?_
    split
    · exact hv
    · exact hv.wrPhys _ _

theorem SameHead.clearBlock (s : State) (slot : Nat) : SameHead s (s.clearBlock slot) := by
  unfold State.clearBlock
  split
  · exact SameHead.refl s
  · refine SameHead.syncBlock ?_ slot
    split
    · exact ⟨rfl, rfl, rfl⟩
    · exact (SameHead.refl s).wr _ _

theorem State.setPState_hostseq (s : State) (slot : Nat) (st : PState) (tail : Bool) : (s.setPState slot st tail).hostseq = s.hostseq := by
  unfold State.setPState
  split
  · rfl
  · rfl

theorem State.enlist_absentCh (s : State) (slot : Nat) (d : List Byte) : (s.enlist slot d).absentCh = s.absentCh :=
  (SameHead.clearBlock _ slot).absentCh.trans (State.setPState_absentCh _ slot .ready true)

theorem State.enlist_hostseq (s : State) (slot : Nat) (d : List Byte) : (s.enlist slot d).hostseq = s.hostseq :=
  (SameHead.clearBlock _ slot).hostseq.trans (State.setPState_hostseq _ slot .ready true)

/-- An admitted program stands in its slot as the submission gives it, and every other program as before. -/
theorem State.prog_enlist {s : State} {slot : Nat} (d : List Byte) (h : s.prog slot = none) :
    (∃ q, (s.enlist slot d).prog slot = some q ∧ q.state = .ready ∧ q.pc = 0 ∧ q.retn = 0 ∧ q.level = fieldB d 0x08 8 / 2 ^ 32 ∧
      q.c = List.replicate 16 0 ∧ q.t = List.replicate 16 [] ∧ q.mbox = [] ∧ q.retstk = []) ∧
    ∀ n, n ≠ slot → (s.enlist slot d).prog n = s.prog n := by
  unfold State.enlist
  extract_lets f regs p
  have hs : ∃ s1 : State, s1 = { s with progs := s.progs ++ [p] } := ⟨_, rfl⟩
  obtain ⟨s1, hs1⟩ := hs
  rw [← hs1]
  have hself : s1.prog slot = some p := by
    have hn : s.progs.find? (fun p => decide (p.slot = slot)) = none := h
    simp only [State.prog, hs1, List.find?_append, hn]
    simp [p]
  have hne : ∀ n, n ≠ slot → s1.prog n = s.prog n := fun n hn => by
    have hp : [p].find? (fun p => decide (p.slot = n)) = none := by simp [p, Ne.symm hn]
    simp only [State.prog, hs1, List.find?_append, hp, Option.or_none]
  refine ⟨?_, fun n hn => ?_⟩
  · obtain ⟨place, qy, hq⟩ := State.prog_setPState_self (st := .ready) (tail := true) hself
    exact ⟨_, (State.prog_congr ((SameHead.clearBlock _ _).progs) slot).trans hq, rfl, rfl, rfl, rfl, rfl, rfl, rfl, rfl⟩
  · rw [State.prog_congr ((SameHead.clearBlock _ _).progs), State.prog_setPState_ne hn, hne n hn]

/-! ### Mailboxes -/

theorem State.mailbox_eq_some {s : State} {slot : Nat} {p : Prog} (h : s.mailbox slot = some p) : s.prog slot = some p :=
  (Option.filter_eq_some_iff.mp h).1

/-- A post to a program that does not wait for one enters its mailbox, and no more. -/
theorem State.mailEnter_eq {s : State} {slot : Nat} {p : Prog} (h : s.prog slot = some p) (hp : p.state ≠ .awaiting) (e : MboxE) :
    s.mailEnter slot e = s.onProg slot fun p => { p with mbox := p.mbox ++ [e] } := by
  have h1 : (s.onProg slot fun p => { p with mbox := p.mbox ++ [e] }).prog slot = some { p with mbox := p.mbox ++ [e] } := by
    refine State.prog_onProg_self ?_ h
    exact fun _ => rfl
  unfold State.mailEnter
  dsimp only
  split
  · rfl
  · rename_i q hq
    rw [hq] at h1
    cases h1
    split
    · exact if_neg hp
    · rfl

theorem State.prog_hostPut {s : State} {slot : Nat} {p : Prog} (h : s.prog slot = some p) (cls : Nat) (tag val retn : Word) (pay : List Byte) :
    (s.hostPut p cls tag val retn pay).prog slot = some { p with hseq := p.hseq + 1 } := by
  obtain rfl := State.slot_of_prog h
  unfold State.hostPut
  dsimp only
  refine State.prog_onProg_self ?_ ?_
  · exact fun _ => rfl
  · rw [State.prog_congr (State.wr64_progs _ _ _), State.prog_congr (State.wrPhys_progs _ _ _), ← h]
    split
    · rfl
    · exact State.prog_congr (State.wrPhys_progs _ _ _) _

theorem execMbox_entered {s : State} {slot : Nat} {data : List Byte} {p : Prog} (hlen : 64 ≤ data.length) (hm : s.mailbox slot = some p)
    (hroom : p.mbox.length < 64) (hcls : fieldB data 20 1 = 0) (h21 : allZero (sliceB data 21 3) = true) (h32 : allZero (sliceB data 32 32) = true)
    (hpa : fieldB data 0 8 = 0) (hst : fieldB data 24 8 = 0) :
    execMbox slot data s = .next (s.bell.mailEnter slot
      { sender := 0xFFFF, retn := 0, tag := w32 (sliceB data 16 4), cls := 0, val := BitVec.ofNat 64 (fieldB data 8 8), str := [] }) := by
  have hlong : ¬ data.length < 64 := by omega
  have hfree : ¬ 64 ≤ p.mbox.length := by omega
  have hm' : s.bell.mailbox slot = some p := hm
  simp [execMbox, hlong, hcls, h21, h32, hpa, hst, hm', hfree]

theorem execDeferredNoticePost_posted {s : State} {slot : Nat} {p : Prog} {tag retn : Word} {rec : Vec} {r : List (Word × Word × Vec)}
    (hp : s.prog slot = some p) (hn : p.notices = (tag, retn, rec) :: r) (hfull : s.hostFull p = false) :
    execDeferredNoticePost slot s =
      .next ((s.hostPut p 3 tag 0 retn (leBytes 32 rec.toNat)).onProg slot fun p => { p with notices := r }) := by
  simp [execDeferredNoticePost, hp, hn, hfull]

theorem hostDoorbellResult : HostDoorbellResult := by
  intro s
  refine ⟨fun q b data hq hlen hr => ?_, fun data hint hlen hz => ?_, fun slot data p hlen hm hroom hp hcls h21 h32 hpa hst => ?_,
    fun slot e p hp hr => ?_, fun slot p tag retn rec r hp hn hfull => ?_⟩
  · refine ⟨s.bell.wr64 (b.qdesc + 0x18) (w64 (data.take 8)), ?_, State.wr64_hostseq _ _ _, ?_, fun x hx _ => ?_⟩
    · have hshort : ¬ data.length < 8 := by omega
      show execQdoor q data s = _
      simp only [execQdoor, hq, if_neg hshort]
    · exact (Lasting.of_inRam (inRam_congr (u := s.bell) rfl hr)).rd64_wr64 _
    · exact State.rdByte_wr64_outside s.bell _ hx
  · intro pa d hr
    have hlast : ∀ {u : State}, u.absentCh = s.absentCh → Lasting u (pa + 0x40) 8 := fun hu => Lasting.of_inRam (inRam_congr hu hr)
    refine ⟨fun hst => ?_, fun slot hst hfree => ?_⟩
    · refine ⟨_, execLsub_refused hlen hz hst, State.wr64_hostseq _ _ _, State.wr64_progs _ _ _, ?_, fun x hx _ => ?_⟩
      · exact (hlast (u := s.bell) rfl).rd64_wr64 _
      · exact State.rdByte_wr64_outside s.bell _ hx
    · have hfresh : s.prog slot = none := by simpa using (firstFree_spec (by omega) hfree).2
      obtain ⟨⟨q, hq, hfields⟩, hothers⟩ := State.prog_enlist (s := s.bell) d hfresh
      have hprog := fun n => State.prog_congr (State.wr64_progs (s.bell.enlist slot d) (pa + 0x40) (BitVec.ofNat 64 (slot + 2 ^ 63))) n
      obtain ⟨hstate, hpc, hretn, hlevel, hc, ht, hmbox, hstk⟩ := hfields
      refine ⟨_, q, execLsub_admitted hlen hz hst hfree, ?_, (hprog slot).trans hq, hstate, hpc, hretn, hlevel, hc, ht, hmbox, hstk,
        fun n hne => (hprog n).trans (hothers n hne), ?_⟩
      · rw [State.wr64_hostseq, State.enlist_hostseq]
        rfl
      · exact (hlast (State.enlist_absentCh s.bell slot d)).rd64_wr64 _
  · have hslot : s.bell.prog slot = some p := State.mailbox_eq_some hm
    have hexec := execMbox_entered hlen hm hroom hcls h21 h32 hpa hst
    rw [State.mailEnter_eq hslot hp] at hexec
    refine ⟨_, _, _, hexec, rfl, State.prog_onProg_self ?_ hslot, rfl, rfl, rfl, rfl, rfl⟩
    exact fun _ => rfl
  · refine ⟨_, ?_, (Lasting.of_inRam hr).rd64_wr64 0, onlyBytes_wr64 s _ 0⟩
    show execFullFree slot e s = _
    simp only [execFullFree, hp]
  · refine ⟨_, _, execDeferredNoticePost_posted hp hn hfull, State.prog_onProg_self ?_ (State.prog_hostPut hp 3 tag 0 retn _), rfl, rfl⟩
    exact fun _ => rfl

/-- Settles O32: doorbells and mailboxes, kills, and the host's accesses, each as its instruction does it. -/
theorem hostInterfaceResult : Obligations.HostInterfaceResult :=
  ⟨hostDoorbellResult, killRequestResult, hostAccessResult⟩

end Sys2Proof.Machine
end

section
/-!
Boot, heat, peers and attestation (R20, R208, R211 to R214): the parts of O54.
-/

namespace Sys2Proof.Machine

open Sys2Proof Sys2Proof.Claims

/-! ## Boot and heat -/

/-- Every role has a seam bundle, a bundle one role, and a die 1 to 4 seam bundles (R18, R212). -/
def RolesHeld (b : BootInput) : Prop :=
  (∀ r, r < 5 → ∃ x ∈ b.roles, x.2 = r ∧ x.1 ∈ b.seam) ∧ (∀ x ∈ b.roles, ∀ y ∈ b.roles, x.1 = y.1 → x.2 = y.2) ∧
    ∀ d, d < Config.dies → ∃ n, 1 ≤ n ∧ n ≤ 4 ∧ (b.seam.eraseDups.filter (fun b => decide (b / Config.bundlesPerDie = d))).length = n

/-- The check that the boot ROM makes in step 4 is `RolesHeld`. -/
theorem bootFails_eq (b : BootInput) [Decidable (RolesHeld b)] :
    bootFails b = if RolesHeld b then b.fail else if b.fail = 0 ∨ 4 < b.fail then 4 else b.fail := by
  refine if_congr ?_ rfl rfl
  simp only [RolesHeld, seamOk, Bool.and_eq_true, List.all_eq_true, List.any_eq_true, List.mem_range, decide_eq_true_eq, List.contains_iff_mem, and_assoc]
  simp

theorem bootFails_of_held {b : BootInput} (h : RolesHeld b) : bootFails b = b.fail := by
  classical rw [bootFails_eq, if_pos h]

theorem bootFails_of_not_held {b : BootInput} (h : ¬ RolesHeld b) (h0 : b.fail = 0) : bootFails b = 4 := by
  classical rw [bootFails_eq, if_neg h, if_pos (.inl h0)]

theorem bootFails_of_fail {b : BootInput} (h0 : 0 < b.fail) (h4 : b.fail ≤ 4) : bootFails b = b.fail := by
  have hfail : ¬ (b.fail = 0 ∨ 4 < b.fail) := by omega
  classical rw [bootFails_eq, if_neg hfail, ite_self]

theorem trained_mem (n : Nat) : trained n ∈ [8, 4, 2, 1, 0] := by
  unfold trained
  split
  · simp
  split
  · simp
  split
  · simp
  have : n = 1 ∨ n = 0 := by omega
  simp [this]

/-- A value found in a list whose values have been mapped is a mapped one, or the default. -/
theorem Assoc_getD_map {κ α β : Type} [DecidableEq κ] {P : β → Prop} {f : α → β} (hf : ∀ x, P (f x)) {d : β} (hd : P d) (l : List (κ × α)) (k : κ) :
    P (Assoc.getD (l.map fun e => (e.1, f e.2)) k d) := by
  induction l with
  | nil => exact hd
  | cons e r ih =>
    by_cases hk : k = e.1
    · simpa [Assoc.getD, Assoc.get, hk] using hf e.2
    · simpa [Assoc.getD, Assoc.get, hk] using ih

/-- Nothing that the machine did before its reset is left of its memories, thread sets, launches and programs. -/
def Cleared (s : State) : Prop := s.mem = [] ∧ s.scratch = [] ∧ s.ts = [] ∧ s.launches = [] ∧ s.progs = []

theorem Cleared.ite {c : Prop} [Decidable c] {s u : State} (hs : Cleared s) (hu : Cleared u) : Cleared (if c then s else u) := by
  split
  · exact hs
  · exact hu

/-- The outcome is a next state, and `P` holds of it. -/
def Arrives (P : State → Prop) : Host.Outcome State Fault Refusal → Prop
  | .next u => P u
  | .fault _ => False
  | .refused _ => False

theorem Arrives.exists_next {P : State → Prop} {o : Host.Outcome State Fault Refusal} (h : Arrives P o) : ∃ u, o = .next u ∧ P u := by
  cases o with
  | next u => exact ⟨u, rfl, h⟩
  | fault _ => exact h.elim
  | refused _ => exact h.elim

/-- The device as the boot ROM leaves it when all of its steps have passed (R211, R212). -/
def Booted (boot : BootInput) (u : State) : Prop :=
  u.devstat = 1 ∧ u.bootCode = 0 ∧ u.seam = boot.seam ∧ u.absent = boot.absentBundles ∧ u.absentCh = boot.absentChannels ∧
    u.absentL2 = boot.absentL2 ∧ u.absentCE = boot.absentCopy ∧ u.absentIsl = boot.absentIslands ∧
    (∀ l, l < Config.links → u.lanesOf l ∈ [8, 4, 2, 1, 0]) ∧ u.ptSize ≤ 2 ^ 24 ∧ u.locked = true ∧
    u.digests = [boot.cfgDigest, boot.seamDigest, boot.osDigest]

theorem execPowerOnReset_runs {boot : BootInput} (h : bootFails boot = 0) (s : State) :
    ∃ u, execPowerOnReset boot s = .next u ∧ Cleared u ∧ Booted boot u := by
  refine ⟨_, if_neg (not_not.mpr h), ?_, ?_⟩
  · simp only [h]
    exact ⟨rfl, rfl, rfl, rfl, rfl⟩
  · simp only [h]
    refine ⟨rfl, rfl, rfl, rfl, rfl, rfl, rfl, rfl, fun l hl => ?_, Nat.min_le_right _ _, rfl, rfl⟩
    rw [State.lanesOf, if_pos hl]
    exact Assoc_getD_map trained_mem (by simp) boot.lanes l

/-- The device as a boot that stops leaves it: what the failing step and the later ones would have set is as after reset, the seam bundles of step 4 with it
(R211). -/
def BootStopped (boot : BootInput) (u : State) : Prop :=
  Cleared u ∧ u.devstat = 2 ∧ u.bootCode = bootFails boot ∧ (bootFails boot ≤ 4 → u.seam = [])

theorem execPowerOnReset_stops {boot : BootInput} (h : bootFails boot ≠ 0) (s : State) :
    ∃ u, execPowerOnReset boot s = .next u ∧ BootStopped boot u := by
  suffices hs : Arrives (BootStopped boot) (execPowerOnReset boot s) from hs.exists_next
  unfold execPowerOnReset
  extract_lets n past reset z0 z1 z2 z3 z4 fs
  have h0 : Cleared z0 := ⟨rfl, rfl, rfl, rfl, rfl⟩
  have h1 : Cleared z1 := Cleared.ite h0 h0
  have h2 : Cleared z2 := Cleared.ite h1 h1
  have h3 : Cleared z3 := Cleared.ite h2 h2
  have h4 : Cleared z4 := Cleared.ite h3 h3
  have hseam : z3.seam = [] := by
    simp only [z3, z2, z1, apply_ite State.seam, ite_self]
    rfl
  rw [if_pos h]
  refine ⟨h4, rfl, rfl, fun hle => ?_⟩
  have hpast : past 4 = false := by simp [past, n, h, hle]
  have hz : z4 = z3 := if_neg (by simp [hpast])
  exact (congrArg State.seam hz).trans hseam

/-- The outcomes of a boot exclude each other by the step that fails and by whether the roles are held (R211). -/
theorem powerOnReset_result (s : State) (boot : BootInput) : ∃ u, exec (.powerOnReset boot) s = .next u ∧ Cleared u ∧
    (boot.fail = 0 → RolesHeld boot → Booted boot u) ∧ (0 < boot.fail → boot.fail ≤ 4 → u.devstat = 2 ∧ u.bootCode = boot.fail ∧ u.seam = []) ∧
    (boot.fail = 0 → ¬ RolesHeld boot → u.devstat = 2 ∧ u.bootCode = 4) := by
  by_cases hn : bootFails boot = 0
  · obtain ⟨u, hu, hclear, hboot⟩ := execPowerOnReset_runs hn s
    refine ⟨u, hu, hclear, fun _ _ => hboot, fun h0 h4 => ?_, fun h0 hheld => ?_⟩
    · rw [bootFails_of_fail h0 h4] at hn
      omega
    · rw [bootFails_of_not_held hheld h0] at hn
      cases hn
  · obtain ⟨u, hu, hclear, hdev, hcode, hseam⟩ := execPowerOnReset_stops hn s
    refine ⟨u, hu, hclear, fun h0 hheld => ?_, fun h0 h4 => ?_, fun h0 hheld => ?_⟩
    · exact absurd ((bootFails_of_held hheld).trans h0) hn
    · rw [bootFails_of_fail h0 h4] at hcode hseam
      exact ⟨hdev, hcode, hseam h4⟩
    · exact ⟨hdev, hcode.trans (bootFails_of_not_held hheld h0)⟩

/-- At 115 degrees everything is as after reset, and the device halts (R214). -/
theorem thermalReset_result (s : State) :
    ∃ u, exec .thermalReset s = .next u ∧ u.devstat = 3 ∧ u.bootCode = 0x0F ∧ u.mem = [] ∧ u.scratch = [] ∧ u.ts = [] :=
  ⟨_, rfl, rfl, rfl, rfl, rfl, rfl⟩

/-! ## The throttle of a die -/

theorem islandsOf_nodup (die : Nat) : (islandsOf die).Nodup := by
  unfold islandsOf
  split
  · simp
  split
  · simp
  · simp

/-- A throttle of islands changes their frequencies only. -/
theorem throttle_frame (mhz : Nat) (l : List Nat) (s : State) : ∃ f, l.foldl (fun s i => s.setMHz i (min mhz (s.mhz i))) s = { s with islandMHz := f } := by
  induction l generalizing s with
  | nil => exact ⟨_, rfl⟩
  | cons i r ih =>
    obtain ⟨f, hf⟩ := ih (s.setMHz i (min mhz (s.mhz i)))
    exact ⟨f, hf⟩

/-- Each island of a throttle, once each, runs no faster than is asked, within its limits; the others run as they did. -/
theorem throttle_mhz (mhz : Nat) {l : List Nat} (hl : l.Nodup) (s : State) (j : Nat) :
    (l.foldl (fun s i => s.setMHz i (min mhz (s.mhz i))) s).mhz j = if j ∈ l then s.mhzIn j (min mhz (s.mhz j)) else s.mhz j := by
  induction l generalizing s with
  | nil => rfl
  | cons i r ih =>
    obtain ⟨hi, hr⟩ := List.nodup_cons.mp hl
    rw [List.foldl_cons, ih hr]
    by_cases hj : j = i
    · subst hj
      rw [if_neg hi, if_pos List.mem_cons_self, State.mhz_setMHz_self]
    · rw [State.mhz_setMHz_ne s _ hj]
      simp only [List.mem_cons, hj, false_or]
      rfl

theorem thermalThrottle_result (s : State) (die mhz : Nat) : ∃ u, exec (.thermalThrottle die mhz) s = .next u ∧ u = { s with islandMHz := u.islandMHz } ∧
    ∀ i, u.mhz i = if i ∈ islandsOf die then max (s.mhzLimits i).1 (min (s.mhzLimits i).2 (min mhz (s.mhz i))) else s.mhz i := by
  refine ⟨_, rfl, ?_, throttle_mhz mhz (islandsOf_nodup die) s⟩
  obtain ⟨f, hf⟩ := throttle_frame mhz (islandsOf die) s
  rw [hf]

/-! ## Peers -/

/-- An access whose link has a carrier is served at once, where nothing is held before it (R208). -/
theorem execTlarriudPeerAccess_served {s : State} {link : Nat} (hheld : s.peerHeld = []) (hl : s.lanesOf link ≠ 0) (acc : PeerAccess) :
    execTlarriudPeerAccess link acc s = .next (s.servePeer link acc) := by
  have hcarry : ({ s with peerHeld := [] } : State).carrier link = some link := if_pos hl
  have hs : ({ s with peerHeld := [] } : State) = s := by rw [← hheld]
  simp only [execTlarriudPeerAccess, State.servePeers, hheld, List.nil_append, List.foldl_cons, List.foldl_nil, hcarry]
  rw [hs]

/-- An access that no link can carry waits (R208). -/
theorem execTlarriudPeerAccess_held {s : State} {link : Nat} (hheld : s.peerHeld = []) (hl : s.lanesOf link = 0)
    (hr : Assoc.get s.routes link = none ∨ ∀ l, s.lanesOf l ≠ 0 → Assoc.get s.routes l ≠ Assoc.get s.routes link) (acc : PeerAccess) :
    execTlarriudPeerAccess link acc s = .next { s with peerHeld := [(link, acc)] } := by
  have hcarry : ({ s with peerHeld := [] } : State).carrier link = none := by
    refine (if_neg (not_not.mpr hl)).trans ?_
    show (match Assoc.get s.routes link with | none => none | some d => _) = none
    split
    · rfl
    · rename_i d hd
      refine List.find?_eq_none.mpr fun l _ hfound => ?_
      rcases hr with hr | hr
      · rw [hr] at hd
        cases hd
      · rw [Bool.and_eq_true, decide_eq_true_eq, decide_eq_true_eq] at hfound
        exact hr l hfound.1 (hfound.2.trans hd.symm)
  simp only [execTlarriudPeerAccess, State.servePeers, hheld, List.nil_append, List.foldl_cons, List.foldl_nil, hcarry]

/-- Where no byte is its owner's alone, a store of any agent is the plain store. -/
theorem State.wrRw_eq_wr (d : List Byte) {s : State} {a : Nat} (h : unowned s a d.length) : s.wrRw a d = s.wr a d := by
  induction d generalizing s a with
  | nil => rfl
  | cons b r ih =>
    have hfree : s.wrFree a b = s.wrByte a b := if_neg (by simpa using h 0 (by simp))
    rw [State.wrRw, State.wr, hfree]
    refine ih fun i hi => ?_
    rw [State.readOnly_wrByte, Nat.add_right_comm, Nat.add_assoc]
    exact h (i + 1) (by simpa using hi)

theorem leNat_lt (l : List Byte) : leNat l < 256 ^ l.length := by
  induction l with
  | nil => simp [leNat]
  | cons b r ih =>
    have := b.isLt
    rw [leNat, List.length_cons, Nat.pow_succ]
    omega

theorem State.leNat_rd (s : State) (a : Nat) : leNat (s.rd a 8) = (s.rd64 a).toNat := by
  have h := leNat_lt (s.rd a 8)
  rw [State.length_rd] at h
  exact (Nat.mod_eq_of_lt h).symm

theorem ofNat_min (x y : Word) : BitVec.ofNat 64 (min x.toNat y.toNat) = if y.toNat < x.toNat then y else x := by
  split
  · rw [Nat.min_eq_right (by omega), BitVec.ofNat_toNat, BitVec.setWidth_eq]
  · rw [Nat.min_eq_left (by omega), BitVec.ofNat_toNat, BitVec.setWidth_eq]

theorem ofNat_max (x y : Word) : BitVec.ofNat 64 (max x.toNat y.toNat) = if x.toNat < y.toNat then y else x := by
  split
  · rw [Nat.max_eq_right (by omega), BitVec.ofNat_toNat, BitVec.setWidth_eq]
  · rw [Nat.max_eq_left (by omega), BitVec.ofNat_toNat, BitVec.setWidth_eq]

theorem ofNat_ite (c : Prop) [Decidable c] (x y : Word) : BitVec.ofNat 64 (if c then x.toNat else y.toNat) = if c then x else y := by
  split
  · rw [BitVec.ofNat_toNat, BitVec.setWidth_eq]
  · rw [BitVec.ofNat_toNat, BitVec.setWidth_eq]

/-- The atomic of the model on 64-bit values is that of R262. -/
theorem amoOp_spec (op : Nat) (x b c : Word) : (amoOp op 8 x.toNat b.toNat c.toNat).map (BitVec.ofNat 64) = amoSpec 64 op x b c := by
  have hs : ∀ y : Word, (if 2 ^ (8 * 8) / 2 ≤ y.toNat then (y.toNat : Int) - (2 ^ (8 * 8) : Nat) else y.toNat) = y.toInt := sgn64
  unfold amoOp amoSpec
  split
  · exact congrArg some (BitVec.eq_of_toNat_eq (by simp))
  · rfl
  · simp only [hs, Option.map_some, ofNat_ite]
  · simp only [hs, Option.map_some, ofNat_ite]
  · exact congrArg some (ofNat_min x b)
  · exact congrArg some (ofNat_max x b)
  · exact congrArg some (BitVec.eq_of_toNat_eq (by simp))
  · exact congrArg some (BitVec.eq_of_toNat_eq (by simp))
  · exact congrArg some (BitVec.eq_of_toNat_eq (by simp))
  · simp
  · simp [BitVec.toNat_eq, apply_ite]

/-- What an atomic writes, if anything. -/
def State.storeNew (s : State) (a : Nat) : Option Nat → State
  | none => s
  | some x => s.wrRw a (leBytes 8 x)

/-- A peer's atomic of 64 bits that can be served: the new value, if there is one, is stored, and the old one goes out (R208, R262). -/
theorem servePeer_amo {s : State} {link op a : Nat} {b cmp : Word} (hop : op ≤ 10) (ha : a % 8 = 0) (hphys : physOk a 8 = true) {r : Option Nat}
    (hr : amoOp op 8 (s.rd64 a).toNat b.toNat cmp.toNat = r) : s.servePeer link (.amo op false a b cmp) =
      { s.storeNew a r with peerOut := (s.storeNew a r).peerOut ++ [(link, leBytes 8 (s.rd64 a).toNat)] } := by
  have hin : ¬ (a % 8 ≠ 0 ∨ (!physOk a 8) = true ∨ 10 < op) := by
    simp [ha, hphys]
    omega
  have hpush : amoPush op 8 (s.rd64 a).toNat = s.rd64 a := by simp [amoPush]
  have hmod : ∀ y : Word, y.toNat % 2 ^ (8 * 8) = y.toNat := fun y => Nat.mod_eq_of_lt y.isLt
  simp only [State.servePeer, Bool.false_eq_true, if_false, if_neg hin, State.leNat_rd, hpush, hmod, hr]
  cases r with
  | none => rfl
  | some x => rfl

theorem State.wrRw_peerOut (d : List Byte) (s : State) (a : Nat) : (s.wrRw a d).peerOut = s.peerOut := by
  induction d generalizing s a with
  | nil => rfl
  | cons b r ih =>
    rw [State.wrRw, ih, State.wrFree]
    split
    · rfl
    · have hw := State.wr_frame [b] s a
      rw [State.wr, State.wr] at hw
      rw [hw]

theorem storeNew_peerOut (s : State) (a : Nat) (r : Option Nat) : (s.storeNew a r).peerOut = s.peerOut := by
  cases r with
  | none => rfl
  | some x => exact State.wrRw_peerOut _ s a

theorem onlyBytes_storeNew (s : State) (a : Nat) (r : Option Nat) : onlyBytes s (s.storeNew a r) a 8 := by
  cases r with
  | none => exact fun _ _ _ => rfl
  | some x => exact fun y hy _ => State.rdByte_wrRw_outside (leBytes 8 x) s a y (by rwa [length_leBytes])

theorem rd64_storeNew {s : State} {a : Nat} (hram : inRam s a 8) (hown : unowned s a 8) (r : Option Nat) :
    (s.storeNew a r).rd64 a = (r.map (BitVec.ofNat 64)).getD (s.rd64 a) := by
  cases r with
  | none => rfl
  | some x =>
    have hlen : (leBytes 8 x).length = 8 := length_leBytes 8 x
    have hrd := (Lasting.of_inRam (hlen.symm ▸ hram)).rd_wr (leBytes 8 x)
    rw [hlen] at hrd
    rw [State.storeNew, State.wrRw_eq_wr _ (hlen.symm ▸ hown), State.rd64, hrd, w64, leNat_leBytes]
    exact BitVec.eq_of_toNat_eq (by simp)

theorem peerAmo_result {s : State} {link a : Nat} (hheld : s.peerHeld = []) (hl : s.lanesOf link ≠ 0) (op : Nat) (b cmp : Word) (hop : op ≤ 10)
    (ha : a % 8 = 0) (hphys : physOk a 8 = true) (hram : inRam s a 8) (hown : unowned s a 8) :
    ∃ u, exec (.tlarriudPeerAccess link (.amo op false a b cmp)) s = .next u ∧
      u.peerOut = s.peerOut ++ [(link, leBytes 8 (s.rd64 a).toNat)] ∧ onlyBytes s u a 8 ∧
      u.rd64 a = (amoSpec 64 op (s.rd64 a) b cmp).getD (s.rd64 a) := by
  refine ⟨_, (execTlarriudPeerAccess_served hheld hl _).trans (congrArg Host.Outcome.next (servePeer_amo hop ha hphys rfl)), ?_, ?_, ?_⟩
  · exact congrArg (· ++ _) (storeNew_peerOut s a _)
  · exact onlyBytes_storeNew s a _
  · rw [← amoOp_spec]
    exact rd64_storeNew hram hown _

theorem peerRead_result {s : State} {link a n : Nat} (hheld : s.peerHeld = []) (hl : s.lanesOf link ≠ 0) (hphys : physOk a n = true) :
    ∃ u, exec (.tlarriudPeerAccess link (.read a n)) s = .next u ∧ u.peerOut = s.peerOut ++ [(link, s.rd a n)] ∧ SameBytes s u ∧ u.peerHeld = [] := by
  refine ⟨{ s with peerOut := s.peerOut ++ [(link, s.rd a n)] }, ?_, rfl, fun _ _ => rfl, hheld⟩
  exact (execTlarriudPeerAccess_served hheld hl _).trans (congrArg Host.Outcome.next (if_pos hphys))

theorem peerMessage_result {s : State} {link : Nat} (hheld : s.peerHeld = []) (hl : s.lanesOf link ≠ 0) (core : Nat) (w0 w1 : Word) (pay : Vec)
    (hcore : core < 16384) (hkind : msgKind w1 ≤ 1) :
    ∃ u f, exec (.tlarriudPeerAccess link (.msg core w0 w1 pay)) s = .next u ∧ u.net = s.net ++ [f] ∧ f.dst = cc core ∧ f.outside = true ∧
      f.lid = none ∧ f.msg = { w0 := deliverW0 w0, w1 := w1, pay := pay } ∧ SameBytes s u := by
  have hgoes : ¬ (1 < msgKind w1 ∨ 16384 ≤ core) := by omega
  refine ⟨_, _, (execTlarriudPeerAccess_served hheld hl _).trans (congrArg Host.Outcome.next (if_neg hgoes)), rfl, rfl, rfl, rfl, rfl, fun _ _ => rfl⟩

theorem peerWrite_result {s : State} {link a : Nat} (hheld : s.peerHeld = []) (hl : s.lanesOf link ≠ 0) (d : List Byte)
    (hphys : physOk a d.length = true) (hram : inRam s a d.length) (hown : unowned s a d.length) :
    ∃ u, exec (.tlarriudPeerAccess link (.write a d)) s = .next u ∧ holds u a d ∧ onlyBytes s u a d.length := by
  refine ⟨s.wr a d, ?_, (Lasting.of_inRam hram).rd_wr, fun x hx _ => State.rdByte_wr_outside d s a x hx⟩
  rw [← State.wrRw_eq_wr d hown]
  exact (execTlarriudPeerAccess_served hheld hl _).trans (congrArg Host.Outcome.next (if_pos hphys))

/-! ## Attestation -/

theorem attestationReport_result (s : State) (nonce : List Byte) : ∃ u d sig, exec (.attestationReport nonce) s = .next u ∧
    u.reports = .attest (d ++ sig) :: s.reports ∧
    d = s.digests.flatMap id ++ sliceB nonce 0 32 ++ s.present.flatMap (leBytes 8) ∧ u = { s with reports := u.reports } :=
  ⟨_, _, _, rfl, rfl, rfl, rfl⟩

/-- Settles O54: the boot's outcomes by its failing step, the two thermal events, a peer's accesses by whether a link carries them, and the report. -/
theorem bootPeerReportResult : Obligations.BootPeerReportResult := by
  unfold Obligations.BootPeerReportResult
  refine ⟨fun s boot => ?_, thermalReset_result, thermalThrottle_result, fun s link a n d hheld hl => ⟨?_, ?_, ?_, ?_⟩, ?_, attestationReport_result⟩
  · obtain ⟨u, hexec, ⟨hmem, hscratch, hts, hlaunches, hprogs⟩, hruns, hfails, hroles⟩ := powerOnReset_result s boot
    exact ⟨u, hexec, hmem, hscratch, hts, hlaunches, hprogs, hruns, hfails, hroles⟩
  · exact peerRead_result hheld hl
  · exact peerMessage_result hheld hl
  · exact peerWrite_result hheld hl d
  · exact peerAmo_result hheld hl
  · intro s link acc hheld hl hr
    exact ⟨_, execTlarriudPeerAccess_held hheld hl hr acc, rfl⟩

end Sys2Proof.Machine
end

section
/-!
Operations that change no thread set, no launch and no unit: stores, outstanding operations, baskets, copy queues, engines and frozen images. `SameRoster`
says so; a state operation `f` has the lemma `SameRoster.f`, in the order of the model's files.
-/

namespace Sys2Proof.Machine

open Sys2Proof Sys2Proof.Claims

/-- From `s` to `u` the thread sets, the launches and the absent units stay as they are. -/
def SameRoster (s u : State) : Prop :=
  u.ts = s.ts ∧ u.launches = s.launches ∧ u.absent = s.absent ∧ u.absentIsl = s.absentIsl ∧ u.absentCh = s.absentCh ∧ u.absentK = s.absentK

section

variable {s u w : State}

theorem SameRoster.refl : SameRoster s s := ⟨rfl, rfl, rfl, rfl, rfl, rfl⟩

theorem SameRoster.ts (h : SameRoster s u) : u.ts = s.ts := h.1

theorem SameRoster.ite {c : Prop} [Decidable c] (h : SameRoster s u) (k : SameRoster s w) : SameRoster s (if c then u else w) := by
  split
  · exact h
  · exact k

theorem SameRoster.foldl {α : Type} {f : State → α → State} {l : List α} (h : SameRoster s u) (hf : ∀ v x, SameRoster s v → SameRoster s (f v x)) :
    SameRoster s (l.foldl f u) := l.foldlRecOn f h fun v hv x _ => hf v x hv

theorem SameRoster.foldl_fst {α β : Type} {f : State × β → α → State × β} {a : State × β} {l : List α} (h : SameRoster s a.1)
    (hf : ∀ a x, SameRoster s a.1 → SameRoster s (f a x).1) : SameRoster s (l.foldl f a).1 :=
  l.foldlRecOn f (motive := fun a => SameRoster s a.1) h fun a ha x _ => hf a x ha

theorem SameRoster.getD {o : Option State} (h : SameRoster s u) (ho : Yields (SameRoster s) o) : SameRoster s (o.getD u) := by
  cases o with
  | none => exact h
  | some w => exact ho

/-! ### Memory -/

theorem SameRoster.wr {a : Nat} {d : List Byte} (h : SameRoster s u) : SameRoster s (u.wr a d) := by
  rw [State.wr_frame]
  exact h

theorem SameRoster.wr64 {a : Nat} {x : Word} (h : SameRoster s u) : SameRoster s (u.wr64 a x) := h.wr

theorem SameRoster.wrPhys {a : Nat} {d : List Byte} (h : SameRoster s u) : SameRoster s (u.wrPhys a d) := by
  rw [State.wrPhys_frame]
  exact h

theorem SameRoster.wrRw {d : List Byte} {a : Nat} (h : SameRoster s u) : SameRoster s (u.wrRw a d) := by
  induction d generalizing u a with
  | nil => exact h
  | cons b r ih => exact ih (SameRoster.ite h (h.wr (a := a) (d := [b])))

theorem SameRoster.smear {a n : Nat} (h : SameRoster s u) : SameRoster s (u.smear a n) := SameRoster.wrRw h

theorem SameRoster.hostWr {d : List Byte} {a : Nat} (h : SameRoster s u) : SameRoster s (u.hostWr a d) := by
  induction d generalizing u a with
  | nil => exact h
  | cons b r ih =>
    refine ih ?_
    exact h

theorem SameRoster.wrBlocks {bs : List Block} {d : List Byte} (h : SameRoster s u) : SameRoster s (u.wrBlocks bs d) := by
  induction bs generalizing u d with
  | nil => exact h
  | cons b r ih => exact ih h.wrRw

theorem SameRoster.wrV {ctx : Half} {va : Word} {d : List Byte} (h : SameRoster s u) : Yields (SameRoster s) (u.wrV ctx va d) := by
  unfold State.wrV
  split
  · exact h.wrBlocks
  · trivial

/-! ### Outstanding operations -/

theorem SameRoster.dropOp {id : Nat} (h : SameRoster s u) : SameRoster s (u.dropOp id) := h

theorem SameRoster.put {g : Seg} {d : List Byte} (h : SameRoster s u) : SameRoster s (u.put g d) := SameRoster.ite h h.wrRw

theorem SameRoster.smearSeg {g : Seg} (h : SameRoster s u) : SameRoster s (u.smearSeg g) := SameRoster.ite h h.smear

theorem SameRoster.noteBar {g : Seg} (h : SameRoster s u) : SameRoster s (u.noteBar g) := SameRoster.ite h h

theorem SameRoster.noteBars {l : List Seg} (h : SameRoster s u) : SameRoster s (l.foldl State.noteBar u) := h.foldl fun _ _ hv => hv.noteBar

theorem SameRoster.storeNow {o : Op} (h : SameRoster s u) : SameRoster s (u.storeNow o) :=
  SameRoster.dropOp (h.foldl fun _ _ hv => hv.put)

theorem SameRoster.remember {owner : Nat} {mark : Word} {m : Bool} {res : Word} (h : SameRoster s u) :
    SameRoster s (u.remember owner mark m res) := SameRoster.ite h h

theorem SameRoster.onEnding {o : Op} {f : Launch → Launch} (h : SameRoster s u) : SameRoster s (u.onEnding o f) := SameRoster.ite h h

theorem SameRoster.blockNow {o : Op} (h : SameRoster s u) : SameRoster s (u.blockNow o) := by
  have hmoved : SameRoster s (o.dst.foldl (fun (a : State × List Byte) g => (a.1.put g (a.2.take g.len), a.2.drop g.len))
      (o.segs.foldl State.noteBar u, o.segs.flatMap u.take_)).1 := SameRoster.foldl_fst h.noteBars fun _ _ ha => ha.put
  exact hmoved.dropOp.foldl fun _ _ hv => hv.smearSeg

theorem SameRoster.outlive {o : Op} (h : SameRoster s u) : SameRoster s (u.outlive o) := SameRoster.ite h h

theorem SameRoster.outliveNew {o : Op} (h : SameRoster s u) : SameRoster s (u.outliveNew o) := h

/-! ### Baskets, engines and messages -/

theorem SameRoster.setCore {c : CoreId} {x : CoreSt} (h : SameRoster s u) : SameRoster s (u.setCore c x) := h

theorem SameRoster.setBundle {b : Nat} {x : Bundle} (h : SameRoster s u) : SameRoster s (u.setBundle b x) := h

theorem SameRoster.mirrorMembk {c : CoreId} {ctx : Half} {old k : CoreSt} (h : SameRoster s u) : SameRoster s (u.mirrorMembk c ctx old k) := by
  refine SameRoster.ite h ?_
  split
  · exact h
  · exact h.foldl fun _ _ hv => hv.wr

theorem SameRoster.dropMsgs {l : Launch} {c : CoreId} (h : SameRoster s u) : SameRoster s (u.dropMsgs l c) :=
  SameRoster.ite h h.mirrorMembk.setCore

theorem SameRoster.onFrozen {ctx : Half} {g : Frozen → Frozen} (h : SameRoster s u) : SameRoster s (u.onFrozen ctx g) := h

theorem SameRoster.setPileAny {b : Nat} {lid : Half} {p : Pile} (h : SameRoster s u) : SameRoster s (u.setPileAny b lid p) := by
  unfold State.setPileAny
  split
  · exact h
  · exact h

theorem SameRoster.mirrorWindow {ctx : Half} {owner : Nat} {mark : Word} (h : SameRoster s u) : SameRoster s (u.mirrorWindow ctx owner mark) := by
  unfold State.mirrorWindow
  split
  · exact h.wr
  · exact h

theorem SameRoster.writeResidue {l : Launch} (h : SameRoster s u) : SameRoster s (u.writeResidue l) := SameRoster.ite h (h.getD h.wrV)

theorem SameRoster.post {f : Flight} (h : SameRoster s u) : SameRoster s (u.post f) := h

theorem SameRoster.signalAt {a : Option Nat} (h : SameRoster s u) : SameRoster s (u.signalAt a) := by
  unfold State.signalAt
  split
  · exact h
  · exact h.wrRw

/-! ### Copies -/

theorem SameRoster.setCopyQ {q : CopyQ} (h : SameRoster s u) : SameRoster s (u.setCopyQ q) := SameRoster.ite h h

theorem SameRoster.syncCopyQ {q : CopyQ} {i : Nat} (h : SameRoster s u) : SameRoster s (u.syncCopyQ q i) := by
  unfold State.syncCopyQ
  split
  · exact h
  · split
    · exact h.wr64.wr64
    · exact h.wr64.wr64.wr

theorem SameRoster.syncWhole {q : CopyQ} (h : SameRoster s u) : SameRoster s (u.syncWhole q) := h.foldl fun _ _ hv => hv.syncCopyQ

theorem SameRoster.passEntries {gone : CopyE → Bool} (h : SameRoster s u) : SameRoster s (u.passEntries gone) :=
  h.foldl fun _ _ hv => SameRoster.ite hv hv.setCopyQ.syncWhole

theorem SameRoster.sweepCopies {l : Launch} (h : SameRoster s u) : SameRoster s (u.sweepCopies l) := h.passEntries

theorem SameRoster.copyMove {src dst : List Seg} (h : SameRoster s u) : SameRoster s (u.copyMove src dst) := h.noteBars.foldl fun _ _ hv => hv.put

theorem SameRoster.copyChunk {f : Nat → Nat} {v : View} {d : Vec} {pos : Nat} (h : SameRoster s u) : SameRoster s (u.copyChunk f v d pos).1 := by
  unfold State.copyChunk
  extract_lets n src dst move upTo
  have hmove : ∀ k, SameRoster s (move k).1 := by
    intro k
    dsimp only [move]
    split
    · split
      · exact h
      · split
        · split
          · exact h.copyMove
          · exact h
        · exact h.copyMove
    · exact h
  have hupTo : ∀ k c, SameRoster s (upTo k c).1 := by
    intro k c
    have hk := hmove k
    dsimp only [upTo]
    split
    · rename_i hm
      rwa [hm] at hk
    · exact hk
  split
  · exact hmove n
  · exact hupTo _ _
  · exact hupTo _ _
  · exact hupTo _ _

theorem SameRoster.smearChunk {f : Nat → Nat} {v : View} {d : Vec} {pos n : Nat} (h : SameRoster s u) : SameRoster s (u.smearChunk f v d pos n) := by
  unfold State.smearChunk
  split
  · exact h.foldl fun _ _ hv => hv.smearSeg
  · exact h

theorem SameRoster.orphanChunk {f : Nat → Nat} {o : Op} {d : Vec} {smeared : Bool} {pos n : Nat} (h : SameRoster s u) :
    SameRoster s (u.orphanChunk f o d smeared pos n) := by
  unfold State.orphanChunk
  split
  · exact SameRoster.ite h (SameRoster.ite h.noteBars.outliveNew h.outliveNew)
  · exact h

theorem SameRoster.copyRest {f : Nat → Nat} {o : Op} {d : Vec} {smeared : Bool} {fuel pos : Nat} (h : SameRoster s u) :
    SameRoster s (State.copyRest f o d smeared fuel u pos) := by
  induction fuel generalizing u pos with
  | zero => exact h
  | succ n ih =>
    unfold State.copyRest
    extract_lets later
    have hlater : ∀ {v}, SameRoster s v → SameRoster s (later v) := fun hv => SameRoster.ite hv.orphanChunk (ih hv.orphanChunk)
    have hchunk := h.copyChunk (f := f) (v := o.view) (d := d) (pos := pos)
    refine SameRoster.ite h (SameRoster.ite (hlater h) ?_)
    split
    all_goals
      rename_i hc
      rw [hc] at hchunk
    · exact ih (SameRoster.ite hchunk.smearChunk hchunk)
    · exact hlater hchunk
    · exact SameRoster.ite hchunk.smearChunk hchunk

/-! ### The end of a launch -/

theorem SameRoster.sweep {l : Launch} (h : SameRoster s u) : SameRoster s (u.sweep l) := h

theorem SameRoster.moveScratch {ctx : Half} {from_ to_ n : Nat} (h : SameRoster s u) : SameRoster s (u.moveScratch ctx from_ to_ n) :=
  SameRoster.ite h h.wr

theorem SameRoster.settle {l : Launch} {status : Word} (h : SameRoster s u) : SameRoster s (u.settle l status) := by
  unfold State.settle
  dsimp only
  have hsignal : SameRoster s (if l.sslot = 0 then u else u.signalAt (u.slotAddr l l.sslot)) := SameRoster.ite h h.signalAt
  split
  · exact hsignal
  · exact hsignal
  · exact hsignal

theorem SameRoster.writeCrec {ctx : Half} {crec : Word} {d : List Byte} (h : SameRoster s u) : Yields (SameRoster s) (u.writeCrec ctx crec d) := by
  unfold State.writeCrec
  split
  · trivial
  · unfold State.wrTarget
    split
    · rename_i he
      exact h.wrV.of_eq he
    · split
      · exact h.hostWr
      · trivial

theorem SameRoster.closeOne {e : Ending} (h : SameRoster s u) : SameRoster s (u.closeOne e) := by
  unfold State.closeOne
  extract_lets s1 d s2
  have h1 : SameRoster s s1 := h
  have h2 : SameRoster s s2 := by
    dsimp only [s2]
    split
    · rename_i he
      exact h1.writeCrec.of_eq he
    · exact h1
  exact SameRoster.ite h h2.settle

theorem SameRoster.close (h : SameRoster s u) : SameRoster s u.close := h.foldl fun _ _ hv => hv.closeOne

theorem SameRoster.stamped (h : SameRoster s u) : SameRoster s u.stamped := h

/-! ### The start of a launch -/

theorem SameRoster.forgetBut {c : CoreId} {l : List (Nat × Nat)} {lo hi : Nat} (h : SameRoster s u) : SameRoster s (Machine.forgetBut c l lo hi u) := by
  induction l generalizing u lo hi with
  | nil => exact SameRoster.ite h h
  | cons x r ih => exact SameRoster.ite h (SameRoster.ite (ih h) (ih (ih h)))

theorem SameRoster.shareScratch {l : Launch} {c : CoreId} (h : SameRoster s u) : SameRoster s (u.shareScratch l c) := SameRoster.ite h h.forgetBut

theorem SameRoster.startScratch {l : Launch} {b : Nat} {shared : Bool} (h : SameRoster s u) : SameRoster s (u.startScratch l b shared) := by
  have hcleared : SameRoster s (if shared then ((List.range 8).map fun i => cc (8 * b + i)).foldl (fun s c => s.shareScratch l c) u
      else u.forget (scratchBus (cc (8 * b)) 0) (8 * 2 ^ 18)) := SameRoster.ite (h.foldl fun _ _ hv => hv.shareScratch) h
  refine SameRoster.foldl (hcleared.foldl fun _ _ hv => hv.setCore) fun _ _ hv => ?_
  split
  · exact hv
  · split
    · exact hv
    · exact hv.foldl fun _ _ hw => hw.wrRw

end

end Sys2Proof.Machine
end

section
/-!
Operations of the Livik level that change no thread set, no launch and no unit: pages, contexts, frames, state blocks, and the end of a program.
-/

namespace Sys2Proof.Machine

open Sys2Proof Sys2Proof.Claims

section

variable {s u w : State}

/-! ### Pages, contexts and frames -/

theorem SameRoster.setPage {i : Nat} {e : PageE} (h : SameRoster s u) : SameRoster s (u.setPage i e) :=
  SameRoster.wrPhys (u := { u with pages := Assoc.set u.pages i e }) h

theorem SameRoster.onPage {i : Nat} {f : PageE → PageE} (h : SameRoster s u) : SameRoster s (u.onPage i f) := h.setPage

theorem SameRoster.setLc {cid : Nat} {c : LCtx} (h : SameRoster s u) : SameRoster s (u.setLc cid c) := by
  have ht : SameRoster s { u with lctx := Assoc.set u.lctx cid c } := h
  exact SameRoster.ite ht ht.wrPhys

theorem SameRoster.onLc {cid : Nat} {f : LCtx → LCtx} (h : SameRoster s u) : SameRoster s (u.onLc cid f) := h.setLc

theorem SameRoster.handFrame {frame units : Nat} (h : SameRoster s u) : SameRoster s (u.handFrame frame units) := by
  refine SameRoster.ite h ?_
  split
  · exact h
  · exact h

theorem SameRoster.giveTier {res loc units : Nat} (h : SameRoster s u) : SameRoster s (u.giveTier res loc units) := by
  unfold State.giveTier
  split
  · exact h.handFrame
  · exact h
  · exact h

theorem SameRoster.release {i : Nat} (h : SameRoster s u) : SameRoster s (u.release i) :=
  SameRoster.ite h (SameRoster.ite h.setPage.giveTier.giveTier h.setPage.giveTier)

theorem SameRoster.quarantine {cid : Nat} (h : SameRoster s u) : SameRoster s (u.quarantine cid) := SameRoster.onLc h

theorem SameRoster.ctxDrop {cid : Nat} (h : SameRoster s u) : SameRoster s (u.ctxDrop cid) := by
  have hpages : SameRoster s ((u.lc cid).list.foldl (fun v i => v.onPage i fun e =>
      { e with refc := e.refc - 1, hold := if (u.lc cid).pin then e.hold - 1 else e.hold }) u) := h.foldl fun _ _ hv => hv.onPage
  exact SameRoster.ite h (SameRoster.foldl (SameRoster.ite hpages.setLc.quarantine hpages.setLc) fun _ _ hv => hv.release)

theorem SameRoster.unbusy {slot : Nat} (h : SameRoster s u) : SameRoster s (u.unbusy slot) := h

theorem SameRoster.dropFrames {slot : Nat} (h : SameRoster s u) : SameRoster s (u.dropFrames slot) :=
  SameRoster.foldl (u := { u with reserved := u.reserved.filter fun r => decide (r.1 ≠ slot) }) h fun _ _ hv => hv.handFrame

/-! ### Detaches -/

theorem SameRoster.detachUndo {cid : Nat} (h : SameRoster s u) : SameRoster s (u.detachUndo cid) := by
  unfold State.detachUndo
  split
  · exact h
  · refine SameRoster.handFrame (SameRoster.onLc (SameRoster.onPage ?_))
    split
    · exact h
    · exact h.setPage

theorem SameRoster.newPage {img : Half} {frame refc fill hold use : Nat} (h : SameRoster s u) :
    Yields (fun r => SameRoster s r.1) (u.newPage img frame refc fill hold use) := by
  unfold State.newPage
  split
  · trivial
  · exact SameRoster.setPage h

theorem SameRoster.relist {cid i pti : Nat} (h : SameRoster s u) : SameRoster s (u.relist cid i pti) := SameRoster.setLc (SameRoster.ite h.onPage h)

theorem SameRoster.detachEnd {cids : List Nat} {d : Detach} (h : SameRoster s u) : SameRoster s (u.detachEnd cids d) := by
  unfold State.detachEnd
  extract_lets e copied pins
  have hcopied : SameRoster s copied := h.wrPhys.wrPhys
  split
  · exact hcopied
  · rename_i hnew
    exact ((hcopied.newPage.of_eq hnew).foldl fun _ _ hv => hv.relist).onPage.release

/-! ### Programs -/

theorem SameRoster.onProg {slot : Nat} {f : Prog → Prog} (h : SameRoster s u) : SameRoster s (u.onProg slot f) := h

theorem SameRoster.setPState {slot : Nat} {st : PState} {tail : Bool} (h : SameRoster s u) : SameRoster s (u.setPState slot st tail) := by
  unfold State.setPState
  split
  · exact h
  · exact h

theorem SameRoster.syncBlock {slot : Nat} (h : SameRoster s u) : SameRoster s (u.syncBlock slot) := by
  unfold State.syncBlock
  split
  · exact h
  · exact h.wrPhys.wrPhys.foldl fun _ _ hv => SameRoster.ite hv hv.wrPhys

theorem SameRoster.hostPut {p : Prog} {cls : Nat} {tag val retn : Word} {pay : List Byte} (h : SameRoster s u) :
    SameRoster s (u.hostPut p cls tag val retn pay) := (SameRoster.ite h h.wrPhys).wrPhys.wr64.onProg

theorem SameRoster.endNotice {slot : Nat} (h : SameRoster s u) : SameRoster s (u.endNotice slot) := by
  unfold State.endNotice
  split
  · exact h
  · unfold State.notice
    split
    · exact h
    · exact SameRoster.ite h h.hostPut

theorem SameRoster.openWindow {slot : Nat} (h : SameRoster s u) : SameRoster s (u.openWindow slot) := by
  unfold State.openWindow
  split
  · exact h
  · split
    · exact h
    · exact SameRoster.ite h h

theorem SameRoster.unpark (h : SameRoster s u) : SameRoster s u.unpark := by
  refine h.foldl fun _ _ hv => ?_
  split
  · exact hv
  · exact SameRoster.ite hv.onProg.setPState.openWindow hv

theorem SameRoster.agentKill {slot code : Nat} (h : SameRoster s u) : SameRoster s (u.agentKill slot code) := by
  unfold State.agentKill
  split
  · exact h
  · extract_lets await s1 s2 s3 s4 s5 s6
    have h2 : SameRoster s s2 := h.onProg.setPState
    have h3 : SameRoster s s3 := by
      dsimp only [s3]
      split
      · exact h2.detachUndo
      · exact h2
    have h4 : SameRoster s s4 := SameRoster.ite h3 h3.ctxDrop
    have h6 : SameRoster s s6 := h4.unbusy.dropFrames
    exact h6.endNotice.syncBlock.unpark

theorem SameRoster.killLost {slot : Nat} (h : SameRoster s u) : SameRoster s (u.killLost slot) := by
  unfold State.killLost
  split
  · exact h
  · exact SameRoster.ite h.onProg h.agentKill

theorem SameRoster.rebuild (h : SameRoster s u) : SameRoster s u.rebuild := by
  unfold State.rebuild
  refine SameRoster.foldl (SameRoster.foldl (SameRoster.foldl h fun _ _ hv => ?_) fun _ _ hv => hv.syncBlock) fun _ _ hv => SameRoster.ite hv.openWindow hv
  split
  · exact hv.detachEnd
  · exact hv

/-! ### Pages of a channel that fails -/

theorem SameRoster.cancelMoves {c : Nat} (h : SameRoster s u) : SameRoster s (u.cancelMoves c) :=
  h.foldl fun _ _ hv => SameRoster.ite hv (SameRoster.ite hv.giveTier.setPage (SameRoster.ite hv.setPage hv))

theorem SameRoster.cancelDetaches {c : Nat} (h : SameRoster s u) : SameRoster s (u.cancelDetaches c) := by
  refine h.foldl fun _ _ hv => ?_
  split
  · exact hv
  · exact SameRoster.ite hv.detachUndo hv

end

end Sys2Proof.Machine
end

section
/-!
What the end and the second start of a launch keep: no unit comes back, and no launch comes that is not there. A state operation `f` has the lemma
`KeepsMap.f`; one that `SameRoster` speaks of goes through `KeepsMap.same`.
-/

namespace Sys2Proof.Machine

open Sys2Proof Sys2Proof.Claims

/-- From `s` to `u` the bundles, islands and channels that are absent stay the same, and no launch has come. -/
def KeepsMap (s u : State) : Prop :=
  u.absent = s.absent ∧ u.absentIsl = s.absentIsl ∧ u.absentCh = s.absentCh ∧ ∀ lid, s.launch lid = none → u.launch lid = none

theorem State.launch_eq_none {s : State} {lid : Half} : s.launch lid = none ↔ ∀ x ∈ s.launches, x.lid ≠ lid := by
  simp [State.launch]

section

variable {s u w : State}

theorem KeepsMap.refl : KeepsMap s s := ⟨rfl, rfl, rfl, fun _ h => h⟩

theorem KeepsMap.absentCh (h : KeepsMap s u) : u.absentCh = s.absentCh := h.2.2.1

theorem KeepsMap.gone {lid : Half} (h : KeepsMap s u) (hn : s.launch lid = none) : u.launch lid = none := h.2.2.2 lid hn

theorem KeepsMap.trans (h : KeepsMap s u) (k : KeepsMap u w) : KeepsMap s w := by
  obtain ⟨ha, hi, hc, hl⟩ := h
  obtain ⟨ka, ki, kc, kl⟩ := k
  exact ⟨ka.trans ha, ki.trans hi, kc.trans hc, fun lid hn => kl lid (hl lid hn)⟩

theorem KeepsMap.same (h : KeepsMap s u) (k : SameRoster u w) : KeepsMap s w := by
  obtain ⟨-, kl, ka, ki, kc, -⟩ := k
  refine h.trans ⟨ka, ki, kc, fun lid hn => ?_⟩
  rwa [State.launch, kl]

theorem KeepsMap.ite {c : Prop} [Decidable c] (h : KeepsMap s u) (k : KeepsMap s w) : KeepsMap s (if c then u else w) := by
  split
  · exact h
  · exact k

theorem KeepsMap.foldl {α : Type} {f : State → α → State} {l : List α} (h : KeepsMap s u) (hf : ∀ v x, KeepsMap s v → KeepsMap s (f v x)) :
    KeepsMap s (l.foldl f u) := l.foldlRecOn f h fun v hv x _ => hf v x hv

/-- Launches that all have the id of one that is there. -/
theorem KeepsMap.withLaunches {ls : List Launch} (h : KeepsMap s u) (hl : ∀ x ∈ ls, ∃ y ∈ u.launches, y.lid = x.lid) :
    KeepsMap s { u with launches := ls } := by
  refine h.trans ⟨rfl, rfl, rfl, fun lid hn => State.launch_eq_none.mpr fun x hx he => ?_⟩
  obtain ⟨y, hy, hxy⟩ := hl x hx
  exact State.launch_eq_none.mp hn y hy (hxy.trans he)

theorem KeepsMap.mapLaunches {g : Launch → Launch} (h : KeepsMap s u) (hg : ∀ l, (g l).lid = l.lid) :
    KeepsMap s { u with launches := u.launches.map g } := by
  refine h.withLaunches fun x hx => ?_
  obtain ⟨y, hy, rfl⟩ := List.mem_map.mp hx
  exact ⟨y, hy, (hg y).symm⟩

theorem KeepsMap.onLaunch {lid : Option Half} {f : Launch → Launch} (h : KeepsMap s u) (hf : ∀ l, (f l).lid = l.lid) :
    KeepsMap s (u.onLaunch lid f) := by
  unfold State.onLaunch
  split
  · exact h
  · refine h.mapLaunches fun l => ?_
    split
    · exact hf l
    · rfl

theorem KeepsMap.setLaunch {l : Launch} (h : KeepsMap s u) : KeepsMap s (u.setLaunch l) := by
  refine h.mapLaunches fun x => ?_
  split
  · rename_i he
    exact he.symm
  · rfl

/-! ### Operations as their launch ends -/

theorem KeepsMap.fillS {t : TsId} {id which : Nat} {v : LdE Word} (h : KeepsMap s u) : KeepsMap s (u.fillS t id which v) := h

theorem KeepsMap.dropOp {id : Nat} (h : KeepsMap s u) : KeepsMap s (u.dropOp id) := h

theorem KeepsMap.endWith {id : Nat} {status : Word} (h : KeepsMap s u) : KeepsMap s (u.endWith id status) := by
  unfold State.endWith
  split
  · exact KeepsMap.dropOp (KeepsMap.ite h.fillS h)
  · exact h

theorem KeepsMap.loseFreeze {b : Nat} (h : KeepsMap s u) : KeepsMap s (u.loseFreeze b) := h.foldl fun _ _ hv => hv.endWith

/-- One more operation applied of a launch, by its M bit. -/
theorem lid_applied (l : Launch) : ({ l with mappl := l.mappl + 1 } : Launch).lid = l.lid := rfl

theorem KeepsMap.amoNow {o : Op} (h : KeepsMap s u) : KeepsMap s (u.amoNow o) := by
  unfold State.amoNow
  split
  · exact h
  · extract_lets m old push bad s1 s2 s3 s4
    have h1 : KeepsMap s s1 := by
      dsimp only [s1]
      split
      · exact h.same SameRoster.refl.noteBar
      · exact h.same SameRoster.refl.put
    have h2 : KeepsMap s s2 := h1.same SameRoster.refl.remember
    have h3 : KeepsMap s s3 := KeepsMap.ite ((h2.onLaunch lid_applied).same SameRoster.refl.onEnding) h2
    have h4 : KeepsMap s s4 := by
      refine KeepsMap.ite ?_ h3
      cases bad with
      | none => exact h3.fillS
      | some x => exact h3.fillS
    exact h4.dropOp

theorem KeepsMap.gainApplied {b owner : Nat} {lid ctx : Half} {p : Pile} {mark res : Word} {m : Bool} (h : KeepsMap s u) :
    KeepsMap s (((u.setPileAny b lid p).remember owner mark m res).mirrorWindow ctx owner mark) :=
  h.same SameRoster.refl.setPileAny.remember.mirrorWindow

theorem KeepsMap.gainNow {o : Op} (h : KeepsMap s u) : KeepsMap s (u.gainNow o) := by
  unfold State.gainNow
  split
  · exact h
  · extract_lets b own
    refine KeepsMap.ite h ?_
    split
    exact KeepsMap.ite (h.gainApplied.onLaunch lid_applied) h.gainApplied

theorem KeepsMap.finishOp {f : Nat → Nat} {o : Op} (h : KeepsMap s u) : KeepsMap s (u.finishOp f o) := by
  have hlate : ∀ {v} x, KeepsMap s v → KeepsMap s (State.outlive v x) := fun _ hv => hv.same SameRoster.refl.outlive
  have hstore : ∀ x, KeepsMap s (u.storeNow x) := fun _ => h.same SameRoster.refl.storeNow
  have hblock : ∀ x, KeepsMap s (u.blockNow x) := fun _ => h.same SameRoster.refl.blockNow
  unfold State.finishOp
  dsimp only
  split
  · exact KeepsMap.ite h (KeepsMap.ite (hstore _) (hlate _ h))
  · exact KeepsMap.ite h (KeepsMap.ite (hstore _) (hlate _ h))
  · exact KeepsMap.ite h (KeepsMap.ite (hstore _) (hlate _ h))
  · exact hstore _
  · exact KeepsMap.ite (hlate _ h) (hstore _)
  · exact KeepsMap.ite h (KeepsMap.ite h.amoNow (hlate _ h))
  · exact KeepsMap.ite h (KeepsMap.ite (hlate _ h) (KeepsMap.ite h (hblock _)))
  · exact KeepsMap.ite h (KeepsMap.ite (hblock _) (hlate _ (h.same SameRoster.refl.noteBars)))
  · exact h.dropOp.gainNow
  · split
    · exact h.dropOp.same SameRoster.refl.copyRest
    · exact h
  · exact KeepsMap.ite (hlate _ h) h
  · exact KeepsMap.ite (hlate _ h) h
  · exact KeepsMap.ite (hlate _ h) h
  · exact h

theorem KeepsMap.flushOps {p : Op → Bool} (h : KeepsMap s u) : KeepsMap s (u.flushOps p) := h.foldl fun _ _ hv => hv.finishOp

theorem KeepsMap.finishFrozen {o : Op} (h : KeepsMap s u) : KeepsMap s (u.finishFrozen o) := by
  refine KeepsMap.ite h ?_
  split
  case h_6 => exact h
  all_goals
    split
    · exact h.finishOp
    · exact h.finishOp

theorem KeepsMap.discardWork {l : Launch} (h : KeepsMap s u) : KeepsMap s (u.discardWork l) := by
  unfold State.discardWork
  extract_lets mine imgs n1 n recs s1 s2 s3
  have h1 : KeepsMap s s1 := h.foldl fun _ _ hv => hv.same SameRoster.refl.dropMsgs
  have h3 : KeepsMap s s3 := KeepsMap.foldl (u := s2) h1 fun _ _ hv => hv.finishFrozen
  exact h3.onLaunch fun _ => rfl

theorem KeepsMap.raiseAreas {l : Launch} (h : KeepsMap s u) : KeepsMap s (u.raiseAreas l) := by
  refine h.foldl fun _ _ hv => hv.foldl fun _ _ hw => KeepsMap.onLaunch (KeepsMap.ite hw ?_) fun _ => rfl
  exact hw.foldl fun _ _ hx => hx.same SameRoster.refl.moveScratch

theorem KeepsMap.loosen {lid : Half} (h : KeepsMap s u) : KeepsMap s (u.loosen lid) := KeepsMap.ite h h

/-! ### The end of a launch -/

/-- The end of a launch takes it away, and brings none. -/
theorem State.endLaunchAt_gone (s : State) (lid : Half) (status : Nat) (stamp : Stamp) :
    KeepsMap s (s.endLaunchAt lid status stamp) ∧ (s.endLaunchAt lid status stamp).launch lid = none := by
  unfold State.endLaunchAt
  split
  · rename_i hn
    exact ⟨KeepsMap.refl, hn⟩
  · extract_lets s1 s2 s3 l1 l resid s4 s5 gone s6
    have h3 : KeepsMap s s3 := KeepsMap.discardWork (u := s2) (KeepsMap.flushOps KeepsMap.refl)
    have h4 : KeepsMap s s4 := KeepsMap.ite (h3.same SameRoster.refl.writeResidue) h3
    have h5 : KeepsMap s s5 := KeepsMap.loosen (KeepsMap.raiseAreas (h4.same SameRoster.refl.sweep.sweepCopies))
    have h6 : KeepsMap s s6 := h5.withLaunches fun x hx => ⟨x, (List.mem_filter.mp hx).1, rfl⟩
    have hgone : s6.launch lid = none := State.launch_eq_none.mpr fun x hx => by simpa using (List.mem_filter.mp hx).2
    have hclose : KeepsMap s6 ({ s6 with ending := s6.ending ++ [{ l := l, status := status, stamp := stamp, resid := resid }] } : State).close :=
      KeepsMap.refl.same (SameRoster.close SameRoster.refl)
    exact ⟨h6.trans hclose, hclose.gone hgone⟩

theorem State.endLaunch_gone (s : State) (lid : Half) (status : Nat) : KeepsMap s (s.endLaunch lid status) ∧ (s.endLaunch lid status).launch lid = none := by
  unfold State.endLaunch
  split
  · rename_i hn
    exact ⟨KeepsMap.refl, Option.isNone_iff_eq_none.mp hn⟩
  · exact s.endLaunchAt_gone lid status s.stamp

/-! ### A launch that runs again -/

theorem KeepsMap.refuseLaunch {l : Launch} {status : Nat} (h : KeepsMap s u) : KeepsMap s (u.refuseLaunch l status) := by
  unfold State.refuseLaunch
  extract_lets valid1 valid s1 s2 l2
  have hrecord : SameRoster u s1 := SameRoster.ite (SameRoster.refl.getD SameRoster.refl.writeCrec) (SameRoster.ite SameRoster.refl SameRoster.refl)
  have h2 : KeepsMap s s2 := (h.same hrecord).withLaunches fun x hx => ⟨x, (List.mem_filter.mp hx).1, rfl⟩
  exact h2.same SameRoster.refl.settle

theorem KeepsMap.startLaunch {l : Launch} {bs : List Nat} (h : KeepsMap s u) : KeepsMap s (u.startLaunch l bs) := by
  unfold State.startLaunch
  extract_lets n groups shared l2 s1 s2 s3 m
  have h1 : KeepsMap s s1 := h.setLaunch
  have h2 : KeepsMap s s2 := h1.foldl fun _ _ hv => hv.same SameRoster.refl.startScratch
  have h3 : KeepsMap s s3 := KeepsMap.ite (h2.foldl fun _ _ hv => hv.same SameRoster.refl.setBundle) h2
  exact KeepsMap.ite h.refuseLaunch (h3.same SameRoster.refl.post)

theorem KeepsMap.placeLaunch {l : Launch} (h : KeepsMap s u) : KeepsMap s (u.placeLaunch l) := by
  refine KeepsMap.ite h.refuseLaunch ?_
  split
  · exact h.startLaunch
  · exact h.setLaunch

theorem KeepsMap.rerun {lid : Half} (h : KeepsMap s u) : KeepsMap s (u.rerun lid) := by
  unfold State.rerun
  split
  · exact h
  · rename_i l _
    extract_lets s1 s2 s3 s4 l2
    have h3 : KeepsMap s s3 := KeepsMap.raiseAreas ((KeepsMap.discardWork (u := s2) h.flushOps).same SameRoster.refl.sweep.sweepCopies)
    have h4 : KeepsMap s s4 := KeepsMap.loosen h3
    exact h4.setLaunch.placeLaunch

end

end Sys2Proof.Machine
end

section
/-!
Parts that fail (R22, R48, R68, R196, R208): the parts of O53.
-/

namespace Sys2Proof.Machine

open Sys2Proof Sys2Proof.Claims

/-! ## Lookups among what stays -/

/-- What a filter by the key leaves of an association list. -/
theorem Assoc_get_filter {κ α : Type} [DecidableEq κ] (p : κ → Bool) (l : List (κ × α)) (k : κ) :
    Assoc.get (l.filter fun e => p e.1) k = if p k then Assoc.get l k else none := by
  induction l with
  | nil => simp [Assoc.get]
  | cons e r ih =>
    by_cases hk : k = e.1
    · subst hk
      by_cases hp : p e.1
      · simp [List.filter, hp, Assoc.get]
      · simp only [List.filter, hp, ih]
        simp
    · by_cases hp : p e.1
      · simp [List.filter, hp, Assoc.get, hk, ih]
      · simp [List.filter, hp, Assoc.get, hk, ih]

theorem State.tsGet_filter {s u : State} {p : TsId → Bool} (h : u.ts = s.ts.filter fun e => p e.1) (t : TsId) :
    u.tsGet t = if p t then s.tsGet t else ThreadSet.reset := by
  rw [State.tsGet, h, Assoc.getD, Assoc_get_filter]
  split
  · rfl
  · rfl

/-- A launch that some pass over a list ends is gone behind it, where no step of the pass brings a launch. -/
theorem foldl_ends {f : State → Launch → State} (hf : ∀ v y, KeepsMap v (f v y)) {l : Launch} (hl : ∀ v, (f v l).launch l.lid = none)
    {ls : List Launch} (hmem : l ∈ ls) (s : State) : (ls.foldl f s).launch l.lid = none := by
  obtain ⟨before, after, rfl⟩ := List.append_of_mem hmem
  rw [List.foldl_append, List.foldl_cons]
  exact (KeepsMap.refl.foldl fun _ y hv => hv.trans (hf _ y)).gone (hl _)

/-! ## Links, slices, engines and kernel cores -/

theorem linkLaneFault_result (s : State) {n : Nat} (hn : n < Config.links) : ∃ u, exec (.linkLaneFault n) s = .next u ∧ u.lanesOf n = s.lanesOf n / 2 ∧
    u = { s with lanes := u.lanes } ∧ ∀ m, m ≠ n → u.lanesOf m = s.lanesOf m := by
  refine ⟨{ s with lanes := Assoc.set s.lanes n (s.lanesOf n / 2) }, if_neg (Nat.not_le.mpr hn), ?_, rfl, fun m hm => ?_⟩
  · rw [State.lanesOf, if_pos hn, Assoc_getD_set_self]
  · simp only [State.lanesOf, Assoc_getD_set_ne _ _ _ _ _ hm]

theorem still_present {k n : Nat} {l : List Nat} (hk : k < n) (hl : k ∉ l) : ¬ (n ≤ k ∨ l.contains k = true) := by
  simpa [hl] using hk

theorem l2SliceFault_result (s : State) {n : Nat} (hn : n < Config.l2Slices) (ha : n ∉ s.absentL2) :
    ∃ u, exec (.l2SliceFault n) s = .next u ∧ u = { s with absentL2 := n :: s.absentL2 } :=
  ⟨_, if_neg (still_present hn ha), rfl⟩

theorem copyEngineFault_result (s : State) {n : Nat} (hn : n < Config.copyEngines) (ha : n ∉ s.absentCE) :
    ∃ u, exec (.copyEngineFault n) s = .next u ∧ u = { s with absentCE := n :: s.absentCE } :=
  ⟨_, if_neg (still_present hn ha), rfl⟩

/-- Where no queue holds an entry that goes, no queue changes. -/
theorem State.passEntries_none {s : State} {gone : CopyE → Bool} (h : ∀ q ∈ s.copyQs, ∀ e ∈ q.ents, gone e = false) : s.passEntries gone = s := by
  refine List.foldlRecOn (motive := fun u => u = s) s.copyQs _ rfl fun u hu q hq => ?_
  have hkeep : q.ents.filter (fun e => !(gone e)) = q.ents := List.filter_eq_self.mpr fun e he => by simp [h q hq e he]
  rw [if_pos (by rw [hkeep]), hu]

/-- The state without a kernel core, before its entries leave the copy queues. -/
def State.withoutKernelCore (s : State) (k : Nat) : State :=
  { s with
    absentK := k :: s.absentK, ts := s.ts.filter (fun e => decide (e.1.core ≠ kc k)), cores := s.cores.filter (fun e => decide (e.1 ≠ kc k)),
    ops := s.ops.filter (fun o => decide (o.t.core ≠ kc k)), net := s.net.filter (fun f => decide (f.dst ≠ kc k)) }

/-- A queue entry whose copy a kernel core has issued. -/
def State.issuedBy (s : State) (k : Nat) (e : CopyE) : Bool := s.ops.any (fun o => decide (o.t.core = kc k) && decide (o.id = e.op))

theorem State.ringControl_withoutKernelCore (s : State) (k a : Nat) : (s.withoutKernelCore k).ringControl a = s.ringControl a := by
  have hcore : Assoc.get (s.withoutKernelCore k).cores { kernel := false, idx := (a - scratchBase) / 2 ^ 18 } =
      Assoc.get s.cores { kernel := false, idx := (a - scratchBase) / 2 ^ 18 } :=
    (Assoc_get_filter (fun c => decide (c ≠ kc k)) s.cores _).trans (if_pos (by simp [kc]))
  rw [State.ringControl, State.ringControl, hcore]

/-- A block read that still is to write a byte when the kernel core has gone was to write it before. -/
theorem State.inBrd_withoutKernelCore {s : State} {k a : Nat} (h : s.inBrd a = false) : (s.withoutKernelCore k).inBrd a = false := by
  rw [State.inBrd, State.ringControl_withoutKernelCore]
  rw [State.inBrd] at h
  rcases Bool.and_eq_false_iff.mp h with h | h
  · refine Bool.and_eq_false_iff.mpr (.inl (List.any_eq_false.mpr fun o ho => ?_))
    exact List.any_eq_false.mp h o (List.mem_filter.mp ho).1
  · exact Bool.and_eq_false_iff.mpr (.inr h)

theorem State.sameBytes_withoutKernelCore (s : State) (k : Nat) : SameBytes s (s.withoutKernelCore k) := by
  intro a ha
  rw [State.rdByte, State.rdByte, ha, State.inBrd_withoutKernelCore ha]
  rfl

theorem kernelCoreFault_result (s : State) {n : Nat} (hn : n < Config.kernelCores) (ha : n ∉ s.absentK) :
    ∃ u, exec (.kernelCoreFault n) s = .next u ∧ u.coreAbsent (kc n) = true ∧
      ((∀ q ∈ s.copyQs, ∀ e ∈ q.ents, ∀ o ∈ s.ops, o.t.core = kc n → o.id ≠ e.op) → SameBytes s u) ∧
      (∀ t, t.core = kc n → (u.tsGet t).act = none) ∧ (∀ t, t.core ≠ kc n → u.tsGet t = s.tsGet t) ∧ u.launches = s.launches := by
  refine ⟨(s.withoutKernelCore n).passEntries (s.issuedBy n), if_neg (still_present hn ha), ?_⟩
  obtain ⟨hts, hlaunches, -, -, -, habsent⟩ : SameRoster (s.withoutKernelCore n) ((s.withoutKernelCore n).passEntries (s.issuedBy n)) :=
    SameRoster.passEntries SameRoster.refl
  have htsGet := State.tsGet_filter (s := s) (p := fun t => decide (t.core ≠ kc n)) hts
  refine ⟨?_, fun hents => ?_, fun t ht => ?_, fun t ht => ?_, hlaunches⟩
  · rw [State.coreAbsent, if_pos (show (kc n).kernel = true from rfl), habsent]
    simp [State.withoutKernelCore, kc]
  · rw [State.passEntries_none fun q hq e he => by simpa [State.issuedBy] using hents q hq e he]
    exact s.sameBytes_withoutKernelCore n
  · rw [htsGet, if_neg (by simp [ht])]
    rfl
  · rw [htsGet, if_pos (by simp [ht])]

/-! ## Bundles and islands -/

/-- The launches that run on one of the bundles, as the pass over them finds them. -/
def State.runningOn (s : State) (bs : List Nat) : List Launch :=
  s.launches.filter (fun l => decide (l.state = .running) && l.bundles.any (fun b => bs.contains b))

/-- The state when the launches on lost bundles have ended or begun again, and the bundles are absent. -/
def State.launchesLost (s : State) (bs : List Nat) : State :=
  let frozen := bs.foldl State.loseFreeze s
  let ended := (s.runningOn bs).foldl (fun s l => if l.repl then s else s.endLaunch l.lid 9) { frozen with absent := bs ++ frozen.absent }
  (s.runningOn bs).foldl (fun s l => if l.repl then s.rerun l.lid else s) ended

theorem State.launchesLost_keeps (s : State) (bs : List Nat) : KeepsMap { s with absent := bs ++ s.absent } (s.launchesLost bs) := by
  have hfrozen : KeepsMap s (bs.foldl State.loseFreeze s) := KeepsMap.refl.foldl fun _ _ hv => hv.loseFreeze
  obtain ⟨ha, hi, hc, hl⟩ := hfrozen
  refine KeepsMap.foldl (KeepsMap.foldl ⟨congrArg (bs ++ ·) ha, hi, hc, hl⟩ fun v l hv => ?_) fun v l hv => KeepsMap.ite hv.rerun hv
  exact KeepsMap.ite hv (hv.trans (v.endLaunch_gone l.lid 9).1)

theorem State.launchesLost_gone {s : State} {bs : List Nat} {l : Launch} (hl : l ∈ s.launches) (hrun : l.state = .running) (hrepl : l.repl = false)
    {b : Nat} (hb : b ∈ l.bundles) (hbs : b ∈ bs) : (s.launchesLost bs).launch l.lid = none := by
  have hmem : l ∈ s.runningOn bs := List.mem_filter.mpr ⟨hl, by simpa [hrun] using ⟨b, hb, hbs⟩⟩
  refine (KeepsMap.refl.foldl fun _ _ hv => KeepsMap.ite hv.rerun hv).gone (foldl_ends (fun v y => ?_) (fun v => ?_) hmem _)
  · exact KeepsMap.ite KeepsMap.refl (v.endLaunch_gone y.lid 9).1
  · rw [hrepl]
    exact (v.endLaunch_gone l.lid 9).2

/-- What the loss of bundles leaves: they are absent, their thread sets are free, and each launch on them that does not begin again is gone. -/
theorem State.loseBundles_result (s : State) (bs : List Nat) :
    (s.loseBundles bs).absent = bs ++ s.absent ∧ (s.loseBundles bs).absentIsl = s.absentIsl ∧
    (∀ t : TsId, t.core.kernel = false → bundleOf t.core ∈ bs → ((s.loseBundles bs).tsGet t).act = none) ∧
    ∀ l ∈ s.launches, l.state = .running → l.repl = false → (∃ b ∈ l.bundles, b ∈ bs) → (s.loseBundles bs).launch l.lid = none := by
  have hlost : ∃ v, v.ts = (s.launchesLost bs).ts.filter (fun e => !(!e.1.core.kernel && bs.contains (bundleOf e.1.core))) ∧
      KeepsMap (s.launchesLost bs) v ∧ SameRoster v (s.loseBundles bs) := by
    unfold State.loseBundles
    extract_lets hit s1 lost s2 s3 s4
    exact ⟨s4, rfl, KeepsMap.refl, SameRoster.ite (SameRoster.unpark (SameRoster.rebuild SameRoster.refl)) SameRoster.refl⟩
  obtain ⟨v, hv, hkeep, hsame⟩ := hlost
  obtain ⟨ha, hi, -, hl⟩ := (s.launchesLost_keeps bs).trans (hkeep.same hsame)
  refine ⟨ha, hi, fun t hk hb => ?_, fun l hmem hrun hrepl ⟨b, hb, hbs⟩ => ?_⟩
  · rw [State.tsGet_filter (p := fun t => !(!t.core.kernel && bs.contains (bundleOf t.core))) (hsame.ts.trans hv), if_neg (by simp [hk, hb])]
    rfl
  · exact (hkeep.same hsame).gone (State.launchesLost_gone hmem hrun hrepl hb hbs)

theorem bundleFault_result (s : State) {n : Nat} (hn : n < Config.bundles) (ha : n ∉ s.absent) : ∃ u, exec (.bundleFault n) s = .next u ∧
    (∀ i, i / 8 = n → u.coreAbsent (cc i) = true ∧ ∀ k, (u.tsGet { core := cc i, ts := k }).act = none) ∧
    ∀ l ∈ s.launches, l.state = .running → n ∈ l.bundles → l.repl = false → u.launch l.lid = none := by
  obtain ⟨habsent, -, hfree, hgone⟩ := s.loseBundles_result [n]
  refine ⟨s.loseBundles [n], if_neg (still_present hn ha), fun i hi => ⟨?_, fun k => ?_⟩, fun l hl hrun hb hrepl => ?_⟩
  · rw [State.coreAbsent, if_neg (show ¬ (cc i).kernel = true from nofun), habsent]
    simp [bundleOf, cc, hi]
  · exact hfree _ rfl (List.mem_singleton.mpr hi)
  · exact hgone l hl hrun hrepl ⟨n, hb, List.mem_singleton.mpr rfl⟩

/-- The bundles that an island takes with it (R22). -/
def State.bundlesOfIsland (s : State) (n : Nat) : List Nat :=
  if n < 32 then ((List.range 64).map (fun i => 64 * n + i)).filter (fun b => !(s.absent.contains b)) else []

theorem State.mem_bundlesOfIsland {s : State} {n b : Nat} (hn : n < 32) (hb : b / 64 = n) (ha : b ∉ s.absent) : b ∈ s.bundlesOfIsland n := by
  rw [State.bundlesOfIsland, if_pos hn]
  refine List.mem_filter.mpr ⟨List.mem_map.mpr ⟨b % 64, List.mem_range.mpr (by omega), by omega⟩, by simpa using ha⟩

theorem islandFault_result (s : State) {n : Nat} (hn : n < 32) (ha : n ∉ s.absentIsl) : ∃ u, exec (.islandFault n) s = .next u ∧
    (∀ i, islandOf (cc i) = n → u.coreAbsent (cc i) = true) ∧
    ∀ l ∈ s.launches, l.state = .running → (∃ b ∈ l.bundles, b / 64 = n ∧ b ∉ s.absent) → l.repl = false → u.launch l.lid = none := by
  have hislands : n < Config.islands := Nat.lt_trans hn (by decide)
  obtain ⟨-, hisl, -, hgone⟩ := ({ s with absentIsl := n :: s.absentIsl } : State).loseBundles_result (s.bundlesOfIsland n)
  refine ⟨({ s with absentIsl := n :: s.absentIsl } : State).loseBundles (s.bundlesOfIsland n), if_neg (still_present hislands ha), fun i hi => ?_,
    fun l hl hrun ⟨b, hb, hbn, hba⟩ hrepl => ?_⟩
  · rw [State.coreAbsent, if_neg (show ¬ (cc i).kernel = true from nofun), hisl, hi]
    simp
  · exact hgone l hl hrun hrepl ⟨b, hb, State.mem_bundlesOfIsland hn hbn hba⟩

/-! ## Channels -/

/-- An absent channel reads all ones (R22, R197). -/
theorem State.rdByte_absent {s : State} {a : Nat} (ha : a < scratchBase) (hc : a / Config.channelBytes ∈ s.absentCh) : s.rdByte a = 0xFF#8 := by
  rw [State.rdByte, if_neg (Nat.not_le.mpr ha), State.noChannel]
  simp [hc]

/-- What the loss of a channel leaves of it and of the launches that have their record in it (R22, R48, R196). -/
def ChannelLost (s : State) (n : Nat) (u : State) : Prop :=
  (∀ a, a < scratchBase → a / Config.channelBytes = n → u.rdByte a = 0xFF#8) ∧
    ∀ l ∈ s.launches, ∀ bs b, s.granted l.ctx l.crec 128 rWR false = .ok bs → b ∈ bs → inChannel n b.bus b.len = true → u.launch l.lid = none

theorem channelFault_result (s : State) {n : Nat} (hn : n < Config.channels) (ha : n ∉ s.absentCh) :
    ∃ u, exec (.channelFault n) s = .next u ∧ ChannelLost s n u := by
  suffices hs : Arrives (ChannelLost s n) (execChannelFault n s) from hs.exists_next
  unfold execChannelFault
  rw [if_neg (still_present hn ha)]
  extract_lets hitCrec ls ps alive s1 s2
  have hlast : SameRoster s2 (ps.foldl State.killLost ((s2.cancelMoves n).cancelDetaches n)).unpark :=
    SameRoster.unpark (SameRoster.refl.cancelMoves.cancelDetaches.foldl fun _ _ hv => hv.killLost)
  have hends : ∀ v l, KeepsMap v (State.endLaunch v (Launch.lid l) 9) := fun v l => (v.endLaunch_gone l.lid 9).1
  have hkeep : KeepsMap s1 s2 := KeepsMap.refl.foldl fun v l hv => hv.trans (hends v l)
  refine ⟨fun a hlow hch => State.rdByte_absent hlow ?_, fun l hl bs b hgrant hb hin => ?_⟩
  · rw [(hkeep.same hlast).absentCh, hch]
    exact List.mem_cons_self
  · have hhit : hitCrec l = true := by
      simp only [hitCrec, hgrant]
      exact List.any_eq_true.mpr ⟨b, hb, hin⟩
    have hmem : l ∈ ls := List.mem_filter.mpr ⟨hl, by rw [hhit, Bool.true_or]⟩
    exact (KeepsMap.refl.same hlast).gone (foldl_ends hends (fun v => (v.endLaunch_gone l.lid 9).2) hmem s1)

/-- Settles O53: the part that fails leaves the map; what it held ends by the passes over the launches, which bring none and lose no other unit. -/
theorem failingPartResult : Obligations.FailingPartResult := by
  unfold Obligations.FailingPartResult
  intro s n
  exact ⟨linkLaneFault_result s, l2SliceFault_result s, copyEngineFault_result s, kernelCoreFault_result s, bundleFault_result s, islandFault_result s,
    channelFault_result s⟩

end Sys2Proof.Machine
end

section
/-!
How an instruction of a program ends: it retires, faults or waits (R33, R46, R47), and what the operations behind it leave of programs, contexts and
pages. `SameTables` and `Stands` say what stays; a state operation `f` has a lemma `SameTables.f` or `Stands.f`.
-/

namespace Sys2Proof.Machine

open Sys2Proof Sys2Proof.Claims

/-! ## One instruction -/

theorem livik_ok {s t : State} {p : Prog} (h : ProgTurn s p) {f : State → Prog → Except LStop State} (hf : f s.pass p = .ok t) : livik s f = .next t := by
  rw [livik_turn h, hf]

theorem livik_fault {s : State} {p : Prog} (h : ProgTurn s p) {f : State → Prog → Except LStop State} {c : Nat} (hf : f s.pass p = fault c) :
    livik s f = agentFault s p c := by
  rw [livik_turn h, hf]
  rfl

theorem ProgTurn.prog {s : State} {p : Prog} (h : ProgTurn s p) : s.prog p.slot = some p := h.2.1
theorem ProgTurn.ready {s : State} {p : Prog} (h : ProgTurn s p) : p.state = .ready := h.2.2.1
theorem ProgTurn.sane {s : State} {p : Prog} (h : ProgTurn s p) : p.doomed = false := h.2.2.2

/-- A program retires, where nothing has changed a program before. -/
theorem State.retireTo_ran {s t : State} {p : Prog} (hp : s.prog p.slot = some p) (ht : t.progs = s.progs) {f : Prog → Prog}
    (hf : ∀ q, (f q).slot = q.slot) (pc : Nat) : Ran s (t.retireTo p.slot pc f) p (f p) pc := by
  have hslot : ∀ q : Prog, ({ f q with retn := (f q).retn + 1, pc := pc, since := t.clock } : Prog).slot = q.slot := hf
  refine ⟨State.prog_onProg_self hslot ((State.prog_congr ht _).trans hp), fun n hn => ?_⟩
  exact (State.prog_onProg_ne hslot hn).trans (State.prog_congr ht n)

theorem State.retire_ran {s t : State} {p : Prog} (hp : s.prog p.slot = some p) (ht : t.progs = s.progs) {f : Prog → Prog}
    (hf : ∀ q, (f q).slot = q.slot) : Ran s (t.retire p f) p (f p) (p.pc + 1) := State.retireTo_ran hp ht hf _

/-- An instruction that only retires: a program, the clock and the count of moments differ. -/
theorem livik_retires {s : State} {p : Prog} (h : ProgTurn s p) {f : State → Prog → Except LStop State} {pc : Nat} {g : Prog → Prog}
    (hf : f s.pass p = .ok (s.pass.retireTo p.slot pc g)) (hg : ∀ q, (g q).slot = q.slot) :
    ∃ u, livik s f = .next u ∧ Ran s u p (g p) pc ∧ OnlyPrograms s u :=
  ⟨_, livik_ok h hf, State.retireTo_ran (t := s.pass) h.prog rfl hg pc, rfl⟩

/-! ## Agent marks (R47) -/

theorem onceAt_repeated {owner : Nat} {p : Prog} {r : AgentMark} (h : p.repeated owner = some r) (s : State) (g : Prog → Word → Prog)
    (f : State → Except LStop (State × Word)) : onceAt owner p s g f = .ok (s.retire p fun q => g q r.res) := by
  rw [onceAt, h]

theorem onceAt_first {owner : Nat} {p : Prog} (h : p.repeated owner = none) {s t : State} {v : Word} (g : Prog → Word → Prog)
    {f : State → Except LStop (State × Word)} (hf : f s = .ok (t, v)) :
    onceAt owner p s g f = .ok (t.retire p fun q => (g q v).remember owner p.mark v) := by
  rw [onceAt, h, hf]
  rfl

theorem onceAt_fault {owner : Nat} {p : Prog} (h : p.repeated owner = none) {s : State} {c : Nat} (g : Prog → Word → Prog)
    {f : State → Except LStop (State × Word)} (hf : f s = fault c) : onceAt owner p s g f = fault c := by
  rw [onceAt, h, hf]
  rfl

/-! ## What operations on pages and frames leave -/

/-- From `s` to `u` the programs, the contexts and what they are looked up by stay as they are. -/
def SameTables (s u : State) : Prop :=
  u.progs = s.progs ∧ u.lctx = s.lctx ∧ u.images = s.images ∧ u.ptSize = s.ptSize ∧ u.absentCh = s.absentCh

section

variable {s u w : State}

theorem SameTables.refl : SameTables s s := ⟨rfl, rfl, rfl, rfl, rfl⟩

theorem SameTables.trans (h : SameTables s u) (k : SameTables u w) : SameTables s w := by
  obtain ⟨hp, hl, hi, hz, ha⟩ := h
  obtain ⟨kp, kl, ki, kz, ka⟩ := k
  exact ⟨kp.trans hp, kl.trans hl, ki.trans hi, kz.trans hz, ka.trans ha⟩

theorem SameTables.progs (h : SameTables s u) : u.progs = s.progs := h.1
theorem SameTables.lctx (h : SameTables s u) : u.lctx = s.lctx := h.2.1
theorem SameTables.lc (h : SameTables s u) (c : Nat) : u.lc c = s.lc c := by rw [State.lc, State.lc, h.lctx]

theorem SameTables.ite {c : Prop} [Decidable c] (h : SameTables s u) (k : SameTables s w) : SameTables s (if c then u else w) := by
  split
  · exact h
  · exact k

theorem SameTables.foldl {α : Type} {f : State → α → State} {l : List α} (h : SameTables s u) (hf : ∀ v x, SameTables s v → SameTables s (f v x)) :
    SameTables s (l.foldl f u) := l.foldlRecOn f h fun v hv x _ => hf v x hv

theorem SameTables.wr {a : Nat} {d : List Byte} (h : SameTables s u) : SameTables s (u.wr a d) := by
  rw [State.wr_frame]
  exact h

theorem SameTables.wrPhys {a : Nat} {d : List Byte} (h : SameTables s u) : SameTables s (u.wrPhys a d) := by
  rw [State.wrPhys_frame]
  exact h

theorem SameTables.hostWr {d : List Byte} {a : Nat} (h : SameTables s u) : SameTables s (u.hostWr a d) := by
  induction d generalizing u a with
  | nil => exact h
  | cons b r ih =>
    refine ih ?_
    exact h

theorem SameTables.wrSys {a : Nat} {d : List Byte} (h : SameTables s u) : SameTables s (u.wrSys a d) := SameTables.ite h.hostWr h.wrPhys

theorem SameTables.setPage {i : Nat} {e : PageE} (h : SameTables s u) : SameTables s (u.setPage i e) :=
  SameTables.wrPhys (u := { u with pages := Assoc.set u.pages i e }) h

theorem SameTables.onPage {i : Nat} {f : PageE → PageE} (h : SameTables s u) : SameTables s (u.onPage i f) := h.setPage

theorem SameTables.handFrame {frame units : Nat} (h : SameTables s u) : SameTables s (u.handFrame frame units) := by
  refine SameTables.ite h ?_
  split
  · exact h
  · exact h

theorem SameTables.giveTier {res loc units : Nat} (h : SameTables s u) : SameTables s (u.giveTier res loc units) := by
  unfold State.giveTier
  split
  · exact h.handFrame
  · exact h
  · exact h

theorem SameTables.release {i : Nat} (h : SameTables s u) : SameTables s (u.release i) :=
  SameTables.ite h (SameTables.ite h.setPage.giveTier.giveTier h.setPage.giveTier)

theorem SameTables.dropFrames {slot : Nat} (h : SameTables s u) : SameTables s (u.dropFrames slot) :=
  SameTables.foldl (u := { u with reserved := u.reserved.filter fun r => decide (r.1 ≠ slot) }) h fun _ _ hv => hv.handFrame

theorem SameTables.syncBlock {slot : Nat} (h : SameTables s u) : SameTables s (u.syncBlock slot) := by
  unfold State.syncBlock
  split
  · exact h
  · exact h.wrPhys.wrPhys.foldl fun _ _ hv => SameTables.ite hv hv.wrPhys

end

/-! ## What an operation leaves of a program that is not parked -/

/-- From `s` to `u` program `n`, where it is not parked, stays as it is but for its host mailbox. -/
def Stands (n : Nat) (s u : State) : Prop :=
  ∀ p, s.prog n = some p → p.state ≠ .parked → ∃ hseq notices, u.prog n = some { p with hseq := hseq, notices := notices }

section

variable {n : Nat} {s u w : State}

theorem Stands.refl : Stands n s s := fun p hp _ => ⟨p.hseq, p.notices, hp⟩

theorem Stands.trans (h : Stands n s u) (k : Stands n u w) : Stands n s w := fun p hp hs => by
  obtain ⟨hu1, nu, hu⟩ := h p hp hs
  obtain ⟨hw1, nw, hw⟩ := k _ hu hs
  exact ⟨hw1, nw, hw⟩

theorem Stands.same (h : Stands n s u) (hp : w.progs = u.progs) : Stands n s w :=
  h.trans fun p hu _ => ⟨p.hseq, p.notices, (State.prog_congr hp n).trans hu⟩

theorem Stands.tables (h : Stands n s u) (k : SameTables u w) : Stands n s w := h.same k.progs

theorem Stands.ite {c : Prop} [Decidable c] (h : Stands n s u) (k : Stands n s w) : Stands n s (if c then u else w) := by
  split
  · exact h
  · exact k

theorem Stands.notice {tag : Word} {rec : Vec} (h : Stands n s u) : Stands n s (u.notice n tag rec) := by
  refine h.trans fun p hu _ => ?_
  rw [State.notice, hu]
  dsimp only
  split
  · refine ⟨p.hseq, p.notices ++ [(tag, p.retn, rec)], State.prog_onProg_self ?_ hu⟩
    exact fun _ => rfl
  · exact ⟨p.hseq + 1, p.notices, State.prog_hostPut hu 3 tag 0 p.retn _⟩

theorem Stands.endNotice (h : Stands n s u) : Stands n s (u.endNotice n) := by
  unfold State.endNotice
  split
  · exact h
  · exact h.notice

end

/-! ### The end of parks -/

/-- From `s` to `u` the contexts and pages stay, and so does every program that is not parked. -/
def Unparked (s u : State) : Prop :=
  u.lctx = s.lctx ∧ u.pages = s.pages ∧ ∀ n p, s.prog n = some p → p.state ≠ .parked → u.prog n = some p

theorem Unparked.trans {s u w : State} (h : Unparked s u) (k : Unparked u w) : Unparked s w := by
  obtain ⟨hl, hp, hq⟩ := h
  obtain ⟨kl, kp, kq⟩ := k
  exact ⟨kl.trans hl, kp.trans hp, fun n p hn hs => kq n p (hq n p hn hs) hs⟩

theorem State.openWindow_frame (s : State) (slot : Nat) : s.openWindow slot = { s with mangles := (s.openWindow slot).mangles } := by
  unfold State.openWindow
  split
  · rfl
  · split
    · rfl
    · dsimp only
      split
      · rfl
      · unfold State.setMangle
        rfl

theorem Unparked.openWindow {s u : State} (h : Unparked s u) (slot : Nat) : Unparked s (u.openWindow slot) := by
  rw [State.openWindow_frame]
  exact h

theorem State.setPState_frame (s : State) (slot : Nat) (st : PState) (tail : Bool) :
    s.setPState slot st tail = { s with progs := (s.setPState slot st tail).progs, nextId := (s.setPState slot st tail).nextId } := by
  unfold State.setPState
  split
  · rfl
  · rfl

/-- A parked program goes on. -/
theorem Unparked.resumes {s : State} {r : Prog} (hr : s.prog r.slot = some r) (hp : r.state = .parked) :
    Unparked s ((s.onProg r.slot fun p => { p with park := [] }).setPState r.slot .ready true) := by
  refine ⟨?_, ?_, fun n p hn hs => ?_⟩
  · rw [State.setPState_frame]
    rfl
  · rw [State.setPState_frame]
    rfl
  · have hne : n ≠ r.slot := by
      rintro rfl
      rw [hr] at hn
      cases hn
      exact hs hp
    rw [State.prog_setPState_ne hne, State.prog_onProg_ne ?_ hne, hn]
    exact fun _ => rfl

theorem State.unpark_unparked (s : State) : Unparked s s.unpark := by
  refine List.foldlRecOn (motive := Unparked s) s.progs _ ⟨rfl, rfl, fun _ _ h _ => h⟩ fun v hv q _ => ?_
  split
  · exact hv
  · rename_i r hr
    have hr' : v.prog r.slot = some r := by rw [State.slot_of_prog hr, hr]
    split
    · rename_i hpark
      exact (hv.trans (Unparked.resumes hr' hpark.1)).openWindow _
    · exact hv

theorem State.prog_unpark {s : State} {n : Nat} {p : Prog} (h : s.prog n = some p) (hs : p.state ≠ .parked) : s.unpark.prog n = some p :=
  s.unpark_unparked.2.2 n p h hs

theorem Stands.unpark {n : Nat} {s u : State} (h : Stands n s u) : Stands n s u.unpark :=
  h.trans fun p hu hs => ⟨p.hseq, p.notices, State.prog_unpark hu hs⟩

end Sys2Proof.Machine
end

section
/-!
Arithmetic, control and the end of a program (R24, R256, R269, R301, R318): the parts of O25.
-/

namespace Sys2Proof.Machine

open Sys2Proof Sys2Proof.Claims

/-! ## Arithmetic -/

theorem wordDiv_eq : wordDiv = fun x y => if y = 0 then BitVec.allOnes 64 else x.sdiv y := by
  funext x y
  rw [wordDiv, sdiv_ofInt]

theorem wordRem_eq : wordRem = fun x y => if y = 0 then x else x.srem y := by
  funext x y
  rw [wordRem, srem_ofInt]

theorem flag_decide (c : Prop) [Decidable c] : flag (decide c) = if c then 1 else 0 := by
  by_cases h : c
  · simp [flag, h]
  · simp [flag, h]

theorem min_of_le : (fun x y : Word => if x.toInt ≤ y.toInt then x else y) = fun x y => if y.toInt < x.toInt then y else x := by
  funext x y
  by_cases h : x.toInt ≤ y.toInt
  · rw [if_pos h, if_neg (by omega)]
  · rw [if_neg h, if_pos (by omega)]

theorem max_of_le : (fun x y : Word => if x.toInt ≤ y.toInt then y else x) = fun x y => if x.toInt < y.toInt then y else x := by
  funext x y
  rcases Int.lt_trichotomy x.toInt y.toInt with h | h | h
  · rw [if_pos (by omega), if_pos h]
  · rw [if_pos (by omega), if_neg (by omega), BitVec.eq_of_toInt_eq h]
  · rw [if_neg (by omega), if_neg (by omega)]

/-- The instruction of each row of ACALC computes the row's value. -/
theorem exec_calcRow {r : CalcRow} (hr : r ∈ calcRows) (a b c : LIdx) (s : State) : exec (r.form a b c) s = acalc a b c r.val s := by
  simp only [calcRows, List.mem_cons, List.not_mem_nil, or_false] at hr
  rcases hr with rfl | rfl | rfl | rfl | rfl | rfl | rfl | rfl | rfl | rfl | rfl | rfl | rfl | rfl | rfl
  · rfl
  · rfl
  · rfl
  · show acalc a b c wordDiv s = _
    rw [wordDiv_eq]
  · show acalc a b c wordRem s = _
    rw [wordRem_eq]
  · rfl
  · rfl
  · rfl
  · rfl
  · rfl
  · show execAcalcMin a b c s = _
    rw [execAcalcMin, min_of_le]
  · show execAcalcMax a b c s = _
    rw [execAcalcMax, max_of_le]
  · show execAcalcEq a b c s = _
    simp only [execAcalcEq, flag_decide]
  · show execAcalcLt a b c s = _
    simp only [execAcalcLt, flag_decide]
  · show execAcalcLtu a b c s = _
    simp only [execAcalcLtu, flag_decide]

theorem livikArithmeticResult : LivikArithmeticResult := by
  intro s p h a b c
  have hkeep : ∀ v : Word, ∀ q : Prog, (q.sa a v).slot = q.slot := fun _ _ => rfl
  refine ⟨fun i => ?_, fun r hr => ?_⟩
  · show ∃ u, execAset a i s = _ ∧ _
    exact livik_retires h (g := fun q => q.sa a (i.signExtend 64)) rfl (hkeep _)
  · obtain ⟨u, hu, hran, honly⟩ := livik_retires h (f := fun s p => .ok (s.retire p fun p => p.sa a (r.val (p.ga b) (p.ga c)))) rfl fun q => hkeep _ q
    exact ⟨u, (exec_calcRow hr a b c s).trans hu, honly, hran⟩

/-! ## Control -/

/-- The words of RETSTK after a GOSUB: that of the depth is written, and the others stand. -/
theorem Prog.gosub_retw (p : Prog) (h : p.retstk.length < 16) : p.gosub.retw[p.retstk.length]? = some (p.pc + 1) ∧
    ∀ j, j < 16 → j ≠ p.retstk.length → p.gosub.retw[j]? = some ((p.retw[j]?).getD 0) := by
  have hlen : ((p.retw ++ List.replicate 16 0).take 16).length = 16 := by simp
  refine ⟨?_, fun j hj hne => ?_⟩
  · exact List.getElem?_set_self (by omega)
  · rw [Prog.gosub, List.getElem?_set_ne (Ne.symm hne), List.getElem?_take_of_lt hj]
    rcases Nat.lt_or_ge j p.retw.length with hin | hout
    · rw [List.getElem?_append_left hin, List.getElem?_eq_getElem hin, Option.getD_some]
    · rw [List.getElem?_append_right hout, List.getElem?_replicate_of_lt (by omega), List.getElem?_eq_none hout, Option.getD_none]

theorem livikControlResult : LivikControlResult := by
  intro s p h a i
  refine ⟨?_, ?_, fun hroom => ?_, fun hfull => ?_, fun r rest hr => ?_, fun hempty => ?_⟩
  · show ∃ u, execGoto i s = _ ∧ _
    exact livik_retires h (g := id) rfl fun _ => rfl
  · show ∃ u, execGoif a i s = _ ∧ _
    refine livik_retires h (g := id) ?_ fun _ => rfl
    rw [ite_not]
  · have hf : ¬ 16 ≤ p.retstk.length := by omega
    obtain ⟨u, hu, hran, honly⟩ := livik_retires h (f := fun s p => if 16 ≤ p.retstk.length then fault 9 else .ok (s.retireTo p.slot i.toNat Prog.gosub))
      (if_neg hf) fun _ => rfl
    obtain ⟨hself, hothers⟩ := p.gosub_retw hroom
    exact ⟨u, p.gosub.retw, hu, hran, honly, hself, hothers⟩
  · show execGosub i s = _
    exact livik_fault h (if_pos hfull)
  · show ∃ u, execGoret s = _ ∧ _
    refine livik_retires h (g := fun q => { q with retstk := rest }) ?_ fun _ => rfl
    rw [hr]
  · show execGoret s = _
    refine livik_fault h ?_
    rw [hempty]

/-! ## END -/

/-- A program that ENDs is DONE at its own index, with the END counted and its registers as they were, whatever its host mailbox takes. -/
theorem Stands.ends {n : Nat} {s u : State} {p : Prog} (h : Stands n s u) (hp : s.prog n = some p) (hs : p.state = .done) :
    ∃ q, u.prog n = some q ∧ q.state = .done ∧ q.pc = p.pc ∧ q.retn = p.retn ∧ SameRegs p q := by
  obtain ⟨hseq, notices, hu⟩ := h p hp (by simp [hs])
  exact ⟨_, hu, hs, rfl, rfl, rfl, rfl, rfl, rfl, rfl⟩

/-- The state in which END has counted itself and made the program DONE. -/
def State.ended (s : State) (p : Prog) : State :=
  (s.retireTo p.slot p.pc fun q => q.remember ownerHost p.mark 0).setPState p.slot .done false

theorem State.prog_ended {s : State} {p : Prog} (h : s.prog p.slot = some p) :
    ∃ q, (s.ended p).prog p.slot = some q ∧ q.state = .done ∧ q.pc = p.pc ∧ q.retn = p.retn + 1 ∧ q.hseq = p.hseq ∧ q.notices = p.notices ∧
      SameRegs p q := by
  obtain ⟨hself, -⟩ := State.retireTo_ran (t := s) h rfl (f := fun q => q.remember ownerHost p.mark 0) (fun _ => rfl) p.pc
  obtain ⟨place, qy, hq⟩ := State.prog_setPState_self (st := .done) (tail := false) hself
  exact ⟨_, hq, rfl, rfl, rfl, rfl, rfl, rfl, rfl, rfl, rfl, rfl⟩

theorem execEndp_eq {s : State} {p : Prog} (h : ProgTurn s p) : execEndp s =
    .next (((if (p.repeated ownerHost).isSome then s.pass.ended p else (s.pass.ended p).endNotice p.slot).dropFrames p.slot).syncBlock p.slot) :=
  livik_ok h rfl

theorem livikEndResult : LivikEndResult := by
  intro s p h
  obtain ⟨r, hr, hstate, hpc, hretn, -, -, ha, hc, ht, hstk, hslot⟩ := State.prog_ended (s := s.pass) h.prog
  have hstands : Stands p.slot (s.pass.ended p)
      (((if (p.repeated ownerHost).isSome then s.pass.ended p else (s.pass.ended p).endNotice p.slot).dropFrames p.slot).syncBlock p.slot) :=
    (Stands.ite Stands.refl Stands.refl.endNotice).tables SameTables.refl.dropFrames.syncBlock
  obtain ⟨q, hq, kstate, kpc, kretn, ka, kc, kt, kstk, kslot⟩ := hstands.ends hr hstate
  exact ⟨_, q, execEndp_eq h, hq, kstate, kpc.trans hpc, kretn.trans hretn, ka.trans ha, kc.trans hc, kt.trans ht, kstk.trans hstk, kslot.trans hslot⟩

/-- Settles O25: each instruction only retires its program, but for END, behind which nothing but its host mailbox takes the notice. -/
theorem livikBasicResult : Obligations.LivikBasicResult :=
  ⟨livikArithmeticResult, livikControlResult, livikEndResult⟩

end Sys2Proof.Machine
end

section
/-!
Walks, the watchdog, soft errors, and words of no instruction (R32, R66, R80, R176, R229): the parts of O44.
-/

namespace Sys2Proof.Machine

open Sys2Proof Sys2Proof.Claims

/-- What a walk's leaf is kept as (R80). -/
def Leaf.entry (l : Leaf) (ctx : Half) (page : Nat) : TcEntry :=
  { ctx := ctx, page := page, phys := l.phys, rights := l.rights, nr := l.nr, aff := l.aff, large := l.large }

/-- An entry put before those of other pages, where all fit. -/
theorem mem_keepLatest {e : TcEntry} {l : List TcEntry} (h : l.length < 2048) (w : TcEntry) :
    w ∈ (e :: l.filter fun x => !(decide (x.ctx = e.ctx) && decide (x.page = e.page))).take 2048 ↔
      w = e ∨ (w ∈ l ∧ ¬ (w.ctx = e.ctx ∧ w.page = e.page)) := by
  have hfit : (e :: l.filter fun x => !(decide (x.ctx = e.ctx) && decide (x.page = e.page))).length ≤ 2048 :=
    Nat.succ_le_of_lt (Nat.lt_of_le_of_lt (List.length_filter_le _ _) h)
  rw [List.take_of_length_le hfit, List.mem_cons, List.mem_filter]
  simp [imp_iff_not_or]

theorem translationWalkComplete_result (s : State) (b : Nat) (ctx : Half) {va : Word} {l : Leaf} (hva : va.toNat < 2 ^ 48)
    (hl : s.lookup ctx va.toNat = some l) (hroom : (s.bundle b).tc.length < 2048) : ∃ u, exec (.translationWalkComplete b ctx va) s = .next u ∧
      (∀ w, w ∈ (u.bundle b).tc ↔ w = l.entry ctx (va.toNat / 65536) ∨ (w ∈ (s.bundle b).tc ∧ ¬(w.ctx = ctx ∧ w.page = va.toNat / 65536))) ∧
      u = { s with bundles := u.bundles } ∧ ∀ m, m ≠ b → u.bundle m = s.bundle m := by
  let e := l.entry ctx (va.toNat / 65536)
  let kept : List TcEntry := (e :: (s.bundle b).tc.filter fun x => !(decide (x.ctx = ctx) && decide (x.page = e.page))).take 2048
  refine ⟨s.setBundle b { s.bundle b with tc := kept }, ?_, fun w => ?_, rfl, fun m hm => State.bundle_setBundle_ne s b m _ hm⟩
  · show execTranslationWalkComplete b ctx va s = _
    rw [execTranslationWalkComplete, if_neg (by omega), hl]
    rfl
  · rw [State.bundle_setBundle]
    exact mem_keepLatest (e := e) hroom w

theorem watchdogExpiry_traps {s : State} {t : TsId} {a : Activation} (ha : (s.tsGet t).act = some a) (hb : (s.tsGet t).wbudget = 0) :
    exec (.watchdogExpiry t) s = .next (trapped s t .wdog 0) := by
  have hlive : ¬ ((s.tsGet t).act.isNone ∨ (s.tsGet t).wbudget ≠ 0) := by simp [ha, hb]
  exact if_neg hlive

/-- A damaged byte of memory or of a scratchpad is found in every piece that holds it (R176). -/
theorem State.damage_of_mem {s : State} {a : Nat} (ha : a ∈ if scratchBase ≤ a then s.softMem else s.eccMem) {g : Seg} (hlo : g.bus ≤ a)
    (hhi : a < g.bus + g.len) (hside : g.bus + g.len ≤ scratchBase ∨ scratchBase ≤ g.bus) (hfree : s.barred g.bus = false) : s.damage g ≠ none := by
  have hin : ∃ x, x ∈ (if scratchBase ≤ a then s.softMem else s.eccMem) ∧ (decide (g.bus ≤ x) && decide (x < g.bus + g.len)) = true :=
    ⟨a, ha, by simp [hlo, hhi]⟩
  rw [State.damage, hfree, if_neg Bool.false_ne_true]
  by_cases hs : scratchBase ≤ g.bus
  · rw [if_pos hs]
    rw [if_pos (by omega)] at hin
    rw [Ne, Option.map_eq_none_iff]
    exact fun hnone => by
      obtain ⟨x, hx, hbyte⟩ := hin
      exact List.find?_eq_none.mp hnone x hx hbyte
  · rw [if_neg hs]
    rw [if_neg (by omega)] at hin
    rw [if_pos (List.any_eq_true.mpr hin)]
    nofun

theorem softError_scratch_result (s : State) (a : Nat) : ∃ u, exec (.softError (.scratch a)) s = .next u ∧ SameBytes s u ∧
    ∀ g : Seg, g.bus ≤ a → a < g.bus + g.len → g.bus + g.len ≤ scratchBase ∨ scratchBase ≤ g.bus → s.barred g.bus = false → u.damage g ≠ none := by
  by_cases ha : scratchBase ≤ a
  · refine ⟨{ s with softMem := a :: s.softMem }, if_pos ha, fun _ _ => rfl, fun g hlo hhi hside hfree => ?_⟩
    refine State.damage_of_mem ?_ hlo hhi hside hfree
    rw [if_pos ha]
    exact List.mem_cons_self
  · refine ⟨{ s with eccMem := a :: s.eccMem }, if_neg ha, fun _ _ => rfl, fun g hlo hhi hside hfree => ?_⟩
    refine State.damage_of_mem ?_ hlo hhi hside hfree
    rw [if_neg ha]
    exact List.mem_cons_self

/-- Settles O44: each event is its own update, and a word of no instruction stops before it reads anything. -/
theorem walkWatchdogErrorResult : Obligations.WalkWatchdogErrorResult := by
  unfold Obligations.WalkWatchdogErrorResult
  refine ⟨fun s b ctx va l hva hl hroom => translationWalkComplete_result s b ctx hva hl hroom, fun s t a ha hb => watchdogExpiry_traps ha hb,
    fun s t n a => ⟨?_, ?_, softError_scratch_result s a⟩, fun s t act w ht => ?_, fun s p w h => ?_⟩
  · exact ⟨_, rfl, State.tsGet_tsSet s t _, rfl⟩
  · exact ⟨_, rfl, State.tsGet_tsSet s t _, rfl⟩
  · show execReservedEncoding w s = _
    exact issue_trap ht rfl fun _ => rfl
  · show execLivikIllopWord w s = _
    exact livik_fault h rfl

end Sys2Proof.Machine
end

section
/-!
Fields of a word (R26, R37, R40), and what a range reads after it was written as one block.
-/

namespace Sys2Proof.Machine

open Sys2Proof Sys2Proof.Claims

/-! ## Fields of a word -/

theorem testBit_bits (w : Word) (hi lo i : Nat) : (bits w hi lo).testBit i = (decide (i < hi - lo + 1) && w.getLsbD (lo + i)) := by
  rw [bits, Nat.testBit_mod_two_pow, Nat.testBit_div_two_pow, Nat.add_comm i lo]
  rfl

theorem getLsbD_at64 (x lo i : Nat) : (at64 x lo).getLsbD i = (decide (i < 64) && (decide (lo ≤ i) && x.testBit (i - lo))) := by
  rw [at64, BitVec.getLsbD_ofNat, Nat.testBit_mul_two_pow]

/-- A field of the bits that two words make together. -/
theorem bits_or (v w : Word) (hi lo : Nat) : bits (v ||| w) hi lo = bits v hi lo ||| bits w hi lo := by
  refine Nat.eq_of_testBit_eq fun i => ?_
  rw [Nat.testBit_or, testBit_bits, testBit_bits, testBit_bits, BitVec.getLsbD_or, Bool.and_or_distrib_left]

/-- A field reads back as it was placed. -/
theorem bits_at64_self {x hi lo : Nat} (hx : x < 2 ^ (hi - lo + 1)) (hlo : lo ≤ hi) (hhi : hi < 64) : bits (at64 x lo) hi lo = x := by
  have hfit : x * 2 ^ lo < 2 ^ 64 := by
    calc x * 2 ^ lo < 2 ^ (hi - lo + 1) * 2 ^ lo := Nat.mul_lt_mul_of_pos_right hx (Nat.two_pow_pos lo)
      _ = 2 ^ (hi + 1) := by rw [← Nat.pow_add]; congr 1; omega
      _ ≤ 2 ^ 64 := Nat.pow_le_pow_right (by omega) (by omega)
  rw [bits, at64, BitVec.toNat_ofNat, Nat.mod_eq_of_lt hfit, Nat.mul_div_cancel _ (Nat.two_pow_pos lo), Nat.mod_eq_of_lt hx]

/-- A field above another shows nothing in it. -/
theorem bits_at64_above (x : Nat) {hi lo at_ : Nat} (h : hi < at_) (hlo : lo ≤ hi) : bits (at64 x at_) hi lo = 0 := by
  refine Nat.eq_of_testBit_eq fun i => ?_
  rw [testBit_bits, getLsbD_at64, Nat.zero_testBit]
  by_cases hi' : i < hi - lo + 1
  · have : ¬ at_ ≤ lo + i := by omega
    simp [this]
  · simp [hi']

/-- A field below another shows nothing in it, where it is no longer than the room between them. -/
theorem bits_at64_below {x n lo at_ : Nat} (hx : x < 2 ^ n) (h : at_ + n ≤ lo) (hi : Nat) : bits (at64 x at_) hi lo = 0 := by
  have hsmall : x * 2 ^ at_ < 2 ^ lo := by
    calc x * 2 ^ at_ < 2 ^ n * 2 ^ at_ := Nat.mul_lt_mul_of_pos_right hx (Nat.two_pow_pos at_)
      _ = 2 ^ (n + at_) := (Nat.pow_add 2 n at_).symm
      _ ≤ 2 ^ lo := Nat.pow_le_pow_right (by omega) (by omega)
  rw [bits, at64, BitVec.toNat_ofNat, Nat.div_eq_of_lt (Nat.lt_of_le_of_lt (Nat.mod_le _ _) hsmall), Nat.zero_mod]

/-! ## Blocks of stack memory -/

theorem Cells.get_append (l m : List Host.Cell) (x : Nat) : Cells.get (l ++ m) x = (Cells.get l x).or (Cells.get m x) := by
  induction l with
  | nil => rfl
  | cons c r ih =>
    obtain ⟨a, b⟩ := c
    by_cases h : x = a
    · simp [Cells.get, h]
    · simp [Cells.get, h, ih]

/-- The cells of consecutive bytes read as the bytes. -/
theorem Cells.getD_cellsOf {d : List Byte} {a i : Nat} {b : Byte} (h : d[i]? = some b) : (Cells.get (cellsOf a d) (a + i)).getD 0 = b := by
  induction d generalizing a i with
  | nil => cases h
  | cons x r ih =>
    rw [cellsOf]
    cases i with
    | zero =>
      obtain rfl : x = b := Option.some.inj h
      split
      · rename_i hx
        rw [Nat.add_zero, Cells.get_none fun c hc => by have := (Cells.mem_cellsOf hc).1; omega, hx]
        rfl
      · simp [Cells.get]
    | succ i =>
      have hrest := ih (a := a + 1) (List.getElem?_cons_succ ▸ h)
      rw [Nat.add_right_comm, Nat.add_assoc] at hrest
      split
      · exact hrest
      · rw [Cells.get, if_neg (by omega), hrest]

/-- A range that is replaced at once: its bytes inside, the old cells outside. -/
theorem Cells.get_splice_outside (l : List Host.Cell) {a x : Nat} {d : List Byte} (h : x < a ∨ a + d.length ≤ x) :
    Cells.get (Cells.splice l a d) x = Cells.get l x := by
  have hnew : Cells.get (cellsOf a d) x = none := Cells.get_none fun c hc => by
    obtain ⟨hlo, hhi, -⟩ := Cells.mem_cellsOf hc
    omega
  rw [Cells.splice, Cells.get_append, Cells.get_append, hnew, Cells.get_filter fun y => decide (y < a),
    Cells.get_filter fun y => decide (a + d.length ≤ y)]
  rcases h with h | h
  · have hhi : ¬ a + d.length ≤ x := by omega
    simp [h, hhi]
  · have hlo : ¬ x < a := by omega
    simp [h, hlo]

theorem Cells.getD_splice (l : List Host.Cell) {a i : Nat} {d : List Byte} {b : Byte} (h : d[i]? = some b) :
    (Cells.get (Cells.splice l a d) (a + i)).getD 0 = b := by
  have hi : i < d.length := (List.getElem?_eq_some_iff.mp h).1
  have hhi : ¬ a + d.length ≤ a + i := by omega
  rw [Cells.splice, Cells.get_append, Cells.get_append, Cells.get_filter fun y => decide (y < a), Cells.get_filter fun y => decide (a + d.length ≤ y)]
  simp only [hhi, Nat.not_lt.mpr (Nat.le_add_right a i), decide_false, Bool.false_eq_true, if_false, Option.none_or, Option.or_none]
  exact Cells.getD_cellsOf h

/-- A block that is written leaves every byte outside it as it reads. -/
theorem State.rdByte_wrPhys_outside (s : State) {a x : Nat} {d : List Byte} (h : x < a ∨ a + d.length ≤ x) : (s.wrPhys a d).rdByte x = s.rdByte x := by
  unfold State.wrPhys
  split
  · have hmem := Cells.get_splice_outside s.mem (d := d) h
    simp only [State.rdByte, hmem]
    rfl
  · exact State.rdByte_wr_outside d s a x h

theorem State.rd_wrPhys_outside (s : State) {a b n : Nat} {d : List Byte} (h : b + n ≤ a ∨ a + d.length ≤ b) : (s.wrPhys a d).rd b n = s.rd b n :=
  State.rd_congr fun i hi => s.rdByte_wrPhys_outside (by omega)

/-- A block in stack memory of present channels reads as it was written. -/
theorem State.rd_wrPhys (s : State) {a : Nat} {d : List Byte} (h : inRam s a d.length) : (s.wrPhys a d).rd a d.length = d := by
  unfold State.wrPhys
  split
  · rename_i hin
    have hbase : scratchBase = 0x7F0000000000 := rfl
    have hend : Config.channels * Config.channelBytes = 0xC000000000 := rfl
    refine List.ext_getElem? fun i => ?_
    rcases Nat.lt_or_ge i d.length with hi | hi
    · rw [State.rd_getElem? _ hi, List.getElem?_eq_getElem hi, State.rdByte, if_neg (by omega)]
      have hch : ∀ m e, State.noChannel { s with mem := m, eccMem := e } (a + i) = false := fun _ _ => h.2 i hi
      rw [hch, if_neg Bool.false_ne_true, Cells.getD_splice _ (List.getElem?_eq_getElem hi)]
    · rw [List.getElem?_eq_none (by simpa using hi), List.getElem?_eq_none hi]
  · exact (Lasting.of_inRam h).rd_wr

end Sys2Proof.Machine
end

section
/-!
The ends of an AWAIT's and an INVOKE's wait, and token marks (R37, R63, R64, R271, R320): the parts of O49.
-/

namespace Sys2Proof.Machine

open Sys2Proof Sys2Proof.Claims

/-! ## Ends of waits -/

theorem takeClass_none {cls : Nat} {l : List MboxE} (h : ∀ e ∈ l, e.cls ≠ cls) : takeClass cls l = none := by
  induction l with
  | nil => rfl
  | cons e r ih =>
    rw [takeClass, if_neg (h e List.mem_cons_self), ih fun x hx => h x (List.mem_cons_of_mem _ hx)]
    rfl

/-- A program that retires at the end of its wait is READY behind its instruction, and the others stand. -/
theorem State.waitEnds {s : State} {p : Prog} (hp : s.prog p.slot = some p) {g : Prog → Prog} (hg : ∀ q, (g q).slot = q.slot) :
    ∃ q, ((s.retire p g).setPState p.slot .ready true).prog p.slot = some q ∧ q.state = .ready ∧ q.pc = p.pc + 1 ∧ q.retn = (g p).retn + 1 ∧
      q.a = (g p).a ∧ q.c = (g p).c ∧ q.t = (g p).t ∧ q.await = (g p).await ∧
      ∀ n, n ≠ p.slot → ((s.retire p g).setPState p.slot .ready true).prog n = s.prog n := by
  obtain ⟨hself, hothers⟩ := State.retire_ran hp (t := s) rfl hg
  obtain ⟨place, qy, hq⟩ := State.prog_setPState_self (st := .ready) (tail := true) hself
  exact ⟨_, hq, rfl, rfl, rfl, rfl, rfl, rfl, rfl, fun n hn => (State.prog_setPState_ne hn).trans (hothers n hn)⟩

theorem execAwaitTimeout_eq {s : State} {p : Prog} (hp : s.prog p.slot = some p) (hs : p.state = .awaiting) {a : LReg} {b : LIdx} {t0 n : Nat}
    (ha : p.await = .mbox a b t0 n) (hn : n ≠ 0) (hover : t0 + n ≤ s.clock) (hm : ∀ e ∈ p.mbox, e.cls ≠ a.cls) :
    execAwaitTimeout p.slot s = .next ((s.retire p fun q =>
      { (q.sa b (BitVec.allOnes 64)).remember (ownerMail q.slot) q.mark (BitVec.allOnes 64) with await := .none }).setPState p.slot .ready true) := by
  have hgo : ¬ (p.state ≠ .awaiting ∨ n = 0 ∨ s.clock < t0 + n) := by
    rintro (h | h | h)
    · exact h hs
    · exact hn h
    · omega
  unfold execAwaitTimeout
  rw [hp]
  dsimp only
  rw [ha]
  dsimp only
  rw [if_neg hgo, takeClass_none hm]

theorem execInvokeComplete_eq {s : State} {p : Prog} (hp : s.prog p.slot = some p) (hs : p.state = .awaiting) {a : LIdx} {l : Option Half} {w : Word}
    (ha : p.await = .launch a none l (some w)) :
    execInvokeComplete p.slot s = .next ((s.retire p fun q => { q.sa a w with await := .none }).setPState p.slot .ready true) := by
  unfold execInvokeComplete
  rw [hp]
  dsimp only
  rw [ha]
  dsimp only
  rw [if_neg (not_not_intro hs)]

/-! ## Token marks -/

theorem tokenMark_fields {cid pos mgen : Nat} (hc : cid < 2 ^ 18) (hp : pos < 2 ^ 20) (hg : mgen < 2 ^ 16) :
    bits (tokenMark cid pos mgen) 63 46 = cid ∧ bits (tokenMark cid pos mgen) 45 26 = pos ∧ bits (tokenMark cid pos mgen) 25 10 = mgen := by
  unfold tokenMark
  simp only [bits_or]
  refine ⟨?_, ?_, ?_⟩
  · rw [bits_at64_self hc (by omega) (by omega), bits_at64_below hp (by omega), bits_at64_below hg (by omega), Nat.or_zero, Nat.or_zero]
  · rw [bits_at64_above _ (by omega) (by omega), bits_at64_self hp (by omega) (by omega), bits_at64_below hg (by omega), Nat.zero_or, Nat.or_zero]
  · rw [bits_at64_above _ (by omega) (by omega), bits_at64_above _ (by omega) (by omega), bits_at64_self hg (by omega) (by omega), Nat.zero_or,
      Nat.zero_or]

theorem State.setPage_pages (s : State) (i : Nat) (e : PageE) : (s.setPage i e).pages = Assoc.set s.pages i e := State.wrPhys_pages _ _ _

theorem State.page_setPage_self (s : State) (i : Nat) (e : PageE) : (s.setPage i e).page i = e := by
  rw [State.page, State.setPage_pages, Assoc_getD_set_self]

theorem State.page_setPage_ne (s : State) {i j : Nat} (e : PageE) (h : j ≠ i) : (s.setPage i e).page j = s.page j := by
  rw [State.page, State.setPage_pages, Assoc_getD_set_ne _ _ _ _ _ h, State.page]

section

variable {s : State} {cid pos line pti : Nat} {data : List Byte} {token : Word32}

/-- A write under a token mark whose context lists a page, by the checks in their order (R37). -/
theorem State.markWrite_eq (hc : cid < 2 ^ 18) (hp : pos < 2 ^ 20) {g : Nat} (hg : g < 2 ^ 16) (hl : (s.lc cid).list[pos / 16]? = some pti) :
    s.markWrite (tokenMark cid pos g) line data token =
      if (s.page pti).mgen ≠ g ∨ (s.page pti).res ≠ 0 ∨ !(s.page pti).used ∨ s.kvl (s.page pti).img ≤ line then (s, .stale)
      else if pos % 16 < (s.page pti).fill then (s, .duplicate)
      else if (s.page pti).fill < pos % 16 then ({ s with reports := .pageOrder (tokenMark cid pos g) :: s.reports }, .order)
      else
        let n := s.kvl (s.page pti).img
        let t := s.wrPhys ((s.page pti).frame + 64 * (n * (pos % 16) + line)) (sliceB data 0 64)
        let got := (s.page pti).lines ||| 2 ^ line
        if got % 2 ^ n ≠ 2 ^ n - 1 then (t.setPage pti { s.page pti with lines := got }, .applied)
        else ((t.wrPhys (t.idWord (s.page pti) (pos % 16)) (leBytes 4 token.toNat)).setPage pti
          { s.page pti with fill := (s.page pti).fill + 1, lines := 0 }, .applied) := by
  obtain ⟨hcid, hpos, hgen⟩ := tokenMark_fields hc hp hg
  unfold State.markWrite
  simp only [hcid, hpos, hgen, hl]

theorem sliceB_whole {l : List Byte} {n : Nat} (h : l.length = n) : sliceB l 0 n = l := by
  subst h
  simp [sliceB]

/-- The state in which a line has been taken to its place in the frame. -/
def State.withLine (s : State) (pti pos line : Nat) (data : List Byte) : State :=
  s.wrPhys ((s.page pti).frame + 64 * (s.kvl (s.page pti).img * (pos % 16) + line)) (sliceB data 0 64)

/-- A line of the position at FILL that leaves some to come. -/
theorem State.markWrite_part (hc : cid < 2 ^ 18) (hp : pos < 2 ^ 20) (hg : (s.page pti).mgen < 2 ^ 16) (hl : (s.lc cid).list[pos / 16]? = some pti)
    (hused : (s.page pti).used = true) (hres : (s.page pti).res = 0) (hfill : pos % 16 = (s.page pti).fill) (hline : line < s.kvl (s.page pti).img)
    (hgot : ((s.page pti).lines ||| 2 ^ line) % 2 ^ s.kvl (s.page pti).img ≠ 2 ^ s.kvl (s.page pti).img - 1) :
    s.markWrite (tokenMark cid pos (s.page pti).mgen) line data token =
      ((s.withLine pti pos line data).setPage pti { s.page pti with lines := (s.page pti).lines ||| 2 ^ line }, .applied) := by
  rw [State.markWrite_eq hc hp hg hl, if_neg (by simp [hused, hres, hline]), if_neg (by omega), if_neg (by omega)]
  exact if_pos hgot

/-- The last line of the position at FILL. -/
theorem State.markWrite_full (hc : cid < 2 ^ 18) (hp : pos < 2 ^ 20) (hg : (s.page pti).mgen < 2 ^ 16) (hl : (s.lc cid).list[pos / 16]? = some pti)
    (hused : (s.page pti).used = true) (hres : (s.page pti).res = 0) (hfill : pos % 16 = (s.page pti).fill) (hline : line < s.kvl (s.page pti).img)
    (hgot : ((s.page pti).lines ||| 2 ^ line) % 2 ^ s.kvl (s.page pti).img = 2 ^ s.kvl (s.page pti).img - 1) :
    s.markWrite (tokenMark cid pos (s.page pti).mgen) line data token =
      (((s.withLine pti pos line data).wrPhys ((s.withLine pti pos line data).idWord (s.page pti) (pos % 16)) (leBytes 4 token.toNat)).setPage pti
        { s.page pti with fill := (s.page pti).fill + 1, lines := 0 }, .applied) := by
  rw [State.markWrite_eq hc hp hg hl, if_neg (by simp [hused, hres, hline]), if_neg (by omega), if_neg (by omega)]
  exact if_neg (not_not_intro hgot)

/-- An entry's bytes in the table are all of memory that its update writes. -/
theorem State.rd_setPage_outside (s : State) {i b n : Nat} (e : PageE) (h : b + n ≤ s.ptBase + 16 * i ∨ s.ptBase + 16 * i + 16 ≤ b) :
    (s.setPage i e).rd b n = s.rd b n := by
  have hbytes : e.bytes.length = 16 := by simp [PageE.bytes]
  refine (State.rd_wrPhys_outside _ (by rwa [hbytes])).trans ?_
  exact State.rd_congr fun _ _ => rfl

/-- A line stands in the frame as it came, also when the entry that counts it lies elsewhere. -/
theorem State.rd_lineTaken {a : Nat} {e : PageE} (hlen : data.length = 64) (hapart : a + 64 ≤ s.ptBase + 16 * pti ∨ s.ptBase + 16 * pti + 16 ≤ a)
    (hram : inRam s a 64) : holds ((s.wrPhys a (sliceB data 0 64)).setPage pti e) a data := by
  have hbase : (s.wrPhys a data).ptBase = s.ptBase := by rw [State.wrPhys_frame]
  rw [holds, sliceB_whole hlen, State.rd_setPage_outside _ e (by rwa [hbase, hlen])]
  exact s.rd_wrPhys (hlen.symm ▸ hram)

theorem execTokenMarkWrite_next {m : Word} {t : State} {r : MarkEnd} (h : s.markWrite m line data token = (t, r)) :
    exec (.tokenMarkWrite m line data token) s = .next t := by
  show execTokenMarkWrite m line data token s = _
  rw [execTokenMarkWrite, h]

/-- A mark for a line that no position has, for a position that FILL has passed, or of another MGEN changes nothing. -/
theorem State.markWrite_nothing (hc : cid < 2 ^ 18) (hp : pos < 2 ^ 20) {g : Nat} (hg : g < 2 ^ 16) (hl : (s.lc cid).list[pos / 16]? = some pti)
    (h : s.kvl (s.page pti).img ≤ line ∨ pos % 16 < (s.page pti).fill ∨ g ≠ (s.page pti).mgen) :
    exec (.tokenMarkWrite (tokenMark cid pos g) line data token) s = .next s := by
  have heq := State.markWrite_eq (line := line) (data := data) (token := token) hc hp hg hl
  by_cases hstale : (s.page pti).mgen ≠ g ∨ (s.page pti).res ≠ 0 ∨ !(s.page pti).used ∨ s.kvl (s.page pti).img ≤ line
  · exact execTokenMarkWrite_next (heq.trans (if_pos hstale))
  · have hfill : pos % 16 < (s.page pti).fill := by
      rcases h with h | h | h
      · exact absurd (.inr (.inr (.inr h))) hstale
      · exact h
      · exact absurd (.inl (Ne.symm h)) hstale
    exact execTokenMarkWrite_next ((heq.trans (if_neg hstale)).trans (if_pos hfill))

end

/-- Settles O49: a wait that ends retires its program, and a token mark goes by MGEN, line and FILL, each of its outcomes by one lemma. -/
theorem waitEndResult : Obligations.WaitEndResult := by
  unfold Obligations.WaitEndResult
  refine ⟨fun s p hp hs => ⟨fun a b t0 n ha hn hover hm => ?_, fun a l w ha => ?_⟩,
    fun s cid pos line data token pti hc hpos hg hl hused hres => ⟨fun hline => ?_, fun hfill => ?_, fun g hgen hne => ?_, fun hfill hlen hline hgot => ?_,
      fun hfill hline hgot => ?_⟩⟩
  · obtain ⟨q, hq⟩ := State.waitEnds hp (g := fun q =>
      { (q.sa b (BitVec.allOnes 64)).remember (ownerMail q.slot) q.mark (BitVec.allOnes 64) with await := .none }) fun _ => rfl
    exact ⟨_, q, execAwaitTimeout_eq hp hs ha hn hover hm, hq⟩
  · obtain ⟨q, hq⟩ := State.waitEnds hp (g := fun q => { q.sa a w with await := .none }) fun _ => rfl
    exact ⟨_, q, execInvokeComplete_eq hp hs ha, hq⟩
  · exact State.markWrite_nothing hc hpos hg hl (.inl hline)
  · exact State.markWrite_nothing hc hpos hg hl (.inr (.inl hfill))
  · exact State.markWrite_nothing hc hpos hgen hl (.inr (.inr hne))
  · exact ⟨_, execTokenMarkWrite_next (State.markWrite_part hc hpos hg hl hused hres hfill hline hgot), State.page_setPage_self _ _ _,
      fun hapart hram => State.rd_lineTaken hlen hapart hram⟩
  · exact ⟨_, execTokenMarkWrite_next (State.markWrite_full hc hpos hg hl hused hres hfill hline hgot), State.page_setPage_self _ _ _⟩

end Sys2Proof.Machine
end

section
/-!
Contexts and pages: what each operation on the context table and on the page table leaves of the others (R69 to R76, R290 to R298).
-/

namespace Sys2Proof.Machine

open Sys2Proof Sys2Proof.Claims

/-! ## The context table -/

theorem State.setLc_lctx (s : State) (cid : Nat) (c : LCtx) : (s.setLc cid c).lctx = Assoc.set s.lctx cid c := by
  unfold State.setLc
  dsimp only
  split
  · rfl
  · exact State.wrPhys_lctx _ _ _

theorem State.lc_setLc_self (s : State) (cid : Nat) (c : LCtx) : (s.setLc cid c).lc cid = c := by
  rw [State.lc, State.setLc_lctx, Assoc_getD_set_self]

theorem State.lc_setLc_ne (s : State) {cid k : Nat} (c : LCtx) (h : k ≠ cid) : (s.setLc cid c).lc k = s.lc k := by
  rw [State.lc, State.setLc_lctx, Assoc_getD_set_ne _ _ _ _ _ h, State.lc]

/-- But for the context table and the memories, a context's update leaves the state as it is. -/
theorem State.setLc_frame (s : State) (cid : Nat) (c : LCtx) : s.setLc cid c =
    { s with lctx := (s.setLc cid c).lctx, mem := (s.setLc cid c).mem, scratch := (s.setLc cid c).scratch, eccMem := (s.setLc cid c).eccMem,
             softMem := (s.setLc cid c).softMem } := by
  unfold State.setLc
  dsimp only
  split
  · rfl
  · rw [State.wrPhys_frame]

theorem State.setLc_progs (s : State) (cid : Nat) (c : LCtx) : (s.setLc cid c).progs = s.progs := by rw [State.setLc_frame]
theorem State.setLc_pages (s : State) (cid : Nat) (c : LCtx) : (s.setLc cid c).pages = s.pages := by rw [State.setLc_frame]

/-- Where the page list stays, no byte of it is written. -/
theorem State.setLc_sameList (s : State) {cid : Nat} {c : LCtx} (h : c.list = (s.lc cid).list) :
    s.setLc cid c = { s with lctx := Assoc.set s.lctx cid c } := if_pos (.inr h.symm)

/-- A program names a context that is LIVE (R27). -/
theorem State.live_of_named {s : State} {h : Word} {c : Nat} (hn : s.named h = some c) : (s.lc c).live = true ∧ c = bits h 17 0 := by
  unfold State.named at hn
  split at hn
  · rename_i hlive
    cases hn
    simp only [Bool.and_eq_true] at hlive
    exact ⟨hlive.1.2, rfl⟩
  · cases hn

theorem State.ctxOf_ok {s : State} {h : Word} {c : Nat} (hn : s.named h = some c) : s.ctxOf h = .ok c := by rw [State.ctxOf, hn]

theorem State.ctxOf_fault {s : State} {h : Word} (hn : s.named h = none) : s.ctxOf h = fault 2 := by rw [State.ctxOf, hn]

theorem State.ctxOf_named {s : State} {h : Word} {c : Nat} (hn : s.named h = some c) : s.pass.ctxOf h = .ok c := State.ctxOf_ok hn

theorem State.ctxOf_none {s : State} {h : Word} (hn : s.named h = none) : s.pass.ctxOf h = fault 2 := State.ctxOf_fault hn

theorem State.unheld_free {s : State} {c : Nat} (h : (s.lc c).busy = none) : s.pass.unheld c = .ok () := by
  have hfree : ¬ (s.pass.lc c).busy.isSome = true := by
    show ¬ (s.lc c).busy.isSome = true
    simp [h]
  exact if_neg hfree

/-- A free context id is that of a context which is not live. -/
theorem State.freeCid_spec {s : State} {g : Nat} (h : s.freeCid = some g) : g < 2 ^ 18 ∧ (s.lc g).live = false := by
  unfold State.freeCid at h
  split at h
  · cases h
  · obtain ⟨hlt, hfree⟩ := firstFree_spec (by decide) h
    exact ⟨hlt, (Bool.or_eq_false_iff.mp hfree).1⟩

/-! ### A new context -/

/-- From `s` to `t` context `g`, which was not live, has come with what a source has, and nothing of another context or of a program has changed. -/
structure NewContext (s t : State) (g : Nat) (img : Half) (src : LCtx) : Prop where
  free : (s.lc g).live = false
  progs : t.progs = s.progs
  others : ∀ c, c ≠ g → t.lc c = s.lc c
  live : (t.lc g).live = true
  img : (t.lc g).img = img
  len : (t.lc g).len = src.len
  list : (t.lc g).list = src.list
  pin : (t.lc g).pin = false

/-- The context table is written in one place; the new context is what stands there. -/
theorem NewContext.of_lc {s t : State} {g : Nat} {src c : LCtx} (hg : s.freeCid = some g) (hp : t.progs = s.progs) (hc : t.lc g = c)
    (ho : ∀ k, k ≠ g → t.lc k = s.lc k) (hl : c.live = true) (hlen : c.len = src.len) (hlist : c.list = src.list) (hpin : c.pin = false) :
    NewContext s t g c.img src := by
  subst hc
  exact ⟨(State.freeCid_spec hg).2, hp, ho, hl, rfl, hlen, hlist, hpin⟩

/-- The context that CTXNEW makes (R293). -/
def State.emptyOf (s : State) (g : Nat) (img : Half) (slot : Nat) : LCtx :=
  { LCtx.empty with gen := (s.lc g).gen, live := true, base := s.pageListAt g, img := img, creator := slot }

theorem State.ctxNew_new {s : State} {g : Nat} (h : s.freeCid = some g) (img : Half) (slot : Nat) :
    ∃ t, s.ctxNew img slot = some (t, handle g (s.lc g).gen) ∧ NewContext s t g img LCtx.empty := by
  refine ⟨({ s with fresh := s.fresh + 1 } : State).setLc g (s.emptyOf g img slot), by rw [State.ctxNew, h]; rfl, ?_⟩
  exact NewContext.of_lc (c := s.emptyOf g img slot) h (State.setLc_progs _ _ _) (State.lc_setLc_self _ _ _) (fun _ hk => State.lc_setLc_ne _ _ hk) rfl rfl rfl rfl

/-- The context that a fork makes of its source (R73). -/
def State.forkOf (s : State) (g src slot : Nat) : LCtx :=
  { LCtx.empty with gen := (s.lc g).gen, live := true, base := s.pageListAt g, img := (s.lc src).img, creator := slot, len := (s.lc src).len,
                    tail := (s.lc src).tail, list := (s.lc src).list }

theorem State.ctxFork_eq {s : State} {g : Nat} (h : s.freeCid = some g) (src slot : Nat) : s.ctxFork src slot =
    some ((s.lc src).list.foldl (fun s i => s.onPage i fun e => { e with refc := e.refc + 1 })
      (({ s with fresh := s.fresh + 1 } : State).setLc g (s.forkOf g src slot)), handle g (s.lc g).gen) := by
  rw [State.ctxFork, h]
  rfl

theorem State.ctxFork_new {s : State} {g : Nat} (h : s.freeCid = some g) (src slot : Nat) :
    ∃ t, s.ctxFork src slot = some (t, handle g (s.lc g).gen) ∧ NewContext s t g (s.lc src).img (s.lc src) := by
  have hcounts := SameTables.refl.foldl (l := (s.lc src).list) (f := fun (s : State) i => s.onPage i fun e => { e with refc := e.refc + 1 })
    (u := ({ s with fresh := s.fresh + 1 } : State).setLc g (s.forkOf g src slot)) fun _ _ hv => hv.onPage
  refine ⟨_, State.ctxFork_eq h src slot, ?_⟩
  exact NewContext.of_lc (c := s.forkOf g src slot) h (hcounts.progs.trans (State.setLc_progs _ _ _)) ((hcounts.lc g).trans (State.lc_setLc_self _ _ _))
    (fun k hk => (hcounts.lc k).trans (State.lc_setLc_ne _ _ hk)) rfl rfl rfl rfl

/-! ### A context that goes -/

/-- The pages of a context are counted once less, and so are its pins. -/
def State.uncount (s : State) (c : LCtx) (l : List Nat) : State :=
  l.foldl (fun s i => s.onPage i fun e => { e with refc := e.refc - 1, hold := if c.pin then e.hold - 1 else e.hold }) s

theorem SameTables.uncount (s : State) (c : LCtx) (l : List Nat) : SameTables s (s.uncount c l) := SameTables.refl.foldl fun _ _ hv => hv.onPage

/-- A drop before the last generation (R73, R246). -/
theorem State.ctxDrop_eq {s : State} {cid : Nat} (hl : (s.lc cid).live = true) (hg : (s.lc cid).gen < 0xFFFF) : s.ctxDrop cid =
    (s.lc cid).list.foldl State.release ((s.uncount (s.lc cid) (s.lc cid).list).setLc cid { LCtx.empty with gen := (s.lc cid).gen + 1 }) := by
  have hlast : decide ((s.lc cid).gen = 0xFFFF) = false := decide_eq_false (by omega)
  have hlive : ¬ (!(s.lc cid).live) = true := by simp [hl]
  simp only [State.ctxDrop, if_neg hlive, hlast]
  rfl

/-- A context that is dropped before its last generation is no longer live, and nothing of a program changes. -/
theorem State.ctxDrop_gone {s : State} {cid : Nat} (hl : (s.lc cid).live = true) (hg : (s.lc cid).gen < 0xFFFF) :
    (s.ctxDrop cid).progs = s.progs ∧ ((s.ctxDrop cid).lc cid).live = false ∧ ((s.ctxDrop cid).lc cid).gen = (s.lc cid).gen + 1 := by
  rw [State.ctxDrop_eq hl hg]
  have hend := SameTables.refl.foldl (l := (s.lc cid).list) (f := State.release)
    (u := (s.uncount (s.lc cid) (s.lc cid).list).setLc cid { LCtx.empty with gen := (s.lc cid).gen + 1 }) fun _ _ hv => hv.release
  refine ⟨hend.progs.trans ((State.setLc_progs _ _ _).trans (SameTables.uncount s _ _).progs), ?_, ?_⟩
  · rw [hend.lc, State.lc_setLc_self]
    rfl
  · rw [hend.lc, State.lc_setLc_self]

/-! ## The page table -/

theorem State.page_onPage_self (s : State) (i : Nat) (f : PageE → PageE) : (s.onPage i f).page i = f (s.page i) := State.page_setPage_self _ _ _

theorem State.page_onPage_ne (s : State) {i j : Nat} (f : PageE → PageE) (h : j ≠ i) : (s.onPage i f).page j = s.page j := State.page_setPage_ne _ _ h

theorem State.page_congr {s u : State} (h : u.pages = s.pages) (i : Nat) : u.page i = s.page i := by rw [State.page, State.page, h]

theorem State.handFrame_pages (s : State) (frame units : Nat) : (s.handFrame frame units).pages = s.pages := by
  unfold State.handFrame
  split
  · rfl
  · split
    · rfl
    · rfl

theorem State.giveTier_pages (s : State) (tier loc units : Nat) : (s.giveTier tier loc units).pages = s.pages := by
  unfold State.giveTier
  split
  · exact State.handFrame_pages _ _ _
  · rfl
  · rfl

theorem State.dropFrames_pages (s : State) (slot : Nat) : (s.dropFrames slot).pages = s.pages :=
  List.foldlRecOn (motive := fun v : State => v.pages = s.pages) _ _ rfl fun v hv f _ => (State.handFrame_pages v f.1 f.2).trans hv

/-- A release leaves the other entries, and an entry that is still counted. -/
theorem State.page_release_ne (s : State) {i j : Nat} (h : j ≠ i) : (s.release i).page j = s.page j := by
  unfold State.release
  dsimp only
  split
  · rfl
  · split
    · rw [State.page_congr (State.giveTier_pages _ _ _ _), State.page_congr (State.giveTier_pages _ _ _ _), State.page_setPage_ne _ _ h]
    · rw [State.page_congr (State.giveTier_pages _ _ _ _), State.page_setPage_ne _ _ h]

theorem State.release_counted {s : State} {i : Nat} (h : (s.page i).refc ≠ 0) : s.release i = s := if_pos (.inr (.inl h))

/-- A pass over entries leaves one that is not among them. -/
theorem State.page_foldl {f : State → Nat → State} {j : Nat} (hf : ∀ v i, j ≠ i → (f v i).page j = v.page j) {l : List Nat} (hj : j ∉ l) (s : State) :
    (l.foldl f s).page j = s.page j :=
  List.foldlRecOn (motive := fun v : State => v.page j = s.page j) l f rfl fun v hv i hi => (hf v i fun e => hj (e ▸ hi)).trans hv

end Sys2Proof.Machine
end

section
/-!
Contexts made, dropped and pinned (R290 to R293, R295, R296), and repeated agent marks (R47, R272): parts of O29.
-/

namespace Sys2Proof.Machine

open Sys2Proof Sys2Proof.Claims

theorem freeCid_some {s : State} (h : s.freeCid ≠ none) : ∃ g, s.freeCid = some g := Option.ne_none_iff_exists'.mp h

/-- What a context instruction under its first mark leaves, where its step has led to `t` with a result and changed no program. -/
def RanOnce (s t u : State) (p q : Prog) (v : Word) : Prop :=
  Ran s u p (q.remember ownerTable p.mark v) (p.pc + 1) ∧ (∀ c, u.lc c = t.lc c) ∧ (t = s.pass → OnlyPrograms s u)

theorem once_ran {s t : State} {p : Prog} (h : ProgTurn s p) (hm : p.repeated ownerTable = none) {g : Prog → Word → Prog} {v : Word}
    (hg : ∀ q, (g q v).slot = q.slot) {f : Prog → State → Except LStop (State × Word)} (hf : f p s.pass = .ok (t, v)) (ht : t.progs = s.progs) :
    ∃ u, livik s (fun s p => once p s g (f p)) = .next u ∧ RanOnce s t u p (g p v) v := by
  refine ⟨t.retire p fun q => (g q v).remember ownerTable p.mark v, livik_ok h (onceAt_first hm g hf), State.retire_ran h.prog ht hg, fun _ => rfl, ?_⟩
  rintro rfl
  rfl

theorem execCtxnew_ran {s t : State} {p : Prog} (h : ProgTurn s p) (hm : p.repeated ownerTable = none) (a : LIdx) {b : LIdx} {m : Image} {v : Word}
    (hb : (p.ga b).toNat < 2 ^ 16) (hi : s.image ((p.ga b).setWidth 16) = some m) (hctx : m.ctx = p.nctx)
    (hnew : s.pass.ctxNew m.id p.slot = some (t, v)) (ht : t.progs = s.progs) :
    ∃ u, execCtxnew a b s = .next u ∧ RanOnce s t u p (p.sc a v) v := by
  have hbits : bits (p.ga b) 63 16 = 0 := by rw [bits, Nat.div_eq_of_lt hb, Nat.zero_mod]
  have himage : s.pass.image ((p.ga b).setWidth 16) = some m := hi
  refine once_ran h hm (fun _ => rfl) ?_ ht
  simp [hbits, himage, hctx, hnew]

theorem execCtxfork_ran {s t : State} {p : Prog} (h : ProgTurn s p) (hm : p.repeated ownerTable = none) (a : LIdx) {b : LIdx} {c : Nat} {v : Word}
    (hn : s.named (p.gc b) = some c) (hbusy : (s.lc c).busy = none) (hnew : s.pass.ctxFork c p.slot = some (t, v)) (ht : t.progs = s.progs) :
    ∃ u, execCtxfork a b s = .next u ∧ RanOnce s t u p (p.sc a v) v := by
  refine once_ran h hm (fun _ => rfl) ?_ ht
  simp only [State.ctxOf_named hn, State.unheld_free hbusy, bind, Except.bind, hnew]

theorem execCtxlen_ran {s : State} {p : Prog} (h : ProgTurn s p) (hm : p.repeated ownerTable = none) (a : LIdx) {b : LIdx} {c : Nat}
    (hn : s.named (p.gc b) = some c) :
    ∃ u, execCtxlen a b s = .next u ∧ RanOnce s s.pass u p (p.sa a (BitVec.ofNat 64 (s.lc c).len)) (BitVec.ofNat 64 (s.lc c).len) := by
  refine once_ran h hm (fun _ => rfl) ?_ rfl
  simp only [State.ctxOf_named hn, bind, Except.bind]
  rfl

/-- A new context of a program's instruction stands as it was made. -/
theorem RanOnce.made {s t u : State} {p q : Prog} {v : Word} {g : Nat} {img : Half} {src : LCtx} (h : RanOnce s t u p q v) (hc : NewContext s.pass t g img src) :
    Ran s u p (q.remember ownerTable p.mark v) (p.pc + 1) ∧ (u.lc g).live = true ∧ (u.lc g).img = img ∧ (u.lc g).len = src.len ∧
      (u.lc g).list = src.list ∧ (u.lc g).pin = false ∧ ∀ c, c ≠ g → u.lc c = s.lc c := by
  obtain ⟨hran, hlc, -⟩ := h
  simp only [hlc]
  exact ⟨hran, hc.live, hc.img, hc.len, hc.list, hc.pin, hc.others⟩

theorem contextCreateResult : ContextCreateResult := by
  intro s p h hm a b
  refine ⟨fun m hb hi hctx hfree => ?_, fun c hn hbusy hfree => ?_, fun c hn => ?_, fun hn => ⟨?_, ?_⟩⟩
  · obtain ⟨g, hg⟩ := freeCid_some hfree
    obtain ⟨t, hnew, hc⟩ := State.ctxNew_new hg m.id p.slot
    obtain ⟨u, hu, hran⟩ := execCtxnew_ran h hm a hb hi hctx hnew hc.progs
    exact ⟨u, g, _, hu, rfl, hc.free, hran.made hc⟩
  · obtain ⟨g, hg⟩ := freeCid_some hfree
    obtain ⟨t, hnew, hc⟩ := State.ctxFork_new hg c p.slot
    obtain ⟨u, hu, hran⟩ := execCtxfork_ran h hm a hn hbusy hnew hc.progs
    exact ⟨u, g, _, hu, rfl, hc.free, hran.made hc⟩
  · obtain ⟨u, hu, hran, -, honly⟩ := execCtxlen_ran h hm a hn
    exact ⟨u, hu, honly rfl, hran⟩
  · show execCtxfork a b s = _
    refine livik_fault h (onceAt_fault hm _ ?_)
    rw [State.ctxOf_none hn]
    rfl
  · show execCtxlen a b s = _
    refine livik_fault h (onceAt_fault hm _ ?_)
    rw [State.ctxOf_none hn]
    rfl

end Sys2Proof.Machine
end

section
/-!
Contexts dropped and pinned (R290, R295, R296), and repeated agent marks (R47, R272): parts of O29.
-/

namespace Sys2Proof.Machine

open Sys2Proof Sys2Proof.Claims

/-! ## Drops and trims, which may end parks -/

theorem bind_unpark_ok {x : Except LStop State} {t : State} (h : x = .ok t) : (x >>= fun t => (.ok t.unpark : Except LStop State)) = .ok t.unpark := by
  rw [h]
  rfl

/-- Program `p` has retired as `q` in a state of the contexts and pages of `t`, in which parked programs may have gone on. -/
def RetiredIn (t u : State) (p q : Prog) : Prop :=
  u.prog p.slot = some { q with retn := q.retn + 1, pc := p.pc + 1, since := t.clock } ∧ u.lctx = t.lctx ∧ u.pages = t.pages

/-- A READY program that retires stands so also when parked programs go on. -/
theorem State.retire_unpark {s t : State} {p : Prog} (h : ProgTurn s p) (ht : t.progs = s.progs) {f : Prog → Prog} (hf : ∀ q, (f q).slot = q.slot)
    (hready : (f p).state = p.state) : RetiredIn t (t.retire p f).unpark p (f p) := by
  obtain ⟨hself, -⟩ := State.retire_ran h.prog ht hf
  obtain ⟨hl, hp, -⟩ := (t.retire p f).unpark_unparked
  exact ⟨State.prog_unpark hself (by simp [hready, h.ready]), hl, hp⟩

/-- An instruction under its first mark that ends parks. -/
theorem once_unpark {s t : State} {p : Prog} (h : ProgTurn s p) (hm : p.repeated ownerTable = none) {g : Prog → Word → Prog} {v : Word}
    (hg : ∀ q, (g q v).slot = q.slot) (hready : (g p v).state = p.state) {f : Prog → State → Except LStop (State × Word)} (hf : f p s.pass = .ok (t, v))
    (ht : t.progs = s.progs) :
    ∃ u, (livik s fun s p => do
        let t ← once p s g (f p)
        .ok t.unpark) = .next u ∧ RetiredIn t u p ((g p v).remember ownerTable p.mark v) :=
  ⟨_, livik_ok h (bind_unpark_ok (onceAt_first hm g hf)), State.retire_unpark h ht (f := fun q => (g q v).remember ownerTable p.mark v) hg hready⟩

theorem execCtxdrop_result {s : State} {p : Prog} (h : ProgTurn s p) (hm : p.repeated ownerTable = none) {a : LIdx} {c : Nat}
    (hn : s.named (p.gc a) = some c) (hbusy : (s.lc c).busy = none) (hg : (s.lc c).gen < 0xFFFF) :
    ∃ u q, exec (.ctxdrop a) s = .next u ∧ u.prog p.slot = some q ∧ q.c = p.c.set a.toNat 0 ∧ q.a = p.a ∧ q.t = p.t ∧ q.pc = p.pc + 1 ∧
      q.retn = p.retn + 1 ∧ (u.lc c).live = false ∧ (u.lc c).gen = (s.lc c).gen + 1 := by
  obtain ⟨hprogs, hlive, hgen⟩ := State.ctxDrop_gone (s := s.pass) (State.live_of_named hn).1 hg
  have key : ∃ u, execCtxdrop a s = .next u ∧ RetiredIn (s.pass.ctxDrop c) u p ((p.sc a 0).remember ownerTable p.mark 0) := by
    refine once_unpark h hm (fun _ => rfl) rfl ?_ hprogs
    simp only [State.ctxOf_named hn, State.unheld_free hbusy, bind, Except.bind]
  obtain ⟨u, hu, hq, hl, -⟩ := key
  refine ⟨u, _, hu, hq, rfl, rfl, rfl, rfl, rfl, ?_, ?_⟩
  · rw [State.lc, hl]
    exact hlive
  · rw [State.lc, hl]
    exact hgen

theorem execCtxtrim_longer {s : State} {p : Prog} (h : ProgTurn s p) (hm : p.repeated ownerTable = none) {a b : LIdx} {c : Nat}
    (hn : s.named (p.gc a) = some c) (hbusy : (s.lc c).busy = none) (hlen : (s.lc c).len ≤ (p.ga b).toNat) :
    ∃ u q, exec (.ctxtrim a b) s = .next u ∧ u.prog p.slot = some q ∧ SameRegs p q ∧ q.pc = p.pc + 1 ∧ q.retn = p.retn + 1 ∧ u.lc c = s.lc c := by
  have key : ∃ u, execCtxtrim a b s = .next u ∧ RetiredIn s.pass u p (p.remember ownerTable p.mark 0) := by
    have hle : (s.pass.lc c).len ≤ (p.ga b).toNat := hlen
    refine once_unpark h hm (fun _ => rfl) rfl ?_ rfl
    simp only [State.ctxOf_named hn, State.unheld_free hbusy, bind, Except.bind, if_pos hle]
  obtain ⟨u, hu, hq, hl, -⟩ := key
  refine ⟨u, _, hu, hq, ⟨rfl, rfl, rfl, rfl, rfl⟩, rfl, rfl, ?_⟩
  rw [State.lc, hl]
  rfl

/-! ## Pins -/

/-- The state in which a context has a pin set or cleared, and its pages hold so many more or less. -/
def State.setPin (s : State) (c : Nat) (pin : Bool) (f : PageE → PageE) : State :=
  (s.lc c).list.foldl (fun s i => s.onPage i f) (s.setLc c { s.lc c with pin := pin })

theorem State.setPin_tables (s : State) (c : Nat) (pin : Bool) (f : PageE → PageE) :
    (s.setPin c pin f).progs = s.progs ∧ (s.setPin c pin f).lc c = { s.lc c with pin := pin } ∧ ∀ k, k ≠ c → (s.setPin c pin f).lc k = s.lc k := by
  have hcounts : SameTables (s.setLc c { s.lc c with pin := pin }) (s.setPin c pin f) := SameTables.refl.foldl fun _ _ hv => hv.onPage
  exact ⟨hcounts.progs.trans (State.setLc_progs _ _ _), (hcounts.lc c).trans (State.lc_setLc_self _ _ _),
    fun k hk => (hcounts.lc k).trans (State.lc_setLc_ne _ _ hk)⟩

theorem execCtxpinHold_result {s : State} {p : Prog} (h : ProgTurn s p) (hm : p.repeated ownerTable = none) {a : LIdx} {c : Nat}
    (hn : s.named (p.gc a) = some c) (hpin : (s.lc c).pin = false) (hroom : ∀ i ∈ (s.lc c).list, s.pins i < 254) :
    ∃ u, exec (.ctxpinHold a) s = .next u ∧ Ran s u p (p.remember ownerTable p.mark 0) (p.pc + 1) ∧ u.lc c = { s.lc c with pin := true } ∧
      ∀ k, k ≠ c → u.lc k = s.lc k := by
  obtain ⟨hprogs, hself, hothers⟩ := s.pass.setPin_tables c true fun e => { e with hold := e.hold + 1 }
  have hfree : ¬ ((s.pass.lc c).pin || (s.pass.lc c).list.any fun i => decide (254 ≤ s.pass.pins i)) = true := by
    have hany : (s.lc c).list.any (fun i => decide (254 ≤ s.pins i)) = false := List.any_eq_false.mpr fun i hi => by simpa using hroom i hi
    show ¬ ((s.lc c).pin || (s.lc c).list.any fun i => decide (254 ≤ s.pins i)) = true
    simp [hpin, hany]
  have key : ∃ u, execCtxpinHold a s = .next u ∧ RanOnce s (s.pass.setPin c true fun e => { e with hold := e.hold + 1 }) u p p 0 := by
    refine once_ran h hm (fun _ => rfl) ?_ hprogs
    simp only [State.ctxOf_named hn, bind, Except.bind, if_neg hfree]
    rfl
  obtain ⟨u, hu, hran, hlc, -⟩ := key
  exact ⟨u, hu, hran, (hlc c).trans hself, fun k hk => (hlc k).trans (hothers k hk)⟩

theorem execCtxpinRelease_result {s : State} {p : Prog} (h : ProgTurn s p) (hm : p.repeated ownerTable = none) {a : LIdx} {c : Nat}
    (hn : s.named (p.gc a) = some c) (hpin : (s.lc c).pin = true) :
    ∃ u, exec (.ctxpinRelease a) s = .next u ∧ Ran s u p (p.remember ownerTable p.mark 0) (p.pc + 1) ∧ u.lc c = { s.lc c with pin := false } ∧
      ∀ k, k ≠ c → u.lc k = s.lc k := by
  obtain ⟨hprogs, hself, hothers⟩ := s.pass.setPin_tables c false fun e => { e with hold := e.hold - 1 }
  have hset : ¬ (!(s.pass.lc c).pin) = true := by
    show ¬ (!(s.lc c).pin) = true
    simp [hpin]
  have key : ∃ u, execCtxpinRelease a s = .next u ∧ RanOnce s (s.pass.setPin c false fun e => { e with hold := e.hold - 1 }) u p p 0 := by
    refine once_ran h hm (fun _ => rfl) ?_ hprogs
    simp only [State.ctxOf_named hn, bind, Except.bind, if_neg hset]
    rfl
  obtain ⟨u, hu, hran, hlc, -⟩ := key
  exact ⟨u, hu, hran, (hlc c).trans hself, fun k hk => (hlc k).trans (hothers k hk)⟩

theorem contextChangeResult : ContextChangeResult := by
  intro s p h hm a b c hn
  exact ⟨fun hbusy hg => execCtxdrop_result h hm hn hbusy hg, fun hbusy hlen => execCtxtrim_longer h hm hn hbusy hlen,
    fun hpin hroom => execCtxpinHold_result h hm hn hpin hroom, fun hpin => execCtxpinRelease_result h hm hn hpin⟩

end Sys2Proof.Machine
end

section
/-!
Repeated agent marks (R47, R272): a part of O29.
-/

namespace Sys2Proof.Machine

open Sys2Proof Sys2Proof.Claims

/-- An instruction under a repeated mark only retires, with the remembered result. -/
theorem onceAt_retires {s : State} {p : Prog} (h : ProgTurn s p) {owner : Prog → Nat} {r : AgentMark} (hm : p.repeated (owner p) = some r)
    {g : Prog → Prog → Word → Prog} (hg : ∀ q, (g p q r.res).slot = q.slot) (f : Prog → State → Except LStop (State × Word)) :
    ∃ u, livik s (fun s p => onceAt (owner p) p s (g p) (f p)) = .next u ∧ Ran s u p (g p p r.res) (p.pc + 1) ∧ OnlyPrograms s u :=
  livik_retires h (onceAt_repeated hm s.pass (g p) (f p)) hg

section

variable {s : State} {p : Prog} {r : AgentMark}

theorem contexts_repeated (h : ProgTurn s p) (hm : p.repeated ownerTable = some r) (a b : LIdx) :
    let ran := fun (i : Instr) (q : Prog) => ∃ u, exec i s = .next u ∧ Ran s u p q (p.pc + 1) ∧ OnlyPrograms s u
    ran (.ctxnew a b) { p with c := p.c.set a.toNat r.res } ∧ ran (.ctxfork a b) { p with c := p.c.set a.toNat r.res } ∧
      ran (.ctxlen a b) { p with a := p.a.set a.toNat r.res } ∧ ran (.ctxpinHold a) p ∧ ran (.ctxpinRelease a) p := by
  refine ⟨?_, ?_, ?_, ?_, ?_⟩
  · show ∃ u, execCtxnew a b s = _ ∧ _
    exact onceAt_retires (owner := fun _ => ownerTable) (g := fun _ q v => q.sc a v) h hm (fun _ => rfl) _
  · show ∃ u, execCtxfork a b s = _ ∧ _
    exact onceAt_retires (owner := fun _ => ownerTable) (g := fun _ q v => q.sc a v) h hm (fun _ => rfl) _
  · show ∃ u, execCtxlen a b s = _ ∧ _
    exact onceAt_retires (owner := fun _ => ownerTable) (g := fun _ q v => q.sa a v) h hm (fun _ => rfl) _
  · show ∃ u, execCtxpinHold a s = _ ∧ _
    exact onceAt_retires (owner := fun _ => ownerTable) (g := fun _ q _ => q) h hm (fun _ => rfl) _
  · show ∃ u, execCtxpinRelease a s = _ ∧ _
    exact onceAt_retires (owner := fun _ => ownerTable) (g := fun _ q _ => q) h hm (fun _ => rfl) _

/-- A drop and a trim under a repeated mark change no context; parks that are over end. -/
theorem onceTable_unpark (h : ProgTurn s p) (hm : p.repeated ownerTable = some r) {g : Prog → Word → Prog} (hg : ∀ q, (g q r.res).slot = q.slot)
    (hready : (g p r.res).state = p.state) (f : Prog → State → Except LStop (State × Word)) :
    ∃ u, (livik s fun s p => do
        let t ← once p s g (f p)
        .ok t.unpark) = .next u ∧ RetiredIn s.pass u p (g p r.res) :=
  ⟨_, livik_ok h (bind_unpark_ok (onceAt_repeated hm s.pass g (f p))), State.retire_unpark (t := s.pass) h rfl (f := fun q => g q r.res) hg hready⟩

theorem execPost_repeated (h : ProgTurn s p) (a b : LIdx) (c : LReg) (i : Word32)
    (hm : p.repeated (if (p.ga b).toNat % 2 ^ 16 = 0xFFFF then ownerHost else ownerMail ((p.ga b).toNat % 2 ^ 16)) = some r) :
    ∃ u, exec (.post a b c i) s = .next u ∧ Ran s u p { p with a := p.a.set a.toNat r.res } (p.pc + 1) ∧ OnlyPrograms s u := by
  have hdst : bits (p.ga b) 15 0 = (p.ga b).toNat % 2 ^ 16 := by rw [bits, Nat.pow_zero, Nat.div_one]
  rw [← hdst] at hm
  show ∃ u, execPost a b c i s = _ ∧ _
  exact onceAt_retires (owner := fun p => if bits (p.ga b) 15 0 = 0xFFFF then ownerHost else ownerMail (bits (p.ga b) 15 0))
    (g := fun _ q v => q.sa a v) h hm (fun _ => rfl) _

theorem Prog.take_slot (q : Prog) (c : LReg) (b : LIdx) (e : MboxE) : (q.take c b e).slot = q.slot := by
  cases c with
  | a => rfl
  | c => rfl
  | t => rfl

theorem execAwait_repeated (h : ProgTurn s p) (b : LIdx) (c : LReg) (i : Word32) (hm : p.repeated (ownerMail p.slot) = some r) :
    ∃ u, exec (.await c b i) s = .next u ∧ Ran s u p (match r.entry with
      | some e => p.take c b e
      | none => { p with a := p.a.set b.toNat r.res }) (p.pc + 1) ∧ OnlyPrograms s u := by
  show ∃ u, execAwait c b i s = _ ∧ _
  cases he : r.entry with
  | some e =>
    refine livik_retires h (g := fun q => q.take c b e) ?_ fun q => q.take_slot c b e
    simp only [hm, he]
    rfl
  | none =>
    refine livik_retires h (g := fun q => q.sa b r.res) ?_ fun _ => rfl
    simp only [hm, he]
    rfl

theorem execTlit_repeated (h : ProgTurn s p) (a : LIdx) {i : Word32} (hm : p.repeated ownerImage = some r) (halign : i.toNat % 8 = 0)
    (hin : i.toNat + 4 + 4 * r.res.toNat ≤ p.imgLen) (hn : r.res.toNat ≤ 4096) {hd w : List Byte} (hhead : s.pass.imageRead p i.toNat 4 = .ok hd)
    (hbody : s.pass.imageRead p (i.toNat + 4) (4 * r.res.toNat) = .ok w) :
    ∃ u, exec (.tlit a i) s = .next u ∧ Ran s u p
      ({ p with t := p.t.set a.toNat (idsOf r.res.toNat w) }.remember ownerImage p.mark (BitVec.ofNat 64 r.res.toNat)) (p.pc + 1) ∧ OnlyPrograms s u := by
  have hoff : ¬ (i.toNat % 8 ≠ 0 ∨ p.imgLen < i.toNat + 4) := by omega
  have hfit : ¬ (4096 < r.res.toNat ∨ p.imgLen < i.toNat + 4 + 4 * r.res.toNat) := by omega
  show ∃ u, execTlit a i s = _ ∧ _
  refine livik_retires h (g := fun q => (q.st a (idsOf r.res.toNat w)).remember ownerImage p.mark (BitVec.ofNat 64 r.res.toNat)) ?_ fun _ => rfl
  simp only [if_neg hoff, hhead, bind, Except.bind, hm, if_neg hfit, hbody]
  rfl

/-- A program that begins to wait stands AWAITING at its instruction, with its registers as they are. -/
theorem State.awaits_at {s : State} {p : Prog} (hp : s.prog p.slot = some p) (w : AwaitOn) :
    ∃ q, (((s.onProg p.slot fun p => { p with await := w }).setPState p.slot .awaiting false).syncBlock p.slot).prog p.slot = some q ∧
      q.state = .awaiting ∧ q.await = w ∧ q.pc = p.pc ∧ q.retn = p.retn ∧ SameRegs p q := by
  have hwait : (s.onProg p.slot fun p => { p with await := w }).prog p.slot = some { p with await := w } := by
    refine State.prog_onProg_self ?_ hp
    exact fun _ => rfl
  obtain ⟨place, qy, hq⟩ := State.prog_setPState_self (st := .awaiting) (tail := false) hwait
  exact ⟨_, (State.prog_congr SameTables.refl.syncBlock.progs _).trans hq, rfl, rfl, rfl, rfl, rfl, rfl, rfl, rfl, rfl⟩

theorem execInvoke_repeated (h : ProgTurn s p) (a b : LIdx) (hm : p.repeated ownerFront = some r) (halign : (p.ga b).toNat % 64 = 0) {bs : List Block}
    (hread : s.pass.granted p.nctx (p.ga b) 64 rRD true = .ok bs) (hnr : anyNr bs = false) :
    ∃ u q, exec (.invoke a b) s = .next u ∧ u.prog p.slot = some q ∧ q.state = .awaiting ∧
      q.await = .launch a none (some (r.res.setWidth 16)) r.status ∧ q.pc = p.pc ∧ q.retn = p.retn ∧ SameRegs p q := by
  obtain ⟨q, hq⟩ := State.awaits_at (s := s.pass) h.prog (.launch a none (some (r.res.setWidth 16)) r.status)
  refine ⟨_, q, ?_, hq⟩
  show execInvoke a b s = _
  refine livik_ok h ?_
  simp only [halign, hread, hnr, hm]
  rfl

theorem execEndp_repeated (h : ProgTurn s p) (hm : p.repeated ownerHost = some r) :
    ∃ u q, exec .endp s = .next u ∧ u.prog p.slot = some q ∧ q.state = .done ∧ q.hseq = p.hseq ∧ q.notices = p.notices := by
  obtain ⟨q, hq, hstate, -, -, hseq, hnotices, -⟩ := State.prog_ended (s := s.pass) h.prog
  have hprogs : (((s.pass.ended p).dropFrames p.slot).syncBlock p.slot).progs = (s.pass.ended p).progs := SameTables.refl.dropFrames.syncBlock.progs
  refine ⟨_, q, execEndp_eq h, ?_, hstate, hseq, hnotices⟩
  rw [hm, Option.isSome_some, if_pos rfl, State.prog_congr hprogs, hq]

end

theorem repeatedMarkResult : RepeatedMarkResult := by
  intro s p h r a b c i
  refine ⟨fun hm => ?_, execPost_repeated h a b c i, execAwait_repeated h b c i,
    fun hd w hm halign hin hn hhead hbody => execTlit_repeated h a hm halign hin hn hhead hbody,
    fun bs hm halign hread hnr => execInvoke_repeated h a b hm halign hread hnr, execEndp_repeated h⟩
  obtain ⟨hnew, hfork, hlen, hhold, hrelease⟩ := contexts_repeated h hm a b
  have hdrop : ∃ u, execCtxdrop a s = .next u ∧ RetiredIn s.pass u p (p.sc a 0) := onceTable_unpark h hm (fun _ => rfl) rfl _
  have htrim : ∃ u, execCtxtrim a b s = .next u ∧ RetiredIn s.pass u p p := onceTable_unpark h hm (fun _ => rfl) rfl _
  obtain ⟨u, hu, hq, hl, -⟩ := hdrop
  obtain ⟨v, hv, kq, kl, -⟩ := htrim
  exact ⟨hnew, hfork, hlen, hhold, hrelease, ⟨u, _, hu, hq, rfl, rfl, rfl, hl⟩, v, _, hv, kq, ⟨rfl, rfl, rfl, rfl, rfl⟩, rfl, rfl, kl⟩

end Sys2Proof.Machine
end

section
/-!
CTXTRIM to a shorter length (R73, R74, R297, R298): a part of O29.
-/

namespace Sys2Proof.Machine

open Sys2Proof Sys2Proof.Claims

/-! ## The step of a trim -/

/-- Pages that a length lists (R69). -/
def keptPages (len : Nat) : Nat := (len + 14) / 16

theorem listed_eq (len : Nat) : listed len = keptPages len := by
  unfold listed keptPages
  split
  · omega
  · omega

/-- FILL of the last page that a length lists. -/
def lastFill (len : Nat) : Nat := len - 1 - 16 * (keptPages len - 1)

/-- The last page that a context lists at a shorter length. -/
def State.lastKept (s : State) (cid len : Nat) : Nat := ((s.lc cid).list[keptPages len - 1]?).getD 0

/-- The page that holds the new TAIL. -/
def State.tailPage (s : State) (cid len : Nat) : Nat := ((s.lc cid).list[(len - 1) / 16]?).getD 0

/-- A trim cuts lines off the last page that stays. -/
def State.cuts (s : State) (cid len : Nat) : Bool := decide (2 ≤ len) && decide (lastFill len < (s.page (s.lastKept cid len)).fill)

/-- The cut page is shared: it is replaced by a copy (R73). -/
def State.copies (s : State) (cid len : Nat) : Bool := s.cuts cid len && decide (2 ≤ (s.page (s.lastKept cid len)).refc)

/-- A context at a shorter length. -/
def State.shorter (s : State) (cid len : Nat) : LCtx :=
  { s.lc cid with
    len := len, tail := if len = 0 then 0 else s.rd32 (s.idWord (s.page (s.tailPage cid len)) (len - 1)),
    list := (s.lc cid).list.take (keptPages len) }

/-- The pages that a context lists no longer. -/
def State.offList (s : State) (cid len : Nat) : List Nat := (s.lc cid).list.drop (keptPages len)

/-- The state in which the context is shorter and the pages off its list are counted once less. -/
def State.shortened (s : State) (cid len : Nat) : State := (s.setLc cid (s.shorter cid len)).uncount (s.lc cid) (s.offList cid len)

theorem cuts_listed (s : State) (cid len : Nat) :
    (decide (1 ≤ keptPages len) && decide (lastFill len < (s.page (s.lastKept cid len)).fill)) = s.cuts cid len := by
  have hkeep : 1 ≤ keptPages len ↔ 2 ≤ len := by
    unfold keptPages
    omega
  rw [State.cuts, decide_eq_decide.mpr hkeep]

/-- The last page that stays is cut: in place, or, where it is shared, by a copy of its first lines in a reserved frame. -/
def State.cutPage (s : State) (slot cid len : Nat) : State :=
  if s.copies cid len then
    match (s.shortened cid len).takeFrame slot ((s.shortened cid len).pageUnits (s.lc cid).img) with
    | some (t, frame) => t.detachWhole [cid] (keptPages len - 1) (lastFill len) frame
    | none => s.shortened cid len
  else if s.cuts cid len then
    (s.shortened cid len).onPage (s.lastKept cid len) fun e => { e with fill := lastFill len, mgen := (e.mgen + 1) % 65536, lines := 0 }
  else s.shortened cid len

/-- A trim to a shorter length whose pages, frame and entry are there retires. -/
theorem State.trim_eq {s : State} {slot cid len : Nat} (hres : 1 ≤ len → (s.page (s.tailPage cid len)).res = 0)
    (hcopy : s.copies cid len = true →
      (s.page (s.lastKept cid len)).res = 0 ∧ s.framesOf slot (s.pageUnits (s.lc cid).img) ≠ [] ∧ 1 ≤ s.freeEntries) :
    s.trim slot cid len = .ok ((s.offList cid len).foldl State.release (s.cutPage slot cid len)) := by
  unfold State.trim
  extract_lets c keep idp e tail last le f cut det s1 s2 s3
  have hkeep : keep = keptPages len := listed_eq len
  have hlast : last = s.lastKept cid len := by
    simp only [last, hkeep]
    rfl
  have hf : f = lastFill len := by
    simp only [f, hkeep]
    rfl
  have hcut : cut = s.cuts cid len := by
    rw [← cuts_listed]
    simp only [cut, hf, le, hlast, hkeep]
  have hdet : det = s.copies cid len := by
    rw [State.copies, ← hcut]
    simp only [det, le, hlast]
    rfl
  have h2 : s2 = s.shortened cid len := by
    simp only [s2, s1, hkeep]
    rfl
  have h3 : s3 = s.cutPage slot cid len := by
    simp only [s3, hdet, hcut, h2, hf, hlast, hkeep, State.cutPage]
    rfl
  have htail : ¬ (1 ≤ len ∧ e.res ≠ 0) := fun h => h.2 (hres h.1)
  have hpage : ¬ (det = true ∧ le.res ≠ 0) := by
    rw [hdet]
    simp only [le, hlast]
    exact fun h => h.2 (hcopy h.1).1
  have hframe : ¬ (det = true ∧ s.framesOf slot (s.pageUnits c.img) = []) := by
    rw [hdet]
    exact fun h => (hcopy h.1).2.1 h.2
  have hentry : ¬ (det = true ∧ s.freeEntries < 1) := by
    rw [hdet]
    exact fun h => absurd (hcopy h.1).2.2 (by omega)
  rw [if_neg htail, if_neg hpage, if_neg hframe, if_neg hentry, h3, hkeep]
  rfl

/-! ## The context behind a trim -/

/-- From `s` to `u` a context has become `c` but for its page list and a detach record, and nothing of another context or of a program has changed. -/
def Becomes (s u : State) (cid : Nat) (c : LCtx) : Prop :=
  u.progs = s.progs ∧ (∀ k, k ≠ cid → u.lc k = s.lc k) ∧ ∃ list detach, u.lc cid = { c with list := list, detach := detach }

theorem Becomes.tables {s u w : State} {cid : Nat} {c : LCtx} (h : Becomes s u cid c) (k : SameTables u w) : Becomes s w cid c := by
  obtain ⟨hp, ho, list, detach, hc⟩ := h
  exact ⟨k.progs.trans hp, fun j hj => (k.lc j).trans (ho j hj), list, detach, (k.lc cid).trans hc⟩

/-- A context's pin leaves the page at a place of its list. -/
def State.unpinned (s : State) (cid i : Nat) : State :=
  if (s.lc cid).pin then s.onPage (((s.lc cid).list[i]?).getD 0) (fun e => { e with hold := e.hold - 1 }) else s

theorem SameTables.unpinned (s : State) (cid i : Nat) : SameTables s (s.unpinned cid i) := SameTables.ite SameTables.refl.onPage SameTables.refl

theorem State.relist_eq (s : State) (cid i n : Nat) :
    s.relist cid i n = (s.unpinned cid i).setLc cid { s.lc cid with list := (s.lc cid).list.set i n, detach := none } := rfl

theorem State.relist_lc_self (s : State) (cid i n : Nat) : (s.relist cid i n).lc cid = { s.lc cid with list := (s.lc cid).list.set i n, detach := none } := by
  rw [State.relist_eq, State.lc_setLc_self]

theorem Becomes.relist {s u : State} {cid : Nat} {c : LCtx} (h : Becomes s u cid c) (i n : Nat) : Becomes s (u.relist cid i n) cid c := by
  obtain ⟨hp, ho, list, detach, hc⟩ := h
  have htables := SameTables.unpinned u cid i
  refine ⟨?_, fun k hk => ?_, list.set i n, none, ?_⟩
  · rw [State.relist_eq, State.setLc_progs, htables.progs, hp]
  · rw [State.relist_eq, State.lc_setLc_ne _ _ hk, htables.lc, ho k hk]
  · rw [State.relist_lc_self, hc]

theorem SameTables.copyLines (s : State) (img : Half) (src dst f : Nat) : SameTables s (s.copyLines img src dst f) := SameTables.refl.wrPhys.wrPhys

theorem SameTables.newPage {s t : State} {img : Half} {frame refc fill hold use n : Nat} (h : s.newPage img frame refc fill hold use = some (t, n)) :
    SameTables s t := by
  have hs : SameTables s s := SameTables.refl
  unfold State.newPage at h
  split at h
  · cases h
  · cases h
    exact SameTables.setPage hs

theorem Becomes.detachEnd {s u : State} {cid : Nat} {c : LCtx} (h : Becomes s u cid c) (d : Detach) : Becomes s (u.detachEnd [cid] d) cid c := by
  have hcopied := h.tables (SameTables.copyLines u (u.page d.pti).img (u.page d.pti).loc d.frame d.f)
  unfold State.detachEnd
  extract_lets e copied pins
  split
  · exact hcopied
  · rename_i t new hnew
    exact ((hcopied.tables (SameTables.newPage hnew)).relist d.word new).tables SameTables.refl.onPage.release

theorem Becomes.shortened (s : State) (cid len : Nat) : Becomes s (s.shortened cid len) cid (s.shorter cid len) := by
  have hset : Becomes s (s.setLc cid (s.shorter cid len)) cid (s.shorter cid len) :=
    ⟨State.setLc_progs _ _ _, fun k hk => State.lc_setLc_ne _ _ hk, _, _, State.lc_setLc_self _ _ _⟩
  exact hset.tables (SameTables.uncount _ _ _)

theorem Becomes.cutPage (s : State) (slot cid len : Nat) : Becomes s (s.cutPage slot cid len) cid (s.shorter cid len) := by
  have h := Becomes.shortened s cid len
  unfold State.cutPage
  split
  · split
    · rename_i t frame htake
      have ht : SameTables (s.shortened cid len) t := by
        unfold State.takeFrame at htake
        split at htake
        · cases htake
        · cases htake
          exact SameTables.refl
      exact Becomes.detachEnd ((h.tables ht).tables SameTables.refl.onPage) _
    · exact h
  · split
    · exact h.tables SameTables.refl.onPage
    · exact h

/-- Where no copy is made, the list is that of the new length. -/
theorem State.cutPage_lc {s : State} {cid len : Nat} (slot : Nat) (hc : s.copies cid len = false) : (s.cutPage slot cid len).lc cid = s.shorter cid len := by
  have hshort : (s.shortened cid len).lc cid = s.shorter cid len := ((SameTables.uncount _ _ _).lc cid).trans (State.lc_setLc_self _ _ _)
  unfold State.cutPage
  rw [hc, if_neg Bool.false_ne_true]
  split
  · exact (SameTables.refl.onPage.lc cid).trans hshort
  · exact hshort

/-! ## The pages behind a trim -/

theorem State.page_uncount_ne (s : State) (c : LCtx) {l : List Nat} {j : Nat} (hj : j ∉ l) : (s.uncount c l).page j = s.page j :=
  State.page_foldl (fun _ _ hne => State.page_onPage_ne _ _ hne) hj s

theorem State.page_shortened_ne {s : State} {cid len j : Nat} (hj : j ∉ s.offList cid len) : (s.shortened cid len).page j = s.page j :=
  (State.page_uncount_ne _ _ hj).trans (State.page_congr (State.setLc_pages _ _ _) j)

/-- A page that stays listed is not released by a trim. -/
theorem State.page_released_ne {s t : State} {cid len j : Nat} (hj : j ∉ s.offList cid len) :
    ((s.offList cid len).foldl State.release t).page j = t.page j :=
  State.page_foldl (fun _ _ hne => State.page_release_ne _ hne) hj t

theorem State.lastKept_eq {s : State} {cid len : Nat} (hlen : 2 ≤ len) (hfit : keptPages len ≤ (s.lc cid).list.length) :
    (s.lc cid).list[keptPages len - 1]? = some (s.lastKept cid len) ∧ 1 ≤ keptPages len := by
  have hkeep : 1 ≤ keptPages len := by
    unfold keptPages
    omega
  have hin : keptPages len - 1 < (s.lc cid).list.length := by omega
  refine ⟨?_, hkeep⟩
  rw [State.lastKept, List.getElem?_eq_getElem hin, Option.getD_some]

/-- A list that repeats no page does not list its last kept page again. -/
theorem State.lastKept_stays {s : State} {cid len : Nat} (hd : (s.lc cid).list.Nodup) (hlen : 2 ≤ len) (hfit : keptPages len ≤ (s.lc cid).list.length) :
    s.lastKept cid len ∉ s.offList cid len := by
  obtain ⟨hlast, hkeep⟩ := State.lastKept_eq hlen hfit
  have hmem : s.lastKept cid len ∈ (s.lc cid).list.take (keptPages len) :=
    List.mem_of_getElem? ((List.getElem?_take_of_lt (by omega)).trans hlast)
  exact fun hoff => (List.disjoint_take_drop hd (Nat.le_refl _)) hmem hoff

theorem State.page_cutPage_inPlace {s : State} {cid len : Nat} (slot : Nat) (hc : s.copies cid len = false) (hcut : s.cuts cid len = true)
    (hstays : s.lastKept cid len ∉ s.offList cid len) : (s.cutPage slot cid len).page (s.lastKept cid len) =
      { s.page (s.lastKept cid len) with fill := lastFill len, mgen := ((s.page (s.lastKept cid len)).mgen + 1) % 65536, lines := 0 } := by
  unfold State.cutPage
  rw [hc, if_neg Bool.false_ne_true, if_pos hcut, State.page_onPage_self, State.page_shortened_ne hstays]

end Sys2Proof.Machine
end

section
/-!
The copy that a trim makes of a shared page (R73, R74), and O29.
-/

namespace Sys2Proof.Machine

open Sys2Proof Sys2Proof.Claims

/-! ## Which entry is allocated -/

/-- What the choice of a free entry looks at is in `u` as in `s`. -/
def SameUse (s u : State) : Prop :=
  u.ptSize = s.ptSize ∧ u.fresh = s.fresh ∧ u.pages.length = s.pages.length ∧
    ∀ i, (u.page i).used = (s.page i).used ∧ (u.page i).infl = (s.page i).infl

theorem SameUse.refl {s : State} : SameUse s s := ⟨rfl, rfl, rfl, fun _ => ⟨rfl, rfl⟩⟩

theorem SameUse.allocPti {s u : State} (h : SameUse s u) : u.allocPti = s.allocPti := by
  obtain ⟨hsize, hfresh, hlen, hpage⟩ := h
  have hbad : (fun i => (u.page i).used || decide ((u.page i).infl ≠ 0)) = fun i => (s.page i).used || decide ((s.page i).infl ≠ 0) := by
    funext i
    rw [(hpage i).1, (hpage i).2]
  rw [State.allocPti, State.allocPti, hsize, hfresh, hlen, hbad]

theorem State.allocPti_unused {s : State} {n : Nat} (h : s.allocPti = some n) : (s.page n).used = false := by
  unfold State.allocPti at h
  split at h
  · cases h
  · rename_i hsize
    exact (Bool.or_eq_false_iff.mp (firstFree_spec (Nat.pos_of_ne_zero hsize) h).2).1

theorem Assoc_length_set {κ α : Type} [DecidableEq κ] {l : List (κ × α)} {k : κ} (h : Assoc.get l k ≠ none) (v : α) :
    (Assoc.set l k v).length = l.length := by
  induction l with
  | nil => exact absurd rfl h
  | cons e r ih =>
    obtain ⟨k', w⟩ := e
    by_cases hk : k = k'
    · simp [Assoc.set, hk]
    · have hr : Assoc.get r k ≠ none := by simpa [Assoc.get, hk] using h
      simp [Assoc.set, hk, ih hr]

/-- An entry in use is listed. -/
theorem State.listed_of_used {s : State} {i : Nat} (h : (s.page i).used = true) : Assoc.get s.pages i ≠ none := by
  intro hn
  rw [State.page, Assoc.getD, hn] at h
  cases h

section

variable {s u : State}

theorem SameUse.wrPhys {a : Nat} {d : List Byte} (h : SameUse s u) : SameUse s (u.wrPhys a d) := by
  rw [State.wrPhys_frame]
  exact h

theorem SameUse.setLc {cid : Nat} {c : LCtx} (h : SameUse s u) : SameUse s (u.setLc cid c) := by
  rw [State.setLc_frame]
  exact h

/-- A change of an entry in use that leaves it in use and in flight as it is. -/
theorem SameUse.onPage {i : Nat} {f : PageE → PageE} (h : SameUse s u) (hi : (s.page i).used = true)
    (hf : ∀ e, (f e).used = e.used ∧ (f e).infl = e.infl) : SameUse s (u.onPage i f) := by
  obtain ⟨hsize, hfresh, hlen, hpage⟩ := h
  have hin : Assoc.get u.pages i ≠ none := State.listed_of_used ((hpage i).1.trans hi)
  have hpages : (u.onPage i f).pages = Assoc.set u.pages i (f (u.page i)) := State.setPage_pages _ _ _
  refine ⟨?_, ?_, ?_, fun j => ?_⟩
  · rw [State.onPage, State.setPage, State.wrPhys_frame]
    exact hsize
  · rw [State.onPage, State.setPage, State.wrPhys_frame]
    exact hfresh
  · rw [hpages, Assoc_length_set hin, hlen]
  · by_cases hj : j = i
    · subst hj
      rw [State.page_onPage_self, (hf _).1, (hf _).2]
      exact hpage j
    · rw [State.page_onPage_ne _ _ hj]
      exact hpage j

theorem SameUse.uncount {l : List Nat} (h : SameUse s u) (hl : ∀ i ∈ l, (s.page i).used = true) (c : LCtx) : SameUse s (u.uncount c l) :=
  List.foldlRecOn (motive := SameUse s) l _ h fun _ hv i hi => hv.onPage (hl i hi) fun _ => ⟨rfl, rfl⟩

end

/-! ## The copy -/

/-- A change of HOLD changes nothing else of any entry. -/
theorem State.page_onHold (s : State) (i j : Nat) (k : PageE → Nat) :
    ∃ h, (s.onPage i fun e => { e with hold := k e }).page j = { s.page j with hold := h } := by
  by_cases hj : j = i
  · subst hj
    exact ⟨_, State.page_onPage_self _ _ _⟩
  · exact ⟨(s.page j).hold, State.page_onPage_ne _ _ hj⟩

theorem State.page_relist (s : State) (cid i n j : Nat) : ∃ h, (s.relist cid i n).page j = { s.page j with hold := h } := by
  have hpages : (s.relist cid i n).page j = (s.unpinned cid i).page j := by
    rw [State.relist_eq]
    exact State.page_congr (State.setLc_pages _ _ _) j
  rw [hpages, State.unpinned]
  split
  · exact s.page_onHold _ j fun e => e.hold - 1
  · exact ⟨_, rfl⟩

/-- A copy's entry is the one allocated: counted once, with FILL of the copy; no other entry changes. -/
theorem State.newPage_of {s : State} {n : Nat} (h : s.allocPti = some n) (img : Half) (frame refc fill hold use : Nat) :
    ∃ t, s.newPage img frame refc fill hold use = some (t, n) ∧ (t.page n).fill = fill ∧ (t.page n).refc = refc ∧ (t.page n).used = true ∧
      ∀ j, j ≠ n → t.page j = s.page j := by
  let e : PageE := { PageE.none with loc := frame, fill := fill, mgen := ((s.page n).mgen + 1) % 65536, refc := refc, hold := hold, img := img,
                                     used := true, lastUse := use }
  have hself := State.page_setPage_self ({ s with fresh := s.fresh + 1 } : State) n e
  refine ⟨({ s with fresh := s.fresh + 1 } : State).setPage n e, by rw [State.newPage, h], ?_, ?_, ?_, fun j hj => State.page_setPage_ne _ _ hj⟩
  · rw [hself]
  · rw [hself]
  · rw [hself]

/-- The steps of a detach for one context behind its copy (R74): its list names the new entry, and the old one is held no longer. -/
theorem State.detachEnd_eq {s t : State} {cid n : Nat} {d : Detach}
    (h : (s.copyLines (s.page d.pti).img (s.page d.pti).loc d.frame d.f).newPage (s.page d.pti).img d.frame 1 d.f
      (([cid].filter fun c => ((s.copyLines (s.page d.pti).img (s.page d.pti).loc d.frame d.f).lc c).pin).length) (s.page d.pti).lastUse = some (t, n)) :
    s.detachEnd [cid] d = ((t.relist cid d.word n).onPage d.pti fun e => { e with hold := e.hold - 1 }).release d.pti := by
  unfold State.detachEnd
  extract_lets e copied pins
  have hnew : copied.newPage e.img d.frame [cid].length d.f pins e.lastUse = some (t, n) := h
  rw [hnew]
  rfl

/-- What a detach that makes its copy leaves of the list, the new entry and the old one. -/
structure Copied (s u : State) (cid word f pti n : Nat) : Prop where
  list : (u.lc cid).list = (s.lc cid).list.set word n
  fill : (u.page n).fill = f
  refc : (u.page n).refc = 1
  used : (u.page n).used = true
  old : (u.page pti).refc = (s.page pti).refc

theorem State.detachEnd_copied {s : State} {cid n : Nat} {d : Detach}
    (hn : (s.copyLines (s.page d.pti).img (s.page d.pti).loc d.frame d.f).allocPti = some n) (hne : d.pti ≠ n) (hrefc : (s.page d.pti).refc ≠ 0) :
    Copied s (s.detachEnd [cid] d) cid d.word d.f d.pti n := by
  obtain ⟨t, hnew, hfill, hcount, hused, hothers⟩ := State.newPage_of hn (s.page d.pti).img d.frame 1 d.f
    (([cid].filter fun c => ((s.copyLines (s.page d.pti).img (s.page d.pti).loc d.frame d.f).lc c).pin).length) (s.page d.pti).lastUse
  have hlc : t.lc cid = s.lc cid := ((SameTables.copyLines s _ _ _ _).trans (SameTables.newPage hnew)).lc cid
  have hpage : ∀ j, ∃ h, ((t.relist cid d.word n).onPage d.pti fun e => { e with hold := e.hold - 1 }).page j = { t.page j with hold := h } := fun j => by
    obtain ⟨h1, hrelist⟩ := t.page_relist cid d.word n j
    obtain ⟨h2, hhold⟩ := (t.relist cid d.word n).page_onHold d.pti j fun e => e.hold - 1
    exact ⟨h2, by rw [hhold, hrelist]⟩
  have hold : t.page d.pti = s.page d.pti :=
    (hothers _ hne).trans (State.page_congr ((State.wrPhys_pages _ _ _).trans (State.wrPhys_pages _ _ _)) _)
  obtain ⟨hn1, hnpage⟩ := hpage n
  obtain ⟨ho1, hopage⟩ := hpage d.pti
  rw [State.detachEnd_eq hnew, State.release_counted (by rw [hopage, hold]; exact hrefc)]
  refine ⟨?_, ?_, ?_, ?_, ?_⟩
  · rw [SameTables.refl.onPage.lc, State.relist_lc_self, hlc]
  · rw [hnpage, ← hfill]
  · rw [hnpage, ← hcount]
  · rw [hnpage, ← hused]
  · rw [hopage, hold]

theorem State.cuts_iff {s : State} {cid len : Nat} : s.cuts cid len = true ↔ 2 ≤ len ∧ lastFill len < (s.page (s.lastKept cid len)).fill := by
  simp [State.cuts]

theorem State.copies_iff {s : State} {cid len : Nat} : s.copies cid len = true ↔
    (2 ≤ len ∧ lastFill len < (s.page (s.lastKept cid len)).fill) ∧ 2 ≤ (s.page (s.lastKept cid len)).refc := by
  simp [State.copies, State.cuts]

theorem State.lc_shortened (s : State) (cid len : Nat) : (s.shortened cid len).lc cid = s.shorter cid len :=
  ((SameTables.uncount _ _ _).lc cid).trans (State.lc_setLc_self _ _ _)

theorem State.onPage_reserved (s : State) (i : Nat) (f : PageE → PageE) : (s.onPage i f).reserved = s.reserved := State.wrPhys_reserved _ _ _

theorem State.shortened_reserved (s : State) (cid len : Nat) : (s.shortened cid len).reserved = s.reserved := by
  have hset : (s.setLc cid (s.shorter cid len)).reserved = s.reserved := by rw [State.setLc_frame]
  exact List.foldlRecOn (motive := fun v : State => v.reserved = s.reserved) _ _ hset fun v hv i _ => (State.onPage_reserved v i _).trans hv

/-- The frame that a trim takes for its copy is one reserved for the program. -/
theorem State.takeFrame_shortened {s : State} {slot cid len : Nat} (hframes : s.framesOf slot (s.pageUnits (s.lc cid).img) ≠ []) :
    ∃ reserved frame, (s.shortened cid len).takeFrame slot ((s.shortened cid len).pageUnits (s.lc cid).img) =
      some ({ s.shortened cid len with reserved := reserved }, frame) := by
  have hunits : (s.shortened cid len).pageUnits (s.lc cid).img = s.pageUnits (s.lc cid).img := by
    have himages : (s.shortened cid len).images = s.images := by
      have hset : (s.setLc cid (s.shorter cid len)).images = s.images := by rw [State.setLc_frame]
      exact (SameTables.uncount _ _ _).2.2.1.trans hset
    rw [State.pageUnits, State.image, himages]
    rfl
  have hsame : (s.shortened cid len).framesOf slot (s.pageUnits (s.lc cid).img) = s.framesOf slot (s.pageUnits (s.lc cid).img) := by
    rw [State.framesOf, State.heldFrames, State.shortened_reserved]
    rfl
  obtain ⟨f, rest, hf⟩ := List.exists_cons_of_ne_nil hframes
  refine ⟨(s.shortened cid len).reserved.erase (slot, f), f.1, ?_⟩
  rw [hunits, State.takeFrame, hsame, hf]

/-- The first step of a detach for one context: its page is counted once less, and held while it is copied (R74). -/
def State.detaching (s : State) (pti : Nat) : State := s.onPage pti fun e => { e with refc := e.refc - 1, hold := e.hold + 1 }

theorem State.detachWhole_eq (s : State) (cid i f frame : Nat) : s.detachWhole [cid] i f frame =
    (s.detaching (((s.lc cid).list[i]?).getD 0)).detachEnd [cid]
      { pti := ((s.lc cid).list[i]?).getD 0, word := i, f := f, frame := frame, copied := false, newPti := none } := rfl

/-- A trim that cuts a shared page (R73): the entry allocated holds the copy, and the shared page is counted once less. -/
theorem State.cutPage_copied {s : State} {slot cid len n : Nat} (hc : s.copies cid len = true)
    (hframes : s.framesOf slot (s.pageUnits (s.lc cid).img) ≠ []) (hused : ∀ i ∈ (s.lc cid).list, (s.page i).used = true)
    (hfit : keptPages len ≤ (s.lc cid).list.length) (hstays : s.lastKept cid len ∉ s.offList cid len) (hn : s.allocPti = some n) :
    ((s.cutPage slot cid len).lc cid).list = ((s.lc cid).list.take (keptPages len)).set (keptPages len - 1) n ∧
      ((s.cutPage slot cid len).page n).fill = lastFill len ∧ ((s.cutPage slot cid len).page n).refc = 1 ∧
      ((s.cutPage slot cid len).page n).used = true ∧
      ((s.cutPage slot cid len).page (s.lastKept cid len)).refc = (s.page (s.lastKept cid len)).refc - 1 := by
  obtain ⟨⟨hlen, -⟩, hrefc⟩ := State.copies_iff.mp hc
  obtain ⟨hlast, hkeep⟩ := State.lastKept_eq hlen hfit
  obtain ⟨reserved, frame, htake⟩ := State.takeFrame_shortened (len := len) hframes
  obtain ⟨t, ht⟩ : ∃ t : State, t = { s.shortened cid len with reserved := reserved } := ⟨_, rfl⟩
  have hlc : t.lc cid = s.shorter cid len := by
    rw [ht]
    exact s.lc_shortened cid len
  have hpti : ((t.lc cid).list[keptPages len - 1]?).getD 0 = s.lastKept cid len := by
    rw [hlc]
    show (((s.lc cid).list.take (keptPages len))[keptPages len - 1]?).getD 0 = _
    rw [List.getElem?_take_of_lt (by omega), hlast, Option.getD_some]
  have hcut : s.cutPage slot cid len = (t.detaching (s.lastKept cid len)).detachEnd [cid]
      { pti := s.lastKept cid len, word := keptPages len - 1, f := lastFill len, frame := frame, copied := false, newPti := none } := by
    rw [State.cutPage, if_pos hc, htake, ← hpti, ht]
    exact State.detachWhole_eq _ _ _ _ _
  have hpage : (t.page (s.lastKept cid len)).refc = (s.page (s.lastKept cid len)).refc := by
    rw [ht]
    exact congrArg PageE.refc (State.page_shortened_ne hstays)
  have hlastUsed : (s.page (s.lastKept cid len)).used = true := hused _ (List.mem_of_getElem? hlast)
  have huse : SameUse s (t.detaching (s.lastKept cid len)) := by
    have hshort : SameUse s (s.shortened cid len) := SameUse.refl.setLc.uncount (fun i hi => hused i (List.mem_of_mem_drop hi)) _
    refine SameUse.onPage ?_ hlastUsed fun _ => ⟨rfl, rfl⟩
    rw [ht]
    exact hshort
  have hcount : ((t.detaching (s.lastKept cid len)).page (s.lastKept cid len)).refc = (s.page (s.lastKept cid len)).refc - 1 := by
    rw [State.detaching, State.page_onPage_self, ← hpage]
  have hne : s.lastKept cid len ≠ n := by
    rintro rfl
    rw [State.allocPti_unused hn] at hlastUsed
    cases hlastUsed
  rw [hcut]
  obtain ⟨hlist, hfill, hone, hnew, hold⟩ := State.detachEnd_copied (s := t.detaching (s.lastKept cid len)) (cid := cid) (n := n)
    (d := { pti := s.lastKept cid len, word := keptPages len - 1, f := lastFill len, frame := frame, copied := false, newPti := none })
    (huse.wrPhys.wrPhys.allocPti.trans hn) hne (by rw [hcount]; omega)
  refine ⟨hlist.trans ?_, hfill, hone, hnew, hold.trans hcount⟩
  rw [State.detaching, SameTables.refl.onPage.lc, hlc]
  rfl

/-! ## A trim retires -/

/-- The state behind a trim's step. -/
def State.trimmed (s : State) (slot cid len : Nat) : State :=
  ((s.offList cid len).foldl State.release (s.cutPage slot cid len)).dropFrames slot

theorem State.trimmed_tables (s : State) (slot cid len : Nat) : SameTables (s.cutPage slot cid len) (s.trimmed slot cid len) :=
  (SameTables.refl.foldl fun _ _ hv => hv.release).dropFrames

theorem State.page_trimmed {s : State} (slot : Nat) {cid len j : Nat} (hj : j ∉ s.offList cid len) :
    (s.trimmed slot cid len).page j = (s.cutPage slot cid len).page j :=
  (State.page_congr (State.dropFrames_pages _ _) j).trans (State.page_released_ne hj)

theorem execCtxtrim_shorter {s : State} {p : Prog} (h : ProgTurn s p) (hm : p.repeated ownerTable = none) {a b : LIdx} {c : Nat}
    (hn : s.named (p.gc a) = some c) (hbusy : (s.lc c).busy = none) (hlen : (p.ga b).toNat < (s.lc c).len)
    (hres : 1 ≤ (p.ga b).toNat → (s.page (s.tailPage c (p.ga b).toNat)).res = 0)
    (hcopy : s.copies c (p.ga b).toNat = true →
      (s.page (s.lastKept c (p.ga b).toNat)).res = 0 ∧ s.framesOf p.slot (s.pageUnits (s.lc c).img) ≠ [] ∧ 1 ≤ s.freeEntries) :
    ∃ u, execCtxtrim a b s = .next u ∧ RetiredIn (s.pass.trimmed p.slot c (p.ga b).toNat) u p (p.remember ownerTable p.mark 0) := by
  have htrim := State.trim_eq (s := s.pass) (slot := p.slot) hres hcopy
  have hshort : ¬ (s.pass.lc c).len ≤ (p.ga b).toNat := Nat.not_le.mpr hlen
  have hprogs := (State.trimmed_tables s.pass p.slot c (p.ga b).toNat).progs.trans (Becomes.cutPage s.pass p.slot c (p.ga b).toNat).1
  refine once_unpark h hm (fun _ => rfl) rfl ?_ hprogs
  simp only [State.ctxOf_named hn, State.unheld_free hbusy, bind, Except.bind, if_neg hshort, htrim]
  rfl

theorem contextTrimResult : ContextTrimResult := by
  intro s p h hm a b c hn hbusy hlen x len keep tailPage last f cut htail hcopy
  have hcopies : s.pass.copies c len = true ↔ cut ∧ 2 ≤ (s.page last).refc := State.copies_iff
  obtain ⟨u, hu, hq, hl, hp⟩ := execCtxtrim_shorter h hm hn hbusy hlen htail fun hc => by
    obtain ⟨hcut, hrefc⟩ := hcopies.mp hc
    exact hcopy hcut hrefc
  have hlc : ∀ k, u.lc k = (s.pass.cutPage p.slot c len).lc k := fun k => by
    rw [State.lc, hl]
    exact (State.trimmed_tables s.pass p.slot c len).lc k
  have hpage : ∀ j, j ∉ s.pass.offList c len → u.page j = (s.pass.cutPage p.slot c len).page j := fun j hj =>
    (State.page_congr hp j).trans (State.page_trimmed p.slot hj)
  obtain ⟨-, hothers, list, detach, hc⟩ := Becomes.cutPage s.pass p.slot c len
  have huc := (hlc c).trans hc
  refine ⟨u, _, hu, hq, ⟨rfl, rfl, rfl, rfl, rfl⟩, rfl, rfl, congrArg LCtx.len huc, congrArg LCtx.tail huc,
    (congrArg LCtx.live huc).trans (State.live_of_named hn).1, (congrArg LCtx.gen huc).trans rfl,
    (congrArg LCtx.pin huc).trans rfl, fun k hk => (hlc k).trans (hothers k hk),
    fun hplain => ?_, fun hnodup hfit hused hcut => ?_⟩
  · have hno : s.pass.copies c len = false := Bool.eq_false_iff.mpr fun hyes => hplain (hcopies.mp hyes)
    rw [hlc, State.cutPage_lc p.slot hno]
    rfl
  · have hstays : last ∉ s.pass.offList c len := State.lastKept_stays (s := s.pass) hnodup hcut.1 hfit
    refine ⟨fun hrefc => ?_, fun n hrefc hnew => ?_⟩
    · have hno : s.pass.copies c len = false := Bool.eq_false_iff.mpr fun hyes => absurd (hcopies.mp hyes).2 (by omega)
      rw [hpage last hstays]
      exact State.page_cutPage_inPlace (s := s.pass) p.slot hno (State.cuts_iff.mpr hcut) hstays
    · have hnotOff : n ∉ s.pass.offList c len := fun hoff => by
        have hunused : (s.page n).used = false := State.allocPti_unused (s := s.pass) hnew
        rw [hused n (List.mem_of_mem_drop hoff)] at hunused
        cases hunused
      have hyes := hcopies.mpr ⟨hcut, hrefc⟩
      obtain ⟨hlist, hfill, hone, hnewUsed, hold⟩ := State.cutPage_copied (s := s.pass) (slot := p.slot) hyes (hcopy hcut hrefc).2.1 hused hfit hstays hnew
      rw [hpage n hnotOff, hpage last hstays, hlc]
      exact ⟨hlist, hfill, hone, hnewUsed, hold⟩

/-- Settles O29: a context instruction changes the tables by one step of its own, and a repeated mark none; the copy of a cut page takes the entry that the
allocation names before the trim. -/
theorem livikContextResult : Obligations.LivikContextResult :=
  ⟨contextCreateResult, contextChangeResult, contextTrimResult, repeatedMarkResult⟩

end Sys2Proof.Machine
end

section
/-!
Long instructions: how one starts, steps and retires (R38 to R40, R50, R54, R65), and what the start of one leaves unchanged.
-/

namespace Sys2Proof.Machine

open Sys2Proof Sys2Proof.Claims

/-! ## Progress words (R39) -/

theorem progress_kind {kind phase k base cand best : Nat} (hkind : kind < 8) (hphase : phase < 2) (hk : k < 2 ^ 13) (hbase : base < 2 ^ 21)
    (hcand : cand < 2 ^ 8) (hbest : best < 2 ^ 8) : bits (progress kind phase k base cand best) 63 61 = kind := by
  simp only [progress, bits_or]
  rw [bits_at64_self hkind (by omega) (by omega), bits_at64_below (n := 1) hphase (by omega), bits_at64_below hk (by omega), bits_at64_below hbase (by omega),
    bits_at64_below hcand (by omega), bits_at64_below hbest (by omega)]
  simp only [Nat.or_zero]

theorem progress_phase {phase k base cand best : Nat} (kind : Nat) (hphase : phase < 2) (hk : k < 2 ^ 13) (hbase : base < 2 ^ 21)
    (hcand : cand < 2 ^ 8) (hbest : best < 2 ^ 8) : bits (progress kind phase k base cand best) 60 60 = phase := by
  simp only [progress, bits_or]
  rw [bits_at64_above kind (by omega) (by omega), bits_at64_self (hi := 60) hphase (by omega) (by omega), bits_at64_below hk (by omega),
    bits_at64_below hbase (by omega), bits_at64_below hcand (by omega), bits_at64_below hbest (by omega)]
  simp only [Nat.or_zero, Nat.zero_or]

theorem progress_k {k base cand best : Nat} (kind phase : Nat) (hk : k < 2 ^ 13) (hbase : base < 2 ^ 21) (hcand : cand < 2 ^ 8) (hbest : best < 2 ^ 8) :
    bits (progress kind phase k base cand best) 56 44 = k := by
  simp only [progress, bits_or]
  rw [bits_at64_above kind (by omega) (by omega), bits_at64_above phase (by omega) (by omega), bits_at64_self hk (by omega) (by omega),
    bits_at64_below hbase (by omega), bits_at64_below hcand (by omega), bits_at64_below hbest (by omega)]
  simp only [Nat.or_zero, Nat.zero_or]

theorem progress_cand {cand best : Nat} (kind phase k base : Nat) (hcand : cand < 2 ^ 8) (hbest : best < 2 ^ 8) :
    bits (progress kind phase k base cand best) 19 12 = cand := by
  simp only [progress, bits_or]
  rw [bits_at64_above kind (by omega) (by omega), bits_at64_above phase (by omega) (by omega), bits_at64_above k (by omega) (by omega),
    bits_at64_above base (by omega) (by omega), bits_at64_self hcand (by omega) (by omega), bits_at64_below hbest (by omega)]
  simp only [Nat.or_zero, Nat.zero_or]

theorem progress_best {best : Nat} (kind phase k base cand : Nat) (hbest : best < 2 ^ 8) : bits (progress kind phase k base cand best) 11 4 = best := by
  simp only [progress, bits_or]
  rw [bits_at64_above kind (by omega) (by omega), bits_at64_above phase (by omega) (by omega), bits_at64_above k (by omega) (by omega),
    bits_at64_above base (by omega) (by omega), bits_at64_above cand (by omega) (by omega), bits_at64_self hbest (by omega) (by omega)]
  simp only [Nat.zero_or]

/-- In phase 1 the phase bit shows, whatever the length is. -/
theorem progress_appending (kind k base cand best : Nat) : bits (progress kind 1 k base cand best) 60 60 = 1 := by
  have hone : bits (progress kind 1 k base cand best) 60 60 = 1 ||| bits (at64 kind 61 ||| at64 k 44 ||| at64 base 20 ||| at64 cand 12 ||| at64 best 4) 60 60 := by
    simp only [progress, bits_or]
    rw [bits_at64_self (hi := 60) (x := 1) (by omega) (by omega) (by omega)]
    simp only [Nat.or_assoc, Nat.or_left_comm]
  have hbit : ∀ w, bits w 60 60 < 2 := fun w => Nat.mod_lt _ (by omega)
  rw [hone]
  have := hbit (at64 kind 61 ||| at64 k 44 ||| at64 base 20 ||| at64 cand 12 ||| at64 best 4)
  generalize bits (at64 kind 61 ||| at64 k 44 ||| at64 base 20 ||| at64 cand 12 ||| at64 best 4) 60 60 = b at this
  interval_cases b <;> rfl

/-- Bits [17:0] of a handle name its context (R26). -/
theorem bits_handle_id {g : Nat} (hg : g < 2 ^ 18) (gen : Nat) : bits (handle g gen) 17 0 = g := by
  simp only [handle, bits_or]
  rw [bits_at64_self hg (by omega) (by omega), bits_at64_above gen (by omega) (by omega), bits_at64_above 1 (by omega) (by omega)]
  simp only [Nat.or_zero]

theorem handle_ne_zero (g gen : Nat) : handle g gen ≠ 0 := by
  have htop : (handle g gen).getLsbD 63 = true := by
    rw [handle, BitVec.getLsbD_or, getLsbD_at64 1]
    exact Bool.or_true _
  intro h
  rw [h] at htop
  cases htop

/-! ## What looks at no program -/

section

variable (s : State) (slot : Nat) (f : Prog → Prog)

theorem State.grantFrom_onProg (ctx : Half) (r : BitVec 4) (win : Bool) (fuel : Nat) (va : Word) (len off : Nat) :
    (s.onProg slot f).grantFrom ctx r win fuel va len off = s.grantFrom ctx r win fuel va len off := by
  have hbyte : ∀ va, (s.onProg slot f).grantByte ctx va r win = s.grantByte ctx va r win := fun _ => rfl
  induction fuel generalizing va len off with
  | zero => rfl
  | succ fuel ih => simp only [State.grantFrom, hbyte, ih]

theorem State.rdBlocks_onProg (bs : List Block) : (s.onProg slot f).rdBlocks bs = s.rdBlocks bs := by
  have hrd : ∀ a n, (s.onProg slot f).rd a n = s.rd a n := fun _ _ => State.rd_congr fun _ _ => rfl
  simp only [State.rdBlocks, hrd]

theorem State.imageRead_onProg (p : Prog) (off n : Nat) : (s.onProg slot f).imageRead p off n = s.imageRead p off n := by
  simp only [State.imageRead, State.granted, State.grantFrom_onProg, State.rdBlocks_onProg]

theorem State.sampler_onProg (p : Prog) (imm : Nat) : (s.onProg slot f).sampler p imm = s.sampler p imm := by
  simp only [State.sampler, State.imageRead_onProg]

theorem State.missing_onProg (n cid k share : Nat) : (s.onProg slot f).missing n cid k share = s.missing n cid k share := rfl

theorem State.wr_onProg (d : List Byte) (a : Nat) : (s.onProg slot f).wr a d = (s.wr a d).onProg slot f := by
  have hbyte : ∀ (v : State) a b, (v.onProg slot f).wrByte a b = (v.wrByte a b).onProg slot f := fun v a b => by
    unfold State.wrByte
    split
    · rfl
    · show (if v.noChannel a = true then _ else _) = _
      split
      · rfl
      · rfl
  induction d generalizing s a with
  | nil => rfl
  | cons b r ih => rw [State.wr, State.wr, hbyte, ih]

theorem State.wrPhys_onProg (a : Nat) (d : List Byte) : (s.onProg slot f).wrPhys a d = (s.wrPhys a d).onProg slot f := by
  unfold State.wrPhys
  show (if a + d.length ≤ _ ∧ s.absentCh.isEmpty = true then _ else _) = _
  split
  · rfl
  · exact State.wr_onProg s slot f d a

theorem State.setLc_onProg (cid : Nat) (c : LCtx) : (s.onProg slot f).setLc cid c = (s.setLc cid c).onProg slot f := by
  unfold State.setLc
  show (if c.list.isEmpty = true ∨ (s.lc cid).list = c.list then _ else _) = _
  split
  · rfl
  · exact State.wrPhys_onProg { s with lctx := Assoc.set s.lctx cid c } slot f _ _

theorem State.onPage_onProg (i : Nat) (g : PageE → PageE) : (s.onProg slot f).onPage i g = (s.onPage i g).onProg slot f :=
  State.wrPhys_onProg { s with pages := Assoc.set s.pages i (g (s.page i)) } slot f _ _

/-- A fork reads and changes no program. -/
theorem State.ctxFork_onProg {src n : Nat} {t : State} {h : Word} (ht : s.ctxFork src n = some (t, h)) :
    (s.onProg slot f).ctxFork src n = some (t.onProg slot f, h) := by
  have hcounts : ∀ (l : List Nat) (v : State), l.foldl (fun s i => s.onPage i fun e => { e with refc := e.refc + 1 }) (v.onProg slot f) =
      (l.foldl (fun s i => s.onPage i fun e => { e with refc := e.refc + 1 }) v).onProg slot f := by
    intro l
    induction l with
    | nil => exact fun _ => rfl
    | cons i r ih =>
      intro v
      rw [List.foldl_cons, List.foldl_cons, State.onPage_onProg, ih]
  cases hg : s.freeCid with
  | none =>
    rw [State.ctxFork, hg] at ht
    cases ht
  | some g =>
    rw [State.ctxFork_eq hg, Option.some.injEq, Prod.mk.injEq] at ht
    obtain ⟨rfl, rfl⟩ := ht
    have hg' : (s.onProg slot f).freeCid = some g := hg
    rw [State.ctxFork_eq hg', ← hcounts, ← State.setLc_onProg]
    rfl

end

end Sys2Proof.Machine
end

section
/-!
Long instructions at their first start (R27, R38 to R40, R267, R285, R314, R348): the checks, APPEND and GENU.
-/

namespace Sys2Proof.Machine

open Sys2Proof Sys2Proof.Claims

/-! ## The first start -/

/-- A long instruction begins: it is the one in progress, with no step made. -/
def State.begins (s : State) (slot : Nat) (i : Instr) : State := s.onProg slot fun p => { p with long := some i, steps := 0, resume := false }

section

variable {s t : State} {p : Prog} {i : Instr} {f : State → Prog → Except LStop State}

theorem long_ok (h : ProgTurn s p) (hk : p.kind = 0) (hf : f (s.pass.begins p.slot i) { p with long := some i } = .ok t) : long i s f = .next t :=
  livik_ok h ((if_pos hk).trans hf)

theorem long_fault (h : ProgTurn s p) (hk : p.kind = 0) {c : Nat} (hf : f (s.pass.begins p.slot i) { p with long := some i } = fault c) :
    long i s f = agentFault s p c := livik_fault h ((if_pos hk).trans hf)

theorem State.prog_begins (hp : s.prog p.slot = some p) (i : Instr) :
    (s.begins p.slot i).prog p.slot = some { p with long := some i, steps := 0, resume := false } := by
  refine State.prog_onProg_self ?_ hp
  exact fun _ => rfl

end

section

variable {α β : Type} {x : Except LStop α} {g : α → Except LStop β}

theorem except_bind_ok {v : α} {r : Except LStop β} (hx : x = .ok v) (hg : g v = r) : (x >>= g) = r := by
  rw [hx]
  exact hg

theorem except_bind_fault {c : Nat} (hx : x = fault c) : (x >>= g) = fault c := by
  rw [hx]
  rfl

end

/-! ## The checks -/

theorem longInstructionFaults : LongInstructionFaults := by
  intro s p h hk a b c d i app sep
  have hok : ∀ {r : Word} {x : Nat} (ins : Instr), s.named r = some x → (s.pass.begins p.slot ins).ctxOf r = .ok x := fun _ hn => State.ctxOf_ok hn
  have hno : ∀ {r : Word} (ins : Instr), s.named r = none → (s.pass.begins p.slot ins).ctxOf r = fault 2 := fun _ hn => State.ctxOf_fault hn
  refine ⟨fun hn => ?_, fun hn => ⟨?_, ?_, ?_⟩, fun x => ⟨fun hn hlen => ⟨?_, ?_, ?_⟩, fun hn hlen hstop => ?_, fun hn hlen hv => ?_, fun hn hv => ?_⟩⟩
  · show execAppend a b s = _
    exact long_fault h hk (except_bind_fault (hno _ hn))
  · show execGenu a b c d i s = _
    exact long_fault h hk (except_bind_fault (hno _ hn))
  · show execScore a b c s = _
    exact long_fault h hk (except_bind_fault (hno _ hn))
  · show execChoose a b c app sep s = _
    exact long_fault h hk (except_bind_fault (hno _ hn))
  · show execGenu a b c d i s = _
    exact long_fault h hk (except_bind_ok (hok _ hn) (if_pos hlen))
  · show execScore a b c s = _
    exact long_fault h hk (except_bind_ok (hok _ hn) (if_pos hlen))
  · show execChoose a b c app sep s = _
    exact long_fault h hk (except_bind_ok (hok _ hn) (if_pos hlen))
  · show execGenu a b c d i s = _
    refine long_fault h hk (except_bind_ok (hok _ hn) ((if_neg hlen).trans ?_))
    split
    · rfl
    · rename_i hs
      cases hs.symm.trans hstop
  · show execScore a b c s = _
    have hbad : (!valid (s.vocab x) (p.gt c)) = true := by simp [hv]
    exact long_fault h hk (except_bind_ok (hok _ hn) ((if_neg hlen).trans (if_pos hbad)))
  · show execAppend a b s = _
    have hbad : (!valid (s.vocab x) (p.gt b)) = true := by simp [hv]
    exact long_fault h hk (except_bind_ok (hok _ hn) (if_pos hbad))

end Sys2Proof.Machine
end

section
/-!
Long instructions: retirement (R38, R65), the boundary before a step (R50, R54), a context that is held (R31), and the checks of APPEND and GENU (R39, R40).
-/

namespace Sys2Proof.Machine

open Sys2Proof Sys2Proof.Claims

/-! ## Retirement -/

/-- A long instruction has retired: its program has the registers of `r`, no progress, and the next PC. -/
def LongRetired (u : State) (slot : Nat) (r : Prog) : Prop := ∃ q, u.prog slot = some q ∧ q.long = none ∧ q.p0 = 0 ∧ q.p1 = 0 ∧ q.scratch = 0 ∧
  q.a = r.a ∧ q.c = r.c ∧ q.t = r.t ∧ q.pc = r.pc + 1 ∧ q.retn = r.retn + 1

theorem Stands.longRetired {slot : Nat} {s u : State} {p r : Prog} (h : Stands slot s u) (hp : s.prog slot = some p) (hs : p.state ≠ .parked) (hlong : p.long = none)
    (h0 : p.p0 = 0) (h1 : p.p1 = 0) (hscr : p.scratch = 0) (ha : p.a = r.a) (hc : p.c = r.c) (ht : p.t = r.t) (hpc : p.pc = r.pc + 1)
    (hretn : p.retn = r.retn + 1) : LongRetired u slot r := by
  obtain ⟨hseq, notices, hu⟩ := h p hp hs
  exact ⟨_, hu, hlong, h0, h1, hscr, ha, hc, ht, hpc, hretn⟩

/-- The end of a retirement: the record is written, what the program held is free, and parks that are over end. -/
theorem State.finish_retired {t : State} {slot : Nat} {p r : Prog} (hp : t.prog slot = some p) {g : Prog → Prog} (hg : ∀ q, (g q).slot = q.slot)
    (hs : (g p).state ≠ .parked) (hlong : (g p).long = none) (h0 : (g p).p0 = 0) (h1 : (g p).p1 = 0) (hscr : (g p).scratch = 0) (ha : (g p).a = r.a)
    (hc : (g p).c = r.c) (ht : (g p).t = r.t) (hpc : (g p).pc = r.pc + 1) (hretn : (g p).retn = r.retn + 1) (miss : Prop) [Decidable miss] (e : Vec) :
    LongRetired ((((if miss then (t.onProg slot g).notice slot 2 e else t.onProg slot g).unbusy slot).dropFrames slot).unpark) slot r := by
  have hnotice : Stands slot (t.onProg slot g) (if miss then (t.onProg slot g).notice slot 2 e else t.onProg slot g) := Stands.ite Stands.refl.notice Stands.refl
  have hfree := hnotice.same (w := (if miss then (t.onProg slot g).notice slot 2 e else t.onProg slot g).unbusy slot) rfl
  exact (hfree.tables SameTables.refl.dropFrames).unpark.longRetired (State.prog_onProg_self hg hp) hs hlong h0 h1 hscr ha hc ht hpc hretn

theorem State.longRetire_retired {s : State} {slot : Nat} {p : Prog} (hp : s.prog slot = some p) {f : Prog → Prog} (hf : ∀ q, (f q).slot = q.slot)
    (hs : (f p).state ≠ .parked) (hpc : (f p).pc = p.pc) (hretn : (f p).retn = p.retn) : LongRetired (s.longRetire slot f) slot (f p) := by
  have hwr : ∀ a d, (s.wrSys a d).progs = s.progs := fun a d => (SameTables.refl.wrSys (a := a) (d := d)).progs
  rw [State.longRetire, hp]
  dsimp only
  apply State.finish_retired (p := p)
  case hp =>
    refine (State.prog_congr ?_ slot).trans hp
    dsimp only
    exact hwr _ _
  case hg => exact fun q => hf q
  case hs => exact hs
  case hpc => exact congrArg (· + 1) hpc.symm
  case hretn => exact congrArg (· + 1) hretn.symm
  all_goals rfl

/-! ## A step is due -/

/-- A program whose next step lacks nothing is not touched at its boundary, nor is a context. -/
theorem State.boundary_due {s : State} {slot c : Nat} {p : Prog} (hp : s.prog slot = some p) (hd : p.doomed = false) (hc : p.stepCid = some c)
    (hlen : (s.lc c).len < Config.maxLength) (hm : s.missing slot c 1 Config.maxContexts = []) :
    (s.boundary slot).prog slot = some p ∧ ∀ c, (s.boundary slot).lc c = s.lc c := by
  have hdue : s.boundary slot = s.openWindow slot := by
    have hsane : ¬ p.doomed = true := by simp [hd]
    simp only [State.boundary, hp, if_neg hsane, hc, if_neg (Nat.not_le.mpr hlen), hm]
    rfl
  rw [hdue]
  refine ⟨(State.prog_congr (State.openWindow_progs s slot) slot).trans hp, fun c => ?_⟩
  rw [State.openWindow_frame]
  rfl

/-- The same where its progress has just been written. -/
theorem State.boundary_onProg_due {t : State} {slot c : Nat} {p : Prog} (hp : t.prog slot = some p) {g : Prog → Prog} (hg : ∀ q, (g q).slot = q.slot)
    (hd : (g p).doomed = false) (hc : (g p).stepCid = some c) (hlen : (t.lc c).len < Config.maxLength)
    (hm : t.missing slot c 1 Config.maxContexts = []) :
    ((t.onProg slot g).boundary slot).prog slot = some (g p) ∧ ∀ c, ((t.onProg slot g).boundary slot).lc c = t.lc c :=
  State.boundary_due (State.prog_onProg_self hg hp) hd hc hlen ((State.missing_onProg t slot g slot c 1 Config.maxContexts).trans hm)

/-! ## A context that is held (R31) -/

/-- A context is held for a program. -/
def State.holdFor (s : State) (x slot : Nat) : State := s.onLc x fun c => { c with busy := some slot }

section

variable (s : State) (x slot : Nat)

theorem State.hold_free {s : State} {x : Nat} (h : (s.lc x).busy = none) (slot : Nat) : s.hold x slot = .ok (s.holdFor x slot) := by
  rw [State.hold, h]
  rfl

theorem State.holdFor_eq : s.holdFor x slot = { s with lctx := Assoc.set s.lctx x { s.lc x with busy := some slot } } := State.setLc_sameList s rfl

theorem State.holdFor_onProg (n : Nat) (f : Prog → Prog) : (s.onProg n f).holdFor x slot = (s.holdFor x slot).onProg n f :=
  State.setLc_onProg s n f x { s.lc x with busy := some slot }

theorem State.holdFor_progs : (s.holdFor x slot).progs = s.progs := State.setLc_progs _ _ _

theorem State.lc_holdFor (c : Nat) : ∃ b, (s.holdFor x slot).lc c = { s.lc c with busy := b } := by
  by_cases h : c = x
  · subst h
    exact ⟨some slot, State.lc_setLc_self s c _⟩
  · exact ⟨(s.lc c).busy, State.lc_setLc_ne s _ h⟩

theorem State.len_holdFor (c : Nat) : ((s.holdFor x slot).lc c).len = (s.lc c).len := by
  obtain ⟨b, hb⟩ := s.lc_holdFor x slot c
  rw [hb]

/-- What a step lacks is not a matter of who holds a context. -/
theorem State.missing_holdFor (n c k share : Nat) : (s.holdFor x slot).missing n c k share = s.missing n c k share := by
  obtain ⟨b, hb⟩ := s.lc_holdFor x slot c
  have hframe := s.holdFor_eq x slot
  simp only [State.missing, State.need, hb]
  rw [hframe]
  rfl

end

/-! ## APPEND and GENU -/

/-- The instruction is in progress, with no step made, and its program READY (R38 to R40). -/
def LongBegun (u : State) (p : Prog) (i : Instr) (kind : Nat) : Prop := ∃ q, u.prog p.slot = some q ∧ q.state = .ready ∧ q.long = some i ∧ q.kind = kind ∧
  q.phase = 0 ∧ q.k = 0 ∧ q.pc = p.pc ∧ q.retn = p.retn

section

variable {s : State} {p : Prog} {x : Nat}

/-- A program that begins on a context it holds. -/
theorem State.prog_holdFor_begins (h : ProgTurn s p) (i : Instr) (x slot : Nat) : ((s.pass.begins p.slot i).holdFor x slot).prog p.slot =
    some { p with long := some i, steps := 0, resume := false } :=
  (State.prog_congr (State.holdFor_progs _ _ _) _).trans (State.prog_begins (s := s.pass) h.prog i)

/-- The state in which an instruction of a program has begun on a context that it holds. -/
def State.begunOn (s : State) (p : Prog) (i : Instr) (x : Nat) : State := (s.pass.begins p.slot i).holdFor x p.slot

theorem State.hold_begins (hb : (s.lc x).busy = none) (p : Prog) (i : Instr) : (s.pass.begins p.slot i).hold x p.slot = .ok (s.begunOn p i x) :=
  State.hold_free (s := s.pass.begins p.slot i) hb p.slot

theorem execAppend_checked (h : ProgTurn s p) (hk : p.kind = 0) {a b : LIdx} (hb : (s.lc x).busy = none) (hn : s.named (p.gc a) = some x)
    (hv : valid (s.vocab x) (p.gt b) = true) :
    (p.gt b = [] → execAppend a b s = .next ((s.begunOn p (.append a b) x).longRetire p.slot id)) ∧
    (p.gt b ≠ [] → execAppend a b s = .next (((s.begunOn p (.append a b) x).onProg p.slot fun q =>
        { q with p0 := progress 1 0 0 ((s.begunOn p (.append a b) x).lc x).len 0 0, p1 := 0 }).boundary p.slot)) := by
  have hctx : (s.pass.begins p.slot (.append a b)).ctxOf (p.gc a) = .ok x := State.ctxOf_ok hn
  have hvalid : ¬ (!valid (s.vocab x) (p.gt b)) = true := by simp [hv]
  refine ⟨fun he => ?_, fun he => ?_⟩
  · exact long_ok h hk (except_bind_ok hctx ((if_neg hvalid).trans (except_bind_ok (State.hold_begins hb p _) (if_pos (List.isEmpty_iff.mpr he)))))
  · exact long_ok h hk (except_bind_ok hctx ((if_neg hvalid).trans (except_bind_ok (State.hold_begins hb p _) (if_neg (mt List.isEmpty_iff.mp he)))))

theorem execGenu_checked (h : ProgTurn s p) (hk : p.kind = 0) {a b c d : LIdx} {i : Word32} {m : Sampler} {qs : List (List Word32)}
    (hb : (s.lc x).busy = none) (hn : s.named (p.gc b) = some x) (hlen : (s.lc x).len ≠ 0) (hstop : stopSeqs (s.vocab x) (p.gt c) = some qs)
    (hm : s.pass.sampler p i.toNat = .ok m) :
    (p.ga d = 0 → execGenu a b c d i s = .next (((s.begunOn p (.genu a b c d i) x).onProg p.slot fun q => q.st a []).longRetire p.slot id)) ∧
    (p.ga d ≠ 0 → execGenu a b c d i s = .next ((((s.begunOn p (.genu a b c d i) x).onProg p.slot fun q => q.st a []).onProg p.slot fun q =>
        { q with samp := some m, p0 := progress 2 0 0 (s.lc x).len 0 0, p1 := genuP1 [] [] (s.lc x).len }).boundary p.slot)) := by
  have hctx : (s.pass.begins p.slot (.genu a b c d i)).ctxOf (p.gc b) = .ok x := State.ctxOf_ok hn
  have hsamp : (s.pass.begins p.slot (.genu a b c d i)).sampler { p with long := some (.genu a b c d i) } i.toNat = .ok m :=
    (State.sampler_onProg s.pass p.slot _ _ _).trans hm
  have hstop' : stopSeqs ((s.pass.begins p.slot (.genu a b c d i)).vocab x) (({ p with long := some (.genu a b c d i) } : Prog).gt c) = some qs := hstop
  have hzero : (p.ga d).toNat = 0 ↔ p.ga d = 0 := BitVec.toNat_inj (y := 0)
  refine ⟨fun hd => ?_, fun hd => ?_⟩
  · refine long_ok h hk (except_bind_ok hctx ((if_neg hlen).trans ?_))
    rw [hstop']
    exact except_bind_ok hsamp (except_bind_ok (State.hold_begins hb p _) (if_pos (hzero.mpr hd)))
  · refine long_ok h hk (except_bind_ok hctx ((if_neg hlen).trans ?_))
    rw [hstop']
    exact except_bind_ok hsamp (except_bind_ok (State.hold_begins hb p _) (if_neg (mt hzero.mp hd)))

/-- A first start with a step to make: the progress word shows kind, phase 0 and K 0. -/
theorem LongBegun.of_progress {u : State} {q : Prog} {i : Instr} {kind : Nat} (hq : u.prog p.slot = some q) (hkind : kind < 8)
    (hlen : (s.lc x).len < Config.maxLength) (h0 : q.p0 = progress kind 0 0 (s.lc x).len 0 0) (hready : q.state = .ready) (hlong : q.long = some i)
    (hpc : q.pc = p.pc) (hretn : q.retn = p.retn) : LongBegun u p i kind := by
  have hbase : (s.lc x).len < 2 ^ 21 := Nat.lt_trans hlen (by decide)
  refine ⟨q, hq, hready, hlong, ?_, ?_, ?_, hpc, hretn⟩
  · rw [Prog.kind, h0]
    exact progress_kind hkind (by decide) (by decide) hbase (by decide) (by decide)
  · rw [Prog.phase, h0]
    exact progress_phase kind (by decide) (by decide) hbase (by decide) (by decide)
  · rw [Prog.k, h0]
    exact progress_k kind 0 (by decide) hbase (by decide) (by decide)

end

end Sys2Proof.Machine
end

section
/-!
The first starts of APPEND and GENU (R38 to R40, R267, R314): a part of O30.
-/

namespace Sys2Proof.Machine

open Sys2Proof Sys2Proof.Claims

section

variable {s : State} {p : Prog} {x : Nat}

theorem State.begunOn_prog (h : ProgTurn s p) (i : Instr) (x : Nat) :
    (s.begunOn p i x).prog p.slot = some { p with long := some i, steps := 0, resume := false } := State.prog_holdFor_begins h i x p.slot

theorem State.begunOn_len (i : Instr) (x c : Nat) : ((s.begunOn p i x).lc c).len = (s.lc c).len := State.len_holdFor _ x p.slot c

theorem State.begunOn_missing (i : Instr) (x n c k share : Nat) : (s.begunOn p i x).missing n c k share = s.pass.missing n c k share :=
  State.missing_holdFor _ x p.slot n c k share

/-- A program that is not parked retires. -/
theorem ProgTurn.not_parked (h : ProgTurn s p) : p.state ≠ .parked := by
  rw [h.ready]
  decide

theorem append_ends (h : ProgTurn s p) (i : Instr) (x : Nat) : LongRetired ((s.begunOn p i x).longRetire p.slot id) p.slot p :=
  State.longRetire_retired (s.begunOn_prog h i x) (f := id) (fun _ => rfl) h.not_parked rfl rfl

theorem genu_ends (h : ProgTurn s p) (i : Instr) (x : Nat) (a : LIdx) :
    LongRetired (((s.begunOn p i x).onProg p.slot fun q => q.st a []).longRetire p.slot id) p.slot (p.st a []) := by
  have hp := State.prog_onProg_self (f := fun q => q.st a []) (fun _ => rfl) (s.begunOn_prog h i x)
  exact State.longRetire_retired hp (f := id) (fun _ => rfl) h.not_parked rfl rfl

theorem append_begins (h : ProgTurn s p) {a b : LIdx} (hn : s.named (p.gc a) = some x) (hlen : (s.lc x).len < Config.maxLength)
    (hm : s.pass.missing p.slot x 1 Config.maxContexts = []) {w : Word} (hw : w = progress 1 0 0 (s.lc x).len 0 0) :
    LongBegun (((s.begunOn p (.append a b) x).onProg p.slot fun q => { q with p0 := w, p1 := 0 }).boundary p.slot) p (.append a b) 1 := by
  obtain ⟨hdue, -⟩ := State.boundary_onProg_due (s.begunOn_prog h (.append a b) x) (g := fun q => { q with p0 := w, p1 := 0 }) (fun _ => rfl) h.sane
    (congrArg some (State.live_of_named hn).2.symm) ((State.begunOn_len _ x x).trans_lt hlen) ((State.begunOn_missing _ x _ _ _ _).trans hm)
  exact LongBegun.of_progress hdue (by decide) hlen hw h.ready rfl rfl rfl

theorem genu_begins (h : ProgTurn s p) {a b c d : LIdx} {i : Word32} (m : Sampler) (hn : s.named (p.gc b) = some x) (hlen : (s.lc x).len < Config.maxLength)
    (hm : s.pass.missing p.slot x 1 Config.maxContexts = []) {w : Word} (hw : w = progress 2 0 0 (s.lc x).len 0 0) (w1 : Word) :
    LongBegun ((((s.begunOn p (.genu a b c d i) x).onProg p.slot fun q => q.st a []).onProg p.slot fun q =>
      { q with samp := some m, p0 := w, p1 := w1 }).boundary p.slot) p (.genu a b c d i) 2 := by
  have hp := State.prog_onProg_self (f := fun q => q.st a []) (fun _ => rfl) (s.begunOn_prog h (.genu a b c d i) x)
  have hfree := (State.missing_onProg (s.begunOn p (.genu a b c d i) x) p.slot (fun q => q.st a []) p.slot x 1 Config.maxContexts).trans
    ((State.begunOn_missing _ x _ _ _ _).trans hm)
  obtain ⟨hdue, -⟩ := State.boundary_onProg_due hp (g := fun q => { q with samp := some m, p0 := w, p1 := w1 }) (fun _ => rfl) h.sane
    (congrArg some (State.live_of_named hn).2.symm) ((State.begunOn_len _ x x).trans_lt hlen) hfree
  exact LongBegun.of_progress hdue (by decide) hlen hw h.ready rfl rfl rfl

end

theorem LongRetired.ended {u : State} {p r : Prog} (h : LongRetired u p.slot r) (hpc : r.pc = p.pc) (hretn : r.retn = p.retn) :
    ∃ q, u.prog p.slot = some q ∧ q.long = none ∧ q.p0 = 0 ∧ q.p1 = 0 ∧ q.pc = p.pc + 1 ∧ q.retn = p.retn + 1 := by
  obtain ⟨q, hq, hlong, h0, h1, -, -, -, -, hqpc, hqretn⟩ := h
  rw [hpc] at hqpc
  rw [hretn] at hqretn
  exact ⟨q, hq, hlong, h0, h1, hqpc, hqretn⟩

theorem longInstructionStart : LongInstructionStart := by
  intro s p h hk _ a b c d i x hbusy
  refine ⟨fun hn hv => ⟨fun he => ?_, fun n hne hfree => ?_⟩, fun m qs hn hlen hstop hm => ⟨fun hd => ?_, fun n hd hfree => ?_⟩⟩
  · exact ⟨_, (execAppend_checked h hk hbusy hn hv).1 he, (append_ends h _ x).ended rfl rfl⟩
  · obtain ⟨hmax, hmissing, -⟩ := hfree
    exact ⟨_, (execAppend_checked h hk hbusy hn hv).2 hne, append_begins h hn hmax hmissing (by rw [State.begunOn_len])⟩
  · exact ⟨_, (execGenu_checked h hk hbusy hn hlen hstop hm).1 hd, (genu_ends h _ x a).ended rfl rfl⟩
  · obtain ⟨hmax, hmissing, -⟩ := hfree
    exact ⟨_, (execGenu_checked h hk hbusy hn hlen hstop hm).2 hd, genu_begins h m hn hmax hmissing rfl _⟩

end Sys2Proof.Machine
end

section
/-!
SCORE and CHOOSE at their first start (R27, R35, R36, R285, R348): the fork that they step on, and a CHOOSE whose candidates are all empty. Parts of O30.
-/

namespace Sys2Proof.Machine

open Sys2Proof Sys2Proof.Claims

/-! ## The scratch context (R36) -/

/-- A fork's handle names a new context with the source's length and page list; the source stays. -/
theorem State.ctxFork_named {s t : State} {x slot : Nat} {h : Word} (hf : s.ctxFork x slot = some (t, h)) (hlive : (s.lc x).live = true) :
    h ≠ 0 ∧ t.progs = s.progs ∧ t.lc x = s.lc x ∧ (t.lc (bits h 17 0)).len = (s.lc x).len ∧ (t.lc (bits h 17 0)).list = (s.lc x).list := by
  cases hg : s.freeCid with
  | none =>
    rw [State.ctxFork, hg] at hf
    cases hf
  | some g =>
    obtain ⟨t', hfork, hnew⟩ := State.ctxFork_new hg x slot
    rw [hf] at hfork
    cases hfork
    have hne : x ≠ g := by
      rintro rfl
      rw [hnew.free] at hlive
      cases hlive
    rw [bits_handle_id (State.freeCid_spec hg).1]
    exact ⟨handle_ne_zero _ _, hnew.progs, hnew.others x hne, hnew.len, hnew.list⟩

/-- A program that steps on its scratch context, where the step lacks nothing, goes on with the fork as its context. -/
theorem State.boundary_scratch {s t v : State} {x slot : Nat} {h : Word} {q : Prog} (hf : s.ctxFork x slot = some (t, h)) (hlive : (s.lc x).live = true)
    (hlen : (s.lc x).len < Config.maxLength) (hv : v.prog slot = some q) (hlc : ∀ c, v.lc c = t.lc c)
    (hm : v.missing slot (bits h 17 0) 1 Config.maxContexts = []) {g : Prog → Prog} (hg : ∀ r, (g r).slot = r.slot) (hd : (g q).doomed = false)
    (hc : (g q).stepCid = some (bits h 17 0)) :
    ((v.onProg slot g).boundary slot).prog slot = some (g q) ∧ (((v.onProg slot g).boundary slot).lc (bits h 17 0)).len = (s.lc x).len ∧
      (((v.onProg slot g).boundary slot).lc (bits h 17 0)).list = (s.lc x).list := by
  obtain ⟨-, -, -, hflen, hflist⟩ := State.ctxFork_named hf hlive
  have hvlen : (v.lc (bits h 17 0)).len = (s.lc x).len := (congrArg LCtx.len (hlc _)).trans hflen
  obtain ⟨hprog, hall⟩ := State.boundary_onProg_due hv hg hd hc (hvlen.trans_lt hlen) hm
  rw [hall]
  exact ⟨hprog, hvlen, (congrArg LCtx.list (hlc _)).trans hflist⟩

/-! ## Candidates (R35) -/

theorem splitAt32_ne_nil (sep : Word32) (l : List Word32) : splitAt32 sep l ≠ [] := by
  cases l with
  | nil => exact List.cons_ne_nil _ _
  | cons y r =>
    rw [splitAt32]
    split
    · exact List.cons_ne_nil _ _
    · split
      · exact List.cons_ne_nil _ _
      · exact List.cons_ne_nil _ _

theorem splitAt32_separators {sep : Word32} {l : List Word32} (h : ∀ y ∈ l, y = sep) : splitAt32 sep l = List.replicate (l.length + 1) [] := by
  induction l with
  | nil => rfl
  | cons y r ih =>
    obtain ⟨rfl, hr⟩ := List.forall_mem_cons.mp h
    rw [splitAt32, ih hr]
    simp [List.replicate_succ]

/-- An id that is no separator stands in a candidate. -/
theorem mem_splitAt32 {sep y : Word32} (hy : y ≠ sep) {l : List Word32} (h : y ∈ l) : ∃ v ∈ splitAt32 sep l, y ∈ v := by
  induction l with
  | nil => cases h
  | cons z r ih =>
    rw [splitAt32]
    split
    · rename_i hnil
      exact absurd hnil (splitAt32_ne_nil sep r)
    · rename_i v vs hr
      rw [hr] at ih
      obtain rfl | hmem := List.mem_cons.mp h
      · rw [if_neg hy]
        exact ⟨_, List.mem_cons_self, List.mem_cons_self⟩
      · obtain ⟨w, hw, hyw⟩ := ih hmem
        split
        · exact ⟨w, List.mem_cons_of_mem _ hw, hyw⟩
        · obtain rfl | hw := List.mem_cons.mp hw
          · exact ⟨_, List.mem_cons_self, List.mem_cons_of_mem _ hyw⟩
          · exact ⟨w, List.mem_cons_of_mem _ hw, hyw⟩

theorem valid_of_candidates {V : Nat} {sep : BitVec 24} {l : List Word32} (h : ∀ v ∈ candidates sep l, valid V v = true) :
    valid V (l.filter fun y => decide (y ≠ sep.setWidth 32)) = true := by
  refine List.all_eq_true.mpr fun y hy => ?_
  obtain ⟨hmem, hne⟩ := List.mem_filter.mp hy
  obtain ⟨v, hv, hyv⟩ := mem_splitAt32 (of_decide_eq_true hne) hmem
  exact List.all_eq_true.mp (h v hv) y hyv

theorem valid_separators (V : Nat) {sep : Word32} {l : List Word32} (h : ∀ y ∈ l, y = sep) : valid V (l.filter fun y => decide (y ≠ sep)) = true := by
  have hnone : (l.filter fun y => decide (y ≠ sep)) = [] := List.filter_eq_nil_iff.mpr fun y hy => by simp [h y hy]
  rw [hnone]
  rfl

/-! ## Empty candidates -/

theorem Prog.ga_congr {p q : Prog} (h : q.a = p.a) (i : LIdx) : q.ga i = p.ga i := by rw [Prog.ga, Prog.ga, h]

theorem Prog.gc_congr {p q : Prog} (h : q.c = p.c) (i : LIdx) : q.gc i = p.gc i := by rw [Prog.gc, Prog.gc, h]

theorem Prog.ga_sa_zero (p : Prog) (i : LIdx) : (p.sa i 0).ga i = 0 := by
  rw [Prog.ga, Prog.sa, List.getElem?_set_self']
  cases p.a[i.toNat]? with
  | none => rfl
  | some => rfl

/-- An empty candidate's end: its score 0 is A's where it is better, there is no scratch context, and the progress word changes. -/
def Prog.passCandidate (a : LIdx) (better : Bool) (w : Word) (q : Prog) : Prog := { (if better then q.sa a q.p1 else q) with scratch := 0, p0 := w }

/-- Whether the score of the candidate at hand is better than the one in A. -/
def Prog.better (q : Prog) (a : LIdx) : Bool := decide (q.cand = 0) || FV.lt (fFP64.decode (q.ga a).toNat) (fFP64.decode q.p1.toNat)

section

variable {s : State} {p q : Prog} {a b : LIdx} {i : Nat} {better : Bool}

/-- Of empty candidates the first is the best. -/
theorem Prog.best_of_empties (hcand : q.cand = i) (hbest : q.best = 0) (h1 : q.p1 = 0) (ha : i = 0 ∨ q.ga a = 0) :
    (if q.better a then q.cand else q.best) = 0 := by
  obtain rfl | hz := ha
  · simp [hcand, hbest]
  · have hlt : FV.lt (fFP64.decode 0) (fFP64.decode 0) = false := by decide
    have hbetter : q.better a = decide (i = 0) := by
      rw [Prog.better, hz, h1, hcand]
      exact (congrArg _ hlt).trans (Bool.or_false _)
    rw [hbetter, hcand, hbest]
    simp

theorem Prog.passCandidate_slot (a : LIdx) (better : Bool) (w : Word) (q : Prog) : (q.passCandidate a better w).slot = q.slot := by
  cases better with
  | false => rfl
  | true => rfl

/-- A CHOOSE of program `p` stands at progress word `w` between empty candidates; a score, 0, stands in A where `scored` holds. -/
def ChoosesWith (s : State) (p : Prog) (a : LIdx) (w : Word) (scored : Prop) : Prop := ∃ q, s.prog p.slot = some q ∧ q.p0 = w ∧ q.p1 = 0 ∧ q.scratch = 0 ∧
  (scored → q.ga a = 0) ∧ q.a.set a.toNat 0 = p.a.set a.toNat 0 ∧ q.c = p.c ∧ q.t = p.t ∧ q.pc = p.pc ∧ q.retn = p.retn ∧ q.state = p.state

/-- Another progress word of an empty candidate, with what else a program keeps. -/
theorem ChoosesWith.writes {w v : Word} {scored : Prop} (h : ChoosesWith s p a w scored) {f : Prog → Prog} (hf : ∀ q, (f q).slot = q.slot)
    (hv : ∀ q, q.p0 = w → q.scratch = 0 → q.c = p.c → (f q).p0 = v ∧ (f q).p1 = 0 ∧ (f q).scratch = 0 ∧ (f q).a = q.a ∧ (f q).c = q.c ∧ (f q).t = q.t ∧
      (f q).pc = q.pc ∧ (f q).retn = q.retn ∧ (f q).state = q.state) : ChoosesWith (s.onProg p.slot f) p a v scored := by
  obtain ⟨q, hq, hw, -, hscr, hscored, ha, hc, ht, hpc, hretn, hstate⟩ := h
  obtain ⟨fv, f1, fscr, fa, fc, ft, fpc, fretn, fstate⟩ := hv q hw hscr hc
  exact ⟨f q, State.prog_onProg_self hf hq, fv, f1, fscr, fun hs => (Prog.ga_congr fa a).trans (hscored hs), (congrArg (List.set · a.toNat 0) fa).trans ha,
    fc.trans hc, ft.trans ht, fpc.trans hpc, fretn.trans hretn, fstate.trans hstate⟩

/-- A CHOOSE at candidate `i`, with its scratch context and the base length. -/
def Prog.opened (i base : Nat) (h : Word) (q : Prog) : Prog := { q with scratch := h, p0 := progress 4 0 0 base i q.best, p1 := 0 }

/-- An empty candidate is opened without a fork. -/
theorem State.openCandidate_empty {slot : Nat} (hq : s.prog slot = some q) {cands : List (List Word32)} {i : Nat} (hi : (cands[i]?).getD [] = []) (b : LIdx) :
    s.openCandidate slot b cands i = some (s.onProg slot (Prog.opened i 0 0)) := by
  rw [State.openCandidate, hq]
  exact if_pos (List.isEmpty_iff.mpr hi)

theorem Prog.best_of_word {w : Word} (h0 : q.p0 = w) (hw : bits w 11 4 = 0) : q.best = 0 := by rw [Prog.best, h0, hw]

theorem ChoosesWith.opens {w : Word} {scored : Prop} (h : ChoosesWith s p a w scored) (hw : bits w 11 4 = 0) {cands : List (List Word32)} {i : Nat}
    (hi : (cands[i]?).getD [] = []) (b : LIdx) :
    ∃ u, s.openCandidate p.slot b cands i = some u ∧ ChoosesWith u p a (progress 4 0 0 0 i 0) scored := by
  obtain ⟨q, hq, -⟩ := id h
  refine ⟨_, State.openCandidate_empty hq hi b, h.writes (fun _ => rfl) fun r hr _ _ => ⟨?_, rfl, rfl, rfl, rfl, rfl, rfl, rfl, rfl⟩⟩
  exact congrArg (progress 4 0 0 0 i) (Prog.best_of_word hr hw)

/-- Where the best candidate is candidate 0, the retirement writes A 0. -/
theorem ChoosesWith.retires {w : Word} {scored : Prop} (h : ChoosesWith s p a w scored) (hs : p.state ≠ .parked) {v : Prog → Word}
    (hv : ∀ q, q.p0 = w → v q = 0) : LongRetired (s.longRetire p.slot fun q => q.sa a (v q)) p.slot (p.sa a 0) := by
  obtain ⟨q, hq, hw, -, -, -, ha, hc, ht, hpc, hretn, hstate⟩ := h
  obtain ⟨r, hr, hlong, h0, h1, hscr, hra, hrc, hrt, hrpc, hrretn⟩ :=
    State.longRetire_retired hq (f := fun q => q.sa a (v q)) (fun _ => rfl) (fun e => hs (hstate.symm.trans e)) rfl rfl
  have hzero : (q.sa a (v q)).a = (q.a.set a.toNat 0) := congrArg (q.a.set a.toNat ·) (hv q hw)
  exact ⟨r, hr, hlong, h0, h1, hscr, hra.trans (hzero.trans ha), hrc.trans hc, hrt.trans ht, hrpc.trans (congrArg (· + 1) hpc), hrretn.trans (congrArg (· + 1) hretn)⟩

/-- The end of an empty candidate, and what comes after it: the next one, the append phase, or the retirement (R285). -/
theorem chooseOn_end {slot : Nat} {cands : List (List Word32)} {app : Bool} {best : Nat} (fuel : Nat) (hq : s.prog slot = some q) (hphase : q.phase = 0)
    (hempty : (cands[q.cand]?).getD [] = []) (hscr : q.scratch = 0) (hbest : best = if q.better a then q.cand else q.best) :
    let t := s.onProg slot (Prog.passCandidate a (q.better a) (progress 4 0 q.k q.base q.cand best))
    (∀ u, q.cand + 1 < cands.length →
      (t.onProg slot fun r => { r with p0 := progress 4 0 0 q.base (q.cand + 1) best, p1 := 0 }).openCandidate slot b cands (q.cand + 1) = some u →
      State.chooseOn slot a b app cands (fuel + 1) s = State.chooseOn slot a b app cands fuel u) ∧
    (¬ q.cand + 1 < cands.length → app = true → State.chooseOn slot a b app cands (fuel + 1) s = State.chooseOn slot a b app cands fuel
      (t.onProg slot fun r => { r with p0 := progress 4 1 0 (t.lc (bits (r.gc b) 17 0)).len q.cand best, p1 := 0 })) ∧
    (¬ q.cand + 1 < cands.length → app = false →
      State.chooseOn slot a b app cands (fuel + 1) s = t.longRetire slot fun r => r.sa a (BitVec.ofNat 64 best)) := by
  have hphase' : ¬ q.phase = 1 := by omega
  have hk : ¬ q.k < ((cands[q.cand]?).getD []).length := by
    rw [hempty]
    exact Nat.not_lt_zero _
  subst hbest
  rw [State.chooseOn, hq]
  dsimp only
  rw [if_neg hphase', if_neg hk, if_pos hscr]
  refine ⟨fun u hnext hu => (if_pos hnext).trans ?_, fun hlast happ => (if_neg hlast).trans (if_pos happ), fun hlast happ => (if_neg hlast).trans (if_neg ?_)⟩
  · split
    · rename_i hnone
      cases hnone.symm.trans hu
    · rename_i v hv
      cases hv.symm.trans hu
      rfl
  · rw [happ]
    decide

theorem chooseOn_appended {slot : Nat} {cands : List (List Word32)} {app : Bool} (fuel : Nat) (hq : s.prog slot = some q) (hphase : q.phase = 1)
    (hempty : (cands[q.best]?).getD [] = []) :
    State.chooseOn slot a b app cands (fuel + 1) s = s.longRetire slot fun r => r.sa a (BitVec.ofNat 64 r.best) := by
  have hk : ¬ q.k < ((cands[q.best]?).getD []).length := by
    rw [hempty]
    exact Nat.not_lt_zero _
  rw [State.chooseOn, hq]
  exact (if_pos hphase).trans (if_neg hk)

/-- The passage over an empty candidate scores it. -/
theorem ChoosesWith.passes {w v : Word} {scored : Prop} (h : ChoosesWith s p a w scored) (hq : s.prog p.slot = some q) (hscored : scored ∨ better = true) :
    ChoosesWith (s.onProg p.slot (Prog.passCandidate a better v)) p a v True := by
  obtain ⟨r, hr, -, h1, -, hzero, ha, hc, ht, hpc, hretn, hstate⟩ := h
  cases hq.symm.trans hr
  refine ⟨q.passCandidate a better v, State.prog_onProg_self (Prog.passCandidate_slot a better v) hq, rfl, ?_⟩
  cases better with
  | false => exact ⟨h1, rfl, fun _ => hzero (hscored.resolve_right Bool.false_ne_true), ha, hc, ht, hpc, hretn, hstate⟩
  | true =>
    refine ⟨h1, rfl, fun _ => ?_, (List.set_set _).trans ha, hc, ht, hpc, hretn, hstate⟩
    exact (congrArg (fun v => (q.sa a v).ga a) h1).trans (Prog.ga_sa_zero q a)

/-- What a CHOOSE between empty candidates finds in its progress word. -/
theorem ChoosesWith.at_empty (h : ChoosesWith s p a (progress 4 0 0 0 i 0) (i ≠ 0)) (hi : i < 2 ^ 8) :
    ∃ q, s.prog p.slot = some q ∧ q.cand = i ∧ q.phase = 0 ∧ (if q.better a then q.cand else q.best) = 0 ∧ q.scratch = 0 ∧
      ∀ v, ChoosesWith (s.onProg p.slot (Prog.passCandidate a (q.better a) v)) p a v True := by
  have h' := h
  obtain ⟨q, hq, h0, h1, hscr, hscored, -⟩ := h
  have hcand : q.cand = i := by
    rw [Prog.cand, h0]
    exact progress_cand 4 0 0 0 hi (by decide)
  have hphase : q.phase = 0 := by
    rw [Prog.phase, h0]
    exact progress_phase 4 (by decide) (by decide) (by decide) hi (by decide)
  have hbest : q.best = 0 := by
    rw [Prog.best, h0]
    exact progress_best 4 0 0 0 i (by decide)
  refine ⟨q, hq, hcand, hphase, Prog.best_of_empties hcand hbest h1 (or_iff_not_imp_left.mpr hscored), hscr, fun v => h'.passes hq ?_⟩
  by_cases hfirst : i = 0
  · exact .inr (by simp [Prog.better, hcand, hfirst])
  · exact .inl hfirst

theorem ChoosesWith.imp_scored {w : Word} (h : ChoosesWith s p a w True) (c : Prop) : ChoosesWith s p a w c := by
  obtain ⟨q, hq, h0, h1, hscr, hscored, hrest⟩ := h
  exact ⟨q, hq, h0, h1, hscr, fun _ => hscored trivial, hrest⟩

end

section

variable {p : Prog} {a : LIdx} {cands : List (List Word32)}

/-- A CHOOSE whose last candidate was empty retires, after an append phase with nothing to append where it has one. -/
theorem ChoosesWith.appends {t : State} {w : Word} {scored : Prop} (h : ChoosesWith t p a w scored) (hs : p.state ≠ .parked) {app : Bool} {b : LIdx} (fuel : Nat)
    (hempty : ∀ j : Nat, (cands[j]?).getD [] = []) (hphase : bits w 60 60 = 1) (hbest : bits w 11 4 = 0) :
    LongRetired (State.chooseOn p.slot a b app cands (fuel + 1) t) p.slot (p.sa a 0) := by
  have h' := h
  obtain ⟨q, hq, hw, -⟩ := h
  have hq1 : q.phase = 1 := by rw [Prog.phase, hw, hphase]
  rw [chooseOn_appended fuel hq hq1 (hempty _)]
  exact h'.retires hs fun r hr => congrArg (BitVec.ofNat 64) (Prog.best_of_word hr hbest)

/-- A CHOOSE whose candidates are all empty retires with A 0 (R285). -/
theorem ChoosesWith.all_empty (hs : p.state ≠ .parked) (app : Bool) (b : LIdx) (hempty : ∀ j : Nat, (cands[j]?).getD [] = []) (hlen : cands.length ≤ 256)
    {n i fuel : Nat} {s : State} (hn : i + n + 1 = cands.length) (hfuel : n + 2 ≤ fuel) (h : ChoosesWith s p a (progress 4 0 0 0 i 0) (i ≠ 0)) :
    LongRetired (State.chooseOn p.slot a b app cands fuel s) p.slot (p.sa a 0) := by
  induction n generalizing i fuel s with
  | zero =>
    obtain ⟨f, rfl⟩ : ∃ f, fuel = f + 2 := ⟨fuel - 2, by omega⟩
    obtain ⟨q, hq, hcand, hphase, hbest, hscr, hpass⟩ := h.at_empty (by omega)
    have hlast : ¬ q.cand + 1 < cands.length := by omega
    obtain ⟨-, hmore, hdone⟩ := chooseOn_end (b := b) (app := app) (f + 1) hq hphase (hempty _) hscr hbest.symm
    cases app with
    | false =>
      rw [hdone hlast rfl]
      exact (hpass _).retires hs fun _ _ => rfl
    | true =>
      rw [hmore hlast rfl]
      have hphased := (hpass (progress 4 0 q.k q.base q.cand 0)).writes (v := progress 4 1 0 (s.lc (bits (p.gc b) 17 0)).len q.cand 0)
        (f := fun r => { r with p0 := progress 4 1 0 (s.lc (bits (r.gc b) 17 0)).len q.cand 0, p1 := 0 }) (fun _ => rfl)
        fun r _ hr hc => ⟨?_, rfl, hr, rfl, rfl, rfl, rfl, rfl, rfl⟩
      · exact hphased.appends hs f hempty (progress_appending _ _ _ _ _) (progress_best _ _ _ _ _ (by decide))
      · rw [← Prog.gc_congr hc]
  | succ n ih =>
    obtain ⟨f, rfl⟩ : ∃ f, fuel = f + 1 := ⟨fuel - 1, by omega⟩
    obtain ⟨q, hq, hcand, hphase, hbest, hscr, hpass⟩ := h.at_empty (by omega)
    have hnext : q.cand + 1 < cands.length := by omega
    obtain ⟨hgo, -, -⟩ := chooseOn_end (b := b) (app := app) f hq hphase (hempty _) hscr hbest.symm
    have hword := (hpass (progress 4 0 q.k q.base q.cand 0)).writes (v := progress 4 0 0 q.base (q.cand + 1) 0)
      (f := fun r => { r with p0 := progress 4 0 0 q.base (q.cand + 1) 0, p1 := 0 }) (fun _ => rfl) fun _ _ hr _ => ⟨rfl, rfl, hr, rfl, rfl, rfl, rfl, rfl, rfl⟩
    obtain ⟨u, hu, hat⟩ := hword.opens (progress_best _ _ _ _ _ (by decide)) (hempty (q.cand + 1)) b
    rw [hgo u hnext hu]
    rw [hcand] at hat
    exact ih (by omega) (by omega) (hat.imp_scored _)

end

end Sys2Proof.Machine
end

section
/-!
SCORE and CHOOSE at their first start, and O30.
-/

namespace Sys2Proof.Machine

open Sys2Proof Sys2Proof.Claims

section

variable {s t : State} {p : Prog} {x : Nat} {h : Word}

/-! ## SCORE -/

theorem execScore_checked (hturn : ProgTurn s p) (hk : p.kind = 0) {a b c : LIdx} (hn : s.named (p.gc b) = some x) (hlen : (s.lc x).len ≠ 0)
    (hv : valid (s.vocab x) (p.gt c) = true) :
    (p.gt c = [] → execScore a b c s = .next ((s.pass.begins p.slot (.score a b c)).longRetire p.slot fun q => q.sa a 0)) ∧
    (p.gt c ≠ [] → s.pass.ctxFork x p.slot = some (t, h) → execScore a b c s = .next (((t.begins p.slot (.score a b c)).onProg p.slot fun q =>
        { q with scratch := h, p0 := progress 3 0 0 (t.lc x).len 0 0, p1 := 0 }).boundary p.slot)) := by
  have hctx : (s.pass.begins p.slot (.score a b c)).ctxOf (p.gc b) = .ok x := State.ctxOf_ok hn
  have hvalid : ¬ (!valid (s.vocab x) (p.gt c)) = true := by simp [hv]
  refine ⟨fun he => ?_, fun he hf => ?_⟩
  · exact long_ok hturn hk (except_bind_ok hctx ((if_neg hlen).trans ((if_neg hvalid).trans (if_pos (List.isEmpty_iff.mpr he)))))
  · have hfork : (s.pass.begins p.slot (.score a b c)).ctxFork x p.slot = some (t.begins p.slot (.score a b c), h) := State.ctxFork_onProg s.pass p.slot _ hf
    refine long_ok hturn hk (except_bind_ok hctx ((if_neg hlen).trans ((if_neg hvalid).trans ((if_neg (mt List.isEmpty_iff.mp he)).trans ?_))))
    rw [hfork]
    rfl

/-! ## CHOOSE -/

/-- What CHOOSE starts with: -Inf in A, and candidate 0. -/
def Prog.chooses (a : LIdx) (q : Prog) : Prog := { (q.sa a 0xFFF0000000000000) with p0 := progress 4 0 0 0 0 0, p1 := 0 }

/-- The state in which CHOOSE has begun. -/
def State.chooses (s : State) (slot : Nat) (i : Instr) (a : LIdx) : State := (s.begins slot i).onProg slot (Prog.chooses a)

/-- The state in which CHOOSE holds its context for the append phase, where it has one. -/
def State.holdsIf (s : State) (app : Bool) (x slot : Nat) : State := if app then s.holdFor x slot else s

theorem State.holdsIf_progs (app : Bool) : (s.holdsIf app x p.slot).progs = s.progs := by
  cases app with
  | false => rfl
  | true => exact State.holdFor_progs _ _ _

theorem State.lc_holdsIf (app : Bool) (c : Nat) : ∃ b, (s.holdsIf app x p.slot).lc c = { s.lc c with busy := b } := by
  cases app with
  | false => exact ⟨(s.lc c).busy, rfl⟩
  | true => exact State.lc_holdFor _ _ _ _

theorem State.hold_if_begins {app : Bool} (hb : app = true → (s.lc x).busy = none) (i : Instr) :
    (if app then (s.pass.begins p.slot i).hold x p.slot else .ok (s.pass.begins p.slot i)) = .ok ((s.pass.holdsIf app x p.slot).begins p.slot i) := by
  cases app with
  | false => rfl
  | true => exact (State.hold_begins (hb rfl) p i).trans (congrArg Except.ok (State.holdFor_onProg s.pass x p.slot p.slot _))

theorem execChoose_checked (hturn : ProgTurn s p) (hk : p.kind = 0) {a b c : LIdx} {app : Bool} {sep : BitVec 24} (hn : s.named (p.gc b) = some x)
    (hlen : (s.lc x).len ≠ 0) (hb : app = true → (s.lc x).busy = none) (hcount : (candidates sep (p.gt c)).length ≤ 256)
    (hv : valid (s.vocab x) ((p.gt c).filter fun y => decide (y ≠ sep.setWidth 32)) = true)
    (hopen : ((s.pass.holdsIf app x p.slot).chooses p.slot (.choose a b c app sep) a).openCandidate p.slot b (candidates sep (p.gt c)) 0 = some t) :
    execChoose a b c app sep s = .next (State.chooseOn p.slot a b app (candidates sep (p.gt c)) 600 t) := by
  have hctx : (s.pass.begins p.slot (.choose a b c app sep)).ctxOf (p.gc b) = .ok x := State.ctxOf_ok hn
  have hvalid : ¬ (!valid (s.vocab x) ((p.gt c).filter fun y => decide (y ≠ sep.setWidth 32))) = true := fun e => by
    rw [hv] at e
    cases e
  refine long_ok hturn hk (except_bind_ok hctx ((if_neg hlen).trans ((if_neg (Nat.not_lt.mpr hcount)).trans ((if_neg hvalid).trans
    (except_bind_ok (State.hold_if_begins hb _) ?_)))))
  dsimp only
  split
  · rename_i hnone
    cases hnone.symm.trans hopen
  · rename_i u hu
    cases hu.symm.trans hopen
    rfl

theorem State.chooses_prog (hturn : ProgTurn s p) (app : Bool) (i : Instr) (a : LIdx) {u : State} (hu : u.progs = (s.pass.holdsIf app x p.slot).progs) :
    (u.chooses p.slot i a).prog p.slot =
      some ({ p with long := some i, steps := 0, resume := false }.chooses a) := by
  have hp : u.prog p.slot = some p := (State.prog_congr (hu.trans (State.holdsIf_progs app)) p.slot).trans hturn.prog
  exact State.prog_onProg_self (f := Prog.chooses a) (fun _ => rfl) (State.prog_begins hp i)

theorem State.ctxFork_chooses {slot : Nat} (hf : s.ctxFork x slot = some (t, h)) (i : Instr) (a : LIdx) :
    (s.chooses slot i a).ctxFork x slot = some (t.chooses slot i a, h) := State.ctxFork_onProg (s.begins slot i) slot _ (State.ctxFork_onProg s slot _ hf)

/-- A candidate that is not empty is opened with a fork. -/
theorem State.openCandidate_fork {slot : Nat} {q : Prog} {b : LIdx} {cands : List (List Word32)} {i : Nat} (hq : s.prog slot = some q)
    (hi : (cands[i]?).getD [] ≠ []) (hx : bits (q.gc b) 17 0 = x) (hf : s.ctxFork x slot = some (t, h)) :
    s.openCandidate slot b cands i = some (t.onProg slot (Prog.opened i (t.lc x).len h)) := by
  subst hx
  rw [State.openCandidate, hq]
  refine (if_neg (mt List.isEmpty_iff.mp hi)).trans ?_
  dsimp only
  rw [hf]
  rfl

theorem chooseOn_step {slot : Nat} {q : Prog} {a b : LIdx} {app : Bool} {cands : List (List Word32)} (fuel : Nat) (hq : s.prog slot = some q)
    (hphase : q.phase = 0) (hk : q.k < ((cands[q.cand]?).getD []).length) : State.chooseOn slot a b app cands (fuel + 1) s = s.boundary slot := by
  have hphase' : ¬ q.phase = 1 := by omega
  rw [State.chooseOn, hq]
  exact (if_neg hphase').trans (if_pos hk)

/-! ## The first start of both -/

theorem Prog.doomed_congr {q : Prog} (hk : q.kreq = p.kreq) (hl : q.lost = p.lost) : q.doomed = p.doomed := by rw [Prog.doomed, Prog.doomed, hk, hl]

theorem Prog.stepCid_choose {q : Prog} {a b c : LIdx} {app : Bool} {sep : BitVec 24} (hl : q.long = some (.choose a b c app sep)) (hphase : bits q.p0 60 60 = 0)
    (hs : q.scratch ≠ 0) : q.stepCid = some (bits q.scratch 17 0) := by
  have hbit : ¬ q.p0.getLsbD 60 = true := by
    rw [BitVec.getLsbD, Nat.testBit_eq_decide_div_mod_eq]
    intro hone
    have htwo : q.p0.toNat / 2 ^ 60 % 2 ^ 1 = 0 := hphase
    have := of_decide_eq_true hone
    omega
  rw [Prog.stepCid, hl]
  exact (if_neg hbit).trans (if_neg hs)

theorem score_begins (hturn : ProgTurn s p) {a b c : LIdx} (hlive : (s.lc x).live = true) (hmax : (s.lc x).len < Config.maxLength)
    (hf : s.pass.ctxFork x p.slot = some (t, h)) (hm : t.missing p.slot (bits h 17 0) 1 Config.maxContexts = []) {w : Word} :
    let u := ((t.begins p.slot (.score a b c)).onProg p.slot fun q => { q with scratch := h, p0 := w, p1 := 0 }).boundary p.slot
    u.prog p.slot = some { p with long := some (.score a b c), steps := 0, resume := false, scratch := h, p0 := w, p1 := 0 } ∧
      (u.lc (bits h 17 0)).len = (s.lc x).len ∧ (u.lc (bits h 17 0)).list = (s.lc x).list := by
  obtain ⟨-, hprogs, -⟩ := State.ctxFork_named hf hlive
  have hp : t.prog p.slot = some p := (State.prog_congr hprogs p.slot).trans hturn.prog
  exact State.boundary_scratch hf hlive hmax (State.prog_begins hp _) (fun _ => rfl) ((State.missing_onProg t p.slot _ _ _ _ _).trans hm)
    (g := fun q => { q with scratch := h, p0 := w, p1 := 0 }) (fun _ => rfl) hturn.sane rfl

/-- What a CHOOSE shows whose first candidate has been opened with a fork. -/
def Prog.forked (p : Prog) (a : LIdx) (i : Instr) (h w : Word) : Prog :=
  { (p.sa a 0xFFF0000000000000) with long := some i, steps := 0, resume := false, scratch := h, p0 := w, p1 := 0 }

theorem Prog.opened_chooses (p : Prog) (a : LIdx) (i : Instr) (h : Word) (n : Nat) :
    ({ p with long := some i, steps := 0, resume := false }.chooses a).opened 0 n h = p.forked a i h (progress 4 0 0 n 0 0) := by
  have hbest := Prog.best_of_word (q := { p with long := some i, steps := 0, resume := false }.chooses a) rfl (progress_best 4 0 0 0 0 (by decide))
  rw [Prog.opened, hbest]
  rfl

theorem Prog.forked_first (p : Prog) (a : LIdx) (i : Instr) (h : Word) {n : Nat} (hn : n < 2 ^ 21) :
    (p.forked a i h (progress 4 0 0 n 0 0)).phase = 0 ∧ (p.forked a i h (progress 4 0 0 n 0 0)).k = 0 ∧ (p.forked a i h (progress 4 0 0 n 0 0)).cand = 0 :=
  ⟨progress_phase 4 (by decide) (by decide) hn (by decide) (by decide), progress_k 4 0 (by decide) hn (by decide) (by decide),
    progress_cand 4 0 0 n (by decide) (by decide)⟩

theorem State.chooses_lc (s : State) (slot : Nat) (i : Instr) (a : LIdx) (c : Nat) : (s.chooses slot i a).lc c = s.lc c := rfl

/-- The fork of a context that may be held leaves programs and the source's length. -/
theorem State.fork_holdsIf {app : Bool} (hlive : (s.lc x).live = true) (hf : (s.pass.holdsIf app x p.slot).ctxFork x p.slot = some (t, h)) :
    h ≠ 0 ∧ t.progs = (s.pass.holdsIf app x p.slot).progs ∧ (t.lc x).len = (s.lc x).len := by
  obtain ⟨k, hheld⟩ := s.pass.lc_holdsIf (p := p) (x := x) app x
  obtain ⟨hne, hprogs, hsource, -⟩ := State.ctxFork_named hf ((congrArg LCtx.live hheld).trans hlive)
  refine ⟨hne, hprogs, ?_⟩
  rw [hsource, hheld]
  rfl

theorem choose_begins (hturn : ProgTurn s p) {a b c : LIdx} {app : Bool} {sep : BitVec 24} (hlive : (s.lc x).live = true) (hmax : (s.lc x).len < Config.maxLength)
    (hf : (s.pass.holdsIf app x p.slot).ctxFork x p.slot = some (t, h)) (hm : t.missing p.slot (bits h 17 0) 1 Config.maxContexts = []) :
    let u := ((t.chooses p.slot (.choose a b c app sep) a).onProg p.slot (Prog.opened 0 (s.lc x).len h)).boundary p.slot
    u.prog p.slot = some (p.forked a (.choose a b c app sep) h (progress 4 0 0 (s.lc x).len 0 0)) ∧
      (u.lc (bits h 17 0)).len = (s.lc x).len ∧ (u.lc (bits h 17 0)).list = (s.lc x).list := by
  obtain ⟨k, hheld⟩ := s.pass.lc_holdsIf (p := p) (x := x) app x
  have hlen : ((s.pass.holdsIf app x p.slot).lc x).len = (s.lc x).len := by
    rw [hheld]
    rfl
  have hlist : ((s.pass.holdsIf app x p.slot).lc x).list = (s.lc x).list := by
    rw [hheld]
    rfl
  obtain ⟨hne, hprogs, -⟩ := State.fork_holdsIf hlive hf
  have hphase : bits (progress 4 0 0 (s.lc x).len 0 0) 60 60 = 0 :=
    progress_phase 4 (by decide) (by decide) (Nat.lt_trans hmax (by decide)) (by decide) (by decide)
  have hopened := Prog.opened_chooses p a (.choose a b c app sep) h (s.lc x).len
  generalize hw : progress 4 0 0 (s.lc x).len 0 0 = w at hphase hopened
  have hfree := ((State.missing_onProg (t.begins p.slot (.choose a b c app sep)) p.slot (Prog.chooses a) p.slot (bits h 17 0) 1 Config.maxContexts).trans
    (State.missing_onProg t p.slot _ _ _ _ _)).trans hm
  rw [← hopened, ← hlen, ← hlist]
  refine State.boundary_scratch hf ((congrArg LCtx.live hheld).trans hlive) (hlen.trans_lt hmax) (State.chooses_prog hturn app (.choose a b c app sep) a hprogs)
    (fun _ => rfl) hfree (fun _ => rfl) ?_ ?_
  · rw [hlen, hopened]
    exact (Prog.doomed_congr (p := p) rfl rfl).trans hturn.sane
  · rw [hlen, hopened]
    exact Prog.stepCid_choose rfl hphase hne

end

end Sys2Proof.Machine
end

section
/-!
O30: the first starts of SCORE and CHOOSE, and the three parts together.
-/

namespace Sys2Proof.Machine

open Sys2Proof Sys2Proof.Claims

section

variable {s t : State} {p : Prog} {x : Nat} {h : Word}

/-! ## CHOOSE with candidates that are all empty -/

theorem choose_ends (hturn : ProgTurn s p) (hk : p.kind = 0) {a b c : LIdx} {app : Bool} {sep : BitVec 24} (hn : s.named (p.gc b) = some x)
    (hlen : (s.lc x).len ≠ 0) (hb : app = true → (s.lc x).busy = none) (hcount : (p.gt c).length ≤ 255) (hall : ∀ y ∈ p.gt c, y = sep.setWidth 32) :
    ∃ u, execChoose a b c app sep s = .next u ∧ LongRetired u p.slot (p.sa a 0) := by
  have hcands : candidates sep (p.gt c) = List.replicate ((p.gt c).length + 1) [] := splitAt32_separators hall
  have hsize : (candidates sep (p.gt c)).length = (p.gt c).length + 1 := by rw [hcands, List.length_replicate]
  have hempty : ∀ j : Nat, ((candidates sep (p.gt c))[j]?).getD [] = [] := fun j => by
    rw [hcands, List.getElem?_replicate]
    split
    · rfl
    · rfl
  have hprog := State.chooses_prog hturn app (.choose a b c app sep) a (u := s.pass.holdsIf app x p.slot) rfl
  have hbest := Prog.best_of_word (q := { p with long := some (.choose a b c app sep), steps := 0, resume := false }.chooses a) rfl
    (progress_best 4 0 0 0 0 (by decide))
  refine ⟨_, execChoose_checked hturn hk hn hlen hb (by omega) (valid_separators _ hall) (State.openCandidate_empty hprog (hempty 0) b), ?_⟩
  refine ChoosesWith.all_empty (i := 0) (n := (p.gt c).length) hturn.not_parked app b hempty (by omega) (by omega) (by omega)
    ⟨_, State.prog_onProg_self (f := Prog.opened 0 0 0) (fun _ => rfl) hprog, ?_, rfl, rfl, fun hne => absurd rfl hne, List.set_set _, rfl, rfl, rfl, rfl, rfl⟩
  exact congrArg (progress 4 0 0 0 0) hbest

/-! ## CHOOSE with a first candidate that is not empty -/

theorem choose_steps (hturn : ProgTurn s p) (hk : p.kind = 0) {a b c : LIdx} {app : Bool} {sep : BitVec 24} (hn : s.named (p.gc b) = some x)
    (hlen : (s.lc x).len ≠ 0) (hb : app = true → (s.lc x).busy = none) {w : List Word32} {rest : List (List Word32)}
    (hcands : candidates sep (p.gt c) = w :: rest) (hw : w ≠ []) (hcount : rest.length ≤ 255) (hv : ∀ v ∈ candidates sep (p.gt c), valid (s.vocab x) v = true)
    (hmax : (s.lc x).len < Config.maxLength) (hf : (s.pass.holdsIf app x p.slot).ctxFork x p.slot = some (t, h))
    (hm : t.missing p.slot (bits h 17 0) 1 Config.maxContexts = []) :
    ∃ u, execChoose a b c app sep s = .next u ∧ u.prog p.slot = some (p.forked a (.choose a b c app sep) h (progress 4 0 0 (s.lc x).len 0 0)) ∧
      (u.lc (bits h 17 0)).len = (s.lc x).len ∧ (u.lc (bits h 17 0)).list = (s.lc x).list := by
  have hsize : (candidates sep (p.gt c)).length = rest.length + 1 := by rw [hcands, List.length_cons]
  have hfirst : ((candidates sep (p.gt c))[0]?).getD [] = w := by
    rw [hcands]
    rfl
  obtain ⟨hlive, hid⟩ := State.live_of_named hn
  obtain ⟨-, hprogs, hsource⟩ := State.fork_holdsIf hlive hf
  have hq := State.chooses_prog hturn app (.choose a b c app sep) a hprogs
  have hopen := State.openCandidate_fork (cands := candidates sep (p.gt c)) (i := 0) (b := b)
    (State.chooses_prog hturn app (.choose a b c app sep) a (u := s.pass.holdsIf app x p.slot) rfl) (by rwa [hfirst]) hid.symm
    (State.ctxFork_chooses hf (.choose a b c app sep) a)
  have hopened := (State.prog_onProg_self (f := Prog.opened 0 (s.lc x).len h) (fun _ => rfl) hq).trans (congrArg some (Prog.opened_chooses p a _ h _))
  obtain ⟨hphase, hk0, hcand⟩ := Prog.forked_first p a (.choose a b c app sep) h (Nat.lt_trans hmax (by decide))
  have hwork : 0 < w.length := List.length_pos_iff.mpr hw
  have hdue := chooseOn_step (a := a) (b := b) (app := app) (cands := candidates sep (p.gt c)) 599 hopened hphase (by rwa [hk0, hcand, hfirst])
  refine ⟨_, (execChoose_checked hturn hk hn hlen hb (by omega) (valid_of_candidates hv) hopen), ?_⟩
  rw [State.chooses_lc, hsource, hdue]
  exact choose_begins hturn hlive hmax hf hm

end

theorem forkingInstructionStart : ForkingInstructionStart := by
  intro s p hturn hk _ a b c x hn hlen
  have hlive := (State.live_of_named hn).1
  refine ⟨fun he => ?_, fun t h hne hv hmax hready => ?_, fun app sep hbusy => ⟨fun hcount hall => ?_, fun t h w rest hcands hw hcount hv hmax hready => ?_⟩⟩
  · have hv : valid (s.vocab x) (p.gt c) = true := by
      rw [he]
      rfl
    exact ⟨_, (execScore_checked (t := s) (h := 0) hturn hk hn hlen hv).1 he,
      State.longRetire_retired (State.prog_begins (s := s.pass) hturn.prog _) (f := fun q => q.sa a 0) (fun _ => rfl) hturn.not_parked rfl rfl⟩
  · obtain ⟨hf, hm⟩ := hready
    obtain ⟨hu, hlen', hlist⟩ := score_begins hturn hlive hmax hf hm (a := a) (b := b) (c := c) (w := progress 3 0 0 (t.lc x).len 0 0)
    obtain ⟨-, -, hsource, -⟩ := State.ctxFork_named hf hlive
    exact ⟨_, (execScore_checked hturn hk hn hlen hv).2 hne hf, _, hu, hturn.ready, rfl, congrArg (fun c : LCtx => progress 3 0 0 c.len 0 0) hsource,
      rfl, rfl, rfl, rfl, rfl, rfl, rfl, hlen', hlist⟩
  · exact choose_ends hturn hk hn hlen hbusy hcount hall
  · obtain ⟨hf, hm⟩ := hready
    obtain ⟨u, hu, hprog, hlen', hlist⟩ := choose_steps hturn hk hn hlen hbusy hcands hw hcount hv hmax hf hm
    exact ⟨u, hu, _, hprog, hturn.ready, rfl, rfl, rfl, rfl, rfl, rfl, rfl, rfl, rfl, hlen', hlist⟩

/-- Settles O30: each long instruction runs its checks, holds or forks its context, and then retires at once or stands at the boundary before its first
step with its progress word written. -/
theorem longInstructionResult : Obligations.LongInstructionResult := ⟨longInstructionStart, forkingInstructionStart, longInstructionFaults⟩

end Sys2Proof.Machine
end

section
/-!
The end of parks, and the planner's moves of context pages (R52, R53, R77, R245): parts of O51.
-/

namespace Sys2Proof.Machine

open Sys2Proof Sys2Proof.Claims

/-! ## The end of parks -/

/-- From `s` to `u` nothing but programs, batching windows and the count of ids differs. -/
def OnlyQueues (s u : State) : Prop := u = { s with progs := u.progs, mangles := u.mangles, nextId := u.nextId }

theorem OnlyQueues.trans {s u w : State} (h : OnlyQueues s u) (k : OnlyQueues u w) : OnlyQueues s w := by
  unfold OnlyQueues at h k ⊢
  rw [k, h]

theorem OnlyQueues.setPState (s : State) (slot : Nat) (st : PState) (tail : Bool) : OnlyQueues s (s.setPState slot st tail) := by
  unfold OnlyQueues
  rw [State.setPState_frame]

theorem OnlyQueues.openWindow (s : State) (slot : Nat) : OnlyQueues s (s.openWindow slot) := by
  unfold OnlyQueues
  rw [State.openWindow_frame]

theorem OnlyQueues.unpark (s : State) : OnlyQueues s s.unpark := by
  refine List.foldlRecOn (motive := OnlyQueues s) s.progs _ rfl fun v hv q _ => ?_
  split
  · exact hv
  · rename_i r _
    split
    · have hpark : OnlyQueues v (v.onProg r.slot fun p => { p with park := [] }) := rfl
      exact ((hv.trans hpark).trans (OnlyQueues.setPState _ _ _ _)).trans (OnlyQueues.openWindow _ _)
    · exact hv

/-- What is no queue, window or id count reads behind the end of parks as before. -/
theorem State.unpark_field {α : Type} (f : State → α) (s : State) (hf : ∀ progs mangles nextId, f { s with progs := progs, mangles := mangles, nextId := nextId } = f s) :
    f s.unpark = f s := by
  have h : s.unpark = _ := OnlyQueues.unpark s
  rw [h, hf]

theorem State.page_unpark (s : State) (i : Nat) : s.unpark.page i = s.page i := s.unpark_field (fun u => u.page i) fun _ _ _ => rfl

theorem State.rd_unpark (s : State) (a n : Nat) : s.unpark.rd a n = s.rd a n :=
  s.unpark_field (fun u => u.rd a n) fun _ _ _ => State.rd_congr fun _ _ => rfl

theorem State.unpark_empty {s : State} (h : s.progs = []) : s.unpark = s := by
  unfold State.unpark
  rw [h]
  rfl

/-! ## The planner's moves -/

section

variable {s : State} {i frame n : Nat}

/-- A run of frames that is taken is free no more. -/
theorem State.frame_taken (s : State) (h : 0 < n) : frame ∉ (s.takeRun frame n).freeFrames := by
  simp only [State.takeRun, List.mem_filter, decide_eq_true_eq]
  omega

theorem execResidencyPlan_reserve {slot : Nat} (hnext : s.nextFrame = some (slot, n)) (hrun : s.freeRun frame n = true) :
    execResidencyPlan (.reserve slot frame) s =
      .next ({ s.takeRun frame n with reserved := s.reserved ++ [(slot, frame, n)] } : State).unpark := by
  rw [execResidencyPlan, hnext]
  exact if_pos ⟨rfl, hrun⟩

theorem reserve_result {slot : Nat} (hnext : s.nextFrame = some (slot, n)) (hn : 0 < n) (hrun : s.freeRun frame n = true) :
    ∃ u, exec (.residencyPlan (.reserve slot frame)) s = .next u ∧ (slot, frame, n) ∈ u.reserved ∧ frame ∉ u.freeFrames := by
  refine ⟨_, execResidencyPlan_reserve hnext hrun, ?_, ?_⟩
  · rw [State.unpark_field State.reserved _ fun _ _ _ => rfl]
    simp
  · rw [State.unpark_field State.freeFrames _ fun _ _ _ => rfl]
    exact s.frame_taken hn

/-- A size that is wanted and has no free frame makes frames short (R53). -/
theorem State.framesShort_of (h : s.freeFrames = [] ∨ (∃ slot n, s.nextFrame = some (slot, n) ∧ s.frameFree n = false) ∨
    ∃ k, s.nextPage = some k ∧ s.frameFree (s.pageUnits (s.page k).img) = false) : s.framesShort = true := by
  rw [State.framesShort, Bool.or_eq_true]
  rcases h with h | ⟨slot, n, hnext, hfree⟩ | ⟨k, hnext, hfree⟩
  · exact .inl (List.isEmpty_iff.mpr h)
  · have hwant : (slot, n) ∈ s.openWants := List.mem_of_mem_head? hnext
    refine .inr (List.any_eq_true.mpr ⟨n, ?_, by rw [hfree]; rfl⟩)
    exact List.mem_append_left _ (List.mem_map_of_mem hwant)
  · refine .inr (List.any_eq_true.mpr ⟨s.pageUnits (s.page k).img, ?_, by rw [hfree]; rfl⟩)
    rw [hnext]
    exact List.mem_append_right _ (List.mem_singleton.mpr rfl)

theorem State.hostFree_iff {h units : Nat} : s.hostFree h units = true ↔ (∀ k, k < units → h + k ∉ s.usedHost) ∧ h + units ≤ s.hostSlots := by
  simp [State.hostFree]

theorem fold_result {h : Nat} (hshort : s.framesShort = true) (hfold : s.foldable i = true) (hold : s.oldest s.foldable i = true)
    (hfree : s.hostFree h (s.pageUnits (s.page i).img) = true) :
    ∃ u, exec (.residencyPlan (.fold i h)) s = .next u ∧ u.page i = { s.page i with res := 3, move := 0, target := h } ∧
      ∀ k, k < s.pageUnits (s.page i).img → h + k ∈ u.usedHost := by
  refine ⟨_, if_pos ⟨hshort, hfold, hold, hfree⟩, State.page_setPage_self _ _ _, fun k hk => ?_⟩
  rw [State.setPage, State.wrPhys_frame]
  exact List.mem_append_right _ (List.mem_map.mpr ⟨k, List.mem_range.mpr hk, rfl⟩)

theorem shelve_result {k : Nat} (hfull : s.slotsFull s.foldUnits = true) (hshelve : s.shelvable i = true) (hold : s.oldest s.shelvable i = true)
    (hfree : k ∉ s.usedBlocks) (hk : k < 2 ^ 40) :
    ∃ u, exec (.residencyPlan (.shelve i k)) s = .next u ∧ u.page i = { s.page i with res := 3, move := 1, target := k } ∧ k ∈ u.usedBlocks := by
  refine ⟨_, if_pos ⟨hfull, hshelve, hold, by simpa using hfree, hk⟩, State.page_setPage_self _ _ _, ?_⟩
  rw [State.setPage, State.wrPhys_frame]
  exact List.mem_append_right _ (List.mem_singleton.mpr rfl)

theorem unfold_result (hnext : s.nextPage = some i) (hrun : s.freeRun frame (s.pageUnits (s.page i).img) = true) :
    ∃ u, exec (.residencyPlan (.unfold i frame)) s = .next u ∧
      u.page i = { s.page i with res := 3, move := (s.page i).res + 1, target := frame, retried := false } :=
  ⟨_, if_pos ⟨hnext, hrun⟩, State.page_setPage_self _ _ _⟩

end
end Sys2Proof.Machine
end

section
/-!
The ends of the moves of context pages, pages that nothing names, detaches, and lost pages (R72, R74, R76, R77, R245): the parts of O51.
-/

namespace Sys2Proof.Machine

open Sys2Proof Sys2Proof.Claims

section

variable {s : State} {i frame n : Nat}

/-! ## The end of a move -/

/-- An entry that is still counted stands behind the end of its move as it was written. -/
theorem State.page_released {t : State} {e : PageE} (h : t.page i = e) (hc : e.refc ≠ 0) : (t.release i).unpark.page i = e := by
  rw [State.release_counted (h ▸ hc), State.page_unpark, h]

theorem State.hostMem_hostWr_below (d : List Byte) (s : State) {a x : Nat} (h : x < a) : Cells.get (s.hostWr a d).hostMem x = Cells.get s.hostMem x := by
  induction d generalizing s a with
  | nil => rfl
  | cons b r ih => rw [State.hostWr, ih _ (Nat.lt_succ_of_lt h), Cells.get_put_ne _ _ _ (Nat.ne_of_lt h)]

/-- Host memory reads as it was written. -/
theorem State.hostRd_hostWr (d : List Byte) (s : State) (a : Nat) : (s.hostWr a d).hostRd a d.length = d := by
  induction d generalizing s a with
  | nil => rfl
  | cons b r ih =>
    rw [List.length_cons, State.hostRd, State.hostWr, ih, State.hostMem_hostWr_below _ _ (Nat.lt_succ_self a)]
    exact congrArg (· :: r) (Cells.getD_put_self a b)

theorem State.length_hostRd (s : State) (a n : Nat) : (s.hostRd a n).length = n := by
  induction n generalizing a with
  | zero => rfl
  | succ n ih => rw [State.hostRd, List.length_cons, ih]

theorem State.hostRd_congr {u : State} (h : u.hostMem = s.hostMem) (a n : Nat) : u.hostRd a n = s.hostRd a n := by
  induction n generalizing a with
  | zero => rfl
  | succ n ih => rw [State.hostRd, State.hostRd, h, ih]

theorem State.toHost_one {slot a : Nat} (h : hostSlotAddr s.hostRegions slot = some a) :
    s.toHost frame slot 1 = s.hostWr a (s.rd (frame * 65536) 65536) := by
  rw [State.toHost, List.range_one, List.foldl_cons, List.foldl_nil, Nat.add_zero, Nat.add_zero, h]

/-- The bytes that folding a page of one unit takes to a host slot (R77). -/
theorem State.hostRd_toHost {slot a : Nat} (h : hostSlotAddr s.hostRegions slot = some a) :
    (s.toHost frame slot 1).hostRd a 65536 = s.rd (frame * 65536) 65536 := by
  have hread := State.hostRd_hostWr (s.rd (frame * 65536) 65536) s a
  rw [State.length_rd, ← State.toHost_one h] at hread
  exact hread

theorem State.length_hostBytes_one (s : State) (slot : Nat) : (s.hostBytes slot 1).length = 65536 := by
  simp only [State.hostBytes, List.range_one, List.flatMap_cons, List.flatMap_nil, List.append_nil]
  split
  · exact State.length_hostRd _ _ _
  · exact List.length_replicate

theorem State.handFrame_frame (s : State) (frame units : Nat) :
    s.handFrame frame units = { s with freeFrames := (s.handFrame frame units).freeFrames, reserved := (s.handFrame frame units).reserved } := by
  unfold State.handFrame
  split
  · rfl
  · split
    · rfl
    · rfl

/-- The state in which a page's entry shows that its move has ended in a tier. -/
def State.arrived (s : State) (i tier : Nat) : State := s.setPage i { s.page i with res := tier, loc := (s.page i).target }

/-- The entry of a page that is still counted, behind the end of its move. -/
theorem State.page_arrived {t u : State} {tier : Nat} (hu : u.pages = (t.arrived i tier).pages) (ht : t.page i = s.page i) (hc : 0 < (s.page i).refc) :
    (u.release i).unpark.page i = { s.page i with res := tier, loc := (s.page i).target } := by
  refine State.page_released ?_ (Nat.ne_of_gt hc)
  rw [State.page_congr hu, State.arrived, State.page_setPage_self, ht]

theorem State.hostWr_pages (d : List Byte) (s : State) (a : Nat) : (s.hostWr a d).pages = s.pages := by
  induction d generalizing s a with
  | nil => rfl
  | cons b r ih => rw [State.hostWr, ih]

theorem State.toHost_pages (s : State) (frame slot units : Nat) : (s.toHost frame slot units).pages = s.pages := by
  refine List.foldlRecOn (motive := fun v : State => v.pages = s.pages) (List.range units) _ rfl fun v hv k _ => ?_
  split
  · exact (State.hostWr_pages _ v _).trans hv
  · exact hv

theorem pageFoldComplete_result (hres : (s.page i).res = 3) (hmove : (s.page i).move = 0) (hc : 0 < (s.page i).refc) :
    ∃ u, exec (.pageFoldComplete i) s = .next u ∧ u.page i = { s.page i with res := 1, loc := (s.page i).target } ∧
      ∀ a, s.pageUnits (s.page i).img = 1 → hostSlotAddr s.hostRegions (s.page i).target = some a →
        u.hostRd a 65536 = s.rd ((s.page i).loc * 65536) 65536 := by
  obtain ⟨t, ht⟩ : ∃ t, t = s.toHost (s.page i).loc (s.page i).target (s.pageUnits (s.page i).img) := ⟨_, rfl⟩
  have hpage : t.page i = s.page i := by
    rw [ht, State.page_congr (State.toHost_pages _ _ _ _)]
  obtain ⟨v, hv⟩ : ∃ v, v = (t.arrived i 1).handFrame (s.page i).loc (s.pageUnits (s.page i).img) := ⟨_, rfl⟩
  have hexec : exec (.pageFoldComplete i) s = .next (v.release i).unpark := by
    rw [hv, State.arrived, hpage, ht]
    exact if_neg (by omega)
  have hpages : v.pages = (t.arrived i 1).pages := by
    rw [hv]
    exact State.handFrame_pages _ _ _
  refine ⟨_, hexec, State.page_arrived hpages hpage hc, fun a hunits hslot => ?_⟩
  have hhost : (v.release i).unpark.hostMem = t.hostMem := by
    have hcounted : (v.page i).refc ≠ 0 := by
      rw [State.page_congr hpages, State.arrived, State.page_setPage_self, hpage]
      exact Nat.ne_of_gt hc
    rw [State.unpark_field State.hostMem _ fun _ _ _ => rfl, State.release_counted hcounted, hv, State.handFrame_frame, State.arrived, State.setPage,
      State.wrPhys_frame]
  rw [State.hostRd_congr hhost, ht, hunits]
  exact State.hostRd_toHost hslot

theorem State.arrived_counted {t : State} {tier : Nat} (ht : t.page i = s.page i) (hc : 0 < (s.page i).refc) :
    (t.arrived i tier).release i = t.arrived i tier := by
  refine State.release_counted ?_
  rw [State.arrived, State.page_setPage_self, ht]
  exact Nat.ne_of_gt hc

/-- The state in which a page's bytes stand on blocks and its host slots are free. -/
def State.shelved (s : State) (i : Nat) : State :=
  { s with shelf := Assoc.set s.shelf (s.page i).target (s.hostBytes (s.page i).loc (s.pageUnits (s.page i).img)),
           usedHost := s.usedHost.filter fun x => decide (x < (s.page i).loc ∨ (s.page i).loc + s.pageUnits (s.page i).img ≤ x) }

theorem pageShelveComplete_result (hres : (s.page i).res = 3) (hmove : (s.page i).move = 1) (hc : 0 < (s.page i).refc) :
    ∃ u, exec (.pageShelveComplete i) s = .next u ∧ u.page i = { s.page i with res := 2, loc := (s.page i).target } ∧
      Assoc.get u.shelf (s.page i).target = some (s.hostBytes (s.page i).loc (s.pageUnits (s.page i).img)) := by
  have hexec : exec (.pageShelveComplete i) s = .next (((s.shelved i).arrived i 2).release i).unpark := if_neg (by omega)
  refine ⟨_, hexec, State.page_arrived (t := s.shelved i) rfl rfl hc, ?_⟩
  rw [State.unpark_field State.shelf _ fun _ _ _ => rfl, State.arrived_counted (t := s.shelved i) rfl hc, State.arrived, State.setPage, State.wrPhys_frame]
  exact Assoc_get_set_self _ _ _

/-- The state in which a page's bytes have left host memory for its frame. -/
def State.broughtIn (s : State) (i : Nat) : State :=
  ({ s with usedHost := s.usedHost.filter fun x => decide (x < (s.page i).loc ∨ (s.page i).loc + s.pageUnits (s.page i).img ≤ x) } : State).wrPhys
    ((s.page i).target * 65536) (s.hostBytes (s.page i).loc (s.pageUnits (s.page i).img))

theorem pageUnfoldComplete_result (hres : (s.page i).res = 3) (hmove : (s.page i).move = 2) (hc : 0 < (s.page i).refc) :
    ∃ u, exec (.pageUnfoldComplete i) s = .next u ∧ u.page i = { s.page i with res := 0, loc := (s.page i).target } ∧
      (s.pageUnits (s.page i).img = 1 → inRam s ((s.page i).target * 65536) 65536 →
        (((s.page i).target + 1) * 65536 ≤ s.ptBase + 16 * i ∨ s.ptBase + 16 * i + 16 ≤ (s.page i).target * 65536) →
        u.rd ((s.page i).target * 65536) 65536 = s.hostBytes (s.page i).loc 1) := by
  have hpage : (s.broughtIn i).page i = s.page i := State.page_congr (State.wrPhys_pages _ _ _) i
  have hexec : exec (.pageUnfoldComplete i) s = .next (((s.broughtIn i).arrived i 0).release i).unpark := by
    have hmoves : ¬ ((s.page i).res ≠ 3 ∨ (s.page i).move < 2) := by omega
    show execPageUnfoldComplete i s = _
    rw [State.arrived, hpage]
    simp only [execPageUnfoldComplete, if_neg hmoves, if_pos hmove, State.broughtIn]
  refine ⟨_, hexec, State.page_arrived (t := s.broughtIn i) rfl hpage hc, fun hunits hram hapart => ?_⟩
  have hbase : (s.broughtIn i).ptBase = s.ptBase := by rw [State.broughtIn, State.wrPhys_frame]
  rw [State.rd_unpark, State.arrived_counted hpage hc, State.arrived, State.rd_setPage_outside _ _ (by rw [hbase]; omega), State.broughtIn, hunits]
  have hlen := State.length_hostBytes_one s (s.page i).loc
  have hread := State.rd_wrPhys ({ s with usedHost := s.usedHost.filter fun x => decide (x < (s.page i).loc ∨ (s.page i).loc + 1 ≤ x) } : State)
    (a := (s.page i).target * 65536) (d := s.hostBytes (s.page i).loc 1) (by rw [hlen]; exact hram)
  rw [hlen] at hread
  exact hread

theorem nvmeReadFail_first (hres : (s.page i).res = 3) (hmove : (s.page i).move = 3) (hfirst : (s.page i).retried = false) :
    ∃ u, exec (.nvmeReadFail i) s = .next u ∧ u.page i = { s.page i with retried := true } := by
  refine ⟨_, ?_, State.page_setPage_self s i _⟩
  show execNvmeReadFail i s = _
  exact (if_neg (by omega)).trans (if_pos (by rw [hfirst]; rfl))

/-- The state in which a page that cannot be read is back on NVMe, its bytes are gone, and its frame goes on (R77). -/
def State.readFailed (s : State) (i : Nat) : State :=
  (({ s with shelf := Assoc.del s.shelf (s.page i).loc } : State).setPage i { s.page i with res := 2 }).handFrame (s.page i).target
    (s.pageUnits (s.page i).img)

theorem State.page_readFailed (s : State) (i : Nat) : (s.readFailed i).page i = { s.page i with res := 2 } := by
  rw [State.readFailed, State.page_congr (State.handFrame_pages _ _ _), State.page_setPage_self]

theorem State.readFailed_progs (s : State) (i : Nat) : (s.readFailed i).progs = s.progs := by
  have hs : SameTables s { s with shelf := Assoc.del s.shelf (s.page i).loc } := SameTables.refl
  exact hs.setPage.handFrame.progs

/-- The host is told of an event. -/
def State.told (s : State) (r : Report) : State := { s with reports := r :: s.reports }

theorem State.page_told (s : State) (r : Report) (i : Nat) : (s.told r).page i = s.page i := rfl
theorem State.told_progs (s : State) (r : Report) : (s.told r).progs = s.progs := rfl

theorem nvmeReadFail_again (hres : (s.page i).res = 3) (hmove : (s.page i).move = 3) (hagain : (s.page i).retried = true) (hc : 0 < (s.page i).refc)
    (hnone : s.progs = []) : ∃ u, exec (.nvmeReadFail i) s = .next u ∧ (u.page i).res = 2 ∧ .lostPage i ∈ u.reports := by
  have hpage : ((s.readFailed i).told (.lostPage i)).page i = { s.page i with res := 2 } := by rw [State.page_told, State.page_readFailed]
  have hcounted : (((s.readFailed i).told (.lostPage i)).page i).refc ≠ 0 := by
    rw [hpage]
    exact Nat.ne_of_gt hc
  have hprogs : ((s.readFailed i).told (.lostPage i)).progs = [] := by rw [State.told_progs, State.readFailed_progs, hnone]
  have hexec : exec (.nvmeReadFail i) s = .next (((s.readFailed i).told (.lostPage i)).release i).unpark := by
    have hmoves : ¬ ((s.page i).res ≠ 3 ∨ (s.page i).move ≠ 3) := by omega
    have hlast : ¬ (!(s.page i).retried) = true := by simp [hagain]
    have hdead : ∀ names : Prog → Bool, s.progs.filter names = [] := fun _ => by rw [hnone, List.filter_nil]
    show execNvmeReadFail i s = _
    simp only [execNvmeReadFail, if_neg hmoves, if_neg hlast, hdead, List.map_nil, List.foldl_nil, State.told, State.readFailed]
  rw [State.release_counted hcounted, State.unpark_empty hprogs] at hexec
  refine ⟨_, hexec, ?_, List.mem_cons_self⟩
  rw [hpage]

/-! ## Pages that nothing names -/

theorem State.giveTier_frame (s : State) (loc units : Nat) : s.giveTier 0 loc units = s.handFrame loc units := by
  rw [State.giveTier]

theorem State.release_resident (hused : (s.page i).used = true) (hc : (s.page i).refc = 0) (hh : (s.page i).hold = 0) (hf : (s.page i).infl = 0)
    (hres : (s.page i).res = 0) :
    s.release i = (s.setPage i { PageE.none with mgen := ((s.page i).mgen + 1) % 65536 }).handFrame (s.page i).loc (s.pageUnits (s.page i).img) := by
  have hgoes : ¬ ((!(s.page i).used) = true ∨ (s.page i).refc ≠ 0 ∨ (s.page i).hold ≠ 0 ∨ (s.page i).infl ≠ 0) := by simp [hused, hc, hh, hf]
  unfold State.release
  dsimp only
  rw [if_neg hgoes, if_neg (by omega), hres, State.giveTier_frame]

/-- With no program that waits for one, a frame of a present channel goes to the pool (R245). -/
theorem State.handFrame_pool (hnone : s.progs = []) {units : Nat} (hch : s.noChannel (frame * 65536) = false) :
    s.handFrame frame units = { s with freeFrames := s.freeFrames ++ (List.range units).map fun k => frame + k } := by
  unfold State.handFrame
  rw [if_neg (by rw [hch]; decide), hnone]
  rfl

theorem pageRelease_result (hused : (s.page i).used = true) (hc : (s.page i).refc = 0) (hh : (s.page i).hold = 0) (hf : (s.page i).infl = 0)
    (hres : (s.page i).res = 0) :
    ∃ u, exec (.pageRelease i) s = .next u ∧ (u.page i).used = false ∧ (u.page i).mgen = ((s.page i).mgen + 1) % 65536 ∧
      (s.progs = [] → s.noChannel ((s.page i).loc * 65536) = false →
        u.freeFrames = s.freeFrames ++ (List.range (s.pageUnits (s.page i).img)).map fun k => (s.page i).loc + k) := by
  have hrelease := State.release_resident hused hc hh hf hres
  have hpage : (s.release i).unpark.page i = { PageE.none with mgen := ((s.page i).mgen + 1) % 65536 } := by
    rw [State.page_unpark, hrelease, State.page_congr (State.handFrame_pages _ _ _), State.page_setPage_self]
  refine ⟨_, rfl, ?_, ?_, fun hnone hch => ?_⟩
  · rw [hpage]
    rfl
  · rw [hpage]
  · have hprogs : (s.setPage i { PageE.none with mgen := ((s.page i).mgen + 1) % 65536 }).progs = [] := (SameTables.refl.setPage.progs).trans hnone
    have hpresent : (s.setPage i { PageE.none with mgen := ((s.page i).mgen + 1) % 65536 }).noChannel ((s.page i).loc * 65536) = false := by
      rw [State.setPage, State.wrPhys_frame]
      exact hch
    rw [State.unpark_field State.freeFrames _ fun _ _ _ => rfl, hrelease, State.handFrame_pool hprogs hpresent, State.setPage, State.wrPhys_frame]

/-! ## Detaches -/

/-- The entry of a copy stands as it was allocated, whether or not the old page's entry is the same one. -/
theorem State.page_release_counted {t : State} {j : Nat} (h : (t.page n).refc ≠ 0) : (t.release j).page n = t.page n := by
  by_cases hj : n = j
  · subst hj
    rw [State.release_counted h]
  · exact State.page_release_ne t hj

/-- A new page's entry names its frame, its count and its FILL. -/
theorem State.newPage_entry (h : s.allocPti = some n) (img : Half) (frame refc fill hold use : Nat) :
    ∃ t, s.newPage img frame refc fill hold use = some (t, n) ∧ (t.page n).loc = frame ∧ (t.page n).refc = refc ∧ (t.page n).fill = fill := by
  rw [State.newPage, h]
  refine ⟨_, rfl, ?_⟩
  rw [State.page_setPage_self]
  exact ⟨rfl, rfl, rfl⟩

theorem detachCopyComplete_result {c : Nat} {d : Detach} (hd : (s.lc c).detach = some d) (hroom : s.allocPti.isSome = true) :
    ∃ u new, exec (.detachCopyComplete c) s = .next u ∧ (u.lc c).detach = none ∧ (u.lc c).list = (s.lc c).list.set d.word new ∧
      (u.page new).loc = d.frame ∧ (u.page new).refc = 1 ∧ (u.page new).fill = d.f := by
  obtain ⟨n, hn⟩ := Option.isSome_iff_exists.mp hroom
  have hcopied : (s.copyLines (s.page d.pti).img (s.page d.pti).loc d.frame d.f).allocPti = some n := SameUse.refl.wrPhys.wrPhys.allocPti.trans hn
  obtain ⟨t, hnew, hloc, hrefc, hfill⟩ := State.newPage_entry hcopied (s.page d.pti).img d.frame 1 d.f
    (([c].filter fun c => ((s.copyLines (s.page d.pti).img (s.page d.pti).loc d.frame d.f).lc c).pin).length) (s.page d.pti).lastUse
  obtain ⟨h1, hrelist⟩ := t.page_relist c d.word n n
  obtain ⟨h2, hhold⟩ := (t.relist c d.word n).page_onHold d.pti n fun e => e.hold - 1
  obtain ⟨v, hv⟩ : ∃ v, v = (t.relist c d.word n).onPage d.pti fun e => { e with hold := e.hold - 1 } := ⟨_, rfl⟩
  rw [hrelist, ← hv] at hhold
  have hend : exec (.detachCopyComplete c) s = .next (v.release d.pti).unpark := by
    show execDetachCopyComplete c s = _
    rw [execDetachCopyComplete, hd, hv, ← State.detachEnd_eq hnew]
  have hpage : (v.release d.pti).unpark.page n = v.page n := by
    rw [State.page_unpark, State.page_release_counted]
    rw [hhold, hrefc]
    exact Nat.one_ne_zero
  have hlc : (v.release d.pti).unpark.lc c = { s.lc c with list := (s.lc c).list.set d.word n, detach := none } := by
    have hsame : t.lc c = s.lc c := ((SameTables.copyLines s _ _ _ _).trans (SameTables.newPage hnew)).lc c
    have hrest : SameTables (t.relist c d.word n) (v.release d.pti) := by
      rw [hv]
      exact SameTables.refl.onPage.release
    rw [State.unpark_field (fun u => u.lc c) _ fun _ _ _ => rfl, hrest.lc, State.relist_lc_self, hsame]
  refine ⟨_, n, hend, ?_, ?_, ?_, ?_, ?_⟩
  · rw [hlc]
  · rw [hlc]
  · rw [hpage, hhold, ← hloc]
  · rw [hpage, hhold, ← hrefc]
  · rw [hpage, hhold, ← hfill]

end

/-- Settles O51: each move of the planner and each end of a move is one update of its page's entry, which parks that end leave as it is. -/
theorem pageMoveResult : Obligations.PageMoveResult := by
  unfold Obligations.PageMoveResult
  intro s i e units
  refine ⟨fun slot frame n hnext hn hrun => reserve_result hnext hn hrun,
    fun h hshort hfold hold hfree hroom => fold_result (State.framesShort_of hshort) hfold hold (State.hostFree_iff.mpr ⟨hfree, hroom⟩),
    fun k hfull hshelve hold hfree hk => shelve_result hfull hshelve hold hfree hk,
    fun f hnext hrun => unfold_result hnext hrun,
    fun _ hres hc => ⟨fun hmove => pageFoldComplete_result hres hmove hc, fun hmove => pageShelveComplete_result hres hmove hc,
      fun hmove => pageUnfoldComplete_result hres hmove hc, fun hmove hfirst => nvmeReadFail_first hres hmove hfirst,
      fun hmove hagain hnone => nvmeReadFail_again hres hmove hagain hc hnone⟩,
    fun hused hc hh hf hres => pageRelease_result hused hc hh hf hres,
    fun c d hd _ _ hroom => detachCopyComplete_result hd hroom⟩

end Sys2Proof.Machine
end

section
/-!
Step launches form (R55 to R58, R243): O50 fails in a state that no run reaches, one with two programs of one slot.
-/

namespace Sys2Proof.Machine

open Sys2Proof Sys2Proof.Claims

/-! ## A window that closes over two programs of one slot -/

/-- An image of one layer, with a shared region of a mebibyte. -/
def smallImage : Image :=
  { id := 3, ctx := 0, entry := 0, vocab := 8, kvl := 1, repro := false, pages := 1, params := 0, wtab := 0, wbase := 0, wlen := 0, sbase := 0,
    slen := 2 ^ 20 }

/-- A program that waits with a step of one context. -/
def waitingProg : Prog := { placeProg with level := 9, long := some (.genu 0 0 0 0 0), c := [handle 5 1] }

/-- A second program of its slot, in the middle of a CHOOSE. It does not wait on the image, as its step is of another context; but it resumes from
progress that says it does. -/
def twinProg : Prog :=
  { waitingProg with long := some (.choose 0 0 0 false 0), c := [handle 6 1], p0 := progress 4 1 0 0 0 0, scratch := handle 5 1, resume := true }

/-- Both programs at the end of the image's batching window. -/
def twinState : State :=
  { State.reset with
    images := [smallImage], lctx := [(5, { LCtx.empty with live := true, img := 3 })], progs := [waitingProg, twinProg], window := 0,
    mangles := [{ img := 3, start := 9, defs := [], window := true, opened := 0, place := [] }] }

theorem twinState_window : twinState.image 3 = some smallImage ∧ (twinState.mangle 3).window = true ∧ twinState.strictFirst = none ∧
    (twinState.steps.filter (fun x => decide (x.img = 3) && decide (3 ≤ x.level))).length < 8 ∧
    (twinState.mangle 3).opened + 1000 * twinState.window ≤ twinState.clock ∧ 0 < twinState.qb ∧ 3 ≤ (twinState.mangle 3).start ∧
    (twinState.mangle 3).start ≤ 11 := by decide +kernel

theorem twinState_waiting : twinState.progs.filter (fun q => q.waiting && decide (twinState.stepImg q = some 3)) = [waitingProg] ∧
    twinState.prog waitingProg.slot = some waitingProg ∧ waitingProg.stepCid = some 5 ∧ (twinState.lc 5).detach = none ∧
    twinState.missing waitingProg.slot 5 1 1 = [] ∧ (twinState.need 5 1 1).detach = false ∧
    areaHead + memberBytes smallImage 1 true ≤ (twinState.areaFree smallImage).2 := by decide +kernel

/-- How many members each step launch has after a step. -/
def memberCounts : Host.Outcome State Fault Refusal → List Nat
  | .next u => u.steps.map fun x => x.members.length
  | _ => []

theorem memberCounts_of_one {o : Host.Outcome State Fault Refusal} {u : State} {x : StepLaunch} {y : Member} (ho : o = .next u) (hu : u.steps = [x])
    (hx : x.members = [y]) : memberCounts o = [1] := by
  rw [ho, memberCounts, hu, List.map_singleton, hx, List.length_singleton]

/-- As the window closes, the second program resumes, reads back the progress that it saved, waits on the image from then on, and joins the step launch. -/
theorem memberCounts_twinState : memberCounts (exec (.batchingWindowClose 3) twinState) = [2] := by decide +kernel

/-- Refutes O50: its clause of a window that closes with one program waiting on the image asks for a step launch of that program alone. In `twinState` a
second program of the same slot resumes as the window closes, waits on the image as well, and the step launch has two members. No run reaches two
programs of one slot; the statement does not exclude them. -/
theorem not_stepLaunchResult : ¬ Obligations.StepLaunchResult := by
  unfold Obligations.StepLaunchResult
  intro h
  obtain ⟨-, hclose, -⟩ := h twinState
  obtain ⟨himage, hwindow, hstrict, hroom, hdue, hqb, hlow, hhigh⟩ := twinState_window
  obtain ⟨hfilter, hprog, hstep, hdetach, hmissing, hneed, harea⟩ := twinState_waiting
  obtain ⟨-, halone⟩ := hclose 3 smallImage himage hwindow hstrict hroom hdue
  obtain ⟨u, x, hu, hsteps, -, -, -, -, -, y, hmembers, -⟩ :=
    halone waitingProg 5 hfilter hprog (by decide) (by decide) hstep rfl rfl hdetach hmissing hneed harea hqb hlow hhigh
  have hone := memberCounts_of_one hu hsteps hmembers
  rw [memberCounts_twinState] at hone
  exact absurd hone (by decide)

end Sys2Proof.Machine
end

section
/-!
POST to a host mailbox and to a program (R62, R200, R270, R344): parts of O31.
-/

namespace Sys2Proof.Machine

open Sys2Proof Sys2Proof.Claims

/-! ## Words of a block -/

theorem State.rd_add (s : State) (a n m : Nat) : s.rd a (n + m) = s.rd a n ++ s.rd (a + n) m := by
  induction n generalizing a with
  | zero => rw [Nat.zero_add, Nat.add_zero, State.rd, List.nil_append]
  | succ n ih => rw [Nat.succ_add, State.rd, State.rd, ih, List.cons_append, Nat.succ_add_eq_add_succ]

/-- A block of words reads word by word. -/
theorem State.rd64_words {s : State} {l : List Nat} {a j x : Nat} (h : s.rd a (8 * l.length) = l.flatMap (leBytes 8)) (hj : l[j]? = some x) :
    s.rd64 (a + 8 * j) = BitVec.ofNat 64 x := by
  induction l generalizing a j with
  | nil => cases hj
  | cons w r ih =>
    rw [List.length_cons, Nat.mul_succ, Nat.add_comm, State.rd_add, List.flatMap_cons] at h
    obtain ⟨hword, hrest⟩ := List.append_inj h (by rw [State.length_rd, length_leBytes])
    cases j with
    | zero =>
      obtain rfl : w = x := Option.some.inj hj
      rw [Nat.mul_zero, Nat.add_zero, State.rd64, hword, w64, leNat_leBytes]
      apply BitVec.eq_of_toNat_eq
      rw [BitVec.toNat_ofNat, BitVec.toNat_ofNat, show 256 ^ 8 = 2 ^ 64 from rfl, Nat.mod_mod]
    | succ j =>
      rw [show a + 8 * (j + 1) = a + 8 + 8 * j by omega]
      exact ih hrest (List.getElem?_cons_succ ▸ hj)

/-- Two fields of a word, the lower one of `k` bits. -/
theorem at64_or {x k : Nat} (hx : x < 2 ^ k) (y : Nat) : BitVec.ofNat 64 x ||| at64 y k = (BitVec.ofNat 64 (x + y * 2 ^ k) : Word) := by
  rw [at64, ← BitVec.ofNat_or, Nat.or_comm, Nat.add_comm, Nat.mul_comm, Nat.two_pow_add_eq_or_of_lt hx]

theorem at64_zero (x : Nat) : at64 x 0 = BitVec.ofNat 64 x := by rw [at64, Nat.pow_zero, Nat.mul_one]

/-! ## Time passes -/

theorem State.rdByte_pass {s : State} {x : Nat} (h : s.inBrd x = false) : s.pass.rdByte x = s.rdByte x := by
  have hp : s.pass.inBrd x = false := h
  rw [State.rdByte, State.rdByte, h, hp]
  rfl

/-! ## An entry of a host mailbox (R200) -/

section

variable (s : State) (p : Prog)

/-- Where the header and the payload of a program's next host entry stand. -/
def Prog.hostHead : Nat := p.hmbx + 64 * (p.hseq % 64)
def Prog.hostIds : Nat := p.hmbx + 4096 + 16384 * (p.hseq % 64)

/-- The words of an entry's header below FULL. -/
def Prog.hostWords (cls : Nat) (i : Word32) (val retn : Word) : List Nat :=
  [p.slot + 2 ^ 16 * cls + 2 ^ 32 * i.toNat, val.toNat, retn.toNat, p.hseq + 1, 0, 0, 0]

/-- A payload is in its place; of one with no ids there is nothing to write. -/
def State.withPayload (pay : List Byte) : State := if pay.isEmpty then s else s.wrPhys p.hostIds pay

theorem State.rd_withPayload {s : State} {p : Prog} {pay : List Byte} (h : inRam s p.hostIds pay.length) :
    (s.withPayload p pay).rd p.hostIds pay.length = pay := by
  unfold State.withPayload
  split
  · rename_i he
    rw [List.isEmpty_iff.mp he]
    rfl
  · exact s.rd_wrPhys h

theorem State.rdByte_withPayload {pay : List Byte} {x : Nat} (h : x < p.hostIds ∨ p.hostIds + pay.length ≤ x) :
    (s.withPayload p pay).rdByte x = s.rdByte x := by
  unfold State.withPayload
  split
  · rfl
  · exact s.rdByte_wrPhys_outside h

theorem State.withPayload_absentCh (pay : List Byte) : (s.withPayload p pay).absentCh = s.absentCh := by
  unfold State.withPayload
  split
  · rfl
  · exact State.wrPhys_absentCh _ _ _

/-- The entry is written: its payload, its header, and FULL last. -/
def State.withEntry (pay : List Byte) (ws : List Nat) : State :=
  ((s.withPayload p pay).wrPhys p.hostHead (ws.flatMap (leBytes 8))).wr64 (p.hostHead + 0x38) 1

theorem at64_head {slot cls : Nat} (hslot : slot < 2 ^ 16) (hcls : cls < 2 ^ 16) (i : Word32) :
    (at64 slot 0 ||| at64 cls 16 ||| at64 ((i.setWidth 64).toNat % 2 ^ 32) 32).toNat = slot + 2 ^ 16 * cls + 2 ^ 32 * i.toNat := by
  have hi : i.toNat < 2 ^ 32 := i.isLt
  have htag : (i.setWidth 64).toNat % 2 ^ 32 = i.toNat := by
    rw [BitVec.toNat_setWidth]
    omega
  rw [htag, at64_zero, at64_or hslot, at64_or (by omega), BitVec.toNat_ofNat]
  omega

theorem State.hostPut_eq {s : State} {p : Prog} (hslot : p.slot < 2 ^ 16) {cls : Nat} (hcls : cls < 2 ^ 16) (i : Word32) (val retn : Word) (pay : List Byte) :
    s.hostPut p cls (i.setWidth 64) val retn pay =
      (s.withEntry p pay (p.hostWords cls i val retn)).onProg p.slot fun p => { p with hseq := p.hseq + 1 } := by
  have hwords : (p.hostWords cls i val retn).flatMap (leBytes 8) =
      leBytes 8 (at64 p.slot 0 ||| at64 cls 16 ||| at64 ((i.setWidth 64).toNat % 2 ^ 32) 32).toNat ++ leBytes 8 val.toNat ++ leBytes 8 retn.toNat ++
        leBytes 8 (p.hseq + 1) ++ List.replicate 24 0 := by
    rw [at64_head hslot hcls]
    simp only [Prog.hostWords, List.flatMap_cons, List.flatMap_nil, List.append_assoc]
    rfl
  rw [State.withEntry, hwords]
  rfl

theorem Prog.length_hostWords (cls : Nat) (i : Word32) (val retn : Word) : ((p.hostWords cls i val retn).flatMap (leBytes 8)).length = 56 := by
  simp [Prog.hostWords]

end

section

variable {s : State} {p : Prog} {pay : List Byte} {ws : List Nat}

theorem State.rdByte_withEntry (hws : (ws.flatMap (leBytes 8)).length = 56) {x : Nat} (hh : x < p.hostHead ∨ p.hostHead + 64 ≤ x)
    (hi : x < p.hostIds ∨ p.hostIds + pay.length ≤ x) : (s.withEntry p pay ws).rdByte x = s.rdByte x := by
  rw [State.withEntry, State.rdByte_wr64_outside _ _ (by omega), State.rdByte_wrPhys_outside _ (by omega), State.rdByte_withPayload _ _ hi]

/-- A payload lies behind all headers. -/
theorem State.rd_withEntry_ids (hws : (ws.flatMap (leBytes 8)).length = 56) (hram : inRam s p.hostIds pay.length) :
    (s.withEntry p pay ws).rd p.hostIds pay.length = pay := by
  have hapart : p.hostHead + 64 ≤ p.hostIds := by
    unfold Prog.hostHead Prog.hostIds
    omega
  rw [State.withEntry, State.rd_congr fun k _ => State.rdByte_wr64_outside _ _ (by omega), State.rd_wrPhys_outside _ (by omega), State.rd_withPayload hram]

theorem State.rd64_withEntry {j x : Nat} (hlen : ws.length = 7) (hws : (ws.flatMap (leBytes 8)).length = 56) (hram : inRam s p.hostHead 56)
    (hj : ws[j]? = some x) : (s.withEntry p pay ws).rd64 (p.hostHead + 8 * j) = BitVec.ofNat 64 x := by
  have hin : j < 7 := hlen ▸ (List.getElem?_eq_some_iff.mp hj).1
  rw [State.withEntry, State.rd64_wr64_outside _ _ (by omega)]
  refine State.rd64_words (l := ws) ?_ hj
  have hblock := State.rd_wrPhys (s.withPayload p pay) (a := p.hostHead) (d := ws.flatMap (leBytes 8))
    (inRam_congr (s.withPayload_absentCh p pay) (hws.symm ▸ hram))
  rw [hws] at hblock
  rw [hlen]
  exact hblock

theorem State.rd64_withEntry_full (hram : inRam s (p.hostHead + 0x38) 8) : (s.withEntry p pay ws).rd64 (p.hostHead + 0x38) = 1 := by
  refine Lasting.rd64_wr64 (Lasting.of_inRam (inRam_congr ?_ hram)) 1
  rw [State.wrPhys_absentCh, State.withPayload_absentCh]

end

/-! ## POST (R62, R270, R344) -/

/-- The owner that remembers a POST (R47). -/
def postOwner (dst : Nat) : Nat := if dst = 0xFFFF then ownerHost else ownerMail dst

/-- The mailbox entry of a POST. -/
def Prog.posting (p : Prog) (c : LReg) (i : Word32) : MboxE :=
  { sender := BitVec.ofNat 16 p.slot, retn := p.retn, tag := i, cls := c.cls, val := (p.payload c).1, str := (p.payload c).2 }

/-- The ids of a string, as they stand in memory. -/
def idBytes (str : List Word32) : List Byte := str.flatMap fun w => leBytes 4 w.toNat

/-- What a POST does where it is sent, and its result. -/
def State.postTo (s : State) (p : Prog) (c : LReg) (i : Word32) (dst : Nat) : Except LStop (State × Word) :=
  if dst = 0xFFFF then
    if s.hostFull p then .ok (s, 1) else .ok (s.hostPut p c.cls (i.setWidth 64) (p.payload c).1 p.retn (idBytes (p.payload c).2), 0)
  else match (if dst = 0xFFFE then none else s.mailbox dst) with
    | none => .ok (s, 2)
    | some q => if 64 ≤ q.mbox.length then .ok (s, 1) else .ok (s.mailEnter dst (p.posting c i), 0)

/-- The program has retired with a result in register A. -/
def RanWith (u : State) (p : Prog) (a : LIdx) (r : Word) : Prop :=
  ∃ q, u.prog p.slot = some q ∧ q.a = p.a.set a.toNat r ∧ q.c = p.c ∧ q.t = p.t ∧ q.pc = p.pc + 1 ∧ q.retn = p.retn + 1

section

variable {s t : State} {p : Prog} {a b : LIdx} {c : LReg} {i : Word32} {r : Word} {dst : Nat}

theorem State.postTo_full (hfull : s.hostFull p = true) : s.postTo p c i 0xFFFF = .ok (s, 1) := by
  rw [State.postTo, if_pos rfl, if_pos hfull]

theorem State.postTo_host (hfree : s.hostFull p = false) :
    s.postTo p c i 0xFFFF = .ok (s.hostPut p c.cls (i.setWidth 64) (p.payload c).1 p.retn (idBytes (p.payload c).2), 0) := by
  rw [State.postTo, if_pos rfl, if_neg (by rw [hfree]; decide)]

theorem State.postTo_nobody (hhost : dst ≠ 0xFFFF) (hnone : dst = 0xFFFE ∨ s.mailbox dst = none) : s.postTo p c i dst = .ok (s, 2) := by
  have hto : (if dst = 0xFFFE then none else s.mailbox dst) = none := ite_eq_left_iff.mpr fun hne => hnone.resolve_left hne
  rw [State.postTo, if_neg hhost, hto]

theorem State.postTo_mailbox {q : Prog} (hhost : dst ≠ 0xFFFF) (hnot : dst ≠ 0xFFFE) (hq : s.mailbox dst = some q) :
    s.postTo p c i dst = if 64 ≤ q.mbox.length then .ok (s, 1) else .ok (s.mailEnter dst (p.posting c i), 0) := by
  rw [State.postTo, if_neg hhost, if_neg hnot, hq]

/-- A POST under its first mark: what it does where it is sent, and the retirement of its program. -/
theorem execPost_posted (h : ProgTurn s p) (hc : ∀ k, c = .c k → s.named (p.gc k) ≠ none)
    (hm : p.repeated (postOwner ((p.ga b).toNat % 2 ^ 16)) = none) (hr : s.pass.postTo p c i ((p.ga b).toNat % 2 ^ 16) = .ok (t, r)) :
    exec (.post a b c i) s = .next (t.retire p fun q => (q.sa a r).remember (postOwner ((p.ga b).toNat % 2 ^ 16)) p.mark r) := by
  have hdst : bits (p.ga b) 15 0 = (p.ga b).toNat % 2 ^ 16 := by rw [bits, Nat.pow_zero, Nat.div_one]
  rw [← hdst] at hm hr ⊢
  show execPost a b c i s = _
  refine livik_ok h (onceAt_first hm (fun q v => q.sa a v) ?_)
  cases c with
  | a k => exact hr
  | t k => exact hr
  | c k =>
    obtain ⟨x, hx⟩ := Option.ne_none_iff_exists'.mp (hc k rfl)
    have hctx : s.pass.ctxOf (p.gc k) = .ok x := State.ctxOf_named hx
    dsimp only
    rw [hctx]
    exact hr

theorem State.retire_ranWith {q : Prog} (hq : t.prog p.slot = some q) (ha : q.a = p.a) (hc : q.c = p.c) (ht : q.t = p.t) (hretn : q.retn = p.retn)
    (owner : Nat) (mark : Word) : RanWith (t.retire p fun q => (q.sa a r).remember owner mark r) p a r := by
  refine ⟨_, State.prog_onProg_self ?_ hq, ?_, hc, ht, rfl, congrArg (· + 1) hretn⟩
  · exact fun _ => rfl
  · exact congrArg (fun l => l.set a.toNat r) ha

theorem retires_onlyPrograms (s : State) (p : Prog) (f : Prog → Prog) : OnlyPrograms s (s.pass.retire p f) := rfl

/-- A POST that reaches nobody changes nothing but its program. -/
theorem execPost_refused (h : ProgTurn s p) (hc : ∀ k, c = .c k → s.named (p.gc k) ≠ none)
    (hm : p.repeated (postOwner ((p.ga b).toNat % 2 ^ 16)) = none) (hr : s.pass.postTo p c i ((p.ga b).toNat % 2 ^ 16) = .ok (s.pass, r)) :
    ∃ u, exec (.post a b c i) s = .next u ∧ RanWith u p a r ∧ OnlyPrograms s u :=
  ⟨_, execPost_posted h hc hm hr, State.retire_ranWith (t := s.pass) h.prog rfl rfl rfl rfl _ _, retires_onlyPrograms _ _ _⟩

/-- A POST to a program's mailbox with room (R62). -/
theorem execPost_entered {q : Prog} (h : ProgTurn s p) (hc : ∀ k, c = .c k → s.named (p.gc k) ≠ none) (hdst : (p.ga b).toNat % 2 ^ 16 = dst)
    (hm : p.repeated (ownerMail dst) = none) (hhost : dst ≠ 0xFFFF) (hnot : dst ≠ 0xFFFE) (hself : dst ≠ p.slot) (hq : s.mailbox dst = some q)
    (hroom : q.mbox.length < 64) (hs : q.state ≠ .awaiting) :
    ∃ u q', exec (.post a b c i) s = .next u ∧ RanWith u p a 0 ∧ u.prog dst = some q' ∧ q'.mbox = q.mbox ++ [p.posting c i] := by
  have hprog : s.pass.prog dst = some q := State.mailbox_eq_some hq
  have howner : postOwner dst = ownerMail dst := if_neg hhost
  have hpost : s.pass.postTo p c i dst = .ok (s.pass.onProg dst fun q => { q with mbox := q.mbox ++ [p.posting c i] }, 0) := by
    rw [State.postTo_mailbox (s := s.pass) hhost hnot hq, if_neg (by omega), State.mailEnter_eq hprog hs]
  subst hdst
  have hslot : ∀ q : Prog, ({ q with mbox := q.mbox ++ [p.posting c i] } : Prog).slot = q.slot := fun _ => rfl
  refine ⟨_, { q with mbox := q.mbox ++ [p.posting c i] }, execPost_posted h hc (by rw [howner]; exact hm) hpost,
    State.retire_ranWith ((State.prog_onProg_ne (s := s.pass) hslot (Ne.symm hself)).trans h.prog) rfl rfl rfl rfl _ _, ?_, rfl⟩
  refine (State.prog_onProg_ne ?_ hself).trans (State.prog_onProg_self hslot hprog)
  exact fun _ => rfl

end

section

variable {s t : State} {p : Prog} {a b : LIdx} {c : LReg} {i : Word32}

/-! ## POST to the host (R200, R344) -/

theorem length_idBytes (str : List Word32) : (idBytes str).length = 4 * str.length := by
  induction str with
  | nil => rfl
  | cons w r ih =>
    rw [idBytes, List.flatMap_cons, List.length_append, length_leBytes, ← idBytes, ih, List.length_cons]
    omega

theorem cls_lt (c : LReg) : c.cls < 2 ^ 16 := by
  cases c with
  | a => exact (by decide : 0 < 2 ^ 16)
  | c => exact (by decide : 1 < 2 ^ 16)
  | t => exact (by decide : 2 < 2 ^ 16)

theorem State.rdByte_pass_low {x : Nat} (h : x < scratchBase) : s.pass.rdByte x = s.rdByte x := by
  rw [State.rdByte, State.rdByte, if_neg (Nat.not_le.mpr h), if_neg (Nat.not_le.mpr h)]
  rfl

theorem State.retire_rdByte (t : State) (p : Prog) (f : Prog → Prog) (x : Nat) : (t.retire p f).rdByte x = t.rdByte x := rfl

theorem State.onProg_rdByte (t : State) (slot : Nat) (f : Prog → Prog) (x : Nat) : (t.onProg slot f).rdByte x = t.rdByte x := rfl

theorem State.onProg_rd (t : State) (slot : Nat) (f : Prog → Prog) (x n : Nat) : (t.onProg slot f).rd x n = t.rd x n := State.rd_congr fun _ _ => rfl

theorem State.onProg_rd64 (t : State) (slot : Nat) (f : Prog → Prog) (x : Nat) : (t.onProg slot f).rd64 x = t.rd64 x := by
  rw [State.rd64, State.rd64, State.onProg_rd]

/-- The entry of a POST stands in a program's host mailbox. -/
structure EntryStands (u : State) (p : Prog) (c : LReg) (i : Word32) : Prop where
  head : u.rd64 p.hostHead = BitVec.ofNat 64 (p.slot + 2 ^ 16 * c.cls + 2 ^ 32 * i.toNat)
  val : u.rd64 (p.hostHead + 8) = (p.payload c).1
  retn : u.rd64 (p.hostHead + 0x10) = p.retn
  hseq : u.rd64 (p.hostHead + 0x18) = BitVec.ofNat 64 (p.hseq + 1)
  full : u.rd64 (p.hostHead + 0x38) = 1
  ids : holds u p.hostIds (idBytes (p.payload c).2)

theorem EntryStands.withEntry (hhead : inRam s p.hostHead 64) (hids : inRam s p.hostIds (idBytes (p.payload c).2).length) :
    EntryStands (s.withEntry p (idBytes (p.payload c).2) (p.hostWords c.cls i (p.payload c).1 p.retn)) p c i := by
  have hws := p.length_hostWords c.cls i (p.payload c).1 p.retn
  have hbelow : inRam s p.hostHead 56 := inRam_part (k := 0) hhead (by omega)
  have hsame : ∀ w : Word, BitVec.ofNat 64 w.toNat = w := fun w => by rw [BitVec.ofNat_toNat, BitVec.setWidth_eq]
  refine ⟨State.rd64_withEntry (j := 0) rfl hws hbelow rfl, ?_, ?_, State.rd64_withEntry (j := 3) rfl hws hbelow rfl,
    State.rd64_withEntry_full (inRam_part hhead (by omega)), State.rd_withEntry_ids hws hids⟩
  · exact (State.rd64_withEntry (j := 1) rfl hws hbelow rfl).trans (hsame _)
  · exact (State.rd64_withEntry (j := 2) rfl hws hbelow rfl).trans (hsame _)

/-- What changes only programs leaves the entry. -/
theorem EntryStands.onProg (h : EntryStands t p c i) (slot : Nat) (f : Prog → Prog) : EntryStands (t.onProg slot f) p c i := by
  obtain ⟨hhead, hval, hretn, hseq, hfull, hids⟩ := h
  refine ⟨?_, ?_, ?_, ?_, ?_, ?_⟩
  · rw [State.onProg_rd64, hhead]
  · rw [State.onProg_rd64, hval]
  · rw [State.onProg_rd64, hretn]
  · rw [State.onProg_rd64, hseq]
  · rw [State.onProg_rd64, hfull]
  · rw [holds, State.onProg_rd, hids]

theorem inRam_hostHead (h : inRam s p.hmbx 0x101000) : inRam s p.hostHead 64 := inRam_part h (by omega)

theorem inRam_hostIds (h : inRam s p.hmbx 0x101000) {n : Nat} (hn : n ≤ 16384) : inRam s p.hostIds n := by
  rw [Prog.hostIds, Nat.add_assoc]
  exact inRam_part h (by omega)

/-- A host mailbox in stack memory is FULL or free whatever the moment. -/
theorem State.hostFull_pass_low (h : inRam s p.hostHead 64) : s.pass.hostFull p = s.hostFull p := by
  have hsame : s.pass.rd64 (p.hostHead + 0x38) = s.rd64 (p.hostHead + 0x38) := by
    rw [State.rd64, State.rd64, State.rd_congr fun k hk => State.rdByte_pass_low ?_]
    have := h.1
    omega
  exact congrArg (fun w : Word => w.getLsbD 0) hsame

/-- A POST to the host whose next entry is free writes the entry and nothing else. -/
theorem execPost_host (h : ProgTurn s p) (hc : ∀ k, c = .c k → s.named (p.gc k) ≠ none) (hdst : (p.ga b).toNat % 2 ^ 16 = 0xFFFF)
    (hm : p.repeated ownerHost = none) (hfree : s.hostFull p = false) (hslot : p.slot < 2 ^ 16) (hstr : (p.payload c).2.length ≤ 4096)
    (hram : inRam s p.hmbx 0x101000) :
    ∃ u, exec (.post a b c i) s = .next u ∧ RanWith u p a 0 ∧ (∃ q, u.prog p.slot = some q ∧ q.hseq = p.hseq + 1) ∧ EntryStands u p c i ∧
      ∀ x, s.inBrd x = false → (x < p.hostHead ∨ p.hostHead + 64 ≤ x) → (x < p.hostIds ∨ p.hostIds + 4 * (p.payload c).2.length ≤ x) →
        u.rdByte x = s.rdByte x := by
  have hsize := length_idBytes (p.payload c).2
  have hhead : inRam s.pass p.hostHead 64 := inRam_hostHead (s := s) hram
  have hids : inRam s.pass p.hostIds (idBytes (p.payload c).2).length := inRam_hostIds (s := s) hram (by omega)
  have howner : postOwner ((p.ga b).toNat % 2 ^ 16) = ownerHost := if_pos hdst
  have hpost := hdst ▸ State.postTo_host (c := c) (i := i) ((State.hostFull_pass_low (s := s) hhead).trans hfree)
  have hmine := State.prog_hostPut (s := s.pass) h.prog c.cls (i.setWidth 64) (p.payload c).1 p.retn (idBytes (p.payload c).2)
  have hput := State.hostPut_eq (s := s.pass) (p := p) hslot (cls_lt c) i (p.payload c).1 p.retn (idBytes (p.payload c).2)
  refine ⟨_, execPost_posted h hc (howner ▸ hm) hpost, State.retire_ranWith hmine rfl rfl rfl rfl _ _, ⟨_, State.prog_onProg_self ?_ hmine, rfl⟩, ?_,
    fun x hb hx1 hx2 => ?_⟩
  · exact fun _ => rfl
  · rw [hput]
    exact ((EntryStands.withEntry hhead hids).onProg _ _).onProg _ _
  · rw [State.retire_rdByte, hput, State.onProg_rdByte, ← State.rdByte_pass hb]
    exact State.rdByte_withEntry (p.length_hostWords _ _ _ _) hx1 (by rw [hsize]; exact hx2)

end

end Sys2Proof.Machine
end

section
/-!
AWAIT, INVOKE and STAMP (R63, R64, R271, R320, R361), and what O31 comes down to.
-/

namespace Sys2Proof.Machine

open Sys2Proof Sys2Proof.Claims

section

variable {s : State} {p : Prog}

/-! ## AWAIT, INVOKE and STAMP (R63, R64, R271, R320, R361) -/

/-- The origin that an AWAIT writes: the tag above the sender. -/
theorem origin_eq (e : MboxE) : at64 e.tag.toNat 32 ||| at64 e.sender.toNat 0 = BitVec.ofNat 64 (e.tag.toNat * 2 ^ 32 + e.sender.toNat) := by
  have hsender : e.sender.toNat < 2 ^ 16 := e.sender.isLt
  rw [BitVec.or_comm, at64_zero, at64_or (by omega), Nat.add_comm]

/-- The program that has taken a mailbox entry, under its mark. -/
def Prog.took (p : Prog) (r : LReg) (b : LIdx) (e : MboxE) (rest : List MboxE) : Prog :=
  { (p.take r b e).remember (ownerMail p.slot) p.mark (BitVec.ofNat 64 (e.tag.toNat * 2 ^ 32 + e.sender.toNat)) (some e) with mbox := rest, await := .none }

theorem State.awaitTake_eq (s : State) (p : Prog) (r : LReg) (b : LIdx) (e : MboxE) (rest : List MboxE) :
    s.awaitTake p r b e rest = s.retire p fun q => q.took r b e rest := by
  rw [State.awaitTake, origin_eq]
  rfl

theorem execAwait_taken (h : ProgTurn s p) (r : LReg) (b : LIdx) (i : Word32) {e : MboxE} {rest : List MboxE} (hm : p.repeated (ownerMail p.slot) = none)
    (ht : takeClass r.cls p.mbox = some (e, rest)) :
    ∃ u, exec (.await r b i) s = .next u ∧ OnlyPrograms s u ∧ Ran s u p (p.took r b e rest) (p.pc + 1) := by
  have hslot : ∀ q : Prog, (q.took r b e rest).slot = q.slot := fun q => q.take_slot r b e
  have key : ∃ u, execAwait r b i s = .next u ∧ Ran s u p (p.took r b e rest) (p.pc + 1) ∧ OnlyPrograms s u := by
    refine livik_retires h (g := fun q => q.took r b e rest) ?_ hslot
    simp only [hm, ht, State.awaitTake_eq]
    rfl
  obtain ⟨u, hu, hran, honly⟩ := key
  exact ⟨u, hu, honly, hran⟩

theorem execAwait_waits (h : ProgTurn s p) (r : LReg) (b : LIdx) (i : Word32) (hm : p.repeated (ownerMail p.slot) = none)
    (ht : takeClass r.cls p.mbox = none) :
    ∃ u q t0, exec (.await r b i) s = .next u ∧ u.prog p.slot = some q ∧ q.state = .awaiting ∧ q.await = .mbox r b t0 (1000 * i.toNat) ∧ q.pc = p.pc ∧
      q.retn = p.retn ∧ SameRegs p q := by
  obtain ⟨q, hq⟩ := State.awaits_at (s := s.pass) h.prog (.mbox r b s.pass.clock (1000 * i.toNat))
  refine ⟨_, q, s.pass.clock, ?_, hq⟩
  show execAwait r b i s = _
  refine livik_ok h ?_
  simp only [hm, ht]

theorem execInvoke_rejected (h : ProgTurn s p) (a b : LIdx) (halign : (p.ga b).toNat % 64 ≠ 0) :
    ∃ u, exec (.invoke a b) s = .next u ∧ Ran s u p { p with a := p.a.set a.toNat (statusWord 4 0) } (p.pc + 1) ∧ OnlyPrograms s u := by
  show ∃ u, execInvoke a b s = _ ∧ _
  refine livik_retires h (g := fun q => q.sa a (statusWord 4 0)) ?_ fun _ => rfl
  exact if_pos halign

theorem execInvoke_waits (h : ProgTurn s p) (a b : LIdx) {bs : List Block} (hm : p.repeated ownerFront = none) (halign : (p.ga b).toNat % 64 = 0)
    (hread : s.pass.granted p.nctx (p.ga b) 64 rRD true = .ok bs) (hnr : anyNr bs = false) :
    ∃ u q ws, exec (.invoke a b) s = .next u ∧ u.prog p.slot = some q ∧ q.state = .awaiting ∧ q.await = .launch a (some ws) none none ∧
      ws.drop 1 = (wordsOf (vec512 (s.pass.rdBlocks bs))).drop 1 ∧ q.pc = p.pc ∧ q.retn = p.retn ∧ SameRegs p q := by
  obtain ⟨ws, hws⟩ : ∃ ws, ws = wordsOf (vec512 (s.pass.rdBlocks bs)) := ⟨_, rfl⟩
  obtain ⟨q, hq, hstate, hawait, hrest⟩ := State.awaits_at (s := s.pass) h.prog (.launch a (some (withLevel ((ws[0]?).getD 0) p.level :: ws.drop 1)) none none)
  refine ⟨_, q, _, ?_, hq, hstate, hawait, by rw [← hws]; rfl, hrest⟩
  show execInvoke a b s = _
  refine livik_ok h ?_
  simp only [halign, hread, hnr, hm, hws]
  rfl

theorem execStamp_ran (h : ProgTurn s p) (a : LIdx) :
    ∃ u, exec (.stamp a) s = .next u ∧ OnlyPrograms s u ∧ Ran s u p { p with a := p.a.set a.toNat (BitVec.ofNat 64 u.clock) } (p.pc + 1) := by
  have key : ∃ u, execStamp a s = .next u ∧ Ran s u p (p.sa a (BitVec.ofNat 64 s.pass.clock)) (p.pc + 1) ∧ OnlyPrograms s u ∧ u.clock = s.pass.clock := by
    refine ⟨s.pass.retire p fun q => q.sa a (BitVec.ofNat 64 s.pass.clock), livik_ok h rfl, State.retire_ran (t := s.pass) h.prog rfl fun _ => rfl, rfl, rfl⟩
  obtain ⟨u, hu, hran, honly, hclock⟩ := key
  refine ⟨u, hu, honly, ?_⟩
  rw [hclock]
  exact hran

theorem awaitInvokeStampResult : AwaitInvokeStampResult := by
  intro s p h a b r i
  exact ⟨fun _ _ hm ht => execAwait_taken h r b i hm ht, execAwait_waits h r b i, execInvoke_rejected h a b,
    fun _ hm halign hread hnr => execInvoke_waits h a b hm halign hread hnr, execStamp_ran h a⟩

end

/-! ## FULL in bytes that a block read is to write (R200, R279) -/

theorem State.rd64_bit0 (s : State) (a : Nat) : (s.rd64 a).getLsbD 0 = (s.rdByte a).getLsbD 0 := by
  have hparity : leNat (s.rd a 8) % 2 = (s.rdByte a).toNat % 2 := by
    rw [State.rd, leNat]
    omega
  rw [BitVec.getLsbD, BitVec.getLsbD, Nat.testBit_zero, Nat.testBit_zero, State.rd64, w64, BitVec.toNat_ofNat, Nat.mod_mod_of_dvd _ (by decide), hparity]

theorem State.hostFull_eq (s : State) (p : Prog) : s.hostFull p = (s.rdByte (p.hostHead + 0x38)).getLsbD 0 := s.rd64_bit0 _

/-- A byte reads at the next moment as before, but for a scratchpad byte that a block read is to write, which has a free value at each moment. -/
theorem State.rdByte_pass_cases (s : State) (x : Nat) : s.pass.rdByte x = s.rdByte x ∨
    (scratchBase ≤ x ∧ s.rdByte x = Config.freeByte s.fresh x ∧ s.pass.rdByte x = Config.freeByte (s.fresh + 1) x) := by
  by_cases hx : scratchBase ≤ x
  · cases hb : s.inBrd x with
    | false => exact .inl (State.rdByte_pass hb)
    | true =>
      have hp : s.pass.inBrd x = true := hb
      refine .inr ⟨hx, ?_, ?_⟩
      · rw [State.rdByte, if_pos hx, if_pos hb]
      · rw [State.rdByte, if_pos hx, if_pos hp]
        rfl
  · exact .inl (State.rdByte_pass_low (Nat.lt_of_not_le hx))

/-- A free value that has FULL set has it set at the next moment as well. The model gives free values no such property: they are constants without a
body. -/
def FullLasts : Prop :=
  ∀ k a, scratchBase ≤ a → (Config.freeByte k a).getLsbD 0 = true → (Config.freeByte (k + 1) a).getLsbD 0 = true

theorem FullLasts.hostFull (hl : FullLasts) {s : State} {p : Prog} (h : s.hostFull p = true) : s.pass.hostFull p = true := by
  rw [State.hostFull_eq] at h ⊢
  rcases s.rdByte_pass_cases (p.hostHead + 0x38) with hsame | ⟨hx, hnow, hnext⟩
  · rw [hsame, h]
  · rw [hnext]
    exact hl _ _ hx (hnow ▸ h)

theorem postResult_of_fullLasts (hl : FullLasts) : PostResult := by
  intro s p h a b c i dst ran hd ids str hc
  refine ⟨fun hdst hm => ⟨fun hfull => ?_, fun hfree hslot hstr hram => ?_⟩, fun hhost hm => ⟨fun hnone => ?_, fun q hnot hself hq => ⟨fun hfull => ?_,
    fun hroom hs => ?_⟩⟩⟩
  · have hdst' : (p.ga b).toNat % 2 ^ 16 = 0xFFFF := hdst
    have howner : postOwner ((p.ga b).toNat % 2 ^ 16) = ownerHost := if_pos hdst'
    have hto : s.pass.postTo p c i 0xFFFF = .ok (s.pass, 1) := State.postTo_full (hl.hostFull hfull)
    exact execPost_refused h hc (howner ▸ hm) (hdst'.symm ▸ hto)
  · obtain ⟨u, hu, hran, hseq, hentry, hkept⟩ := execPost_host h hc hdst hm hfree hslot hstr hram
    exact ⟨u, hu, hran, hseq, hentry.head, hentry.val, hentry.retn, hentry.hseq, hentry.full, hentry.ids, hkept⟩
  · have howner : postOwner dst = ownerMail dst := if_neg hhost
    exact execPost_refused h hc (howner ▸ hm) (State.postTo_nobody (s := s.pass) hhost hnone)
  · have howner : postOwner dst = ownerMail dst := if_neg hhost
    exact execPost_refused h hc (howner ▸ hm) ((State.postTo_mailbox (s := s.pass) hhost hnot hq).trans (if_pos hfull))
  · obtain ⟨u, q', hu, hran, hq', hmbox⟩ := execPost_entered h hc rfl hm hhost hnot hself hq hroom hs
    exact ⟨u, p.posting c i, q', hu, hran, hq', hmbox, rfl, rfl, rfl, rfl, rfl, rfl⟩

/-- A program that posts to the host, whose next entry's FULL stands at `a`. -/
def posterTo (a : Nat) : Prog := { placeProg with a := List.replicate 16 0xFFFF, hmbx := a - 0x38 }

/-- A block read that is to write the byte at `a`. -/
def readInto (a : Nat) : Op :=
  { id := 0, t := { core := { kernel := false, idx := 0 }, ts := 0 }, ctx := 0, lid := none, kind := .brd, segs := [],
    dst := [{ va := 0, bus := a, len := 1, off := 0 }], pages := [], data := [], seq := 0, fn := 0, addr := 0, operand := 0, cmp := 0, mark := 0, n := 0, q := 0,
    width := 0, signed := false, held := false, parked := false, dead := none, vec := 0, hdr := 0, deps := [], mst := 0 }

/-- That program's turn at moment `k`, with the block read outstanding. -/
def posterState (k a : Nat) : State :=
  { State.reset with fresh := k, cur := .prog 0, progs := [posterTo a], ops := [readInto a] }

theorem posterState_full {k a : Nat} (ha : scratchBase ≤ a) : (posterState k a).hostFull (posterTo a) = (Config.freeByte k a).getLsbD 0 ∧
    (posterState k a).pass.hostFull (posterTo a) = (Config.freeByte (k + 1) a).getLsbD 0 := by
  have hat : (posterTo a).hostHead + 0x38 = a := by
    have : scratchBase = 0x7F0000000000 := rfl
    show a - 0x38 + 64 * (0 % 64) + 0x38 = a
    omega
  have hbrd : (posterState k a).inBrd a = true := by
    simp [State.inBrd, State.ringControl, posterState, readInto, State.reset, Assoc.get]
  have hbrd' : (posterState k a).pass.inBrd a = true := hbrd
  rw [State.hostFull_eq, State.hostFull_eq, hat, State.rdByte, State.rdByte, if_pos ha, if_pos ha, if_pos hbrd, if_pos hbrd']
  exact ⟨rfl, rfl⟩

theorem fullLasts_of_postResult (h : PostResult) : FullLasts := by
  intro k a ha hnow
  obtain ⟨hfull, hfull'⟩ := posterState_full (k := k) ha
  have hturn : ProgTurn (posterState k a) (posterTo a) := ⟨rfl, rfl, rfl, rfl⟩
  have hdst : ((posterTo a).ga 0).toNat % 2 ^ 16 = 0xFFFF := by
    show (0xFFFF : Word).toNat % 2 ^ 16 = 0xFFFF
    decide
  have hnoC : ∀ j, LReg.a 0 = .c j → (posterState k a).named ((posterTo a).gc j) ≠ none := nofun
  obtain ⟨hhost, -⟩ := h (posterState k a) (posterTo a) hturn 0 0 (.a 0) 0 hnoC
  obtain ⟨u, hu, ⟨q, hq, hqa, -⟩, -⟩ := (hhost hdst rfl).1 (hfull.trans hnow)
  by_contra hnext
  have hfree : (posterState k a).pass.hostFull (posterTo a) = false := hfull'.trans (Bool.eq_false_iff.mpr hnext)
  have hpost := hdst ▸ State.postTo_host (c := .a 0) (i := 0) hfree
  have hmine := State.prog_hostPut (s := (posterState k a).pass) hturn.prog (LReg.a 0).cls ((0 : Word32).setWidth 64) ((posterTo a).payload (.a 0)).1
    (posterTo a).retn (idBytes ((posterTo a).payload (.a 0)).2)
  have hexec := execPost_posted (a := 0) hturn hnoC rfl hpost
  obtain ⟨q', hq', hqa', -⟩ := State.retire_ranWith (a := 0) (r := 0) hmine rfl rfl rfl rfl (postOwner (((posterTo a).ga 0).toNat % 2 ^ 16)) (posterTo a).mark
  rw [hexec, Host.Outcome.next.injEq] at hu
  rw [← hu, hq', Option.some.injEq] at hq
  rw [← hq, hqa'] at hqa
  revert hqa
  show ¬ (List.replicate 16 (0xFFFF : Word)).set 0 0 = (List.replicate 16 (0xFFFF : Word)).set 0 1
  decide

/-- What O31 asks for comes down to one property of free values, by the FULL clause of POST: where a program's host mailbox lies in scratchpad bytes that a
block read is to write, the moment of the statement and the moment at which the instruction looks at FULL read them apart. All else that O31 states holds. -/
theorem livikMessagingResult_iff_fullLasts : Obligations.LivikMessagingResult ↔ FullLasts :=
  ⟨fun h => fullLasts_of_postResult h.1, fun h => ⟨postResult_of_fullLasts h, awaitInvokeStampResult⟩⟩

end Sys2Proof.Machine
end

section
/-!
Loads and stores that trap before anything is issued (R82, R92, R326 to R328): O12.
-/

namespace Sys2Proof.Machine

open Sys2Proof Sys2Proof.Claims

/-- The queues hold as many entries, and the store queues the same ones. -/
def Exe.SameDepths (e e' : Exe) : Prop :=
  e'.x.slq.length = e.x.slq.length ∧ e'.x.vlq.length = e.x.vlq.length ∧ e'.x.ssq = e.x.ssq ∧ e'.x.vsq = e.x.vsq

theorem Exe.sameDepths_refl (e : Exe) : e.SameDepths e := ⟨rfl, rfl, rfl, rfl⟩

theorem Exe.sameDepths_sound (e : Exe) (v : Vec) : e.SameDepths (e.sound v) := ⟨List.length_map _, List.length_map _, rfl, rfl⟩

theorem Exe.roomLdq_one_ok {e : Exe} (h : e.x.slq.length < 16) : e.roomLdq 1 = .ok () := if_neg (by omega)

theorem Exe.roomLdq_one_full {e : Exe} (h : 16 ≤ e.x.slq.length) : e.roomLdq 1 = trap .qdead 0 := if_pos (by omega)

theorem Exe.roomVldq_full {e : Exe} (h : 8 ≤ e.x.vlq.length) : e.roomVldq = trap .qdead 0 := if_pos h

theorem Exe.aligned_trap {x : Word} {n : Nat} (h : x.toNat % n ≠ 0) : Exe.aligned x n = trap .align x := if_pos h

section

variable {s : State} {t : TsId} {act : Activation} {a : Reg} {b : Word} {e1 : Exe}

/-- An instruction that traps behind its one scalar source by a check that looks only at how far the queues are filled: no error in data that it reads
comes before that trap (R252). -/
theorem issue_srcS_trap (ht : Turn s t act) (ha : (exeOf s t act).srcS a = .ok (b, e1)) {f : Word × Exe → Except Stop Exe} {c : Cause} {x : Word}
    (hf : ∀ e, e1.SameDepths e → f (b, e) = trap c x) : issue s (fun e => e.srcS a >>= f) = .next (trapped s t c x) := by
  refine issue_trap (c' := c.code) (x' := x) ht ?_ fun v => ?_
  · show (exeOf s t act).srcS a >>= f = _
    rw [ha]
    exact hf e1 e1.sameDepths_refl
  · show ((exeOf s t act).sound v).srcS a >>= f = _
    rw [Exe.srcS_sound ha v]
    exact hf _ (e1.sameDepths_sound v)

variable (z : BitVec 2) (sx : Bool) (h : BitVec 2) (i : Half)

theorem execLd_misaligned (ht : Turn s t act) (ha : (exeOf s t act).srcS a = .ok (b, e1)) (hroom : e1.x.slq.length < 16)
    (hva : (offAddr b i (2 ^ z.toNat)).toNat % 2 ^ z.toNat ≠ 0) :
    execLd z sx h a i s = .next (trapped s t .align (offAddr b i (2 ^ z.toNat))) := by
  refine issue_srcS_trap ht ha fun e ⟨hslq, _⟩ => ?_
  simp only [Exe.roomLdq_one_ok (hslq ▸ hroom), Exe.aligned_trap hva]
  rfl

theorem execLd_full (ht : Turn s t act) (ha : (exeOf s t act).srcS a = .ok (b, e1)) (hfull : 16 ≤ e1.x.slq.length) :
    execLd z sx h a i s = .next (trapped s t .qdead 0) := by
  refine issue_srcS_trap ht ha fun e ⟨hslq, _⟩ => ?_
  simp only [Exe.roomLdq_one_full (hslq ▸ hfull)]
  rfl

theorem execVld_full (ht : Turn s t act) (ha : (exeOf s t act).srcS a = .ok (b, e1)) (hfull : 8 ≤ e1.x.vlq.length) :
    execVld h a i s = .next (trapped s t .qdead 0) := by
  refine issue_srcS_trap ht ha fun e ⟨_, hvlq, _⟩ => ?_
  simp only [Exe.roomVldq_full (hvlq ▸ hfull)]
  rfl

theorem execSt_misaligned (ht : Turn s t act) (ha : (exeOf s t act).srcS a = .ok (b, e1)) (hval : e1.x.ssq ≠ [])
    (hva : (offAddr b i (2 ^ z.toNat)).toNat % 2 ^ z.toNat ≠ 0) :
    execSt z h a i s = .next (trapped s t .align (offAddr b i (2 ^ z.toNat))) := by
  refine issue_srcS_trap ht ha fun e ⟨_, _, hssq, _⟩ => ?_
  simp only [hssq, List.isEmpty_eq_false_iff.mpr hval, Exe.aligned_trap hva]
  rfl

theorem execSt_empty (ht : Turn s t act) (ha : (exeOf s t act).srcS a = .ok (b, e1)) (hempty : e1.x.ssq = []) :
    execSt z h a i s = .next (trapped s t .qdead 0) := by
  refine issue_srcS_trap ht ha fun e ⟨_, _, hssq, _⟩ => ?_
  simp only [hssq, hempty]
  rfl

theorem execVst_empty (ht : Turn s t act) (ha : (exeOf s t act).srcS a = .ok (b, e1)) (hempty : e1.x.vsq = []) :
    execVst h a i s = .next (trapped s t .qdead 0) := by
  refine issue_srcS_trap ht ha fun e ⟨_, _, _, hvsq⟩ => ?_
  simp only [hvsq, hempty]
  rfl

end

/-- Settles O12: each of these instructions reads its base and then meets the check that fails, and that check reads no data that an error could
have taken (R252). -/
theorem accessTraps : Obligations.AccessTraps := by
  unfold Obligations.AccessTraps
  constructor
  · intro s t act ht a b e1 ha z sx h i va hva
    exact ⟨fun hroom => execLd_misaligned z sx h i ht ha hroom hva, fun hval => execSt_misaligned z h i ht ha hval hva⟩
  · intro s t act ht a b e1 ha z sx h i
    exact ⟨execLd_full z sx h i ht ha, execVld_full h i ht ha, execSt_empty z h i ht ha, execVst_empty h i ht ha⟩

end Sys2Proof.Machine
end

section
/-!
What the end of a launch and the kill of a context leave of the reports to Edoiny (R181, R237): no operation below takes one away, and only the end of
a launch adds any. A state operation `f` has the lemma `State.f_reports`, in the order of the model's files.
-/

namespace Sys2Proof.Machine

open Sys2Proof

theorem State.foldl_reports {α : Type} {f : State → α → State} (hf : ∀ s x, (f s x).reports = s.reports) (l : List α) (s : State) :
    (l.foldl f s).reports = s.reports :=
  l.foldlRecOn f (motive := fun u => u.reports = s.reports) rfl fun u hu x _ => (hf u x).trans hu

/-! ### Memory -/

@[simp] theorem State.wr_reports (s : State) (a : Nat) (d : List Byte) : (s.wr a d).reports = s.reports := by rw [State.wr_frame]

@[simp] theorem State.wr64_reports (s : State) (a : Nat) (x : Word) : (s.wr64 a x).reports = s.reports := State.wr_reports s a _

@[simp] theorem State.wrFree_reports (s : State) (a : Nat) (b : Byte) : (s.wrFree a b).reports = s.reports := by
  unfold State.wrFree
  split
  · rfl
  · exact State.wr_reports s a [b]

@[simp] theorem State.wrRw_reports (d : List Byte) (s : State) (a : Nat) : (s.wrRw a d).reports = s.reports := by
  induction d generalizing s a with
  | nil => rfl
  | cons b r ih => rw [State.wrRw, ih, State.wrFree_reports]

@[simp] theorem State.smear_reports (s : State) (a n : Nat) : (s.smear a n).reports = s.reports := State.wrRw_reports _ s a

@[simp] theorem State.hostWr_reports (d : List Byte) (s : State) (a : Nat) : (s.hostWr a d).reports = s.reports := by
  induction d generalizing s a with
  | nil => rfl
  | cons b r ih => rw [State.hostWr, ih]

@[simp] theorem State.wrBlocks_reports (bs : List Block) (s : State) (d : List Byte) : (s.wrBlocks bs d).reports = s.reports := by
  induction bs generalizing s d with
  | nil => rfl
  | cons b r ih => rw [State.wrBlocks, ih, State.wrRw_reports]

theorem State.wrV_reports (s : State) (ctx : Half) (va : Word) (d : List Byte) : Yields (fun u => u.reports = s.reports) (s.wrV ctx va d) := by
  unfold State.wrV
  split
  · exact State.wrBlocks_reports _ s d
  · trivial

/-! ### Outstanding operations -/

@[simp] theorem State.put_reports (s : State) (g : Seg) (d : List Byte) : (s.put g d).reports = s.reports := by
  unfold State.put
  split
  · rfl
  · exact State.wrRw_reports d s g.bus

@[simp] theorem State.smearSeg_reports (s : State) (g : Seg) : (s.smearSeg g).reports = s.reports := by
  unfold State.smearSeg
  split
  · rfl
  · exact State.smear_reports s _ _

@[simp] theorem State.noteBar_reports (s : State) (g : Seg) : (s.noteBar g).reports = s.reports := by
  unfold State.noteBar
  split
  · rfl
  · rfl

@[simp] theorem State.noteBars_reports (s : State) (l : List Seg) : (l.foldl State.noteBar s).reports = s.reports :=
  State.foldl_reports State.noteBar_reports l s

@[simp] theorem State.storeNow_reports (s : State) (o : Op) : (s.storeNow o).reports = s.reports :=
  State.foldl_reports (fun u g => u.put_reports g _) o.segs s

@[simp] theorem State.remember_reports (s : State) (owner : Nat) (mark : Word) (m : Bool) (res : Word) :
    (s.remember owner mark m res).reports = s.reports := by
  unfold State.remember
  dsimp only
  split
  · rfl
  · rfl

@[simp] theorem State.onEnding_reports (s : State) (o : Op) (f : Launch → Launch) : (s.onEnding o f).reports = s.reports := by
  unfold State.onEnding
  split
  · rfl
  · rfl

@[simp] theorem State.blockNow_reports (s : State) (o : Op) : (s.blockNow o).reports = s.reports := by
  have hmoved : ∀ (l : List Seg) (a : State × List Byte),
      (l.foldl (fun (a : State × List Byte) g => (a.1.put g (a.2.take g.len), a.2.drop g.len)) a).1.reports = a.1.reports := fun l a =>
    l.foldlRecOn _ (motive := fun b : State × List Byte => b.1.reports = a.1.reports) rfl fun b hb g _ => (b.1.put_reports g _).trans hb
  unfold State.blockNow
  dsimp only
  rw [State.foldl_reports State.smearSeg_reports, State.dropOp_reports, hmoved, State.noteBars_reports]

@[simp] theorem State.outlive_reports (s : State) (o : Op) : (s.outlive o).reports = s.reports := by
  unfold State.outlive
  dsimp only
  split
  · rfl
  · rfl

@[simp] theorem State.outliveNew_reports (s : State) (o : Op) : (s.outliveNew o).reports = s.reports := rfl

/-! ### Baskets, engines and messages -/

@[simp] theorem State.mirrorMembk_reports (s : State) (c : CoreId) (ctx : Half) (old k : CoreSt) : (s.mirrorMembk c ctx old k).reports = s.reports := by
  unfold State.mirrorMembk
  split
  · rfl
  · split
    · rfl
    · exact State.foldl_reports (fun u m => u.wr_reports _ _) _ s

@[simp] theorem State.dropMsgs_reports (s : State) (l : Launch) (c : CoreId) : (s.dropMsgs l c).reports = s.reports := by
  unfold State.dropMsgs
  dsimp only
  split
  · rfl
  · exact s.mirrorMembk_reports _ _ _ _

@[simp] theorem State.setPileAny_reports (s : State) (b : Nat) (lid : Half) (p : Pile) : (s.setPileAny b lid p).reports = s.reports := by
  unfold State.setPileAny
  split
  · rfl
  · rfl

@[simp] theorem State.mirrorWindow_reports (s : State) (ctx : Half) (owner : Nat) (mark : Word) : (s.mirrorWindow ctx owner mark).reports = s.reports := by
  unfold State.mirrorWindow
  split
  · exact s.wr_reports _ _
  · rfl

theorem State.writeResidue_reports (s : State) (l : Launch) : (s.writeResidue l).reports = s.reports := by
  unfold State.writeResidue
  split
  · rfl
  · dsimp only
    cases hw : s.wrV l.ctx l.rlist _ with
    | none => rfl
    | some u => exact (s.wrV_reports _ _ _).of_eq hw

@[simp] theorem State.signalAt_reports (s : State) (a : Option Nat) : (s.signalAt a).reports = s.reports := by
  unfold State.signalAt
  split
  · rfl
  · exact State.wrRw_reports _ s _

/-! ### Copies -/

@[simp] theorem State.setCopyQ_reports (s : State) (q : CopyQ) : (s.setCopyQ q).reports = s.reports := by
  unfold State.setCopyQ
  split
  · rfl
  · rfl

@[simp] theorem State.syncCopyQ_reports (s : State) (q : CopyQ) (i : Nat) : (s.syncCopyQ q i).reports = s.reports := by
  unfold State.syncCopyQ
  split
  · rfl
  · split
    · rw [State.wr64_reports, State.wr64_reports]
    · rw [State.wr_reports, State.wr64_reports, State.wr64_reports]

@[simp] theorem State.syncWhole_reports (s : State) (q : CopyQ) : (s.syncWhole q).reports = s.reports :=
  State.foldl_reports (fun u i => u.syncCopyQ_reports q i) _ s

@[simp] theorem State.passEntries_reports (s : State) (gone : CopyE → Bool) : (s.passEntries gone).reports = s.reports := by
  refine State.foldl_reports (fun u q => ?_) _ s
  dsimp only
  split
  · rfl
  · rw [State.syncWhole_reports, State.setCopyQ_reports]

@[simp] theorem State.copyMove_reports (s : State) (src dst : List Seg) : (s.copyMove src dst).reports = s.reports := by
  unfold State.copyMove
  rw [State.foldl_reports fun u g => u.put_reports g _, State.noteBars_reports]

theorem State.copyChunk_reports (s : State) (f : Nat → Nat) (v : View) (d : Vec) (pos : Nat) : (s.copyChunk f v d pos).1.reports = s.reports := by
  unfold State.copyChunk
  extract_lets n src dst move upTo
  have hmove : ∀ k, (move k).1.reports = s.reports := by
    intro k
    dsimp only [move]
    split
    · split
      · rfl
      · split
        · split
          · exact s.copyMove_reports _ _
          · rfl
        · exact s.copyMove_reports _ _
    · rfl
  have hupTo : ∀ k c, (upTo k c).1.reports = s.reports := by
    intro k c
    have hk := hmove k
    dsimp only [upTo]
    split
    · rename_i hm
      rwa [hm] at hk
    · exact hk
  split
  · exact hmove n
  · exact hupTo _ _
  · exact hupTo _ _
  · exact hupTo _ _

@[simp] theorem State.smearChunk_reports (s : State) (f : Nat → Nat) (v : View) (d : Vec) (pos n : Nat) :
    (s.smearChunk f v d pos n).reports = s.reports := by
  unfold State.smearChunk
  split
  · exact State.foldl_reports State.smearSeg_reports _ s
  · rfl

@[simp] theorem State.orphanChunk_reports (s : State) (f : Nat → Nat) (o : Op) (d : Vec) (smeared : Bool) (pos n : Nat) :
    (s.orphanChunk f o d smeared pos n).reports = s.reports := by
  unfold State.orphanChunk
  split
  · dsimp only
    split
    · rfl
    · split
      · exact s.noteBars_reports _
      · rfl
  · rfl

@[simp] theorem State.copyRest_reports (f : Nat → Nat) (o : Op) (d : Vec) (smeared : Bool) (fuel : Nat) (s : State) (pos : Nat) :
    (State.copyRest f o d smeared fuel s pos).reports = s.reports := by
  induction fuel generalizing s pos with
  | zero => rfl
  | succ n ih =>
    unfold State.copyRest
    extract_lets later
    have hlater : ∀ u, (later u).reports = u.reports := by
      intro u
      dsimp only [later]
      split
      · exact u.orphanChunk_reports _ _ _ _ _ _
      · rw [ih, State.orphanChunk_reports]
    have hchunk := s.copyChunk_reports f o.view d pos
    have hsmear : ∀ (u : State) k, u.reports = s.reports → (if smeared then u.smearChunk f o.view d pos k else u).reports = s.reports := by
      intro u k hu
      split
      · rw [State.smearChunk_reports, hu]
      · exact hu
    split
    · rfl
    · split
      · exact hlater s
      · split
        all_goals
          rename_i hc
          rw [hc] at hchunk
        · rw [ih, hsmear _ _ hchunk]
        · rw [hlater, hchunk]
        · exact hsmear _ _ hchunk

/-! ### The end of a launch -/

theorem State.moveScratch_reports (s : State) (ctx : Half) (from_ to_ n : Nat) : (s.moveScratch ctx from_ to_ n).reports = s.reports := by
  unfold State.moveScratch
  dsimp only
  split
  · rfl
  · exact s.wr_reports _ _

theorem State.settle_reports (s : State) (l : Launch) (status : Word) : (s.settle l status).reports = s.reports := by
  have hsignal : (if l.sslot = 0 then s else s.signalAt (s.slotAddr l l.sslot)).reports = s.reports := by
    split
    · rfl
    · exact s.signalAt_reports _
  unfold State.settle
  dsimp only
  split
  · exact hsignal
  · exact hsignal
  · exact hsignal

theorem State.writeCrec_reports (s : State) (ctx : Half) (crec : Word) (d : List Byte) : Yields (fun u => u.reports = s.reports) (s.writeCrec ctx crec d) := by
  unfold State.writeCrec
  split
  · trivial
  · unfold State.wrTarget
    split
    · rename_i he
      exact (s.wrV_reports _ _ _).of_eq he
    · split
      · exact s.hostWr_reports _ _
      · trivial

/-- The record of an ended launch is reported where it cannot be written, behind the reports that stand (R122). -/
theorem State.closeOne_reports (s : State) (e : Ending) : s.reports ⊆ (s.closeOne e).reports := by
  unfold State.closeOne
  extract_lets s1 d s2
  have h2 : s.reports ⊆ s2.reports := by
    dsimp only [s2]
    split
    · rename_i u he
      exact ((s1.writeCrec_reports _ _ _).of_eq he).symm ▸ List.Subset.refl _
    · exact List.subset_cons_self _ _
  split
  · exact List.Subset.refl _
  · rwa [State.settle_reports]

theorem State.close_reports (s : State) : s.reports ⊆ s.close.reports :=
  s.ending.foldlRecOn _ (motive := fun u : State => s.reports ⊆ u.reports) (List.Subset.refl _) fun u hu e _ => List.Subset.trans hu (u.closeOne_reports e)

end Sys2Proof.Machine
end

section
/-!
What the kill of a context leaves (R181, R237): its report stands, and no launch of the context is left. `OnlyEnds` says what each operation of a kill keeps;
a state operation `f` has the lemma `OnlyEnds.f`, and one that `SameRoster` speaks of goes through `OnlyEnds.same`.
-/

namespace Sys2Proof.Machine

open Sys2Proof Sys2Proof.Claims

/-- From `s` to `u` no report goes, and no launch comes or changes its context. -/
def OnlyEnds (s u : State) : Prop := s.reports ⊆ u.reports ∧ ∀ l ∈ u.launches, ∃ k ∈ s.launches, k.lid = l.lid ∧ k.ctx = l.ctx

section

variable {s u w : State}

theorem OnlyEnds.refl : OnlyEnds s s := ⟨List.Subset.refl _, fun l hl => ⟨l, hl, rfl, rfl⟩⟩

theorem OnlyEnds.report {r : Report} (h : OnlyEnds s u) (hr : r ∈ s.reports) : r ∈ u.reports := h.1 hr

theorem OnlyEnds.gone {lid : Half} (h : OnlyEnds s u) (hn : s.launch lid = none) : u.launch lid = none := by
  refine State.launch_eq_none.mpr fun l hl he => ?_
  obtain ⟨k, hk, hlid, -⟩ := h.2 l hl
  exact State.launch_eq_none.mp hn k hk (hlid.trans he)

theorem OnlyEnds.trans (h : OnlyEnds s u) (k : OnlyEnds u w) : OnlyEnds s w := by
  refine ⟨List.Subset.trans h.1 k.1, fun l hl => ?_⟩
  obtain ⟨m, hm, hmlid, hmctx⟩ := k.2 l hl
  obtain ⟨n, hn, hnlid, hnctx⟩ := h.2 m hm
  exact ⟨n, hn, hnlid.trans hmlid, hnctx.trans hmctx⟩

theorem OnlyEnds.more (h : OnlyEnds s u) (k : SameRoster u w) (hr : u.reports ⊆ w.reports) : OnlyEnds s w :=
  h.trans ⟨hr, fun l hl => ⟨l, k.2.1 ▸ hl, rfl, rfl⟩⟩

theorem OnlyEnds.same (h : OnlyEnds s u) (k : SameRoster u w) (hr : w.reports = u.reports) : OnlyEnds s w :=
  h.more k (hr.symm ▸ List.Subset.refl _)

theorem OnlyEnds.ite {c : Prop} [Decidable c] (h : OnlyEnds s u) (k : OnlyEnds s w) : OnlyEnds s (if c then u else w) := by
  split
  · exact h
  · exact k

theorem OnlyEnds.foldl {α : Type} {f : State → α → State} {l : List α} (h : OnlyEnds s u) (hf : ∀ v x, OnlyEnds s v → OnlyEnds s (f v x)) :
    OnlyEnds s (l.foldl f u) := l.foldlRecOn f h fun v hv x _ => hf v x hv

theorem OnlyEnds.onLaunch {lid : Option Half} {f : Launch → Launch} (h : OnlyEnds s u) (hf : ∀ l, (f l).lid = l.lid ∧ (f l).ctx = l.ctx) :
    OnlyEnds s (u.onLaunch lid f) := by
  unfold State.onLaunch
  split
  · exact h
  · refine h.trans ⟨List.Subset.refl _, fun l hl => ?_⟩
    obtain ⟨k, hk, rfl⟩ := List.mem_map.mp hl
    refine ⟨k, hk, ?_⟩
    split
    · exact ⟨(hf k).1.symm, (hf k).2.symm⟩
    · exact ⟨rfl, rfl⟩

/-! ### Operations as their launch ends -/

theorem OnlyEnds.endWith {id : Nat} {status : Word} (h : OnlyEnds s u) : OnlyEnds s (u.endWith id status) := by
  unfold State.endWith
  split
  · refine OnlyEnds.trans (u := u) h ?_
    split
    · exact OnlyEnds.refl
    · exact OnlyEnds.refl
  · exact h

theorem OnlyEnds.amoNow {o : Op} (h : OnlyEnds s u) : OnlyEnds s (u.amoNow o) := by
  unfold State.amoNow
  split
  · exact h
  · extract_lets m old push bad s1 s2 s3 s4
    have h1 : OnlyEnds s s1 := by
      dsimp only [s1]
      split
      · exact h.same SameRoster.refl.noteBar (u.noteBar_reports _)
      · exact h.same SameRoster.refl.put (u.put_reports _ _)
    have h2 : OnlyEnds s s2 := h1.same SameRoster.refl.remember (s1.remember_reports _ _ _ _)
    have h3 : OnlyEnds s s3 :=
      OnlyEnds.ite (OnlyEnds.same (h2.onLaunch (f := fun l => { l with mappl := l.mappl + 1 }) fun _ => ⟨rfl, rfl⟩) SameRoster.refl.onEnding
        (State.onEnding_reports _ _ _)) h2
    have h4 : OnlyEnds s s4 := by
      refine OnlyEnds.ite ?_ h3
      cases bad with
      | none => exact h3
      | some x => exact h3
    exact h4

theorem OnlyEnds.gainNow {o : Op} (h : OnlyEnds s u) : OnlyEnds s (u.gainNow o) := by
  have happlied : ∀ b lid ctx p owner mark m r, OnlyEnds s (((u.setPileAny b lid p).remember owner mark m r).mirrorWindow ctx owner mark) := by
    intros
    exact h.same SameRoster.refl.setPileAny.remember.mirrorWindow
      (by rw [State.mirrorWindow_reports, State.remember_reports, State.setPileAny_reports])
  unfold State.gainNow
  split
  · exact h
  · dsimp only
    exact OnlyEnds.ite h (OnlyEnds.ite ((happlied _ _ _ _ _ _ _ _).onLaunch fun _ => ⟨rfl, rfl⟩) (happlied _ _ _ _ _ _ _ _))

theorem OnlyEnds.finishOp {f : Nat → Nat} {o : Op} (h : OnlyEnds s u) : OnlyEnds s (u.finishOp f o) := by
  have hlate : ∀ x, OnlyEnds s (u.outlive x) := fun x => h.same SameRoster.refl.outlive (u.outlive_reports x)
  have hstore : ∀ x, OnlyEnds s (u.storeNow x) := fun x => h.same SameRoster.refl.storeNow (u.storeNow_reports x)
  have hblock : ∀ x, OnlyEnds s (u.blockNow x) := fun x => h.same SameRoster.refl.blockNow (u.blockNow_reports x)
  have hread : ∀ (l : List Seg) x, OnlyEnds s ((l.foldl State.noteBar u).outlive x) := fun l x =>
    h.same SameRoster.refl.noteBars.outlive (by rw [State.outlive_reports, State.noteBars_reports])
  unfold State.finishOp
  dsimp only
  split
  · exact OnlyEnds.ite h (OnlyEnds.ite (hstore _) (hlate _))
  · exact OnlyEnds.ite h (OnlyEnds.ite (hstore _) (hlate _))
  · exact OnlyEnds.ite h (OnlyEnds.ite (hstore _) (hlate _))
  · exact hstore _
  · exact OnlyEnds.ite (hlate _) (hstore _)
  · exact OnlyEnds.ite h (OnlyEnds.ite h.amoNow (hlate _))
  · exact OnlyEnds.ite h (OnlyEnds.ite (hlate _) (OnlyEnds.ite h (hblock _)))
  · exact OnlyEnds.ite h (OnlyEnds.ite (hblock _) (hread _ _))
  · exact OnlyEnds.gainNow (u := u.dropOp o.id) h
  · split
    · exact h.same (w := State.copyRest _ _ _ _ _ (u.dropOp o.id) _) (SameRoster.copyRest SameRoster.refl) (State.copyRest_reports _ _ _ _ _ _ _)
    · exact h
  · exact OnlyEnds.ite (hlate _) h
  · exact OnlyEnds.ite (hlate _) h
  · exact OnlyEnds.ite (hlate _) h
  · exact h

theorem OnlyEnds.flushOps {p : Op → Bool} (h : OnlyEnds s u) : OnlyEnds s (u.flushOps p) := h.foldl fun _ _ hv => hv.finishOp

theorem OnlyEnds.finishFrozen {o : Op} (h : OnlyEnds s u) : OnlyEnds s (u.finishFrozen o) := by
  refine OnlyEnds.ite h ?_
  split
  case h_6 => exact h
  all_goals
    split
    · exact h.finishOp
    · exact h.finishOp

theorem OnlyEnds.discardWork {l : Launch} (h : OnlyEnds s u) : OnlyEnds s (u.discardWork l) := by
  unfold State.discardWork
  extract_lets mine imgs n1 n recs s1 s2 s3
  have h1 : OnlyEnds s s1 := h.foldl fun v c hv => hv.same SameRoster.refl.dropMsgs (v.dropMsgs_reports l c)
  have h3 : OnlyEnds s s3 := OnlyEnds.foldl (u := s2) h1 fun _ _ hv => hv.finishFrozen
  exact h3.onLaunch fun _ => ⟨rfl, rfl⟩

theorem OnlyEnds.raiseAreas {l : Launch} (h : OnlyEnds s u) : OnlyEnds s (u.raiseAreas l) := by
  refine h.foldl fun _ _ hv => hv.foldl fun _ _ hw => OnlyEnds.onLaunch (OnlyEnds.ite hw ?_) fun _ => ⟨rfl, rfl⟩
  exact hw.foldl fun v _ hx => hx.same SameRoster.refl.moveScratch (v.moveScratch_reports _ _ _ _)

/-! ### The end of a launch -/

theorem OnlyEnds.close (h : OnlyEnds s u) : OnlyEnds s u.close := h.more (SameRoster.close SameRoster.refl) u.close_reports

theorem OnlyEnds.endLaunchAt {lid : Half} {status : Nat} {stamp : Stamp} (h : OnlyEnds s u) : OnlyEnds s (u.endLaunchAt lid status stamp) := by
  unfold State.endLaunchAt
  split
  · exact h
  · extract_lets s1 s2 s3 l1 l resid s4 s5 gone s6
    have h3 : OnlyEnds s s3 := OnlyEnds.discardWork (u := s2) h.flushOps
    have h4 : OnlyEnds s s4 := OnlyEnds.ite (h3.same SameRoster.refl.writeResidue (s3.writeResidue_reports l)) h3
    have hswept : OnlyEnds s (((s4.sweep l).sweepCopies l).raiseAreas l) :=
      OnlyEnds.raiseAreas (h4.same SameRoster.refl.sweep.sweepCopies (State.passEntries_reports (s4.sweep l) _))
    have h5 : OnlyEnds s s5 := OnlyEnds.ite hswept hswept
    have h6 : OnlyEnds s s6 := h5.trans ⟨List.Subset.refl _, fun x hx => ⟨x, (List.mem_filter.mp hx).1, rfl, rfl⟩⟩
    exact OnlyEnds.close (u := { s6 with ending := s6.ending ++ [{ l := l, status := status, stamp := stamp, resid := resid }] }) h6

/-! ### The kill of a context -/

theorem OnlyEnds.stopFreezes {ctx : Half} (h : OnlyEnds s u) : OnlyEnds s (u.stopFreezes ctx) := by
  refine h.foldl fun v b hv => ?_
  split
  · exact hv
  · refine OnlyEnds.ite hv (OnlyEnds.endWith ?_)
    exact OnlyEnds.foldl (u := v.setBundle _ _) hv fun _ _ hw => hw

end

theorem Launch.dropHeld_same (l : Launch) (x : ThreadSet) : (l.dropHeld x).lid = l.lid ∧ (l.dropHeld x).ctx = l.ctx := by
  unfold Launch.dropHeld
  split
  · exact ⟨rfl, rfl⟩
  · split
    · exact ⟨rfl, rfl⟩
    · split
      · exact ⟨rfl, rfl⟩
      · exact ⟨rfl, rfl⟩
      · exact ⟨rfl, rfl⟩

theorem Launch.dropHelds_same (l : Launch) (xs : List ThreadSet) :
    (xs.foldl Launch.dropHeld l).lid = l.lid ∧ (xs.foldl Launch.dropHeld l).ctx = l.ctx :=
  xs.foldlRecOn _ (motive := fun k : Launch => k.lid = l.lid ∧ k.ctx = l.ctx) ⟨rfl, rfl⟩ fun k hk x _ =>
    ⟨(k.dropHeld_same x).1.trans hk.1, (k.dropHeld_same x).2.trans hk.2⟩

/-- A kill ends a launch with what trapped thread sets hold of it. -/
def State.endHeld (held : List ThreadSet) (stamp : Stamp) (s : State) (l : Launch) : State :=
  (s.onLaunch (some l.lid) fun x => held.foldl Launch.dropHeld x).endLaunchAt l.lid 10 stamp

theorem OnlyEnds.endHeld {s u : State} {held : List ThreadSet} {stamp : Stamp} {l : Launch} (h : OnlyEnds s u) : OnlyEnds s (u.endHeld held stamp l) :=
  OnlyEnds.endLaunchAt (h.onLaunch fun x => x.dropHelds_same held)

theorem OnlyEnds.endHelds {s u : State} {held : List ThreadSet} {stamp : Stamp} {ls : List Launch} (h : OnlyEnds s u) :
    OnlyEnds s (ls.foldl (State.endHeld held stamp) u) := h.foldl fun _ _ hv => hv.endHeld

theorem State.launch_endHelds {held : List ThreadSet} {stamp : Stamp} {ls : List Launch} {l : Launch} (hl : l ∈ ls) (s : State) :
    (ls.foldl (State.endHeld held stamp) s).launch l.lid = none := by
  induction ls generalizing s with
  | nil => cases hl
  | cons k r ih =>
    rcases List.mem_cons.mp hl with rfl | hr
    · have hgone : (s.endHeld held stamp l).launch l.lid = none := (State.endLaunchAt_gone _ _ _ _).2
      exact (OnlyEnds.endHelds (s := s.endHeld held stamp l) OnlyEnds.refl).gone hgone
    · exact ih hr _

/-- After a kill of context `ctx` for cause `n`: no launch of it is left, and a report that names the cause stands. -/
def Killed (u : State) (ctx : Half) (n : Nat) : Prop :=
  ∃ d, (∀ l ∈ u.launches, l.ctx ≠ ctx) ∧ .kill d ∈ u.reports ∧ sliceB d 0 8 = leBytes 8 n

theorem sliceB_append_left {a : List Byte} {n : Nat} (h : a.length = n) (b : List Byte) : sliceB (a ++ b) 0 n = a := by
  subst h
  simp [sliceB]

theorem killReport_cause (k : KillCause) (cs : List KillCause) (msg who : Word) (stamp : Stamp) :
    sliceB (killReport (k :: cs) msg who stamp) 0 8 = leBytes 8 k.cause.toNat := by
  simp only [killReport, List.cons_append, List.flatMap_cons, List.append_assoc]
  exact sliceB_append_left (length_leBytes 8 _) _

theorem State.killContext_killed (s : State) (ctx : Half) (k : KillCause) (cs : List KillCause) (msg who : Word) (by_ : Option TsId) :
    Killed (s.killContext ctx (k :: cs) msg who by_) ctx k.cause.toNat := by
  refine ⟨killReport (k :: cs) msg who s.stamp, ?_⟩
  unfold State.killContext
  extract_lets stamp s1 held mine s2 s3 s4
  have h2 : OnlyEnds s1 s2 := OnlyEnds.endHelds OnlyEnds.refl
  have hrest : OnlyEnds s2 (s4.stopFreezes ctx) := OnlyEnds.stopFreezes (u := s4) (OnlyEnds.flushOps (u := s2.stamped) OnlyEnds.refl)
  have hall : OnlyEnds s1 (s4.stopFreezes ctx) := h2.trans hrest
  refine ⟨fun l hl hctx => ?_, hall.report List.mem_cons_self, killReport_cause k cs msg who s.stamp⟩
  obtain ⟨m, hm, hlid, hmctx⟩ := hall.2 l hl
  have hmine : m ∈ mine := List.mem_filter.mpr ⟨hm, decide_eq_true (hmctx.trans hctx)⟩
  exact State.launch_eq_none.mp (hrest.gone (State.launch_endHelds hmine s1)) l hl hlid.symm

end Sys2Proof.Machine
end

section
/-!
Held and parked accesses (R81, R167, R187, R340): O42.
-/

namespace Sys2Proof.Machine

open Sys2Proof Sys2Proof.Claims

/-! ## Operations by name -/

theorem State.id_of_op {s : State} {id : Nat} {o : Op} (h : s.op id = some o) : o.id = id := by
  simpa using List.find?_some h

theorem State.op_setOp {s : State} {id : Nat} {o x : Op} (h : s.op id = some o) (hx : x.id = id) : (s.setOp x).op id = some x := by
  have hfind : ∀ l : List Op, l.find? (fun y => decide (y.id = id)) = some o →
      (l.map fun y => if y.id = x.id then x else y).find? (fun y => decide (y.id = id)) = some x := by
    intro l
    induction l with
    | nil => exact nofun
    | cons y r ih =>
      intro hl
      by_cases hy : y.id = id
      · simp [hx, hy]
      · simpa [hx, hy] using ih (by simpa [hy] using hl)
  exact hfind s.ops h

theorem State.rdByte_dropOp {s : State} {x : Nat} (id : Nat) (h : s.inBrd x = false) : (s.dropOp id).rdByte x = s.rdByte x := by
  refine State.rdByte_ops rfl x h (Bool.eq_false_iff.mpr fun hd => ?_)
  exact Bool.false_ne_true (h.symm.trans (s.inBrd_drop id x hd))

/-- An entry of a load queue takes the value that it waits for. -/
theorem filled_fillQE {α : Type} (id which : Nat) (v : LdE α) (q : List (LdE α)) : filled id which v q (fillQE id which v q) := by
  intro pre post hq hpre
  subst hq
  induction pre with
  | nil => simp [fillQE]
  | cons x r ih =>
    obtain ⟨hx, hr⟩ := not_or.mp (mt List.mem_cons.mpr hpre)
    cases x with
    | wait i w =>
      have hne : ¬(i = id ∧ w = which) := fun ⟨hi, hw⟩ => hx (by rw [hi, hw])
      rw [List.cons_append, fillQE, if_neg hne, ih hr, List.cons_append]
    | ready y => exact congrArg (LdE.ready y :: ·) (ih hr)
    | bad c a => exact congrArg (LdE.bad c a :: ·) (ih hr)

/-- A load that ends in a failure: its entry of the scalar queue tells, and no byte changes. -/
theorem State.failed_load {s : State} {o : Op} (hq : o.q = 1) (c : Cause) (a : Word) :
    opGone s ((s.fillBad o c a).dropOp o.id) o.id ∧ SameBytes s ((s.fillBad o c a).dropOp o.id) ∧
    filled o.id 0 (.bad c a) (s.tsGet o.t).slq (((s.fillBad o c a).dropOp o.id).tsGet o.t).slq := by
  rw [State.fillBad, if_pos hq]
  refine ⟨rfl, fun x hx => ?_, ?_⟩
  · exact State.rdByte_dropOp (s := s.fillS o.t o.id 0 (.bad c a)) o.id hx
  · rw [State.tsGet_dropOp, State.fillS, State.tsGet_tsSet]
    exact filled_fillQE o.id 0 _ _

/-! ## A store of one piece -/

/-- A store that lies in one piece is taken: its bytes stand, no other byte changes, and it is outstanding no more (R154). -/
theorem State.storeNow_piece {s : State} {o : Op} {g : Seg} (hg : o.segs = [g]) (hb : s.barred g.bus = false) (hw : writable s g.bus g.len) :
    opGone s (s.storeNow o) o.id ∧ holds (s.storeNow o) g.bus (sliceB o.data g.off g.len) ∧ storedOnly s (s.storeNow o) g.bus g.len := by
  obtain ⟨hplain, hfree⟩ := hw
  have hlen : (sliceB o.data g.off g.len).length = g.len := State.length_sliceB _ _ _
  have hnow : s.storeNow o = (s.wr g.bus (sliceB o.data g.off g.len)).dropOp o.id := by
    rw [State.storeNow, hg, List.foldl_cons, List.foldl_nil, State.put, hb, if_neg Bool.false_ne_true, State.wrRw_eq_wr _ (hlen.symm ▸ hfree)]
  have hbytes : ∀ x, s.inBrd x = false → (s.storeNow o).rdByte x = (s.wr g.bus (sliceB o.data g.off g.len)).rdByte x := fun x hx => by
    rw [hnow]
    exact State.rdByte_dropOp o.id ((State.inBrd_wr _ s g.bus x).trans hx)
  refine ⟨?_, ?_, fun x hx hout => ?_⟩
  · rw [hnow, State.wr_frame]
    rfl
  · rw [holds, State.rd_congr fun i hi => hbytes (g.bus + i) (hplain i (hlen ▸ hi)).1]
    exact Lasting.rd_wr _ (hlen.symm ▸ Lasting.of_plain hplain)
  · rw [hbytes x hx]
    refine State.rdByte_wr_outside _ s g.bus x ?_
    rw [hlen]
    by_contra hin
    obtain ⟨i, hi, rfl⟩ : ∃ i, i < g.len ∧ x = g.bus + i := ⟨x - g.bus, by omega, by omega⟩
    rcases hout with hlow | hhigh | hown
    · omega
    · omega
    · exact Bool.false_ne_true ((hfree i hi).symm.trans hown)

/-! ## The kill for an operation -/

theorem at64_code (c : Cause) : (at64 c.code 0).toNat = c.code := by cases c <;> rfl

theorem at64_code_replay (c : Cause) : (at64 c.code 0 ||| at64 1 8).toNat = c.code + 256 := by cases c <;> rfl

/-- The report of a replay that fails names its cause, with REPLAY set (R187). -/
theorem State.killReplay_killed (s : State) (o : Op) (c : Cause) (a : Word) : Killed (s.killReplay o c a) o.ctx (c.code + 256) :=
  at64_code_replay c ▸ State.killContext_killed _ _ _ _ _ _ _

theorem State.killFor_killed (s : State) {o : Op} (ho : o.orphan = false) (c : Cause) (a : Word) : Killed (s.killFor o (at64 c.code 0) a) o.ctx c.code := by
  rw [State.killFor, ho, if_neg Bool.false_ne_true]
  have hk := State.killContext_killed (s.dropOp o.id) o.ctx { cause := at64 c.code 0, epc := 0, addr := a } [] 0
    (whoWord o.t o.lid o.ctx (s.tsGet o.t).tlev false) none
  rwa [at64_code] at hk

/-! ## A held or parked access goes on -/

/-- No older parked store of the thread set shares a page with the operation (R81). -/
def State.firstParked (s : State) (id : Nat) (o : Op) : Prop := ∀ x ∈ s.older id, x.t = o.t → x.parked = true → ∀ p ∈ x.pages, p ∉ o.pages

theorem State.firstParked_iff (s : State) (id : Nat) (o : Op) : s.firstParked id o ↔
    (s.older id).any (fun x => decide (x.t = o.t) && x.parked && x.pages.any (fun p => o.pages.contains p)) = false := by
  simp [State.firstParked]

theorem State.recheckOp_keeps {s : State} {o o' : Op} {nr : Bool} (h : s.recheckOp o = .ok (o', nr)) :
    o'.id = o.id ∧ o'.parked = o.parked ∧ o'.data = o.data := by
  unfold State.recheckOp at h
  split at h
  · cases h
    exact ⟨rfl, rfl, rfl⟩
  · cases h
  · cases h

section

variable {s : State} {id : Nat} {o : Op}

theorem execHeldAccessResume_goes {o' : Op} (hop : s.op id = some o) (hheld : o.held = true) (hp : o.parked = false) (hdead : o.dead = none)
    (hre : s.recheckOp o = .ok (o', false)) : execHeldAccessResume id s = .next (s.setOp { o' with held := false }) := by
  have hp' : o'.parked = false := (State.recheckOp_keeps hre).2.1.trans hp
  simp [execHeldAccessResume, hop, hheld, hp, hdead, hre, hp']

theorem execHeldAccessResume_performs {o' : Op} (hop : s.op id = some o) (hp : o.parked = true) (hdead : o.dead = none) (hfirst : s.firstParked id o)
    (hre : s.recheckOp o = .ok (o', false)) (hclear : s.clear o' o'.segs false = true) : execHeldAccessResume id s = .next (s.storeNow o') := by
  have hp' : o'.parked = true := (State.recheckOp_keeps hre).2.1.trans hp
  have hbehind := (s.firstParked_iff id o).mp hfirst
  simp only [execHeldAccessResume, hop, hp, hdead, hbehind, hre, hp', hclear, Bool.or_true, Bool.not_true, Option.isSome_none, Bool.and_false, Bool.or_self,
    Bool.false_eq_true, if_false, if_true]

theorem execHeldAccessResume_behind (hop : s.op id = some o) (hp : o.parked = true) (hb : ¬ s.firstParked id o) :
    execHeldAccessResume id s = .next s := by
  rw [State.firstParked_iff, Bool.not_eq_false] at hb
  simp only [execHeldAccessResume, hop, hp, hb, Bool.and_self, Bool.or_true, if_true]

theorem execHeldAccessResume_waits {o' : Op} (hop : s.op id = some o) (hre : s.recheckOp o = .ok (o', true)) : execHeldAccessResume id s = .next s := by
  simp only [execHeldAccessResume, hop, hre, ite_self]

/-! ## A held or parked access fails -/

theorem execHeldAccessFail_waits {r : Op × Bool} (hop : s.op id = some o) (hre : s.recheckOp o = .ok r) : execHeldAccessFail id s = .next s := by
  simp only [execHeldAccessFail, hop, hre, ite_self]

variable {c : Cause} {a : Word}

theorem execHeldAccessFail_replay (hop : s.op id = some o) (hwaits : o.held = true ∨ o.parked = true) (hdead : o.dead = none) (ho : o.orphan = false)
    (hre : s.recheckOp o = .error (c, a)) (hr : o.replay = true) : execHeldAccessFail id s = .next ((s.dropOp id).killReplay o c a) := by
  have hw : (o.held || o.parked) = true := (Bool.or_eq_true _ _).mpr hwaits
  simp [execHeldAccessFail, hop, hw, hdead, hre, hr, ho]

theorem execHeldAccessFail_parked (hop : s.op id = some o) (hp : o.parked = true) (hdead : o.dead = none) (hre : s.recheckOp o = .error (c, a))
    (hr : o.replay = false) : execHeldAccessFail id s = .next (s.setOp { o with dead := some (c, a) }) := by
  simp [execHeldAccessFail, hop, hp, hdead, hre, hr]

theorem execHeldAccessFail_load {g : Seg} {r : List Seg} (hop : s.op id = some o) (hheld : o.held = true) (hp : o.parked = false) (hdead : o.dead = none)
    (hre : s.recheckOp o = .error (c, a)) (hr : o.replay = false) (hk : o.kind = .ld) (hq : o.q = 1) (hg : o.segs = g :: r) :
    execHeldAccessFail id s = .next ((s.fillBad o .xlate g.va).dropOp id) := by
  simp [execHeldAccessFail, hop, hheld, hp, hdead, hre, hr, hk, hq, hg]

theorem execHeldAccessFail_kills (hop : s.op id = some o) (hheld : o.held = true) (hp : o.parked = false) (hdead : o.dead = none)
    (hre : s.recheckOp o = .error (c, a)) (hr : o.replay = false) (hk : o.kind = .brd ∨ o.kind = .bwr ∨ o.kind = .mst) :
    execHeldAccessFail id s = .next (s.killFor o (at64 (if o.kind = .mst then c else .xlate).code 0) a) := by
  rcases hk with hk | hk | hk
  all_goals simp [execHeldAccessFail, hop, hheld, hp, hdead, hre, hr, hk]

/-- The kill that ends a replay, a block operation or an MST whose page is gone (R81, R187, R340). -/
theorem execHeldAccessFail_killed (hop : s.op id = some o) (hwaits : o.held = true ∨ o.parked = true) (hdead : o.dead = none) (ho : o.orphan = false)
    (hre : s.recheckOp o = .error (c, a)) (hk : o.replay = true ∨ (o.parked = false ∧ (o.kind = .brd ∨ o.kind = .bwr ∨ o.kind = .mst))) :
    ∃ u, execHeldAccessFail id s = .next u ∧ Killed u o.ctx (if o.replay then c.code + 256 else if o.kind = .mst then c.code else 5) := by
  cases hr : o.replay with
  | true => exact ⟨_, execHeldAccessFail_replay hop hwaits hdead ho hre hr, State.killReplay_killed _ _ _ _⟩
  | false =>
    obtain ⟨hp, hkind⟩ := hk.resolve_left (hr ▸ Bool.false_ne_true)
    have hheld : o.held = true := hwaits.resolve_right (hp ▸ Bool.false_ne_true)
    have hcode : (if o.kind = .mst then c else .xlate).code = if o.kind = .mst then c.code else 5 := apply_ite Cause.code _ c .xlate
    exact ⟨_, execHeldAccessFail_kills hop hheld hp hdead hre hr hkind, hcode ▸ s.killFor_killed ho _ a⟩

end

/-- Settles O42: the new check of the operation's pages tells what becomes of it, and its failure is one of five ends, by the kind of the operation. -/
theorem heldAccessResult : Obligations.HeldAccessResult := by
  intro s id o hop hwaits hdead ho
  have hid : o.id = id := State.id_of_op hop
  have hheld : o.parked = false → o.held = true := fun hp => hwaits.resolve_right (hp ▸ Bool.false_ne_true)
  refine ⟨fun o' hp hre => ?_, fun o' g hp hfirst hre hclear hg hb hw => ?_, execHeldAccessResume_behind hop,
    fun o' hre => ⟨execHeldAccessResume_waits hop hre, execHeldAccessFail_waits hop hre⟩,
    fun c a hre => ⟨fun hp hr => ?_, fun g r hp hr hk hq hg => ?_, fun hk => ?_⟩⟩
  · obtain ⟨hid', -, hdata⟩ := State.recheckOp_keeps hre
    exact ⟨_, execHeldAccessResume_goes hop (hheld hp) hp hdead hre, State.op_setOp hop (hid'.trans hid), hdata, rfl⟩
  · obtain ⟨hid', -, hdata⟩ := State.recheckOp_keeps hre
    obtain ⟨hgone, hholds, hstored⟩ := State.storeNow_piece hg hb hw
    exact ⟨_, execHeldAccessResume_performs hop hp hdead hfirst hre hclear, hid'.trans hid ▸ hgone, hdata ▸ hholds, hstored⟩
  · exact ⟨_, execHeldAccessFail_parked hop hp hdead hre hr, State.op_setOp hop hid, rfl⟩
  · subst hid
    exact ⟨_, execHeldAccessFail_load hop (hheld hp) hp hdead hre hr hk hq hg, State.failed_load hq .xlate g.va⟩
  · obtain ⟨u, hu, d, hkilled⟩ := execHeldAccessFail_killed hop hwaits hdead ho hre hk
    exact ⟨u, d, hu, hkilled⟩

end Sys2Proof.Machine
end

section
/-!
Reading and writing registers (R85, R91, R92, R176): O1.
-/

namespace Sys2Proof.Machine

open Sys2Proof Sys2Proof.Claims

section

variable {e : Exe} {r : Reg}

/-! ## Scalar sources -/

theorem Exe.srcS_zero (h : r = 0#5) : e.srcS r = .ok (0, e) := if_pos h

theorem Exe.srcS_loadQueue (h : r = 30#5) : e.srcS r = e.popS := by subst h; rfl

theorem Exe.srcS_storeQueue (h : r = 31#5) : e.srcS r = trap .illop 0 := by subst h; rfl

theorem Exe.srcS_register (h0 : r ≠ 0#5) (h30 : r ≠ 30#5) (h31 : r ≠ 31#5) :
    e.srcS r = if e.x.softS.contains r.toNat then trap .soft 0 else .ok (e.x.sval r, e) := by
  simp [Exe.srcS, ThreadSet.sval, h0, h30, h31]

theorem Exe.popS_ready {v : Word} {q : List (LdE Word)} (hq : e.x.slq = .ready v :: q) (hs : 0 ∉ e.x.softQ) :
    e.popS = .ok (v, { e with x := { e.x with slq := q } }) := by
  simp [Exe.popS, hq, Exe.softQ, hs, bind_ok]

theorem scalarSourceForms : ScalarSourceForms := by
  intro e r
  refine ⟨Exe.srcS_zero, fun h0 h30 h31 hs => ?_, fun h0 h30 h31 hs => ?_, fun h hq => ?_, fun v q h hq hs => ?_, fun id k q h hq => ?_,
    fun c va q h hq => ?_, Exe.srcS_storeQueue⟩
  · simp [Exe.srcS_register h0 h30 h31, hs]
  · simp [Exe.srcS_register h0 h30 h31, hs]
  · simp [Exe.srcS_loadQueue h, Exe.popS, hq]
  · rw [Exe.srcS_loadQueue h, Exe.popS_ready hq hs]
  · simp [Exe.srcS_loadQueue h, Exe.popS, hq]
  · simp [Exe.srcS_loadQueue h, Exe.popS, hq]

/-! ## Scalar destinations -/

theorem ThreadSet.putS_storeQueue (x : ThreadSet) (v : Word) (h : r = 31#5) : x.putS r v = { x with ssq := x.ssq ++ [v] } := by subst h; rfl

theorem ThreadSet.putS_frame (x : ThreadSet) (v : Word) (h0 : r ≠ 0#5) (h31 : r ≠ 31#5) :
    x.putS r v = { x with sreg := (x.putS r v).sreg, softS := (x.putS r v).softS } := by
  simp [ThreadSet.putS, h0, h31]

theorem scalarDestinationForms : ScalarDestinationForms := fun x r v =>
  ⟨fun h => if_pos h, x.putS_storeQueue v, fun h0 h31 => ⟨x.sval_putS r v h0 h31, x.putS_frame v h0 h31⟩, fun q hq => x.sval_putS_ne r q v hq⟩

/-! ## Vector registers -/

theorem Exe.srcV_loadQueue (h : r = 30#5) : e.srcV r = e.popV := if_pos h

theorem Exe.srcV_register (h30 : r ≠ 30#5) (h31 : r ≠ 31#5) (hf : e.pendingFill r = false) (hs : r.toNat ∉ e.x.softV) :
    e.srcV r = .ok (Assoc.getD e.x.vreg r.toNat 0, e) := by
  simp [Exe.srcV, h30, h31, hf, hs]

theorem Exe.srcV_filling (h30 : r ≠ 30#5) (h31 : r ≠ 31#5) (hf : e.pendingFill r = true) : e.srcV r = stall .fill := by
  simp [Exe.srcV, h30, h31, hf]

theorem Exe.popV_ready {y : Vec} {q : List (LdE Vec)} (hq : e.x.vlq = .ready y :: q) (hs : 2 ∉ e.x.softQ) :
    e.popV = .ok (y, { e with x := { e.x with vlq := q } }) := by
  simp [Exe.popV, hq, Exe.softQ, hs, bind_ok]

theorem ThreadSet.putV_vreg (x : ThreadSet) (v : Vec) (h31 : r ≠ 31#5) : (x.putV r v).vreg = Assoc.set x.vreg r.toNat v := by
  simp [ThreadSet.putV, h31]

theorem vectorRegisterForms : VectorRegisterForms := by
  intro e r v
  refine ⟨Exe.srcV_register, fun y q h hq hs => ?_, fun h hq => ?_, Exe.srcV_filling, fun h => if_pos h, fun h31 => ?_⟩
  · rw [Exe.srcV_loadQueue h, Exe.popV_ready hq hs]
  · simp [Exe.srcV_loadQueue h, Exe.popV, hq]
  · rw [ThreadSet.putV_vreg _ _ h31]
    exact ⟨Assoc_getD_set_self _ _ _ _, fun k hk => Assoc_getD_set_ne _ _ _ _ _ hk⟩

end

/-- Settles O1: each register form by the register's number, and the queue registers by the oldest entry of their queue. -/
theorem registerForms : Obligations.RegisterForms := ⟨scalarSourceForms, scalarDestinationForms, vectorRegisterForms⟩

end Sys2Proof.Machine
end

section
/-!
A step runs the instruction that its words decode to (R84, R217, R229): O55.
-/

namespace Sys2Proof.Machine

open Sys2Proof Sys2Proof.Claims

/-! ## The scheduler's choice -/

theorem step_scheduled {s : State} (hagenda : s.agenda = []) (hdev : s.devstat = 1) : step s = s.schedule := by
  simp [step, hagenda, hdev]

theorem State.schedule_threads {s : State} {r : Host.Outcome State Fault Refusal} (h3 : s.fresh % 8 ≠ 3) (h7 : s.fresh % 8 ≠ 7) (hm : s.moveTs = some r) :
    s.schedule = r := by
  unfold State.schedule
  split
  · exact absurd ‹_› h3
  · exact absurd ‹_› h7
  · simp [hm]

theorem State.schedule_programs {s : State} {r : Host.Outcome State Fault Refusal} (h3 : s.fresh % 8 = 3) (hm : s.moveProg = some r) : s.schedule = r := by
  simp [State.schedule, h3, hm]

/-- The first thread set in order, if it does not stall, makes the core's move. -/
theorem State.moveTs_first {s : State} {t : TsId} {r : List TsId} (horder : s.threadOrder = t :: r) (hstall : (s.tsGet t).stall = none) :
    s.moveTs = some (s.stepTs t) := by
  simp only [State.moveTs, horder, List.findSome?_cons, hstall, Option.isNone_none, Bool.true_or, if_true]
  cases s.stepTs t <;> rfl

/-- The first program in order, if its step changes something, makes the move. -/
theorem State.moveProg_first {s u : State} {n : Nat} {r : List Nat} (horder : s.progOrder = n :: r) (hstep : s.stepProg n = .next u)
    (hu : u ≠ { s with cur := .prog n }) : s.moveProg = some (.next u) := by
  simp only [State.moveProg, horder, List.findSome?_cons, hstep, if_neg hu]

/-! ## One issue -/

theorem State.runWords_ok {s : State} {w w2 : Word32} {i : Instr} (h : decodeNorson w w2 = .ok i) : s.runWords w w2 = exec i s := by
  simp [State.runWords, h]

theorem State.runWords_error {s : State} {w w2 : Word32} {e : Reject} (h : decodeNorson w w2 = .error e) :
    s.runWords w w2 = exec (.reservedEncoding w) s := by
  simp only [State.runWords, h]
  rfl

/-- Without an error that waits for it and with watchdog budget left, a thread set runs the words at its PC. -/
theorem State.stepTs_words {s : State} {t : TsId} {a : Activation} {w w2 : Word32} (hact : (s.tsGet t).act = some a) (htrap : a.fetchTrap = none)
    (hpend : (s.tsGet t).pend = none) (hbudget : (s.tsGet t).wbudget ≠ 0)
    (hfetch : ({ s with cur := .ts t } : State).fetchWords { core := t.core, ctx := a.ctx, lid := a.lid } (s.tsGet t).pc = .words w w2) :
    s.stepTs t = (({ s with cur := .ts t } : State).noteFetch { core := t.core, ctx := a.ctx, lid := a.lid } (s.tsGet t).pc w).runWords w w2 := by
  have hget : ({ s with cur := .ts t } : State).tsGet t = s.tsGet t := rfl
  have hwait : (s.tsGet t).waiting = none := by simp [ThreadSet.waiting, hpend, hact, htrap]
  simp only [State.stepTs, hget, hact, hwait, if_neg hbudget, hfetch]

theorem State.stepProg_word {s : State} {p : Prog} {d : List Byte} (hprog : s.prog p.slot = some p) (hready : p.state = .ready) (hdoom : p.doomed = false)
    (hlong : p.long = none) (hpc : p.pc < p.codeLen) (hread : ({ s with cur := .prog p.slot } : State).imageRead p (8 * p.pc) 8 = .ok d) :
    s.stepProg p.slot = match decodeLivik (w64 d) with
      | .ok i => exec i { s with cur := .prog p.slot }
      | .error _ => exec (.livikIllopWord (w64 d)) { s with cur := .prog p.slot } := by
  have hget : ({ s with cur := .prog p.slot } : State).prog p.slot = some p := hprog
  simp only [State.stepProg, hget, hready, ne_eq, not_true_eq_false, if_false, hdoom, Bool.false_eq_true, hlong, Option.isSome_none, if_neg (Nat.not_le.mpr hpc),
    hread]
  rfl

/-! ## A fetch that no firewall drops -/

theorem State.barred_cur (s : State) (c : Cur) (x : Nat) : ({ s with cur := c } : State).barred x = s.barred x := rfl

theorem State.noteBars_open {s : State} (h : ∀ x, s.barred x = false) (l : List Seg) : l.foldl State.noteBar s = s :=
  l.foldlRecOn State.noteBar (motive := fun u => u = s) rfl fun u hu g _ => by rw [hu, State.noteBar, h, if_neg Bool.false_ne_true]

theorem State.noteWord_open {s : State} (h : ∀ x, s.barred x = false) (v : View) (pc : Word) : s.noteWord v pc = s := by
  unfold State.noteWord
  split
  · rfl
  · exact State.noteBars_open h _

theorem State.noteFetch_open {s : State} (h : ∀ x, s.barred x = false) (v : View) (pc : Word) (w : Word32) : s.noteFetch v pc w = s := by
  simp only [State.noteFetch, State.noteWord_open h, ite_self]

/-! ## The agenda -/

theorem step_agenda {s : State} {i : Instr} {r : List Instr} (h : s.agenda = i :: r) :
    step s = if s.mayMove i then exec i { s with agenda := r } else .next { s with agenda := r } := by
  simp only [step, h]

/-- Settles O55: the scheduler asks first the first thread set or program in order, and its issue runs what its words decode to. -/
theorem stepRunsDecoded : Obligations.StepRunsDecoded := by
  refine ⟨fun s t a r w w2 hagenda hdev h3 h7 horder hact htrap hpend hbudget hstall hfetch => ?_,
    fun s p r d u hagenda hdev h3 horder hprog hready hdoom hlong hpc hread hu => ?_, fun s i r h => ⟨fun hm => ?_, fun hm => ?_⟩⟩
  · have hstep := (step_scheduled hagenda hdev).trans
      ((State.schedule_threads h3 h7 (State.moveTs_first horder hstall)).trans (State.stepTs_words hact htrap hpend hbudget hfetch))
    exact ⟨fun i hi => hstep.trans (State.runWords_ok hi), fun e he => hstep.trans (State.runWords_error he), fun hopen => State.noteFetch_open (s := { s with cur := .ts t }) (fun x => (s.barred_cur (.ts t) x).trans (hopen x)) _ _ _⟩
  · have hword := State.stepProg_word hprog hready hdoom hlong hpc hread
    have hstep : s.stepProg p.slot = .next u → step s = .next u := fun hrun =>
      (step_scheduled hagenda hdev).trans (State.schedule_programs h3 (State.moveProg_first horder hrun hu))
    exact ⟨fun i hi hrun => hstep (by rw [hword, hi]; exact hrun), fun e he hrun => hstep (by rw [hword, he]; exact hrun)⟩
  · rw [step_agenda h, if_pos hm]
  · rw [step_agenda h, hm, if_neg Bool.false_ne_true]

end Sys2Proof.Machine
end

section
/-!
Fences, SPILL, FILL and TOKW (R95 to R97, R160): O21.
-/

namespace Sys2Proof.Machine

open Sys2Proof Sys2Proof.Claims

/-! ## Waits that are over -/

theorem Exe.waitLoads_ok {e : Exe} (h : ∀ o ∈ e.s.ops, o.t = e.t → o.kind.loads = false ∧ o.kind ≠ .fill ∧ o.kind ≠ .amo ∧ o.kind ≠ .gget) :
    e.waitLoads = .ok () := by
  refine if_neg fun hany => ?_
  obtain ⟨o, ho, hw⟩ := List.any_eq_true.mp hany
  simp only [Bool.and_eq_true, Bool.or_eq_true, decide_eq_true_eq] at hw
  obtain ⟨hload, hfill, hamo, hgget⟩ := h o ho hw.1
  simp [hload, hfill, hamo, hgget] at hw

theorem Exe.waitTokens_ok {e : Exe} (h : ∀ o ∈ e.s.ops, o.t = e.t → o.kind ≠ .spill ∧ o.kind ≠ .fill) : e.waitTokens = .ok () := by
  refine if_neg fun hany => ?_
  obtain ⟨o, ho, hw⟩ := List.any_eq_true.mp hany
  simp only [Bool.and_eq_true, Bool.or_eq_true, decide_eq_true_eq] at hw
  exact hw.2.elim (h o ho hw.1).1 (h o ho hw.1).2

theorem Exe.waitReplay_ok {e : Exe} (h : e.s.replay e.t = []) : e.waitReplay = .ok () := by simp [Exe.waitReplay, h]

theorem Exe.waitRelease_ok {e : Exe} (h : e.s.cumulative e.t = []) : e.waitRelease = .ok () := by simp [Exe.waitRelease, h]

theorem Exe.fenceRel_ok {e : Exe} (hreplay : e.s.replay e.t = []) (htokens : ∀ o ∈ e.s.ops, o.t = e.t → o.kind ≠ .spill ∧ o.kind ≠ .fill)
    (hcum : e.s.cumulative e.t = []) : e.fenceRel = .ok () := by
  simp only [Exe.fenceRel, Exe.waitReplay_ok hreplay, Exe.waitTokens_ok htokens, Exe.waitRelease_ok hcum, bind_ok]

theorem fenceResult : FenceResult := by
  intro s t act ht sc e loads rel
  have hload : loads → e.waitLoads = .ok () := fun hl => Exe.waitLoads_ok hl
  have hrel : rel → e.fenceRel = .ok () := fun ⟨hreplay, htokens, hcum⟩ => Exe.fenceRel_ok hreplay htokens hcum
  refine ⟨fun hl => issue_next_same ht ?_ (.rfl' _), fun hr => issue_next_same ht ?_ (.rfl' _), fun hr hl => issue_next_same ht ?_ (.rfl' _)⟩
  · exact congrArg (· >>= fun _ => e.next) (hload hl)
  · exact congrArg (· >>= fun _ => e.next) (hrel hr)
  · show (e.fenceRel >>= fun _ => e.waitLoads >>= fun _ => e.next) = e.next
    rw [hrel hr, bind_ok, hload hl, bind_ok]

/-! ## SPILL and FILL -/

theorem Exe.aligned_ok {x : Word} {n : Nat} (h : x.toNat % n = 0) : Exe.aligned x n = .ok () := if_neg (not_not.mpr h)

theorem Exe.spillAt_ok {e : Exe} {b : Word} (hb : b.toNat % 64 = 0) (hsize : b.toNat + 64 ≤ e.s.scratchSize e.t.core) :
    e.spillAt b = .ok (cutBlock 10 b (scratchBus e.t.core b.toNat) 64 0) := by
  simp only [Exe.spillAt, Exe.aligned_ok hb, bind_ok, if_neg (Nat.not_lt.mpr hsize)]

theorem Exe.spillAt_misaligned {e : Exe} {b : Word} (hb : b.toNat % 64 ≠ 0) : e.spillAt b = trap .align b := by
  rw [Exe.spillAt, Exe.aligned_trap hb]
  rfl

theorem Exe.roomToken_ok {e : Exe} {n : Nat} (h : e.s.tokCount e.t n < 15) : e.roomToken n = .ok () := if_neg (Nat.not_le.mpr h)

/-- An instruction that hands one operation to the access half, no block read, and goes on: the operation is the youngest, and no byte changes. -/
theorem issue_send {s : State} {t : TsId} {a : Activation} (ht : Turn s t a) {f : Exe → Except Stop Exe} {e : Exe} {o : Op}
    (h : f (exeOf s t a) = (e.send o).next) (hs : (exeOf s t a).Same e) (hk : o.kind ≠ .brd) :
    ∃ u, issue s f = .next u ∧ Retired (e.send o) 4 u ∧ SameBytes s u ∧ u.ops = s.ops ++ [o] := by
  obtain ⟨hst, -, -, hafter⟩ := hs
  obtain ⟨u, hu, hw⟩ := issue_went ht h hafter
  have hsend : (e.send o).s = { s with ops := s.ops ++ [o], nextId := s.nextId + 1 } := by rw [Exe.send, hst]; rfl
  refine ⟨u, hu, hw, fun x hx => ?_, ?_⟩
  · rw [hw.1.bytes x (by rw [hsend, State.inBrd_push s o _ x hk, hx]), hsend]
    exact State.rdByte_push s o _ x hk
  · rw [hw.1.1]
    exact congrArg State.ops hsend

/-- One more SPILL or FILL of a token raises its count. -/
theorem State.tokCount_push {s u : State} {o : Op} (hops : u.ops = s.ops ++ [o]) (hk : o.kind = .spill ∨ o.kind = .fill) :
    u.tokCount o.t o.width = s.tokCount o.t o.width + 1 := by
  have hk' : (decide (o.kind = .spill) || decide (o.kind = .fill)) = true := by simpa using hk
  simp [State.tokCount, hops, hk']

section

variable {s : State} {t : TsId} {act : Activation} {d a : Reg} {n : BitVec 3} {b : Word} {e1 : Exe}

/-- The SPILL or FILL of register `d` at `b`, under token `n`. -/
def Exe.tokenOp (e : Exe) (k : OpKind) (d : Reg) (n : BitVec 3) (b : Word) (data : List Byte) : Op :=
  { e.mkOp k with segs := cutBlock 10 b (scratchBus e.t.core b.toNat) 64 0, data := data, addr := b, n := d.toNat, width := n.toNat }

theorem execSpill_issues (ht : Turn s t act) (ha : (exeOf s t act).srcS a = .ok (b, e1)) (hb : b.toNat % 64 = 0)
    (hsize : b.toNat + 64 ≤ s.scratchSize t.core) (htok : s.tokCount t n.toNat < 15) {v : Vec} {e2 : Exe} (hd : e1.srcV d = .ok (v, e2)) :
    let o := e2.tokenOp .spill d n b (leBytes 64 v.toNat)
    ∃ u, execSpill d a n s = .next u ∧ Retired (e2.send o) 4 u ∧ SameBytes s u ∧ u.ops = s.ops ++ [o] := by
  have hsame := (Exe.srcS_frame ha).1
  have hsame2 := (Exe.srcV_frame hd).1
  refine issue_send ht ?_ (hsame.trans hsame2) nofun
  have hat : e1.spillAt b = .ok (cutBlock 10 b (scratchBus e2.t.core b.toNat) 64 0) := by
    rw [hsame2.2.1]
    exact Exe.spillAt_ok hb (by rw [hsame.1, hsame.2.1]; exact hsize)
  have hroom : e1.roomToken n.toNat = .ok () := Exe.roomToken_ok (by rw [hsame.1, hsame.2.1]; exact htok)
  simp only [ha, hat, hroom, hd, bind_ok]
  rfl

theorem execFill_issues (ht : Turn s t act) (ha : (exeOf s t act).srcS a = .ok (b, e1)) (hb : b.toNat % 64 = 0)
    (hsize : b.toNat + 64 ≤ s.scratchSize t.core) (htok : s.tokCount t n.toNat < 15) :
    let o := e1.tokenOp .fill d n b []
    ∃ u, execFill d a n s = .next u ∧ Retired (e1.send o) 4 u ∧ SameBytes s u ∧ u.ops = s.ops ++ [o] := by
  have hsame := (Exe.srcS_frame ha).1
  refine issue_send ht ?_ hsame nofun
  have hat := Exe.spillAt_ok (e := e1) hb (by rw [hsame.1, hsame.2.1]; exact hsize)
  have hroom : e1.roomToken n.toNat = .ok () := Exe.roomToken_ok (by rw [hsame.1, hsame.2.1]; exact htok)
  simp only [ha, hat, hroom, bind_ok]
  rfl

theorem execSpill_misaligned (ht : Turn s t act) (ha : (exeOf s t act).srcS a = .ok (b, e1)) (hb : b.toNat % 64 ≠ 0) :
    execSpill d a n s = .next (trapped s t .align b) := by
  refine issue_srcS_trap ht ha fun e _ => ?_
  simp only [Exe.spillAt_misaligned hb]
  rfl

theorem execFill_misaligned (ht : Turn s t act) (ha : (exeOf s t act).srcS a = .ok (b, e1)) (hb : b.toNat % 64 ≠ 0) :
    execFill d a n s = .next (trapped s t .align b) := by
  refine issue_srcS_trap ht ha fun e _ => ?_
  simp only [Exe.spillAt_misaligned hb]
  rfl

theorem execTokw_zero (ht : Turn s t act) (h : s.tokCount t n.toNat = 0) :
    ∃ u, execTokw n s = .next u ∧ Retired (exeOf s t act) 4 u ∧ SameBytes s u :=
  issue_next_same ht (if_neg (not_not.mpr h)) (.rfl' _)

end

/-- What retires goes on at the next word, and its registers stand. -/
theorem Retired.registers {e : Exe} {u : State} (h : Retired e 4 u) :
    (u.tsGet e.t).pc = e.x.pc + 4 ∧ (u.tsGet e.t).sreg = e.x.sreg ∧ (u.tsGet e.t).vreg = e.x.vreg := by
  rw [h.2.1]
  exact ⟨rfl, rfl, rfl⟩

theorem spillFillResult : SpillFillResult := by
  intro s t act ht d a n b e1 ha
  have hsame : e1.t = t := (Exe.srcS_frame ha).1.2.1
  refine ⟨fun hb hsize htok => ⟨fun v e2 hd => ?_, ?_⟩, fun hb => ⟨execSpill_misaligned ht ha hb, execFill_misaligned ht ha hb⟩, execTokw_zero ht⟩
  · have hsame2 : e2.t = t := (Exe.srcV_frame hd).1.2.1.trans hsame
    obtain ⟨u, hu, hw, hbytes, hops⟩ := execSpill_issues ht ha hb hsize htok hd
    subst hsame2
    exact ⟨u, _, hu, hbytes, rfl, rfl, rfl, rfl, rfl, hops, State.tokCount_push hops (.inl rfl), hw.registers⟩
  · obtain ⟨u, hu, hw, hbytes, hops⟩ := execFill_issues (d := d) ht ha hb hsize htok
    subst hsame
    exact ⟨u, _, hu, hbytes, rfl, rfl, rfl, rfl, rfl, hops, State.tokCount_push hops (.inr rfl), hw.registers⟩

/-- Settles O21: each of these instructions passes its waits and checks, and then issues one operation or none. -/
theorem orderingAndSpill : Obligations.OrderingAndSpill := ⟨fenceResult, spillFillResult⟩

end Sys2Proof.Machine
end

section
/-!
Special registers, NOP, YIELD and BRK (R84, R88, R89, R281, R353, R386): O22.
-/

namespace Sys2Proof.Machine

open Sys2Proof Sys2Proof.Claims

/-! ## Words of several fields -/

/-- A field above a number that stays below it is added to it. -/
theorem ofNat_or_at64 {x k : Nat} (hx : x < 2 ^ k) (y : Nat) : BitVec.ofNat 64 x ||| at64 y k = BitVec.ofNat 64 (x + 2 ^ k * y) := by
  rw [at64, ← BitVec.ofNat_or, Nat.mul_comm y, Nat.or_comm, ← Nat.two_pow_add_eq_or_of_lt hx, Nat.add_comm]

/-- Fields of four bits side by side: bit `j` of their word is a bit of one of them. -/
theorem getLsbD_fields (f : Nat → Nat) (l : List Nat) (w : Word) (j : Nat) :
    (l.foldl (fun w n => w ||| at64 (f n) (4 * n)) w).getLsbD j = (w.getLsbD j || l.any fun n => (at64 (f n) (4 * n)).getLsbD j) := by
  induction l generalizing w with
  | nil => simp
  | cons n r ih => rw [List.foldl_cons, ih, BitVec.getLsbD_or, List.any_cons, Bool.or_assoc]

theorem State.getLsbD_toks {s : State} {t : TsId} (h : ∀ i, i < 8 → s.tokCount t i < 16) {i k : Nat} (hk : k < 4) :
    (s.toks t).getLsbD (4 * i + k) = (decide (i < 8) && (s.tokCount t i).testBit k) := by
  have hfield : ∀ n, n < 8 → (at64 (s.tokCount t n) (4 * n)).getLsbD (4 * i + k) = (decide (n = i) && (s.tokCount t i).testBit k) := by
    intro n hn
    rw [getLsbD_at64]
    rcases Nat.lt_trichotomy n i with hlt | rfl | hgt
    · have hbig : s.tokCount t n < 2 ^ (4 * i + k - 4 * n) :=
        Nat.lt_of_lt_of_le (h n hn) (Nat.pow_le_pow_right (n := 2) (i := 4) (by omega) (by omega))
      simp [Nat.testBit_lt_two_pow hbig, Nat.ne_of_lt hlt]
    · have hlow : 4 * n + k < 64 := by omega
      simp [hlow]
    · have hout : ¬ 4 * n ≤ 4 * i + k := by omega
      simp [hout, Nat.ne_of_gt hgt]
  rw [State.toks, getLsbD_fields, show (0 : Word).getLsbD (4 * i + k) = false from BitVec.getLsbD_zero, Bool.false_or, Bool.eq_iff_iff, List.any_eq_true]
  simp only [List.mem_range, Bool.and_eq_true, decide_eq_true_eq]
  constructor
  · rintro ⟨n, hn, hbit⟩
    rw [hfield n hn] at hbit
    simp only [Bool.and_eq_true, decide_eq_true_eq] at hbit
    exact ⟨hbit.1 ▸ hn, hbit.2⟩
  · rintro ⟨hi, hbit⟩
    exact ⟨i, hi, by rw [hfield i hi]; simp [hbit]⟩

theorem State.toks_fields {s : State} {t : TsId} (h : ∀ i, i < 8 → s.tokCount t i < 16) :
    (s.toks t).toNat < 2 ^ 32 ∧ ∀ i, i < 8 → (s.toks t).extractLsb' (4 * i) 4 = BitVec.ofNat 4 (s.tokCount t i) := by
  refine ⟨Nat.lt_pow_two_of_testBit _ fun j hj => ?_, fun i hi => BitVec.eq_of_getLsbD_eq fun k hk => ?_⟩
  · have hbit := State.getLsbD_toks h (i := j / 4) (Nat.mod_lt j (by omega : 0 < 4))
    rw [Nat.div_add_mod, show decide (j / 4 < 8) = false from decide_eq_false (by omega), Bool.false_and] at hbit
    exact hbit
  · rw [BitVec.getLsbD_extractLsb', BitVec.getLsbD_ofNat, State.getLsbD_toks h hk, decide_eq_true hi, Bool.true_and]

theorem coreWord_eq {t : TsId} (hidx : t.core.idx < 2 ^ 14) (hts : t.ts < 4) :
    coreWord t = BitVec.ofNat 64 (t.core.idx + 2 ^ 14 * t.ts + if t.core.kernel then 2 ^ 16 else 0) := by
  rw [coreWord, at64_zero, ofNat_or_at64 hidx, ofNat_or_at64 (by omega)]
  cases t.core.kernel <;> rfl

theorem ThreadSet.qstat_eq {x : ThreadSet} (hslq : x.slq.length < 2 ^ 5) (hssq : x.ssq.length < 2 ^ 4) (hvlq : x.vlq.length < 2 ^ 4) :
    x.qstat = BitVec.ofNat 64 (x.slq.length + 2 ^ 5 * x.ssq.length + 2 ^ 9 * x.vlq.length + 2 ^ 13 * x.vsq.length) := by
  rw [ThreadSet.qstat, at64_zero, ofNat_or_at64 hslq, ofNat_or_at64 (by omega), ofNat_or_at64 (by omega)]

theorem State.scratchSize_lt (s : State) (c : CoreId) : s.scratchSize c < 2 ^ 20 := by
  unfold State.scratchSize
  split
  · decide
  · omega

/-! ## GETSR -/

theorem Exe.sr_isSome_of_mem (e : Exe) : ∀ k ∈ srNumbers, (e.sr k).isSome = true := by
  simp only [srNumbers, List.forall_mem_cons]
  exact ⟨rfl, rfl, rfl, rfl, rfl, rfl, rfl, rfl, rfl, rfl, rfl, rfl, rfl, rfl, rfl, rfl, rfl, rfl, rfl, rfl, rfl, rfl, rfl, rfl, rfl, rfl, rfl, rfl, rfl,
    rfl, rfl, nofun⟩

theorem Exe.mem_of_sr_isSome {e : Exe} {k : Nat} (h : (e.sr k).isSome = true) : k ∈ srNumbers := by
  by_cases hk : 0x010 ≤ k ∧ k ≤ 0x017
  · obtain ⟨hlow, hhigh⟩ := hk
    interval_cases k <;> decide
  · unfold Exe.sr at h
    rw [if_neg hk] at h
    split at h
    case h_24 => exact absurd h Bool.false_ne_true
    all_goals decide

/-- A number names a special register if and only if GETSR has a value for it (R88). -/
theorem Exe.sr_isSome (e : Exe) (n : BitVec 12) : (e.sr n.toNat).isSome = srOk n := by
  rw [Bool.eq_iff_iff, srOk, List.contains_iff_mem]
  exact ⟨Exe.mem_of_sr_isSome, e.sr_isSome_of_mem _⟩

theorem Exe.sr_none {n : BitVec 12} (hn : srOk n = false) (e : Exe) : e.sr n.toNat = none :=
  Option.isSome_eq_false_iff.mp ((e.sr_isSome n).trans hn) |> Option.isNone_iff_eq_none.mp

/-- The constant windows' bases (R93). -/
theorem Exe.sr_window (e : Exe) {i : Nat} (hi : i < 8) : e.sr (0x010 + i) = some (e.kb i) := by
  unfold Exe.sr
  rw [if_pos (by omega), Nat.add_sub_cancel_left]

theorem Exe.kb_eq (e : Exe) (i : Nat) : e.kb i = (e.launch.map fun l => ((l.kbAt e.t.core)[i]?).getD 0).getD 0 := by
  unfold Exe.kb
  cases e.launch <;> rfl

theorem execGetsr_reads {s : State} {t : TsId} {act : Activation} (ht : Turn s t act) {d : Reg} {n : BitVec 12} {v : Word}
    (hroom : (exeOf s t act).roomS d = .ok ()) (hv : (exeOf s t act).sr n.toNat = some v) :
    ∃ u, execGetsr d n s = .next u ∧ Retired ((exeOf s t act).putS d v) 4 u ∧ SameBytes s u := by
  refine issue_next_same ht ?_ (.rfl' _)
  simp only [hv, hroom, bind_ok]

theorem execGetsr_unknown {s : State} {t : TsId} {act : Activation} (ht : Turn s t act) {d : Reg} {n : BitVec 12} (hn : srOk n = false) :
    execGetsr d n s = .next (trapped s t .illop 0) := by
  exact issue_trap (c' := Cause.illop.code) (x' := 0) ht (by simp only [Exe.sr_none hn]; rfl) fun v => by simp only [Exe.sr_none hn]; rfl

theorem getSpecialRegisterResult : GetSpecialRegisterResult := by
  intro s t act ht d n v e x regs mine byLaunch hidx hts hslq hssq hvlq hroom
  have hread : ∀ w, e.sr n.toNat = some w → ∃ u, exec (.getsr d n) s = .next u ∧ Retired (e.putS d w) 4 u ∧ SameBytes s u :=
    fun w hw => execGetsr_reads ht hroom hw
  have hregs : ∀ p ∈ regs, e.sr p.1 = some p.2 := by
    simp only [regs, List.forall_mem_cons]
    refine ⟨rfl, rfl, congrArg some ?_, rfl, rfl, rfl, rfl, rfl, rfl, rfl, rfl, rfl, rfl, rfl, rfl, rfl, rfl, congrArg some (coreWord_eq hidx hts),
      congrArg some ?_, congrArg some (ThreadSet.qstat_eq hslq hssq hvlq), nofun⟩
    · rw [at64_zero, ofNat_or_at64 (by omega), Nat.mul_comm (2 ^ 32)]
      rfl
    · rw [at64_zero, ofNat_or_at64 (State.scratchSize_lt _ _)]
      rfl
  have hlaunch : ∀ p ∈ byLaunch, e.sr p.1 = some p.2 := by
    simp only [byLaunch, List.forall_mem_append, List.forall_mem_map, List.mem_range, List.forall_mem_cons]
    exact ⟨fun i hi => (e.sr_window hi).trans (congrArg some (e.kb_eq i)), rfl, rfl, nofun⟩
  refine ⟨fun h => hread v (hlaunch _ h), fun h6 htok => ?_, fun h => hread v (hregs _ h), fun hok => ?_, execGetsr_unknown ht⟩
  · obtain ⟨u, hu, hw, hb⟩ := hread (s.toks t) (by rw [h6]; rfl)
    exact ⟨u, _, hu, hw, hb, State.toks_fields htok⟩
  · obtain ⟨w, hw⟩ := Option.isSome_iff_exists.mp ((e.sr_isSome n).trans hok)
    obtain ⟨u, hu⟩ := hread w hw
    exact ⟨u, w, hu⟩

/-! ## SETSR -/

theorem execSetsr_writes {s : State} {t : TsId} {act : Activation} (ht : Turn s t act) {a : Reg} {n : BitVec 12} {v : Word} {e1 : Exe} (hn : srOk n = true)
    (ha : (exeOf s t act).srcS a = .ok (v, e1)) :
    ∃ u, execSetsr a n s = .next u ∧ Retired { e1 with x := e1.x.setSr n.toNat v } 4 u ∧ SameBytes s u := by
  obtain ⟨w, hw⟩ := Option.isSome_iff_exists.mp (((exeOf s t act).sr_isSome n).trans hn)
  refine issue_next_same ht ?_ (Exe.srcS_frame ha).1
  simp only [hw, ha, bind_ok]

/-- The bits of the masks of VRM and of the sticky flags (R89). -/
theorem getLsbD_fpcsrMasks (i : Nat) : (3#64).getLsbD i = decide (i < 2) ∧ (0x7C#64).getLsbD i = decide (2 ≤ i ∧ i < 7) := by
  by_cases hi : i < 64
  · have hall : ∀ j : Fin 64, (3#64).getLsbD j = decide (j.1 < 2) ∧ (0x7C#64).getLsbD j = decide (2 ≤ j.1 ∧ j.1 < 7) := by decide
    exact hall ⟨i, hi⟩
  · rw [BitVec.getLsbD_of_ge _ _ (Nat.not_lt.mp hi), BitVec.getLsbD_of_ge _ _ (Nat.not_lt.mp hi), decide_eq_false (by omega), decide_eq_false (by omega)]
    exact ⟨rfl, rfl⟩

/-- The bits of FPCSR after a write: VRM is written, a one clears a sticky flag, and the rest stands (R89). -/
theorem ThreadSet.setSr_fpcsr (x : ThreadSet) (v : Word) (i : Nat) : (x.setSr 0x007 v).fpcsr.getLsbD i =
    if i < 2 then v.getLsbD i else if i < 7 then x.fpcsr.getLsbD i && !v.getLsbD i else x.fpcsr.getLsbD i := by
  obtain ⟨hvrm, hsticky⟩ := getLsbD_fpcsrMasks i
  show ((x.fpcsr &&& ~~~3#64 &&& ~~~(v &&& 0x7C#64)) ||| (v &&& 3#64)).getLsbD i = _
  by_cases hi : i < 64
  · simp only [BitVec.getLsbD_or, BitVec.getLsbD_and, BitVec.getLsbD_not, hvrm, hsticky, decide_eq_true hi, Bool.true_and]
    rcases Nat.lt_or_ge i 2 with h2 | h2
    · simp [h2, Nat.not_le.mpr h2]
    · rcases Nat.lt_or_ge i 7 with h7 | h7
      · simp [Nat.not_lt.mpr h2, h2, h7]
      · simp [Nat.not_lt.mpr h2, Nat.not_lt.mpr h7]
  · rw [BitVec.getLsbD_of_ge _ _ (Nat.not_lt.mp hi), if_neg (by omega), if_neg (by omega), BitVec.getLsbD_of_ge _ _ (Nat.not_lt.mp hi)]

theorem ThreadSet.setSr_other (x : ThreadSet) {n : Nat} (v : Word) (hn : n ∉ [0x007, 0x008, 0x025, 0x02D]) : x.setSr n v = x := by
  unfold ThreadSet.setSr
  split
  case h_5 => rfl
  all_goals exact absurd (by decide) hn

theorem setSpecialRegisterResult : SetSpecialRegisterResult := by
  intro s t act ht a n v e1 hn ha
  obtain ⟨u, hu, hw, hb⟩ := execSetsr_writes ht hn ha
  refine ⟨u, _, hu, hb, hw, fun h => ?_, fun h => by rw [h]; rfl, fun h => by rw [h]; rfl, fun h => by rw [h]; rfl, e1.x.setSr_other v⟩
  rw [h]
  exact ⟨rfl, fun i hi => by rw [ThreadSet.setSr_fpcsr, if_pos hi],
    fun i h2 h7 => by rw [ThreadSet.setSr_fpcsr, if_neg (Nat.not_lt.mpr h2), if_pos h7],
    fun i h7 => by rw [ThreadSet.setSr_fpcsr, if_neg (by omega), if_neg (Nat.not_lt.mpr h7)]⟩

/-! ## NOP, YIELD and BRK -/

theorem execYield_ends {s : State} {t : TsId} {act : Activation} (ht : Turn s t act) :
    ∃ u, execYield s = .next (u.tsSet t { u.tsGet t with run := 0 }) ∧ Retired (exeOf s t act) 4 u ∧ SameBytes s u := by
  obtain ⟨u, hu, hw, hb⟩ := issue_next_same ht (f := fun e => e.next) rfl (.rfl' _)
  refine ⟨u, ?_, hw, hb⟩
  have hcur : u.cur = .ts t := (congrArg State.cur hw.1.1).trans ht.1
  have hact : (u.tsGet t).act.isSome = true := by
    rw [show u.tsGet t = _ from hw.2.1]
    exact congrArg Option.isSome ht.2
  simp only [execYield, hu, State.endRun, hcur, hact, if_true]

theorem breakDrops_get (l : List (Half × NCtx)) (ctx n : Half) :
    (Assoc.get (l.map fun c => if c.1 = ctx then (c.1, { c.2 with brkDrops := c.2.brkDrops + 1 }) else c) n).map NCtx.brkDrops =
      (Assoc.get l n).map (fun k => if n = ctx then k.brkDrops + 1 else k.brkDrops) := by
  induction l with
  | nil => rfl
  | cons c r ih =>
    obtain ⟨k, w⟩ := c
    by_cases hn : n = k
    · subst hn
      by_cases hc : n = ctx <;> simp [Assoc.get, hc]
    · by_cases hc : k = ctx
      · subst hc
        simp [Assoc.get, hn, ih]
      · simp [Assoc.get, hc, hn, ih]

/-- What retires leaves the reports and the context descriptors as its instruction has them. -/
theorem Retired.kept {e : Exe} {n : Nat} {u : State} (h : Retired e n u) : u.reports = e.s.reports ∧ u.ctxs = e.s.ctxs := by
  rw [h.1.1]
  exact ⟨rfl, rfl⟩

/-- A break record holds where the break is, the value and the code (R281). -/
def breakBytes (t : TsId) (pc v : Word) (c : BitVec 4) (lid : Option Half) : List Byte :=
  leBytes 8 (coreWord t).toNat ++ leBytes 8 pc.toNat ++ leBytes 8 v.toNat ++ leBytes 4 c.toNat ++ leBytes 4 (lid.getD 0).toNat

theorem breakBytes_fields (t : TsId) (pc v : Word) (c : BitVec 4) (lid : Option Half) :
    sliceB (breakBytes t pc v c lid) 0 8 = leBytes 8 (coreWord t).toNat ∧ sliceB (breakBytes t pc v c lid) 8 8 = leBytes 8 pc.toNat ∧
    sliceB (breakBytes t pc v c lid) 16 8 = leBytes 8 v.toNat ∧ sliceB (breakBytes t pc v c lid) 24 4 = leBytes 4 c.toNat :=
  ⟨rfl, rfl, rfl, rfl⟩

theorem State.breakRecord_room {s : State} (h : s.debugFull = false) (ctx : Half) (d : List Byte) :
    s.breakRecord ctx d = { s with reports := .brk d :: s.reports } := if_neg (h ▸ Bool.false_ne_true)

theorem State.breakRecord_full {s : State} (h : s.debugFull = true) (ctx : Half) (d : List Byte) : s.breakRecord ctx d =
    { s with ctxs := s.ctxs.map fun c => if c.1 = ctx then (c.1, { c.2 with brkDrops := c.2.brkDrops + 1 }) else c } := if_pos h

theorem State.breakRecord_bytes (s : State) (ctx : Half) (d : List Byte) (x : Nat) :
    (s.breakRecord ctx d).inBrd x = s.inBrd x ∧ (s.breakRecord ctx d).rdByte x = s.rdByte x := by
  unfold State.breakRecord
  split <;> exact ⟨rfl, rfl⟩

section

variable {s : State} {t : TsId} {act : Activation} {a : Reg} {v : Word} {e1 : Exe}

theorem execBrk_off (c : BitVec 4) (ht : Turn s t act) (ha : (exeOf s t act).srcS a = .ok (v, e1)) (hoff : s.breakOn act.ctx = false) :
    ∃ u, execBrk a c s = .next u ∧ Retired e1 4 u ∧ SameBytes s u := by
  have hsame := (Exe.srcS_frame ha).1
  refine issue_next_same ht ?_ hsame
  have hoff' : e1.s.breakOn e1.a.ctx = false := by rw [hsame.1, hsame.2.2.1]; exact hoff
  simp only [ha, bind_ok, hoff', Bool.false_eq_true, if_false]

theorem execBrk_on (c : BitVec 4) (ht : Turn s t act) (ha : (exeOf s t act).srcS a = .ok (v, e1)) (hon : s.breakOn act.ctx = true) :
    ∃ u, execBrk a c s = .next u ∧ Retired { e1 with s := s.breakRecord act.ctx (breakBytes t (exeOf s t act).x.pc v c act.lid) } 4 u := by
  obtain ⟨⟨hs, ht1, hact, hafter⟩, hx⟩ := Exe.srcS_frame ha
  have hpc : (exeOf s t act).x.pc = e1.x.pc := by rw [hx]
  have hs : s = e1.s := hs.symm
  have hact : act = e1.a := hact.symm
  have ht1 : t = e1.t := ht1.symm
  refine issue_went ht ?_ hafter
  simp only [ha, bind_ok, hpc, ← hs, ← hact, ← ht1, hon, if_true]
  rfl

end

theorem nopYieldBrkResult : NopYieldBrkResult := by
  intro s t act ht e
  refine ⟨issue_next_same ht rfl (.rfl' _), ?_, fun a c v e1 ha => ⟨execBrk_off c ht ha, fun hon => ?_⟩⟩
  · obtain ⟨u, hu, hw, hb⟩ := execYield_ends ht
    exact ⟨u, _, hu, hw, rfl, fun x hx => hb x hx⟩
  · obtain ⟨u, hu, hw⟩ := execBrk_on c ht ha hon
    have ht1 : e1.t = t := (Exe.srcS_frame ha).1.2.1
    have hreports : u.reports = (s.breakRecord act.ctx (breakBytes t e.x.pc v c act.lid)).reports := hw.kept.1
    have hctxs : u.ctxs = (s.breakRecord act.ctx (breakBytes t e.x.pc v c act.lid)).ctxs := hw.kept.2
    refine ⟨u, hu, fun x hx => ?_, ht1 ▸ hw.registers.1, ht1 ▸ hw.registers.2.1,
      fun hroom => ⟨_, ?_, ?_, breakBytes_fields t e.x.pc v c act.lid⟩, fun hfull => ⟨?_, fun n => ?_⟩⟩
    · have hrec := s.breakRecord_bytes act.ctx (breakBytes t e.x.pc v c act.lid) x
      exact (hw.1.bytes x (hrec.1.trans hx)).trans hrec.2
    · rw [hreports, State.breakRecord_room hroom]
    · rw [hctxs, State.breakRecord_room hroom]
    · rw [hreports, State.breakRecord_full hfull]
    · rw [State.ctx, hctxs, State.breakRecord_full hfull]
      exact breakDrops_get s.ctxs act.ctx n

/-- Settles O22: what GETSR and SETSR do for each number, and what NOP, YIELD and BRK leave. -/
theorem systemRegisterResult : Obligations.SystemRegisterResult := ⟨getSpecialRegisterResult, setSpecialRegisterResult, nopYieldBrkResult⟩

end Sys2Proof.Machine
end

section
/-!
Special values of the floating-point operations, and the trap FPX (R89, R136, R305, R306): O8.
-/

namespace Sys2Proof.Machine

open Sys2Proof Sys2Proof.Claims

/-! ## NaN operands -/

theorem FV.isNan_nan (s : Bool) : (FV.nan s).isNan = true := rfl

theorem FV.isNan_iff {v : FV} : v.isNan = true ↔ ∃ s, v = .nan s := by
  cases v <;> simp [FV.isNan]

/-- The invalid flag of two operands: one of them is a signaling NaN (R306). -/
theorem snanFlag_pair (a b : FV) : snanFlag [a, b] = if a = .nan true ∨ b = .nan true then flInvalid else 0#5 := by
  have hsig : ∀ v : FV, v.isSnan = true ↔ v = .nan true := by
    intro v
    cases v <;> simp [FV.isSnan]
  simp only [snanFlag, List.any_cons, List.any_nil, Bool.or_false, Bool.or_eq_true, hsig]

theorem FV.neg_eq_nan {v : FV} {s : Bool} : v.neg = .nan s ↔ v = .nan s := by cases v <;> simp [FV.neg]

theorem FV.add_nan (rm : Nat) {a b : FV} (h : a.isNan = true ∨ b.isNan = true) : FV.add rm a b = (.nan false, snanFlag [a, b]) := by
  rcases h with h | h
  · obtain ⟨s, rfl⟩ := FV.isNan_iff.mp h
    rfl
  · obtain ⟨s, rfl⟩ := FV.isNan_iff.mp h
    cases a <;> rfl

theorem FV.mul_nan {a b : FV} (h : a.isNan = true ∨ b.isNan = true) : FV.mul a b = (.nan false, snanFlag [a, b]) := by
  rcases h with h | h
  · obtain ⟨s, rfl⟩ := FV.isNan_iff.mp h
    rfl
  · obtain ⟨s, rfl⟩ := FV.isNan_iff.mp h
    cases a <;> rfl

/-- A NaN ends as the canonical quiet NaN of the format, with the flags of the operation (R136). -/
theorem Fmt.fin_nan (f : Fmt) (rm : Nat) (fl : FFlags) : f.fin rm (.nan false, fl) = (f.qnan, fl) :=
  congrArg (Prod.mk f.qnan) BitVec.zero_or

section

variable {f : Fmt} {x y : Nat}

theorem Fmt.div_nan (rm : Nat) (h : (f.decode x).isNan = true ∨ (f.decode y).isNan = true) :
    f.div rm x y = (f.qnan, snanFlag [f.decode x, f.decode y]) := by
  unfold Fmt.div
  rcases h with h | h
  · obtain ⟨s, hs⟩ := FV.isNan_iff.mp h
    simp only [hs]
  · obtain ⟨s, hs⟩ := FV.isNan_iff.mp h
    cases hx : f.decode x <;> simp only [hs]

theorem Fmt.nan_operand (rm : Nat) (h : (f.decode x).isNan = true ∨ (f.decode y).isNan = true) :
    let nan := if f.decode x = .nan true ∨ f.decode y = .nan true then flInvalid else 0#5
    f.add rm x y = (f.qnan, nan) ∧ f.sub rm x y = (f.qnan, nan) ∧ f.mul rm x y = (f.qnan, nan) ∧ f.div rm x y = (f.qnan, nan) := by
  have hneg : (f.decode x).isNan = true ∨ (f.decode y).neg.isNan = true := h.imp_right fun hy => by
    obtain ⟨s, hs⟩ := FV.isNan_iff.mp hy
    exact FV.isNan_iff.mpr ⟨s, FV.neg_eq_nan.mpr hs⟩
  refine ⟨?_, ?_, ?_, ?_⟩
  · rw [Fmt.add, FV.add_nan rm h, Fmt.fin_nan, snanFlag_pair]
  · rw [Fmt.sub, FV.add_nan rm hneg, Fmt.fin_nan, snanFlag_pair]
    simp only [FV.neg_eq_nan]
  · rw [Fmt.mul, FV.mul_nan h, Fmt.fin_nan, snanFlag_pair]
  · rw [Fmt.div_nan rm h, snanFlag_pair]

/-! ## Invalid operations and the division by zero -/

theorem Fmt.add_infs (rm : Nat) {n : Bool} (hx : f.decode x = .inf n) (hy : f.decode y = .inf (!n)) : f.add rm x y = (f.qnan, flInvalid) := by
  rw [Fmt.add, hx, hy]
  cases n <;> exact f.fin_nan rm flInvalid

theorem Fmt.sub_infs (rm : Nat) {n : Bool} (hx : f.decode x = .inf n) (hy : f.decode y = .inf n) : f.sub rm x y = (f.qnan, flInvalid) := by
  rw [Fmt.sub, hx, hy]
  cases n <;> exact f.fin_nan rm flInvalid

theorem Fmt.mul_inf_zero (rm : Nat) {n k : Bool} {q : Int} (hx : f.decode x = .inf n) (hy : f.decode y = .num k 0 q) :
    f.mul rm x y = (f.qnan, flInvalid) := by
  rw [Fmt.mul, hx, hy]
  exact f.fin_nan rm flInvalid

theorem Fmt.div_infs (rm : Nat) {n k : Bool} (hx : f.decode x = .inf n) (hy : f.decode y = .inf k) : f.div rm x y = (f.qnan, flInvalid) := by
  simp only [Fmt.div, hx, hy]

theorem Fmt.div_num_zero (rm : Nat) {n k : Bool} {m : Nat} {q q' : Int} (hx : f.decode x = .num n m q) (hy : f.decode y = .num k 0 q') :
    f.div rm x y = if m = 0 then (f.qnan, flInvalid) else (f.inf (n != k), flDivz) := by
  simp only [Fmt.div, hx, hy, if_true]

theorem Fmt.sqrt_negative (rm : Nat) {m : Nat} {q : Int} (hx : f.decode x = .num true m q) (hm : m ≠ 0) : f.sqrt rm x = (f.qnan, flInvalid) := by
  simp only [Fmt.sqrt, hx, if_neg hm, if_true]

/-! ## Minimum and maximum with one NaN -/

theorem snanFlag_quiet {a b : FV} (ha : a ≠ .nan true) (hb : b ≠ .nan true) : snanFlag [a, b] = 0#5 := by
  rw [snanFlag_pair, if_neg (not_or.mpr ⟨ha, hb⟩)]

theorem FV.ne_snan {v : FV} (h : v.isNan = false) : v ≠ .nan true := by rintro rfl; exact Bool.false_ne_true h.symm

theorem Fmt.minmax_nan_left (hx : f.decode x = .nan false) (hy : (f.decode y).isNan = false) (big : Bool) : f.minmax big x y = (y, 0#5) := by
  have hfl : snanFlag [.nan false, f.decode y] = 0#5 := snanFlag_quiet nofun (FV.ne_snan hy)
  simp [Fmt.minmax, hx, hy, hfl, FV.isNan_nan]

theorem Fmt.minmax_nan_right (hx : (f.decode x).isNan = false) (hy : f.decode y = .nan false) (big : Bool) : f.minmax big x y = (x, 0#5) := by
  have hfl : snanFlag [f.decode x, .nan false] = 0#5 := snanFlag_quiet (FV.ne_snan hx) nofun
  simp [Fmt.minmax, hx, hy, hfl, FV.isNan_nan]

end

theorem fpSpecialResults : FpSpecialResults := by
  intro e64 rm x y f a b nan
  refine ⟨Fmt.nan_operand rm, fun n ha => ⟨Fmt.add_infs rm ha, Fmt.sub_infs rm ha, fun ⟨k, hb⟩ => Fmt.div_infs rm ha hb,
      fun ⟨k, q, hb⟩ => Fmt.mul_inf_zero rm ha hb⟩, fun n m q k q' ha hm hb => ?_, fun ⟨n, k, q, q', ha, hb⟩ => ?_, fun m q => Fmt.sqrt_negative rm,
    Fmt.minmax_nan_left, fun hb ha => Fmt.minmax_nan_right ha hb⟩
  · rw [Fmt.div_num_zero rm ha hb, if_neg hm]
  · rw [Fmt.div_num_zero rm ha hb, if_pos rfl]

/-! ## The trap FPX -/

theorem Exe.flags_trap {e : Exe} {fl : FFlags} (h : ¬ fpQuiet e fl) : e.flags fl = trap .fpx 0 := if_pos h

/-- The two-source operations of R222, each by its value function. -/
theorem exec_fpRow (e64 : Bool) (m : BitVec 2) (d a b : Reg) (s : State) : ∀ r ∈ fpRows e64 m, exec (r.form d a b) s = fp2 r.val d a b e64 s := by
  simp only [fpRows, List.forall_mem_cons]
  exact ⟨rfl, rfl, rfl, rfl, rfl, rfl, rfl, rfl, rfl, rfl, nofun⟩

theorem exec_fpOneRow (e64 : Bool) (m : BitVec 2) (d a : Reg) (s : State) : ∀ r ∈ fpOneRows e64 m, exec (r.form d a) s = fp1 r.val d a s := by
  simp only [fpOneRows, List.forall_mem_cons]
  exact ⟨rfl, rfl, rfl, rfl, rfl, rfl, nofun⟩

section

variable {s : State} {t : TsId} {act : Activation} {d a b : Reg} {x y z : Word} {e1 e2 e3 : Exe}

theorem fp1_traps (ht : Turn s t act) {f : Word → Nat × FFlags} (ha : (exeOf s t act).srcS a = .ok (x, e1)) (hroom : e1.roomS d = .ok ())
    (hfl : ¬ fpQuiet e1 (f x).2) : fp1 f d a s = .next (trapped s t .fpx 0) := by
  refine issue_trap (c' := Cause.fpx.code) (x' := 0) ht ?_ fun v => ?_
  · simp only [ha, hroom, bind_ok, Exe.flags_trap hfl]
    rfl
  · have hfl' : ¬ fpQuiet (e1.sound v) (f x).2 := hfl
    simp only [Exe.srcS_sound ha v, Exe.roomS_sound, hroom, bind_ok, Exe.flags_trap hfl']
    rfl

theorem fp2_traps (ht : Turn s t act) {f : Nat → Nat → Nat × FFlags} {e64 : Bool} (ha : (exeOf s t act).srcS a = .ok (x, e1))
    (hb : e1.srcS b = .ok (y, e2)) (hroom : e2.roomS d = .ok ()) (hfl : ¬ fpQuiet e2 (f (fpArg e64 x) (fpArg e64 y)).2) :
    fp2 f d a b e64 s = .next (trapped s t .fpx 0) := by
  refine issue_trap (c' := Cause.fpx.code) (x' := 0) ht ?_ fun v => ?_
  · simp only [ha, hb, hroom, bind_ok, Exe.flags_trap hfl]
    rfl
  · have hfl' : ¬ fpQuiet (e2.sound v) (f (fpArg e64 x) (fpArg e64 y)).2 := hfl
    simp only [Exe.srcS_sound ha v, Exe.srcS_sound hb v, Exe.roomS_sound, hroom, bind_ok, Exe.flags_trap hfl']
    rfl

theorem execFfma_traps (ht : Turn s t act) {e64 : Bool} {m : BitVec 2} (ha : (exeOf s t act).srcS a = .ok (x, e1)) (hb : e1.srcS b = .ok (y, e2))
    (hd : e2.srcS d = .ok (z, e3)) (hroom : e3.roomS d = .ok ())
    (hfl : ¬ fpQuiet e3 ((fmtD e64).fma m.toNat (fpArg e64 x) (fpArg e64 y) (fpArg e64 z)).2) :
    execFfma d a b e64 m s = .next (trapped s t .fpx 0) := by
  refine issue_trap (c' := Cause.fpx.code) (x' := 0) ht ?_ fun v => ?_
  · simp only [ha, hb, hd, hroom, bind_ok, Exe.flags_trap hfl]
    rfl
  · have hfl' : ¬ fpQuiet (e3.sound v) ((fmtD e64).fma m.toNat (fpArg e64 x) (fpArg e64 y) (fpArg e64 z)).2 := hfl
    simp only [Exe.srcS_sound ha v, Exe.srcS_sound hb v, Exe.srcS_sound hd v, Exe.roomS_sound, hroom, bind_ok, Exe.flags_trap hfl']
    rfl

end

theorem fpExceptionTraps : FpExceptionTraps := by
  intro e64 m s t act ht d a b x y z e1 e2 e3 ha
  refine ⟨fun r hr hroom hfl => ?_, fun hb => ⟨fun r hr hroom hfl => ?_, execFfma_traps ht ha hb⟩⟩
  · rw [exec_fpOneRow e64 m d a s r hr]
    exact fp1_traps ht ha hroom hfl
  · rw [exec_fpRow e64 m d a b s r hr]
    exact fp2_traps ht ha hb hroom hfl

/-- Settles O8: the special values by what the operands decode to, and the trap from the check of the enabled flags, which comes before the write. -/
theorem floatSpecialsAndTraps : Obligations.FloatSpecialsAndTraps := ⟨fpSpecialResults, fpExceptionTraps⟩

end Sys2Proof.Machine
end

section
/-!
A store that its launch has left behind is refuted as a store alone: O40.
-/

namespace Sys2Proof.Machine

open Sys2Proof Sys2Proof.Claims

/-- The store's piece: eight bytes at the first placed address, bus address 0x200000. -/
def leftPiece : Seg := { va := BitVec.ofNat 64 placeVa, bus := placePhys, len := 8, off := 0 }

/-- A store of thread set 0 of core 0 that launch 1, which has ended, has left behind (R122). -/
def leftStore : Op :=
  { id := 7, t := { core := cc 0, ts := 0 }, ctx := 0, lid := some placeLaunchRec.lid, kind := .st, segs := [leftPiece], dst := [], pages := [],
    data := List.replicate 8 1, seq := 0, fn := 0, addr := BitVec.ofNat 64 placeVa, operand := 0, cmp := 0, mark := 0, n := 0, q := 0, width := 8,
    signed := false, held := false, parked := false, dead := none, vec := 0, hdr := 0, deps := [], mst := 0, orphan := true }

/-- The ended launch, complete but for its record, 32 KiB above the store's bytes, which waits for the store. -/
def leftEnding : Ending :=
  { l := { placeLaunchRec with words := placeLaunchRec.words.set 6 (BitVec.ofNat 64 (placeVa + 0x8000)) }, status := 0,
    stamp := { sec := 0, ns := 0, seq := 3 }, resid := 0 }

/-- The machine with that one store and that one record outstanding, and the context's tables. -/
def leftBehind : State := { State.reset.placeTables with ctxs := [(0, placeCtx)], ops := [leftStore], ending := [leftEnding] }

theorem leftStore_plain : ∀ i, i < 8 → leftBehind.inBrd (placePhys + i) = false ∧ leftBehind.noChannel (placePhys + i) = false ∧
    leftBehind.readOnly (placePhys + i) = false := by decide +kernel

/-- The store may be taken: nothing is before it, and its bytes are ones that a store reaches. -/
theorem leftStore_ready : leftBehind.op 7 = some leftStore ∧ leftBehind.clear leftStore [leftPiece] false = true ∧
    leftBehind.barred leftPiece.bus = false ∧ writable leftBehind leftPiece.bus leftPiece.len :=
  ⟨by decide +kernel, by decide +kernel, by decide +kernel,
    fun i hi => ⟨(leftStore_plain i hi).1, fun _ => (leftStore_plain i hi).2.1⟩, fun i hi => (leftStore_plain i hi).2.2⟩

/-- The step that takes the store writes the record too: the byte of STATUS that says that the launch is complete turns from 0 to 1 (R122). -/
theorem leftStore_taken : ∃ u, exec (.storeTaken 7) leftBehind = .next u ∧ leftBehind.rdByte 0x208004 = 0 ∧ u.rdByte 0x208004 = 1 := by
  refine ⟨(leftBehind.storePiece leftStore).close, ?_, by decide +kernel, by decide +kernel⟩
  change execStoreTaken 7 leftBehind = _
  rw [execStoreTaken, leftStore_ready.1]
  rfl

/-- Refutes O40: of an outstanding store that its ended launch has left behind, the last piece lets the launch's completion record be written in the
same step (R122), so bytes outside the store's piece change. -/
theorem not_storeTaken : ¬ Obligations.StoreTaken := by
  intro h
  obtain ⟨hop, hclear, hbar, hw⟩ := leftStore_ready
  obtain ⟨-, hplain, -⟩ := h leftBehind 7 leftStore hop
  obtain ⟨u, hu, -, honly, -⟩ := hplain leftPiece [] rfl rfl rfl hclear hbar hw
  obtain ⟨v, hv, hbefore, hafter⟩ := leftStore_taken
  obtain rfl : u = v := Host.Outcome.next.inj (hu.symm.trans hv)
  have hsame := honly 0x208004 (by decide +kernel) (Or.inr (Or.inl (by decide)))
  rw [hbefore, hafter] at hsame
  exact absurd hsame (by decide)

end Sys2Proof.Machine
end

section
/-!
Stores at issue, in stack memory and in scratchpads (R91, R223, R328, R359, R381): O11.
-/

namespace Sys2Proof.Machine

open Sys2Proof Sys2Proof.Claims

/-! ## The pieces of a store, taken one after the other -/

/-- What a store that is taken piece by piece keeps, up to the record of the operation itself: all that decides which piece may be taken and where
its bytes stand. -/
structure StoreKept (id : Nat) (s u : State) : Prop where
  older : u.older id = s.older id
  pending : u.pending = s.pending
  others : u.ops.filter (fun o => decide (o.id ≠ id)) = s.ops.filter (fun o => decide (o.id ≠ id))
  barred : u.barred = s.barred
  readOnly : u.readOnly = s.readOnly
  noChannel : u.noChannel = s.noChannel
  brd : BrdWithin s u

section

variable {s u w : State} {o : Op} {g : Seg} {l : List Seg}

theorem StoreKept.refl (id : Nat) (s : State) : StoreKept id s s := ⟨rfl, rfl, rfl, rfl, rfl, rfl, fun _ h => h⟩

theorem StoreKept.trans {id : Nat} (h : StoreKept id s u) (k : StoreKept id u w) : StoreKept id s w :=
  ⟨k.older.trans h.older, k.pending.trans h.pending, k.others.trans h.others, k.barred.trans h.barred, k.readOnly.trans h.readOnly,
    k.noChannel.trans h.noChannel, fun x hx => h.brd x (k.brd x hx)⟩

theorem StoreKept.clear (h : StoreKept o.id s u) (gs : List Seg) (fwd : Bool) : u.clear o gs fwd = s.clear o gs fwd := by
  simp only [State.clear, h.older, h.pending]

theorem StoreKept.writable {id a n : Nat} (h : StoreKept id s u) (hw : writable s a n) : writable u a n := by
  obtain ⟨hplain, hfree⟩ := hw
  refine ⟨fun i hi => ⟨?_, fun hlow => ?_⟩, fun i hi => ?_⟩
  · exact Bool.eq_false_iff.mpr fun hb => Bool.false_ne_true ((hplain i hi).1.symm.trans (h.brd _ hb))
  · rw [h.noChannel, (hplain i hi).2 hlow]
  · rw [h.readOnly, hfree i hi]

theorem StoreKept.wr (id : Nat) (s : State) (a : Nat) (d : List Byte) : StoreKept id s (s.wr a d) := by
  refine ⟨?_, ?_, ?_, ?_, ?_, ?_, fun x hx => (State.inBrd_wr d s a x).symm.trans hx⟩ <;> rw [State.wr_frame] <;> rfl

theorem State.older_setOp (s : State) (o : Op) : (s.setOp o).older o.id = s.older o.id := by
  have hlist : ∀ l : List Op, (l.map fun x => if x.id = o.id then o else x).takeWhile (fun x => decide (x.id ≠ o.id)) =
      l.takeWhile (fun x => decide (x.id ≠ o.id)) := by
    intro l
    induction l with
    | nil => rfl
    | cons x r ih =>
      by_cases hx : x.id = o.id
      · simp [hx]
      · simpa [hx] using ih
  exact hlist s.ops

theorem State.others_setOp (s : State) (o : Op) :
    (s.setOp o).ops.filter (fun x => decide (x.id ≠ o.id)) = s.ops.filter (fun x => decide (x.id ≠ o.id)) := by
  have hlist : ∀ l : List Op, (l.map fun x => if x.id = o.id then o else x).filter (fun x => decide (x.id ≠ o.id)) =
      l.filter (fun x => decide (x.id ≠ o.id)) := by
    intro l
    induction l with
    | nil => rfl
    | cons x r ih =>
      by_cases hx : x.id = o.id
      · simpa [hx] using ih
      · simpa [hx] using ih
  exact hlist s.ops

theorem State.pending_setOp (s : State) (o : Op) : (s.setOp o).pending = s.pending := by
  funext id
  have hop : ((s.setOp o).op id).isSome = (s.op id).isSome := by
    have hid : ∀ x : Op, (if x.id = o.id then o else x).id = x.id := fun x => by split <;> simp_all
    rw [Bool.eq_iff_iff]
    simp only [State.op, State.setOp, List.find?_isSome, List.mem_map, decide_eq_true_eq]
    exact ⟨fun ⟨_, ⟨x, hx, hxe⟩, hi⟩ => ⟨x, hx, by rw [← hi, ← hxe, hid x]⟩, fun ⟨x, hx, hi⟩ => ⟨_, ⟨x, hx, rfl⟩, (hid x).trans hi⟩⟩
  rw [State.pending, State.pending, hop]
  rfl

theorem StoreKept.setOp (s : State) {o : Op} (hk : o.kind ≠ .brd) : StoreKept o.id s (s.setOp o) :=
  ⟨s.older_setOp o, s.pending_setOp o, s.others_setOp o, rfl, rfl, rfl, s.inBrd_set o hk⟩

/-- A piece that the bytes' owner and the firewall let through is written as it is. -/
theorem State.put_writable (hb : s.barred g.bus = false) (hw : writable s g.bus g.len) (d : List Byte) (hd : d.length = g.len) :
    s.put g d = s.wr g.bus d := by
  rw [State.put, hb, if_neg Bool.false_ne_true, State.wrRw_eq_wr _ (hd.symm ▸ hw.2)]

/-- The last piece of a store is taken as a store of one piece is. -/
theorem State.storePiece_last (hc : s.clear o [g] false = true) : s.storePiece { o with segs := [g] } = s.storeNow { o with segs := [g] } := by
  have hc' : s.clear { o with segs := [g] } [g] false = true := hc
  simp only [State.storePiece, hc', Bool.not_true, Bool.false_eq_true, if_false, List.isEmpty_nil, if_true, State.storeNow, List.foldl_cons, List.foldl_nil]

/-- A piece before the last is written, and the operation stands with the pieces that remain. -/
theorem State.storePiece_more {r : List Seg} (hr : r ≠ []) (hc : s.clear o [g] false = true) (hb : s.barred g.bus = false)
    (hw : writable s g.bus g.len) : s.storePiece { o with segs := g :: r } = (s.wr g.bus (sliceB o.data g.off g.len)).setOp { o with segs := r } := by
  have hc' : s.clear { o with segs := g :: r } [g] false = true := hc
  have hemp : r.isEmpty = false := by simpa using hr
  simp only [State.storePiece, hc', Bool.not_true, Bool.false_eq_true, if_false, hemp, State.put_writable hb hw _ (State.length_sliceB _ _ _)]

/-- A store whose pieces may all be taken, in disjoint bytes that stores reach, is done, and its bytes stand. -/
theorem State.storeSegs_taken (hk : o.kind ≠ .brd) :
    ∀ {l : List Seg} {u : State}, l ≠ [] → StoreKept o.id s u →
    (∀ g ∈ l, s.clear o [g] false = true ∧ s.barred g.bus = false ∧ writable s g.bus g.len) →
    l.Pairwise (fun p q => p.bus + p.len ≤ q.bus ∨ q.bus + q.len ≤ p.bus) →
    opGone s (u.storeSegs o l) o.id ∧ ∀ g ∈ l, holds (u.storeSegs o l) g.bus (sliceB o.data g.off g.len) := by
  intro l
  induction l with
  | nil => exact fun h => absurd rfl h
  | cons g r ih =>
    intro u _ hu hall hdis
    obtain ⟨hc, hb, hw⟩ := hall g List.mem_cons_self
    obtain ⟨hgr, hr⟩ := List.pairwise_cons.mp hdis
    rw [← hu.clear] at hc
    rw [← hu.barred] at hb
    have hwu := hu.writable hw
    rw [State.storeSegs, if_pos hc]
    by_cases hne : r = []
    · subst hne
      obtain ⟨hgone, hholds, -⟩ := State.storeNow_piece (s := u) (o := { o with segs := [g] }) rfl hb hwu
      rw [State.storePiece_last hc, State.storeSegs]
      exact ⟨hgone.trans hu.others, fun x hx => List.mem_singleton.mp hx ▸ hholds⟩
    · rw [State.storePiece_more hne hc hb hwu]
      set d := sliceB o.data g.off g.len with hd
      have hlen : d.length = g.len := State.length_sliceB _ _ _
      set u' := (u.wr g.bus d).setOp { o with segs := r }
      have hstep : StoreKept o.id u u' := (StoreKept.wr o.id u g.bus d).trans (StoreKept.setOp (u.wr g.bus d) (o := { o with segs := r }) hk)
      obtain ⟨hgone, hholds⟩ := ih hne (hu.trans hstep) (fun x hx => hall x (List.mem_cons_of_mem _ hx)) hr
      refine ⟨hgone, fun x hx => ?_⟩
      rcases List.mem_cons.mp hx with rfl | hx
      · obtain ⟨-, -, hframe⟩ := State.storeSegs_frame o hk r u'
        have hplain := hwu.1
        have hread : ∀ i, i < d.length → (u'.storeSegs o r).rdByte (x.bus + i) = (u.wr x.bus d).rdByte (x.bus + i) := fun i hi => by
          have hi' : i < x.len := hlen ▸ hi
          have hin : u.inBrd (x.bus + i) = false := (hplain i hi').1
          have hin' : u'.inBrd (x.bus + i) = false :=
            Bool.eq_false_iff.mpr fun h => Bool.false_ne_true (hin.symm.trans (hstep.brd _ h))
          rw [hframe _ hin' fun y hy => (hgr y hy).elim (fun h => Or.inl (by omega)) fun h => Or.inr (by omega)]
          exact State.rdByte_ops rfl _ ((State.inBrd_wr d u x.bus _).trans hin) hin'
        rw [holds, State.rd_congr hread]
        exact Lasting.rd_wr d (hlen.symm ▸ Lasting.of_plain hplain)
      · exact hholds x hx

theorem State.storeSegs_blocked {r : List Seg} (hc : s.clear o [g] false = false) : s.storeSegs o (g :: r) = s := by
  rw [State.storeSegs, hc, if_neg Bool.false_ne_true]

end

/-! ## A store at issue -/

section

variable {s : State} {t : TsId} {act : Activation} {e : Exe} {k : OpKind} {bs : List Block} {segs : List Seg} {d : List Byte} {f : Op → Op}

/-- The operation that a store with all its pages resident hands to the access half. -/
def Exe.storeOp (e : Exe) (k : OpKind) (bs : List Block) (segs : List Seg) (d : List Byte) (f : Op → Op) : Op :=
  { f { e.mkOp k with segs := segs, data := d, pages := pagesOf bs, width := d.length } with seq := 0 }

theorem Exe.store_ok (hr : e.s.replay e.t = []) (hn : anyNr bs = false) :
    e.store k bs segs d f = .ok (if segs.all (fun g => decide (scratchBase ≤ g.bus)) then
      { e.send (e.storeOp k bs segs d f) with after := some (e.storeOp k bs segs d f) } else e.send (e.storeOp k bs segs d f)) := by
  unfold Exe.store
  simp [hn, hr]
  rfl

/-- The machine with a store issued and its thread set gone on, before a scratchpad takes any piece. -/
def Exe.storing (e : Exe) (o : Op) : State := ({ e.send o with x := { e.x with pc := e.x.pc + BitVec.ofNat 64 4 } } : Exe).commit

theorem Exe.storing_retired {o : Op} (ha : e.after = none) : Retired (e.send o) 4 (e.storing o) := Exe.commit_retired (e.send o) 4 ha

theorem Exe.send_push {o : Op} (he : e.s = s) : (e.send o).s = { s with ops := s.ops ++ [o], nextId := s.nextId + 1 } := by rw [Exe.send, he]

theorem Exe.storing_ops {o : Op} (he : e.s = s) (ha : e.after = none) : (e.storing o).ops = s.ops ++ [o] := by
  rw [(Exe.storing_retired ha).1.1]
  exact congrArg State.ops (Exe.send_push (o := o) he)

/-- What decides how the pieces of the store are taken is as it stood when it issued. -/
theorem Exe.storing_kept {o : Op} (he : e.s = s) (ha : e.after = none) :
    StoreKept o.id { s with ops := s.ops ++ [o], nextId := s.nextId + 1 } (e.storing o) := by
  rw [← Exe.send_push he, (Exe.storing_retired ha).1.1]
  exact ⟨rfl, rfl, rfl, rfl, rfl, rfl, fun _ h => h⟩

theorem Exe.storing_bytes {o : Op} (he : e.s = s) (ha : e.after = none) (hk : o.kind ≠ .brd) : SameBytes s (e.storing o) := fun x hx => by
  rw [(Exe.storing_retired (o := o) ha).1.bytes x (by rw [Exe.send_push he, State.inBrd_push s o _ x hk, hx]), Exe.send_push he]
  exact State.rdByte_push s o _ x hk

theorem Exe.storing_inBrd {o : Op} (he : e.s = s) (ha : e.after = none) (hk : o.kind ≠ .brd) {x : Nat} (hx : s.inBrd x = false) :
    (e.storing o).inBrd x = false :=
  Bool.eq_false_iff.mpr fun h => Bool.false_ne_true
    (((State.inBrd_push s o (s.nextId + 1) x hk).trans hx).symm.trans ((Exe.storing_kept he ha).brd x h))

/-- Where a store's instruction goes: outstanding with a piece in stack memory, and otherwise taken by the scratchpads as far as it can be. -/
def Exe.stored (e : Exe) (o : Op) : State :=
  if o.segs.all (fun g => decide (scratchBase ≤ g.bus)) then (e.storing o).storeSegs o o.segs else e.storing o

theorem issue_stored {g : Exe → Except Stop Exe} (ht : Turn s t act) (hs : (exeOf s t act).Same e) (hr : s.replay t = []) (hn : anyNr bs = false)
    (hsegs : (e.storeOp k bs segs d f).segs = segs) (hg : g (exeOf s t act) = (e.store k bs segs d f >>= fun e => e.next)) :
    issue s g = .next (e.stored (e.storeOp k bs segs d f)) := by
  obtain ⟨hst, hth, -, hafter⟩ := hs
  rw [Exe.store_ok (by rw [hst, hth]; exact hr) hn, bind_ok] at hg
  rw [issue_turn ht, Exe.run_ok hg, Exe.stored, hsegs]
  have hnone : e.after = none := hafter
  split
  · simp only [finish, Exe.commit, Exe.storing, Exe.send, hnone, hsegs]
    rfl
  · simp only [finish, Exe.commit, Exe.storing, Exe.send, hnone]
    rfl

theorem Exe.stored_ts {o : Op} (hk : o.kind ≠ .brd) : (e.stored o).ts = (e.storing o).ts := by
  unfold Exe.stored
  split
  · exact (State.storeSegs_frame o hk o.segs _).2.1
  · rfl

theorem Exe.stored_outside {o : Op} (he : e.s = s) (ha : e.after = none) (hk : o.kind ≠ .brd) {x : Nat} (hout : outside o.segs x)
    (hx : s.inBrd x = false) : (e.stored o).rdByte x = s.rdByte x := by
  unfold Exe.stored
  split
  · exact ((State.storeSegs_frame o hk o.segs _).2.2 x (Exe.storing_inBrd he ha hk hx) hout).trans (Exe.storing_bytes he ha hk x hx)
  · exact Exe.storing_bytes he ha hk x hx

theorem Exe.stored_ram {o : Op} (h : ∃ g ∈ o.segs, g.bus < scratchBase) : e.stored o = e.storing o := by
  obtain ⟨g, hg, hlow⟩ := h
  refine if_neg fun hall => ?_
  exact absurd (of_decide_eq_true (List.all_eq_true.mp hall g hg)) (Nat.not_le.mpr hlow)

theorem Exe.stored_scratch {o : Op} (h : ∀ g ∈ o.segs, scratchBase ≤ g.bus) : e.stored o = (e.storing o).storeSegs o o.segs :=
  if_pos (List.all_eq_true.mpr fun g hg => decide_eq_true (h g hg))

/-- The operation of a store, as its instruction fills it in. -/
structure StoreNames (f : Op → Op) : Prop where
  t : ∀ o, (f o).t = o.t
  kind : ∀ o, (f o).kind = o.kind
  segs : ∀ o, (f o).segs = o.segs
  data : ∀ o, (f o).data = o.data
  id : ∀ o, (f o).id = o.id
  deps : ∀ o, (f o).deps = o.deps

/-- What the statement says of a store at issue. -/
def StoreIssued (s : State) (t : TsId) (i : Instr) (e : Exe) (k : OpKind) (segs : List Seg) (d : List Byte) (u : State) : Prop :=
  exec i s = .next u ∧ (u.tsGet t).pc = e.x.pc + 4 ∧ (u.tsGet t).ssq = e.x.ssq ∧ (u.tsGet t).vsq = e.x.vsq ∧ (u.tsGet t).sreg = e.x.sreg ∧
  (∀ x, outside segs x → s.inBrd x = false → u.rdByte x = s.rdByte x) ∧
  ∃ o : Op, o.t = t ∧ o.kind = k ∧ o.segs = segs ∧ o.data = d ∧ o.id = s.nextId ∧ o.deps = e.x.rel.filter (fun j => s.pending j) ∧
    let v : State := { s with ops := s.ops ++ [o], nextId := s.nextId + 1 }
    ((∃ g ∈ segs, g.bus < scratchBase) → SameBytes s u ∧ u.ops = v.ops) ∧
    ((∀ g ∈ segs, scratchBase ≤ g.bus) →
      (∀ g r, segs = g :: r → v.clear o [g] false = false → SameBytes s u ∧ u.ops = v.ops) ∧
      (segs ≠ [] → (∀ g ∈ segs, v.clear o [g] false = true ∧ s.barred g.bus = false ∧ writable s g.bus g.len) →
        segs.Pairwise (fun p q => p.bus + p.len ≤ q.bus ∨ q.bus + q.len ≤ p.bus) →
        opGone v u o.id ∧ ∀ g ∈ segs, holds u g.bus (sliceB d g.off g.len)))

theorem storeIssued {i : Instr} {g : Exe → Except Stop Exe} (ht : Turn s t act) (hs : (exeOf s t act).Same e) (hr : s.replay t = [])
    (hn : anyNr bs = false) (hk : k ≠ .brd) (hf : StoreNames f) (hi : exec i s = issue s g)
    (hg : g (exeOf s t act) = (e.store k bs segs d f >>= fun e => e.next)) : ∃ u, StoreIssued s t i e k segs d u := by
  set o := e.storeOp k bs segs d f with ho
  have hsegs : o.segs = segs := hf.segs _
  have hkind : o.kind = k := hf.kind _
  have hdata : o.data = d := hf.data _
  have hbrd : o.kind ≠ .brd := hkind ▸ hk
  have hissue := issue_stored ht hs hr hn hsegs hg
  obtain ⟨hst, hth, -, hafter⟩ := hs
  have he : e.s = s := hst
  have htid : e.t = t := hth
  have ha : e.after = none := hafter
  obtain ⟨-, hx, -⟩ := Exe.storing_retired (o := o) ha
  have hget : (e.stored o).tsGet t = (e.storing o).tsGet (e.send o).t := by
    show _ = (e.storing o).tsGet e.t
    rw [htid, State.tsGet, State.tsGet, Exe.stored_ts hbrd]
  have hkept := Exe.storing_kept (o := o) he ha
  refine ⟨e.stored o, hi.trans hissue, ?_, ?_, ?_, ?_, fun x hout hb => Exe.stored_outside he ha hbrd (hsegs ▸ hout) hb,
    o, (hf.t _).trans htid, hkind, hsegs, hdata, (hf.id _).trans (congrArg State.nextId he), ?_, fun hram => ?_, fun hscr => ⟨fun p r hp hblock => ?_, fun hne hall hdis => ?_⟩⟩
  · rw [hget, hx]; rfl
  · rw [hget, hx]; rfl
  · rw [hget, hx]; rfl
  · rw [hget, hx]; rfl
  · exact he ▸ hf.deps _
  · rw [Exe.stored_ram (hsegs.symm ▸ hram)]
    exact ⟨Exe.storing_bytes he ha hbrd, Exe.storing_ops he ha⟩
  · rw [Exe.stored_scratch (hsegs.symm ▸ hscr), hsegs, hp, State.storeSegs_blocked ((hkept.clear [p] false).trans hblock)]
    exact ⟨Exe.storing_bytes he ha hbrd, Exe.storing_ops he ha⟩
  · rw [Exe.stored_scratch (hsegs.symm ▸ hscr), hsegs]
    have hwritable : ∀ a n, writable s a n → writable { s with ops := s.ops ++ [o], nextId := s.nextId + 1 } a n := fun a n hw =>
      ⟨fun j hj => ⟨(State.inBrd_push s o _ _ hbrd).trans (hw.1 j hj).1, (hw.1 j hj).2⟩, hw.2⟩
    obtain ⟨hgone, hholds⟩ := State.storeSegs_taken hbrd hne hkept (fun p hp => ⟨(hall p hp).1, (hall p hp).2.1, hwritable _ _ (hall p hp).2.2⟩) hdis
    exact ⟨hgone, fun p hp => hdata ▸ hholds p hp⟩

end

/-! ## ST, VST and VSCAT -/

theorem Exe.takeSsq_ok {e : Exe} {v : Word} {q : List Word} (hq : e.x.ssq = v :: q) (hsoft : 1 ∉ e.x.softQ) :
    e.takeSsq = .ok (v, { e with x := { e.x with ssq := q } }) := by
  simp [Exe.takeSsq, hq, Exe.softQ, hsoft, bind_ok]

theorem Exe.takeVsq_ok {e : Exe} {v : Vec} {q : List Vec} (hq : e.x.vsq = v :: q) (hsoft : 3 ∉ e.x.softQ) :
    e.takeVsq = .ok (v, { e with x := { e.x with vsq := q } }) := by
  simp [Exe.takeVsq, hq, Exe.softQ, hsoft, bind_ok]

/-- Settles O11: the operation goes to the checked pieces; in stack memory it stays outstanding, and the scratchpads take its pieces in order as far
as nothing older comes first. -/
theorem storeIssue : Obligations.StoreIssue := by
  intro s t act ht a b e1 ha hr out h i
  have hs1 : (exeOf s t act).Same e1 := (Exe.srcS_frame ha).1
  refine ⟨?_, fun v q hq hsoft => ⟨fun bs hck hn => ?_, fun w p ty x e2 pm cs hv hp hcs hn => ?_⟩⟩
  · intro z bs v q n va hq hsoft hal hck hn
    refine storeIssued (f := fun o => { o with addr := va, operand := v, fn := i.setWidth 11 }) ht hs1 hr hn (by decide)
      ⟨fun _ => rfl, fun _ => rfl, fun _ => rfl, fun _ => rfl, fun _ => rfl, fun _ => rfl⟩ rfl ?_
    have hck' : e1.check (offAddr b i (2 ^ z.toNat)) (2 ^ z.toNat) rWR = .ok bs := hck
    have hal' : (offAddr b i (2 ^ z.toNat)).toNat % 2 ^ z.toNat = 0 := hal
    have hne : e1.x.ssq.isEmpty = false := by rw [hq]; rfl
    simp only [ha, bind_ok, hne, Bool.false_eq_true, if_false, Exe.aligned_ok hal', hck', Exe.takeSsq_ok hq hsoft]
    rfl
  · refine storeIssued (f := fun o => { o with addr := offAddr b i 64, fn := i.setWidth 11 }) ht hs1 hr hn (by decide)
      ⟨fun _ => rfl, fun _ => rfl, fun _ => rfl, fun _ => rfl, fun _ => rfl, fun _ => rfl⟩ rfl ?_
    have hck' : e1.check (offAddr b i 64) 64 rWR = .ok bs := hck
    have hne : e1.x.vsq.isEmpty = false := by rw [hq]; rfl
    simp only [ha, bind_ok, hne, Bool.false_eq_true, if_false, hck', Exe.takeVsq_ok hq hsoft]
  · obtain ⟨hs2, hx2⟩ := Exe.srcV_frame hv
    have hq2 : e2.x.vsq = v :: q := by rw [hx2]; exact hq
    have hsoft2 : 3 ∉ e2.x.softQ := by rw [hx2]; exact hsoft
    refine storeIssued (f := fun o => { o with addr := b, vec := x, cmp := laneMask (laneAddrs b ty x pm), fn := laneFn p ty }) ht (hs1.trans hs2) hr hn
      (by decide) ⟨fun _ => rfl, fun _ => rfl, fun _ => rfl, fun _ => rfl, fun _ => rfl, fun _ => rfl⟩ rfl ?_
    have hne : e2.x.vsq.isEmpty = false := by rw [hq2]; rfl
    simp only [ha, hv, hp, bind_ok, hne, Bool.false_eq_true, if_false, hcs, Exe.takeVsq_ok hq2 hsoft2]

end Sys2Proof.Machine
end

section
/-!
Messages: arrival, discard, leaving the device, timeout and the start of an activation (R86, R103, R104, R119, R208, R212): O36.
-/

namespace Sys2Proof.Machine

open Sys2Proof Sys2Proof.Claims

/-! ## Launches by id -/

section

variable {s u : State}

theorem State.lid_of_launch {lid : Half} {l : Launch} (h : s.launch lid = some l) : l.lid = lid := by
  simpa using List.find?_some h

theorem State.launch_of_map {g : Launch → Launch} (hg : ∀ x, (g x).lid = x.lid) (h : u.launches = s.launches.map g) (lid : Half) :
    u.launch lid = (s.launch lid).map g := by
  rw [State.launch, State.launch, h, List.find?_map]
  congr 2
  funext x
  simp [hg]

theorem State.launch_onLaunch {lid : Half} {f : Launch → Launch} {l : Launch} (hf : ∀ x, (f x).lid = x.lid) (h : s.launch lid = some l) :
    (s.onLaunch (some lid) f).launch lid = some (f l) := by
  rw [State.launch_of_map (g := fun x => if x.lid = lid then f x else x) (fun x => ?_) rfl, h, Option.map_some, if_pos (State.lid_of_launch h)]
  split
  · exact hf x
  · rfl

/-! ## Arrival -/

theorem State.net_dropFlight (s : State) (id : Nat) : ∀ g ∈ (s.dropFlight id).net, g.id ≠ id := fun _ hg =>
  of_decide_eq_true (List.mem_filter.mp hg).2

theorem State.ackFlight_frame (s : State) (f : Flight) : s.ackFlight f = { s with ops := (s.ackFlight f).ops } := by
  unfold State.ackFlight
  split <;> rfl

theorem State.atFirewall_frame (s : State) (f : Flight) : s.atFirewall f = { s with fwDrops := (s.atFirewall f).fwDrops } := by
  unfold State.atFirewall
  split
  · rfl
  · extract_lets ok
    split <;> rfl

/-- An arrival changes launches no further than the thief's next steal needs (R116). -/
theorem State.stealEnds_frame (s : State) (lid : Option Half) (f : Flight) : s.stealEnds lid f = { s with launches := (s.stealEnds lid f).launches } := by
  unfold State.stealEnds
  split
  · cases lid <;> rfl
  · rfl

/-- A flight at a core: discarded where it joins nothing. -/
theorem execMessageArrival_discards {id : Nat} {f : Flight} (hf : s.net.find? (fun f => decide (f.id = id)) = some f) (hm : s.mayArrive f = true)
    (hd : f.dev = none) (hj : s.joins f = none) : execMessageArrival id s = .next (((s.dropFlight id).atFirewall f).ackFlight f) := by
  simp [execMessageArrival, hf, hm, hd, hj]

theorem execMessageArrival_enters {id : Nat} {f : Flight} {ctx : Half} {lid : Option Half} {m : Msg} {w : State}
    (hf : s.net.find? (fun f => decide (f.id = id)) = some f) (hm : s.mayArrive f = true) (hd : f.dev = none) (hj : s.joins f = some (ctx, lid, m))
    (he : s.enter f.dst ctx lid f.counted lid.isSome m = some w) :
    execMessageArrival id s = .next (((w.dropFlight id).stealEnds lid f).ackFlight f) := by
  simp [execMessageArrival, hf, hm, hd, hj, he]

theorem execMessageArrival_leaves {id d : Nat} {f : Flight} (hf : s.net.find? (fun f => decide (f.id = id)) = some f) (hm : s.mayArrive f = true)
    (hd : f.dev = some d) : execMessageArrival id s = .next (s.sendAway f d) := by
  simp [execMessageArrival, hf, hm, hd]

/-! ### A free on-chip slot -/

theorem CoreSt.noteDup_frame (k : CoreSt) (m : Msg) : k.noteDup m = { k with dups := (k.noteDup m).dups } := by
  unfold CoreSt.noteDup
  extract_lets kind same seq
  split
  · split <;> rfl
  · rfl

/-- The core with the message in its basket, behind the others, and noted in its source's window. -/
def CoreSt.took (k : CoreSt) (m : Msg) : CoreSt := ({ k with basket := k.basket ++ [m] } : CoreSt).noteDup m

theorem CoreSt.took_basket (k : CoreSt) (m : Msg) : (k.took m).basket = k.basket ++ [m] := by rw [CoreSt.took, CoreSt.noteDup_frame]
theorem CoreSt.took_ring (k : CoreSt) (m : Msg) : (k.took m).ring = k.ring := by rw [CoreSt.took, CoreSt.noteDup_frame]
theorem CoreSt.took_membkNext (k : CoreSt) (m : Msg) : (k.took m).membkNext = k.membkNext := by rw [CoreSt.took, CoreSt.noteDup_frame]

theorem State.place_slot {c : CoreId} {ctx : Half} (himg : s.frozenImg c ctx = none) (hfrz : s.freezingOn c ctx = false)
    (hroom : (s.core c).basket.length < 64) (hmembk : (s.core c).membk = []) (hring : (s.core c).ring = []) (m : Msg) :
    s.place c ctx m = some { s.core c with basket := (s.core c).basket ++ [m] } := by
  simp [State.place, State.coreFor, himg, hfrz, hroom, hmembk, hring]

/-- A message that finds a free on-chip slot enters there, and its launch counts it (R103, R119). -/
theorem State.enter_slot {c : CoreId} {ctx : Half} (himg : s.frozenImg c ctx = none)
    {m : Msg} (hdup : (s.core c).dup m = false) (hplace : s.place c ctx m = some { s.core c with basket := (s.core c).basket ++ [m] })
    (lid : Option Half) (counted stain : Bool) :
    s.enter c ctx lid counted stain m = some
      (let t := if counted then (s.setCore c ((s.core c).took m)).countAt lid c (-1) else s.setCore c ((s.core c).took m)
       if stain then t.stainAt lid c else t) := by
  have hcore : s.coreFor c ctx = s.core c := by simp only [State.coreFor, himg]
  have hset : s.setCoreFor c ctx ((s.core c).took m) = s.setCore c ((s.core c).took m) := by
    simp [State.setCoreFor, himg, hcore, State.mirrorMembk, CoreSt.took_membkNext]
  have hset' : s.setCoreFor c ctx (({ s.core c with basket := (s.core c).basket ++ [m] } : CoreSt).noteDup m) = s.setCore c ((s.core c).took m) := hset
  simp only [State.enter, hcore, hdup, Bool.false_eq_true, if_false, hplace, lt_irrefl, hset']

theorem State.joins_own {f : Flight} {lid : Half} {l : Launch} (hout : f.outside = false) (hlid : f.lid = some lid) (habs : s.coreAbsent f.dst = false)
    (hcomp : f.dst.kernel = false) (hl : s.launch lid = some l) : s.joins f = some (f.ctx, some lid, f.msg) := by
  simp [State.joins, hout, hlid, habs, hcomp, hl]

theorem State.onLaunch_core (s : State) (lid : Option Half) (g : Launch → Launch) (c : CoreId) : (s.onLaunch lid g).core c = s.core c := by
  cases lid <;> rfl

/-! ### What the launch counts -/

section

variable {lid : Half} {l : Launch} {c : CoreId} {o : Nat}

theorem State.countAt_launch (hl : s.launch lid = some l) (ho : l.ordinal c = some o) (d : Int) :
    (s.countAt (some lid) c d).launch lid = some { l with counts := Assoc.set l.counts o (Assoc.getD l.counts o 0 + d) } := by
  have h := State.launch_onLaunch (f := fun l => match l.ordinal c with
    | none => l
    | some o => { l with counts := Assoc.set l.counts o (Assoc.getD l.counts o 0 + d) }) (fun x => by split <;> rfl) hl
  simp only [ho] at h
  exact h

theorem State.stainAt_launch (hl : s.launch lid = some l) (ho : l.ordinal c = some o) :
    ∃ q, o ∈ q ∧ (s.stainAt (some lid) c).launch lid = some { l with stains := q } := by
  have h := State.launch_onLaunch (f := fun l => match l.ordinal c with
    | none => l
    | some o => if l.stains.contains o then l else { l with stains := o :: l.stains })
    (fun x => by split; · rfl
                 · split <;> rfl) hl
  simp only [ho] at h
  by_cases hin : o ∈ l.stains
  · exact ⟨l.stains, hin, h.trans (by rw [if_pos (List.contains_iff_mem.mpr hin)])⟩
  · exact ⟨o :: l.stains, List.mem_cons_self, h.trans (by rw [if_neg (mt List.contains_iff_mem.mp hin)])⟩

theorem State.stealEnds_launch (hl : s.launch lid = some l) (f : Flight) :
    ∃ q, (s.stealEnds (some lid) f).launch lid = some { l with stealOut := q } := by
  unfold State.stealEnds
  split
  · rw [State.launch_onLaunch (fun x => by split <;> rfl) hl]
    split
    · exact ⟨l.stealOut, rfl⟩
    · exact ⟨_, rfl⟩
  · exact ⟨l.stealOut, hl⟩

/-- A counted arrival: one message less on its way to the core, which is stained (R119). -/
theorem State.arrived_launch (hl : s.launch lid = some l) (ho : l.ordinal c = some o) (id : Nat) (f : Flight) :
    ∃ l', (((((s.countAt (some lid) c (-1)).stainAt (some lid) c).dropFlight id).stealEnds (some lid) f).ackFlight f).launch lid = some l' ∧
      Assoc.getD l'.counts o 0 = Assoc.getD l.counts o 0 - 1 ∧ o ∈ l'.stains := by
  obtain ⟨stains, hin, hstain⟩ := State.stainAt_launch (State.countAt_launch hl ho (-1)) ho
  have hdrop : (((s.countAt (some lid) c (-1)).stainAt (some lid) c).dropFlight id).launch lid = _ := hstain
  obtain ⟨steals, hsteal⟩ := State.stealEnds_launch hdrop f
  rw [State.ackFlight_frame]
  refine ⟨_, hsteal, ?_, hin⟩
  exact Assoc_getD_set_self _ _ _ _

end

theorem State.arrived_core (s : State) (id : Nat) (lid : Option Half) (f : Flight) (c : CoreId) :
    (((s.dropFlight id).stealEnds lid f).ackFlight f).core c = s.core c := by
  rw [State.ackFlight_frame, State.stealEnds_frame]
  rfl

theorem State.arrived_net (s : State) (id : Nat) (lid : Option Half) (f : Flight) :
    ∀ g ∈ (((s.dropFlight id).stealEnds lid f).ackFlight f).net, g.id ≠ id := by
  rw [State.ackFlight_frame, State.stealEnds_frame]
  exact s.net_dropFlight id

theorem messageArrives {id : Nat} {f : Flight} {lid : Half} {l : Launch} (hf : s.net.find? (fun f => decide (f.id = id)) = some f)
    (hm : s.mayArrive f = true) (hdev : f.dev = none) (hj : s.joins f = some (f.ctx, some lid, f.msg)) (hl : s.launch lid = some l)
    (himg : s.frozenImg f.dst f.ctx = none) (hdup : (s.core f.dst).dup f.msg = false)
    (hplace : s.place f.dst f.ctx f.msg = some { s.core f.dst with basket := (s.core f.dst).basket ++ [f.msg] }) :
    ∃ u, execMessageArrival id s = .next u ∧ (u.core f.dst).basket = (s.core f.dst).basket ++ [f.msg] ∧ (∀ g ∈ u.net, g.id ≠ id) ∧
      ∀ o, f.counted = true → l.ordinal f.dst = some o → ∃ l', u.launch lid = some l' ∧
        Assoc.getD l'.counts o 0 = Assoc.getD l.counts o 0 - 1 ∧ o ∈ l'.stains := by
  have henter := State.enter_slot himg hdup hplace (some lid) f.counted true
  refine ⟨_, execMessageArrival_enters hf hm hdev hj henter, ?_, State.arrived_net _ _ _ _, fun o hc ho => ?_⟩
  · have htook : ((s.setCore f.dst ((s.core f.dst).took f.msg)).core f.dst).basket = (s.core f.dst).basket ++ [f.msg] := by
      rw [State.core_setCore, CoreSt.took_basket]
    rw [State.arrived_core, if_pos rfl, State.stainAt, State.onLaunch_core]
    split
    · rw [State.countAt, State.onLaunch_core]
      exact htook
    · exact htook
  · rw [if_pos rfl, if_pos hc]
    exact State.arrived_launch (s := s.setCore f.dst ((s.core f.dst).took f.msg)) hl ho id f

/-! ## Discard, and the way to another device -/

theorem State.joins_none {f : Flight} (h : s.coreAbsent f.dst = true ∨ (f.dst.kernel = false ∧ ((f.outside = true ∧ ∀ l ∈ s.launches, l.holds f.dst = false) ∨
    (f.outside = false ∧ ∀ l, f.lid = some l → s.launch l = none)))) : s.joins f = none := by
  rcases h with habs | ⟨hcomp, ⟨hout, hfree⟩ | ⟨hin, hgone⟩⟩
  · exact if_pos habs
  · have htarget : s.target f.dst = none := by
      rw [State.target, List.filter_eq_nil_iff.mpr fun l hl => Bool.eq_false_iff.mp (hfree l hl)]
      rfl
    simp [State.joins, hcomp, hout, htarget]
  · cases hlid : f.lid with
    | none => simp [State.joins, hcomp, hin, hlid]
    | some lid => simp [State.joins, hcomp, hin, hlid, hgone lid hlid]

theorem State.atFirewall_closed {f : Flight} (hcomp : f.dst.kernel = false) (hseam : bundleOf f.dst ∈ s.seam)
    (hset : Assoc.get s.firewall (bundleOf f.dst) = none) : (s.atFirewall f).fwDrops = s.fwDrops + 1 := by
  simp [State.atFirewall, hcomp, hseam, hset]

theorem State.atFirewall_set {f : Flight} {w : FwSet} (hcomp : f.dst.kernel = false) (hseam : bundleOf f.dst ∈ s.seam)
    (hset : Assoc.get s.firewall (bundleOf f.dst) = some w) :
    (s.atFirewall f).fwDrops = if (f.msg.w1.getLsbD 56, bits f.msg.w1 13 0) ∈ w.sources then s.fwDrops else s.fwDrops + 1 := by
  simp only [State.atFirewall, hcomp, hset, List.contains_iff_mem.mpr hseam, Bool.not_true, Bool.false_eq_true, or_self, if_false, List.contains_iff_mem]
  split <;> rfl

theorem State.id_of_flight {id : Nat} {f : Flight} (h : s.net.find? (fun f => decide (f.id = id)) = some f) : f.id = id := by
  simpa using List.find?_some h

theorem State.sendAway_to {f : Flight} {d link : Nat} (h : s.linkTo d = some link) :
    s.sendAway f d = { s.dropFlight f.id with peerOut := s.peerOut ++ [(link, leBytes 8 f.dst.idx ++ f.msg.bytes)] } := by
  simp only [State.sendAway, h]

/-! ## The start of an activation -/

theorem pcMask_bits : ∀ i, i < 64 → (0xFFFFFFFFFFFC#64).getLsbD i = (decide (2 ≤ i) && decide (i < 48)) := by decide

/-- PC of an activation: bits 47 to 2 of the message's first word (R86). -/
theorem handler_pc (w : Word) : at64 (bits w 47 2) 2 = w &&& 0xFFFFFFFFFFFC#64 := by
  refine BitVec.eq_of_getLsbD_eq fun i hi => ?_
  rw [getLsbD_at64, BitVec.getLsbD_and, pcMask_bits i hi, bits, Nat.testBit_mod_two_pow, Nat.testBit_div_two_pow]
  by_cases hlow : 2 ≤ i
  · rw [Nat.sub_add_cancel hlow, BitVec.getLsbD, Bool.and_comm (w.toNat.testBit i)]
    simp only [hi, hlow, decide_true, Bool.true_and]
    congr 1
    exact decide_eq_decide.mpr (by omega)
  · simp [hlow]

/-- The thread set of an activation that begins: s1, s2 and v0 delivered, every other register zero, the queues empty, TLEV 0 (R86, R104). -/
def ThreadSet.begun (x : ThreadSet) (a : Activation) (budget : Nat) : ThreadSet :=
  { x with
    sreg := [(1, a.msg.w0), (2, a.msg.w1)], vreg := [(0, a.msg.pay)], preg := [], slq := [], ssq := [], vlq := [], vsq := [],
    pc := at64 (bits a.msg.w0 47 2) 2, fpcsr := 0, trapen := 0, wbudget := BitVec.ofNat 64 budget, tlev := 0, bank1 := {},
    bank2 := {}, sbuf := [], act := some a, stall := none, run := 0, softS := [], softV := [], softP := [], softQ := [] }

theorem State.begin_ts (s : State) (t : TsId) (a : Activation) :
    ∃ b, (s.begin t a).ts = (s.tsSet t (((s.tsGet t).useVectors a.lid).begun a b)).ts := by
  have hforget : (s.forgetScratch t.core).ts = s.ts := SameRoster.refl.forgetBut.ts
  have hget : (s.forgetScratch t.core).tsGet t = s.tsGet t := by rw [State.tsGet, State.tsGet, hforget]
  refine ⟨(s.forgetScratch t.core).budgetOf a.lid a.ctx, ?_⟩
  have hset : ((s.forgetScratch t.core).tsSet t (((s.tsGet t).useVectors a.lid).begun a ((s.forgetScratch t.core).budgetOf a.lid a.ctx))).ts =
      (s.tsSet t (((s.tsGet t).useVectors a.lid).begun a ((s.forgetScratch t.core).budgetOf a.lid a.ctx))).ts := by
    rw [State.tsSet, State.tsSet, hforget]
  rw [← hset, ← hget]
  unfold State.begin
  extract_lets s1 x s2
  split
  · rfl
  · split <;> rfl

theorem State.begin_began (s : State) (t : TsId) (a : Activation) :
    (∃ b, (s.begin t a).tsGet t = ((s.tsGet t).useVectors a.lid).begun a b) ∧ ∀ t', t' ≠ t → (s.begin t a).tsGet t' = s.tsGet t' := by
  obtain ⟨b, hts⟩ := s.begin_ts t a
  have hget : ∀ t', (s.begin t a).tsGet t' = (s.tsSet t (((s.tsGet t).useVectors a.lid).begun a b)).tsGet t' := fun t' => by
    rw [State.tsGet, State.tsGet, hts]
  exact ⟨⟨b, (hget t).trans (State.tsGet_tsSet s t _)⟩, fun t' h => (hget t').trans (State.tsGet_tsSet_ne s t t' _ h)⟩

/-- A basket message that starts becomes the activation of its thread set, and no other thread set changes. -/
theorem State.startMsg_began (s : State) (t : TsId) (m : Msg) :
    (∃ x a b, (s.startMsg t m).tsGet t = ThreadSet.begun x a b ∧ a.msg = m ∧ a.origin = .message) ∧
    ∀ t', t' ≠ t → (s.startMsg t m).tsGet t' = s.tsGet t' := by
  unfold State.startMsg
  extract_lets k lid ctx k2 s1
  have hts : s1.ts = s.ts := (SameRoster.refl.mirrorMembk.setCore : SameRoster s s1).ts
  obtain ⟨⟨b, hself⟩, hothers⟩ := s1.begin_began t { origin := .message, msg := m, lid := lid, ctx := ctx, cls := msgClass m.w0, fetchTrap := none }
  exact ⟨⟨_, _, b, hself, rfl, rfl⟩, fun t' h => (hothers t' h).trans (by rw [State.tsGet, State.tsGet, hts])⟩

theorem execActivationStart_message {t : TsId} {m : Msg} (hidle : s.idleTs t = true) (habs : s.coreAbsent t.core = false) (htask : s.taskLaunch t.core = none)
    (hm : urgentMsg ((s.core t.core).basket.filter (s.startable t.core)) = some m) : execActivationStart t s = .next (s.startMsg t m) := by
  simp [execActivationStart, hidle, habs, htask, hm]

end

/-! ## What the end of a launch with no write to come leaves of operations and programs -/

/-- From `s` to `u` the outstanding operations, the programs and the ended launches stay as they are. -/
def SameCalls (s u : State) : Prop := u.ops = s.ops ∧ u.progs = s.progs ∧ u.ending = s.ending

section

variable {s u w : State}

theorem SameCalls.refl : SameCalls s s := ⟨rfl, rfl, rfl⟩

theorem SameCalls.ite {c : Prop} [Decidable c] (h : SameCalls s u) (k : SameCalls s w) : SameCalls s (if c then u else w) := by
  split
  · exact h
  · exact k

theorem SameCalls.foldl {α : Type} {f : State → α → State} {l : List α} (h : SameCalls s u) (hf : ∀ v x, SameCalls s v → SameCalls s (f v x)) :
    SameCalls s (l.foldl f u) := l.foldlRecOn f h fun v hv x _ => hf v x hv

theorem SameCalls.getD {o : Option State} (h : SameCalls s u) (ho : Yields (SameCalls s) o) : SameCalls s (o.getD u) := by
  cases o with
  | none => exact h
  | some w => exact ho

theorem SameCalls.wr {a : Nat} {d : List Byte} (h : SameCalls s u) : SameCalls s (u.wr a d) := by
  rw [State.wr_frame]
  exact h

theorem SameCalls.wrRw {d : List Byte} {a : Nat} (h : SameCalls s u) : SameCalls s (u.wrRw a d) := by
  induction d generalizing u a with
  | nil => exact h
  | cons b r ih => exact ih (SameCalls.ite h (h.wr (a := a) (d := [b])))

theorem SameCalls.hostWr {d : List Byte} {a : Nat} (h : SameCalls s u) : SameCalls s (u.hostWr a d) := by
  induction d generalizing u a with
  | nil => exact h
  | cons b r ih =>
    refine ih ?_
    exact h

theorem SameCalls.wrBlocks {bs : List Block} {d : List Byte} (h : SameCalls s u) : SameCalls s (u.wrBlocks bs d) := by
  induction bs generalizing u d with
  | nil => exact h
  | cons b r ih => exact ih h.wrRw

theorem SameCalls.wrV {ctx : Half} {va : Word} {d : List Byte} (h : SameCalls s u) : Yields (SameCalls s) (u.wrV ctx va d) := by
  unfold State.wrV
  split
  · exact h.wrBlocks
  · trivial

theorem SameCalls.onLaunch {lid : Option Half} {f : Launch → Launch} (h : SameCalls s u) : SameCalls s (u.onLaunch lid f) := by
  cases lid <;> exact h

theorem SameCalls.dropMsgs {l : Launch} {c : CoreId} (h : SameCalls s u) : SameCalls s (u.dropMsgs l c) := by
  refine SameCalls.ite h (SameCalls.ite h ?_ : SameCalls s (State.mirrorMembk _ _ _ _ _))
  split
  · exact h
  · exact h.foldl fun _ _ hv => hv.wr

theorem SameCalls.writeResidue {l : Launch} (h : SameCalls s u) : SameCalls s (u.writeResidue l) := SameCalls.ite h (h.getD h.wrV)

theorem SameCalls.signalAt {a : Option Nat} (h : SameCalls s u) : SameCalls s (u.signalAt a) := by
  unfold State.signalAt
  split
  · exact h
  · exact h.wrRw

theorem SameCalls.syncCopyQ {q : CopyQ} {i : Nat} (h : SameCalls s u) : SameCalls s (u.syncCopyQ q i) := by
  unfold State.syncCopyQ
  split
  · exact h
  · split
    · exact h.wr.wr
    · exact h.wr.wr.wr

theorem SameCalls.sweepCopies {l : Launch} (h : SameCalls s u) : SameCalls s (u.sweepCopies l) :=
  h.foldl fun _ _ hv => SameCalls.ite hv (SameCalls.foldl (SameCalls.ite hv hv) fun _ _ hw => hw.syncCopyQ)

theorem SameCalls.raiseAreas {l : Launch} (h : SameCalls s u) : SameCalls s (u.raiseAreas l) := by
  refine h.foldl fun _ _ hv => hv.foldl fun _ _ hw => SameCalls.onLaunch (SameCalls.ite hw ?_)
  exact hw.foldl fun _ _ hx => SameCalls.ite hx hx.wr

theorem SameCalls.loosen {lid : Half} (h : SameCalls s u) : SameCalls s (u.loosen lid) := SameCalls.ite h h

theorem SameCalls.writeCrec {ctx : Half} {crec : Word} {d : List Byte} (h : SameCalls s u) : Yields (SameCalls s) (u.writeCrec ctx crec d) := by
  unfold State.writeCrec
  split
  · trivial
  · unfold State.wrTarget
    split
    · rename_i he
      exact h.wrV.of_eq he
    · split
      · exact h.hostWr
      · trivial

end

/-! ## The INVOKE that waits for a launch -/

/-- The program of the slot waits in an INVOKE for the launch, or has its status. -/
def State.awaitsIn (u : State) (slot : Nat) (a : LIdx) (lid : Half) (r : Option Word) : Prop :=
  ∃ p, u.prog slot = some p ∧ p.await = .launch a none (some lid) r

section

variable {s u : State} {slot : Nat} {a : LIdx} {lid : Half}

theorem State.awaitsIn_congr {r : Option Word} (h : u.progs = s.progs) (hp : s.awaitsIn slot a lid r) : u.awaitsIn slot a lid r := by
  obtain ⟨p, hprog, hawait⟩ := hp
  exact ⟨p, (State.prog_congr h slot).trans hprog, hawait⟩

theorem State.awaitsIn_map {g : Prog → Prog} (hg : ∀ p, (g p).slot = p.slot) (h : u.progs = s.progs.map g) {r r' : Option Word}
    (hstep : ∀ p : Prog, p.slot = slot → p.await = .launch a none (some lid) r → (g p).await = .launch a none (some lid) r')
    (hp : s.awaitsIn slot a lid r) : u.awaitsIn slot a lid r' := by
  obtain ⟨p, hprog, hawait⟩ := hp
  exact ⟨g p, (State.prog_of_map hg h slot).trans (by rw [hprog]; rfl), hstep p (State.slot_of_prog hprog) hawait⟩

/-- How a program of the slot that invoked a launch takes the launch's status: its marks, and its INVOKE if that waits for this launch (R320). -/
def Prog.takes (l : Launch) (slot : Nat) (status : Word) (p : Prog) : Prog :=
  if p.slot = slot then
    (let p : Prog := { p with marks := p.marks.map fun m =>
        if m.owner = ownerFront ∧ m.res = l.lid.setWidth 64 ∧ m.status = none then { m with status := some status } else m }
     match p.await with
     | .launch a none (some x) none => if x = l.lid then { p with await := .launch a none (some x) (some status) } else p
     | _ => p) else p

theorem Prog.takes_slot (l : Launch) (n : Nat) (status : Word) (p : Prog) : (p.takes l n status).slot = p.slot := by
  unfold Prog.takes
  split
  · extract_lets q
    split
    · split <;> rfl
    · rfl
  · rfl

theorem Prog.takes_own {l : Launch} (status : Word) {p : Prog} (hp : p.slot = slot) (hw : p.await = .launch a none (some l.lid) none) :
    (p.takes l slot status).await = .launch a none (some l.lid) (some status) := by
  simp only [Prog.takes, hp, if_true, hw]

theorem Prog.takes_other {l : Launch} (n : Nat) (status : Word) {p : Prog} (hne : l.lid ≠ lid) (hw : p.await = .launch a none (some lid) none) :
    (p.takes l n status).await = .launch a none (some lid) none := by
  by_cases hn : p.slot = n
  · simp only [Prog.takes, hn, if_true, hw, if_neg (Ne.symm hne)]
  · rw [Prog.takes, if_neg hn, hw]

theorem State.settle_sameOps (s : State) (l : Launch) (status : Word) : (s.settle l status).ops = s.ops := by
  have hsignal : SameCalls s (if l.sslot = 0 then s else s.signalAt (s.slotAddr l l.sslot)) := SameCalls.ite .refl SameCalls.refl.signalAt
  unfold State.settle
  dsimp only
  split <;> exact hsignal.1

theorem State.settle_progs (s : State) (l : Launch) (status : Word) :
    (∃ n, l.src = .invoke n ∧ (s.settle l status).progs = s.progs.map (Prog.takes l n status)) ∨
    ((∀ n, l.src ≠ .invoke n) ∧ (s.settle l status).progs = s.progs) := by
  have hsignal : SameCalls s (if l.sslot = 0 then s else s.signalAt (s.slotAddr l l.sslot)) := SameCalls.ite .refl SameCalls.refl.signalAt
  unfold State.settle
  dsimp only
  split
  case h_1 n hsrc => exact .inl ⟨n, hsrc, congrArg (List.map (Prog.takes l n status)) hsignal.2.1⟩
  case h_2 id hsrc => exact .inr ⟨fun n hn => by simp [hsrc] at hn, hsignal.2.1⟩
  case h_3 hnot _ => exact .inr ⟨hnot, hsignal.2.1⟩

/-- The end of a launch tells the INVOKE that waits for it, and leaves one that waits for another launch. -/
theorem State.settle_own {l : Launch} (hsrc : l.src = .invoke slot) (status : Word) (h : s.awaitsIn slot a l.lid none) :
    (s.settle l status).awaitsIn slot a l.lid (some status) := by
  rcases s.settle_progs l status with ⟨n, hn, hprogs⟩ | ⟨hnot, -⟩
  · obtain rfl : slot = n := LaunchFrom.invoke.inj (hsrc.symm.trans hn)
    exact State.awaitsIn_map (Prog.takes_slot l slot status) hprogs (fun p hp hw => Prog.takes_own status hp hw) h
  · exact absurd hsrc (hnot slot)

theorem State.settle_other {l : Launch} (hne : l.lid ≠ lid) (status : Word) (h : s.awaitsIn slot a lid none) :
    (s.settle l status).awaitsIn slot a lid none := by
  rcases s.settle_progs l status with ⟨n, -, hprogs⟩ | ⟨-, hprogs⟩
  · exact State.awaitsIn_map (Prog.takes_slot l n status) hprogs (fun p _ hw => Prog.takes_other n status hne hw) h
  · exact State.awaitsIn_congr hprogs h

/-- The record of an ended launch is written, or reported, before its end is told; a write of the launch that is still to come holds it back. -/
theorem State.closeOne_cases (s : State) (e : Ending) :
    ((∃ o ∈ s.ops, o.lid = some e.l.lid) ∧ s.closeOne e = s) ∨
    ∃ u : State, u.ops = s.ops ∧ u.progs = s.progs ∧ s.closeOne e = u.settle e.l (statusWord e.status e.l.lid) := by
  unfold State.closeOne
  split
  · rename_i hany
    obtain ⟨o, ho, hmine⟩ := List.any_eq_true.mp hany
    exact .inl ⟨⟨o, ho, of_decide_eq_true (Bool.and_elim_right hmine)⟩, rfl⟩
  · extract_lets s1 d s2
    have h2 : SameCalls s1 s2 := by
      dsimp only [s2]
      split
      · rename_i he
        exact SameCalls.refl.writeCrec.of_eq he
      · exact SameCalls.refl (s := s1)
    exact .inr ⟨s2, h2.1, h2.2.1, rfl⟩

theorem State.closeOne_sameOps (s : State) (e : Ending) : (s.closeOne e).ops = s.ops := by
  rcases s.closeOne_cases e with ⟨-, h⟩ | ⟨u, hu, -, h⟩
  · rw [h]
  · rw [h, State.settle_sameOps, hu]

theorem State.closeOne_other {e : Ending} (hne : e.l.lid ≠ lid) (h : s.awaitsIn slot a lid none) : (s.closeOne e).awaitsIn slot a lid none := by
  rcases s.closeOne_cases e with ⟨-, hs⟩ | ⟨u, -, hu, hs⟩
  · rwa [hs]
  · rw [hs]
    exact State.settle_other hne _ (State.awaitsIn_congr hu h)

theorem State.closeOne_own {e : Ending} (hsrc : e.l.src = .invoke slot) (hops : ∀ o ∈ s.ops, o.lid ≠ some e.l.lid)
    (h : s.awaitsIn slot a e.l.lid none) : (s.closeOne e).awaitsIn slot a e.l.lid (some (statusWord e.status e.l.lid)) := by
  rcases s.closeOne_cases e with ⟨⟨o, ho, hmine⟩, -⟩ | ⟨u, -, hu, hs⟩
  · exact absurd hmine (hops o ho)
  · rw [hs]
    exact State.settle_own hsrc _ (State.awaitsIn_congr hu h)

/-- Behind ended launches whose records may still wait, a new end with no write to come is told at once. -/
theorem State.closeOnes_own {e : Ending} (hsrc : e.l.src = .invoke slot) {es : List Ending} (hes : ∀ x ∈ es, x.l.lid ≠ e.l.lid) :
    ∀ {s : State}, (∀ o ∈ s.ops, o.lid ≠ some e.l.lid) → s.awaitsIn slot a e.l.lid none →
    ((es ++ [e]).foldl State.closeOne s).awaitsIn slot a e.l.lid (some (statusWord e.status e.l.lid)) := by
  induction es with
  | nil => exact fun hops h => State.closeOne_own hsrc hops h
  | cons x r ih =>
    intro s hops h
    have hx := hes x List.mem_cons_self
    exact ih (fun y hy => hes y (List.mem_cons_of_mem _ hy)) (s := s.closeOne x) (by rwa [State.closeOne_sameOps]) (State.closeOne_other hx h)

/-! ## The end of a launch with no write to come -/

theorem State.flushOps_none {p : Op → Bool} (h : ∀ o ∈ s.ops, p o = false) : s.flushOps p = s := by
  have hnil : s.ops.filter (fun o => p o && !o.orphan) = [] := List.filter_eq_nil_iff.mpr fun o ho => by simp [h o ho]
  rw [State.flushOps, hnil]
  rfl

/-- With no captured operation of the launch to finish, its discarded work touches no operation and no program, and its own record keeps its id and
its source. -/
theorem State.discardWork_quiet {l : Launch} (hl : s.launch l.lid = some l)
    (hfrozen : ∀ b ∈ s.bundles, ∀ f ∈ b.2.frozen, ∀ o ∈ f.ops, o.lid ≠ some l.lid) :
    SameCalls s (s.discardWork l) ∧
    ∃ l', (s.discardWork l).launch l.lid = some l' ∧ l'.lid = l.lid ∧ l'.src = l.src := by
  unfold State.discardWork
  extract_lets mine imgs n1 n recs s1 s2 s3
  have hnil : imgs.flatMap (fun f => f.ops.filter (fun o => decide (o.lid = some l.lid))) = [] := by
    refine List.flatMap_eq_nil_iff.mpr fun f hf => List.filter_eq_nil_iff.mpr fun o ho => ?_
    obtain ⟨b, hb, hfb⟩ := List.mem_flatMap.mp (List.mem_filter.mp hf).1
    simpa using hfrozen b hb f hfb o ho
  have hs3 : s3 = s2 := by
    dsimp only [s3]
    rw [hnil]
    rfl
  have h1 : SameCalls s s1 := SameCalls.foldl .refl fun _ _ hv => hv.dropMsgs
  have hlaunch : s2.launch l.lid = some l := by
    have hr : SameRoster s s2 := (SameRoster.foldl .refl fun _ _ hv => hv.dropMsgs : SameRoster s s1).onFrozen
    rw [State.launch, hr.2.1]
    exact hl
  rw [hs3]
  refine ⟨SameCalls.onLaunch (u := s2) h1, _, State.launch_onLaunch (fun _ => rfl) hlaunch, rfl, rfl⟩

/-- The end of a launch with no write to come tells the INVOKE that waits for it (R122, R320). -/
theorem State.endLaunchAt_tells {l : Launch} (hl : s.launch l.lid = some l) (hset : settled s l) (hsrc : l.src = .invoke slot)
    (hwait : s.awaitsIn slot a l.lid none) (status : Nat) (stamp : Stamp) :
    (s.endLaunchAt l.lid status stamp).awaitsIn slot a l.lid (some (statusWord status l.lid)) := by
  obtain ⟨hops, hfrozen, hending⟩ := hset
  unfold State.endLaunchAt
  split
  case h_1 hnone => exact absurd (hl.symm.trans hnone) nofun
  case h_2 l0 hl0 =>
  obtain rfl : l = l0 := Option.some.inj (hl.symm.trans hl0)
  rw [State.flushOps_none fun o ho => decide_eq_false (hops o ho)]
  extract_lets s1 s2 s3 l1 l' resid s4 s5 gone s6
  obtain ⟨h3, x, hx, hlid, hxsrc⟩ : SameCalls s s3 ∧ ∃ x, s3.launch l.lid = some x ∧ x.lid = l.lid ∧ x.src = l.src :=
    State.discardWork_quiet (s := s2) hl hfrozen
  have hl1 : l1 = x := by
    dsimp only [l1]
    rw [hx]
    rfl
  have hlid' : l'.lid = l.lid := (congrArg Launch.lid hl1).trans hlid
  have hsrc' : l'.src = .invoke slot := (congrArg Launch.src hl1).trans (hxsrc.trans hsrc)
  have h4 : SameCalls s s4 := SameCalls.ite h3.writeResidue h3
  have h5 : SameCalls s s5 := SameCalls.loosen (SameCalls.raiseAreas (SameCalls.sweepCopies (u := s4.sweep l') h4))
  obtain ⟨hops6, hprogs6, hending6⟩ : SameCalls s s6 := h5
  have hclose := State.closeOnes_own (e := { l := l', status := status, stamp := stamp, resid := resid }) hsrc' (es := s6.ending)
    (fun y hy => by rw [hlid']; exact hending y (hending6 ▸ hy))
    (s := { s6 with ending := s6.ending ++ [{ l := l', status := status, stamp := stamp, resid := resid }] })
    (a := a) (by rw [hlid']; exact fun o ho => hops o (hops6 ▸ ho)) (by rw [hlid']; exact State.awaitsIn_congr hprogs6 hwait)
  rw [hlid'] at hclose
  exact hclose

/-- An ended launch tells its status to the INVOKE that waits for it. -/
theorem State.endLaunch_told {lid : Half} {l : Launch} (hl : s.launch lid = some l) (status : Nat) : Claims.told s (s.endLaunch lid status) l status := by
  intro hset slot hsrc p a hp hwait
  obtain rfl := State.lid_of_launch hl
  have hsome : ¬ ((s.launch l.lid).isNone = true) := by rw [hl]; exact Bool.false_ne_true
  rw [State.endLaunch, if_neg hsome]
  exact State.endLaunchAt_tells hl hset hsrc ⟨p, hp, hwait⟩ status s.stamp

theorem execMessageHoldTimeout_ends {id : Nat} {f : Flight} {ctx lid : Half} {m : Msg} (hf : s.net.find? (fun f => decide (f.id = id)) = some f)
    (hj : s.joins f = some (ctx, some lid, m)) (hheld : f.held = true) (hlong : f.since + holdLimit < s.clock) (hfrz : s.frozenFor f.dst ctx = false) :
    execMessageHoldTimeout id s = .next (s.endLaunch lid 8) := by
  simp [execMessageHoldTimeout, hf, hj, hheld, hlong, hfrz]

end

/-- Settles O36, part by part: an arrival, a discard, the way to another device, a timeout, and the start of an activation. -/
theorem messageResult : Obligations.MessageResult := by
  intro s
  refine ⟨?_, ?_, ?_, ?_, ?_⟩
  · intro id f lid l hf hm hout hlid hdev habs hcomp hl himg hfrz hdup hroom hmembk hring
    exact messageArrives hf hm hdev (State.joins_own hout hlid habs hcomp hl) hl himg hdup (State.place_slot himg hfrz hroom hmembk hring f.msg)
  · intro id f hf hm hdev hnone
    refine ⟨_, execMessageArrival_discards hf hm hdev (State.joins_none hnone), ?_⟩
    rw [State.ackFlight_frame, State.atFirewall_frame]
    exact ⟨s.net_dropFlight id, rfl, rfl, rfl, rfl, State.atFirewall_closed (s := s.dropFlight id), fun w => State.atFirewall_set (s := s.dropFlight id)⟩
  · intro id f d link hf hm hdev hlink
    refine ⟨_, _, (execMessageArrival_leaves hf hm hdev).trans (congrArg Host.Outcome.next (State.sendAway_to hlink)), ?_, rfl, rfl⟩
    exact State.id_of_flight hf ▸ s.net_dropFlight f.id
  · intro id f lid m c hf hj hheld hlong hfrz
    exact ⟨_, execMessageHoldTimeout_ends hf hj hheld hlong hfrz, (s.endLaunch_gone lid 8).2, fun l hl => State.endLaunch_told hl 8⟩
  · intro t m hidle habs htask hm
    obtain ⟨⟨x, a, b, hself, hmsg, horigin⟩, hothers⟩ := s.startMsg_began t m
    refine ⟨_, _, execActivationStart_message hidle habs htask hm, hself, ?_, ?_, rfl, rfl, rfl, rfl, rfl, ?_, rfl, rfl, rfl, ⟨a, rfl, hmsg, horigin⟩, hothers⟩
    · exact hmsg ▸ rfl
    · exact hmsg ▸ rfl
    · exact hmsg ▸ handler_pc a.msg.w0

end Sys2Proof.Machine
end

section
/-!
STAMP with the front end's last sequence number is refuted: O35.
-/

namespace Sys2Proof.Machine

open Sys2Proof Sys2Proof.Claims

/-- An outcome that a computation finds to be a next state, with what it finds of that state. -/
theorem next_of_check {o : Host.Outcome State Fault Refusal} (P : State → Bool) (h : (match o with | .next u => P u | _ => false) = true) :
    ∃ u, o = .next u ∧ P u = true := by
  cases o with
  | next u => exact ⟨u, rfl, h⟩
  | fault _ => cases h
  | refused _ => cases h

/-- A STAMP packet at the head of queue 4095, and the front end's next stamp has the greatest sequence number of 48 bits. -/
def lastStamp : State := { Tests.queued (Tests.words 4) with fseq := 2 ^ 48 - 1 }

theorem lastStamp_packet : ∃ p, lastStamp.packet (.host 4095) = some p ∧ p.kind = 4 ∧
    ∃ bs, ((lastStamp.takePacket (.host 4095)).stamped).granted p.ctx (p.w 6) 16 rWR true = .ok bs := by
  obtain ⟨p, hp, hk⟩ := Tests.some_of (lastStamp.packet (.host 4095)) (fun p => decide (p.kind = 4) && decide (p.ctx = 0) && decide (p.w 6 = Tests.va + 0x100))
    (by decide +kernel)
  simp only [Bool.and_eq_true, decide_eq_true_eq] at hk
  obtain ⟨⟨hkind, hctx⟩, haddr⟩ := hk
  obtain ⟨bs, hbs, -⟩ := Tests.ok_of (((lastStamp.takePacket (.host 4095)).stamped).granted 0 (Tests.va + 0x100) 16 rWR true) (fun _ => true) (by decide +kernel)
  exact ⟨p, hp, hkind, bs, by rw [hctx, haddr]; exact hbs⟩

/-- The step that runs it leaves the sequence number 0: the number is one of 48 bits (R111). -/
theorem lastStamp_wraps : ∃ u, exec (.stampPacket (.host 4095)) lastStamp = .next u ∧ u.fseq = 0 := by
  obtain ⟨u, hu, h⟩ := next_of_check (o := exec (.stampPacket (.host 4095)) lastStamp) (fun u => decide (u.fseq = 0)) (by decide +kernel)
  exact ⟨u, hu, of_decide_eq_true h⟩

/-- Refutes O35: the sequence number of a stamp has 48 bits (R111), so the one after the greatest is 0 and not one more. -/
theorem not_queuePacketResult : ¬ Obligations.QueuePacketResult := by
  intro h
  obtain ⟨-, -, -, -, hstamp, -⟩ := h lastStamp
  obtain ⟨p, hp, hkind, bs, hbs⟩ := lastStamp_packet
  obtain ⟨u, hu, hseq, -⟩ := hstamp 4095 p bs hp hkind hbs
  obtain ⟨v, hv, hwrap⟩ := lastStamp_wraps
  obtain rfl : u = v := Host.Outcome.next.inj (hu.symm.trans hv)
  rw [hwrap] at hseq
  exact absurd hseq (by decide)

end Sys2Proof.Machine
end

section
/-!
The send buffer and the destinations of messages (R105 to R107, R208, R209): O15.
-/

namespace Sys2Proof.Machine

open Sys2Proof Sys2Proof.Claims

/-! ## The end of an instruction that only enters the send buffer -/

section

variable {s : State} {t : TsId} {act : Activation} {e : Exe} {b : Buffered}

theorem Exe.buffer_ok (h : e.x.sbuf.length < 32) : e.buffer b = .ok { e with x := { e.x with sbuf := e.x.sbuf ++ [b] } } := if_neg (by omega)

theorem Exe.buffer_full (h : 32 ≤ e.x.sbuf.length) : e.buffer b = trap .bound 0 := if_pos h

theorem Exe.same_sound (h : (exeOf s t act).Same e) (v : Vec) : (exeOf s t act).Same (e.sound v) := h

/-- An instruction whose meaning, on the registers as they are and on sound ones, is to enter the send buffer. -/
theorem issue_buffer (ht : Turn s t act) {f : Exe → Except Stop Exe} (hs : (exeOf s t act).Same e)
    (hf : f (exeOf s t act) = e.buffer b >>= Exe.next) (hk : ∀ v, f ((exeOf s t act).sound v) = (e.sound v).buffer b >>= Exe.next) :
    (e.x.sbuf.length < 32 → ∃ u, issue s f = .next u ∧ SameBytes s u ∧ Retired { e with x := { e.x with sbuf := e.x.sbuf ++ [b] } } 4 u) ∧
    (32 ≤ e.x.sbuf.length → issue s f = .next (trapped s t .bound 0)) := by
  constructor
  · intro hroom
    rw [Exe.buffer_ok hroom, bind_ok] at hf
    obtain ⟨u, hu, hret, hbytes⟩ := issue_next_same ht hf hs
    exact ⟨u, hu, hbytes, hret⟩
  · intro hfull
    refine issue_trap (c' := Cause.bound.code) (x' := 0) ht ?_ fun v => ?_
    · rw [hf, Exe.buffer_full hfull]
      rfl
    · rw [hk, Exe.buffer_full (e := e.sound v) hfull]
      rfl

end

/-! ## The sources of SEND and SENDO -/

section

variable {s : State} {t : TsId} {act : Activation} {a b v : Reg} {h d : Word} {p : Vec} {e1 e2 e3 : Exe}

/-- The values of two scalar sources and a vector source, read in this order. -/
def Exe.srcSSV (e : Exe) (a b v : Reg) (f : Word → Word → Vec → Exe → Except Stop Exe) : Except Stop Exe := do
  let (h, e) ← e.srcS a
  let (d, e) ← e.srcS b
  let (p, e) ← e.srcV v
  f h d p e

theorem Exe.srcSSV_ok {e : Exe} (ha : e.srcS a = .ok (h, e1)) (hb : e1.srcS b = .ok (d, e2)) (hv : e2.srcV v = .ok (p, e3))
    (f : Word → Word → Vec → Exe → Except Stop Exe) : e.srcSSV a b v f = f h d p e3 := by
  simp only [Exe.srcSSV, ha, hb, hv, bind_ok]

theorem Exe.srcSSV_sound {e : Exe} (ha : e.srcS a = .ok (h, e1)) (hb : e1.srcS b = .ok (d, e2)) (hv : e2.srcV v = .ok (p, e3))
    (f : Word → Word → Vec → Exe → Except Stop Exe) (w : Vec) : (e.sound w).srcSSV a b v f = f h d p (e3.sound w) :=
  Exe.srcSSV_ok (Exe.srcS_sound ha w) (Exe.srcS_sound hb w) (Exe.srcV_sound hv w) f

theorem Exe.srcSSV_same (ha : (exeOf s t act).srcS a = .ok (h, e1)) (hb : e1.srcS b = .ok (d, e2)) (hv : e2.srcV v = .ok (p, e3)) :
    (exeOf s t act).Same e3 :=
  ((Exe.srcS_frame ha).1.trans (Exe.srcS_frame hb).1).trans (Exe.srcV_frame hv).1

/-- An instruction that reads them and traps by a check of the device's state alone: no damaged source decides it (R252). -/
theorem issue_srcSSV_trap (ht : Turn s t act) (ha : (exeOf s t act).srcS a = .ok (h, e1)) (hb : e1.srcS b = .ok (d, e2))
    (hv : e2.srcV v = .ok (p, e3)) {f : Word → Word → Vec → Exe → Except Stop Exe} {c : Cause} {x : Word}
    (hf : ∀ e, (exeOf s t act).Same e → f h d p e = trap c x) : issue s (fun e => e.srcSSV a b v f) = .next (trapped s t c x) := by
  refine issue_trap (c' := c.code) (x' := x) ht ?_ fun w => ?_
  · rw [Exe.srcSSV_ok ha hb hv]
    exact hf e3 (Exe.srcSSV_same ha hb hv)
  · rw [Exe.srcSSV_sound ha hb hv]
    exact hf _ (Exe.same_sound (Exe.srcSSV_same ha hb hv) w)

/-- An instruction that reads them and enters the send buffer. -/
theorem issue_srcSSV_buffer (ht : Turn s t act) (ha : (exeOf s t act).srcS a = .ok (h, e1)) (hb : e1.srcS b = .ok (d, e2))
    (hv : e2.srcV v = .ok (p, e3)) {f : Word → Word → Vec → Exe → Except Stop Exe} {m : Buffered}
    (hf : ∀ e, (exeOf s t act).Same e → f h d p e = e.buffer m >>= Exe.next) :
    (e3.x.sbuf.length < 32 → ∃ u, issue s (fun e => e.srcSSV a b v f) = .next u ∧ SameBytes s u ∧
      Retired { e3 with x := { e3.x with sbuf := e3.x.sbuf ++ [m] } } 4 u) ∧
    (32 ≤ e3.x.sbuf.length → issue s (fun e => e.srcSSV a b v f) = .next (trapped s t .bound 0)) := by
  have hs := Exe.srcSSV_same ha hb hv
  refine issue_buffer ht hs ?_ fun w => ?_
  · rw [Exe.srcSSV_ok ha hb hv, hf e3 hs]
  · rw [Exe.srcSSV_sound ha hb hv, hf _ (Exe.same_sound hs w)]

end

/-! ## Destinations -/

/-- The 48 bytes of payload that a message keeps of a vector (R106). -/
theorem payload_kept (p : Vec) : (p.setWidth 384).setWidth 512 = BitVec.ofNat 512 (p.toNat % 2 ^ 384) :=
  (BitVec.ofNat_toNat 512 _).symm.trans (congrArg (BitVec.ofNat 512) (BitVec.toNat_setWidth 384 p))

section

variable {s : State} {t : TsId} {act : Activation} {e : Exe} {c : CoreId} {d h : Word} {p : Vec}

theorem Exe.present_ok (hs : (exeOf s t act).Same e) (hc : s.coreAbsent c = false) : e.present c d = .ok c := by
  rw [Exe.present, hs.1, show (exeOf s t act).s.coreAbsent c = false from hc, if_neg (by decide)]

theorem Exe.present_absent (hs : (exeOf s t act).Same e) (hc : s.coreAbsent c = true) : e.present c d = trap .xlate d := by
  rw [Exe.present, hs.1, show (exeOf s t act).s.coreAbsent c = true from hc, if_pos rfl]

theorem Exe.view_same (hs : (exeOf s t act).Same e) : e.view = (exeOf s t act).view := by
  obtain ⟨-, ht, ha, -⟩ := hs
  rw [Exe.view, Exe.view, ht, ha]

theorem Exe.inLaunch_same (hs : (exeOf s t act).Same e) (c : CoreId) : e.s.inLaunch e.view c = s.inLaunch (exeOf s t act).view c := by
  rw [Exe.view_same hs, hs.1]
  rfl

theorem Exe.remote_same (hs : (exeOf s t act).Same e) (n : Nat) : e.remote n = (s.endpoint? t.core n).filter (fun j => decide (j ≠ s.device)) := by
  obtain ⟨h, ht, -⟩ := hs
  rw [Exe.remote, h, ht]
  rfl

/-- No endpoint to a core number, or one of this device, binds no message for another device. -/
theorem Exe.remote_none (hs : (exeOf s t act).Same e) {n : Nat} (hj : ∀ j, s.endpoint? t.core n = some j → j = s.device) : e.remote n = none := by
  rw [Exe.remote_same hs, Option.filter_eq_none_iff]
  intro j hsome
  simpa using hj j hsome

/-- The endpoint's device, if it is another one, is where the message is bound for (R208). -/
theorem Exe.remote_some (hs : (exeOf s t act).Same e) {n j : Nat} (hj : s.endpoint? t.core n = some j) :
    e.remote n = if j = s.device then none else some j := by
  rw [Exe.remote_same hs, hj, Option.filter_some]
  by_cases h : j = s.device <;> simp [h]

/-- The core may send to the destination without an endpoint: it lies in the launch, or a kernel core sends (R209, R389). -/
def Inside (s : State) (t : TsId) (act : Activation) (c : CoreId) : Prop := s.inLaunch (exeOf s t act).view c = true ∨ t.core.kernel = true

/-- Where a message to `c` is bound for: none is this device. -/
def Bound (s : State) (t : TsId) (act : Activation) (c : CoreId) (k : Option Nat) : Prop :=
  (Inside s t act c → k = none) ∧ (¬ Inside s t act c → ∀ j, s.endpoint? t.core c.idx = some j → k = if j = s.device then none else some j)

theorem outside_of_inside (hs : (exeOf s t act).Same e) (h : Inside s t act c) : (!(e.s.inLaunch e.view c) && !e.t.core.kernel) = false := by
  rw [Exe.inLaunch_same hs, hs.2.1]
  rcases h with h | h
  · rw [h]
    rfl
  · rw [show (exeOf s t act).t.core.kernel = true from h, Bool.not_true, Bool.and_false]

theorem outside_of_not_inside (hs : (exeOf s t act).Same e) (h : ¬ Inside s t act c) : (!(e.s.inLaunch e.view c) && !e.t.core.kernel) = true := by
  rw [Exe.inLaunch_same hs, hs.2.1]
  obtain ⟨hout, hkern⟩ := not_or.mp h
  rw [Bool.eq_false_of_not_eq_true hout, show (exeOf s t act).t.core.kernel = false from Bool.eq_false_of_not_eq_true hkern]
  rfl

/-- A granted destination's message enters the send buffer. -/
theorem Exe.sendTo_buffers (hs : (exeOf s t act).Same e) {kind : Nat} {sc : BitVec 3} {k : Option Nat}
    (hg : Inside s t act c ∨ (s.endpoint? t.core c.idx).isSome = true) (hk : Bound s t act c k) :
    e.sendTo c h kind sc p =
      e.buffer (.send c (!(s.inLaunch (exeOf s t act).view c)) h kind sc.toNat (BitVec.ofNat 512 (p.toNat % 2 ^ 384)) k) >>= Exe.next := by
  simp only [Exe.sendTo, payload_kept]
  by_cases hin : Inside s t act c
  · rw [outside_of_inside hs hin, Exe.inLaunch_same hs, hk.1 hin, Bool.false_and, if_neg Bool.false_ne_true, if_neg Bool.false_ne_true]
  · obtain ⟨j, hj⟩ := Option.isSome_iff_exists.mp (hg.resolve_left hin)
    have hend : e.s.endpoint? e.t.core c.idx = some j := by rw [hs.1, hs.2.1]; exact hj
    rw [outside_of_not_inside hs hin, Exe.inLaunch_same hs, hend, Exe.remote_some hs hj, hk.2 hin j hj, Option.isNone_some, if_neg (by decide), if_pos rfl]

/-- SEND's destination: present, or one of another device (R106, R208). -/
theorem Exe.sendCore_ok (hs : (exeOf s t act).Same e) {k : Option Nat} (hg : Inside s t act (cc d.toNat) ∨ (s.endpoint? t.core d.toNat).isSome = true)
    (hk : Bound s t act (cc d.toNat) k) (hp : s.coreAbsent (cc d.toNat) = false ∨ k ≠ none) : e.sendCore d = .ok (cc d.toNat) := by
  rw [Exe.sendCore]
  by_cases hfar : k = none
  · simp only [Exe.present_ok hs (hp.resolve_right (not_not_intro hfar)), ite_self]
  · have hin : ¬ Inside s t act (cc d.toNat) := fun h => hfar (hk.1 h)
    obtain ⟨j, hj⟩ := Option.isSome_iff_exists.mp (hg.resolve_left hin)
    have hrem : (e.remote (cc d.toNat).idx).isSome = true := by
      rw [Exe.remote_some hs (n := (cc d.toNat).idx) hj, ← hk.2 hin j hj]
      exact Option.isSome_iff_ne_none.mpr hfar
    rw [if_pos]
    rw [hrem, Bool.and_true, Bool.and_comm, outside_of_not_inside hs hin]

/-- A core that no endpoint of another device names must be present. -/
theorem Exe.sendCore_here (hs : (exeOf s t act).Same e) (hj : ∀ j, s.endpoint? t.core d.toNat = some j → j = s.device) :
    e.sendCore d = e.present (cc d.toNat) d := by
  rw [Exe.sendCore, if_neg]
  rw [Exe.remote_none hs (n := (cc d.toNat).idx) hj]
  simp

/-- The owner of an address reads the device's state and not the registers. -/
theorem Exe.owner_same {e' : Exe} (hs : e.Same e') (d : Word) : e'.owner d = e.owner d := by
  obtain ⟨h1, h2, h3, -⟩ := hs
  simp only [Exe.owner, Exe.local, Exe.present, h1, h2, h3]
  rfl

end

/-! ## The instructions -/

section

variable {s : State} {t : TsId} {act : Activation} {v a b : Reg} {sc : BitVec 3} {h d : Word} {p : Vec} {e1 e2 e3 : Exe}

theorem execSend_eq (v a b : Reg) (sc : BitVec 3) (s : State) : execSend v a b sc s = issue s (fun e => e.srcSSV a b v fun h d p e =>
    if 2 ^ 14 ≤ d.toNat then trap .xlate d else e.sendCore d >>= fun t => e.sendTo t h 0 sc p) := rfl

theorem execSendo_eq (v a b : Reg) (sc : BitVec 3) (s : State) : execSendo v a b sc s = issue s (fun e => e.srcSSV a b v fun h d p e =>
    e.owner d >>= fun t => e.sendTo t h 1 sc p) := rfl

/-- What entering the send buffer is: the instruction retires with one entry more, or raises BOUND at 32 (R105). -/
def Buffers (s : State) (t : TsId) (i : Instr) (e : Exe) (m : Buffered) : Prop :=
  (e.x.sbuf.length < 32 → ∃ u, exec i s = .next u ∧ SameBytes s u ∧ Retired { e with x := { e.x with sbuf := e.x.sbuf ++ [m] } } 4 u) ∧
  (32 ≤ e.x.sbuf.length → exec i s = .next (trapped s t .bound 0))

theorem send_buffers (ht : Turn s t act) (ha : (exeOf s t act).srcS a = .ok (h, e1)) (hb : e1.srcS b = .ok (d, e2)) (hv : e2.srcV v = .ok (p, e3))
    {k : Option Nat} (hd : d.toNat < 2 ^ 14) (hg : Inside s t act (cc d.toNat) ∨ (s.endpoint? t.core d.toNat).isSome = true)
    (hk : Bound s t act (cc d.toNat) k) (hp : s.coreAbsent (cc d.toNat) = false ∨ k ≠ none) :
    Buffers s t (.send v a b sc) e3
      (.send (cc d.toNat) (!(s.inLaunch (exeOf s t act).view (cc d.toNat))) h 0 sc.toNat (BitVec.ofNat 512 (p.toNat % 2 ^ 384)) k) := by
  show (_ → ∃ u, execSend v a b sc s = .next u ∧ _) ∧ (_ → execSend v a b sc s = _)
  rw [execSend_eq]
  refine issue_srcSSV_buffer ht ha hb hv fun e hs => ?_
  rw [if_neg (by omega), Exe.sendCore_ok hs hg hk hp, bind_ok]
  exact Exe.sendTo_buffers hs hg hk

theorem sendo_buffers (ht : Turn s t act) (ha : (exeOf s t act).srcS a = .ok (h, e1)) (hb : e1.srcS b = .ok (d, e2)) (hv : e2.srcV v = .ok (p, e3))
    {c : CoreId} {k : Option Nat} (hc : e3.owner d = .ok c) (hg : Inside s t act c ∨ (s.endpoint? t.core c.idx).isSome = true)
    (hk : Bound s t act c k) :
    Buffers s t (.sendo v a b sc) e3
      (.send c (!(s.inLaunch (exeOf s t act).view c)) h 1 sc.toNat (BitVec.ofNat 512 (p.toNat % 2 ^ 384)) k) := by
  show (_ → ∃ u, execSendo v a b sc s = .next u ∧ _) ∧ (_ → execSendo v a b sc s = _)
  rw [execSendo_eq]
  refine issue_srcSSV_buffer ht ha hb hv fun e hs => ?_
  rw [Exe.owner_same hs, ← Exe.owner_same (Exe.srcSSV_same ha hb hv), hc, bind_ok]
  exact Exe.sendTo_buffers hs hg hk

/-- The check of a record for the Pile reads the device's state and not the registers. -/
theorem Exe.spawnCheck_sound (e : Exe) (w : Vec) (l : Launch) (r : PileRec) : (e.sound w).spawnCheck l r = e.spawnCheck l r := rfl

/-- SPAWN behind its source: a record for the Pile is checked first (R126, R356). -/
def Exe.spawnTail (e : Exe) (x : Vec) : Except Stop Exe := do
  let d := leBytes 32 x.toNat
  match e.launch with
  | some l => if l.pile then e.spawnCheck l (pileRecOf d 0)
  | none => .ok ()
  let e ← e.buffer (.spawn d)
  e.next

theorem execSpawn_eq (v : Reg) (s : State) : execSpawn v s = issue s (fun e => e.srcV v >>= fun p => p.2.spawnTail p.1) := rfl

theorem Exe.spawnTail_buffers {e : Exe} {x : Vec}
    (hok : ∀ l, e.launch = some l → l.pile = true → e.spawnCheck l (pileRecOf (leBytes 32 x.toNat) 0) = .ok ()) :
    e.spawnTail x = e.buffer (.spawn (leBytes 32 x.toNat)) >>= Exe.next := by
  unfold Exe.spawnTail
  cases hl : e.launch with
  | none => rfl
  | some l =>
    cases hp : l.pile with
    | false => simp only [hp, Bool.false_eq_true, if_false]
    | true => simp only [hp, if_true, hok l hl hp, bind_ok]

theorem spawn_buffers (ht : Turn s t act) {x : Vec} (hv : (exeOf s t act).srcV v = .ok (x, e1))
    (hok : ∀ l, e1.launch = some l → l.pile = true → e1.spawnCheck l (pileRecOf (leBytes 32 x.toNat) 0) = .ok ()) :
    Buffers s t (.spawn v) e1 (.spawn (leBytes 32 x.toNat)) := by
  show (_ → ∃ u, execSpawn v s = .next u ∧ _) ∧ (_ → execSpawn v s = _)
  rw [execSpawn_eq]
  refine issue_buffer ht (Exe.srcV_frame hv).1 ?_ fun w => ?_
  · rw [hv, bind_ok]
    exact Exe.spawnTail_buffers hok
  · rw [Exe.srcV_sound hv w, bind_ok]
    exact Exe.spawnTail_buffers fun l hl hp => (Exe.spawnCheck_sound e1 w l _).trans (hok l hl hp)

theorem bara_buffers (ht : Turn s t act) {g : Byte} {r : BitVec 3} {x : Vec} {l : Launch} (ha : (exeOf s t act).srcS a = .ok (h, e1))
    (hv : e1.srcV v = .ok (x, e2)) (hl : e2.launch = some l) (hm : l.member g.toNat t.core = true) :
    Buffers s t (.bara v a g r) e2 (.bara g.toNat r.toNat h x) := by
  have hs := (Exe.srcS_frame ha).1.trans (Exe.srcV_frame hv).1
  have hin : ((e2.launch.map (fun l => l.member g.toNat e2.t.core)).getD false) = true := by
    rw [hl, hs.2.1]
    exact hm
  refine issue_buffer ht hs ?_ fun w => ?_
  · simp only [ha, hv, bind_ok, hin, Bool.not_true, Bool.false_eq_true, if_false]
  · have hw : (((e2.sound w).launch.map (fun l => l.member g.toNat (e2.sound w).t.core)).getD false) = true := hin
    simp only [Exe.srcS_sound ha w, Exe.srcV_sound hv w, bind_ok, hw, Bool.not_true, Bool.false_eq_true, if_false]

theorem lend_buffers (ht : Turn s t act) : Buffers s t .lend (exeOf s t act) .lend :=
  issue_buffer ht (.rfl' _) rfl fun _ => rfl

end

/-! ## The statement -/

theorem sendBufferResult : SendBufferResult := by
  intro s t act ht
  refine ⟨fun v a b sc h d p e1 e2 e3 ha hb hv => ⟨?_, ?_⟩, ?_, ?_, lend_buffers ht⟩
  · exact fun hd hg k hk hp => send_buffers ht ha hb hv hd hg hk hp
  · exact fun c hc hg k hk => sendo_buffers ht ha hb hv hc hg hk
  · exact fun v x e1 hv hok => spawn_buffers ht hv hok
  · exact fun v a g r h x e1 e2 l ha hv hl hm => bara_buffers ht ha hv hl hm

theorem sendDestinationTraps : SendDestinationTraps := by
  intro s t act ht v a b sc h d p e1 e2 e3 ha hb hv
  constructor
  · intro hbad
    show execSend v a b sc s = _
    rw [execSend_eq]
    refine issue_srcSSV_trap ht ha hb hv fun e hs => ?_
    by_cases hbig : 2 ^ 14 ≤ d.toNat
    · rw [if_pos hbig]
    · obtain ⟨habs, hj⟩ := hbad.resolve_left hbig
      rw [if_neg hbig, Exe.sendCore_here hs hj, Exe.present_absent hs habs]
      rfl
  · intro hd hpres hkern hout hend
    show execSend v a b sc s = _
    rw [execSend_eq]
    refine issue_srcSSV_trap ht ha hb hv fun e hs => ?_
    have hno : ∀ j, s.endpoint? t.core d.toNat = some j → j = s.device := fun j hj => by rw [hend] at hj; cases hj
    have hin : ¬ Inside s t act (cc d.toNat) := by simp [Inside, hout, hkern]
    have hgate : e.s.endpoint? e.t.core (cc d.toNat).idx = none := by rw [hs.1, hs.2.1]; exact hend
    rw [if_neg (by omega), Exe.sendCore_here hs hno, Exe.present_ok hs hpres, bind_ok]
    simp only [Exe.sendTo, outside_of_not_inside hs hin, hgate, Option.isNone_none, Bool.and_self, if_true]
    rw [show (cc d.toNat).idx = d.toNat from rfl, BitVec.ofNat_toNat, BitVec.setWidth_eq]

/-- Settles O15: every instruction's meaning, on its registers and on sound ones, is to enter the send buffer or to trap by the device's state. -/
theorem sendResult : Obligations.SendResult := ⟨sendBufferResult, sendDestinationTraps⟩

end Sys2Proof.Machine
end

section
/-!
A block read whose destination runs past the local window is refuted: O14.
-/

namespace Sys2Proof.Machine

open Sys2Proof Sys2Proof.Claims

/-- Core 0 has no L1, so that its scratchpad fills the local window, and may reach the first GiB; the 2 MiB behind the window lie at bus address
0x400000. Thread set 0 has two addresses in registers: one of memory, and that of the window's last 64 bytes. -/
def pastWindow : State :=
  let s := Tests.on fun x => { x with sreg := [(6, BitVec.ofNat 64 placeVa), (7, 0x3FFC0)] }
  { s with mem := (s.wr64 0x30000 (at64 1 0 ||| at64 1 1 ||| at64 15 2 ||| at64 64 16)).mem,
           cores := Assoc.set s.cores (cc 0) { s.core (cc 0) with l1 := 0, thimble := [(0, BitVec.ofNat 256 (1 + 15 * 4 + 2 ^ 30 * 2 ^ 128))] } }

/-- The same, where the first byte behind the window is one of the context page table, which its owner alone writes (R70), and memory lists it as the
zero that it is: no state with `MemInv` does. -/
def listedZero : State := { pastWindow with mem := pastWindow.mem ++ [(0x440000, 0)], ptBase := 0x440000, ptSize := 1 }

/-- The block read, of 128 bytes, keeps that byte by storing it again, and memory lists one byte less. -/
theorem listedZero_brd : ∃ u, exec (.brd 0 6 7 1) listedZero = .next u ∧ u.mem.length + 1 = listedZero.mem.length := by
  obtain ⟨u, hu, h⟩ := next_of_check (o := exec (.brd 0 6 7 1) listedZero) (fun u => decide (u.mem.length + 1 = listedZero.mem.length)) (by decide +kernel)
  exact ⟨u, hu, of_decide_eq_true h⟩

/-- Refutes O14, in its part on block operations: a BRD may end in memory past the local window, and a byte there that its owner alone writes is stored
again, which is no change only where memory lists no zero byte. The statement has no premise `MemInv`. -/
theorem not_transferIssue : ¬ Obligations.TransferIssue := by
  intro ⟨hblock, _⟩
  let e := exeOf listedZero Tests.t0 Tests.act0
  obtain ⟨sb, hsb, -⟩ := Tests.ok_of (e.check (BitVec.ofNat 64 placeVa) (64 * ((1 : BitVec 11).toNat + 1)) rRD) (fun _ => true) (by decide +kernel)
  obtain ⟨db, hdb, -⟩ := Tests.ok_of (e.check 0x3FFC0 (64 * ((1 : BitVec 11).toNat + 1)) rWR) (fun _ => true) (by decide +kernel)
  have hroom : e.roomRecord = .ok () := if_neg (by decide +kernel)
  obtain ⟨-, -, hgoes⟩ := hblock listedZero Tests.t0 Tests.act0 ⟨rfl, rfl⟩ true 0 6 7 1 _ _ 0 e e e sb db rfl rfl rfl (by decide) (by decide)
  obtain ⟨u, -, hu, -, -, -, -, -, -, -, -, hmem, -⟩ := hgoes (by decide +kernel) (by decide +kernel) hsb hdb hroom
  obtain ⟨v, hv, hlen⟩ := listedZero_brd
  obtain rfl : u = v := Host.Outcome.next.inj (hu.symm.trans hv)
  rw [hmem] at hlen
  omega

end Sys2Proof.Machine
end

section
/-!
A completion record whose page a discarded message's successors unmap is refuted: O37.
-/

namespace Sys2Proof.Machine

open Sys2Proof Sys2Proof.Claims

/-- A message of no launch of the device. -/
def strayMsg : Msg := { placeMsg 2 with w0 := 0 }

/-- A launch that runs alone, on the last visit of a clean round, whose core 0 holds one message of it among 64, with two more in the overflow ring. The
directory of its context's save area names, for the memory basket of that core, the place where the context's page table maps the record's page. -/
def unmapping : State :=
  { Tests.loneS with
    mem := (Tests.loneS.wr64 0 0x30800).mem,
    cores := Assoc.set Tests.loneS.cores (cc 0)
      { Tests.loneS.core (cc 0) with basket := placeMsg Tests.lone.lid :: List.replicate 63 strayMsg, ring := [strayMsg, strayMsg] } }

/-- The launch's end discards its message; one of the ring moves up into the basket and the other into the memory basket, and is written to its slot
there (R103, R189): then CREC is mapped no more, and STATUS stays 0. -/
theorem unmapping_record : ∃ u, exec (.rinseTokenVisit Tests.lone.lid) unmapping = .next u ∧ u.rd64 0x208000 = 0 := by
  obtain ⟨u, hu, h⟩ := next_of_check (o := exec (.rinseTokenVisit Tests.lone.lid) unmapping) (fun u => decide (u.rd64 0x208000 = 0)) (by decide +kernel)
  exact ⟨u, hu, of_decide_eq_true h⟩

theorem unmapping_granted : unmapping.granted Tests.lone.ctx Tests.lone.crec 128 rWR false =
    .ok [{ va := Tests.va + 0x8000, bus := 0x208000, len := 128, off := 0, nr := false, page := 0x2000 }] := by
  obtain ⟨bs, hbs, h⟩ := Tests.ok_of (unmapping.granted Tests.lone.ctx Tests.lone.crec 128 rWR false)
    (fun bs => decide (bs = [{ va := Tests.va + 0x8000, bus := 0x208000, len := 128, off := 0, nr := false, page := 0x2000 }])) (by decide +kernel)
  rw [hbs, of_decide_eq_true h]

/-- Refutes O37, in its part on the completion record: a launch's end may write messages of others to a memory basket before it writes the record
(R103, R122), and where the context's directory lays that basket over its page table, CREC is granted before and not after. -/
theorem not_stealTokenBarrierResult : ¬ Obligations.StealTokenBarrierResult := by
  intro ⟨_, hrecord⟩
  have hidle : unmapping.idleForToken Tests.lone Tests.lone.token.at_ = true := by decide +kernel
  have hclean : (Tests.lone.token.stain || Tests.lone.stains.contains Tests.lone.token.at_) = false ∧
      Tests.lone.token.sum + Assoc.getD Tests.lone.counts Tests.lone.token.at_ 0 = 0 := by decide +kernel
  have hfree : unowned unmapping 0x208000 128 := by unfold unowned; decide +kernel
  obtain ⟨u, hu, -, hstatus, -⟩ := hrecord unmapping Tests.lone
    { va := Tests.va + 0x8000, bus := 0x208000, len := 128, off := 0, nr := false, page := 0x2000 } rfl rfl rfl (by decide +kernel) hidle
    (by decide +kernel) hclean.1 hclean.2 (by decide +kernel) (by decide +kernel) (by decide +kernel) (by decide +kernel) (by decide +kernel) (by decide +kernel) unmapping_granted
    (Tests.inRam_of _ _ _ (by decide +kernel)) hfree
  obtain ⟨v, hv, hzero⟩ := unmapping_record
  obtain rfl : u = v := Host.Outcome.next.inj (hu.symm.trans hv)
  rw [hzero] at hstatus
  exact absurd hstatus (by decide)

end Sys2Proof.Machine
end

section
/-!
Press commands and rings at issue (R140, R142 to R145, R229, R335, R338, R339, R341): O20.
-/

namespace Sys2Proof.Machine

open Sys2Proof Sys2Proof.Claims

/-! ## Bytes and cores -/

section

variable {s u : State} {c : CoreId} {k : CoreSt} {t : TsId} {act : Activation}

/-- Where the memories stand as they did, a byte that no block read is about to write reads as it did. -/
theorem State.rdByte_of_cells (hmem : u.mem = s.mem) (hscr : u.scratch = s.scratch) (hund : u.undef = s.undef) (hch : u.absentCh = s.absentCh) {x : Nat}
    (hs : s.inBrd x = false) (hu : u.inBrd x = false) : u.rdByte x = s.rdByte x := by
  simp only [State.rdByte, hs, hu, hmem, hscr, hund, noChannel_congr hch, Bool.false_eq_true, if_false]

/-- A core that keeps its rings keeps their control lines. -/
theorem State.ringControl_setCore (hk : k.rings = (s.core c).rings) (x : Nat) : (s.setCore c k).ringControl x = s.ringControl x := by
  simp only [State.ringControl, State.setCore]
  by_cases hc : ({ kernel := false, idx := (x - scratchBase) / 2 ^ 18 } : CoreId) = c
  · subst hc
    rw [Assoc_get_set_self]
    simp only [hk, State.core, Assoc.getD]
    cases Assoc.get s.cores _ with
    | none => rfl
    | some k0 => rfl
  · rw [Assoc_get_set_ne _ _ _ _ hc]

theorem State.inBrd_setCore (hk : k.rings = (s.core c).rings) (x : Nat) : (s.setCore c k).inBrd x = s.inBrd x := by
  rw [State.inBrd, State.ringControl_setCore hk]
  rfl

theorem State.countAt_onLaunch (s : State) (lid : Option Half) (d : Int) :
    s.countAt lid c d = { s with launches := (s.countAt lid c d).launches } := by
  cases lid <;> rfl

end

/-! ## The press queue -/

section

variable {s u : State} {t : TsId} {act : Activation} {e : Exe} {w : Instr} {c : PressCmd} {f : PressCmd → PressCmd}

/-- The command that an instruction enters before it adds what it names (R144). -/
def Exe.pressCmd (e : Exe) (w : Instr) : PressCmd :=
  { word := w, t := e.t, cls := e.a.cls, lid := e.a.lid.getD 0, addr := 0, stride := 0, hdr := 0, segs := [], held := false,
    oseq := e.x.oseq, deps := e.x.rel.filter (fun d => e.s.pending d) }

/-- A command at the tail of a core's press queue. -/
def State.enterPress (s : State) (c : CoreId) (p : PressCmd) : State := s.setCore c { s.core c with pressQ := (s.core c).pressQ ++ [p] }

theorem Exe.hasPress_compute (hs : (exeOf s t act).Same e) (hc : t.core.kernel = false) : e.hasPress = .ok () := by
  obtain ⟨-, ht, -⟩ := hs
  exact if_neg (by rw [ht]; simpa [exeOf] using hc)

theorem Exe.press_ok (hs : (exeOf s t act).Same e) (hroom : (s.core t.core).pressQ.length < 8) :
    e.press w f = .ok { e with s := s.enterPress t.core (f (e.pressCmd w)) } := by
  obtain ⟨h1, h2, -⟩ := hs
  have h1 : e.s = s := h1
  have h2 : e.t = t := h2
  simp only [Exe.press, h1, h2]
  rw [if_neg (by omega)]
  simp only [State.enterPress, Exe.pressCmd, h1, h2]

theorem State.inBrd_enterPress (s : State) (c : CoreId) (p : PressCmd) (x : Nat) : (s.enterPress c p).inBrd x = s.inBrd x :=
  State.inBrd_setCore (k := { s.core c with pressQ := (s.core c).pressQ ++ [p] }) rfl x

theorem sameBytes_enterPress (s : State) (c : CoreId) (p : PressCmd) : SameBytes s (s.enterPress c p) := fun _ hx =>
  State.rdByte_of_cells (s := s) (u := s.enterPress c p) rfl rfl rfl rfl hx ((s.inBrd_enterPress c p _).trans hx)

/-- What an instruction leaves that has entered a command and, maybe, counted it (R119). -/
theorem enterPress_went {pc : Word} {lid : Option Half} {d : Int} (ht : e.t = t) (hw : Went e pc u)
    (he : e.s = s.enterPress t.core c ∨ e.s = (s.enterPress t.core c).countAt lid t.core d) :
    (u.core t.core).pressQ = (s.core t.core).pressQ ++ [c] ∧ SameBytes s u ∧ (u.tsGet t).pc = pc ∧ (u.tsGet t).oseq = e.x.oseq ∧
      (u.tsGet t).sreg = e.x.sreg := by
  subst ht
  obtain ⟨hk, hx, -⟩ := hw
  have hcore : (e.s.core e.t.core).pressQ = (s.core e.t.core).pressQ ++ [c] ∧ e.s.inBrd = (s.enterPress e.t.core c).inBrd ∧
      ∀ x, (s.enterPress e.t.core c).inBrd x = false → e.s.rdByte x = (s.enterPress e.t.core c).rdByte x := by
    rcases he with he | he
    · rw [he]
      exact ⟨by rw [State.enterPress, State.core_setCore], rfl, fun _ _ => rfl⟩
    · rw [he, State.countAt_onLaunch]
      refine ⟨?_, rfl, fun _ _ => rfl⟩
      show ((s.enterPress e.t.core c).core e.t.core).pressQ = _
      rw [State.enterPress, State.core_setCore]
  obtain ⟨hq, hbrd, hrd⟩ := hcore
  refine ⟨?_, fun x hsx => ?_, by rw [hx], by rw [hx], by rw [hx]⟩
  · rw [← hq, hk.1]
    rfl
  · have hv : (s.enterPress e.t.core c).inBrd x = false := (s.inBrd_enterPress e.t.core c x).trans hsx
    rw [hk.bytes x (by rw [hbrd, hv]), hrd x hv]
    exact sameBytes_enterPress s e.t.core c x hsx

/-- The press instructions are ILLOP on a kernel core (R229). -/
theorem issue_noPress (ht : Turn s t act) (hk : t.core.kernel = true) (g : Exe → Except Stop Exe) :
    issue s (fun e => e.hasPress >>= fun _ => g e) = .next (trapped s t .illop 0) := by
  have hno : ∀ e, (exeOf s t act).Same e → e.hasPress = trap .illop 0 := fun e ⟨_, het, _⟩ => if_pos (by rw [het]; exact hk)
  refine issue_trap (c' := Cause.illop.code) (x' := 0) ht ?_ fun v => ?_
  · rw [hno _ (.rfl' _)]
    rfl
  · rw [hno _ (Exe.same_sound (.rfl' _) v)]
    rfl

theorem press_kernel (ht : Turn s t act) (hk : t.core.kernel = true) {i : Instr} (hi : pressInstr i = true) : exec i s = .next (trapped s t .illop 0) := by
  unfold pressInstr at hi
  split at hi
  · exact issue_noPress ht hk _
  · exact issue_noPress ht hk _
  · exact issue_noPress ht hk _
  · exact issue_noPress ht hk _
  · exact issue_noPress ht hk _
  · cases hi

theorem mzero_enters (ht : Turn s t act) (hc : t.core.kernel = false) (hroom : (s.core t.core).pressQ.length < 8) (sl : BitVec 2) :
    ∃ u c, exec (.mzero sl) s = .next u ∧ ((u.core t.core).pressQ = (s.core t.core).pressQ ++ [c] ∧ c.t = t ∧ c.cls = act.cls) ∧ c.word = .mzero sl ∧
      SameBytes s u ∧ (u.tsGet t).pc = (s.tsGet t).pc + 4 ∧ (u.tsGet t).sreg = (s.tsGet t).sreg := by
  have hs : (exeOf s t act).Same (exeOf s t act) := .rfl' _
  have hgo : ∃ u, exec (.mzero sl) s = .next u ∧
      Went { exeOf s t act with s := s.enterPress t.core ((exeOf s t act).pressCmd (.mzero sl)) } ((s.tsGet t).pc + 4) u := by
    refine issue_went ht ?_ rfl
    simp only [Exe.hasPress_compute hs hc, Exe.press_ok hs hroom, bind_ok]
    rfl
  obtain ⟨u, hu, hw⟩ := hgo
  obtain ⟨hq, hbytes, hpc, -, hreg⟩ := enterPress_went (lid := none) (d := 0) rfl hw (.inl rfl)
  exact ⟨u, _, hu, ⟨hq, rfl, rfl⟩, rfl, hbytes, hpc, hreg⟩

theorem mma_enters (ht : Turn s t act) (hc : t.core.kernel = false) (hroom : (s.core t.core).pressQ.length < 8) {a b sl : BitVec 3} {f g : BitVec 4}
    {z k j : Bool} {n : BitVec 3} {ra rb : Ring} (ha : (exeOf s t act).ring a.toNat = some ra) (hb : (exeOf s t act).ring b.toNat = some rb)
    (hfa : ra.fmt = f.toNat) (hfb : rb.fmt = g.toNat) (hna : n.toNat + 1 ≤ ra.count) (hnb : n.toNat + 1 ≤ rb.count) :
    ∃ u c, exec (.mma a b sl f g z k j n) s = .next u ∧ ((u.core t.core).pressQ = (s.core t.core).pressQ ++ [c] ∧ c.t = t ∧ c.cls = act.cls) ∧
      c.word = .mma a b sl f g z k j n ∧ SameBytes s u ∧ (u.tsGet t).pc = (s.tsGet t).pc + 4 ∧ (u.tsGet t).sreg = (s.tsGet t).sreg := by
  have hs : (exeOf s t act).Same (exeOf s t act) := .rfl' _
  let c := (exeOf s t act).pressCmd (.mma a b sl f g z k j n)
  have hgo : ∃ u, exec (.mma a b sl f g z k j n) s = .next u ∧
      Went { exeOf s t act with s := s.enterPress t.core c } ((s.tsGet t).pc + 4) u := by
    refine issue_went ht ?_ rfl
    rw [Exe.hasPress_compute hs hc, bind_ok, ha, hb]
    simp only [hfa, hfb, ne_eq, not_true_eq_false, or_self, if_false, if_neg (Nat.not_lt.mpr hna), if_neg (Nat.not_lt.mpr hnb), Exe.press_ok hs hroom, bind_ok]
    rfl
  obtain ⟨u, hu, hw⟩ := hgo
  obtain ⟨hq, hbytes, hpc, -, hreg⟩ := enterPress_went (lid := none) (d := 0) rfl hw (.inl rfl)
  exact ⟨u, c, hu, ⟨hq, rfl, rfl⟩, rfl, hbytes, hpc, hreg⟩

/-- Low and high parts of a word below a power of two (R142, R338, R339). -/
theorem bits_low {w : Word} {n : Nat} (h : w.toNat < 2 ^ (n + 1)) : bits w n 0 = w.toNat := by
  rw [bits, Nat.sub_zero, Nat.pow_zero, Nat.div_one, Nat.mod_eq_of_lt h]

theorem bits_high_zero {w : Word} {n : Nat} (h : w.toNat < 2 ^ n) (hi : Nat) : bits w hi n = 0 := by
  rw [bits, Nat.div_eq_of_lt h, Nat.zero_mod]

/-- Three scalar sources change the scalar load queue only. -/
theorem Exe.srcSSS_frame {a b d : Reg} {va st h : Word} {e e1 e2 e3 : Exe} (ha : e.srcS a = .ok (va, e1)) (hb : e1.srcS b = .ok (st, e2))
    (hd : e2.srcS d = .ok (h, e3)) : e.Same e3 ∧ e3.x = { e.x with slq := e3.x.slq } := by
  obtain ⟨s1, x1⟩ := Exe.srcS_frame ha
  obtain ⟨s2, x2⟩ := Exe.srcS_frame hb
  obtain ⟨s3, x3⟩ := Exe.srcS_frame hd
  exact ⟨(s1.trans s2).trans s3, by rw [x3, x2, x1]⟩

theorem mst_enters (ht : Turn s t act) (hc : t.core.kernel = false) (hroom : (s.core t.core).pressQ.length < 8) {d a b : Reg} {m : BitVec 3}
    {sl : BitVec 2} {va st h : Word} {e1 e2 e3 : Exe} {bs : List Block} (ha : (exeOf s t act).srcS a = .ok (va, e1)) (hb : e1.srcS b = .ok (st, e2))
    (hd : e2.srcS d = .ok (h, e3)) (hva : va.toNat % 64 = 0) (hst : st.toNat % 64 = 0) (hst32 : st.toNat < 2 ^ 32) (hw : mstRowBytes m.toNat ≤ st.toNat)
    (hbs : e3.mstRows st (mstRowBytes m.toNat) 32 va = .ok bs) :
    ∃ u c, exec (.mst d a b m sl) s = .next u ∧ ((u.core t.core).pressQ = (s.core t.core).pressQ ++ [c] ∧ c.t = t ∧ c.cls = act.cls) ∧
      c.word = .mst d a b m sl ∧ c.addr = va ∧ c.stride = st.toNat ∧ c.hdr = h ∧ countedOnce s u t act ∧ SameBytes s u ∧
      (u.tsGet t).pc = (s.tsGet t).pc + 4 ∧ (u.tsGet t).oseq = (s.tsGet t).oseq + 1 ∧ (u.tsGet t).sreg = (s.tsGet t).sreg := by
  obtain ⟨hs, hx⟩ := Exe.srcSSS_frame ha hb hd
  have hpc3 : e3.x.pc = (s.tsGet t).pc := by rw [hx]; rfl
  have hoseq3 : e3.x.oseq = (s.tsGet t).oseq := by rw [hx]; rfl
  have hreg3 : e3.x.sreg = (s.tsGet t).sreg := by rw [hx]; rfl
  obtain ⟨-, h2, h3, h4⟩ := id hs
  let rows : List Seg := bs.map (fun g => { va := g.va, bus := g.bus, len := g.len, off := 0 })
  let c : PressCmd := { e3.pressCmd (.mst d a b m sl) with addr := va, stride := st.toNat, hdr := h, held := anyNr bs, segs := rows }
  let e : Exe := (Exe.nextSeq { e3 with s := s.enterPress t.core c }).count
  have hgo : ∃ u, exec (.mst d a b m sl) s = .next u ∧ Went e (e3.x.pc + 4) u := by
    refine issue_went ht ?_ h4
    have hlow : bits st 31 0 = st.toNat := bits_low hst32
    have hhigh : bits st 63 32 = 0 := bits_high_zero hst32 63
    simp only [Exe.hasPress_compute (.rfl' _) hc, ha, hb, hd, Exe.aligned_ok hva, hlow, hhigh, hst, hbs, Exe.press_ok hs hroom, bind_ok, ne_eq,
      not_true_eq_false, if_false, if_neg (Nat.not_lt.mpr hw), false_or]
    rfl
  obtain ⟨u, hu, hwent⟩ := hgo
  have het : e.t = t := h2
  have hes : e.s = (s.enterPress t.core c).countAt e3.a.lid t.core 1 := congrArg (fun x : TsId => (s.enterPress t.core c).countAt e3.a.lid x.core 1) h2
  obtain ⟨hq, hbytes, hpc, hoseq, hreg⟩ := enterPress_went het hwent (.inr hes)
  refine ⟨u, c, hu, ⟨hq, h2, congrArg Activation.cls h3⟩, rfl, rfl, rfl, rfl, fun l o hlid hl ho => ?_, hbytes, hpc3 ▸ hpc, hoseq3 ▸ hoseq, hreg3 ▸ hreg⟩
  have hlid3 : e3.a.lid = some l.lid := (congrArg Activation.lid h3).trans hlid
  refine ⟨{ l with counts := Assoc.set l.counts o (Assoc.getD l.counts o 0 + 1) }, ?_, by simp⟩
  rw [hwent.1.1]
  show e.s.launch l.lid = _
  rw [hes, hlid3]
  exact State.countAt_launch (s := s.enterPress t.core c) hl ho 1

theorem pressIssue : PressIssue := by
  intro s t act ht e queued
  refine ⟨fun hk i hi => press_kernel ht hk hi, fun hc hroom => ⟨fun sl => mzero_enters ht hc hroom sl, ?_, ?_⟩⟩
  · intro a b sl f g z k j n ra rb ha hb hfa hfb hna hnb
    exact mma_enters ht hc hroom ha hb hfa hfb hna hnb
  · intro d a b m sl va st h e1 e2 e3 bs ha hb hd hva hst hst32 hw hbs
    obtain ⟨u, c, hu, hq, hword, haddr, hstride, hhdr, hcount, hbytes, hpc, hoseq, hreg⟩ := mst_enters ht hc hroom ha hb hd hva hst hst32 hw hbs (sl := sl)
    exact ⟨u, c, hu, hq, hword, haddr, hstride, hhdr, hcount, hbytes, hpc, hoseq, hreg⟩

end

/-! ## Rings -/

section

variable {s u : State} {t : TsId} {act : Activation} {a b : Reg} {n : BitVec 3} {base v : Word} {e e1 e2 : Exe} {r : Ring}

theorem scratchBus_compute {c : CoreId} (hc : c.kernel = false) (off : Nat) : scratchBus c off = scratchBase + c.idx * 2 ^ 18 + off := by
  rw [scratchBus, hc]
  rfl

/-- A ring that overlaps nothing makes nothing undefined (R338). -/
theorem State.forgetOverlaps_none (c : CoreId) (base len : Nat) (rs : List (Nat × Nat)) (s : State)
    (h : ∀ p ∈ rs, base + len ≤ p.1 ∨ p.1 + p.2 ≤ base) : s.forgetOverlaps c base len rs = s := by
  induction rs with
  | nil => rfl
  | cons p rest ih =>
    have hp := h p List.mem_cons_self
    rw [State.forgetOverlaps, if_neg (by omega), ih fun q hq => h q (List.mem_cons_of_mem _ hq)]

theorem State.forgetOverlaps_core (c d : CoreId) (base len : Nat) (rs : List (Nat × Nat)) (s : State) :
    (s.forgetOverlaps c base len rs).core d = s.core d ∧ (s.forgetOverlaps c base len rs).tsGet = s.tsGet := by
  induction rs generalizing s with
  | nil => exact ⟨rfl, rfl⟩
  | cons p rest ih =>
    rw [State.forgetOverlaps]
    obtain ⟨h1, h2⟩ := ih (s := if max base p.1 < min (base + len) (p.1 + p.2) then
      s.forget (scratchBus c (max base p.1)) (min (base + len) (p.1 + p.2) - max base p.1) else s)
    refine ⟨h1.trans ?_, h2.trans ?_⟩
    · split
      · rfl
      · rfl
    · split
      · rfl
      · rfl

/-- The state with ring `n` of core `c` bound as `r`, its control line zero (R338). -/
def State.bindRing (s : State) (c : CoreId) (n : Nat) (r : Ring) : State :=
  (s.setCore c { s.core c with rings := Assoc.set (s.core c).rings n r }).wr (scratchBus c r.base) (List.replicate 64 0)

theorem State.core_bindRing (s : State) (c : CoreId) (n : Nat) (r : Ring) :
    (s.bindRing c n r).core c = { s.core c with rings := Assoc.set (s.core c).rings n r } := by
  rw [State.bindRing, State.wr_frame]
  exact State.core_setCore s c _

theorem State.tsGet_bindRing (s : State) (c : CoreId) (n : Nat) (r : Ring) (t : TsId) : (s.bindRing c n r).tsGet t = s.tsGet t := by
  rw [State.bindRing, State.wr_frame]
  rfl

theorem mem_of_Assoc_get {κ α : Type} [DecidableEq κ] {l : List (κ × α)} {k : κ} {x : α} (h : Assoc.get l k = some x) : (k, x) ∈ l := by
  induction l with
  | nil => cases h
  | cons p l ih =>
    obtain ⟨j, y⟩ := p
    by_cases hk : k = j
    · subst hk
      simp only [Assoc.get, if_true, Option.some.injEq] at h
      rw [h]
      exact List.mem_cons_self
    · simp only [Assoc.get, if_neg hk] at h
      exact List.mem_cons_of_mem _ (ih h)

/-- The control line of a ring that has just been bound is one: a block read does not write it (R7, R140). -/
theorem State.ringControl_bindRing {c : CoreId} (hc : c.kernel = false) {x : Nat} (hr : r.base + 64 ≤ 2 ^ 18) (hx : scratchBus c r.base ≤ x)
    (hx' : x < scratchBus c r.base + 64) (hk : x < kernelBase) (m : Nat) : (s.bindRing c m r).ringControl x = true := by
  rw [scratchBus_compute hc] at hx hx'
  have hidx : (x - scratchBase) / 2 ^ 18 = c.idx := by omega
  have hcore : ({ kernel := false, idx := (x - scratchBase) / 2 ^ 18 } : CoreId) = c := by
    rw [hidx]
    cases c
    simp_all
  have hget : Assoc.get (s.bindRing c m r).cores c = some { s.core c with rings := Assoc.set (s.core c).rings m r } := by
    rw [State.bindRing, State.wr_frame]
    exact Assoc_get_set_self _ _ _
  have hrings : (Assoc.set (s.core c).rings m r).any
      (fun q => decide (q.2.base ≤ (x - scratchBase) % 2 ^ 18 ∧ (x - scratchBase) % 2 ^ 18 < q.2.base + 64)) = true :=
    List.any_eq_true.mpr ⟨(m, r), mem_of_Assoc_get (Assoc_get_set_self _ _ _), decide_eq_true (show r.base ≤ _ ∧ _ < r.base + 64 by omega)⟩
  simp only [State.ringControl, hcore, hget, hrings, Bool.and_true, decide_eq_true_eq]
  omega

theorem scratchSize_le {c : CoreId} (hc : c.kernel = false) : s.scratchSize c ≤ 2 ^ 18 := by
  rw [State.scratchSize, hc, if_neg Bool.false_ne_true]
  omega

/-- A byte that a store writes reads as written, if it lies in a present channel or in a scratchpad and no block read is to write it. -/
theorem State.rdByte_wr_inside (d : List Byte) (s : State) {a i : Nat} (hi : i < d.length) (hp : scratchBase ≤ a + i ∨ s.noChannel (a + i) = false)
    (hb : s.inBrd (a + i) = false) : (s.wr a d).rdByte (a + i) = d[i] := by
  induction d generalizing s a i with
  | nil => exact absurd hi (Nat.not_lt_zero i)
  | cons b r ih =>
    cases i with
    | zero => exact (State.rdByte_wr_outside r _ (a + 1) a (.inl (Nat.lt_succ_self a))).trans (State.rdByte_wrByte_self s a b hp hb)
    | succ i =>
      have hidx : a + (i + 1) = a + 1 + i := by omega
      rw [hidx] at hp hb ⊢
      exact ih (s.wrByte a b) (Nat.lt_of_succ_lt_succ hi) (by rwa [State.noChannel_wrByte]) (by rwa [State.inBrd_wrByte])

/-- The control line of a ring that has just been bound reads zero. -/
theorem State.rdByte_bindRing_line {c : CoreId} (hc : c.kernel = false) (hr : r.base + 64 ≤ 2 ^ 18) (m : Nat) {j : Nat} (hj : j < 64)
    (hb : s.inBrd (scratchBus c r.base + j) = false) :
    (s.bindRing c m r).inBrd (scratchBus c r.base + j) = false ∧ (s.bindRing c m r).rdByte (scratchBus c r.base + j) = 0 := by
  have hbrd : (s.bindRing c m r).inBrd (scratchBus c r.base + j) = false := by
    by_cases hk : scratchBus c r.base + j < kernelBase
    · rw [State.inBrd, State.ringControl_bindRing hc hr (Nat.le_add_right _ _) (Nat.add_lt_add_left hj _) hk, Bool.not_true, Bool.and_false]
    · have hout : ∀ w : State, w.ringControl (scratchBus c r.base + j) = false := fun w => by
        rw [State.ringControl, decide_eq_false (fun h => hk h.2), Bool.false_and]
      have hops : (s.bindRing c m r).ops = s.ops := by rw [State.bindRing, State.wr_frame]; rfl
      rw [State.inBrd, hout, hops]
      rwa [State.inBrd, hout] at hb
  refine ⟨hbrd, ?_⟩
  rw [State.bindRing, State.inBrd_wr] at hbrd
  have hpos : scratchBase ≤ scratchBus c r.base + j := by
    rw [scratchBus_compute hc]
    omega
  have hlen : j < (List.replicate 64 (0 : Byte)).length := by rwa [List.length_replicate]
  rw [State.bindRing, State.rdByte_wr_inside _ _ hlen (.inl hpos) hbrd, List.getElem_replicate]

/-- Outside that line nothing changes. -/
theorem State.rdByte_bindRing_outside {c : CoreId} (m : Nat) {x : Nat} (hx : x < scratchBus c r.base ∨ scratchBus c r.base + 64 ≤ x)
    (hs : s.inBrd x = false) (hu : (s.bindRing c m r).inBrd x = false) : (s.bindRing c m r).rdByte x = s.rdByte x := by
  rw [State.bindRing, State.inBrd_wr] at hu
  rw [State.bindRing, State.rdByte_wr_outside _ _ _ _ (by rwa [List.length_replicate])]
  exact State.rdByte_of_cells (s := s) (u := s.setCore c { s.core c with rings := Assoc.set (s.core c).rings m r }) rfl rfl rfl rfl hs hu

/-- MRING behind its sources. -/
def Exe.mringTail (e : Exe) (base v : Word) (n : BitVec 3) : Except Stop Exe := do
  let count := bits v 7 0
  let fmt := bits v 11 8
  if bits v 63 12 ≠ 0 ∨ count = 0 ∨ 7 < fmt then trap .bound base else
  Exe.aligned base 64
  let size := e.s.scratchSize e.t.core
  let len := 64 + slotSize fmt * count
  if size ≤ base.toNat then trap .bound base
  else if size < base.toNat + len then trap .bound (BitVec.ofNat 64 size)
  else
    let k := e.s.core e.t.core
    if k.pressQ.any (fun c => c.names n.toNat) then stall .pressQ
    else
      let r : Ring := { base := base.toNat, count := count, fmt := fmt, lid := e.a.lid }
      (e.onState (fun s =>
        let rs := s.reserved4 e.t.core n.toNat base.toNat len
        let s := s.setCore e.t.core { k with rings := Assoc.set k.rings n.toNat r }
        let s := s.wr (scratchBus e.t.core base.toNat) (List.replicate 64 0)
        s.forgetOverlaps e.t.core base.toNat len rs)).next

theorem execMring_eq (a b : Reg) (n : BitVec 3) (s : State) : execMring a b n s = issue s (fun e => e.hasPress >>= fun _ =>
    e.srcS a >>= fun p => p.2.srcS b >>= fun q => q.2.mringTail p.1 q.1 n) := rfl

/-- What MRING makes of the machine, once its checks have passed. -/
def Exe.boundRing (e : Exe) (n : Nat) (r : Ring) : Exe :=
  e.onState fun s => (s.bindRing e.t.core n r).forgetOverlaps e.t.core r.base (64 + slotSize r.fmt * r.count)
    (s.reserved4 e.t.core n r.base (64 + slotSize r.fmt * r.count))

/-- The fields of MRING's descriptor (R338). -/
theorem ringFields {v : Word} (h : v.toNat < 2 ^ 12) : bits v 63 12 = 0 ∧ bits v 7 0 = v.toNat % 256 ∧ bits v 11 8 = v.toNat / 256 % 16 :=
  ⟨bits_high_zero h 63, by simp [bits], by simp [bits]⟩

/-- The checks of MRING on its descriptor and its base (R338). -/
theorem Exe.mringTail_fits (hv : v.toNat < 2 ^ 12) (hcount : v.toNat % 256 ≠ 0) (hfmt : v.toNat / 256 % 16 ≤ 7) (hbase : base.toNat % 64 = 0)
    (hsize : base.toNat + 64 + slotSize (v.toNat / 256 % 16) * (v.toNat % 256) ≤ e.s.scratchSize e.t.core)
    (hq : (e.s.core e.t.core).pressQ.all (fun c => !c.names n.toNat) = true) :
    e.mringTail base v n = (e.boundRing n.toNat { base := base.toNat, count := v.toNat % 256, fmt := v.toNat / 256 % 16, lid := e.a.lid }).next := by
  obtain ⟨hhigh, hc, hf⟩ := ringFields hv
  have hnone : (e.s.core e.t.core).pressQ.any (fun c => c.names n.toNat) = false := by
    rw [List.any_eq_false]
    intro c hcmd
    simpa using List.all_eq_true.mp hq c hcmd
  simp only [Exe.mringTail, hhigh, hc, hf, Exe.aligned_ok hbase, bind_ok, hnone, ne_eq, not_true_eq_false, hcount, Nat.not_lt.mpr hfmt, or_self,
    if_false, Bool.false_eq_true]
  rw [if_neg (by omega), if_neg (by omega)]
  simp only [Exe.boundRing, Exe.onState, State.bindRing, State.core, State.tsSet_cores]

theorem Exe.mringTail_base (hv : v.toNat < 2 ^ 12) (hcount : v.toNat % 256 ≠ 0) (hfmt : v.toNat / 256 % 16 ≤ 7) (hbase : base.toNat % 64 = 0)
    (hsize : e.s.scratchSize e.t.core ≤ base.toNat) : e.mringTail base v n = trap .bound base := by
  obtain ⟨hhigh, hc, hf⟩ := ringFields hv
  simp only [Exe.mringTail, hhigh, hc, hf, Exe.aligned_ok hbase, bind_ok, ne_eq, not_true_eq_false, hcount, Nat.not_lt.mpr hfmt, or_self,
    if_false, if_pos hsize]

theorem Exe.mringTail_end (hv : v.toNat < 2 ^ 12) (hcount : v.toNat % 256 ≠ 0) (hfmt : v.toNat / 256 % 16 ≤ 7) (hbase : base.toNat % 64 = 0)
    (hsize : base.toNat < e.s.scratchSize e.t.core)
    (hend : e.s.scratchSize e.t.core < base.toNat + 64 + slotSize (v.toNat / 256 % 16) * (v.toNat % 256)) :
    e.mringTail base v n = trap .bound (BitVec.ofNat 64 (e.s.scratchSize e.t.core)) := by
  obtain ⟨hhigh, hc, hf⟩ := ringFields hv
  simp only [Exe.mringTail, hhigh, hc, hf, Exe.aligned_ok hbase, bind_ok, ne_eq, not_true_eq_false, hcount, Nat.not_lt.mpr hfmt, or_self,
    if_false, if_neg (Nat.not_le.mpr hsize)]
  rw [if_pos (by omega)]

/-- A trap behind two scalar sources that only a check of the device's state decides: no damaged source comes before it (R252). -/
theorem issue_pressSS_trap (ht : Turn s t act) (hk : t.core.kernel = false) (ha : (exeOf s t act).srcS a = .ok (base, e1)) (hb : e1.srcS b = .ok (v, e2))
    {f : Word → Word → Exe → Except Stop Exe} {c : Cause} {x : Word} (hf : ∀ e, (exeOf s t act).Same e → f base v e = trap c x) :
    issue s (fun e => e.hasPress >>= fun _ => e.srcS a >>= fun p => p.2.srcS b >>= fun q => f p.1 q.1 q.2) = .next (trapped s t c x) := by
  have hs : (exeOf s t act).Same e2 := (Exe.srcS_frame ha).1.trans (Exe.srcS_frame hb).1
  refine issue_trap (c' := c.code) (x' := x) ht ?_ fun w => ?_
  · rw [Exe.hasPress_compute (.rfl' _) hk, bind_ok, ha, bind_ok, hb, bind_ok]
    exact hf e2 hs
  · rw [Exe.hasPress_compute (Exe.same_sound (.rfl' _) w) hk, bind_ok, Exe.srcS_sound ha w, bind_ok, Exe.srcS_sound hb w, bind_ok]
    exact hf _ (Exe.same_sound hs w)

theorem State.inBrd_tsSet (s : State) (t : TsId) (x : ThreadSet) (y : Nat) : (s.tsSet t x).inBrd y = s.inBrd y := rfl
theorem State.rdByte_tsSet (s : State) (t : TsId) (x : ThreadSet) (y : Nat) : (s.tsSet t x).rdByte y = s.rdByte y := rfl

theorem mring_binds (ht : Turn s t act) (hk : t.core.kernel = false) (ha : (exeOf s t act).srcS a = .ok (base, e1)) (hb : e1.srcS b = .ok (v, e2))
    (hv : v.toNat < 2 ^ 12) (hcount : v.toNat % 256 ≠ 0) (hfmt : v.toNat / 256 % 16 ≤ 7) (hbase : base.toNat % 64 = 0)
    (hsize : base.toNat + 64 + slotSize (v.toNat / 256 % 16) * (v.toNat % 256) ≤ s.scratchSize t.core)
    (hq : (s.core t.core).pressQ.all (fun c => !c.names n.toNat) = true) :
    let count := v.toNat % 256
    let fmt := v.toNat / 256 % 16
    ∃ u, exec (.mring a b n) s = .next u ∧
      Assoc.get (u.core t.core).rings n.toNat = some { base := base.toNat, count := count, fmt := fmt, lid := act.lid } ∧
      (∀ m, m ≠ n.toNat → Assoc.get (u.core t.core).rings m = Assoc.get (s.core t.core).rings m) ∧
      ((∀ p ∈ s.reserved4 t.core n.toNat base.toNat (64 + slotSize fmt * count), base.toNat + 64 + slotSize fmt * count ≤ p.1 ∨ p.1 + p.2 ≤ base.toNat) →
        let line := scratchBus t.core base.toNat
        (∀ j, j < 64 → s.inBrd (line + j) = false → u.rdByte (line + j) = 0) ∧
        ∀ x, (x < line ∨ line + 64 ≤ x) → s.inBrd x = false → u.inBrd x = false → u.rdByte x = s.rdByte x) ∧
      (u.tsGet t).pc = e2.x.pc + 4 ∧ (u.tsGet t).sreg = e2.x.sreg := by
  intro count fmt
  obtain ⟨h1, h2, h3, h4⟩ := (Exe.srcS_frame ha).1.trans (Exe.srcS_frame hb).1
  have h1 : e2.s = s := h1
  have h2 : e2.t = t := h2
  let r : Ring := { base := base.toNat, count := count, fmt := fmt, lid := act.lid }
  let w := s.tsSet t e2.x
  let z := (w.bindRing t.core n.toNat r).forgetOverlaps t.core r.base (64 + slotSize fmt * count) (w.reserved4 t.core n.toNat r.base (64 + slotSize fmt * count))
  have hrun : e2.boundRing n.toNat { base := base.toNat, count := count, fmt := fmt, lid := e2.a.lid } = { e2 with s := z, x := z.tsGet t } := by
    rw [Exe.boundRing, Exe.onState, h1, h2, h3]
    rfl
  have hzx : z.tsGet t = e2.x := by
    rw [(State.forgetOverlaps_core t.core t.core _ _ _ _).2, State.tsGet_bindRing]
    exact State.tsGet_tsSet s t e2.x
  have hzcore : z.core t.core = { s.core t.core with rings := Assoc.set (s.core t.core).rings n.toNat r } := by
    rw [(State.forgetOverlaps_core t.core t.core _ _ _ _).1, State.core_bindRing]
    rfl
  have hgo : ∃ u, exec (.mring a b n) s = .next u ∧ Went { e2 with s := z } (e2.x.pc + 4) u := by
    show ∃ u, execMring a b n s = .next u ∧ _
    rw [execMring_eq]
    refine issue_went ht ?_ h4
    rw [Exe.hasPress_compute (.rfl' _) hk, bind_ok, ha, bind_ok, hb, bind_ok,
      Exe.mringTail_fits hv hcount hfmt hbase (by rw [h1, h2]; exact hsize) (by rw [h1, h2]; exact hq), hrun, hzx]
    rfl
  obtain ⟨u, hu, hkept, hx, -⟩ := hgo
  have hkept : OthersKept z u t := h2 ▸ hkept
  have hx : u.tsGet t = _ := h2 ▸ hx
  have hucore : u.core t.core = z.core t.core := by rw [hkept.1]; rfl
  refine ⟨u, hu, ?_, fun m hm => ?_, fun hfree => ?_, by rw [hx], by rw [hx]⟩
  · rw [hucore, hzcore]
    exact Assoc_get_set_self _ _ _
  · rw [hucore, hzcore]
    exact Assoc_get_set_ne _ _ _ _ hm
  · have hsame : z = w.bindRing t.core n.toNat r := State.forgetOverlaps_none _ _ _ _ _ fun p hp => by
      have hp' := hfree p hp
      show base.toNat + (64 + slotSize fmt * count) ≤ p.1 ∨ p.1 + p.2 ≤ base.toNat
      rwa [← Nat.add_assoc]
    have hfit : r.base + 64 ≤ 2 ^ 18 := (Nat.le_trans (Nat.le_add_right _ _) hsize).trans (scratchSize_le hk)
    refine ⟨fun j hj hbrd => ?_, fun x hout hbrd hubrd => ?_⟩
    · obtain ⟨hno, hzero⟩ := State.rdByte_bindRing_line (s := w) hk hfit n.toNat hj hbrd
      rw [hkept.bytes _ (by rw [hsame]; exact hno), hsame]
      exact hzero
    · have hzbrd : z.inBrd x = false := by
        rw [hkept.1] at hubrd
        exact hubrd
      rw [hkept.bytes x hzbrd, hsame]
      exact State.rdByte_bindRing_outside (s := w) n.toNat hout hbrd (hsame ▸ hzbrd)

/-! ## MRADV -/

theorem w32_leBytes (x : Word32) : w32 (leBytes 4 x.toNat) = x := by
  apply BitVec.eq_of_toNat_eq
  have hx : x.toNat < 2 ^ 32 := x.isLt
  rw [w32, leNat_leBytes, BitVec.toNat_ofNat]
  omega

/-- MRADV behind its source. -/
def Exe.mradvTail (e : Exe) (v : Word) (n : BitVec 3) : Except Stop Exe := do
  match e.ring n.toNat with
  | none => trap .bound 0
  | some r =>
    let tail := e.s.ringTail e.t.core r
    let used := (tail - e.s.ringHead e.t.core r).toNat
    if bits v 63 16 ≠ 0 ∨ r.count < used + bits v 15 0 then trap .bound (BitVec.ofNat 64 r.base) else
    e.waitScratch
    (e.onState (fun s => s.wr32 (scratchBus e.t.core (r.base + 4)) (tail + v.setWidth 32))).next

theorem execMradv_eq (a : Reg) (n : BitVec 3) (s : State) : execMradv a n s = issue s (fun e => e.hasPress >>= fun _ =>
    e.srcS a >>= fun p => p.2.mradvTail p.1 n) := rfl

theorem bits_advance {v : Word} {m c : Nat} : (bits v 63 16 ≠ 0 ∨ c < m + bits v 15 0) ↔ (2 ^ 16 ≤ v.toNat ∨ c < m + v.toNat) := by
  by_cases h : v.toNat < 2 ^ 16
  · rw [bits_high_zero h, bits_low h]
    omega
  · have hhigh : bits v 63 16 ≠ 0 := by
      rw [bits]
      have := v.isLt
      omega
    simp only [hhigh, ne_eq, not_false_eq_true, true_or, true_iff]
    exact .inl (Nat.not_lt.mp h)

theorem mradv_traps (ht : Turn s t act) (hk : t.core.kernel = false) (ha : (exeOf s t act).srcS a = .ok (v, e1)) (hr : e1.ring n.toNat = some r)
    (hfull : 2 ^ 16 ≤ v.toNat ∨ r.count < (s.ringTail t.core r - s.ringHead t.core r).toNat + v.toNat) :
    exec (.mradv a n) s = .next (trapped s t .bound (BitVec.ofNat 64 r.base)) := by
  have hs : (exeOf s t act).Same e1 := (Exe.srcS_frame ha).1
  have htrap : ∀ e, (exeOf s t act).Same e → e.mradvTail v n = trap .bound (BitVec.ofNat 64 r.base) := by
    intro e he
    have hring : e.ring n.toNat = some r := by
      rw [← hr, Exe.ring, Exe.ring, he.1, he.2.1, he.2.2.1, hs.1, hs.2.1, hs.2.2.1]
    simp only [Exe.mradvTail, hring, he.1, he.2.1]
    exact if_pos (bits_advance.mpr hfull)
  show execMradv a n s = _
  rw [execMradv_eq]
  refine issue_trap (c' := Cause.bound.code) (x' := BitVec.ofNat 64 r.base) ht ?_ fun w => ?_
  · rw [Exe.hasPress_compute (.rfl' _) hk, bind_ok, ha, bind_ok]
    exact htrap e1 hs
  · rw [Exe.hasPress_compute (Exe.same_sound (.rfl' _) w) hk, bind_ok, Exe.srcS_sound ha w, bind_ok]
    exact htrap _ (Exe.same_sound hs w)

theorem mradv_moves (ht : Turn s t act) (hk : t.core.kernel = false) (ha : (exeOf s t act).srcS a = .ok (v, e1)) (hr : e1.ring n.toNat = some r)
    (hv : v.toNat < 2 ^ 16) (hroom : (s.ringTail t.core r - s.ringHead t.core r).toNat + v.toNat ≤ r.count) (hwait : e1.waitScratch = .ok ()) :
    ∃ u, exec (.mradv a n) s = .next u ∧ (u.tsGet t).pc = e1.x.pc + 4 ∧ (u.tsGet t).sreg = e1.x.sreg ∧
      (∀ x, (x < scratchBus t.core (r.base + 4) ∨ scratchBus t.core (r.base + 4) + 4 ≤ x) → s.inBrd x = false → u.rdByte x = s.rdByte x) ∧
      ((∀ j, j < 4 → s.inBrd (scratchBus t.core (r.base + 4) + j) = false) → u.ringTail t.core r = s.ringTail t.core r + v.setWidth 32) := by
  obtain ⟨h1, h2, -, h4⟩ := (Exe.srcS_frame ha).1
  have h1 : e1.s = s := h1
  have h2 : e1.t = t := h2
  let at_ := scratchBus t.core (r.base + 4)
  let w := s.tsSet t e1.x
  let z := w.wr32 at_ (s.ringTail t.core r + v.setWidth 32)
  have hzx : z.tsGet t = e1.x := by
    show (w.wr _ _).tsGet t = _
    rw [State.wr_frame]
    exact State.tsGet_tsSet s t e1.x
  have hgo : ∃ u, exec (.mradv a n) s = .next u ∧ Went { e1 with s := z } (e1.x.pc + 4) u := by
    show ∃ u, execMradv a n s = .next u ∧ _
    rw [execMradv_eq]
    refine issue_went ht ?_ h4
    rw [Exe.hasPress_compute (.rfl' _) hk, bind_ok, ha, bind_ok]
    simp only [Exe.mradvTail, hr, h1, h2, hwait, bind_ok]
    rw [if_neg (by rw [bits_advance]; omega), Exe.onState, h1, h2]
    show Exe.next { s := z, t := t, x := z.tsGet t, a := e1.a, after := e1.after } = _
    rw [hzx]
    rfl
  obtain ⟨u, hu, hkept, hx, -⟩ := hgo
  have hkept : OthersKept z u t := h2 ▸ hkept
  have hx : u.tsGet t = _ := h2 ▸ hx
  have hzbrd : ∀ x, z.inBrd x = s.inBrd x := fun x => State.inBrd_wr _ w _ x
  refine ⟨u, hu, by rw [hx], by rw [hx], fun x hout hbrd => ?_, fun hbrd => ?_⟩
  · rw [hkept.bytes x ((hzbrd x).trans hbrd)]
    exact State.rdByte_wr_outside _ w at_ x (by rw [length_leBytes]; exact hout)
  · have hlast : Lasting w at_ (leBytes 4 (s.ringTail t.core r + v.setWidth 32).toNat).length := by
      rw [length_leBytes]
      intro i hi
      rw [if_pos (by rw [show at_ = _ from scratchBus_compute hk _]; omega)]
      exact hbrd i hi
    have hz : z.rd at_ 4 = leBytes 4 (s.ringTail t.core r + v.setWidth 32).toNat := by
      have := hlast.rd_wr
      rwa [length_leBytes] at this
    have hu4 : u.rd at_ 4 = z.rd at_ 4 := State.rd_congr fun i hi => hkept.bytes _ ((hzbrd _).trans (hbrd i hi))
    show w32 (u.rd at_ 4) = _
    rw [hu4, hz, w32_leBytes]

end

theorem ringResult : RingResult := by
  intro s t act ht hk
  refine ⟨?_, ?_⟩
  · intro a b n base v e1 e2 ha hb count fmt hv hcount hfmt hbase
    refine ⟨fun hsize => ?_, fun hsize hend => ?_, fun hsize hq => mring_binds ht hk ha hb hv hcount hfmt hbase hsize hq⟩
    · show execMring a b n s = _
      rw [execMring_eq]
      refine issue_pressSS_trap ht hk ha hb (f := fun base v e => e.mringTail base v n) fun e he => Exe.mringTail_base hv hcount hfmt hbase ?_
      rw [he.1, he.2.1]
      exact hsize
    · show execMring a b n s = _
      rw [execMring_eq]
      refine issue_pressSS_trap ht hk ha hb (f := fun base v e => e.mringTail base v n) fun e he => ?_
      have hsz : e.s.scratchSize e.t.core = s.scratchSize t.core := by rw [he.1, he.2.1]; rfl
      rw [← hsz] at hsize hend ⊢
      exact Exe.mringTail_end hv hcount hfmt hbase hsize hend
  · intro a n v e1 r ha hr used
    exact ⟨fun hv hroom hwait => mradv_moves ht hk ha hr hv hroom hwait, fun hfull => mradv_traps ht hk ha hr hfull⟩

/-- Settles O20: the press instructions and the ring instructions, each by what it leaves of the core and of the bytes. -/
theorem pressIssueAndRings : Obligations.PressIssueAndRings := ⟨pressIssue, ringResult⟩

end Sys2Proof.Machine
end

section
/-!
The release of a send buffer (R105, R115, R119, R162, R273), DONE (R299) and LNCH (R114, R331): O16.
-/

namespace Sys2Proof.Machine

open Sys2Proof Sys2Proof.Claims

/-! ## Lists of a send buffer, entry by entry -/

theorem spawnsOf_cons (b : Buffered) (bs : List Buffered) : spawnsOf (b :: bs) = spawnsOf [b] ++ spawnsOf bs := by cases b <;> rfl

theorem barasOf_cons (b : Buffered) (bs : List Buffered) : barasOf (b :: bs) = barasOf [b] ++ barasOf bs := by cases b <;> rfl

/-- The next MSEQ behind a buffered entry (R105). -/
def Buffered.nextSeq (b : Buffered) (n : Word32) : Word32 :=
  match b with
  | .send _ _ _ _ _ _ _ => n + 1
  | .spawn _ | .bara _ _ _ _ | .lend => n

theorem sendsOf_cons (t : TsId) (a : Activation) (b : Buffered) (bs : List Buffered) (n : Word32) :
    sendsOf t a (b :: bs) n = sendsOf t a [b] n ++ sendsOf t a bs (b.nextSeq n) := by cases b <;> rfl

/-! ## Launches that a release or an activation's end changes -/

section

variable {s u w : State}

theorem State.launch_setLaunch {l x : Launch} (h : s.launch l.lid = some x) : (s.setLaunch l).launch l.lid = some l := by
  rw [State.launch_of_map (g := fun y => if y.lid = l.lid then l else y) (fun y => ?_) rfl, h, Option.map_some, if_pos (State.lid_of_launch h)]
  split
  · rename_i hy
    exact hy.symm
  · rfl

theorem State.launch_setLaunch_ne {l : Launch} {lid : Half} (h : lid ≠ l.lid) : (s.setLaunch l).launch lid = s.launch lid := by
  rw [State.launch_of_map (g := fun y => if y.lid = l.lid then l else y) (fun y => ?_) rfl]
  · cases hx : s.launch lid with
    | none => rfl
    | some x => rw [Option.map_some, if_neg (by rw [State.lid_of_launch hx]; exact h)]
  · split
    · rename_i hy
      exact hy.symm
    · rfl

/-- Only what a launch counts of its work, and what it has pending, may differ. -/
def Launch.Kin (l x : Launch) : Prop :=
  x = { l with counts := x.counts, deques := x.deques, epochs := x.epochs, lend := x.lend, token := x.token, acts := x.acts,
               steals := x.steals, stealOut := x.stealOut }

theorem Launch.Kin.refl (l : Launch) : l.Kin l := rfl

theorem Launch.Kin.trans {l x y : Launch} (h : l.Kin x) (k : x.Kin y) : l.Kin y := by
  rw [Launch.Kin] at *
  rw [k, h]

theorem Launch.Kin.facts {l x : Launch} (h : l.Kin x) :
    x.lid = l.lid ∧ x.pile = l.pile ∧ x.bundles = l.bundles ∧ x.ordinal = l.ordinal := by
  rw [h]
  exact ⟨rfl, rfl, rfl, rfl⟩

/-! ## Steal requests (R116) -/

/-- Only steal requests and the launches' notes of them differ. -/
def Asks (s u : State) : Prop :=
  u = { s with launches := u.launches, snet := u.snet, nextId := u.nextId } ∧
  ∀ lid l, s.launch lid = some l → ∃ p q, u.launch lid = some { l with steals := p, stealOut := q }

theorem Asks.refl (s : State) : Asks s s := ⟨rfl, fun _ l h => ⟨l.steals, l.stealOut, h⟩⟩

theorem Asks.trans (h : Asks s u) (k : Asks u w) : Asks s w := by
  obtain ⟨h1, h2⟩ := h
  obtain ⟨k1, k2⟩ := k
  refine ⟨k1.trans ?_, fun lid l hl => ?_⟩
  · rw [h1]
  · obtain ⟨p, q, hu⟩ := h2 lid l hl
    obtain ⟨p', q', hw⟩ := k2 lid _ hu
    exact ⟨p', q', hw⟩

theorem Asks.foldl {α : Type} {f : State → α → State} (hf : ∀ v x, Asks v (f v x)) (l : List α) (s : State) : Asks s (l.foldl f s) := by
  induction l generalizing s with
  | nil => exact .refl s
  | cons x r ih => exact (hf s x).trans (ih (f s x))

theorem Asks.set {l : Launch} (hl : s.launch l.lid = some l) (p : List (Nat × Nat)) (q : List Nat) (n : List (Nat × StealNet)) (i : Nat) :
    Asks s { (s.setLaunch { l with steals := p, stealOut := q }) with snet := n, nextId := i } := by
  refine ⟨rfl, fun lid x hx => ?_⟩
  show ∃ p' q', (s.setLaunch { l with steals := p, stealOut := q }).launch lid = _
  by_cases h : lid = l.lid
  · subst h
    obtain rfl := Option.some.inj (hl.symm.trans hx)
    exact ⟨p, q, State.launch_setLaunch (l := { l with steals := p, stealOut := q }) hl⟩
  · exact ⟨x.steals, x.stealOut, (State.launch_setLaunch_ne (l := { l with steals := p, stealOut := q }) h).trans hx⟩

theorem State.sendSteal_asks (s : State) (lid : Half) (o : Nat) : Asks s (s.sendSteal lid o) := by
  unfold State.sendSteal
  cases hl : s.launch lid with
  | none => exact .refl s
  | some l =>
    obtain rfl := State.lid_of_launch hl
    dsimp only
    split
    · exact .refl s
    · split
      · exact .refl s
      · exact .set hl _ _ _ _

theorem State.sendSteals_asks (s : State) (lid : Half) : Asks s (s.sendSteals lid) := by
  unfold State.sendSteals
  split
  · exact .refl s
  · split
    · exact .refl s
    · exact .foldl (fun v o => v.sendSteal_asks lid o) _ s

theorem State.askAll_asks (s : State) (c : CoreId) : Asks s (s.askAll c) :=
  Asks.foldl (f := fun s (l : Launch) => s.sendSteals l.lid) (fun v l => v.sendSteals_asks l.lid) _ s

end

/-! ## One buffered entry -/

/-- The record that an entry of the Pile network brings to its home engine. -/
def spawnSent (e : Nat × PileNet) : Option (Half × Nat × PileRec) :=
  match e.2 with
  | .spawn lid home r _ _ _ => some (lid, home, r)
  | _ => none

/-- The record and the home engine of a task of a PILE launch (R124, R126). -/
def Launch.spawnAt (l : Launch) (t : TsId) (d : List Byte) : Half × Nat × PileRec :=
  (l.lid, (l.bundles[(pileRecOf d (taskW1 t l.lid)).index.toNat % max 1 l.bundles.length]?).getD 0, pileRecOf d (taskW1 t l.lid))

/-- What an operation says as an arrival at a barrier. -/
def arrivalOf (o : Op) : OpKind × Nat × Nat × Word × Vec := (o.kind, o.n, o.width, o.hdr, o.vec)

/-- What a buffered BARA says as an arrival. -/
def baraArrival (x : Nat × Nat × Word × Vec) : OpKind × Nat × Nat × Word × Vec := (.bara, x.1, x.2.1, x.2.2.1, x.2.2.2)

section

variable {s : State} {t : TsId} {a : Activation} {deps : List Nat} {grp : Nat} {l : Launch}

/-- The ordinal's deque has room for the records, or the launch has engines for them: none goes to the core's own basket (R115). -/
def Launch.takes (l : Launch) (c : CoreId) (n : Nat) : Prop := l.pile = true ∨ (l.deque ((l.ordinal c).getD 0)).2.length + n ≤ 256

/-- Where a launch stands behind a release: it is the same launch, LEND has acted if it was there, and its deque holds the records too. -/
def Launch.Behind (l x : Launch) (c : CoreId) (bs : List Buffered) : Prop :=
  l.Kin x ∧ (l.lend = true ∨ .lend ∈ bs → x.lend = true) ∧
  (l.pile = false → (l.deque ((l.ordinal c).getD 0)).2.length + (spawnsOf bs).length ≤ 256 →
    (x.deque ((l.ordinal c).getD 0)).2.map DqRec.bytes = (l.deque ((l.ordinal c).getD 0)).2.map DqRec.bytes ++ spawnsOf bs)

theorem Launch.Behind.deque_length {x : Launch} {c : CoreId} {bs : List Buffered} (h : l.Behind x c bs) (hp : l.pile = false)
    (hroom : (l.deque ((l.ordinal c).getD 0)).2.length + (spawnsOf bs).length ≤ 256) :
    (x.deque ((l.ordinal c).getD 0)).2.length = (l.deque ((l.ordinal c).getD 0)).2.length + (spawnsOf bs).length := by
  simpa using congrArg List.length (h.2.2 hp hroom)

theorem State.launch_countAt (hl : s.launch l.lid = some l) (lid : Option Half) (c : CoreId) (d : Int) :
    ∃ q, (s.countAt lid c d).launch l.lid = some { l with counts := q } := by
  cases lid with
  | none => exact ⟨l.counts, hl⟩
  | some i =>
    rw [State.launch_of_map (g := fun x => if x.lid = i then (match x.ordinal c with
      | none => x
      | some o => { x with counts := Assoc.set x.counts o (Assoc.getD x.counts o 0 + d) }) else x) (fun x => ?_) rfl, hl, Option.map_some]
    · split
      · split
        · exact ⟨l.counts, rfl⟩
        · exact ⟨_, rfl⟩
      · exact ⟨l.counts, rfl⟩
    · split
      · split <;> rfl
      · rfl

theorem State.launch_lid (hl : s.launch l.lid = some l) (ha : a.lid = some l.lid) : a.lid.bind s.launch = some l := by rw [ha, Option.bind_some, hl]

theorem Launch.deque_setDeque (l : Launch) (o : Nat) (d : Nat × List DqRec) : (l.setDeque o d).deque o = d := Assoc_getD_set_self _ _ _ _

theorem State.launch_spawnSelf (hl : s.launch l.lid = some l) (d : List Byte) :
    ∃ q, (s.spawnSelf t a deps d).launch l.lid = some { l with counts := q } := State.launch_countAt hl a.lid t.core 1

theorem State.launch_dequePush (hl : s.launch l.lid = some l) (c : CoreId) (o : Nat) (r : DqRec) :
    (s.dequePush l c o r).launch l.lid = some (l.setDeque o ((l.deque o).1, (l.deque o).2 ++ [r])) := by
  refine State.launch_onLaunch (l := l) (f := fun l' => l'.setDeque o ((l.deque o).1, (l.deque o).2 ++ [r])) (fun _ => rfl) ?_
  rw [State.wr_frame]
  exact hl

/-- A change of a launch's own counts is no change of what it is. -/
theorem Launch.behind_counts (q : List (Nat × Int)) {c : CoreId} {b : Buffered} (hb : b ≠ .lend) (hs : l.pile = true ∨ spawnsOf [b] = []
    ∨ 256 ≤ (l.deque ((l.ordinal c).getD 0)).2.length ∧ (spawnsOf [b]).length = 1) : l.Behind { l with counts := q } c [b] := by
  refine ⟨rfl, fun h => h.resolve_right (by simpa using Ne.symm hb), fun hp hroom => ?_⟩
  rcases hs with h | h | ⟨h, h1⟩
  · rw [hp] at h
    cases h
  · rw [h, List.append_nil]
    rfl
  · omega

/-- What one entry does to the launch. -/
theorem releaseOne_launch (hl : s.launch l.lid = some l) (ha : a.lid = some l.lid) (b : Buffered) :
    ∃ x, (State.releaseOne t a deps grp s b).launch l.lid = some x ∧ l.Behind x t.core [b] := by
  have hbind := State.launch_lid hl ha
  cases b with
  | send dst outside w0 kind scope pay dev =>
    cases outside with
    | true => exact ⟨l, hl, Launch.behind_counts l.counts nofun (.inr (.inl rfl))⟩
    | false =>
      obtain ⟨q, hq⟩ := State.launch_countAt (s := s.tsSet t { s.tsGet t with mseq := (s.tsGet t).mseq + 1 }) hl a.lid t.core 1
      exact ⟨_, hq, Launch.behind_counts q nofun (.inr (.inl rfl))⟩
  | spawn d =>
    simp only [State.releaseOne, hbind]
    split
    · rename_i hp
      obtain ⟨q, hq⟩ := State.launch_countAt hl a.lid t.core 1
      exact ⟨_, hq, Launch.behind_counts q nofun (.inl hp)⟩
    · split
      · rename_i hfull
        obtain ⟨q, hq⟩ := State.launch_spawnSelf (deps := deps) hl d
        exact ⟨_, hq, Launch.behind_counts q nofun (.inr (.inr ⟨hfull, rfl⟩))⟩
      · refine ⟨_, State.launch_dequePush hl t.core _ _, rfl, by simp [Launch.setDeque], fun _ _ => ?_⟩
        rw [Launch.deque_setDeque, List.map_append]
        rfl
  | bara g red hdr vec =>
    simp only [State.releaseOne, hbind]
    rw [ha]
    obtain ⟨q, hq⟩ := State.launch_countAt (s := s.tsSet t { s.tsGet t with oseq := (s.tsGet t).oseq + 1 }) hl (some l.lid) t.core 1
    exact ⟨_, State.launch_onLaunch (fun _ => rfl) hq, rfl, by simp, fun _ _ => (List.append_nil _).symm⟩
  | lend =>
    simp only [State.releaseOne, ha]
    exact ⟨_, State.launch_onLaunch (f := fun l => { l with lend := true, token := l.token.again }) (fun _ => rfl) hl, rfl, fun _ => rfl,
      fun _ _ => (List.append_nil _).symm⟩

theorem State.dequePush_frame (s : State) (l : Launch) (c : CoreId) (o : Nat) (r : DqRec) :
    (s.dequePush l c o r).net = s.net ∧ (s.dequePush l c o r).pnet = s.pnet ∧ (s.dequePush l c o r).ops = s.ops ∧ (s.dequePush l c o r).ts = s.ts := by
  dsimp only [State.dequePush]
  rw [State.wr_frame]
  exact ⟨rfl, rfl, rfl, rfl⟩

theorem State.spawnSelf_frame (d : List Byte) : (s.spawnSelf t a deps d).pnet = s.pnet ∧ (s.spawnSelf t a deps d).ops = s.ops ∧
    (s.spawnSelf t a deps d).ts = s.ts := by
  unfold State.spawnSelf
  rw [State.countAt_onLaunch]
  exact ⟨rfl, rfl, rfl⟩

/-- What one entry sends, while no task record must take the core's own basket. -/
theorem releaseOne_net (b : Buffered) (h : spawnsOf [b] = [] ∨ ∃ l, a.lid = some l.lid ∧ s.launch l.lid = some l ∧ l.takes t.core (spawnsOf [b]).length) :
    (∃ fs, (State.releaseOne t a deps grp s b).net = s.net ++ fs ∧ fs.map (fun f => (f.dst, f.dev, f.msg)) = sendsOf t a [b] (s.tsGet t).mseq) ∧
    ((State.releaseOne t a deps grp s b).tsGet t).mseq = b.nextSeq (s.tsGet t).mseq := by
  cases b with
  | send dst outside w0 kind scope pay dev =>
    cases outside with
    | true => exact ⟨⟨[_], rfl, rfl⟩, by simp [State.releaseOne, State.post, State.tsGet, State.tsSet, Buffered.nextSeq]⟩
    | false =>
      simp only [State.releaseOne, Bool.false_eq_true, if_false]
      rw [State.countAt_onLaunch]
      exact ⟨⟨[_], rfl, rfl⟩, by simp [State.post, State.tsGet, State.tsSet, Buffered.nextSeq]⟩
  | spawn d =>
    obtain ⟨l, ha, hl, htakes⟩ := h.resolve_left nofun
    simp only [State.releaseOne, State.launch_lid hl ha]
    split
    · rw [State.countAt_onLaunch]
      exact ⟨⟨[], (List.append_nil _).symm, rfl⟩, rfl⟩
    · rename_i hp
      have hroom : (l.deque ((l.ordinal t.core).getD 0)).2.length + 1 ≤ 256 := htakes.resolve_left hp
      rw [if_neg (by omega)]
      obtain ⟨hnet, -, -, hts⟩ := s.dequePush_frame l t.core ((l.ordinal t.core).getD 0) { bytes := d, s2 := taskW1 t l.lid, deps := deps }
      exact ⟨⟨[], by rw [hnet, List.append_nil], rfl⟩, by rw [State.tsGet, hts]; rfl⟩
  | bara g red hdr vec =>
    simp only [State.releaseOne]
    split
    · exact ⟨⟨[], (List.append_nil _).symm, rfl⟩, rfl⟩
    · rename_i l hl
      cases hlid : a.lid with
      | none => rw [hlid] at hl; cases hl
      | some lid =>
        rw [State.countAt_onLaunch]
        exact ⟨⟨[], (List.append_nil _).symm, rfl⟩, by simp [State.onLaunch, State.tsGet, State.tsSet, Buffered.nextSeq]⟩
  | lend =>
    cases hlid : a.lid with
    | none => simp only [State.releaseOne, hlid]; exact ⟨⟨[], (List.append_nil _).symm, rfl⟩, rfl⟩
    | some lid => simp only [State.releaseOne, hlid]; exact ⟨⟨[], (List.append_nil _).symm, rfl⟩, rfl⟩

/-- A state whose thread sets are those of `s`, but maybe for `t`. -/
def OnlyTs (s u : State) (t : TsId) : Prop := ∀ t', t' ≠ t → u.tsGet t' = s.tsGet t'

theorem OnlyTs.of_ts {u : State} (h : u.ts = s.ts) : OnlyTs s u t := fun t' _ => by rw [State.tsGet, h]; rfl

theorem OnlyTs.tsSet (s : State) (t : TsId) (x : ThreadSet) : OnlyTs s (s.tsSet t x) t := fun _ h => State.tsGet_tsSet_ne _ _ _ _ h

theorem OnlyTs.trans {u w : State} (h : OnlyTs s u t) (k : OnlyTs u w t) : OnlyTs s w t := fun t' ht => (k t' ht).trans (h t' ht)

/-- One entry changes no other thread set. -/
theorem releaseOne_others (b : Buffered) : OnlyTs s (State.releaseOne t a deps grp s b) t := by
  cases b with
  | send dst outside w0 kind scope pay dev =>
    refine (OnlyTs.tsSet s t { s.tsGet t with mseq := (s.tsGet t).mseq + 1 }).trans (.of_ts ?_)
    cases outside with
    | true => rfl
    | false => exact State.onLaunch_ts _ _ _
  | spawn d =>
    simp only [State.releaseOne]
    split
    · exact .of_ts (s.spawnSelf_frame d).2.2
    · split
      · exact .of_ts (State.onLaunch_ts _ _ _)
      · split
        · exact .of_ts (s.spawnSelf_frame d).2.2
        · exact .of_ts (s.dequePush_frame _ _ _ _).2.2.2
  | bara g red hdr vec =>
    simp only [State.releaseOne]
    split
    · exact .of_ts rfl
    · refine (OnlyTs.tsSet s t { s.tsGet t with oseq := (s.tsGet t).oseq + 1 }).trans (.of_ts ?_)
      exact (State.onLaunch_ts _ _ _).trans (State.onLaunch_ts _ _ _)
  | lend => exact .of_ts (State.onLaunch_ts _ _ _)

/-- What goes to the Pile's engines and what arrives at barriers, of one entry, in a launch. -/
theorem releaseOne_works (hl : s.launch l.lid = some l) (ha : a.lid = some l.lid) (b : Buffered) :
    (l.pile = true → ∃ es, (State.releaseOne t a deps grp s b).pnet = s.pnet ++ es ∧ es.filterMap spawnSent = (spawnsOf [b]).map (l.spawnAt t)) ∧
    ∃ os, (State.releaseOne t a deps grp s b).ops = s.ops ++ os ∧ os.map arrivalOf = (barasOf [b]).map baraArrival := by
  cases b with
  | send dst outside w0 kind scope pay dev =>
    simp only [State.releaseOne]
    cases outside with
    | true => exact ⟨fun _ => ⟨[], (List.append_nil _).symm, rfl⟩, [], (List.append_nil _).symm, rfl⟩
    | false =>
      rw [State.countAt_onLaunch]
      exact ⟨fun _ => ⟨[], (List.append_nil _).symm, rfl⟩, [], (List.append_nil _).symm, rfl⟩
  | spawn d =>
    simp only [State.releaseOne, State.launch_lid hl ha]
    split
    · rw [State.countAt_onLaunch]
      exact ⟨fun _ => ⟨[_], rfl, rfl⟩, [], (List.append_nil _).symm, rfl⟩
    · rename_i hp
      refine ⟨fun h => absurd h hp, [], ?_, rfl⟩
      rw [List.append_nil]
      split
      · exact (s.spawnSelf_frame d).2.1
      · exact (s.dequePush_frame _ _ _ _).2.2.1
  | bara g red hdr vec =>
    simp only [State.releaseOne, State.launch_lid hl ha]
    rw [ha, State.countAt_onLaunch]
    exact ⟨fun _ => ⟨[], (List.append_nil _).symm, rfl⟩, [_], rfl, rfl⟩
  | lend =>
    simp only [State.releaseOne, ha]
    exact ⟨fun _ => ⟨[], (List.append_nil _).symm, rfl⟩, [], (List.append_nil _).symm, rfl⟩

end

/-! ## The whole buffer -/

section

variable {s : State} {t : TsId} {a : Activation} {deps : List Nat} {grp : Nat} {l : Launch}

theorem Launch.Behind.trans {x y : Launch} {c : CoreId} {b : Buffered} {bs : List Buffered} (h : l.Behind x c [b]) (k : x.Behind y c bs) :
    l.Behind y c (b :: bs) := by
  obtain ⟨hkin, hlend, hdeque⟩ := id h
  obtain ⟨kkin, klend, kdeque⟩ := k
  obtain ⟨-, hpile, -, hord⟩ := hkin.facts
  refine ⟨hkin.trans kkin, fun hor => klend ?_, fun hp hroom => ?_⟩
  · rcases hor with hl | hb
    · exact .inl (hlend (.inl hl))
    · rcases List.mem_cons.mp hb with rfl | hb
      · exact .inl (hlend (.inr List.mem_cons_self))
      · exact .inr hb
  · rw [spawnsOf_cons, List.length_append] at hroom
    have hlen := h.deque_length hp (by omega)
    rw [hord, hpile] at kdeque
    rw [kdeque hp (by omega), hdeque hp (by omega), spawnsOf_cons b bs, List.append_assoc]

/-- What the release of a list of entries does to the launch. -/
theorem release_launch (bs : List Buffered) {s : State} {l : Launch} (hl : s.launch l.lid = some l) (ha : a.lid = some l.lid) :
    ∃ x, (bs.foldl (State.releaseOne t a deps grp) s).launch l.lid = some x ∧ l.Behind x t.core bs := by
  induction bs generalizing s l with
  | nil => exact ⟨l, hl, .refl l, by simp, by simp [spawnsOf]⟩
  | cons b bs ih =>
    obtain ⟨x, hx, hb⟩ := releaseOne_launch (t := t) (deps := deps) (grp := grp) hl ha b
    obtain ⟨hlid, -⟩ := hb.1.facts
    obtain ⟨y, hy, hbs⟩ := ih (l := x) (by rw [hlid]; exact hx) (by rw [hlid]; exact ha)
    exact ⟨y, by rw [← hlid]; exact hy, hb.trans hbs⟩

theorem release_others (bs : List Buffered) (s : State) : OnlyTs s (bs.foldl (State.releaseOne t a deps grp) s) t := by
  induction bs generalizing s with
  | nil => exact fun _ _ => rfl
  | cons b bs ih => exact (releaseOne_others b).trans (ih _)

theorem release_works (bs : List Buffered) {s : State} {l : Launch} (hl : s.launch l.lid = some l) (ha : a.lid = some l.lid) :
    let u := bs.foldl (State.releaseOne t a deps grp) s
    (l.pile = true → ∃ es, u.pnet = s.pnet ++ es ∧ es.filterMap spawnSent = (spawnsOf bs).map (l.spawnAt t)) ∧
    ∃ os, u.ops = s.ops ++ os ∧ os.map arrivalOf = (barasOf bs).map baraArrival := by
  induction bs generalizing s l with
  | nil => exact ⟨fun _ => ⟨[], (List.append_nil _).symm, rfl⟩, [], (List.append_nil _).symm, rfl⟩
  | cons b bs ih =>
    obtain ⟨x, hx, hb⟩ := releaseOne_launch (t := t) (deps := deps) (grp := grp) hl ha b
    obtain ⟨hlid, hpile, hbun, -⟩ := hb.1.facts
    have hat : x.spawnAt t = l.spawnAt t := by
      funext d
      rw [Launch.spawnAt, Launch.spawnAt, hlid, hbun]
    obtain ⟨hpnet, os, hops, hos⟩ := releaseOne_works (t := t) (deps := deps) (grp := grp) hl ha b
    obtain ⟨kpnet, os', kops, kos⟩ := ih (l := x) (by rw [hlid]; exact hx) (by rw [hlid]; exact ha)
    refine ⟨fun hp => ?_, os ++ os', ?_, ?_⟩
    · obtain ⟨es, hes, hmap⟩ := hpnet hp
      obtain ⟨es', hes', hmap'⟩ := kpnet (hpile.trans hp)
      refine ⟨es ++ es', ?_, ?_⟩
      · rw [List.foldl_cons, hes', hes, List.append_assoc]
      · rw [List.filterMap_append, hmap, hmap', hat, spawnsOf_cons b bs, List.map_append]
    · rw [List.foldl_cons, kops, hops, List.append_assoc]
    · rw [List.map_append, hos, kos, barasOf_cons b bs, List.map_append]

/-- No record of the list must take the core's own basket. -/
def Room (s : State) (t : TsId) (a : Activation) (bs : List Buffered) : Prop :=
  spawnsOf bs = [] ∨ ∃ l, a.lid = some l.lid ∧ s.launch l.lid = some l ∧ l.takes t.core (spawnsOf bs).length

theorem Room.head {b : Buffered} {bs : List Buffered} (h : Room s t a (b :: bs)) : Room s t a [b] := by
  rw [Room, spawnsOf_cons] at h
  rcases h with h | ⟨l, ha, hl, htakes⟩
  · exact .inl (List.append_eq_nil_iff.mp h).1
  · refine .inr ⟨l, ha, hl, htakes.imp_right fun hroom => ?_⟩
    rw [List.length_append] at hroom
    omega

theorem Room.tail {b : Buffered} {bs : List Buffered} (h : Room s t a (b :: bs)) : Room (State.releaseOne t a deps grp s b) t a bs := by
  rw [Room, spawnsOf_cons] at h
  rcases h with h | ⟨l, ha, hl, htakes⟩
  · exact .inl (List.append_eq_nil_iff.mp h).2
  · obtain ⟨x, hx, hb⟩ := releaseOne_launch (t := t) (deps := deps) (grp := grp) hl ha b
    obtain ⟨hlid, hpile, -, hord⟩ := hb.1.facts
    refine .inr ⟨x, by rw [hlid]; exact ha, by rw [hlid]; exact hx, ?_⟩
    by_cases hp : l.pile = true
    · exact .inl (hpile.trans hp)
    · have hroom := htakes.resolve_left hp
      rw [List.length_append] at hroom
      refine .inr ?_
      rw [hord, hb.deque_length (Bool.eq_false_of_not_eq_true hp) (by omega)]
      omega

theorem release_net (bs : List Buffered) {s : State} (h : Room s t a bs) :
    ∃ fs, (bs.foldl (State.releaseOne t a deps grp) s).net = s.net ++ fs ∧
      fs.map (fun f => (f.dst, f.dev, f.msg)) = sendsOf t a bs (s.tsGet t).mseq := by
  induction bs generalizing s with
  | nil => exact ⟨[], (List.append_nil _).symm, rfl⟩
  | cons b bs ih =>
    obtain ⟨⟨fs, hfs, hmap⟩, hseq⟩ := releaseOne_net (deps := deps) (grp := grp) b h.head
    obtain ⟨fs', hfs', hmap'⟩ := ih (h.tail (deps := deps) (grp := grp))
    refine ⟨fs ++ fs', ?_, ?_⟩
    · rw [List.foldl_cons, hfs', hfs, List.append_assoc]
    · rw [List.map_append, hmap, hmap', hseq, sendsOf_cons t a b bs]

end

/-! ## The end of an activation -/

section

variable {s u v w : State} {t : TsId} {a : Activation} {l : Launch}

/-- The state in which the first buffered entry is released: the buffer is empty. -/
def State.bufferTaken (s : State) (t : TsId) : State := { (s.tsSet t { s.tsGet t with sbuf := [] }) with nextId := s.nextId + 1 }

theorem State.bufferTaken_others (s : State) (t : TsId) : OnlyTs s (s.bufferTaken t) t := OnlyTs.tsSet s t { s.tsGet t with sbuf := [] }

theorem State.bufferTaken_mseq (s : State) (t : TsId) : ((s.bufferTaken t).tsGet t).mseq = (s.tsGet t).mseq := by
  have h : (s.bufferTaken t).tsGet t = { s.tsGet t with sbuf := [] } := State.tsGet_tsSet s t _
  rw [h]

/-- The state behind the last one. -/
def State.bufferReleased (s : State) (t : TsId) (a : Activation) : State :=
  (s.tsGet t).sbuf.foldl (State.releaseOne t a (s.cumulative t) s.nextId) (s.bufferTaken t)

theorem State.releaseAll_eq (s : State) (t : TsId) (a : Activation) : s.releaseAll t a = (s.bufferReleased t a).tsSet t
    { (s.bufferReleased t a).tsGet t with rel := ((s.bufferReleased t a).tsGet t).rel.filter (fun d => (s.bufferReleased t a).pending d) ++ s.cumulative t } := rfl

theorem releaseAll_net (h : Room s t a (s.tsGet t).sbuf) : ∃ fs, (s.releaseAll t a).net = s.net ++ fs ∧
    fs.map (fun f => (f.dst, f.dev, f.msg)) = sendsOf t a (s.tsGet t).sbuf (s.tsGet t).mseq := by
  obtain ⟨fs, hfs, hmap⟩ := release_net (deps := s.cumulative t) (grp := s.nextId) (s.tsGet t).sbuf (s := s.bufferTaken t) h
  exact ⟨fs, hfs, by rw [hmap, State.bufferTaken_mseq]⟩

theorem releaseAll_launch (hl : s.launch l.lid = some l) (ha : a.lid = some l.lid) :
    ∃ x, (s.releaseAll t a).launch l.lid = some x ∧ l.Behind x t.core (s.tsGet t).sbuf :=
  release_launch (deps := s.cumulative t) (grp := s.nextId) (s.tsGet t).sbuf (s := s.bufferTaken t) hl ha

theorem releaseAll_works (hl : s.launch l.lid = some l) (ha : a.lid = some l.lid) :
    (l.pile = true → ∃ es, (s.releaseAll t a).pnet = s.pnet ++ es ∧ es.filterMap spawnSent = (spawnsOf (s.tsGet t).sbuf).map (l.spawnAt t)) ∧
    ∃ os, (s.releaseAll t a).ops = s.ops ++ os ∧ os.map arrivalOf = (barasOf (s.tsGet t).sbuf).map baraArrival :=
  release_works (deps := s.cumulative t) (grp := s.nextId) (s.tsGet t).sbuf (s := s.bufferTaken t) hl ha

theorem releaseAll_others (s : State) (t : TsId) (a : Activation) : OnlyTs s (s.releaseAll t a) t := by
  rw [State.releaseAll_eq]
  exact ((s.bufferTaken_others t).trans (release_others _ _)).trans (OnlyTs.tsSet _ t _)

/-- A value still to come for the thread set is discarded (R92). -/
def Op.unread (t : TsId) (o : Op) : Op := if o.t = t then { o with q := 0 } else o

theorem arrivalOf_unread (t : TsId) (o : Op) : arrivalOf (o.unread t) = arrivalOf o := by
  unfold Op.unread
  split
  · rfl
  · rfl

/-- What the end of an activation leaves of its release: the records of the Pile's runs return, and values still to come are discarded. -/
def EndsAfter (v w : State) (t : TsId) : Prop :=
  w.net = v.net ∧ (∃ rs, w.pnet = v.pnet ++ rs ∧ rs.filterMap spawnSent = []) ∧
  (∃ f : Op → Op, w.ops = v.ops.map f ∧ ∀ o, arrivalOf (f o) = arrivalOf o) ∧
  (∀ lid x, v.launch lid = some x → ∃ y, w.launch lid = some y ∧ y.lend = x.lend ∧ y.deques = x.deques) ∧
  w.tsGet t = (v.tsGet t).free ∧ OnlyTs v w t

theorem retirePile_frame (s : State) (t : TsId) (a : Activation) (back mark : Bool) :
    ∃ rs n, s.retirePile t a back mark = { s with pnet := s.pnet ++ rs, nextId := n } ∧ rs.filterMap spawnSent = [] := by
  unfold State.retirePile
  split
  · exact ⟨[_], _, rfl, rfl⟩
  · exact ⟨[], s.nextId, by rw [List.append_nil], rfl⟩

theorem activation_ends (v : State) (t : TsId) (a : Activation) :
    EndsAfter v ((((v.retirePile t a false false).onLaunch a.lid (fun l => { l with acts := l.acts + 1 })).freeTs t).askAll t.core) t := by
  obtain ⟨rs, n, hret, hnone⟩ := retirePile_frame v t a false false
  obtain ⟨hask, hlaunch⟩ := State.askAll_asks (((v.retirePile t a false false).onLaunch a.lid (fun l => { l with acts := l.acts + 1 })).freeTs t) t.core
  rw [hret] at hask hlaunch ⊢
  have hon : ({ v with pnet := v.pnet ++ rs, nextId := n } : State).onLaunch a.lid (fun l => { l with acts := l.acts + 1 }) =
      { v with pnet := v.pnet ++ rs, nextId := n, launches := (v.onLaunch a.lid (fun l => { l with acts := l.acts + 1 })).launches } := by
    cases a.lid <;> rfl
  rw [hon] at hask hlaunch ⊢
  refine ⟨by rw [hask]; rfl, ⟨rs, by rw [hask]; rfl, hnone⟩, ⟨Op.unread t, by rw [hask]; rfl, arrivalOf_unread t⟩,
    fun lid x hx => ?_, ?_, ?_⟩
  · have hx' : ∃ k, (v.onLaunch a.lid (fun l => { l with acts := l.acts + 1 })).launch lid = some { x with acts := k } := by
      cases a.lid with
      | none => exact ⟨x.acts, hx⟩
      | some i =>
        rw [State.launch_of_map (g := fun y => if y.lid = i then { y with acts := y.acts + 1 } else y) (fun y => by split <;> rfl) rfl, hx, Option.map_some]
        split
        · exact ⟨_, rfl⟩
        · exact ⟨x.acts, rfl⟩
    obtain ⟨k, hk⟩ := hx'
    obtain ⟨p, q, hy⟩ := hlaunch lid { x with acts := k } hk
    exact ⟨_, hy, rfl, rfl⟩
  · rw [hask]
    exact State.tsGet_tsSet v t (v.tsGet t).free
  · rw [hask]
    exact OnlyTs.tsSet v t (v.tsGet t).free

/-- A release and the end behind it, from the state in which both begin. -/
theorem released_of_ends (he : EndsAfter (s.releaseAll t a) w t) (hnet : u.net = w.net) (hpnet : u.pnet = w.pnet) (hops : u.ops = w.ops)
    (hlaunch : u.launches = w.launches) : Released s u t a [] := by
  obtain ⟨enet, ⟨rs, epnet, hrs⟩, ⟨f, eops, hf⟩, elaunch, -, -⟩ := he
  refine ⟨fun hroom => ?_, fun l ⟨ha, hl⟩ => ⟨fun hp => ?_, ?_⟩⟩
  · obtain ⟨fs, hfs, hmap⟩ := releaseAll_net (t := t) (a := a) (s := s) (hroom.imp_right fun ⟨l, ⟨ha, hl⟩, htakes⟩ => ⟨l, ha, hl, htakes⟩)
    exact ⟨fs, by rw [hnet, enet, hfs], hmap⟩
  · obtain ⟨es, hes, hmap⟩ := (releaseAll_works hl ha).1 hp
    have hall : (es ++ rs).filterMap spawnSent = (spawnsOf (s.tsGet t).sbuf).map (l.spawnAt t) := by rw [List.filterMap_append, hmap, hrs, List.append_nil]
    exact ⟨es ++ rs, by rw [hpnet, epnet, hes, List.append_assoc], hall⟩
  · obtain ⟨x, hx, -, hlend, hdeque⟩ := releaseAll_launch (t := t) hl ha
    obtain ⟨y, hy, hylend, hydeques⟩ := elaunch _ _ hx
    refine ⟨y, by rw [State.launch, hlaunch]; exact hy, fun hb => hylend.trans (hlend (.inr hb)), fun hp hroom => ?_, ?_⟩
    · rw [List.append_nil, ← hdeque hp hroom, Launch.deque, Launch.deque, hydeques]
    · obtain ⟨os, hos, hmap⟩ := (releaseAll_works hl ha).2
      rw [hops, eops, hos, List.map_append, List.drop_left' (by rw [List.length_map]), List.map_map]
      refine Eq.trans ?_ hmap
      exact List.map_congr_left fun o _ => hf o

end

/-! ## DONE -/

section

variable {s : State} {t : TsId} {act : Activation}

/-- DONE in a trap handler (R299). -/
theorem done_handler (ht : Turn s t act) (hlev : (s.tsGet t).tlev ≠ 0) : exec .done s = .next (trapped s t .illop 0) :=
  issue_trap (c' := Cause.illop.code) (x' := 0) ht (if_pos hlev) fun _ => if_pos hlev

/-- DONE with a value left in a store queue (R299). -/
theorem done_stored (ht : Turn s t act) (hlev : (s.tsGet t).tlev = 0) (hq : (s.tsGet t).ssq ≠ [] ∨ (s.tsGet t).vsq ≠ []) :
    exec .done s = .next (trapped s t .qdead 0) := by
  have hfull : (!((s.tsGet t).ssq.isEmpty && (s.tsGet t).vsq.isEmpty)) = true := by
    rcases hq with h | h
    · simp [h]
    · simp [h]
  exact issue_trap (c' := Cause.qdead.code) (x' := 0) ht ((if_neg (not_not_intro hlev)).trans (if_pos hfull))
    fun _ => (if_neg (not_not_intro hlev)).trans (if_pos hfull)

theorem atDone_ok : atDone (.ok ()) = .ok () := rfl

/-- DONE with everything that it waits for done: its send buffer is released, and the thread set is free. -/
theorem done_ends (ht : Turn s t act) (hlev : (s.tsGet t).tlev = 0) (hssq : (s.tsGet t).ssq = []) (hvsq : (s.tsGet t).vsq = [])
    (htok : (exeOf s t act).waitTokens = .ok ()) (hrep : (exeOf s t act).waitReplay = .ok ()) (hgain : (exeOf s t act).waitGains = .ok ())
    (harr : (exeOf s t act).roomArrivals = .ok ()) (hlost : (s.tsGet t).lost = none) :
    ∃ u, exec .done s = .next u ∧ (u.tsGet t).act = none ∧ (u.tsGet t).sbuf = [] ∧ (u.tsGet t).slq = [] ∧ (u.tsGet t).vlq = [] ∧
      Released s u t act [] ∧ ∀ t', t' ≠ t → u.tsGet t' = s.tsGet t' := by
  let s0 := s.tsSet t (s.tsGet t)
  let w := ((((s0.releaseAll t act).retirePile t act false false).onLaunch act.lid (fun l => { l with acts := l.acts + 1 })).freeTs t).askAll t.core
  have hself : s0.tsGet t = s.tsGet t := State.tsGet_tsSet s t _
  have he : EndsAfter (s0.releaseAll t act) w t := activation_ends (s0.releaseAll t act) t act
  let e : Exe := { exeOf s t act with s := w, x := w.tsGet t }
  have hrun : exec .done s = .next e.commit := by
    refine issue_ok ht ?_
    have h1 : (exeOf s t act).x.tlev = 0 := hlev
    have h2 : (exeOf s t act).x.ssq = [] := hssq
    have h3 : (exeOf s t act).x.vsq = [] := hvsq
    have h4 : (exeOf s t act).x.lost = none := hlost
    simp only [h1, h2, h3, htok, hrep, hgain, harr, h4, atDone_ok, bind_ok, ne_eq, not_true_eq_false, if_false, List.isEmpty_nil, Bool.and_self, Bool.not_true,
      Bool.false_eq_true]
    rfl
  obtain ⟨hcommit, hts, -⟩ : Went e (w.tsGet t).pc e.commit := Exe.commit_went e _ rfl
  have hrel : Released s0 e.commit t act [] := released_of_ends he rfl rfl rfl rfl
  obtain ⟨-, -, -, -, hfree, hothers⟩ := he
  have hx : e.x = ((s0.releaseAll t act).tsGet t).free := hfree
  rw [hx] at hts
  have hts : e.commit.tsGet t = _ := hts
  refine ⟨e.commit, hrun, by rw [hts]; rfl, by rw [hts]; rfl, by rw [hts]; rfl, by rw [hts]; rfl, ?_, fun t' h => ?_⟩
  · unfold Released at hrel ⊢
    rw [hself] at hrel
    exact hrel
  · rw [hcommit.2 t' h, hothers t' h, releaseAll_others s0 t act t' h]
    exact State.tsGet_tsSet_ne _ _ _ _ h

theorem doneResult : DoneResult := by
  intro s t act ht e
  refine ⟨fun hlev => done_handler ht hlev, fun hlev hq => done_stored ht hlev hq, ?_⟩
  intro hlev hssq hvsq htok hrep hgain harr hlost
  exact done_ends ht hlev hssq hvsq htok hrep hgain harr hlost

end

/-! ## LNCH -/

theorem levelOf_lt (n : Nat) : levelOf n < 16 := by
  rw [levelOf]
  omega

/-- A packet's LEVEL field once it is replaced (R114). -/
theorem bits_withLevel (w : Word) {lv : Nat} (h : lv < 16) : bits (withLevel w lv) 7 4 = lv := by
  have hclear : bits (w &&& ~~~(0xF0#64)) 7 4 = 0 := by
    have hmask : ∀ i < 4, (~~~(0xF0#64)).getLsbD (4 + i) = false := by decide
    refine Nat.eq_of_testBit_eq fun i => ?_
    rw [testBit_bits, Nat.zero_testBit, BitVec.getLsbD_and]
    by_cases hi : i < 4
    · rw [hmask i hi, Bool.and_false, Bool.and_false]
    · rw [decide_eq_false (by omega), Bool.false_and]
  rw [withLevel, bits_or, hclear, Nat.mod_eq_of_lt h, bits_at64_self (by omega) (by decide) (by decide), Nat.zero_or]

section

variable {s : State} {t : TsId} {act : Activation} {v a : Reg} {d : Word} {x : Vec} {e1 e2 : Exe}

/-- LNCH behind its sources and its waits (R114, R331). -/
def Exe.lnchTail (e : Exe) (d : Word) (x : Vec) : Except Stop Exe :=
  match e.descriptor d with
  | none => (e.pushVal 1).next
  | some bs =>
    if anyNr bs then stall .held else
    let die := dieOf e.t.core
    if 256 ≤ e.s.pendingOf die then (e.pushVal 2).next else
    let q := e.s.rdBlocks bs
    let lv := max (levelOf (fieldB q 0x28 8)) (levelOf (e.s.grantLevel e.a.ctx))
    let ws := wordsOf x
    let c : Child := { id := e.s.nextId, die := die, t := e.t, ctx := e.a.ctx, slots := w64 (sliceB q 0x20 8), deps := [],
                       words := withLevel ((ws[0]?).getD 0) lv :: ws.drop 1 }
    ((e.pushVal 0).onState (fun s => { s with children := s.children ++ [c], nextId := s.nextId + 1 })).next

theorem execLnch_eq (v a : Reg) (s : State) : execLnch v a s = issue s (fun e => e.srcS a >>= fun p => p.2.srcV v >>= fun q =>
    q.2.roomLdq 1 >>= fun _ => q.2.waitReplay >>= fun _ => q.2.waitTokens >>= fun _ => q.2.waitRelease >>= fun _ => q.2.lnchTail p.1 q.1) := rfl

variable (ht : Turn s t act) (ha : (exeOf s t act).srcS a = .ok (d, e1)) (hv : e1.srcV v = .ok (x, e2)) (hroom : e2.x.slq.length < 16)
  (hrep : e2.waitReplay = .ok ()) (htok : e2.waitTokens = .ok ()) (hrel : e2.waitRelease = .ok ())

include ht ha hv hroom hrep htok hrel

/-- LNCH that waits for nothing goes on as its tail does. -/
theorem lnch_tail {e : Exe} (h : e2.lnchTail d x = e.next) (hafter : e.after = none) : ∃ u, exec (.lnch v a) s = .next u ∧ Went e (e.x.pc + 4) u := by
  show ∃ u, execLnch v a s = .next u ∧ _
  rw [execLnch_eq]
  refine issue_went ht ?_ hafter
  rw [ha, bind_ok, hv, bind_ok, Exe.roomLdq_one_ok hroom, bind_ok, hrep, bind_ok, htok, bind_ok, hrel, bind_ok, h]
  rfl

/-- LNCH that pushes a status and queues nothing. -/
theorem lnch_pushes {n : Word} (h : e2.lnchTail d x = (e2.pushVal n).next) :
    ∃ u, exec (.lnch v a) s = .next u ∧ Retired (pushed e2 n) 4 u ∧ SameBytes s u := by
  obtain ⟨hs, -, -, hafter⟩ := (Exe.srcS_frame ha).1.trans (Exe.srcV_frame hv).1
  obtain ⟨u, hu, hw⟩ := lnch_tail ht ha hv hroom hrep htok hrel h hafter
  refine ⟨u, hu, hw, ?_⟩
  have hbytes := hw.1.bytes
  rwa [show (e2.pushVal n).s = s from hs] at hbytes

theorem lnch_queues {bs : List Block} (hd : e2.descriptor d = some bs) (hnr : anyNr bs = false) (hheld : s.pendingOf (dieOf t.core) < 256) :
    ∃ u c, exec (.lnch v a) s = .next u ∧ SameBytes s u ∧ u.children = s.children ++ [c] ∧ c.die = dieOf t.core ∧ c.t = t ∧
      c.ctx = act.ctx ∧ c.words.drop 1 = [8, 16, 24, 32, 40, 48, 56].map (vWord x) ∧
      bits ((c.words[0]?).getD 0) 7 4 = max (levelOf (fieldB (s.rdBlocks bs) 0x28 8)) (levelOf (s.grantLevel act.ctx)) ∧ (u.tsGet t).slq = e2.x.slq ++ [.ready 0] ∧
      (u.tsGet t).pc = e2.x.pc + 4 ∧ (u.tsGet t).sreg = e2.x.sreg ∧ ∀ t', t' ≠ t → u.tsGet t' = s.tsGet t' := by
  obtain ⟨h1, h2, h3, hafter⟩ := (Exe.srcS_frame ha).1.trans (Exe.srcV_frame hv).1
  have h1 : e2.s = s := h1
  have h2 : e2.t = t := h2
  have h3 : e2.a = act := h3
  let lv := max (levelOf (fieldB (s.rdBlocks bs) 0x28 8)) (levelOf (s.grantLevel act.ctx))
  let c : Child := { id := s.nextId, die := dieOf t.core, t := t, ctx := act.ctx, slots := w64 (sliceB (s.rdBlocks bs) 0x20 8), deps := [],
                     words := withLevel (((wordsOf x)[0]?).getD 0) lv :: (wordsOf x).drop 1 }
  let s' : State := { (s.tsSet t (e2.pushVal 0).x) with children := s.children ++ [c], nextId := s.nextId + 1 }
  have hself : s'.tsGet t = (e2.pushVal 0).x := State.tsGet_tsSet s t _
  have htail : e2.lnchTail d x = Exe.next { e2.pushVal 0 with s := s', t := t } := by
    rw [Exe.lnchTail, hd]
    simp only [hnr, Bool.false_eq_true, if_false, h1, h2, h3]
    rw [if_neg (by omega), Exe.onState, show (e2.pushVal 0).s = s from h1, show (e2.pushVal 0).t = t from h2]
    show Exe.next { e2.pushVal 0 with s := s', t := t, x := s'.tsGet t } = _
    rw [hself]
  obtain ⟨u, hu, hw⟩ := lnch_tail ht ha hv hroom hrep htok hrel htail hafter
  obtain ⟨hkept, hx, -⟩ := hw
  have hkept : OthersKept s' u t := hkept
  have hx : u.tsGet t = _ := hx
  have hlv : lv < 16 := max_lt (levelOf_lt _) (levelOf_lt _)
  refine ⟨u, c, hu, fun y hy => ?_, by rw [hkept.1], rfl, rfl, rfl, rfl, bits_withLevel _ hlv, by rw [hx]; rfl, by rw [hx]; rfl, by rw [hx]; rfl,
    fun t' h => ?_⟩
  · exact hkept.bytes y hy
  · rw [hkept.2 t' h]
    exact State.tsGet_tsSet_ne _ _ _ _ h

end

theorem childLaunchResult : ChildLaunchResult := by
  intro s t act ht v a d x e1 e2 ha hv hroom hrep htok hrel held
  obtain ⟨hs, hst, -⟩ := (Exe.srcS_frame ha).1.trans (Exe.srcV_frame hv).1
  have hheld : e2.s.pendingOf (dieOf e2.t.core) = held := by rw [hs, hst]; rfl
  refine ⟨fun hd => lnch_pushes ht ha hv hroom hrep htok hrel (by rw [Exe.lnchTail, hd]), fun bs hd hnr => ⟨fun hfull => ?_, fun hless => ?_⟩⟩
  · refine lnch_pushes ht ha hv hroom hrep htok hrel ?_
    rw [Exe.lnchTail, hd]
    simp only [hnr, Bool.false_eq_true, if_false]
    rw [if_pos (by rw [hheld]; exact hfull)]
  · exact lnch_queues ht ha hv hroom hrep htok hrel hd hnr hless

/-- Settles O16: DONE by what each entry of the send buffer does as it is released, LNCH by its checks. -/
theorem doneAndChildResult : Obligations.DoneAndChildResult := ⟨doneResult, childLaunchResult⟩

end Sys2Proof.Machine
end

section
/-!
Launch packets: refusal, the wait for a slot, the wait for bundles and the start (R109 to R113, R122, R320, R388): O34.
-/

namespace Sys2Proof.Machine

open Sys2Proof Sys2Proof.Claims

/-! ## What writes memories only -/

/-- Nothing but the memories and their marks of damage differs. -/
def MemOnly (s u : State) : Prop :=
  u = { s with mem := u.mem, scratch := u.scratch, eccMem := u.eccMem, softMem := u.softMem, hostMem := u.hostMem }

section

variable {s u w : State}

theorem MemOnly.refl (s : State) : MemOnly s s := rfl

theorem MemOnly.trans (h : MemOnly s u) (k : MemOnly u w) : MemOnly s w := by
  rw [MemOnly] at *
  rw [k, h]

theorem MemOnly.ite {c : Prop} [Decidable c] (h : MemOnly s u) (k : MemOnly s w) : MemOnly s (if c then u else w) := by
  split
  · exact h
  · exact k

theorem MemOnly.launches (h : MemOnly s u) : u.launches = s.launches := by
  rw [MemOnly] at h
  rw [h]

theorem State.wr_memOnly (s : State) (a : Nat) (d : List Byte) : MemOnly s (s.wr a d) := by
  have h := s.wr_frame d a
  rw [MemOnly]
  generalize s.wr a d = v at h ⊢
  rw [h]

theorem State.wrRw_memOnly (d : List Byte) (s : State) (a : Nat) : MemOnly s (s.wrRw a d) := by
  induction d generalizing s a with
  | nil => exact .refl s
  | cons b r ih => exact (MemOnly.ite (.refl s) (s.wr_memOnly a [b])).trans (ih _ _)

theorem State.wrBlocks_memOnly (bs : List Block) (s : State) (d : List Byte) : MemOnly s (s.wrBlocks bs d) := by
  induction bs generalizing s d with
  | nil => exact .refl s
  | cons b r ih => exact (s.wrRw_memOnly _ b.bus).trans (ih _ _)

theorem State.hostWr_memOnly (d : List Byte) (s : State) (a : Nat) : MemOnly s (s.hostWr a d) := by
  induction d generalizing s a with
  | nil => exact .refl s
  | cons b r ih => exact MemOnly.trans (u := { s with hostMem := Cells.put s.hostMem a b }) rfl (ih _ _)

theorem State.wrTarget_memOnly (s : State) (ctx : Half) (va : Word) (d : List Byte) : Yields (MemOnly s) (s.wrTarget ctx va d) := by
  unfold State.wrTarget
  split
  · rename_i u hu
    unfold State.wrV at hu
    split at hu
    · cases hu
      exact s.wrBlocks_memOnly _ d
    · cases hu
  · split
    · exact s.hostWr_memOnly d va.toNat
    · trivial

theorem State.writeCrec_memOnly (s : State) (ctx : Half) (crec : Word) (d : List Byte) : Yields (MemOnly s) (s.writeCrec ctx crec d) := by
  unfold State.writeCrec
  split
  · trivial
  · exact s.wrTarget_memOnly ctx crec d

theorem State.publish_memOnly (s : State) (a : Option Nat) (n : Nat) : MemOnly s (s.publish a n) := by
  cases a with
  | none => exact .refl s
  | some a => exact s.wrRw_memOnly _ _

theorem State.signalAt_memOnly (s : State) (a : Option Nat) : MemOnly s (s.signalAt a) := by
  cases a with
  | none => exact .refl s
  | some a => exact s.wrRw_memOnly _ _

end

/-! ## Grants -/

section

variable {s : State} {ctx : Half} {r : BitVec 4}

/-- What a context's windows and tables grant, its tables grant. -/
theorem State.grantByte_tables {va : Word} {h : Hit} (hg : s.grantByte ctx va r true = .ok h) : s.grantByte ctx va r false = .ok h := by
  unfold State.grantByte at hg ⊢
  dsimp only at hg ⊢
  split
  · rename_i hc
    rwa [if_pos hc] at hg
  · rename_i hc
    rw [if_neg hc] at hg
    split
    · rename_i hr
      rwa [if_pos hr] at hg
    · rename_i hr
      rw [if_neg hr] at hg
      split
      · rename_i hl
        rwa [hl] at hg
      · rename_i x hl
        rw [hl] at hg
        dsimp only at hg
        split at hg
        · cases hg
        · rename_i hrights
          rw [if_neg hrights, Bool.false_and, if_neg Bool.false_ne_true]
          split at hg
          · cases hg
          · exact hg

theorem State.grantFrom_tables {fuel : Nat} {va : Word} {len off : Nat} {bs : List Block} (hg : s.grantFrom ctx r true fuel va len off = .ok bs) :
    s.grantFrom ctx r false fuel va len off = .ok bs := by
  induction fuel generalizing va len off bs with
  | zero => exact hg
  | succ fuel ih =>
    rw [State.grantFrom] at hg ⊢
    split
    · rename_i hlen
      rwa [if_pos hlen] at hg
    · rename_i hlen
      rw [if_neg hlen] at hg
      dsimp only at hg ⊢
      cases hb : s.grantByte ctx va r true with
      | error c => rw [hb] at hg; cases hg
      | ok h =>
        rw [hb] at hg
        rw [State.grantByte_tables hb]
        dsimp only at hg ⊢
        cases hrest : s.grantFrom ctx r true fuel (va + BitVec.ofNat 64 (min len (32768 - va.toNat % 32768))) (len - min len (32768 - va.toNat % 32768))
            (off + min len (32768 - va.toNat % 32768)) with
        | error e => rw [hrest] at hg; cases hg
        | ok rest =>
          rw [hrest] at hg
          rw [ih hrest]
          exact hg

/-- A record's 128 bytes at an aligned address are one block. -/
theorem State.granted_record {win : Bool} {va : Word} {b : Block} (hva : va.toNat % 128 = 0) (hg : s.granted ctx va 128 r win = .ok [b]) : b.len = 128 := by
  have hn : min 128 (32768 - va.toNat % 32768) = 128 := by omega
  simp only [State.granted, State.grantFrom, hn, OfNat.ofNat_ne_zero, if_false] at hg
  cases hb : s.grantByte ctx va r win with
  | error c => rw [hb] at hg; cases hg
  | ok h =>
    rw [hb] at hg
    cases hg
    rfl

/-- The front end's own notes are in no table, nor are the children that wait in a pending-launch store. -/
theorem State.granted_notes (v : State) (n : Nat) (q : List QWait) (ls : List Launch) (cs : List Child) (va : Word) (len : Nat) (win : Bool) :
    ({ v with fseq := n, qwaits := q, launches := ls, children := cs } : State).granted ctx va len r win = v.granted ctx va len r win := by
  have hbyte : ∀ va, ({ v with fseq := n, qwaits := q, launches := ls, children := cs } : State).grantByte ctx va r win = v.grantByte ctx va r win :=
    fun _ => rfl
  have hfrom : ∀ fuel va len off, ({ v with fseq := n, qwaits := q, launches := ls, children := cs } : State).grantFrom ctx r win fuel va len off =
      v.grantFrom ctx r win fuel va len off := by
    intro fuel
    induction fuel with
    | zero => exact fun _ _ _ => rfl
    | succ fuel ih => exact fun va len off => by simp only [State.grantFrom, hbyte, ih]
  exact hfrom _ _ _ _

end

/-! ## A packet that is taken -/

section

variable {s : State} {src : PacketSrc} {lid : Half} {p : Packet} {hint : Nat}

/-- What the taking of a packet may change. -/
theorem State.takePacket_frame (s : State) (src : PacketSrc) (lid : Option Half) : ∃ m sc ec so fr q cs ps st, s.takePacket src lid =
    { s with mem := m, scratch := sc, eccMem := ec, softMem := so, fresh := fr, qwaits := q, children := cs, progs := ps, steps := st } := by
  unfold State.takePacket
  split
  · split
    · exact ⟨_, _, _, _, _, _, _, _, _, rfl⟩
    · dsimp only [State.wr64]
      rw [State.wr_frame]
      exact ⟨_, _, _, _, _, _, _, _, _, rfl⟩
  · exact ⟨_, _, _, _, _, _, _, _, _, rfl⟩
  · exact ⟨_, _, _, _, _, _, _, _, _, rfl⟩
  · exact ⟨_, _, _, _, _, _, _, _, _, rfl⟩

theorem State.takePacket_launches (s : State) (src : PacketSrc) (lid : Option Half) : (s.takePacket src lid).launches = s.launches := by
  obtain ⟨_, _, _, _, _, _, _, _, _, h⟩ := s.takePacket_frame src lid
  rw [h]

/-- The device behind the taking of a launch's packet and before the verdict: the launch has its place among the others. -/
def State.offered (s : State) (src : PacketSrc) (lid : Half) (l : Launch) : State :=
  let s : State := (s.takePacket src (some lid)).stamped
  let s : State := match src with
    | .host q => s.setQwait { s.qwait q with launched := (s.qwait q).launched ++ [lid] }
    | _ => s
  { s with launches := s.launches ++ [l] }

theorem State.offered_frame (s : State) (src : PacketSrc) (lid : Half) (l : Launch) : ∃ n q, s.offered src lid l =
    { s.takePacket src (some lid) with fseq := n, qwaits := q, launches := s.launches ++ [l] } := by
  rw [← s.takePacket_launches src (some lid)]
  unfold State.offered
  generalize s.takePacket src (some lid) = v
  cases src with
  | host q => exact ⟨_, _, rfl⟩
  | child id => exact ⟨_, _, rfl⟩
  | invoke slot => exact ⟨_, _, rfl⟩
  | stepLaunch id => exact ⟨_, _, rfl⟩

/-- The front end's verdict on a launch that it has checked (R113). -/
def State.verdict (s : State) (src : PacketSrc) (lid : Half) (l : Launch) : Except Refused Tables → State
  | .error .held => s
  | .error (.status n) => (s.offered src lid l).refuseLaunch l n
  | .ok t => match if l.wslot = 0 then none else (s.offered src lid l).slotAddr l l.wslot with
    | some a => (s.offered src lid l).publish (some a) (bits (l.w 0) 63 48)
    | none => (s.offered src lid l).admitLaunch l t

theorem execLaunchPacket_verdict (hp : s.packet src = some p) (hl : s.freeLid hint = some lid) (hk : launchKind src p.kind = true) :
    exec (.launchPacket src hint) s =
      .next (s.verdict src lid (newLaunch lid p s.stamp) (s.checkLaunch (newLaunch lid p s.stamp))) := by
  show execLaunchPacket src hint s = _
  rw [execLaunchPacket, hp, hl]
  dsimp only
  rw [hk, Bool.not_true, if_neg Bool.false_ne_true]
  cases s.checkLaunch (newLaunch lid p s.stamp) with
  | error e =>
    cases e with
    | held => rfl
    | status n => rfl
  | ok t =>
    show (match if (newLaunch lid p s.stamp).wslot = 0 then none else
        (s.offered src lid (newLaunch lid p s.stamp)).slotAddr (newLaunch lid p s.stamp) (newLaunch lid p s.stamp).wslot with
      | some a => Host.Outcome.next ((s.offered src lid (newLaunch lid p s.stamp)).publish (some a) (bits ((newLaunch lid p s.stamp).w 0) 63 48))
      | none => .next ((s.offered src lid (newLaunch lid p s.stamp)).admitLaunch (newLaunch lid p s.stamp) t)) = _
    rw [State.verdict]
    split <;> rfl

/-- What a packet says of its source (R109, R114, R320). -/
theorem State.packet_src (hp : s.packet src = some p) :
    (∀ slot, src = .invoke slot → p.src = .invoke slot) ∧
    ((∃ a, p.slots = some (a, 0)) ∧ (∃ q, src = .host q) ∨ (∃ a, p.slots = some (a, 1)) ∧ (∃ id, src = .child id) ∨ p.slots = none) := by
  cases src with
  | host q =>
    simp only [State.packet] at hp
    split at hp
    · cases hp
    · split at hp
      · cases hp
      · cases hp
        exact ⟨nofun, .inl ⟨⟨_, rfl⟩, q, rfl⟩⟩
  | child id =>
    simp only [State.packet] at hp
    split at hp
    · cases hp
    · split at hp
      · cases hp
        exact ⟨nofun, .inr (.inl ⟨⟨_, rfl⟩, id, rfl⟩)⟩
      · cases hp
  | invoke slot =>
    simp only [State.packet] at hp
    split at hp
    · cases hp
    · split at hp
      · cases hp
        exact ⟨fun n hn => by cases hn; rfl, .inr (.inr rfl)⟩
      · cases hp
  | stepLaunch id =>
    simp only [State.packet] at hp
    split at hp
    · cases hp
    · split at hp
      · cases hp
      · cases hp
        exact ⟨nofun, .inr (.inr rfl)⟩

/-- The slot that a launch names is where it was (R112). -/
theorem State.slotAddr_offered (hp : s.packet src = some p) (lid' : Half) (l : Launch) (n : Nat) (st : Stamp) :
    (s.offered src lid' l).slotAddr (newLaunch lid p st) n = s.slotAddr (newLaunch lid p st) n := by
  obtain ⟨k, q, hoff⟩ := s.offered_frame src lid' l
  rw [hoff]
  have hq : (newLaunch lid p st).queued = p.slots := rfl
  rcases (State.packet_src hp).2 with ⟨⟨a, ha⟩, -⟩ | ⟨⟨a, ha⟩, id, rfl⟩ | hnone
  · simp only [State.slotAddr, hq, ha]
  · simp only [State.slotAddr, hq, ha, State.takePacket]
    rw [State.granted_notes]
  · simp only [State.slotAddr, hq, hnone]

/-- A new launch id is no launch's. -/
theorem State.freeLid_free (hl : s.freeLid hint = some lid) : ∀ x ∈ s.launches, x.lid ≠ lid := by
  unfold State.freeLid at hl
  dsimp only at hl
  obtain ⟨n, hn, rfl⟩ := Option.map_eq_some_iff.mp hl
  have hfree : (decide (1 ≤ n) && decide (n < 65536) && s.launches.all (fun l => decide (l.lid.toNat ≠ n)) && s.ending.all (fun e => decide (e.l.lid.toNat ≠ n))) = true := by
    split at hn
    · cases hn
      assumption
    · exact List.find?_some (p := fun x => decide (1 ≤ x) && decide (x < 65536) && s.launches.all (fun l => decide (l.lid.toNat ≠ x)) && s.ending.all (fun e => decide (e.l.lid.toNat ≠ x))) hn
  simp only [Bool.and_eq_true, decide_eq_true_eq, List.all_eq_true] at hfree
  obtain ⟨⟨⟨-, hlt⟩, hall⟩, -⟩ := hfree
  intro x hx heq
  exact hall x hx (by rw [heq, BitVec.toNat_ofNat, Nat.mod_eq_of_lt hlt])

theorem State.launch_freeLid (hl : s.freeLid hint = some lid) : s.launch lid = none := by
  rw [State.launch, List.find?_eq_none]
  intro x hx
  simpa using State.freeLid_free hl x hx

end

/-! ## Refusal -/

section

variable {s : State} {l : Launch}

/-- The record of a refused launch can be written (R113, R122). -/
def State.recordable (s : State) (l : Launch) : Bool :=
  decide (l.crec.toNat % 128 = 0) && (match s.granted l.ctx l.crec 128 rWR true with | .ok _ => true | .error _ => false) ||
  decide (l.crec.toNat % 128 = 0) && (s.lookup l.ctx l.crec.toNat).isNone && s.inHost l.crec.toNat 128

/-- A refused launch's record, written or reported. -/
def State.refusalRecord (s : State) (l : Launch) (n : Nat) : State :=
  if s.recordable l then (s.writeCrec l.ctx l.crec (crecBytes n l.lid l.accst none none none 0)).getD s
  else if n = 3 ∨ n = 4 then s
  else { s with reports := .crec l.lid :: s.reports }

/-- A launch whose packet is of a reserved kind signals no slot. -/
def Launch.unsigned (l : Launch) : Launch :=
  if bits (l.w 0) 3 0 = 0 then l else { l with words := (l.w 0 &&& ~~~(at64 0xFFF 36)) :: l.words.drop 1 }

theorem Launch.unsigned_src (l : Launch) : l.unsigned.src = l.src := by
  unfold Launch.unsigned
  split <;> rfl

theorem Launch.unsigned_lid (l : Launch) : l.unsigned.lid = l.lid := by
  unfold Launch.unsigned
  split <;> rfl

theorem State.refuseLaunch_eq (s : State) (l : Launch) (n : Nat) : s.refuseLaunch l n =
    ({ s.refusalRecord l n with launches := (s.refusalRecord l n).launches.filter (fun x => decide (x.lid ≠ l.lid)) } : State).settle l.unsigned
      (statusWord n (if s.recordable l then l.lid else 0)) := by
  have h : s.refuseLaunch l n =
      ({ s.refusalRecord l n with launches := (s.refusalRecord l n).launches.filter (fun x => decide (x.lid ≠ l.lid)) } : State).settle l.unsigned
        (statusWord n (if s.recordable l then l.unsigned.lid else 0)) := rfl
  rw [h, l.unsigned_lid]

theorem Launch.unsigned_sslot (h : l.sslot = 0) : l.unsigned.sslot = 0 := by
  unfold Launch.unsigned
  split
  · exact h
  · have hmask : ∀ i < 12, (~~~(at64 0xFFF 36)).getLsbD (36 + i) = false := by decide
    refine Nat.eq_of_testBit_eq fun i => ?_
    show (bits (l.w 0 &&& ~~~(at64 0xFFF 36)) 47 36).testBit i = _
    rw [testBit_bits, Nat.zero_testBit, BitVec.getLsbD_and]
    by_cases hi : i < 12
    · rw [hmask i hi, Bool.and_false, Bool.and_false]
    · rw [decide_eq_false (by omega), Bool.false_and]

/-- The record of a refusal writes memories, and may be reported. -/
theorem State.refusalRecord_frame (s : State) (l : Launch) (n : Nat) : ∃ r, MemOnly { s with reports := r } (s.refusalRecord l n) := by
  unfold State.refusalRecord
  split
  · refine ⟨s.reports, ?_⟩
    have h := s.writeCrec_memOnly l.ctx l.crec (crecBytes n l.lid l.accst none none none 0)
    cases hw : s.writeCrec l.ctx l.crec (crecBytes n l.lid l.accst none none none 0) with
    | none => exact .refl s
    | some u =>
      rw [hw] at h
      exact h
  · split
    · exact ⟨s.reports, .refl s⟩
    · exact ⟨_, .refl _⟩

theorem State.refusalRecord_lists (s : State) (l : Launch) (n : Nat) :
    (s.refusalRecord l n).launches = s.launches ∧ (s.refusalRecord l n).progs = s.progs := by
  obtain ⟨r, h⟩ := s.refusalRecord_frame l n
  rw [MemOnly] at h
  rw [h]
  exact ⟨rfl, rfl⟩

theorem State.settle_launches (s : State) (l : Launch) (status : Word) : (s.settle l status).launches = s.launches := by
  have h : (if l.sslot = 0 then s else s.signalAt (s.slotAddr l l.sslot)).launches = s.launches :=
    (MemOnly.ite (c := l.sslot = 0) (.refl s) (s.signalAt_memOnly (s.slotAddr l l.sslot))).launches
  unfold State.settle
  dsimp only
  split <;> exact h

/-- Telling the end of a launch that signals no slot leaves memory as it was. -/
theorem State.settle_frame (h : l.sslot = 0) (s : State) (status : Word) :
    ∃ q ps st, s.settle l status = { s with qwaits := q, progs := ps, steps := st } := by
  unfold State.settle
  rw [if_pos h]
  split
  · exact ⟨_, _, _, rfl⟩
  · exact ⟨_, _, _, rfl⟩
  · exact ⟨_, _, _, rfl⟩

theorem State.refuseLaunch_launches (s : State) (l : Launch) (n : Nat) :
    (s.refuseLaunch l n).launches = s.launches.filter (fun x => decide (x.lid ≠ l.lid)) := by
  rw [State.refuseLaunch_eq, State.settle_launches]
  exact congrArg _ (s.refusalRecord_lists l n).1

/-- The program whose INVOKE waits for a refused launch has its status (R320). -/
theorem State.refuseLaunch_tells {slot : Nat} {a : LIdx} (hsrc : l.src = .invoke slot) (n : Nat) (h : s.awaitsIn slot a l.lid none) :
    (s.refuseLaunch l n).awaitsIn slot a l.lid (some (statusWord n (if s.recordable l then l.lid else 0))) := by
  rw [State.refuseLaunch_eq]
  have hown := State.settle_own (l := l.unsigned) (s := { s.refusalRecord l n with launches := (s.refusalRecord l n).launches.filter (fun x => decide (x.lid ≠ l.lid)) })
    (slot := slot) (a := a) (by rw [l.unsigned_src, hsrc]) (statusWord n (if s.recordable l then l.lid else 0))
  rw [l.unsigned_lid] at hown
  exact hown (State.awaitsIn_congr (s.refusalRecord_lists l n).2 h)

theorem Stamp.length_bytes (x : Stamp) : x.bytes.length = 16 := by
  simp [Stamp.bytes]

/-- A refused launch's record: the status and the stamp of its acceptance, and zeros. -/
theorem crecBytes_refused (n : Nat) (lid : Half) (acc : Stamp) :
    crecBytes n lid acc none none none 0 = leBytes 8 (statusWord n lid).toNat ++ (acc.bytes ++ List.replicate 104 0) := by
  have hz : (Stamp.bytes { sec := 0, ns := 0, seq := 0 }) = List.replicate 16 0 := by decide
  simp only [crecBytes, Option.getD_none, hz, List.append_assoc, List.replicate_append_replicate]

/-- A record's write in one block of its context. -/
theorem State.writeCrec_block {ctx : Half} {crec : Word} {d : List Byte} {b : Block} (hd : d.length = 128) (hal : crec.toNat % 128 = 0)
    (hg : s.granted ctx crec 128 rWR true = .ok [b]) (hown : unowned s b.bus 128) : s.writeCrec ctx crec d = some (s.wr b.bus d) := by
  have htab : s.granted ctx crec 128 rWR false = .ok [b] := State.grantFrom_tables hg
  have hlen := State.granted_record hal hg
  have hwr : s.wrV ctx crec d = some (s.wr b.bus d) := by
    rw [State.wrV, hd, htab]
    dsimp only [State.wrBlocks]
    rw [hlen, List.take_of_length_le (Nat.le_of_eq hd), State.wrRw_eq_wr d (by rwa [hd])]
  rw [State.writeCrec, if_neg (not_not.mpr hal), State.wrTarget, hwr]

theorem State.recordable_of_granted {bs : List Block} (hal : l.crec.toNat % 128 = 0) (hg : s.granted l.ctx l.crec 128 rWR true = .ok bs) : s.recordable l = true := by
  rw [State.recordable, hg, decide_eq_true hal]
  rfl

/-- A byte of stack memory, by the memory and the channels alone. -/
theorem State.rdByte_ram {u : State} {x : Nat} (hmem : u.mem = s.mem) (hch : u.absentCh = s.absentCh) (hx : x < scratchBase) : u.rdByte x = s.rdByte x := by
  have hlow : ¬ scratchBase ≤ x := by omega
  simp only [State.rdByte, hlow, if_false, hmem, noChannel_congr hch]

/-- A refused launch's record as it stands in memory (R113, R122). -/
theorem State.refuseLaunch_record {b : Block} (n : Nat) (hal : l.crec.toNat % 128 = 0) (hg : s.granted l.ctx l.crec 128 rWR true = .ok [b])
    (hslot : l.sslot = 0) (hram : inRam s b.bus 128) (hown : unowned s b.bus 128) :
    (s.refuseLaunch l n).rd64 b.bus = statusWord n l.lid ∧ holds (s.refuseLaunch l n) (b.bus + 8) (l.accst.bytes ++ List.replicate 104 0) := by
  have hlen : (crecBytes n l.lid l.accst none none none 0).length = 128 := by
    rw [crecBytes_refused, List.length_append, List.length_append, length_leBytes, Stamp.length_bytes, List.length_replicate]
  have hrec : s.refusalRecord l n = s.wr b.bus (crecBytes n l.lid l.accst none none none 0) := by
    rw [State.refusalRecord, if_pos (State.recordable_of_granted hal hg), State.writeCrec_block hlen hal hg hown, Option.getD_some]
  have hbytes : ∀ x < scratchBase, (s.refuseLaunch l n).rdByte x = (s.refusalRecord l n).rdByte x := by
    intro x hx
    rw [State.refuseLaunch_eq]
    obtain ⟨q, ps, st, hsettle⟩ := State.settle_frame (Launch.unsigned_sslot hslot)
      { s.refusalRecord l n with launches := (s.refusalRecord l n).launches.filter (fun x => decide (x.lid ≠ l.lid)) }
      (statusWord n (if s.recordable l then l.lid else 0))
    rw [hsettle]
    exact State.rdByte_ram rfl rfl hx
  have hread : (s.refuseLaunch l n).rd b.bus (8 + 120) = leBytes 8 (statusWord n l.lid).toNat ++ (l.accst.bytes ++ List.replicate 104 0) := by
    have hrd := Lasting.rd_wr (crecBytes n l.lid l.accst none none none 0) (hlen.symm ▸ Lasting.of_inRam hram)
    rw [hlen, ← hrec] at hrd
    rw [← crecBytes_refused, ← hrd]
    exact State.rd_congr fun i hi => hbytes _ (by have := hram.1; omega)
  rw [State.rd_add] at hread
  obtain ⟨hword, hrest⟩ := List.append_inj hread (by rw [State.length_rd, length_leBytes])
  refine ⟨by rw [State.rd64, hword, w64_leBytes], ?_⟩
  rw [holds, ← hrest, State.length_rd]

end

/-! ## Placement -/

section

variable {s : State} {src : PacketSrc} {lid : Half} {l m : Launch}

theorem State.offered_launches (s : State) (src : PacketSrc) (lid : Half) (l : Launch) : (s.offered src lid l).launches = s.launches ++ [l] := by
  obtain ⟨_, _, h⟩ := s.offered_frame src lid l
  rw [h]

/-- Launches that are not running hold no bundle. -/
theorem State.holders_append (s : State) (hl : l.state ≠ .running) (b : Nat) :
    ({ s with launches := s.launches ++ [l] } : State).holders b = s.holders b := by
  have hone : [l].filter (fun x => decide (x.state = .running) && x.bundles.contains b && !((s.bundle b).frozen.any (fun f => decide (f.ctx = x.ctx)))) = [] := by
    simp [hl]
  show (s.launches ++ [l]).filter _ = _
  rw [List.filter_append]
  exact (congrArg _ hone).trans (List.append_nil _)

theorem State.areaBase_append (s : State) (hl : l.state ≠ .running) (x : Launch) (b : Nat) :
    ({ s with launches := s.launches ++ [l] } : State).areaBase x b = s.areaBase x b := by
  have hone : [l].filter (fun y => decide (y.lid ≠ x.lid) && decide (y.ctx = x.ctx) && decide (y.state = .running) && y.bundles.contains b) = [] := by
    simp [hl]
  have hall : (s.launches ++ [l]).filter (fun y => decide (y.lid ≠ x.lid) && decide (y.ctx = x.ctx) && decide (y.state = .running) && y.bundles.contains b) =
      s.launches.filter (fun y => decide (y.lid ≠ x.lid) && decide (y.ctx = x.ctx) && decide (y.state = .running) && y.bundles.contains b) := by
    rw [List.filter_append, hone, List.append_nil]
  unfold State.areaBase
  dsimp only
  rw [hall]
  rfl

theorem State.eligible_append (s : State) (hl : l.state ≠ .running) (b : Nat) :
    ({ s with launches := s.launches ++ [l] } : State).eligible m b = s.eligible m b := by
  have hinside : ∀ x, ({ s with launches := s.launches ++ [l] } : State).runsInside x b = s.runsInside x b := by
    intro x
    simp only [State.runsInside, State.areaBase_append s hl]
    rfl
  unfold State.eligible
  dsimp only
  rw [State.holders_append s hl]
  simp only [hinside]
  rfl

/-- What a launch is placed by is not changed by another that does not run. -/
theorem State.choose_append (s : State) (hl : l.state ≠ .running) (m : Launch) :
    ({ s with launches := s.launches ++ [l] } : State).choose m = s.choose m := by
  have he : ({ s with launches := s.launches ++ [l] } : State).eligible m = s.eligible m := funext (State.eligible_append s hl)
  have hh : ({ s with launches := s.launches ++ [l] } : State).holders = s.holders := funext (State.holders_append s hl)
  unfold State.choose
  rw [he, hh]
  rfl

/-- The bundles that an offered launch gets are those that it would get on the device as it stood. -/
theorem State.choose_offered (s : State) (src : PacketSrc) (lid : Half) (hl : l.state ≠ .running) (m : Launch) (n k : Nat) :
    ({ s.offered src lid l with orderNext := n } : State).choose { m with order := k } = s.choose m := by
  obtain ⟨f, q, hoff⟩ := s.offered_frame src lid l
  obtain ⟨_, _, _, _, _, _, _, _, _, htake⟩ := s.takePacket_frame src (some lid)
  rw [hoff, htake]
  exact s.choose_append hl m

theorem State.usable_offered (s : State) (src : PacketSrc) (lid : Half) (l : Launch) (n : Nat) :
    ({ s.offered src lid l with orderNext := n } : State).usable = s.usable := by
  obtain ⟨f, q, hoff⟩ := s.offered_frame src lid l
  obtain ⟨_, _, _, _, _, _, _, _, _, htake⟩ := s.takePacket_frame src (some lid)
  rw [hoff, htake]
  rfl

theorem State.wanted_offered (s : State) (src : PacketSrc) (lid : Half) (l m : Launch) (n k : Nat) (t : Tables) :
    ({ s.offered src lid l with orderNext := n } : State).wanted { m.keep t with order := k } = s.wanted m := by
  unfold State.wanted
  rw [State.usable_offered]
  rfl

theorem State.orderNext_offered (s : State) (src : PacketSrc) (lid : Half) (l : Launch) : (s.offered src lid l).orderNext = s.orderNext := by
  obtain ⟨f, q, hoff⟩ := s.offered_frame src lid l
  obtain ⟨_, _, _, _, _, _, _, _, _, htake⟩ := s.takePacket_frame src (some lid)
  rw [hoff, htake]

/-- A launch of another level that waits behind one of level 0 (R66). -/
def State.Behind (s : State) (l : Launch) : Prop := l.level ≠ 0 ∧ ∃ x ∈ s.launches, x.state = .waitBundles ∧ x.level = 0

theorem State.urgentWaits_offered (s : State) (src : PacketSrc) (lid : Half) (hl : l.state ≠ .waitBundles) (m : Launch) (n k : Nat) (t : Tables) :
    ({ s.offered src lid l with orderNext := n } : State).urgentWaits { m.keep t with order := k } = true ↔ s.Behind m := by
  have hlist : ({ s.offered src lid l with orderNext := n } : State).launches = s.launches ++ [l] := s.offered_launches src lid l
  have hlevel : ({ m.keep t with order := k } : Launch).level = m.level := rfl
  rw [State.urgentWaits, hlist, hlevel, State.Behind]
  simp [hl]

/-- Where a launch goes that the bundles can serve: to those it gets, or to the list of those that wait. -/
theorem State.admitLaunch_offered (s : State) (src : PacketSrc) (lid : Half) (hl : l.state = .waitSlot) (t : Tables) (hw : (s.wanted l).2 ≤ s.usable.length) :
    (s.Behind l ∨ s.choose (l.keep t) = none → (s.offered src lid l).admitLaunch l t =
      ({ s.offered src lid l with orderNext := s.orderNext + 1 } : State).setLaunch { l.keep t with order := s.orderNext, state := .waitBundles }) ∧
    ∀ bs, ¬ s.Behind l → s.choose (l.keep t) = some bs → (s.offered src lid l).admitLaunch l t =
      ({ s.offered src lid l with orderNext := s.orderNext + 1 } : State).startLaunch { l.keep t with order := s.orderNext } bs := by
  have hrun : l.state ≠ .running := by rw [hl]; decide
  have hwait : l.state ≠ .waitBundles := by rw [hl]; decide
  have hchoose := s.choose_offered src lid hrun (l.keep t) (s.orderNext + 1) s.orderNext
  have hurgent := s.urgentWaits_offered src lid hwait l (s.orderNext + 1) s.orderNext t
  have henough : ¬ ({ s.offered src lid l with orderNext := s.orderNext + 1 } : State).usable.length <
      (({ s.offered src lid l with orderNext := s.orderNext + 1 } : State).wanted { l.keep t with order := s.orderNext }).2 := by
    rw [State.usable_offered, State.wanted_offered]
    exact Nat.not_lt_of_le hw
  rw [State.admitLaunch, State.orderNext_offered, State.placeLaunch, if_neg henough, hchoose]
  refine ⟨fun h => ?_, fun bs hbehind hbs => ?_⟩
  · have hnone : (if ({ s.offered src lid l with orderNext := s.orderNext + 1 } : State).urgentWaits { l.keep t with order := s.orderNext } = true then none
        else s.choose (l.keep t)) = none := by
      split
      · rfl
      · rename_i hnot
        exact h.resolve_left fun hb => hnot (hurgent.mpr hb)
    rw [hnone]
  · rw [if_neg (fun hu => hbehind (hurgent.mp hu)), hbs]

/-- A launch on the bundles that it gets. -/
def State.onBundles (s : State) (l : Launch) (bs : List Nat) : Launch :=
  { l with state := .running, bundles := bs, areaLow := bs.filter (fun b => !(s.holders b).isEmpty),
           groups := l.lists.map (fun g => (g.1, membersOf (8 * bs.length) g.2)) }

/-- The device that is ready for a launch's root message. -/
def State.prepared (s : State) (l : Launch) (bs : List Nat) : State :=
  let u := bs.foldl (fun u b => u.startScratch (s.onBundles l bs) b ((s.onBundles l bs).areaLow.contains b)) ((s.setLaunch (s.onBundles l bs)).newVectors l.lid bs)
  if (s.onBundles l bs).pile then bs.foldl (fun u b => u.setPile b l.lid (u.pileOf b l.lid)) u else u

/-- The root message of a launch (R113). -/
def Launch.rootFlight (l : Launch) : Flight :=
  { id := 0, dst := l.coreAt 0, src := none, msg := { w0 := deliverW0 (l.w 1), w1 := header1 0x3FFF 0 0 l.lid 4 2 false false, pay := l.root },
    ctx := l.ctx, lid := some l.lid, counted := false, outside := false, deps := [], held := false }

theorem State.startLaunch_eq (hg : l.lists = []) (bs : List Nat) : s.startLaunch l bs = (s.prepared l bs).post (s.onBundles l bs).rootFlight := by
  have hfew : ¬ (List.range (8 * bs.length)).any (fun o => decide (4 < ((l.lists.map (fun g => (g.1, membersOf (8 * bs.length) g.2))).filter
      (fun g => g.2.contains o)).length)) = true := by
    simp [hg]
  unfold State.startLaunch
  exact if_neg hfew

theorem State.prepared_launches (s : State) (l : Launch) (bs : List Nat) : (s.prepared l bs).launches = (s.setLaunch (s.onBundles l bs)).launches := by
  have hscratch : SameRoster ((s.setLaunch (s.onBundles l bs)).newVectors l.lid bs)
      (bs.foldl (fun u b => u.startScratch (s.onBundles l bs) b ((s.onBundles l bs).areaLow.contains b)) ((s.setLaunch (s.onBundles l bs)).newVectors l.lid bs)) :=
    SameRoster.refl.foldl fun _ _ hv => hv.startScratch
  have hpile := SameRoster.ite (c := (s.onBundles l bs).pile) (hscratch.foldl (l := bs) (f := fun u b => u.setPile b l.lid (u.pileOf b l.lid)) fun _ _ hv => hv) hscratch
  exact hpile.2.1

/-- A launch without groups starts on its bundles, and its root message is on its way to ordinal 0. -/
theorem State.startLaunch_runs {x : Launch} (hx : s.launch l.lid = some x) (hg : l.lists = []) (bs : List Nat) :
    (s.startLaunch l bs).launch l.lid = some (s.onBundles l bs) ∧
    ∃ f ∈ (s.startLaunch l bs).net, f.dst = (s.onBundles l bs).coreAt 0 ∧ f.msg.pay = l.root ∧ f.lid = some l.lid ∧
      f.msg.w1 = header1 0x3FFF 0 0 l.lid 4 2 false false := by
  rw [State.startLaunch_eq hg]
  refine ⟨?_, _, List.mem_append_right _ (List.mem_singleton_self _), rfl, rfl, rfl, rfl⟩
  rw [State.launch, State.post_launches, State.prepared_launches]
  exact State.launch_setLaunch (l := s.onBundles l bs) hx

/-- A root message is of kind 2. -/
theorem msgKind_root (lid : Half) : msgKind (header1 0x3FFF 0 0 lid 4 2 false false) = 2 := by
  have hlid : lid.toNat < 2 ^ 16 := lid.isLt
  simp only [msgKind, header1, bits_or, Bool.false_eq_true, if_false]
  rw [bits_at64_below (n := 14) (by decide) (by decide), bits_at64_below (n := 2) (by decide) (by decide), bits_at64_below (n := 16) (by decide) (by decide),
    bits_at64_below (n := 16) hlid (by decide), bits_at64_below (n := 3) (by decide) (by decide), bits_at64_self (by decide) (by decide) (by decide),
    bits_at64_above _ (by decide) (by decide), bits_at64_above _ (by decide) (by decide)]
  rfl

end

/-! ## The verdicts together -/

section

variable {s : State} {src : PacketSrc} {lid : Half} {p : Packet} {hint : Nat} {l : Launch}

/-- How a program's INVOKE learns the id of its launch (R320). -/
def Prog.learns (lid : Half) (p : Prog) : Prog :=
  match p.await with
  | .launch a (some _) _ st => { p with await := .launch a none (some lid) st }.remember ownerFront p.mark (lid.setWidth 64)
  | _ => p

theorem Prog.learns_slot (lid : Half) (p : Prog) : (p.learns lid).slot = p.slot := by
  unfold Prog.learns
  split <;> rfl

/-- The program whose INVOKE a packet came from waits for the launch that took it (R320). -/
theorem State.takePacket_awaits {slot : Nat} {pr : Prog} {a : LIdx} {ws : List Word} {x : Option Half} (hp : s.prog slot = some pr)
    (hw : pr.await = .launch a (some ws) x none) : (s.takePacket (.invoke slot) (some lid)).awaitsIn slot a lid none := by
  have hslot : ∀ q : Prog, (if q.slot = slot then q.learns lid else q).slot = q.slot := by
    intro q
    split
    · exact Prog.learns_slot lid q
    · rfl
  have hmap : (s.takePacket (.invoke slot) (some lid)).progs = s.progs.map (fun q => if q.slot = slot then q.learns lid else q) := rfl
  refine ⟨pr.learns lid, ?_, ?_⟩
  · rw [State.prog_of_map hslot hmap, hp, Option.map_some, if_pos (State.slot_of_prog hp)]
  · rw [Prog.learns, hw]
    rfl

theorem State.offered_progs (s : State) (src : PacketSrc) (lid : Half) (l : Launch) : (s.offered src lid l).progs = (s.takePacket src (some lid)).progs := by
  obtain ⟨_, _, h⟩ := s.offered_frame src lid l
  rw [h]

theorem State.offered_granted (s : State) (src : PacketSrc) (lid : Half) (l : Launch) (ctx : Half) (va : Word) (len : Nat) (r : BitVec 4) (win : Bool) :
    (s.offered src lid l).granted ctx va len r win = (s.takePacket src (some lid)).granted ctx va len r win := by
  obtain ⟨n, q, h⟩ := s.offered_frame src lid l
  rw [h]
  exact State.granted_notes (s.takePacket src (some lid)) n q _ (s.takePacket src (some lid)).children va len win

/-- A launch id that was free is a new launch's alone. -/
theorem State.refuseLaunch_offered (hl : s.freeLid hint = some lid) (hlid : l.lid = lid) (n : Nat) :
    ((s.offered src lid l).refuseLaunch l n).launches = s.launches := by
  rw [State.refuseLaunch_launches, State.offered_launches, List.filter_append, hlid]
  have hall : s.launches.filter (fun x => decide (x.lid ≠ lid)) = s.launches :=
    List.filter_eq_self.mpr fun x hx => decide_eq_true (State.freeLid_free hl x hx)
  have hone : [l].filter (fun x => decide (x.lid ≠ lid)) = [] := by simp [hlid]
  rw [hall, hone, List.append_nil]

/-- An offered launch's record is where its context may write, as the taking of its packet left it. -/
theorem State.refuseLaunch_offered_record {b : Block} (n : Nat) (hal : l.crec.toNat % 128 = 0)
    (hg : (s.takePacket src (some lid)).granted l.ctx l.crec 128 rWR true = .ok [b]) (hslot : l.sslot = 0)
    (hram : inRam (s.takePacket src (some lid)) b.bus 128) (hown : unowned (s.takePacket src (some lid)) b.bus 128) :
    ((s.offered src lid l).refuseLaunch l n).rd64 b.bus = statusWord n l.lid ∧
    holds ((s.offered src lid l).refuseLaunch l n) (b.bus + 8) (l.accst.bytes ++ List.replicate 104 0) := by
  obtain ⟨k, q, hoff⟩ := s.offered_frame src lid l
  refine State.refuseLaunch_record n hal ((s.offered_granted src lid l _ _ _ _ _).trans hg) hslot ?_ ?_
  · rw [hoff]
    exact hram
  · rw [hoff]
    exact hown

/-- A word that is published in a slot (R112). -/
theorem publish_word {n : Nat} (hn : n < 2 ^ 16) : at64 n 0 ||| at64 1 63 = BitVec.ofNat 64 (n + 2 ^ 63) := by
  have hor : 2 ^ 63 * 1 + n = 2 ^ 63 * 1 ||| n := Nat.two_pow_add_eq_or_of_lt (by omega) 1
  rw [at64, at64, ← BitVec.ofNat_or, Nat.add_comm, Nat.or_comm, Nat.pow_zero, Nat.mul_one, Nat.mul_comm 1, ← hor, Nat.mul_one]

/-- Taking a packet of a queue or of an activation touches no program. -/
theorem State.takePacket_progs (hsrc : ∀ slot, src ≠ .invoke slot) (i : Option Half) : (s.takePacket src i).progs = s.progs := by
  unfold State.takePacket
  split
  · split
    · rfl
    · dsimp only [State.wr64]
      rw [State.wr_frame]
      rfl
  · rfl
  · exact absurd rfl (hsrc _)
  · rfl

/-- NEEDED as the slot that the launch waits for shows it (R112). -/
theorem State.publish_offered {a x : Nat} (hp : s.packet src = some p) (st : Stamp) (ha : s.slotAddr (newLaunch lid p st) x = some a) {n : Nat} (hn : n < 2 ^ 16)
    (hram : inRam s (a + 8) 8) (hown : unowned s (a + 8) 8) :
    ((s.offered src lid l).publish (some a) n).rd64 (a + 8) = BitVec.ofNat 64 (n + 2 ^ 63) := by
  have hsrc : ∀ slot, src ≠ .invoke slot := by
    rintro slot rfl
    have hq : (newLaunch lid p st).queued = none := by
      rcases (State.packet_src hp).2 with ⟨-, q, hq⟩ | ⟨-, q, hq⟩ | hslots
      · cases hq
      · cases hq
      · exact hslots
    rw [State.slotAddr, hq] at ha
    cases ha
  have hprogs : (s.offered src lid l).progs = s.progs := (s.offered_progs src lid l).trans (State.takePacket_progs hsrc _)
  obtain ⟨k, q, hoff⟩ := s.offered_frame src lid l
  obtain ⟨_, _, _, _, _, _, _, ps, _, htake⟩ := s.takePacket_frame src (some lid)
  rw [htake] at hoff
  have hps : ps = s.progs := by rw [← hprogs, hoff]
  subst hps
  have hlast : Lasting (s.offered src lid l) (a + 8) 8 := by
    rw [hoff]
    exact Lasting.of_inRam hram
  have hfree : unowned (s.offered src lid l) (a + 8) 8 := by
    rw [hoff]
    exact hown
  have hlen (x : Nat) : (leBytes 8 x).length = 8 := length_leBytes 8 x
  rw [State.publish, State.wrRw_eq_wr _ (by rwa [hlen]), ← publish_word hn]
  exact hlast.rd64_wr64 _

end

/-- Settles O34, by the front end's verdict on the launch behind the taking of its packet. -/
theorem launchPacketResult : Obligations.LaunchPacketResult := by
  intro s src hint p lid hp hl hk
  have hnone := State.launch_freeLid hl
  have hexec := execLaunchPacket_verdict hp hl hk
  generalize hnew : newLaunch lid p s.stamp = l at hexec ⊢
  have hlid : l.lid = lid := by rw [← hnew]; rfl
  have hstate : l.state = .waitSlot := by rw [← hnew]; rfl
  have hacc : l.accst = s.stamp := by rw [← hnew]; rfl
  subst hlid
  refine ⟨fun n hcheck => ?_, fun t hcheck => ⟨fun a hw ha => ?_, fun hno hmany => ?_⟩⟩
  · rw [hcheck] at hexec
    refine ⟨_, if (s.offered src l.lid l).recordable l then l.lid else 0, hexec, ?_, State.refuseLaunch_offered hl rfl n, by split <;> simp, ?_, ?_⟩
    · show ((s.offered src l.lid l).refuseLaunch l n).launch l.lid = none
      rw [State.launch, State.refuseLaunch_offered hl rfl n]
      exact hnone
    · rintro slot pr a ws x rfl hprog hawait
      have hsrc : l.src = .invoke slot := by rw [← hnew]; exact (State.packet_src hp).1 slot rfl
      have hwaits : (s.offered (.invoke slot) l.lid l).awaitsIn slot a l.lid none :=
        State.awaitsIn_congr (s.offered_progs _ l.lid l) (State.takePacket_awaits hprog hawait)
      exact State.refuseLaunch_tells hsrc n hwaits
    · intro v b hal hg
      refine ⟨if_pos (State.recordable_of_granted hal ((s.offered_granted src l.lid l _ _ _ _ _).trans hg)), fun hslot hram hown => ?_⟩
      have hrec := State.refuseLaunch_offered_record n hal hg hslot hram hown
      rwa [hacc] at hrec
  · have hsame := State.slotAddr_offered (lid := l.lid) hp l.lid l l.wslot s.stamp
    rw [hnew] at hsame
    rw [hcheck, State.verdict, if_neg hw, hsame, ha] at hexec
    change exec (.launchPacket src hint) s = .next ((s.offered src l.lid l).publish (some a) (bits (l.w 0) 63 48)) at hexec
    refine ⟨_, hexec, ?_, hstate, fun hram hown => ?_⟩
    · exact ((s.offered src l.lid l).publish_memOnly (some a) _).launches.trans (s.offered_launches src l.lid l)
    · exact State.publish_offered hp s.stamp (by rw [hnew]; exact ha) (Nat.mod_lt _ (by decide)) hram hown
  · have hslot : (if l.wslot = 0 then none else (s.offered src l.lid l).slotAddr l l.wslot) = none := by
      split
      · rfl
      · rename_i hw
        have hsame := State.slotAddr_offered (lid := l.lid) hp l.lid l l.wslot s.stamp
        rw [hnew] at hsame
        exact hsame.trans (hno.resolve_left hw)
    rw [hcheck, State.verdict, hslot] at hexec
    change exec (.launchPacket src hint) s = .next ((s.offered src l.lid l).admitLaunch l t) at hexec
    obtain ⟨hwaits, hstarts⟩ := s.admitLaunch_offered src l.lid hstate t hmany
    refine ⟨fun h => ⟨_, hexec, ?_⟩, fun bs hbehind hbs hlists => ?_⟩
    · have hfresh : ∀ x ∈ s.launches, x.lid ≠ l.lid := State.freeLid_free hl
      rw [hwaits h]
      refine ⟨rfl, ?_⟩
      show (s.offered src l.lid l).launches.map _ = _
      rw [s.offered_launches, List.map_append]
      congr 1
      · exact (List.map_congr_left fun x hx => if_neg (hfresh x hx)).trans (List.map_id _)
      · exact congrArg (fun x => [x]) (if_pos rfl)
    · rw [hstarts bs hbehind hbs] at hexec
      have hmine : ({ s.offered src l.lid l with orderNext := s.orderNext + 1 } : State).launch l.lid = some l := by
        show (s.offered src l.lid l).launches.find? _ = some l
        rw [s.offered_launches, List.find?_append, show s.launches.find? (fun x => decide (x.lid = l.lid)) = none from hnone]
        simp
      obtain ⟨hrun, f, hf, hdst, hpay, hflid, hw1⟩ := State.startLaunch_runs (s := { s.offered src l.lid l with orderNext := s.orderNext + 1 })
        (l := { l.keep t with order := s.orderNext }) (x := l) hmine hlists bs
      refine ⟨_, _, hexec, hrun, rfl, rfl, rfl, ?_, rfl, f, hf, hdst, hpay, hflid, ?_⟩
      · rw [← hnew]; rfl
      · rw [hw1]
        exact msgKind_root _

end Sys2Proof.Machine
end

section
/-!
Block operations, MST and copies at their completion (R101, R108, R145, R151, R283, R288): O43.
-/

namespace Sys2Proof.Machine

open Sys2Proof Sys2Proof.Claims

/-! ## A completion message that finds room -/

/-- A field that lies below a bit, or above it, does not set it. -/
theorem getLsbD_at64_small {x n lo i : Nat} (hx : x < 2 ^ n) (h : lo + n ≤ i ∨ i < lo) : (at64 x lo).getLsbD i = false := by
  rw [getLsbD_at64]
  rcases h with h | h
  · rw [Nat.testBit_lt_two_pow (Nat.lt_of_lt_of_le hx (Nat.pow_le_pow_right (by decide) (by omega))), Bool.and_false, Bool.and_false]
  · rw [decide_eq_false (p := lo ≤ i) (by omega), Bool.false_and, Bool.and_false]

/-- A completion carries no mark (R101). -/
theorem msgMark_completion (o : Op) {kind scope : Nat} (ht : o.t.ts < 4) (hk : kind < 16) (hs : scope < 8) (pay : Vec) :
    msgMark (completion o kind scope pay).w1 = false := by
  have hseq : o.seq.toNat % 65536 % 2 ^ 16 < 2 ^ 16 := Nat.mod_lt _ (by decide)
  have hsrc : o.t.core.idx % 2 ^ 14 < 2 ^ 14 := Nat.mod_lt _ (by decide)
  have hlid : (o.lid.getD 0).toNat < 2 ^ 16 := (o.lid.getD 0).isLt
  have hkernel : (if o.t.core.kernel then 1 else 0) < 2 ^ 1 := by split <;> decide
  simp only [msgMark, completion, header1, BitVec.getLsbD_or, Bool.false_eq_true, if_false]
  rw [getLsbD_at64_small hsrc (.inl (by decide)), getLsbD_at64_small (n := 2) ht (.inl (by decide)), getLsbD_at64_small hseq (.inl (by decide)),
    getLsbD_at64_small hlid (.inl (by decide)), getLsbD_at64_small (n := 3) hs (.inl (by decide)), getLsbD_at64_small (n := 4) hk (.inl (by decide)),
    getLsbD_at64_small (n := 0) (x := 0) (by decide) (.inl (by decide)), getLsbD_at64_small hkernel (.inr (by decide))]
  rfl

/-- What differs behind a message that has entered a core's basket: the core, but for its rings, and what its launch counts. -/
structure Entered (s u : State) (c : CoreId) (m : Msg) : Prop where
  frame : u = { s with cores := u.cores, launches := u.launches }
  basket : entered s u c m
  brd : ∀ x, u.inBrd x = s.inBrd x

section

variable {s u : State} {c : CoreId} {ctx : Half} {lid : Option Half} {m : Msg}

theorem Entered.rdByte (h : Entered s u c m) (x : Nat) : u.rdByte x = s.rdByte x := by
  have hbrd := h.brd x
  have hframe := h.frame
  unfold State.rdByte
  rw [hbrd, hframe]
  rfl

theorem CoreSt.took_rings (k : CoreSt) (m : Msg) : (k.took m).rings = k.rings := by rw [CoreSt.took, CoreSt.noteDup_frame]

/-- A message without a mark enters where its core has a free slot (R103). -/
theorem State.enter_roomy (hr : roomy s c ctx lid) (hm : msgMark m.w1 = false) : ∃ u, s.enter c ctx lid true true m = some u ∧ Entered s u c m := by
  obtain ⟨-, himg, hfrz, hroom, hmembk, hring⟩ := hr
  have hdup : (s.core c).dup m = false := by
    rw [CoreSt.dup, hm]
    rfl
  refine ⟨_, State.enter_slot himg hdup (State.place_slot himg hfrz hroom hmembk hring m) lid true true, ?_⟩
  have hbrd : ∀ x, (s.setCore c ((s.core c).took m)).inBrd x = s.inBrd x := s.inBrd_setCore (CoreSt.took_rings _ m)
  have hbasket : ((s.setCore c ((s.core c).took m)).core c).basket = (s.core c).basket ++ [m] := by
    rw [show (s.setCore c ((s.core c).took m)).core c = (s.core c).took m from Assoc_getD_set_self _ _ _ _, CoreSt.took_basket]
  simp only [if_true]
  cases lid with
  | none => exact ⟨rfl, hbasket, hbrd⟩
  | some lid => exact ⟨rfl, hbasket, hbrd⟩

/-- Room on a core depends on the core, its bundle and the launches. -/
theorem roomy_congr (hc : u.cores = s.cores) (hb : u.bundles = s.bundles) (hl : u.launches = s.launches) (h : roomy s c ctx lid) : roomy u c ctx lid := by
  simpa only [roomy, State.launch, State.frozenImg, State.freezingOn, State.core, State.bundle, hc, hb, hl] using h

end

/-! ## Bytes that a completion writes -/

section

variable {s u w : State} {a x : Nat} {d : List Byte}

theorem State.readOnly_wrFree (s : State) (a x : Nat) (b : Byte) : (s.wrFree a b).readOnly x = s.readOnly x := by
  unfold State.wrFree
  split
  · rfl
  · exact s.readOnly_wrByte a x b

/-- A byte that its owner alone writes stays (R7). -/
theorem State.rdByte_wrRw_owned (hx : s.readOnly x = true) : (s.wrRw a d).rdByte x = s.rdByte x := by
  induction d generalizing s a with
  | nil => rfl
  | cons b r ih =>
    rw [State.wrRw, ih ((s.readOnly_wrFree a x b).trans hx)]
    by_cases ha : x = a
    · subst ha
      rw [State.wrFree_readOnly s x b hx]
    · exact State.rdByte_wrFree_ne s a x b ha

theorem State.dropOp_wrByte (s : State) (id a : Nat) (b : Byte) : (s.wrByte a b).dropOp id = (s.dropOp id).wrByte a b := by
  unfold State.wrByte
  split
  · rfl
  · exact (apply_ite (fun u => State.dropOp u id) _ _ _)

theorem State.dropOp_wrRw (s : State) (id a : Nat) (d : List Byte) : (s.wrRw a d).dropOp id = (s.dropOp id).wrRw a d := by
  induction d generalizing s a with
  | nil => rfl
  | cons b r ih =>
    have hfree : (s.wrFree a b).dropOp id = (s.dropOp id).wrFree a b := by
      unfold State.wrFree
      rw [apply_ite (fun u => State.dropOp u id), s.dropOp_wrByte]
      rfl
    rw [State.wrRw, ih, hfree, State.wrRw]

/-- The end of an operation that has written, and whose message has entered. -/
theorem State.completed {id : Nat} {c : CoreId} {m : Msg} (h : Entered ((s.wrRw a d).dropOp id) u c m) :
    opGone s u id ∧ entered s u c m ∧ storedOnly s u a d.length ∧ (plain u a d.length → unowned s a d.length → holds u a d) ∧
    ∀ n, plain s a n → plain u a n := by
  have hmem := (s.dropOp id).wrRw_memOnly d a
  rw [← State.dropOp_wrRw] at hmem
  have hbrd : ∀ y, u.inBrd y = (s.dropOp id).inBrd y := by
    intro y
    rw [h.brd, hmem]
    rfl
  have hread : ∀ y, u.rdByte y = ((s.dropOp id).wrRw a d).rdByte y := fun y => (h.rdByte y).trans (by rw [State.dropOp_wrRw])
  have hch : ∀ y, u.noChannel y = s.noChannel y := fun y => by
    rw [h.frame, hmem]
    rfl
  refine ⟨?_, ?_, fun y hy hout => ?_, fun hplain hfree => ?_, fun n hplain i hi => ⟨?_, fun hlow => (hch _).trans ((hplain i hi).2 hlow)⟩⟩
  · rw [opGone, h.frame, hmem]
    rfl
  · have hb := h.basket
    rw [hmem] at hb
    exact hb
  · rw [hread, ← State.rdByte_dropOp id hy]
    rcases hout with hlow | hhigh | hown
    · exact State.rdByte_wrRw_outside d _ a y (.inl hlow)
    · exact State.rdByte_wrRw_outside d _ a y (.inr hhigh)
    · exact State.rdByte_wrRw_owned (s := s.dropOp id) hown
  · have hlast : Lasting (s.dropOp id) a d.length := by
      exact Lasting.of_plain fun i hi => ⟨(hbrd _).symm.trans (hplain i hi).1, fun hlow => (hch _).symm.trans ((hplain i hi).2 hlow)⟩
    rw [holds, State.rd_congr fun i _ => hread (a + i), State.wrRw_eq_wr d (s := s.dropOp id) hfree]
    exact Lasting.rd_wr d hlast
  · rw [hbrd]
    exact Bool.eq_false_iff.mpr fun hd => Bool.false_ne_true ((hplain i hi).1.symm.trans (s.inBrd_drop id _ hd))

end

/-! ## Block operations and MST -/

section

variable {s : State} {o : Op} {id : Nat} {d g : Seg}

theorem overlapsOf_none {src : List Seg} (h : ∀ g ∈ src, g.overlaps d = false) : overlapsOf src [d] = [] := by
  rw [overlapsOf, List.flatMap_cons, List.flatMap_nil, List.append_nil, List.filterMap_eq_nil_iff]
  intro g hg
  have hno := h g hg
  simp only [Seg.overlaps, Bool.and_eq_false_iff, decide_eq_false_iff_not] at hno
  exact if_neg (by omega)

/-- Source pieces that no firewall drops are read as they stand. -/
theorem State.take_open {src : List Seg} (h : ∀ g ∈ src, s.barred g.bus = false) : src.flatMap s.take_ = src.flatMap (fun g => s.rd g.bus g.len) :=
  List.flatMap_congr fun g hg => by rw [State.take_, h g hg, if_neg Bool.false_ne_true]

theorem State.noteBars_openPieces {src : List Seg} (h : ∀ g ∈ src, s.barred g.bus = false) : src.foldl State.noteBar s = s := by
  induction src with
  | nil => rfl
  | cons g r ih =>
    obtain ⟨hg, hr⟩ := List.forall_mem_cons.mp h
    rw [List.foldl_cons, State.noteBar, hg, if_neg Bool.false_ne_true, ih hr]

/-- A block operation moves its source's bytes to a destination that shares none with it (R279, R283). -/
theorem State.blockNow_moves (hd : o.dst = [d]) (hopen : ∀ g ∈ d :: o.segs, s.barred g.bus = false) (hover : ∀ g ∈ o.segs, g.overlaps d = false)
    (hlen : (o.segs.flatMap (fun g => s.rd g.bus g.len)).length = d.len) :
    s.blockNow o = (s.wrRw d.bus (o.segs.flatMap (fun g => s.rd g.bus g.len))).dropOp o.id := by
  obtain ⟨hdst, hsrc⟩ := List.forall_mem_cons.mp hopen
  unfold State.blockNow
  rw [hd, overlapsOf_none hover, State.take_open hsrc, State.noteBars_openPieces hsrc]
  dsimp only [List.foldl_cons, List.foldl_nil]
  rw [State.put, hdst, if_neg Bool.false_ne_true, ← hlen, List.take_length]

/-- What a block operation tells its issuer (R283). -/
def Op.blockPay (o : Op) : Vec := vec512 (leBytes 8 o.addr.toNat ++ leBytes 8 o.operand.toNat ++ leBytes 4 o.n ++ List.replicate 28 0)

/-- A block operation that is clear of what stands before it and meets no damage is done, once its message has entered. -/
theorem State.blockDone_enters {kind scope : Nat} {u : State} (horph : o.orphan = false) (hheld : o.held = false) (hsent : o.sent = false)
    (hclear : s.clear o (o.segs ++ o.dst) false = true) (hdam : s.blockDamage o = none) (hl : ∀ l, o.lid = some l → (s.blockNow o).launch l ≠ none)
    (hu : (s.blockNow o).enter o.t.core o.ctx o.lid true true (completion o kind scope o.blockPay) = some u) : s.blockDone o kind scope = u := by
  have hlive : ¬ (o.lid.isSome ∧ (o.lid.bind (s.blockNow o).launch).isNone) := by
    rintro ⟨hsome, hnone⟩
    obtain ⟨l, hlid⟩ := Option.isSome_iff_exists.mp hsome
    rw [hlid] at hnone
    exact hl l hlid (Option.isNone_iff_eq_none.mp hnone)
  unfold State.blockDone
  rw [hheld, hsent, hclear, hdam, horph]
  simp only [Bool.not_true, Bool.or_self, Bool.false_eq_true, if_false]
  rw [if_neg hlive]
  change (match (s.blockNow o).enter o.t.core o.ctx o.lid true true (completion o kind scope o.blockPay) with | some u => u | none => _) = u
  rw [hu]

/-- A write leaves a core the room that it had. -/
theorem roomy_written {c : CoreId} {ctx : Half} {lid : Option Half} (hr : roomy s c ctx lid) (a : Nat) (bs : List Byte) (id : Nat) :
    roomy ((s.wrRw a bs).dropOp id) c ctx lid := by
  have hmem := s.wrRw_memOnly bs a
  refine roomy_congr ?_ ?_ ?_ hr
  · rw [hmem]; rfl
  · rw [hmem]; rfl
  · rw [hmem]; rfl

/-- The end of a block operation of either kind (R283). -/
theorem State.blockDone_completes {kind scope : Nat} (hid : o.id = id) (ht : o.t.ts < 4) (horph : o.orphan = false) (hr : roomy s o.t.core o.ctx o.lid)
    (hheld : o.held = false) (hsent : o.sent = false) (hclear : s.clear o (o.segs ++ o.dst) false = true) (hdam : s.blockDamage o = none)
    (hd : o.dst = [d]) (hopen : ∀ g ∈ d :: o.segs, s.barred g.bus = false) (hover : ∀ g ∈ o.segs, g.overlaps d = false)
    (hlen : (o.segs.flatMap (fun g => s.rd g.bus g.len)).length = d.len) (hk : kind < 16) (hs : scope < 8) :
    opGone s (s.blockDone o kind scope) id ∧
    (plain (s.blockDone o kind scope) d.bus d.len → unowned s d.bus d.len → holds (s.blockDone o kind scope) d.bus (o.segs.flatMap (fun g => s.rd g.bus g.len))) ∧
    storedOnly s (s.blockDone o kind scope) d.bus d.len ∧ entered s (s.blockDone o kind scope) o.t.core (completion o kind scope o.blockPay) := by
  have hnow := State.blockNow_moves hd hopen hover hlen
  have hr' := roomy_written hr d.bus (o.segs.flatMap (fun g => s.rd g.bus g.len)) o.id
  rw [← hnow] at hr'
  obtain ⟨u, hu, hent⟩ := State.enter_roomy hr' (msgMark_completion o ht hk hs o.blockPay)
  rw [State.blockDone_enters horph hheld hsent hclear hdam hr'.1 hu]
  rw [hnow] at hent
  obtain ⟨hgone, hentered, hstored, hholds, -⟩ := State.completed hent
  rw [hlen] at hstored hholds
  exact ⟨hid ▸ hgone, hholds, hstored, hentered⟩

theorem State.recheckOp_issuer {o' : Op} {nr : Bool} (h : s.recheckOp o = .ok (o', nr)) :
    o'.t = o.t ∧ o'.ctx = o.ctx ∧ o'.lid = o.lid ∧ o'.hdr = o.hdr ∧ o'.seq = o.seq ∧ o'.orphan = o.orphan := by
  unfold State.recheckOp at h
  split at h
  · cases h
    exact ⟨rfl, rfl, rfl, rfl, rfl, rfl⟩
  · cases h
  · cases h

/-- What an MST tells its issuer (R145). -/
def Op.mstPay (o : Op) : Vec :=
  vec512 (leBytes 8 o.addr.toNat ++ leBytes 4 o.operand.toNat ++ leBytes 1 (o.mst % 4) ++ leBytes 1 (o.mst / 4) ++ List.replicate 34 0)

theorem execMstComplete_delivers {o' : Op} (hop : s.op id = some o) (hk : o.kind = .mst) (hheld : o.held = false) (hdeps : ∀ d ∈ o.deps, s.pending d = false)
    (hre : s.recheckOp o = .ok (o', false)) (horph : o'.orphan = false) :
    execMstComplete id s = .next ((s.storeNow o').deliver o'.t.core o'.ctx o'.lid (completion o' 8 1 o'.mstPay)) := by
  have hnone : (o.deps.any fun d => s.pending d) = false := List.any_eq_false.mpr fun d hd => by simp [hdeps d hd]
  simp only [execMstComplete, hop, hk, hheld, hnone, hre, horph, ne_eq, not_true, Bool.false_eq_true, or_self, if_false]
  rfl

/-- A completion whose launch has not ended enters where there is room. -/
theorem State.deliver_enters {c : CoreId} {ctx : Half} {lid : Option Half} {m : Msg} {u : State} (hl : ∀ l, lid = some l → s.launch l ≠ none)
    (hu : s.enter c ctx lid true true m = some u) : s.deliver c ctx lid m = u := by
  have hlive : ¬ (lid.isSome ∧ (lid.bind s.launch).isNone) := by
    rintro ⟨hsome, hnone⟩
    obtain ⟨l, rfl⟩ := Option.isSome_iff_exists.mp hsome
    exact hl l rfl (Option.isNone_iff_eq_none.mp hnone)
  rw [State.deliver, if_neg hlive, hu]

theorem State.storeNow_open (hg : o.segs = [g]) (hb : s.barred g.bus = false) : s.storeNow o = (s.wrRw g.bus (sliceB o.data g.off g.len)).dropOp o.id := by
  rw [State.storeNow, hg, List.foldl_cons, List.foldl_nil, State.put, hb, if_neg Bool.false_ne_true]

/-- An MST in one piece writes it and tells its issuer (R145, R339). -/
theorem execMstComplete_writes {o' : Op} (hop : s.op id = some o) (ht : o.t.ts < 4) (horph : o.orphan = false) (hr : roomy s o.t.core o.ctx o.lid)
    (hk : o.kind = .mst) (hheld : o.held = false) (hdeps : ∀ d ∈ o.deps, s.pending d = false) (hre : s.recheckOp o = .ok (o', false)) (hg : o'.segs = [g])
    (hb : s.barred g.bus = false) (hw : writable s g.bus g.len) :
    ∃ u, execMstComplete id s = .next u ∧ opGone s u id ∧ holds u g.bus (sliceB o.data g.off g.len) ∧ storedOnly s u g.bus g.len ∧
      entered s u o.t.core (completion o' 8 1 o'.mstPay) := by
  obtain ⟨hid, -, hdata⟩ := State.recheckOp_keeps hre
  obtain ⟨hts, hctx, hlid, -, -, horph'⟩ := State.recheckOp_issuer hre
  have hoid : o.id = id := State.id_of_op hop
  have hlen : (sliceB o'.data g.off g.len).length = g.len := State.length_sliceB _ _ _
  have hnow := State.storeNow_open hg hb
  have hr' : roomy (s.storeNow o') o'.t.core o'.ctx o'.lid := by
    rw [hnow, hts, hctx, hlid]
    exact roomy_written hr _ _ _
  obtain ⟨u, hu, hent⟩ := State.enter_roomy hr' (msgMark_completion o' (kind := 8) (scope := 1) (hts ▸ ht) (by decide) (by decide) o'.mstPay)
  refine ⟨u, (execMstComplete_delivers hop hk hheld hdeps hre (horph'.trans horph)).trans (by rw [State.deliver_enters hr'.1 hu]), ?_⟩
  rw [hnow] at hent
  obtain ⟨hgone, hentered, hstored, hholds, hplain⟩ := State.completed hent
  rw [hlen] at hstored hholds
  rw [hid, hoid] at hgone
  rw [hdata] at hholds
  rw [hts] at hentered
  exact ⟨hgone, hholds (hplain _ hw.1) hw.2, hstored, hentered⟩

end

/-! ## Pieces that cover a block -/

/-- Pieces that follow each other from a bus address and an offset on, `n` bytes in all. -/
def Tiles : List Seg → Nat → Nat → Nat → Prop
  | [], _, _, n => n = 0
  | g :: r, bus, off, n => g.bus = bus ∧ g.off = off ∧ 0 < g.len ∧ g.len ≤ n ∧ Tiles r (bus + g.len) (off + g.len) (n - g.len)

section

variable {s : State} {l : List Seg} {bus off n : Nat}

theorem Tiles.cutBlock {fuel : Nat} {va : Word} (h : 0 < n → n + va.toNat % 8 ≤ 8 * fuel) : Tiles (Machine.cutBlock fuel va bus n off) bus off n := by
  induction fuel generalizing va bus off n with
  | zero =>
    rw [Machine.cutBlock, Tiles]
    omega
  | succ fuel ih =>
    rw [Machine.cutBlock]
    split
    · rename_i hn
      exact hn
    · rename_i hn
      have hfit := h (Nat.pos_of_ne_zero hn)
      refine ⟨rfl, rfl, ?_, Nat.min_le_left _ _, ih fun hmore => ?_⟩
      · show 0 < min n (8 - va.toNat % 8)
        omega
      · have hpiece : min n (8 - va.toNat % 8) = 8 - va.toNat % 8 := by omega
        rw [hpiece, BitVec.toNat_add, BitVec.toNat_ofNat]
        omega

theorem Tiles.one {va : Word} (h : 0 < n) : Tiles [{ va := va, bus := bus, len := n, off := off }] bus off n :=
  ⟨rfl, rfl, h, Nat.le_refl n, Nat.sub_self n⟩

/-- The pieces of a block of a copy's chunk cover it. -/
theorem Tiles.copySegs {b : Block} (h : 0 < b.len) : Tiles (Machine.copySegs id [b]) b.bus b.off b.len := by
  have hid : ∀ l : List Seg, l.map (fun g => { g with bus := id g.bus }) = l := List.map_id
  rw [Machine.copySegs, hid, List.flatMap_cons, List.flatMap_nil, List.append_nil]
  split
  · exact Tiles.cutBlock (by omega)
  · exact Tiles.one h

/-- Each piece begins in the range. -/
theorem Tiles.mem (h : Tiles l bus off n) : ∀ g ∈ l, ∃ i < n, g.bus = bus + i := by
  induction l generalizing bus off n with
  | nil => exact nofun
  | cons g r ih =>
    obtain ⟨hbus, -, hpos, hle, hrest⟩ := h
    intro x hx
    rcases List.mem_cons.mp hx with rfl | hx
    · exact ⟨0, by omega, hbus⟩
    · obtain ⟨i, hi, hxb⟩ := ih hrest x hx
      exact ⟨g.len + i, by omega, by omega⟩

theorem Tiles.rd (h : Tiles l bus off n) : l.flatMap (fun g => s.rd g.bus g.len) = s.rd bus n := by
  induction l generalizing bus off n with
  | nil =>
    obtain rfl : n = 0 := h
    rfl
  | cons g r ih =>
    obtain ⟨hbus, -, -, hle, hrest⟩ := h
    rw [List.flatMap_cons, ih hrest, hbus, ← State.rd_add, Nat.add_sub_cancel' hle]

theorem State.wrRw_append (d e : List Byte) (s : State) (a : Nat) : s.wrRw a (d ++ e) = (s.wrRw a d).wrRw (a + d.length) e := by
  induction d generalizing s a with
  | nil => rfl
  | cons b r ih =>
    rw [List.cons_append, State.wrRw, ih, State.wrRw, List.length_cons, Nat.add_right_comm, Nat.add_assoc]

theorem sliceB_add {d : List Byte} {m : Nat} (hm : m ≤ n) (h : off + n ≤ d.length) : sliceB d off n = sliceB d off m ++ sliceB d (off + m) (n - m) := by
  have hin : ∀ o k, o + k ≤ d.length → sliceB d o k = (d.drop o).take k := by
    intro o k hk
    rw [sliceB, List.length_take, List.length_drop, Nat.min_eq_left (by omega), Nat.sub_self, List.replicate_zero, List.append_nil]
  rw [hin _ _ h, hin _ _ (by omega), hin _ _ (by omega), ← List.drop_drop, ← List.take_add, Nat.add_sub_cancel' hm]

theorem State.barred_wrRw (s : State) (a : Nat) (d : List Byte) (x : Nat) : (s.wrRw a d).barred x = s.barred x := by
  rw [s.wrRw_memOnly d a]
  rfl

/-- Pieces that no firewall drops are written as one block. -/
theorem Tiles.put {d : List Byte} (h : Tiles l bus off n) (hopen : ∀ i < n, s.barred (bus + i) = false) (hd : off + n ≤ d.length) :
    l.foldl (fun u g => u.put g (sliceB d g.off g.len)) s = s.wrRw bus (sliceB d off n) := by
  induction l generalizing s bus off n with
  | nil =>
    obtain rfl : n = 0 := h
    rw [List.eq_nil_of_length_eq_zero (State.length_sliceB d off 0)]
    rfl
  | cons g r ih =>
    obtain ⟨rfl, rfl, hpos, hle, hrest⟩ := h
    have hfirst : s.put g (sliceB d g.off g.len) = s.wrRw g.bus (sliceB d g.off g.len) := by
      have hfree : s.barred g.bus = false := hopen 0 (by omega)
      rw [State.put, hfree, if_neg Bool.false_ne_true]
    rw [List.foldl_cons, hfirst, ih hrest (fun i hi => ?_) (by omega), sliceB_add hle hd, State.wrRw_append, State.length_sliceB]
    rw [State.barred_wrRw, Nat.add_assoc]
    exact hopen _ (by omega)

/-- A chunk in one block on each side moves as a whole, where no firewall drops any of it (R151). -/
theorem State.copyMove_block {a b : Block} {k : Nat} (hk : 0 < k) (ha : a.len = k) (hb : b.len = k) (hoff : b.off = 0)
    (hopen : ∀ i, i < k → s.barred (a.bus + i) = false ∧ s.barred (b.bus + i) = false) :
    s.copyMove (copySegs id [a]) (copySegs id [b]) = s.wrRw b.bus (s.rd a.bus k) := by
  have hsrc : Tiles (copySegs id [a]) a.bus a.off k := ha ▸ Tiles.copySegs (ha ▸ hk)
  have hdst : Tiles (copySegs id [b]) b.bus 0 k := by
    have h := Tiles.copySegs (b := b) (hb ▸ hk)
    rwa [hb, hoff] at h
  have hfree : ∀ g ∈ copySegs id [a], s.barred g.bus = false := by
    intro g hg
    obtain ⟨i, hi, hbus⟩ := hsrc.mem g hg
    rw [hbus]
    exact (hopen i hi).1
  have hlen : (s.rd a.bus k).length = k := State.length_rd _ _ _
  unfold State.copyMove
  dsimp only
  rw [State.take_open hfree, State.noteBars_openPieces hfree, hsrc.rd, hdst.put (fun i hi => (hopen i hi).2) (by omega), sliceB_whole hlen]

/-- A range that one block holds begins with it. -/
theorem State.check_single {v : View} {va : Word} {r : BitVec 4} {b : Block} (h : s.check v va n r = .ok [b]) : 0 < n ∧ b.off = 0 := by
  rw [State.check, State.checkFrom] at h
  split at h
  · cases h
  · rename_i hn
    dsimp only at h
    split at h
    · cases h
    · split at h
      · cases h
      · cases h
        exact ⟨Nat.pos_of_ne_zero hn, rfl⟩

theorem State.badLine_none (hecc : s.eccMem = []) (hsoft : s.softMem = []) (l : List Seg) : s.badLine l = none := by
  rw [State.badLine, hecc, hsoft]
  induction l.filter (fun x => !(s.barred x.bus)) with
  | nil => rfl
  | cons g r ih => simp

theorem State.copyChunk_moves {v : View} {d : Vec} {pos : Nat} {a b : Block} (hecc : s.eccMem = []) (hsoft : s.softMem = []) (hna : a.nr = false) (hnb : b.nr = false)
    (ha : s.check v (chunkSrc d pos) (chunkLen d pos) rRD = .ok [a]) (hb : s.check v (chunkDst d pos) (chunkLen d pos) rWR = .ok [b]) :
    s.copyChunk id v d pos = (s.copyMove (copySegs id [a]) (copySegs id [b]), .moved (chunkLen d pos)) := by
  have hres : (anyNr [a] || anyNr [b]) = false := by simp [anyNr, hna, hnb]
  unfold State.copyChunk
  dsimp only
  simp only [ha, hb, hres, Bool.false_eq_true, if_false, State.badLine_none hecc hsoft]

end

/-! ## Copy queues -/

/-- A find on a list whose matching elements are all replaced by one that matches. -/
theorem find?_map_replace {α : Type} {p : α → Bool} {q : α} (hq : p q = true) {l : List α} (h : l.any p = true) :
    (l.map (fun x => if p x = true then q else x)).find? p = some q := by
  induction l with
  | nil => cases h
  | cons x r ih =>
    by_cases hx : p x = true
    · simp [hx, hq]
    · simpa [hx] using ih (by simpa [hx] using h)

section

variable {s u : State} {q : CopyQ} {ctx : Half} {level : Nat}

theorem State.copyQ_key (s : State) (ctx : Half) (level : Nat) : (s.copyQ ctx level).ctx = ctx ∧ (s.copyQ ctx level).level = level := by
  unfold State.copyQ
  cases hf : s.copyQs.find? (fun q => decide (q.ctx = ctx) && decide (q.level = level)) with
  | none => exact ⟨rfl, rfl⟩
  | some q => simpa using List.find?_some hf

theorem State.setCopyQ_frame (s : State) (q : CopyQ) : s.setCopyQ q = { s with copyQs := (s.setCopyQ q).copyQs } := by
  unfold State.setCopyQ
  split <;> rfl

theorem State.copyQ_setCopyQ (hc : q.ctx = ctx) (hl : q.level = level) : (s.setCopyQ q).copyQ ctx level = q := by
  subst hc hl
  have hq : (decide (q.ctx = q.ctx) && decide (q.level = q.level)) = true := by simp
  unfold State.setCopyQ State.copyQ
  split
  · rename_i hany
    have hmap : (fun x : CopyQ => if x.ctx = q.ctx ∧ x.level = q.level then q else x) =
        fun x => if (decide (x.ctx = q.ctx) && decide (x.level = q.level)) = true then q else x := by
      funext x
      simp
    have hfind := find?_map_replace (p := fun x : CopyQ => decide (x.ctx = q.ctx) && decide (x.level = q.level)) hq hany
    dsimp only at hfind ⊢
    rw [hmap, hfind]
    rfl
  · rename_i hnone
    have hold : s.copyQs.find? (fun x => decide (x.ctx = q.ctx) && decide (x.level = q.level)) = none := by
      rw [Bool.not_eq_true, List.any_eq_false] at hnone
      exact List.find?_eq_none.mpr hnone
    dsimp only
    rw [List.find?_append, hold]
    simp

theorem CopyE.length_bytes (e : CopyE) : e.bytes.length = 128 := by
  simp [CopyE.bytes]

/-- A queue's header and entries in the save area are memory. -/
theorem State.syncCopyQ_memOnly (s : State) (q : CopyQ) (i : Nat) : MemOnly s (s.syncCopyQ q i) := by
  unfold State.syncCopyQ
  split
  · exact .refl s
  · rename_i a _
    have hheader : MemOnly s ((s.wr64 a (BitVec.ofNat 64 q.head)).wr64 (a + 8) (BitVec.ofNat 64 (q.head + q.ents.length))) :=
      (s.wr_memOnly a _).trans (State.wr_memOnly _ _ _)
    dsimp only
    split
    · exact hheader
    · exact hheader.trans (State.wr_memOnly _ _ _)

/-- They lie in the queue's part of the save area (R150, R189). -/
theorem State.syncCopyQ_outside {x : Nat} (i : Nat) (h : ∀ a, s.copyQBase q.ctx q.level = some a → x < a ∨ a + 0x9000 ≤ x) :
    (s.syncCopyQ q i).rdByte x = s.rdByte x := by
  unfold State.syncCopyQ
  split
  · rfl
  · rename_i a ha
    have hx := h a ha
    have hheader : ((s.wr64 a (BitVec.ofNat 64 q.head)).wr64 (a + 8) (BitVec.ofNat 64 (q.head + q.ents.length))).rdByte x = s.rdByte x := by
      rw [State.rdByte_wr64_outside _ _ (by omega), State.rdByte_wr64_outside _ _ (by omega)]
    dsimp only
    split
    · exact hheader
    · rw [State.rdByte_wr_outside _ _ _ _ (by rw [CopyE.length_bytes]; omega), hheader]

/-- The device with a queue changed, and its header and one entry written to the save area (R150). -/
def State.keepCopyQ (s : State) (q : CopyQ) (i : Nat) : State := (s.setCopyQ q).syncCopyQ q i

theorem State.copyQ_keepCopyQ (hc : q.ctx = ctx) (hl : q.level = level) (i : Nat) : (s.keepCopyQ q i).copyQ ctx level = q := by
  have hmem := (s.setCopyQ q).syncCopyQ_memOnly q i
  have hq := State.copyQ_setCopyQ (s := s) hc hl
  rw [State.keepCopyQ, hmem]
  exact hq

theorem State.keepCopyQ_outside {x : Nat} (i : Nat) (h : ∀ a, s.copyQBase q.ctx q.level = some a → x < a ∨ a + 0x9000 ≤ x) :
    (s.keepCopyQ q i).rdByte x = s.rdByte x := by
  have hset := s.setCopyQ_frame q
  have hbase : ∀ a, (s.setCopyQ q).copyQBase q.ctx q.level = some a → x < a ∨ a + 0x9000 ≤ x := by
    rw [hset]
    exact h
  rw [State.keepCopyQ, State.syncCopyQ_outside i hbase, hset]
  rfl

theorem State.keepCopyQ_frame (s : State) (q : CopyQ) (i : Nat) : ∃ l, MemOnly { s with copyQs := l } (s.keepCopyQ q i) := by
  have hmem := (s.setCopyQ q).syncCopyQ_memOnly q i
  rw [s.setCopyQ_frame q] at hmem
  exact ⟨_, by rw [State.keepCopyQ, s.setCopyQ_frame q]; exact hmem⟩

end

/-! ## The engine's event -/

section

variable {s : State} {o : Op} {i level : Nat} {e : CopyE} {q : CopyQ}

/-- The operation of the entry at HEAD is the one that the entry names. -/
theorem State.copyHead_entry (h : s.copyHead q = some (e, o)) : o.id = e.op := by
  unfold State.copyHead at h
  split at h
  · cases h
  · rename_i head _ _
    dsimp only at h
    generalize (if (s.op head.op).isSome = true then s.ops else s.frozenOps) = ops at h
    split at h
    · cases h
    · rename_i hfind
      split at h
      · cases h
      · cases h
        exact of_decide_eq_true (List.find?_some (p := fun o : Op => decide (o.id = e.op)) hfind)

/-- The operation at HEAD is outstanding, and no captured one. -/
theorem State.copyHead_live (hop : s.op i = some o) (h : s.copyHead q = some (e, o)) : (s.op e.op).isNone = false := by
  rw [← State.copyHead_entry h, State.id_of_op hop, hop]
  rfl

/-- How a queue stands when `n` more bytes of its entry at HEAD have moved. -/
def CopyQ.advanced (q : CopyQ) (e : CopyE) (n : Nat) : CopyQ := { q with ents := { e with prog := e.prog + n } :: q.ents.drop 1 }

/-- The engines' turns, where a queue's entry has been begun. -/
def State.turnsTaken (s : State) (ctx : Half) (level : Nat) (e : CopyE) (n : Nat) : List (Nat × Half) :=
  if e.prog + n = n then s.copyTurn.filter (fun x => decide (x ≠ (level, ctx))) ++ [(level, ctx)] else s.copyTurn

/-- An entry whose bytes have all moved is done (R288). -/
theorem execCopyEngineChunk_done {ctx : Half} (hop : s.op i = some o) (h : s.copyHead (s.copyQ ctx level) = some (e, o))
    (hturn : s.copyTurnOk (s.copyQ ctx level) = true) (hall : dRowLen e.desc * dRows e.desc ≤ e.prog) :
    execCopyEngineChunk ctx level s = .next (s.copyDone (s.copyQ ctx level) e o 0) := by
  have hlive := State.copyHead_live hop h
  unfold execCopyEngineChunk
  simp only [h, hturn, hlive, hall, Bool.not_true, Bool.false_eq_true, if_false, if_true]

/-- A chunk that is not the last moves, and PROG with it (R151). -/
theorem execCopyEngineChunk_moves {ctx : Half} {w : State} {k : Nat} (hop : s.op i = some o) (horph : o.orphan = false)
    (h : s.copyHead (s.copyQ ctx level) = some (e, o)) (hturn : s.copyTurnOk (s.copyQ ctx level) = true)
    (hmore : e.prog + k < dRowLen e.desc * dRows e.desc) (hover : s.copyOverlaps o.view e.desc = false) (hchunk : s.copyChunk id o.view e.desc e.prog = (w, .moved k)) :
    execCopyEngineChunk ctx level s =
      .next { w.keepCopyQ ((s.copyQ ctx level).advanced e k) 0 with copyTurn := w.turnsTaken ctx level e k } := by
  have hlive := State.copyHead_live hop h
  have hview : ({ o.view with late := false } : View) = o.view := by rw [Op.view, horph]
  have hnot : ¬ dRowLen e.desc * dRows e.desc ≤ e.prog := by omega
  have hnot' : ¬ dRowLen e.desc * dRows e.desc ≤ e.prog + k := by omega
  unfold execCopyEngineChunk
  simp only [h, hturn, hlive, hnot, hview, hover, Bool.not_true, Bool.false_eq_true, if_false]
  rw [hchunk]
  dsimp only
  rw [if_neg hnot']
  rfl

/-- The end of an entry tells its issuer, and HEAD advances (R288). -/
theorem State.copyDone_enters {ctx : Half} (ht : o.t.ts < 4) (hr : roomy s o.t.core o.ctx o.lid) (hid : o.id = i) :
    let u := s.copyDone (s.copyQ ctx level) e o 0
    opGone s u i ∧ entered s u o.t.core (copyMsg o e 0) ∧ (u.copyQ ctx level).ents = (s.copyQ ctx level).ents.drop 1 ∧
      (u.copyQ ctx level).head = (s.copyQ ctx level).head + 1 := by
  obtain ⟨w, hw, hent⟩ := State.enter_roomy hr (m := copyMsg o e 0) (msgMark_completion o ht (by decide) (by decide) _)
  obtain ⟨hkc, hkl⟩ := s.copyQ_key ctx level
  generalize hnext : ({ s.copyQ ctx level with head := (s.copyQ ctx level).head + 1, ents := (s.copyQ ctx level).ents.drop 1 } : CopyQ) = n
  have hdone : s.copyDone (s.copyQ ctx level) e o 0 = (w.keepCopyQ n n.ents.length).dropOp o.id := by
    subst hnext
    rw [State.copyDone, hw]
    rfl
  have hnc : n.ctx = ctx := by rw [← hnext]; exact hkc
  have hnl : n.level = level := by rw [← hnext]; exact hkl
  have hq : ((w.keepCopyQ n n.ents.length).dropOp o.id).copyQ ctx level = n := State.copyQ_keepCopyQ hnc hnl _
  obtain ⟨l, hframe⟩ := w.keepCopyQ_frame n n.ents.length
  intro u
  have hu : u = (w.keepCopyQ n n.ents.length).dropOp o.id := hdone
  refine ⟨?_, ?_, ?_, ?_⟩
  · rw [hu, opGone, hframe, hent.frame, ← hid]
    rfl
  · have hb := hent.basket
    rw [hu, entered, hframe]
    exact hb
  · rw [hu, hq, ← hnext]
  · rw [hu, hq, ← hnext]

/-- A chunk's bytes stand at its destination, where the queue itself does not (R151). -/
theorem State.holds_keepCopyQ {a k : Nat} {d : List Byte} {turn : List (Nat × Half)} (hd : d.length = k) (hw : writable s a k)
    (hout : ∀ at_, s.copyQBase q.ctx q.level = some at_ → a + k ≤ at_ ∨ at_ + 0x9000 ≤ a) :
    holds { (s.wrRw a d).keepCopyQ q 0 with copyTurn := turn } a d := by
  subst hd
  have hmem := s.wrRw_memOnly d a
  have hbase : ∀ at_, (s.wrRw a d).copyQBase q.ctx q.level = some at_ → a + d.length ≤ at_ ∨ at_ + 0x9000 ≤ a := by
    rw [hmem]
    exact hout
  have hread : ∀ n, n < d.length → ({ (s.wrRw a d).keepCopyQ q 0 with copyTurn := turn } : State).rdByte (a + n) = (s.wr a d).rdByte (a + n) := by
    intro n hn
    have hin := State.keepCopyQ_outside (s := s.wrRw a d) (q := q) (x := a + n) 0 (fun at_ hat => by have := hbase at_ hat; omega)
    rw [State.wrRw_eq_wr d hw.2] at hin ⊢
    exact hin
  rw [holds, State.rd_congr hread]
  exact Lasting.rd_wr d (Lasting.of_plain hw.1)

/-- A chunk in one block on each side (R151). -/
theorem execCopyEngineChunk_block {ctx : Half} {a b : Block} {k : Nat} (hop : s.op i = some o) (horph : o.orphan = false)
    (h : s.copyHead (s.copyQ ctx level) = some (e, o)) (hturn : s.copyTurnOk (s.copyQ ctx level) = true) (hk : k = chunkLen e.desc e.prog)
    (hmore : e.prog + k < dRowLen e.desc * dRows e.desc) (hover : s.copyOverlaps o.view e.desc = false) (hecc : s.eccMem = []) (hsoft : s.softMem = [])
    (hna : a.nr = false) (hnb : b.nr = false) (hla : a.len = k) (hlb : b.len = k)
    (hopen : ∀ i, i < k → s.barred (a.bus + i) = false ∧ s.barred (b.bus + i) = false)
    (ha : s.check o.view (chunkSrc e.desc e.prog) k rRD = .ok [a]) (hb : s.check o.view (chunkDst e.desc e.prog) k rWR = .ok [b]) :
    ∃ turn, execCopyEngineChunk ctx level s =
      .next { (s.wrRw b.bus (s.rd a.bus k)).keepCopyQ ((s.copyQ ctx level).advanced e k) 0 with copyTurn := turn } := by
  obtain ⟨hpos, hoff⟩ := State.check_single hb
  have hchunk := State.copyChunk_moves (v := o.view) hecc hsoft hna hnb (hk ▸ ha) (hk ▸ hb)
  rw [← hk, State.copyMove_block hpos hla hlb hoff hopen] at hchunk
  exact ⟨_, execCopyEngineChunk_moves hop horph h hturn hmore hover hchunk⟩

end

/-- Settles O43: each event writes its pieces as one block, and the issuer's message enters behind it. -/
theorem transferCompletes : Obligations.TransferCompletes := by
  intro s id o hop ht horph hr
  have hid : o.id = id := State.id_of_op hop
  refine ⟨fun d hk hheld hsent hclear hdam hd hopen hover hlen => ?_, fun o' g hk hheld hdeps hre hg hb hw => ?_, fun level e h hturn => ⟨fun hall => ?_, ?_⟩⟩
  · rcases hk with hk | hk
    · have hexec : exec (.brdComplete id) s = .next (s.blockDone o 4 1) := by
        show execBrdComplete id s = _
        rw [execBrdComplete, hop]
        exact if_pos hk
      obtain ⟨hgone, hholds, hstored, hent⟩ := State.blockDone_completes (kind := 4) (scope := 1) hid ht horph hr hheld hsent hclear hdam hd hopen hover hlen
        (by decide) (by decide)
      rw [hk]
      exact ⟨_, _, hexec, hgone, hholds, hstored, hent, rfl, rfl, rfl⟩
    · have hexec : exec (.bwrComplete id) s = .next (s.blockDone o 5 4) := by
        show execBwrComplete id s = _
        rw [execBwrComplete, hop]
        exact if_pos hk
      obtain ⟨hgone, hholds, hstored, hent⟩ := State.blockDone_completes (kind := 5) (scope := 4) hid ht horph hr hheld hsent hclear hdam hd hopen hover hlen
        (by decide) (by decide)
      rw [hk]
      exact ⟨_, _, hexec, hgone, hholds, hstored, hent, rfl, rfl, rfl⟩
  · obtain ⟨u, hexec, hgone, hholds, hstored, hent⟩ := execMstComplete_writes hop ht horph hr hk hheld hdeps hre hg hb hw
    obtain ⟨hts, -, hlid, hhdr, hseq, -⟩ := State.recheckOp_issuer hre
    refine ⟨u, _, hexec, hgone, hholds, hstored, hent, ?_, ?_⟩
    · rw [completion, hhdr]
    · rw [completion, hts, hlid, hseq]
  · exact ⟨_, execCopyEngineChunk_done hop h hturn hall, State.copyDone_enters ht hr hid⟩
  · intro a b k hk hmore hover hecc hsoft hna hnb hla hlb hopen ha hb
    obtain ⟨hkc, hkl⟩ := s.copyQ_key o.ctx level
    obtain ⟨turn, hexec⟩ := execCopyEngineChunk_block hop horph h hturn hk hmore hover hecc hsoft hna hnb hla hlb hopen ha hb
    refine ⟨_, hexec, ?_, fun hw hout => ?_⟩
    · have hq := State.copyQ_keepCopyQ (s := s.wrRw b.bus (s.rd a.bus k)) (q := (s.copyQ o.ctx level).advanced e k) hkc hkl 0
      exact congrArg CopyQ.ents hq
    · refine State.holds_keepCopyQ (State.length_rd _ _ _) hw ?_
      show ∀ at_, s.copyQBase (s.copyQ o.ctx level).ctx (s.copyQ o.ctx level).level = some at_ → _
      rw [hkc, hkl]
      exact hout

end Sys2Proof.Machine
end
